-- ==== Sys2Proof/Word.lean ====
section
/-! DEFINITION. The words of the BX64: registers are 32 bits (R11), module addresses 48 bits (R31), and the
    sparse tables every keyed store of the model uses. -/

namespace Sys2Proof

/-- A register or command word (R11). -/
abbrev W32 := BitVec 32

/-- A byte of memory. -/
abbrev Byte := BitVec 8

/-- A module physical address (R31). -/
abbrev Addr := BitVec 48

/-- A sparse table: pairs with strictly rising keys, none equal to what an unlisted key reads as.
    The order and the canonical form are said by `Tab.wf` in Machine/Ops.lean. -/
abbrev Tab (α : Type) := List (Nat × α)

/-- Little-endian bytes of a number, `n` of them. -/
def leBytes : Nat → Nat → List Byte
  | 0, _ => []
  | n + 1, v => BitVec.ofNat 8 v :: leBytes n (v / 256)

/-- The number a little-endian byte list spells. -/
def leNat : List Byte → Nat
  | [] => 0
  | b :: bs => b.toNat + 256 * leNat bs

end Sys2Proof
end

