-- ==== Sys2Proof/Syntax.lean ====
section
/-! DEFINITION. The commands of the block: one constructor of Instr per row of spec/opcode_table.json, with the
    operands the row's rule names, and the types those operands have. No row of the table has bits. -/

namespace Sys2Proof

/-- The blocks of R22 and R37, each with the place R37 gives it. -/
inductive Blk where
  | probe (die rtr : Nat)
  | ptab (die : Nat)
  | row (t : Fin 64)
  | seq (t : Fin 64)
  | vec (t : Fin 64)
  | acnt (t : Fin 64)
  | bank (t : Fin 64) (g : Fin 4)
  | seng (s : Fin 8)
  | chan (s : Fin 8) (c : Fin 32)
  | nve (s : Fin 8) (e : Fin 16)
  | pvm (s : Fin 8)
  | check (s : Fin 8) (k : Fin 8)
  | region (r : Fin 16)
  | port (p : Fin 96)
  | lanes (p : Fin 96)
  | loader
  | pcheck (k : Fin 4)
  | conc
  | ptm
  | pcie (e : Fin 2)
  | ocast
  | sec
  deriving DecidableEq, Repr

/-- The initiator of an access, as R410 and R412 put it in a packet header. -/
structure Init where
  die : BitVec 7
  rtr : BitVec 4
  part : BitVec 4
  op : Bool
  pri : BitVec 2
  deriving DecidableEq, Repr

/-- What an access does at its target (R410 OPC). -/
inductive Kind where
  | read | write | accum | cntInc | cntSet
  deriving DecidableEq, Repr

/-- An access: its initiator, what it does, where, how many bytes, the bytes, the counter index it carries
    (R227), the saturation bit of an accumulate (R223) and the coherent bit (R425). -/
structure Req where
  who : Init
  kind : Kind
  addr : Addr
  len : Nat
  data : List Byte
  cnt : Option (BitVec 8)
  sat : Bool
  coh : Bool
  deriving DecidableEq, Repr

/-- A 32-byte command (R177): header, operand words 1 to 7, and its source address (R179). -/
structure Cmd where
  hdr : W32
  w1 : W32
  w2 : W32
  w3 : W32
  w4 : W32
  w5 : W32
  w6 : W32
  w7 : W32
  src : W32
  deriving DecidableEq, Repr

/-- A Jirun processor: the sequencer of a tile (R160) or a management core (R524). -/
inductive Cpu where
  | tile (t : Fin 64)
  | core (k : Fin 4)
  deriving DecidableEq, Repr

/-- A register field of an instruction (R165): 0-7 globals, 8-23 window registers, 24-31 reserved. -/
abbrev RegF := BitVec 5

/-- A vector unit: a tile's, or Nimbus engine e of stack s (R154). -/
inductive VU where
  | tile (t : Fin 64)
  | eng (s : Fin 8) (e : Fin 16)
  deriving DecidableEq, Repr

/-- The units a completion or an error response can come from (R182, R191). -/
inductive XU where
  | vec (u : VU)
  | mover (t : Fin 64)
  | sync (t : Fin 64)
  deriving DecidableEq, Repr

/-- A check channel (R397). -/
inductive Ck where
  | ord (s : Fin 8) (k : Fin 8)
  | priv (k : Fin 4)
  deriving DecidableEq, Repr

/-- A unit that holds a mode (R511). -/
inductive ModeUnit where
  | row (t : Fin 64)
  | vec (t : Fin 64)
  | nve (s : Fin 8) (e : Fin 16)
  deriving DecidableEq, Repr

/-- Function f of PCIe endpoint e: 0 the PF, 1-16 the VFs (R526). -/
structure PFn where
  e : Fin 2
  f : Fin 17
  deriving DecidableEq, Repr

/-- What the check bits of an IM, DM or replay word said when it was read (R161). -/
inductive Ecc where
  | good | corrected | uncorrectable
  deriving DecidableEq, Repr

/-- What an instruction's fetch meets, and what the instruction's own read of a command block or of data memory meets
    (R161). -/
structure FetchEcc where
  fetch : Ecc
  data : Ecc
  deriving DecidableEq, Repr

/-- The operand of FILL: its offset field, and what its loads meet (R161, R172). -/
structure FillOp where
  off : BitVec 26
  ecc : Ecc
  deriving DecidableEq, Repr

/-- A beat of an extension port (R97). -/
structure Beat where
  data : BitVec 512
  sb : BitVec 8
  deriving DecidableEq, Repr

/-- Why a segment with work could not admit in a slot (R107), the start grant apart. -/
inductive Late where
  | port | weights | tokens | results
  deriving DecidableEq, Repr

/-- A symbol error on a DRAM read: in a beat (0-7), on a core (0-9), the bits that differ (R293). -/
structure SymErr where
  beat : Fin 8
  core : Fin 10
  bits : Byte
  deriving DecidableEq, Repr

/-- The widest passing windows of a byte lane in training (R315): read and write, left and right steps;
    right below left says that no step passed. -/
structure Eye where
  rl : BitVec 7
  rr : BitVec 7
  wl : BitVec 7
  wr : BitVec 7
  deriving DecidableEq, Repr

/-- One side of a stream context or of a queue. -/
inductive Side where
  | read | write
  deriving DecidableEq, Repr

/-- Where a Nimbus engine's bus error came from (R325). -/
inductive NeErr where
  | operand | dest | ring
  deriving DecidableEq, Repr

/-- A configuration frame as a FRAMES packet delivers it (R368): 128 words, the check word, and what the frame
    reads back as. -/
structure Frame where
  data : List W32
  check : W32
  back : List W32
  deriving DecidableEq, Repr

/-- A configuration upset as the column read-back finds it: frame of the column, word, bits that differ (R391). -/
structure Upset where
  frame : BitVec 8
  word : Fin 128
  bits : W32
  deriving DecidableEq, Repr

/-- A caching agent of the coherent system region (R425). -/
inductive Agent where
  | core (k : Fin 4)
  | region (r : Fin 16)
  deriving DecidableEq, Repr

/-- A coherent request (R425). -/
inductive CohReq where
  | share | own
  deriving DecidableEq, Repr

/-- What an ordered set carries on the 16 lanes: symbols 1-3 of each lane (R447). -/
abbrev OsLanes := List (BitVec 24)

/-- A Chagus frame as received: its 16 header bytes, its padded payload, and the CRC word of its trailer (R464). -/
structure LFrame where
  hdr : List Byte
  pay : List Byte
  crc : W32
  deriving DecidableEq, Repr

/-- What the dies report in discovery (R499): silent or wrong dies, and resources found bad. -/
structure Report where
  silent : List (BitVec 7)
  wrongId : List (BitVec 7)
  tiles : List (Fin 64)
  groups : List (Fin 256)
  cores : List (Fin 80)
  ports : List (Fin 96)
  regions : List (Fin 16)
  deriving DecidableEq, Repr

/-- A master of the commands of SMBus or the pins has no initiator; everything else carries `who`. -/
inductive Instr where
  -- common block control (R13-R18, R427, R504)
  | blkctlRun (b : Blk) (who : Init)
  | blkctlStop (b : Blk) (who : Init)
  | blkctlStopnow (b : Blk) (who : Init)
  | blkctlSoftrst (b : Blk) (who : Init)
  | modeEpochDirectWrite (b : Blk) (who : Init) (epoch : BitVec 8)
  | blkpartWrite (b : Blk) (who : Init) (v : W32)
  | registerWrite (who : Init) (a : Addr) (v : W32)
  | registerReadClear (who : Init) (a : Addr) (inc : W32)
  | blockStopped (b : Blk)
  -- the tile row (R55-R121)
  | pass (t : Fin 64) (c : Cmd)
  | flush (t : Fin 64) (c : Cmd)
  | argx (t : Fin 64) (c : Cmd)
  | tap (t : Fin 64) (c : Cmd)
  | shape (t : Fin 64) (c : Cmd)
  | shapeApply (t : Fin 64)
  | rampSlot (t : Fin 64) (late : List (Fin 8 × Late))
  | startGrant
  | laneProcessItem (t : Fin 64) (seg : Fin 8) (lane : Fin 512)
  | weightRecordArrival (t : Fin 64) (seg : Fin 8) (lane : Fin 512)
  | rowCommandComplete (t : Fin 64) (seg : Fin 8)
  | rowFeedError (t : Fin 64) (code : Fin 3) (seg : Fin 8) (lane : Fin 512) (a : Addr)
  | rateIntervalEnd (t : Fin 64) (rate : BitVec 16)
  | ratectlClrmin (who : Init) (t : Fin 64)
  | operandPortBeat (t : Fin 64) (b : Beat)
  | resultPortBeat (t : Fin 64) (b : Beat)
  | fabricCommandBeat (t : Fin 64) (b : Beat)
  | extensionPortDisconnect (t : Fin 64) (result : Bool)
  -- the Jirun instructions (R161-R196)
  | instructionFetch (q : Cpu) (ecc : FetchEcc)
  | alu (q : Cpu) (d a b : RegF) (fn : BitVec 11)
  | addi (q : Cpu) (d a : RegF) (imm : BitVec 16)
  | andi (q : Cpu) (d a : RegF) (imm : BitVec 16)
  | ori (q : Cpu) (d a : RegF) (imm : BitVec 16)
  | xori (q : Cpu) (d a : RegF) (imm : BitVec 16)
  | shi (q : Cpu) (d a : RegF) (imm : BitVec 16)
  | lui (q : Cpu) (d a : RegF) (imm : BitVec 16)
  | ldw (q : Cpu) (d a : RegF) (imm : BitVec 16) (ecc : Ecc)
  | stw (q : Cpu) (d a : RegF) (imm : BitVec 16)
  | ldb (q : Cpu) (d a : RegF) (imm : BitVec 16) (ecc : Ecc)
  | stb (q : Cpu) (d a : RegF) (imm : BitVec 16)
  | ldx (q : Cpu) (d a b : RegF) (fn : BitVec 11)
  | stx (q : Cpu) (d a b : RegF) (fn : BitVec 11)
  | ldxStxResponse (q : Cpu)
  | ldd (q : Cpu) (d a : RegF) (imm : BitVec 16)
  | std (q : Cpu) (d a : RegF) (imm : BitVec 16)
  | cmp (q : Cpu) (qd : BitVec 6) (a b : RegF) (cond : BitVec 4)
  | cmpi (q : Cpu) (qd : BitVec 6) (a : RegF) (cond : BitVec 4) (imm : BitVec 11)
  | plog (q : Cpu) (qd qa qb : BitVec 6) (lfn : BitVec 2)
  | prd (q : Cpu) (d a : RegF) (imm : BitVec 16)
  | pwr (q : Cpu) (d a : RegF) (imm : BitVec 16)
  | br (q : Cpu) (p : BitVec 6) (sense : Bool) (off : BitVec 19)
  | jmp (q : Cpu) (off : BitVec 26)
  | call (q : Cpu) (off : BitVec 26)
  | callr (q : Cpu) (d a b : RegF) (fn : BitVec 11)
  | ret (q : Cpu) (off : BitVec 26)
  | texit (q : Cpu) (off : BitVec 26)
  | trap (q : Cpu) (d a : RegF) (imm : BitVec 16)
  | halt (q : Cpu) (off : BitVec 26)
  | pwrp (q : Cpu) (p : BitVec 6) (a d : RegF)
  | prdp (q : Cpu) (p : BitVec 6) (a d : RegF)
  | crr (q : Cpu) (d a : RegF) (imm : BitVec 16)
  | crw (q : Cpu) (d a : RegF) (imm : BitVec 16)
  | issue (q : Cpu) (a : BitVec 12) (b : BitVec 13) (ecc : Ecc)
  | issuer (q : Cpu) (d a b : RegF) (fn : BitVec 11) (ecc : Ecc)
  | recbeg (q : Cpu) (a : BitVec 12) (b : BitVec 13)
  | recend (q : Cpu) (off : BitVec 26)
  | replay (q : Cpu) (a : BitVec 12) (b : BitVec 13)
  | replayEntry (t : Fin 64) (ecc : Ecc)
  | spill (q : Cpu) (off : BitVec 26)
  | fill (q : Cpu) (off : FillOp)
  | wfe (q : Cpu) (off : BitVec 26)
  | wfeWake (q : Cpu)
  | evack (q : Cpu) (d a b : RegF) (fn : BitVec 11) (arriving : W32)
  -- dispatch and the sequencer's pages (R180, R204-R206)
  | commandDispatch (t : Fin 64)
  | seqdoorWrite (who : Init) (t : Fin 64) (v : W32)
  | skippop (who : Init) (t : Fin 64) (v : W32)
  | dbgdataRead (who : Init) (t : Fin 64)
  | dbgdataWrite (who : Init) (t : Fin 64) (v : W32)
  -- commands of the vector units (R186-R189)
  | vadd (u : VU) (c : Cmd)
  | vsub (u : VU) (c : Cmd)
  | vmul (u : VU) (c : Cmd)
  | vmax (u : VU) (c : Cmd)
  | vmin (u : VU) (c : Cmd)
  | vfma (u : VU) (c : Cmd)
  | vfn (u : VU) (c : Cmd)
  | vcvt (u : VU) (c : Cmd)
  | smx1 (u : VU) (c : Cmd)
  | smx2 (u : VU) (c : Cmd)
  | smx3 (u : VU) (c : Cmd)
  | nst1 (u : VU) (c : Cmd)
  | nst2 (u : VU) (c : Cmd)
  | vectorCommandComplete (u : XU)
  | unitErrorResponse (u : XU) (write : Bool) (a : Addr) (reason : BitVec 8)
  -- commands of the other units (R190)
  | mcopy (t : Fin 64) (c : Cmd)
  | mfill (t : Fin 64) (c : Cmd)
  | sem (t : Fin 64) (c : Cmd)
  | semSatisfied (t : Fin 64)
  | cntadd (t : Fin 64) (c : Cmd)
  | cntaddPerform (t : Fin 64)
  | cntset (t : Fin 64) (c : Cmd)
  | sstart (t : Fin 64) (c : Cmd)
  | sstop (t : Fin 64) (c : Cmd)
  | nop (t : Fin 64) (c : Cmd)
  -- scratch and arrival counters (R213-R246)
  | scratchRead (r : Req)
  | scratchWrite (r : Req)
  | scratchAccumulate (r : Req)
  | counterIncrement (who : Init) (t : Fin 64) (c : BitVec 8) (v : W32)
  | counterSet (who : Init) (t : Fin 64) (c : BitVec 8) (v : W32)
  | acntWrite (who : Init) (t : Fin 64) (c : BitVec 8) (v : W32)
  | acaddWrite (who : Init) (t : Fin 64) (c : BitVec 8) (v : W32)
  | demandWriteback (t : Fin 64) (g : Fin 4)
  | drizzleScrubRead (t : Fin 64) (g : Fin 4) (bank : Fin 16)
  | scrubLapLimit (t : Fin 64) (g : Fin 4)
  | errinjWrite (who : Init) (t : Fin 64) (g : Fin 4) (v : W32)
  | sweepctlStart (who : Init) (t : Fin 64) (g : Fin 4)
  | sweepComplete (t : Fin 64) (g : Fin 4)
  -- streams (R247-R288)
  | ctxStart (who : Init) (s : Fin 8) (x : Fin 2048)
  | ctxStop (who : Init) (s : Fin 8) (x : Fin 2048)
  | ctxPause (who : Init) (s : Fin 8) (x : Fin 2048)
  | ctxResume (who : Init) (s : Fin 8) (x : Fin 2048)
  | ctxAccessesDrained (s : Fin 8) (x : Fin 2048)
  | ctxEndReached (s : Fin 8) (x : Fin 2048)
  | ctxownWrite (who : Init) (s : Fin 8) (x : Fin 2048) (v : W32)
  | quotaWrite (who : Init) (s : Fin 8) (p : Fin 16) (v : W32)
  | descriptorFetch (s : Fin 8) (x : Fin 2048)
  | cursorReachDescriptor (s : Fin 8) (x : Fin 2048) (side : Side)
  | dependencePoll (s : Fin 8) (x : Fin 2048) (side : Side)
  | dependencePollResponse (s : Fin 8) (x : Fin 2048) (side : Side)
  | streamReadIssue (s : Fin 8) (x : Fin 2048)
  | bufferBorrow (s : Fin 8)
  | streamReadData (s : Fin 8) (x : Fin 2048)
  | streamWriteIssue (s : Fin 8) (x : Fin 2048)
  | streamWriteAck (s : Fin 8) (x : Fin 2048)
  | streamAccessError (s : Fin 8) (x : Fin 2048) (side : Side) (a : Addr) (reason : BitVec 8)
  | lullCheck
  -- DRAM, page-valid manager, training (R289-R319)
  | dramAccessRequest (r : Req)
  | dramAccessPerform (s : Fin 8) (c : Fin 32) (errs : List SymErr)
  | fillWrite (s : Fin 8)
  | dramDemandWriteback (s : Fin 8) (c : Fin 32)
  | refresh (s : Fin 8) (c : Fin 32)
  | coreTempReport (s : Fin 8) (core : Fin 10) (temp : Nat)
  | dramScrubRead (s : Fin 8) (c : Fin 32) (errs : List SymErr)
  | dramLapLimit (s : Fin 8)
  | pvClear (who : Init) (s : Fin 8)
  | pvClearComplete (s : Fin 8)
  | ilvcfgWrite (who : Init) (s : Fin 8) (v : W32)
  | erasectlWrite (who : Init) (s : Fin 8) (c : Fin 32) (v : W32)
  | caParityError (s : Fin 8) (c : Fin 32)
  | frzctlResume (who : Init) (s : Fin 8) (c : Fin 32)
  | frzctlDiscard (who : Init) (s : Fin 8) (c : Fin 32)
  | trnctlStart (who : Init) (s : Fin 8) (c : Fin 32)
  | trainingComplete (s : Fin 8) (c : Fin 32) (eyes : List Eye)
  -- Nimbus vector engines (R320-R331)
  | neheadWrite (who : Init) (s : Fin 8) (e : Fin 16) (v : W32)
  | neRingFetch (s : Fin 8) (e : Fin 16)
  | nred (s : Fin 8) (e : Fin 16) (c : Cmd)
  | gather (s : Fin 8) (e : Fin 16) (c : Cmd)
  | nwait (s : Fin 8) (e : Fin 16) (c : Cmd)
  | ncount (s : Fin 8) (e : Fin 16) (c : Cmd)
  | neBusError (s : Fin 8) (e : Fin 16) (kind : NeErr) (a : Addr) (reason : BitVec 8)
  -- programmable fabric (R332-R363)
  | queueWrite (r : Fin 16) (k : Fin 512) (d : BitVec 72)
  | queueRead (r : Fin 16) (k : Fin 512)
  | queueReset (r : Fin 16) (k : Fin 512)
  | stickyClear (r : Fin 16) (k : Fin 512) (side : Side) (rise : Bool) (err : Bool)
  | pllLockLoss (r : Fin 16) (pll : Fin 2)
  | regionStartSignal (r : Fin 16)
  | pllsLocked (r : Fin 16)
  | startupPortsOn (r : Fin 16)
  | fabricQuiesced (r : Fin 16)
  | frClear (who : Init) (r : Fin 16)
  | frClearComplete (r : Fin 16)
  | windowRequest (q : Req)
  | windowResponse (r : Fin 16) (tag : Fin 64) (data : List Byte)
  | windowTimeout (r : Fin 16) (tag : Fin 64)
  | fabricInitiatorRequest (r : Fin 16) (kind : Kind) (a : Addr) (len : Nat) (data : List Byte)
      (cnt : Option (BitVec 8)) (sat coh : Bool) (pri : BitVec 2)
  | probeRouteWrite (who : Init) (r : Fin 16) (j : Fin 64) (pin : Bool) (v : W32)
  | fabricPowerInterval (r : Fin 16) (power : BitVec 16)
  -- configuration loading, readback, keys (R364-R396)
  | ccStart (who : Init)
  | ccAbort (who : Init)
  | ccReldone (who : Init)
  | pass1Authentication
  | devchk (v : W32)
  | options (v : W32)
  | openPkt (v : W32)
  | setaddr (v : W32)
  | frames (fs : List Frame)
  | pass2Restart
  | tally (v : W32)
  | close (v : W32)
  | cfgdoneStartSignal
  | chainTransmit
  | cfgretrySample (low : Bool)
  | chainStreamStart (sections : List (List Byte))
  | chainStreamEnd
  | readbackColumn (r : Fin 16) (ups : List Upset)
  | keyProgram (who : Init) (v : W32)
  | keyProgramComplete
  | keyRevoke (who : Init) (v : W32)
  -- check channels (R397-R406)
  | ckStart (who : Init) (k : Ck)
  | checkDependencePoll (k : Ck)
  | checkScanRead (k : Ck)
  | checkScanComplete (k : Ck)
  | checkScanError (k : Ck) (reason : BitVec 8)
  -- network, fences, windows, coherence (R407-R443)
  | routerForward (die : BitVec 7) (rtr : BitVec 4)
  | targetRequestCheck (die : BitVec 7) (rtr : BitVec 4)
  | networkResponse (die : BitVec 7) (rtr : BitVec 4)
  | domainWakeDone (d : Fin 95)
  | fenceHandshake (d : Fin 95)
  | fenceDrainTimeout (d : Fin 95)
  | pwctlWrite (who : Init) (s : Fin 8) (w : Fin 64) (word : Fin 4) (v : W32)
  | wipedClearMessage (s : Fin 8)
  | coherentRequest (g : Agent) (a : Addr) (r : CohReq)
  | snoopInvalidate (g : Agent) (a : Addr)
  | snoopShare (g : Agent) (a : Addr)
  | snoopReply (g : Agent) (a : Addr)
  | writeBack (g : Agent) (a : Addr) (data : List Byte)
  | snoopTimeout (r : Fin 16) (a : Addr)
  | eventMessage
  | lrpop (who : Init) (die : BitVec 7) (v : W32)
  | prclr (who : Init) (die : BitVec 7) (rtr : BitVec 4) (v : W32)
  -- the Chagus link (R444-R489)
  | fillSet (p : Fin 96) (l : OsLanes)
  | align (p : Fin 96) (l : OsLanes) (skew : BitVec 7)
  | alignmentLoss (p : Fin 96)
  | ack (p : Fin 96) (l : OsLanes)
  | nak (p : Fin 96) (l : OsLanes)
  | credit (p : Fin 96) (l : OsLanes)
  | pause (p : Fin 96) (l : OsLanes)
  | eios (p : Fin 96) (l : OsLanes)
  | ts (p : Fin 96) (lanes : List (List Byte)) (pol : BitVec 16)
  | ackCreditRepeat (p : Fin 96)
  | bringUpStart (p : Fin 96)
  | qualifyComplete (p : Fin 96) (viol disp : List (Fin 16))
  | rateStepComplete (p : Fin 96)
  | bringUpTimeout (p : Fin 96)
  | autoretryRestart (p : Fin 96)
  | retrainTimeout (p : Fin 96)
  | mistEntry (p : Fin 96)
  | mistExit (p : Fin 96)
  | mistRelockTimeout (p : Fin 96)
  | frameTransmit (p : Fin 96)
  | linkReplayTimeout (p : Fin 96)
  | pauseExpiry (p : Fin 96)
  | pausetxSend (who : Init) (p : Fin 96) (v : W32)
  | messageFrame (p : Fin 96) (f : LFrame)
  | readRequestFrame (p : Fin 96) (f : LFrame)
  | writeRequestFrame (p : Fin 96) (f : LFrame)
  | readResponseFrame (p : Fin 96) (f : LFrame)
  | writeCompletionFrame (p : Fin 96) (f : LFrame)
  | requestAbandon (p : Fin 96) (tag : BitVec 12)
  | tagHoldExpiry (p : Fin 96) (tag : BitVec 12)
  | rxheadWrite (who : Init) (p : Fin 96) (v : W32)
  -- start-up, Overcast, epochs, resets, power (R490-R524)
  | romBoot (image backup : List Byte)
  | discovery (board : List Byte) (rep : Report)
  | rediscover (who : Init) (board : List Byte) (rep : Report)
  | modrst (who : Init) (v : W32)
  | ocSend (who : Init)
  | overcastPacket (t : Fin 64) (data : List Byte) (last : Option W32)
  | broadcastComplete
  | ocEpoch (who : Init)
  | modeEpochApply (u : ModeUnit)
  | epochTimeout
  | dieReset (who : Init) (v : W32)
  | resetDrainTimeout (die : BitVec 7) (tile : Option (Fin 64))
  | pdreqOn (who : Init) (d : BitVec 7)
  | pdreqSleep (who : Init) (d : BitVec 7)
  | pdreqShut (who : Init) (d : BitVec 7)
  | domainSwitchedOn (d : Fin 95)
  | powerAverage (watts : BitVec 13)
  | capStep
  | tempSample (temps : List Nat)
  | faballocWrite (who : Init) (r : Fin 16) (v : W32)
  | timerCompare (k : Fin 4)
  -- host, copy rings, events (R525-R537)
  | hostRead (f : PFn) (bar : Fin 3) (off : BitVec 48) (len : Nat) (id : Nat)
  | hostWrite (f : PFn) (bar : Fin 3) (off : BitVec 48) (data : List Byte)
  | hostReadTimeout (f : PFn) (id : Nat)
  | functionLevelReset (f : PFn)
  | perstRise (e : Fin 2) (clksel : Bool)
  | vfpartWrite (who : Init) (e : Fin 2) (n : Fin 16) (v : W32)
  | crheadWrite (f : PFn) (v : W32)
  | copyDescriptor (f : PFn) (desc : List Byte) (data : List Byte) (hostErr : Option (BitVec 8))
  | eventSample
  | notify (target : Fin 38)
  | armidleWrite (f : PFn) (v : W32)
  | dbsetWrite (who : Init) (hi : Bool) (v : W32)
  -- MCTP and JTAG (R538, R539)
  | getstate
  | gettemp
  | getpwr
  | setpcap (v : W32)
  | readreg (a : Addr)
  | writereg (a : Addr) (v : W32)
  | mctpModrst
  | bypass
  | idcode
  | samplePreload (scan : List Bool)
  | highz
  | clamp
  | extest
  | extestPulse
  | extestTrain
  -- supplies and reset pins (R547-R556)
  | p48InRange
  | p48Loss
  | vsbLoss (returns : Bool)
  | mrstNAssert (ns : Nat)
  | mrstNRelease (straps : BitVec 3)
  | pwrgdRelease
  | zenithFirmwareWatchdog
  -- remaining events
  | imDmZeroingDone (t : Fin 64)
  | nwaitPoll (s : Fin 8) (e : Fin 16)
  | autopauseRepeat (p : Fin 96)
  | designEventInput (r : Fin 16) (n : Fin 4) (level : Bool)
  | beatTransferToFabric (t : Fin 64) (result : Bool)
  | pcieLinkUp (e : Fin 2) (gen : BitVec 3) (width : BitVec 5)
  | pcieLinkDown (e : Fin 2)
  | vfEnableChange (e : Fin 2) (numvf : Fin 17)
  | msixVectorUnmask (f : PFn)
  | vioSupplyChange (b : Fin 16) (above : Bool)
  deriving DecidableEq, Repr

end Sys2Proof
end

