-- ==== Sys2Proof/Config.lean ====
section
/-! DEFINITION. What the spec leaves open after the machine goes on: free values, constants with no body, so that
    nothing can be proved about which value they are. Each is named in the assumption log. -/

namespace Sys2Proof

/-! ### What an image sets in a region (R334-R336, R341, R356) -/

/-- Where a signal of a design comes from: a constant; a cell's table (either half), flip-flop (either), carry or sum; a
    bit of a DSP slice's output or chain; a bit of a block memory's port A or B or one of its queue flags; a pin, a port or
    anything else outside the logic. -/
inductive Signal where
  | const (b : Bool)
  | table (cell : Nat) (upper : Bool)
  | flop (cell : Nat) (second : Bool)
  | carry (cell : Nat)
  | sum (cell : Nat)
  | dsp (slice n : Nat)
  | chain (slice n : Nat)
  | mem (k : Nat) (second : Bool) (n : Nat)
  | flag (k n : Nat)
  | outer (n : Nat)
  deriving DecidableEq, Repr, Inhabited

/-- A flip-flop: clock, data, clock enable, set or reset (`set` says which, `sync` how), initial value (R334). -/
structure Flop where
  clk : Fin 8
  d : Signal
  ce : Signal
  sr : Signal
  sync : Bool
  set : Bool
  init : Bool
  deriving DecidableEq, Repr, Inhabited

/-- A logic cell: its table, as one of six inputs or (`split`) two of five on shared inputs, what its carry takes when the
    table does not pass the carry on, and its two flip-flops (R334). -/
structure LogicCell where
  table : BitVec 64
  split : Bool
  ins : List Signal
  gen : Signal
  flop0 : Flop
  flop1 : Flop
  deriving DecidableEq, Repr, Inhabited

/-- A DSP slice (R334): operands a and b, the input adder's second input d, the choices of the input adder, the multiplier,
    the accumulator, the chain and the output, and which of the five parts have their register. -/
structure Slice where
  clk : Fin 8
  a : List Signal
  b : List Signal
  d : List Signal
  pre : Bool
  preSub : Bool
  preSat : Bool
  signA : Bool
  signB : Bool
  pair : Bool
  load : Signal
  sub : Signal
  konst : BitVec 60
  chain : Bool
  round : Bool
  shift : Fin 41
  width : Option (Fin 45)
  preReg : Bool
  mulReg : Bool
  accReg : Bool
  outReg : Bool
  chainReg : Bool
  deriving DecidableEq, Repr, Inhabited

/-- A read/write port of a block memory in RAM mode (R335). -/
structure RamPort where
  clk : Fin 8
  en : Signal
  we : Signal
  addr : List Signal
  din : List Signal
  deriving DecidableEq, Repr, Inhabited

/-- A block memory: RAM or queue, asynchronous or not, its width 9 × 2^w, the marks as the image has them, and the ports
    of RAM mode (R335, R336). -/
structure MemCfg where
  ram : Bool
  async : Bool
  w : Fin 4
  aemark : Nat
  afmark : Nat
  portA : RamPort
  portB : RamPort
  deriving DecidableEq, Repr, Inhabited

/-- What pulls a pin (R356). -/
inductive Pull where
  | none | up | down | keeper
  deriving DecidableEq, Repr, Inhabited

/-- A pin that a design uses: an output and what drives it, its pull, fast slew (R356). -/
structure PinCfg where
  output : Bool
  drive : Signal
  pull : Pull
  fast : Bool
  deriving DecidableEq, Repr, Inhabited

/-- A PLL's reference: the carrier's clock, or clock-capable pin 0 or 1 of the bank (R341). -/
inductive PllRef where
  | carrier | pin0 | pin1
  deriving DecidableEq, Repr, Inhabited

namespace Config

/-- The n-th value the spec calls undefined (log entry 3). -/
opaque freeWord : Nat → BitVec 64

/-- What an image makes of a region, read from its configuration memory: the bit places of these settings in
    configuration frames are not given (R334, R335, R341, R342, R356; log entry 14). PLLs used and their references; pins
    used and their settings; PORTCLK; MHz of a region clock, 0 unused; cells, DSP slices and block memories. -/
opaque imagePlls : Tab (List W32) → BitVec 2
opaque imagePllRef : Tab (List W32) → Nat → PllRef
opaque imagePins : Tab (List W32) → BitVec 12
opaque imagePin : Tab (List W32) → Nat → PinCfg
opaque imageClocks : Tab (List W32) → BitVec 32
opaque imageFreq : Tab (List W32) → Nat → BitVec 11
opaque imageCell : Tab (List W32) → Nat → LogicCell
opaque imageSlice : Tab (List W32) → Nat → Slice
opaque imageMem : Tab (List W32) → Nat → MemCfg

/-- The cell and the slice below one in its column, which R334 speaks of and the spec does not number (log entry 70). -/
opaque belowCell : Nat → Option Nat
opaque belowSlice : Nat → Option Nat

/-- Where region clock k of region r is in its period when the timebase is 0, in thousandths (log entry 70). -/
opaque clockPhase : Nat → Nat → Nat

/-- Undefined values inside a region, by the free value drawn and the place (R334, R347; log entries 3 and 70). -/
opaque fabricFree : Nat → Nat → BitVec 72

/-- The quotient of R152 by a count that no FP32 value is, which a row split over commands can reach: the spec divides
    by an exact float n of at most 2^24 (log entry 3). -/
opaque inexactQuotient : W32 → Nat → W32

end Config
end Sys2Proof
end

