-- ==== Sys2Proof/Machine/State.lean ====
section
/-! DEFINITION. The state of the BX64: every register, memory, queue, table, mode and pin the spec gives the module,
    as plain data, and the queue of waiting commands. Registers that are plain words stand in `regs`, keyed by their
    place (R36); what a register only shows is computed from the structures below when it is read. -/

namespace Sys2Proof.Machine

/-- The model stops with no fault: every fault of the BX64 is a next state (an error log, a FAULT block state, an
    error response). No constructor: nothing raises one. -/
inductive Fault where
  deriving DecidableEq, Repr

/-- Why the model refuses a command. -/
inductive Refusal where
  /-- Raised by Machine/Dispatch.lean for a command that has no meaning yet. Safe. -/
  | notModelled (mnemonic : String)
  /-- Raised by every meaning for operands that Sys2Proof.wellFormed rejects: no command of the table has them. Safe. -/
  | illFormed
  deriving DecidableEq, Repr

/-! ### Block state, logs, fuses, clock -/

/-- One error-log entry (R562). -/
structure LogEnt where
  w0 : W32
  w1 : W32
  w2 : W32
  w3 : W32
  deriving DecidableEq, Repr

/-- The part of a block's state that requests and faults change (R504); IDLE or RUNNING, OFF and ABSENT are computed. -/
inductive Run where
  | going | stopping | stopped | fault
  deriving DecidableEq, Repr

/-- Per block: R504's run state, the applied mode epoch, and whether a RUN or a fetch happened since the last reset (R427). -/
structure BlkSt where
  run : Run
  epoch : BitVec 8
  used : Bool
  deriving DecidableEq, Repr

/-- The fused floor plan record (R49). -/
structure Fpr where
  hdr : W32
  ordcode : W32
  serial : BitVec 64
  tileGood : BitVec 64
  counts : W32
  scrBad : BitVec 256
  dramFail : BitVec 64
  portBad : BitVec 96
  fabStat : W32
  crc : W32
  deriving DecidableEq, Repr

/-- What only fuses hold: the floor plan record, the key slots and their revocations (R49, R373), factory trims (R451).
    A listed slot is programmed. -/
structure Fuses where
  fpr : Fpr
  sigKeys : Tab (BitVec 384)
  sigRev : BitVec 6
  encKeys : Tab (BitVec 256)
  encRev : BitVec 3
  trims : Tab W32
  deriving DecidableEq, Repr

/-- The module timebase (R490): nanoseconds, and whether it counts. -/
structure Clock where
  now : BitVec 64
  counting : Bool
  deriving DecidableEq, Repr

/-! ### The row of a tile -/

/-- The state of an accumulator entry (R63). -/
inductive EntK where
  | idle | opened | pending
  deriving DecidableEq, Repr

/-- An entry: its state, the type it accumulates in, and the record slot it belongs to while PENDING (R66). -/
structure Ent where
  k : EntK
  int : Bool
  slot : Nat
  deriving DecidableEq, Repr

/-- A result descriptor as captured at acceptance (R79, R117). -/
structure RDesc where
  base : W32
  baseh : W32
  ctl : W32
  mult : W32
  deriving DecidableEq, Repr

/-- A pending record (R66). -/
structure Rec where
  first : Nat
  count : Nat
  int : Bool
  sat : Bool
  rdi : Nat
  rd : RDesc
  off : Nat
  deriving DecidableEq, Repr

/-- Entry states, pending records by slot 0-3 (R118) and loaded weight format of a segment, as accepted commands
    leave them (R80), or as completed ones have (R109). -/
structure SegAcc where
  ents : Tab Ent
  recs : Tab Rec
  loaded : Option (BitVec 4)
  deriving DecidableEq, Repr

/-- The five row commands (R78). -/
inductive RowOp where
  | pass | flush | argx | tap | shape
  deriving DecidableEq, Repr

/-- An accepted row command (R79): captured descriptors, the entries it emits with their records (R65),
    how many items it admits and has admitted, and where it is; `outs`: outputs of a TAP handed to memory (R92). -/
structure RowCmd where
  id : Nat
  op : RowOp
  seg : Nat
  cmd : Cmd
  fabric : Option (BitVec 16)
  seqno : Nat
  fmt : W32
  rd : RDesc
  emits : List (Nat × Rec)
  total : Nat
  admitted : Nat
  started : Bool
  outs : Nat
  deriving DecidableEq, Repr

/-- What an item is (R56, R105). -/
inductive ItemK where
  | token (j : Nat) | flush (e : Nat) | argx (e : Nat) | sample (m : Nat) | null
  deriving DecidableEq, Repr

/-- An item in a segment: its command, the local lane that processes it next, its token record or decoded words (R60,
    R98), and the running best of an ARGX item (R88). -/
structure Item where
  kind : ItemK
  cmd : Nat
  lane : Nat
  tok : List Byte
  dec : List W32
  best : W32
  bestLane : Nat
  deriving DecidableEq, Repr

/-- A result row being emitted (R67): record, row number, values so far in lane order, the command that causes it. -/
structure RowBuf where
  rcd : Rec
  row : Nat
  ent : Nat
  vals : List W32
  cmd : Nat
  deriving DecidableEq, Repr

/-- A result on its way to the writer: out on the result port and awaited back (R99), or, with `beats` 0, complete in `got`
    and waiting for the earlier results of its segment (R95). -/
structure PortOut where
  cmd : Nat
  seg : Nat
  beats : Nat
  got : List W32
  addr : Nat
  rd : RDesc
  sat : Bool
  int : Bool
  count : Bool
  deriving DecidableEq, Repr

/-- One segment of the row (R76). Key of `inw` (weight records arrived ahead of their front): command id × 512 + lane;
    of `taps` (lane terms of TAP outputs): (command id × 2^24 + output) × 512 + lane. `tapBuf`: output bytes that do not
    yet fill a word. -/
structure Seg where
  acc : SegAcc
  act : SegAcc
  items : List Item
  inw : Tab (List Byte)
  rows : List RowBuf
  taps : Tab W32
  tapBuf : List Byte
  deriving DecidableEq, Repr

/-- The row of a tile (R55): accumulators keyed lane × 256 + entry, weight records keyed by lane, shape in force and
    as accepted, command queue, segments, ramp (R103), modes, extension-port queues of 32 beats (R97, R102, R351) with the
    beats that their sender holds for them in `opWait` and `resWait`; `accSeed`, the model's own: the first of the free
    values that unlisted accumulators read (log entry 3). -/
structure Row where
  accv : Tab W32
  wts : Tab (List Byte)
  shape : BitVec 2
  accShape : BitVec 2
  queue : List RowCmd
  exec : List RowCmd
  nextId : Nat
  segs : Tab Seg
  level : Nat
  credit : Nat
  steps : Nat
  grantWait : Bool
  granted : Bool
  compat : Bool
  fabSeq : BitVec 16
  fabNext : BitVec 16
  fabHeld : List (Cmd × BitVec 16)
  opOut : List Beat
  opIn : List Beat
  resOut : List Beat
  awaiting : List PortOut
  opWait : List Beat
  resWait : List Beat
  accSeed : Option Nat
  deriving DecidableEq, Repr

/-! ### The Jirun processor and the units it feeds -/

/-- A command in the FIFO (R179): resolved, tagged with its epoch and its place in the stream. -/
structure FCmd where
  cmd : Cmd
  epoch : BitVec 8
  seqno : Nat
  deriving DecidableEq, Repr

/-- A skip-log entry (R192). -/
structure SkipEnt where
  addr : W32
  hdr : W32
  reason : W32
  deriving DecidableEq, Repr

/-- What an instruction that has not retired waits for (R164, R168, R169, R179). -/
inductive Wait where
  | none
  | wfe
  | load (d : RegF) (a : Addr) (dbl : Bool)
  | store (a : Addr)
  deriving DecidableEq, Repr

/-- A Jirun processor (R160, R524). `regs`: g0-g7 at 0-7, window v register n at 8 + 16v + n (R206).
    `rbuf`: replay word entry × 9 + word (R206). `outst`: dispatched commands that have not completed (R180).
    `epSince`: since when the head command is held for its epoch tag (R277). -/
structure Proc where
  im : Tab Byte
  dm : Tab Byte
  regs : Tab (BitVec 64)
  params : Tab (BitVec 64)
  preds : BitVec 64
  pc : BitVec 64
  curwin : Nat
  res : Nat
  intrap : Bool
  spilled : Nat
  live : Bool
  wait : Wait
  skipBrk : Bool
  trvec : BitVec 64
  trpc : BitVec 64
  trcode : W32
  trinfo : BitVec 64
  spillptr : BitVec 64
  spilllim : BitVec 64
  sevpend : W32
  sevena : W32
  sevlatch : W32
  seqepoch : BitVec 8
  brkaddr : BitVec 64
  brkctl : Bool
  tbhi : W32
  tcmplo : W32
  tcmphi : W32
  armed : Bool
  recording : Bool
  recNext : Nat
  recRun : Bool
  replay : Option (Nat × Nat)
  rbuf : Tab W32
  fifo : List FCmd
  nextSeq : Nat
  outst : List Nat
  skips : List SkipEnt
  zeroing : Bool
  epSince : Option (BitVec 64)
  deriving DecidableEq, Repr

/-- A command in a unit other than the row (R181, R321): with captured format descriptor and, for a Nimbus engine,
    its ring index. -/
structure UCmd where
  cmd : Cmd
  seqno : Nat
  fmt : W32
  idx : BitVec 16
  deriving DecidableEq, Repr

/-- A unit's queue, its executing command and its progress (R181, R197), a poll in flight and when the next is due
    (R323), since when the executing command waits, and the applied mode. `epSince`: since when a Nimbus engine's ring is
    held for its epoch (R321). -/
structure Unit where
  queue : List UCmd
  active : Option UCmd
  prog : Nat
  compat : Bool
  waiting : Bool
  since : BitVec 64
  pollAt : BitVec 64
  epSince : Option (BitVec 64)
  deriving DecidableEq, Repr

/-- A tile (R40): row, sequencer, vector unit, data mover, sync unit, stream unit. -/
structure Tile where
  row : Row
  seq : Proc
  vec : Unit
  mover : Unit
  sync : Unit
  str : Unit
  deriving DecidableEq, Repr

/-! ### Scratch bank groups, streams, DRAM, Nimbus -/

/-- A bank group (R237-R239): zero sweep, wiped, scrub lap, corrected words waiting for write-back (R233). -/
structure Bank where
  sweep : Bool
  sweepFrom : BitVec 64
  wiped : Bool
  lapRows : Tab Nat
  lapFrom : BitVec 64
  lapOver : Bool
  wbs : List Nat
  deriving DecidableEq, Repr

/-- The states of a stream context (R249). -/
inductive CtxSt where
  | idle | active | pausing | paused | stopping | error
  deriving DecidableEq, Repr

/-- A block descriptor (R251): its address and its eight words. -/
structure Desc where
  at_ : Addr
  words : List W32
  deriving DecidableEq, Repr

/-- A cursor of a context (R252): how many descriptors it has passed, next descriptor address, bias, the block in hand,
    bytes of it issued, whether its mark is met, poll state (R255), the start of the present wait, whether END was
    reached. -/
structure Cursor where
  pos : Nat
  addr : Addr
  bias : W32
  blk : Option Desc
  issued : Nat
  met : Bool
  polling : Bool
  pollAt : BitVec 64
  since : Option (BitVec 64)
  atEnd : Bool
  deriving DecidableEq, Repr

/-- An access of a context in flight (R258, R259): its block, its place in the stream, the port and tag it went to (R474,
    R478), and what has come back from there. -/
structure CAcc where
  addr : Addr
  len : Nat
  data : List Byte
  accum : Bool
  sat : Bool
  blk : Nat
  pos : Nat
  via : Option (Fin 96 × Nat)
  back : Option (BitVec 8)
  deriving DecidableEq, Repr

/-- A block begun and not completed (R260): ordinal, its descriptor, bytes left to stage or to see visible. -/
structure BlkProg where
  n : Nat
  desc : Desc
  left : Nat
  side : Side
  deriving DecidableEq, Repr

/-- A stream context (R247-R261). `fetched` begins with descriptor number `fbase`; `floor` and `bslots` (the buffers of
    the stream, by ordinal, that are borrowed ones) are the buffers held; `rwait`, `wwait`: a port takes nothing now;
    `bad`: the ordinal of the failing block once an error is pending; `byEngine`: paused by STOP of the engine. -/
structure Ctx where
  st : CtxSt
  done : Bool
  rcur : Cursor
  wcur : Cursor
  fbase : Nat
  fetched : List Desc
  fetchAt : Addr
  fetchStop : Bool
  staged : List Byte
  rin : List CAcc
  win : List CAcc
  blks : List BlkProg
  rpos : Nat
  wpos : Nat
  floor : Nat
  bslots : List Nat
  bufSince : Option (BitVec 64)
  stgSince : Option (BitVec 64)
  rwait : Bool
  wwait : Bool
  bad : Option Nat
  byEngine : Bool
  deriving DecidableEq, Repr

/-- Who waits for the response to a packet or a queued access (R408). -/
inductive Src where
  | nobody
  | cpu (q : Cpu)
  | host (f : PFn) (id k : Nat)
  | posted (f : PFn) (n : Nat) (a : Addr)
  | ctx (k : Fin 8) (x : Fin 2048) (side : Side) (pos : Nat)
  | region (r : Fin 16) (tag : Nat)
  | port (p : Fin 96) (key : Nat)
  | mgmt
  deriving DecidableEq, Repr

/-- An access in a DRAM channel's queue (R301, R302). `acked`: a write of whole beats, answered when it was accepted; `fill`: a
    write of the fill tracker (R308). -/
structure QAcc where
  req : Req
  src : Src
  loc : Nat
  arrived : BitVec 64
  acked : Bool
  fill : Bool
  deriving DecidableEq, Repr

/-- A request that waits at a base die: in its router, its channel being full (R301), or as the first write of a page with no
    fill-tracker entry free (R308). -/
structure DramWait where
  req : Req
  src : Src
  since : BitVec 64
  fill : Bool
  deriving DecidableEq, Repr

/-- A fill-tracker entry (R308): page, filled blocks, partition of its first write. -/
structure FillEnt where
  page : Nat
  mask : BitVec 64
  part : BitVec 4
  deriving DecidableEq, Repr

/-- Per base die: borrow round robin (R264), issue round robin per share and PRI level (R268), fill tracker (R308), requests
    that wait at the die (R301, R308), a CLEAR in progress (R309), core temperatures (R306), scrub lap start (R319). -/
structure Stack where
  lastBorrow : Nat
  turns : List (Nat × Nat)
  fills : List FillEnt
  waits : List DramWait
  clearing : Option (Nat × Nat)
  hot : BitVec 10
  fast : Bool
  lapFrom : BitVec 64
  lapOver : Bool
  wiped : Tab Bool
  deriving DecidableEq, Repr

/-- Why a channel is frozen (R313). -/
inductive Frz where
  | parity | uncorrectable
  deriving DecidableEq, Repr

/-- A DRAM channel (R289-R319). `frozen`: the cause, `frozenAt` since when; `failed`: FAULT under R316; `openRow`: bank to
    row + 1, as of `rowsAt`; `cmds`: the last eight DRAM commands, newest first, as bank and row or block (R328). -/
structure Chan where
  queue : List QAcc
  frozen : Option Frz
  frozenAt : BitVec 64
  failed : Bool
  training : Bool
  openRow : Tab Nat
  rowsAt : BitVec 64
  inorder : Tab Nat
  cmds : List (Nat × Option Nat)
  refNext : Nat
  refDebt : Tab Nat
  wbs : List Nat
  scrubAt : Nat
  scrubLast : BitVec 64
  deriving DecidableEq, Repr

/-! ### Fabric, loading, check engines -/

/-- A block memory and its queue controller (R335-R340). `rdSeen`, `wrSeen`: the level each side's flags show; `rdLag`,
    `wrLag`: edges since the other side moved (R339). Stickies: AEMPTY_X, AFULL_X, OVF, UNF. `words`: those written since the
    contents were last loaded; `wptr`: the queue's write pointer; `out`: what a queue or port A last read, `outB` port B. -/
structure Queue where
  ram : Bool
  async : Bool
  width : Nat
  depth : Nat
  words : Tab (BitVec 72)
  wptr : Nat
  outB : BitVec 72
  aemark : Nat
  afmark : Nat
  items : List (BitVec 72)
  out : BitVec 72
  rdSeen : Nat
  wrSeen : Nat
  rdLag : Nat
  wrLag : Nat
  aemptyX : Bool
  afullX : Bool
  ovf : Bool
  unf : Bool
  deriving DecidableEq, Repr

/-- The registers of a DSP slice (R334): behind the input adder, the multiplier, the accumulator, on the output and on the
    chain. -/
structure Dsp where
  a : BitVec 24
  mul : BitVec 48
  acc : BitVec 60
  out : BitVec 60
  chain : BitVec 60
  deriving DecidableEq, Repr

/-- What a part of a region reads as where nothing has written it: zero, as the image sets it, or a free value. -/
inductive Base where
  | zero
  | image
  | free (n : Nat)
  deriving DecidableEq, Repr

/-- A window request with the fabric (R353). `be`: its byte enables. -/
structure WinReq where
  tag : Nat
  req : Req
  be : BitVec 64
  src : Src
  given : Bool
  expired : Bool
  at_ : BitVec 64
  deriving DecidableEq, Repr

/-- A fabric region (R332-R363). `due`: it has the start signal (R384); `released`: start-up has released the set-reset net;
    `stopReq`: a STOP (false) or STOPNOW (true) waits for start-up to end; `started`: the design runs or is held. `frames`: configuration memory by frame number, block memory frames after the static ones.
    `ffs`: flip-flops by 2 × cell + number, `dsps`: slices, each over its base; `memBase` is that of the block memories' words. -/
structure Region where
  cleared : Bool
  loaded : Bool
  setReset : Bool
  portsOn : Bool
  pllLock : BitVec 2
  pllUsed : BitVec 2
  clearing : Bool
  due : Bool
  starting : Bool
  released : Bool
  stopReq : Option Bool
  started : Bool
  frames : Tab (List W32)
  wins : List WinReq
  inits : List Nat
  queues : Tab Queue
  ffs : Tab Bool
  ffBase : Base
  dsps : Tab Dsp
  dspBase : Base
  memBase : Base
  overPower : Bool
  events : BitVec 4
  ports : BitVec 4
  deriving DecidableEq, Repr

/-- The phases of the configuration controller (R393). -/
inductive Phase where
  | idle | receive | transmit | auth | load | waitdone | startup | error
  deriving DecidableEq, Repr

/-- A region entry of a section header (R365). -/
structure RegEntry where
  region : Fin 16
  offset : Nat
  length : Nat
  iv : BitVec 96
  tag : BitVec 128
  digest : BitVec 384
  deriving DecidableEq, Repr

/-- What goes out on a chain: the stream's markers, a section, bytes between sections (R386). -/
inductive ChainItem where
  | start
  | sect (d : List Byte)
  | fill (d : List Byte)
  | stop
  deriving DecidableEq, Repr

/-- The configuration controller (R364-R396): load set, packet state of the body in hand (R372; `pos`: bytes of it delivered), DONE and RETRY lines
    (R383, R386), chain buffers, readback position (R390), column signatures keyed region × 384 + column (R389), and by
    region the initialization vector and length of the body its image has in memory (R391). -/
structure Loader where
  phase : Phase
  entries : List RegEntry
  cur : Nat
  encslot : BitVec 8
  keyslot : BitVec 8
  secAt : Addr
  attempt : Nat
  order : Nat
  opts : BitVec 2
  addr : W32
  addrSet : Bool
  pos : Nat
  seen : Tab Bool
  nframes : Nat
  restart : Bool
  started : List (Fin 16)
  doneDrv : Bool
  doneSince : BitVec 64
  retryDrv : Bool
  retryExt : Bool
  sentAt : BitVec 64
  chainOut : List ChainItem
  recvd : Option Bool
  rbRegion : Fin 16
  rbCol : Nat
  rbFrom : BitVec 64
  colSig : Tab W32
  imgs : Tab (BitVec 96 × Nat)
  deriving DecidableEq, Repr

/-- A check channel (R397-R405): status bits, the running CRC, the block in hand, poll state. -/
structure Check where
  busy : Bool
  waitDep : Bool
  fin : Bool
  isMatch : Bool
  err : Bool
  reason : BitVec 8
  crc : BitVec 64
  pos : Nat
  pollAt : BitVec 64
  since : BitVec 64
  deriving DecidableEq, Repr

/-! ### Network, coherence, lull reports -/

/-- A packet in the network (R410): the request, where it comes from, where it goes, where it is, its answer once it is a
    response, and since when it is at that router, and the link it came by (0 where the router's own endpoint sent it). -/
structure Pkt where
  req : Req
  src : Src
  fromDie : BitVec 7
  fromRtr : BitVec 4
  dstDie : BitVec 7
  dstRtr : BitVec 4
  die : BitVec 7
  rtr : BitVec 4
  inp : BitVec 3
  resp : Option (BitVec 8 × List Byte)
  at_ : BitVec 64
  deriving DecidableEq, Repr

/-- A lull report (R434). -/
structure Lull where
  w0 : W32
  w1 : W32
  w2 : W32
  w3 : W32
  deriving DecidableEq, Repr

/-- A timed wait that has been declared a lull fault (R278): kind, unit, context or segment, its start. -/
structure Wt where
  kind : Nat
  blk : Nat
  sub : Nat
  since : BitVec 64
  deriving DecidableEq, Repr

/-- A cached copy's state (R425). -/
inductive Mesi where
  | modified | exclusive | shared
  deriving DecidableEq, Repr

/-- A snoop on the snoop network, waiting for its reply (R407, R425); once the agent has seen it, the Modified data that its
    reply carries; when it left its home, and the router that the snoop, or its reply, has come to, by which link and when. -/
structure Snoop where
  line : Nat
  agent : Agent
  share : Bool
  seen : Bool
  data : Option (List Byte)
  at_ : BitVec 64
  die : BitVec 7
  rtr : BitVec 4
  inp : BitVec 3
  came : BitVec 64
  deriving DecidableEq, Repr

/-- A coherent request at its home (R425). -/
structure CohPend where
  line : Nat
  agent : Agent
  req : CohReq
  deriving DecidableEq, Repr

/-- A probe trace entry (R437). -/
structure TraceEnt where
  h0 : W32
  h1 : W32
  a : W32
  t : W32
  deriving DecidableEq, Repr

/-- The on-package network (R407-R442). `outst`: requests whose initiator awaits the response, and when they left (R436). Keys: `held`, `lulls` by die; `traces` by die × 16 + router, with WRAPPED;
    `dir` by line × 32 + agent; `cache` the same key, the copy's 64 bytes; `turns`, the input served last, by outKey (R411). -/
structure Net where
  pkts : List Pkt
  outst : List (Src × BitVec 64)
  held : Tab (List Pkt)
  lulls : Tab (List Lull)
  waits : List Wt
  traces : Tab (List TraceEnt)
  wrapped : Tab Bool
  dir : Tab Mesi
  cache : Tab (List Byte)
  snoops : List Snoop
  cohs : List CohPend
  events : List Nat
  wipes : Tab (List (Nat × Nat))
  turns : Tab (BitVec 3)
  deriving DecidableEq, Repr

/-! ### The Chagus link -/

/-- Link states (R454). -/
inductive LState where
  | down | train | step | qualify | up | retrain | failed
  deriving DecidableEq, Repr

/-- A frame to send or sent (R464, R468). -/
structure TFrame where
  seq : BitVec 16
  typ : BitVec 4
  len : Nat
  tag : BitVec 12
  epoch : BitVec 2
  word2 : W32
  word3 : W32
  pay : List Byte
  src : Src
  sent : Bool
  deriving DecidableEq, Repr

/-- What a port has put on its lanes (R446-R453). -/
inductive LOut where
  | ack (seq : BitVec 16) | nak (seq : BitVec 16) | credit (vc : Nat) (count : BitVec 16)
  | pause (t : BitVec 16) | eios | align | burst | ts (rate : Nat) | frame (f : TFrame)
  deriving DecidableEq, Repr

/-- A tag (R475): its epoch, whether it is outstanding or held out of use, when, and who waits. -/
structure TagSt where
  epoch : BitVec 2
  out : Bool
  held : Bool
  at_ : BitVec 64
  rqto : Nat
  read : Bool
  src : Src
  len : Nat
  deriving DecidableEq, Repr

/-- A remote request being served (R477): whether it has been issued on the network yet, its accesses answered so far. -/
structure Serve where
  key : Nat
  tag : BitVec 12
  epoch : BitVec 2
  read : Bool
  addr : Nat
  len : Nat
  data : List Byte
  issued : Bool
  got : List (Nat × List Byte)
  left : Nat
  reason : BitVec 8
  deriving DecidableEq, Repr

/-- A Chagus port (R444-R489). `paused`: from when to when; `lastPause`: the last PAUSE acted on and when; `due`: ordered
    sets that wait for the transmitter to leave Mist; `replay`: frames not acknowledged, `sent` false for those to be sent again;
    `adv`, `peerFreed`, `spent`: credits by VC as transmitter, `freed` as receiver; `rxHeld`: bytes in the receive buffer. -/
structure Port where
  ls : LState
  rate : Nat
  target : Nat
  settled : Bool
  peerPass : Bool
  selfPass : Bool
  failCause : BitVec 4
  attempts : Nat
  fails : Nat
  retryAt : Option (BitVec 64)
  startAt : BitVec 64
  qualAt : BitVec 64
  txMist : Bool
  rxMist : Bool
  mistAt : BitVec 64
  idleAt : BitVec 64
  paused : Option (BitVec 64 × BitVec 64)
  lastPause : Option (BitVec 16 × BitVec 64)
  txSeq : BitVec 16
  rxSeq : BitVec 16
  nakFor : Option (BitVec 16 × BitVec 64)
  txq : List TFrame
  replay : List TFrame
  ackAt : BitVec 64
  replays : Nat
  adv : Tab Nat
  peerFreed : Tab (BitVec 16)
  spent : Tab Nat
  freed : Tab (BitVec 16)
  rxHeld : Nat
  autoAt : Option (BitVec 64)
  tags : Tab TagSt
  serves : List Serve
  serveNext : Nat
  due : List LOut
  out : List LOut
  deriving DecidableEq, Repr

/-! ### Start-up, power, broadcaster, host, events, pins -/

/-- Module states (R491). -/
inductive MState where
  | reset | boot | init | ready | mismatch | bootfail | thermal
  deriving DecidableEq, Repr

/-- Power, domains, grants, capping, temperatures, resets in progress (R40-R48, R506-R519). -/
structure Power where
  mst : MState
  on : BitVec 95
  sleep : BitVec 95
  fenced : BitVec 95
  waking : BitVec 95
  pd : Option (Nat × Nat)
  drainFrom : Tab (BitVec 64)
  inReset : Tab (BitVec 64)
  grantQ : List (Fin 64)
  lastGrant : Option (BitVec 64)
  capping : Bool
  lvlcap : Nat
  fsrail : Bool
  overP : Bool
  low : Bool
  stepAt : BitVec 64
  hotDie : Bool
  over110 : Tab Bool
  deriving DecidableEq, Repr

/-- A tile's reception of a broadcast (R501): running CRC and place, and whether its state or CRC failed. -/
structure Recv where
  crc : W32
  pos : Nat
  failed : Bool
  fin : Bool
  deriving DecidableEq, Repr

/-- The Overcast broadcaster (R501-R503, R511-R513). -/
structure Ocast where
  busy : Bool
  data : List Byte
  srcErr : Bool
  rx : Tab Recv
  epBusy : Bool
  epAt : BitVec 64
  epUnits : List ModeUnit
  deriving DecidableEq, Repr

/-- What leaves the module toward a host (R529, R530, R534). -/
inductive HostMsg where
  | completion (f : PFn) (id : Nat) (data : List Byte)
  | unsupported (f : PFn) (id : Nat)
  | abort (f : PFn) (id : Nat)
  | write (f : PFn) (a : BitVec 64) (data : List Byte)
  | msix (f : PFn) (a : BitVec 64) (d : W32)
  deriving DecidableEq, Repr

/-- A host read in progress (R529): where it reads, its accesses with their data, the first error response, and how many
    posted writes of the function came before it. -/
structure HRead where
  f : PFn
  id : Nat
  addr : Addr
  parts : List (Nat × Option (List Byte))
  bad : Option (BitVec 8)
  behind : Nat
  at_ : BitVec 64
  deriving DecidableEq, Repr

/-- PCIe side (R525-R530): apertures keyed (17e + f) × 64 + k, functions (17e + f) reset since they were enabled, reads in
    progress, how many posted writes each function has made, messages out, clock choice by endpoint. -/
structure HostIf where
  aps : Tab W32
  flrDone : Tab Bool
  reads : List HRead
  posted : Tab Nat
  out : List HostMsg
  clksel : BitVec 2
  deriving DecidableEq, Repr

/-- The event concentrator (R531-R536): last sampled inputs, pulses since the last sample, NEW bits, last notifications. -/
structure Conc where
  prev : Tab Bool
  pulse : Tab Bool
  new : BitVec 38
  last : Tab (BitVec 64)
  deriving DecidableEq, Repr

/-- Replies of the SMBus/MCTP target and the JTAG port's state (R538, R539). -/
inductive JInstr where
  | bypass | idcode | sample | highz | clamp | extest | extestPulse | extestTrain
  deriving DecidableEq, Repr

structure Mgmt where
  replies : List (Option (List W32))
  jinstr : JInstr
  jdata : List Bool
  jbound : List Bool
  deriving DecidableEq, Repr

/-- Supplies, reset and strap pins (R546-R556). -/
structure Pins where
  p48 : Bool
  vsb : Bool
  mrstLow : Bool
  pwrgd : Bool
  thermtrip : Bool
  straps : BitVec 3
  vio : BitVec 16
  deriving DecidableEq, Repr

/-! ### The whole -/

/-- What the board record accepts as bad, held as bad since discovery (R498, R499), with the fields' layout of R49. -/
structure Accepted where
  tiles : BitVec 64
  groups : BitVec 256
  dram : BitVec 64
  ports : BitVec 96
  regions : BitVec 16
  deriving DecidableEq, Repr

/-- The module. `frees` counts the free values drawn so far (the model's own field). -/
structure State where
  pending : List Instr
  clock : Clock
  fuses : Fuses
  acc : Accepted
  frees : Nat
  regs : Tab W32
  logs : Tab (List LogEnt)
  blks : Tab BlkSt
  scr : Tab Byte
  scrChk : Tab Byte
  dram : Tab Byte
  pv : Tab Bool
  bootMem : Tab Byte
  tiles : Tab Tile
  cores : Tab Proc
  banks : Tab Bank
  stks : Tab Stack
  ctxs : Tab Ctx
  chans : Tab Chan
  engs : Tab Unit
  regions : Tab Region
  loader : Loader
  checks : Tab Check
  net : Net
  ports : Tab Port
  power : Power
  ocast : Ocast
  host : HostIf
  conc : Conc
  mgmt : Mgmt
  pins : Pins
  deriving DecidableEq, Repr

/-! ### What an unlisted key reads as, and reset -/

def idleEnt : Ent := { k := .idle, int := false, slot := 0 }

/-- An empty record slot. -/
def rec0 : Rec :=
  { first := 0, count := 0, int := false, sat := false, rdi := 0, rd := { base := 0, baseh := 0, ctl := 0, mult := 0 }, off := 0 }

def segAcc0 : SegAcc := { ents := [], recs := [], loaded := none }

/-- A segment after tile reset (R68). -/
def seg0 : Seg :=
  { acc := segAcc0, act := segAcc0, items := [], inw := [], rows := [], taps := [], tapBuf := [] }

/-- The row after tile reset (R68, R112). -/
def row0 : Row :=
  { accv := [], wts := [], shape := 0, accShape := 0, queue := [], exec := [], nextId := 0, segs := [],
    level := 0, credit := 0, steps := 0, grantWait := false, granted := false, compat := false,
    fabSeq := 0, fabNext := 0, fabHeld := [], opOut := [], opIn := [], resOut := [], awaiting := [],
    opWait := [], resWait := [], accSeed := none }

/-- A Jirun processor after reset (R160); its memories read zero and its replay entries a local NOP. -/
def proc0 : Proc :=
  { im := [], dm := [], regs := [], params := [], preds := 1, pc := 0, curwin := 0, res := 1, intrap := false,
    spilled := 0, live := false, wait := .none, skipBrk := false, trvec := 0, trpc := 0, trcode := 0, trinfo := 0,
    spillptr := 0, spilllim := 0, sevpend := 0, sevena := 0, sevlatch := 0, seqepoch := 0, brkaddr := 0,
    brkctl := false, tbhi := 0, tcmplo := 0, tcmphi := 0, armed := false, recording := false, recNext := 0,
    recRun := false, replay := none, rbuf := [], fifo := [], nextSeq := 0, outst := [], skips := [], zeroing := false,
    epSince := none }

def unit0 : Unit :=
  { queue := [], active := none, prog := 0, compat := false, waiting := false, since := 0, pollAt := 0,
    epSince := none }

def tile0 : Tile := { row := row0, seq := proc0, vec := unit0, mover := unit0, sync := unit0, str := unit0 }

/-- A bank group after module reset (R238): WIPED clear. -/
def bank0 : Bank :=
  { sweep := false, sweepFrom := 0, wiped := false, lapRows := [], lapFrom := 0, lapOver := false, wbs := [] }

def cursor0 : Cursor :=
  { pos := 0, addr := 0, bias := 0, blk := none, issued := 0, met := false, polling := false, pollAt := 0, since := none,
    atEnd := false }

def ctx0 : Ctx :=
  { st := .idle, done := false, rcur := cursor0, wcur := cursor0, fbase := 0, fetched := [], fetchAt := 0,
    fetchStop := false, staged := [], rin := [], win := [], blks := [], rpos := 0, wpos := 0, floor := 0, bslots := [],
    bufSince := none, stgSince := none, rwait := false, wwait := false, bad := none, byEngine := false }

def stack0 : Stack :=
  { lastBorrow := 0, turns := [], fills := [], waits := [], clearing := none, hot := 0, fast := false, lapFrom := 0, lapOver := false, wiped := [] }

def chan0 : Chan :=
  { queue := [], frozen := none, frozenAt := 0, failed := false, training := false, openRow := [], rowsAt := 0,
    inorder := [], cmds := [], refNext := 0, refDebt := [], wbs := [], scrubAt := 0, scrubLast := 0 }

def queue0 : Queue :=
  { ram := false, async := false, width := 72, depth := 512, words := [], wptr := 0, outB := 0, aemark := 1, afmark := 511, items := [], out := 0, rdSeen := 0,
    wrSeen := 0, rdLag := 0, wrLag := 0, aemptyX := false, afullX := false, ovf := false, unf := false }

/-- A region switched on (R343): IDLE with CLEARED clear. -/
def region0 : Region :=
  { cleared := false, loaded := false, setReset := true, portsOn := false, pllLock := 0, pllUsed := 0,
    clearing := false, due := false, starting := false, released := false, stopReq := none, started := false, frames := [],
    wins := [], inits := [], queues := [], ffs := [], ffBase := .zero, dsps := [], dspBase := .zero, memBase := .image, overPower := false, events := 0, ports := 0 }

/-- The configuration controller after module reset: CFGDONE driven low (R383). -/
def loader0 : Loader :=
  { phase := .idle, entries := [], cur := 0, encslot := 0, keyslot := 0, secAt := 0, attempt := 0, order := 0,
    opts := 0, addr := 0, addrSet := false, pos := 0, seen := [], nframes := 0, restart := false, started := [],
    doneDrv := true, doneSince := 0, retryDrv := false, retryExt := true, sentAt := 0,
    chainOut := [], recvd := none, rbRegion := 0, rbCol := 0, rbFrom := 0, colSig := [], imgs := [] }

def check0 : Check :=
  { busy := false, waitDep := false, fin := false, isMatch := false, err := false, reason := 0, crc := 0, pos := 0,
    pollAt := 0, since := 0 }

def net0 : Net :=
  { pkts := [], outst := [], held := [], lulls := [], waits := [], traces := [], wrapped := [], dir := [], cache := [], turns := [], snoops := [],
    cohs := [], events := [], wipes := [] }

def tag0 : TagSt :=
  { epoch := 0, out := false, held := false, at_ := 0, rqto := 0, read := false, src := .nobody, len := 0 }

def port0 : Port :=
  { ls := .down, rate := 0, target := 0, settled := false, peerPass := false, selfPass := false, failCause := 0,
    attempts := 0, fails := 0, retryAt := none, startAt := 0, qualAt := 0, txMist := false, rxMist := false, mistAt := 0,
    idleAt := 0, paused := none, lastPause := none, txSeq := 0, rxSeq := 0, nakFor := none, txq := [], replay := [],
    ackAt := 0, replays := 0, adv := [], peerFreed := [], spent := [], freed := [], rxHeld := 0, autoAt := none, tags := [],
    serves := [], serveNext := 0, due := [], out := [] }

/-- Power after module reset: only the always-on set is powered (R41, R493). -/
def power0 : Power :=
  { mst := .reset, on := 0, sleep := 0, fenced := 0, waking := 0, pd := none, drainFrom := [], inReset := [],
    grantQ := [], lastGrant := none, capping := false, lvlcap := 8, fsrail := false, overP := false, low := false,
    stepAt := 0, hotDie := false, over110 := [] }

def ocast0 : Ocast :=
  { busy := false, data := [], srcErr := false, rx := [], epBusy := false, epAt := 0, epUnits := [] }

def host0 : HostIf :=
  { aps := [], flrDone := [], reads := [], posted := [], out := [], clksel := 0 }

def conc0 : Conc := { prev := [], pulse := [], new := 0, last := [] }

def mgmt0 : Mgmt := { replies := [], jinstr := .idcode, jdata := [], jbound := [] }

def pins0 : Pins :=
  { p48 := true, vsb := true, mrstLow := true, pwrgd := true, thermtrip := false, straps := 7, vio := 0xFFFF }

/-- A floor plan record with no defect (R49, R50). Its CRC is that of R49 over the other fields. -/
def fpr0 : Fpr :=
  { hdr := 0x10000001, ordcode := 0, serial := 0, tileGood := BitVec.allOnes 64, counts := 0x08106040, scrBad := 0,
    dramFail := 0, portBad := 0, fabStat := 0, crc := 0xE5963154 }

def fuses0 : Fuses :=
  { fpr := fpr0, sigKeys := [], sigRev := 0, encKeys := [], encRev := 0, trims := [] }

def acc0 : Accepted := { tiles := 0, groups := 0, dram := 0, ports := 0, regions := 0 }

/-- The module right after module reset (R506): MRST_N low, P48 in range, nothing but the always-on set powered. -/
def State.reset : State :=
  { pending := [], clock := { now := 0, counting := true }, fuses := fuses0, acc := acc0, frees := 0, regs := [], logs := [],
    blks := [], scr := [], scrChk := [], dram := [], pv := [], bootMem := [], tiles := [], cores := [],
    banks := [], stks := [], ctxs := [], chans := [], engs := [], regions := [], loader := loader0, checks := [],
    net := net0, ports := [], power := power0, ocast := ocast0, host := host0, conc := conc0, mgmt := mgmt0,
    pins := pins0 }

end Sys2Proof.Machine
end

