-- ==== Sys2Proof/Machine/Ops.lean ====
section
/-! DEFINITION. The named operations over state that every meaning uses: sparse tables, the places of blocks and
    registers, the floor plan and domains, register storage, counters, error logs, event bits, free values. -/

namespace Sys2Proof
namespace Machine

/-- What a command answers. -/
abbrev Out := Host.Outcome State Fault Refusal

/-- A command's effect: a next state in which the queue of waiting commands, the fuses and the timebase are as before. -/
def act (f : State → State) (s : State) : Out :=
  .next { f s with pending := s.pending, fuses := s.fuses, clock := s.clock }

/-- As `act`, where the operands have the shape their rule gives them; else the command is none of the table's. -/
def actIf (ok : Bool) (f : State → State) (s : State) : Out :=
  if ok then act f s else .refused .illFormed

/-- What becomes of the fuses when keys may change: the record and the trims stay, a blown revocation fuse stays blown. -/
def keepFuses (old new : Fuses) : Fuses :=
  { new with fpr := old.fpr, trims := old.trims, sigRev := old.sigRev ||| new.sigRev, encRev := old.encRev ||| new.encRev }

/-- As `act`, for effects that may reach the key registers (R374). -/
def actKeys (f : State → State) (s : State) : Out :=
  .next { f s with pending := s.pending, fuses := keepFuses s.fuses (f s).fuses, clock := s.clock }

/-! ### Sparse tables: an unlisted key `k` reads `d k` -/

/-- The value at a key. -/
def tgetD {α : Type} (d : Nat → α) : Tab α → Nat → α
  | [], k => d k
  | (k', v) :: t, k => if k = k' then v else tgetD d t k

/-- Drop the keys that `p` holds of. -/
def tdrop {α : Type} (p : Nat → Bool) (t : Tab α) : Tab α := t.filter (fun e => !p e.1)

/-- List a key, in its place. -/
def tins {α : Type} : Tab α → Nat → α → Tab α
  | [], k, v => [(k, v)]
  | (k', w) :: t, k, v =>
    if k < k' then (k, v) :: (k', w) :: t
    else if k = k' then (k, v) :: t
    else (k', w) :: tins t k v

/-- Write a key, keeping the canonical form: what an unlisted key reads is not listed. -/
def tsetD {α : Type} [DecidableEq α] (d : Nat → α) (t : Tab α) (k : Nat) (v : α) : Tab α :=
  if v = d k then tdrop (fun i => i == k) t else tins t k v

/-- As `tgetD` with one value for every unlisted key. -/
def tget {α : Type} (d : α) (t : Tab α) (k : Nat) : α := tgetD (fun _ => d) t k

/-- As `tsetD` with one value for every unlisted key. -/
def tset {α : Type} [DecidableEq α] (d : α) (t : Tab α) (k : Nat) (v : α) : Tab α := tsetD (fun _ => d) t k v

/-- Change the value at a key. -/
def tupd {α : Type} [DecidableEq α] (d : α) (t : Tab α) (k : Nat) (f : α → α) : Tab α :=
  tset d t k (f (tget d t k))

/-- Every key is above `lo`, keys rise strictly, and no entry is what its key reads as unlisted. -/
def tabAbove {α : Type} [DecidableEq α] (d : Nat → α) : Option Nat → Tab α → Bool
  | _, [] => true
  | lo, (k, v) :: t =>
    (match lo with | none => true | some l => decide (l < k)) && !decide (v = d k) && tabAbove d (some k) t

/-- The canonical form of a table. -/
def tabWf {α : Type} [DecidableEq α] (d : Nat → α) (t : Tab α) : Bool := tabAbove d none t

/-- The canonical form of stored bytes: addresses strictly rising, and no entry that reads as an unlisted one, 0 (log entry 1). -/
abbrev Memory.wf (t : Tab Byte) : Bool := tabWf (fun _ => 0) t

/-! ### Small arithmetic -/

/-- Bits [hi:lo] of a word, as a number. -/
def bits {n : Nat} (w : BitVec n) (hi lo : Nat) : Nat := (w.toNat >>> lo) % 2 ^ (hi + 1 - lo)

/-- Bit i of a number. -/
def nbit (n i : Nat) : Bool := n.testBit i

/-- A word from a number. -/
abbrev w32 (n : Nat) : W32 := BitVec.ofNat 32 n

/-- A flag as a number. -/
def b2n (b : Bool) : Nat := if b then 1 else 0

/-- The word with bit i made b. -/
def setBit (w : W32) (i : Nat) (b : Bool) : W32 :=
  if b then w ||| w32 (2 ^ i) else w &&& ~~~ w32 (2 ^ i)

/-- The word whose bit i is `p i`, for i below n. -/
def wordOf (p : Nat → Bool) : Nat → Nat
  | 0 => 0
  | n + 1 => wordOf p n + (if p n then 2 ^ n else 0)

/-- The signed value of the low n bits. -/
def sext (n : Nat) (v : Nat) : Int :=
  let u := v % 2 ^ n
  if 2 * u < 2 ^ n then (u : Int) else (u : Int) - (2 ^ n : Nat)

/-- A 48-bit address from its two words. -/
def addrOf (lo hi : W32) : Addr := BitVec.ofNat 48 (lo.toNat + (hi.toNat % 0x10000) * 2 ^ 32)

/-- Little-endian words of a byte list. -/
def wordsLE : List Byte → List W32
  | a :: b :: c :: d :: t => w32 (leNat [a, b, c, d]) :: wordsLE t
  | _ => []

/-- Little-endian bytes of words. -/
def bytesOf (ws : List W32) : List Byte := ws.flatMap (fun w => leBytes 4 w.toNat)

/-- Chunks of n entries; the last may be shorter. The fuel is the list's length. -/
def chunksF {α : Type} (n : Nat) : Nat → List α → List (List α)
  | 0, _ => []
  | _, [] => []
  | f + 1, l => l.take n :: chunksF n f (l.drop n)

/-! ### Where blocks lie (R23-R27, R37) -/

end Machine

/-- The die of a block. -/
def Blk.die : Blk → Nat
  | .probe d _ => d
  | .ptab d => d
  | .row t | .seq t | .vec t | .acnt t => t.val / 16
  | .bank t _ => 4 + t.val / 16
  | .seng s | .chan s _ | .nve s _ | .pvm s | .check s _ => 8 + 11 * s.val
  | .region r => 96 + r.val / 4
  | .port p | .lanes p => 100 + p.val / 32
  | .loader | .pcheck _ | .conc | .ptm | .pcie _ | .ocast | .sec => 103

/-- The first page of a block. -/
def Blk.page : Blk → Nat
  | .probe _ r => r
  | .ptab _ => 0x010
  | .row t => 0x100 + 0x10 * (t.val % 16)
  | .seq t => 0x108 + 0x10 * (t.val % 16)
  | .vec t => 0x10C + 0x10 * (t.val % 16)
  | .acnt t => 0x10D + 0x10 * (t.val % 16)
  | .bank t g => 0x100 + 4 * (t.val % 16) + g.val
  | .seng _ => 0x100
  | .chan _ c => 0x200 + c.val
  | .nve _ e => 0x240 + e.val
  | .pvm _ => 0x260
  | .check _ k => 0x270 + k.val
  | .region r => 0x100 + r.val % 4
  | .port p => 0x100 + p.val % 32
  | .lanes p => 0x200 + p.val % 32
  | .loader => 0x100
  | .pcheck k => 0x110 + k.val
  | .conc => 0x120
  | .ptm => 0x140
  | .pcie e => 0x150 + e.val
  | .ocast => 0x160
  | .sec => 0x170

/-- How many pages a block has. -/
def Blk.npages : Blk → Nat
  | .row _ => 8
  | .seq _ | .ptab _ => 4
  | .seng _ => 64
  | .conc => 32
  | _ => 1

/-- The block type code (R22). -/
def Blk.code : Blk → Nat
  | .row _ => 0x01 | .seq _ => 0x02 | .vec _ => 0x03 | .bank _ _ => 0x04 | .acnt _ => 0x05
  | .seng _ => 0x10 | .chan _ _ => 0x11 | .nve _ _ => 0x12 | .pvm _ => 0x13
  | .region _ => 0x20 | .loader => 0x21 | .check _ _ | .pcheck _ => 0x22
  | .probe _ _ => 0x30 | .ptab _ => 0x31 | .port _ => 0x40 | .lanes _ => 0x41
  | .conc => 0x50 | .ptm => 0x51 | .pcie _ => 0x52 | .ocast => 0x53 | .sec => 0x54

/-- The block number of BLKID (R37). -/
def Blk.inst : Blk → Nat
  | .probe _ r => r
  | .row t | .seq t | .vec t | .acnt t => t.val % 16
  | .bank t g => 4 * (t.val % 16) + g.val
  | .chan _ c => c.val
  | .nve _ e => e.val
  | .check _ k => k.val
  | .region r => r.val % 4
  | .port p | .lanes p => p.val % 32
  | .pcheck k => k.val
  | .pcie e => e.val
  | _ => 0

namespace Machine

/-- The kinds of dies (R23, R24). -/
inductive DieK where
  | anvil | scratch | base | core | fabric | horizon | zenith | none
  deriving DecidableEq, Repr

def dieKind (d : Nat) : DieK :=
  if d < 4 then .anvil else if d < 8 then .scratch
  else if d < 96 then (if (d - 8) % 11 = 0 then .base else .core)
  else if d < 100 then .fabric else if d < 103 then .horizon else if d = 103 then .zenith else .none

/-- How many routers a die has (R37, R413). -/
def routers (d : Nat) : Nat :=
  match dieKind d with
  | .anvil => 16 | .base => 4 | .fabric => 4 | .horizon => 2 | .zenith => 2 | _ => 0

/-- A number as a bounded one. -/
def fin (n : Nat) [NeZero n] (i : Nat) : Fin n := Fin.ofNat n i

/-- The block and the page within it at a page of a die (R37). -/
def blkAt (d n : Nat) : Option (Blk × Nat) :=
  if n < routers d then some (.probe d n, 0)
  else if n / 4 = 4 ∧ routers d ≠ 0 then some (.ptab d, n - 0x10)
  else match dieKind d with
  | .anvil =>
    if n / 256 = 1 then
      let t : Fin 64 := fin 64 (16 * d + n / 16 % 16)
      let q := n % 16
      if q < 8 then some (.row t, q) else if q < 12 then some (.seq t, q - 8)
      else if q = 12 then some (.vec t, 0) else if q = 13 then some (.acnt t, 0) else none
    else none
  | .scratch =>
    if n / 64 = 4 then some (.bank (fin 64 (16 * (d - 4) + n % 64 / 4)) (fin 4 (n % 4)), 0) else none
  | .base =>
    let s : Fin 8 := fin 8 ((d - 8) / 11)
    if n / 64 = 4 then some (.seng s, n % 64)
    else if n / 32 = 16 then some (.chan s (fin 32 (n % 32)), 0)
    else if n / 16 = 0x24 then some (.nve s (fin 16 (n % 16)), 0)
    else if n = 0x260 then some (.pvm s, 0)
    else if n / 8 = 0x4E then some (.check s (fin 8 (n % 8)), 0) else none
  | .fabric => if n / 4 = 0x40 then some (.region (fin 16 (4 * (d - 96) + n % 4)), 0) else none
  | .horizon =>
    let p : Fin 96 := fin 96 (32 * (d - 100) + n % 32)
    if n / 32 = 8 then some (.port p, 0) else if n / 32 = 16 then some (.lanes p, 0) else none
  | .zenith =>
    if n = 0x100 then some (.loader, 0) else if n / 4 = 0x44 then some (.pcheck (fin 4 (n % 4)), 0)
    else if n / 32 = 9 then some (.conc, n - 0x120) else if n = 0x140 then some (.ptm, 0)
    else if n / 2 = 0xA8 then some (.pcie (fin 2 (n % 2)), 0) else if n = 0x160 then some (.ocast, 0)
    else if n = 0x170 then some (.sec, 0) else none
  | _ => none

/-! ### Keys of registers: the low 32 bits of the page's address (R36) -/

end Machine

/-- The key of page n of die d. -/
def pageKey (d n : Nat) : Nat := d * 2 ^ 24 + n * 2 ^ 12

/-- The key of a block's first page. -/
def Blk.key (b : Blk) : Nat := pageKey b.die b.page

/-- The key of page i of a block. -/
def Blk.keyP (b : Blk) (i : Nat) : Nat := pageKey b.die (b.page + i)

/-- The keys of a block's pages. -/
def Blk.keys (b : Blk) : List Nat := (List.range b.npages).map b.keyP

namespace Machine

/-- The block at a register key. -/
def blkOfKey (k : Nat) : Option (Blk × Nat) := blkAt (k / 2 ^ 24) (k / 2 ^ 12 % 2 ^ 12)

end Machine

/-- The key of a function's BAR0 registers (R528). -/
def PFn.key (f : PFn) : Nat := 2 ^ 32 + (17 * f.e.val + f.f.val) * 2 ^ 20

/-! ### Floor plan and domains (R40-R53) -/

namespace Machine

def tileGood (s : State) (t : Fin 64) : Bool := s.fuses.fpr.tileGood.getLsbD t && !s.acc.tiles.getLsbD t

def groupBad (s : State) (t : Fin 64) (g : Fin 4) : Bool :=
  s.fuses.fpr.scrBad.getLsbD (4 * t.val + g.val) || s.acc.groups.getLsbD (4 * t.val + g.val)

def portGood (s : State) (p : Fin 96) : Bool := !s.fuses.fpr.portBad.getLsbD p && !s.acc.ports.getLsbD p

def regionGood (s : State) (r : Fin 16) : Bool :=
  bits s.fuses.fpr.fabStat (2 * r.val + 1) (2 * r.val) == 0 && !s.acc.regions.getLsbD r

/-- The core of a stack marked failed in the record (R49). -/
def coreFailed (s : State) (k : Fin 8) : Option Nat :=
  let b := bits s.fuses.fpr.dramFail (8 * k.val + 7) (8 * k.val)
  if b / 128 = 1 then some (b % 16) else none

/-- A block the floor plan holds bad (R6, R53). -/
def absent (s : State) : Blk → Bool
  | .row t | .seq t | .vec t | .acnt t => !tileGood s t
  | .bank t g => groupBad s t g
  | .region r => !regionGood s r
  | .port p | .lanes p => !portGood s p
  | _ => false

end Machine

/-- The switched domain a block lies in (R40), none for the always-on set (R41). -/
def Blk.domain : Blk → Option Nat
  | .row t | .seq t | .vec t | .acnt t => some t.val
  | .seng s | .nve s _ | .check s _ => some (64 + s.val)
  | .region r => some (72 + r.val)
  | .port p | .lanes p => some (88 + p.val / 32)
  | .bank t _ => some (91 + t.val / 16)
  | _ => none

namespace Machine

def domOn (s : State) (d : Nat) : Bool := s.power.on.getLsbD d

def domFenced (s : State) (d : Nat) : Bool := s.power.fenced.getLsbD d

/-- The block's domain is on. -/
def blkOn (s : State) (b : Blk) : Bool :=
  match b.domain with | none => true | some d => domOn s d

/-- The block exists and its domain is on. -/
def live (s : State) (b : Blk) : Bool := !absent s b && blkOn s b

/-- A reset of the block's tile or die has been requested and has not asserted yet (R507): key 128 + t for tile t, the die
    for a die, whose network spine takes no part; a scratch die goes with its Anvil die (R506). -/
def resetting (s : State) (b : Blk) : Bool :=
  let rs := s.power.inReset
  match b with
  | .probe _ _ | .ptab _ => false
  | .row t | .seq t | .vec t | .acnt t => rs.any (fun e => e.1 == 128 + t.val || e.1 == b.die)
  | .bank t _ => rs.any (fun e => e.1 == b.die || e.1 == t.val / 16)
  | b => rs.any (fun e => e.1 == b.die)

/-- The block's domain is fenced (R421). -/
def blkFenced (s : State) (b : Blk) : Bool :=
  match b.domain with | none => false | some d => domFenced s d

/-- The tile works: good and its domain on. -/
def tileOn (s : State) (t : Fin 64) : Bool := tileGood s t && domOn s t.val

/-! ### Block state (R504) -/

/-- The block state a block starts in, keyed by its first page: STOPPED for lane groups (R485) and bank groups (R238),
    else the state in which it runs what is given to it. -/
def blkReset (k : Nat) : BlkSt :=
  let r := match blkOfKey k with
    | some (.lanes _, _) | some (.bank _ _, _) => Run.stopped
    | _ => Run.going
  { run := r, epoch := 0, used := false }

def blkSt (s : State) (b : Blk) : BlkSt := tgetD blkReset s.blks b.key

def setBlkSt (s : State) (b : Blk) (v : BlkSt) : State := { s with blks := tsetD blkReset s.blks b.key v }

def setRun (s : State) (b : Blk) (r : Run) : State := setBlkSt s b { blkSt s b with run := r }

def setUsed (s : State) (b : Blk) (u : Bool) : State := setBlkSt s b { blkSt s b with used := u }

def setEpoch (s : State) (b : Blk) (e : BitVec 8) : State := setBlkSt s b { blkSt s b with epoch := e }

def isGoing (s : State) (b : Blk) : Bool := (blkSt s b).run == .going

def isStopped (s : State) (b : Blk) : Bool := (blkSt s b).run == .stopped

/-! ### Parts of the state -/

def tile (s : State) (t : Fin 64) : Tile := tget tile0 s.tiles t.val
def setTile (s : State) (t : Fin 64) (v : Tile) : State := { s with tiles := tset tile0 s.tiles t.val v }
def updTile (s : State) (t : Fin 64) (f : Tile → Tile) : State := setTile s t (f (tile s t))
def updRow (s : State) (t : Fin 64) (f : Row → Row) : State := updTile s t (fun x => { x with row := f x.row })
def cpu (s : State) : Cpu → Proc
  | .tile t => (tile s t).seq
  | .core k => tget proc0 s.cores k.val
def setCpu (s : State) (q : Cpu) (p : Proc) : State :=
  match q with
  | .tile t => updTile s t (fun x => { x with seq := p })
  | .core k => { s with cores := tset proc0 s.cores k.val p }
def updCpu (s : State) (q : Cpu) (f : Proc → Proc) : State := setCpu s q (f (cpu s q))
def bank (s : State) (t : Fin 64) (g : Fin 4) : Bank := tget bank0 s.banks (4 * t.val + g.val)
def updBank (s : State) (t : Fin 64) (g : Fin 4) (f : Bank → Bank) : State :=
  { s with banks := tupd bank0 s.banks (4 * t.val + g.val) f }
def stack (s : State) (k : Fin 8) : Stack := tget stack0 s.stks k.val
def updStack (s : State) (k : Fin 8) (f : Stack → Stack) : State := { s with stks := tupd stack0 s.stks k.val f }
def ctx (s : State) (k : Fin 8) (x : Fin 2048) : Ctx := tget ctx0 s.ctxs (2048 * k.val + x.val)
def setCtx (s : State) (k : Fin 8) (x : Fin 2048) (c : Ctx) : State :=
  { s with ctxs := tset ctx0 s.ctxs (2048 * k.val + x.val) c }
def updCtx (s : State) (k : Fin 8) (x : Fin 2048) (f : Ctx → Ctx) : State := setCtx s k x (f (ctx s k x))
def chan (s : State) (k : Fin 8) (c : Fin 32) : Chan := tget chan0 s.chans (32 * k.val + c.val)
def updChan (s : State) (k : Fin 8) (c : Fin 32) (f : Chan → Chan) : State :=
  { s with chans := tupd chan0 s.chans (32 * k.val + c.val) f }
def eng (s : State) (k : Fin 8) (e : Fin 16) : Unit := tget unit0 s.engs (16 * k.val + e.val)
def updEng (s : State) (k : Fin 8) (e : Fin 16) (f : Unit → Unit) : State :=
  { s with engs := tupd unit0 s.engs (16 * k.val + e.val) f }
def region (s : State) (r : Fin 16) : Region := tget region0 s.regions r.val
def updRegion (s : State) (r : Fin 16) (f : Region → Region) : State :=
  { s with regions := tupd region0 s.regions r.val f }
def port (s : State) (p : Fin 96) : Port := tget port0 s.ports p.val
def updPort (s : State) (p : Fin 96) (f : Port → Port) : State := { s with ports := tupd port0 s.ports p.val f }
end Machine

/-- Ordinary channels at 8s + k, privileged ones at 64 + k. -/
def Ck.idx : Ck → Nat
  | .ord s k => 8 * s.val + k.val
  | .priv k => 64 + k.val
def Ck.blk : Ck → Blk
  | .ord s k => .check s k
  | .priv k => .pcheck k
namespace Machine

def check (s : State) (k : Ck) : Check := tget check0 s.checks k.idx
def updCheck (s : State) (k : Ck) (f : Check → Check) : State := { s with checks := tupd check0 s.checks k.idx f }

end Machine

def Cpu.blk : Cpu → Option Blk
  | .tile t => some (.seq t)
  | .core _ => none

def VU.blk : VU → Blk
  | .tile t => .vec t
  | .eng s e => .nve s e

def ModeUnit.blk : ModeUnit → Blk
  | .row t => .row t
  | .vec t => .vec t
  | .nve s e => .nve s e

namespace Machine

/-- Nanoseconds of the timebase as a number. -/
def now (s : State) : Nat := s.clock.now.toNat

/-- A value the spec leaves undefined (log entry 3): the next free value, and the state with it drawn. -/
def draw (s : State) : BitVec 64 × State := (Config.freeWord s.frees, { s with frees := s.frees + 1 })

/-- n free bytes. -/
def drawBytes : Nat → State → List Byte × State
  | 0, s => ([], s)
  | n + 1, s =>
    let (v, s) := draw s
    let (bs, s) := drawBytes n s
    (BitVec.ofNat 8 v.toNat :: bs, s)

end Machine
end Sys2Proof
end

