-- ==== Sys2Proof/Machine/RegMap.lean ====
section
/-! DEFINITION. The register map: every register the spec gives a page, with its place, access type (R13), bits and
    reset value, page by page as the spec's tables list them. A register whose reset value the spec does not give
    resets to 0 (log entry 2). -/

namespace Sys2Proof.Machine

/-- Access types (R13). `ro` is computed when read, `ros` is stored by the hardware. -/
inductive RegTy where
  | ro | ros | rw | rwl | w1c | w1s | wo | rc
  deriving DecidableEq, Repr

/-- A register, or `cnt` of them `stride` bytes apart: offset from the block's first page, bits that exist, reset value. -/
structure RegRow where
  off : Nat
  cnt : Nat
  stride : Nat
  ty : RegTy
  mask : Nat
  rst : Nat
  deriving DecidableEq, Repr

namespace Rg

/-! Common page header (R17) -/
abbrev hdr.BLKID : Nat := 0x0
abbrev hdr.BLKVER : Nat := 0x4
abbrev hdr.BLKCAP : Nat := 0x8
abbrev hdr.BLKPART : Nat := 0xC
abbrev hdr.BLKCTL : Nat := 0x10
abbrev hdr.BLKSTAT : Nat := 0x14
abbrev hdr.EVPEND : Nat := 0x20
abbrev hdr.EVENA : Nat := 0x24
abbrev hdr.EVSENSE : Nat := 0x28
abbrev hdr.EVLIVE : Nat := 0x2C
abbrev hdr.ERRCNT : Nat := 0x30
abbrev hdr.ERRLOG : Nat := 0x40

/-! Anvil tile pages (R114-R121) -/
abbrev row.TSHAPE : Nat := 0x80
abbrev row.TMODE : Nat := 0x84
abbrev row.RAMPCTL : Nat := 0x88
abbrev row.RAMPSTAT : Nat := 0x8C
abbrev row.CMDQSTAT : Nat := 0x90
abbrev row.SEGPROG : Nat := 0xA0
abbrev row.FMTDESC : Nat := 0x1080
abbrev row.RDBASE : Nat := 0x1100
abbrev row.RDBASEH : Nat := 0x1104
abbrev row.RDCTL : Nat := 0x1108
abbrev row.RDMULT : Nat := 0x110C
abbrev row.ACCRECA : Nat := 0x2080
abbrev row.ACCRECB : Nat := 0x2084
abbrev row.ACCSTATE : Nat := 0x2180
abbrev row.ACCTYPE : Nat := 0x2380
abbrev row.RATECUR : Nat := 0x3080
abbrev row.RATEMIN : Nat := 0x3084
abbrev row.RATECTL : Nat := 0x3088
abbrev row.RATEFLOOR : Nat := 0x308C
abbrev row.TOKCNT : Nat := 0x3090
abbrev row.SLIPTOK : Nat := 0x3094
abbrev row.SLIPWGT : Nat := 0x3098
abbrev row.SLIPRES : Nat := 0x309C
abbrev row.SLIPPORT : Nat := 0x30A0
abbrev row.SLIPRAMP : Nat := 0x30A4
abbrev row.NULLCNT : Nat := 0x30A8
abbrev row.OPSTAT : Nat := 0x4080
abbrev row.RESSTAT : Nat := 0x4084
abbrev row.OPBEATS : Nat := 0x4088
abbrev row.RESBEATS : Nat := 0x408C
abbrev row.PORTERR : Nat := 0x4090
abbrev row.INSPADDR : Nat := 0x5080
abbrev row.INSPDATA : Nat := 0x5084

/-! Sequencer pages (R204-R207) -/
abbrev seq.SEQENTRY : Nat := 0x80
abbrev seq.SEQPC : Nat := 0x84
abbrev seq.SEQSTAT : Nat := 0x88
abbrev seq.SEQFAULT : Nat := 0x8C
abbrev seq.SEQDOOR : Nat := 0x90
abbrev seq.MOVSTAT : Nat := 0x94
abbrev seq.MPROG : Nat := 0x98
abbrev seq.SYNCSTAT : Nat := 0x9C
abbrev seq.STRSTAT : Nat := 0xA0
abbrev seq.SKIPSTAT : Nat := 0x1080
abbrev seq.SKIPPOP : Nat := 0x1084
abbrev seq.SKIPDROP : Nat := 0x1088
abbrev seq.SKIPADDR : Nat := 0x1090
abbrev seq.SKIPHDR : Nat := 0x1094
abbrev seq.SKIPRSN : Nat := 0x1098
abbrev seq.DBGADDR : Nat := 0x2080
abbrev seq.DBGDATA : Nat := 0x2084
abbrev seq.DBGCTL : Nat := 0x2088
abbrev seq.INSTRET : Nat := 0x3080
abbrev seq.CMDISS : Nat := 0x3084
abbrev seq.CMDSKIPP : Nat := 0x3088
abbrev seq.CMDSKIPL : Nat := 0x308C
abbrev seq.FENCEWAIT : Nat := 0x3090
abbrev seq.HELDEPOCH : Nat := 0x3094
abbrev seq.QFULLWAIT : Nat := 0x3098
abbrev seq.TRAPCNT : Nat := 0x309C
abbrev seq.SPILLCNT : Nat := 0x30A0
abbrev seq.FILLCNT : Nat := 0x30A4
abbrev seq.CORRCNT : Nat := 0x30A8

/-! Tile vector unit page (R210) -/
abbrev vec.VSTAT : Nat := 0x80
abbrev vec.VPROG : Nat := 0x84
abbrev vec.VCMDCNT : Nat := 0x88

/-! Arrival counter page (R246) -/
abbrev acnt.ACWRAP : Nat := 0x80
abbrev acnt.ACINC : Nat := 0x84
abbrev acnt.ACWATCH : Nat := 0x90
abbrev acnt.ACWVAL : Nat := 0x94
abbrev acnt.ACNT : Nat := 0x400
abbrev acnt.ACADD : Nat := 0x800

/-! Bank group page (R243) -/
abbrev bank.BGCTL : Nat := 0x80
abbrev bank.BGSTAT : Nat := 0x84
abbrev bank.SWEEPCTL : Nat := 0x88
abbrev bank.SWEEPPROG : Nat := 0x8C
abbrev bank.LAPTIME : Nat := 0x90
abbrev bank.LAPPROG : Nat := 0x94
abbrev bank.LAPLIM : Nat := 0x98
abbrev bank.LAPCNT : Nat := 0x9C
abbrev bank.SCRCORR : Nat := 0xA0
abbrev bank.DEMCORR : Nat := 0xA4
abbrev bank.UNCCNT : Nat := 0xA8
abbrev bank.ACCCNT : Nat := 0xAC
abbrev bank.ERRINJ : Nat := 0xB0
abbrev bank.CONFLICT : Nat := 0xC0

/-! Stream engine pages (R284, R285) -/
abbrev seng.CTXDONE : Nat := 0x80
abbrev seng.CTXERRSUM : Nat := 0x84
abbrev seng.CTXWMSTK : Nat := 0x88
abbrev seng.CTXWMLIVE : Nat := 0x8C
abbrev seng.POOLSTAT : Nat := 0x100
abbrev seng.POOLRES : Nat := 0x104
abbrev seng.POOLWM : Nat := 0x108
abbrev seng.POOLWMST : Nat := 0x10C
abbrev seng.DEPPOLL : Nat := 0x110
abbrev seng.ADMITCNT : Nat := 0x114
abbrev seng.REFUSECNT : Nat := 0x118
abbrev seng.POLLCNT : Nat := 0x11C
abbrev seng.RDBYTES : Nat := 0x120
abbrev seng.WRBYTES : Nat := 0x124
abbrev seng.LULLCNT : Nat := 0x128
abbrev seng.QUOTA : Nat := 0x140
abbrev seng.BORROWMAX : Nat := 0x180
abbrev seng.PARTHELD : Nat := 0x1C0

/-! Stream context registers (R286) -/
abbrev ctx.CTXOWN : Nat := 0x0
abbrev ctx.CTXCFG : Nat := 0x4
abbrev ctx.CTXCMD : Nat := 0x8
abbrev ctx.CTXSTAT : Nat := 0xC
abbrev ctx.CTXLIST : Nat := 0x10
abbrev ctx.CTXLISTH : Nat := 0x14
abbrev ctx.CTXRDESC : Nat := 0x18
abbrev ctx.CTXRDESCH : Nat := 0x1C
abbrev ctx.CTXWDESC : Nat := 0x20
abbrev ctx.CTXWDESCH : Nat := 0x24
abbrev ctx.CTXRPOS : Nat := 0x28
abbrev ctx.CTXRPOSH : Nat := 0x2C
abbrev ctx.CTXWPOS : Nat := 0x30
abbrev ctx.CTXWPOSH : Nat := 0x34
abbrev ctx.CTXRBIAS : Nat := 0x38
abbrev ctx.CTXWBIAS : Nat := 0x3C
abbrev ctx.CTXWAITT : Nat := 0x40
abbrev ctx.CTXDEPNS : Nat := 0x44
abbrev ctx.CTXBUFNS : Nat := 0x48
abbrev ctx.CTXBLKS : Nat := 0x4C
abbrev ctx.CTXERR : Nat := 0x50

/-! Channel controller page (R328) -/
abbrev chan.CHCTL : Nat := 0x80
abbrev chan.CHSTAT : Nat := 0x84
abbrev chan.ERASECTL : Nat := 0x88
abbrev chan.FRZCTL : Nat := 0x8C
abbrev chan.FRZCAUSE : Nat := 0x90
abbrev chan.FRZSYN : Nat := 0x94
abbrev chan.FRZADDR : Nat := 0x98
abbrev chan.FRZADDRH : Nat := 0x9C
abbrev chan.FRZCMD : Nat := 0xA0
abbrev chan.TRNCTL : Nat := 0xC0
abbrev chan.TRNSTAT : Nat := 0xC4
abbrev chan.TRNRD : Nat := 0xC8
abbrev chan.TRNWR : Nat := 0xF0
abbrev chan.CORRCORE : Nat := 0x118
abbrev chan.DEMCORR : Nat := 0x140
abbrev chan.SCRCORR : Nat := 0x144
abbrev chan.UNCCNT : Nat := 0x148
abbrev chan.RDCNT : Nat := 0x14C
abbrev chan.WRCNT : Nat := 0x150
abbrev chan.RMWCNT : Nat := 0x154
abbrev chan.INORDCNT : Nat := 0x158
abbrev chan.REFPOST : Nat := 0x15C

/-! Page-valid manager page (R330) -/
abbrev pvm.ILVCFG : Nat := 0x80
abbrev pvm.PVCLRBASE : Nat := 0x84
abbrev pvm.PVCLRBASEH : Nat := 0x88
abbrev pvm.PVCLRLEN : Nat := 0x8C
abbrev pvm.PVCMD : Nat := 0x90
abbrev pvm.PVSTAT : Nat := 0x94
abbrev pvm.VALIDCNT : Nat := 0x98
abbrev pvm.FILLSTAT : Nat := 0x9C
abbrev pvm.FILLWAIT : Nat := 0xA0
abbrev pvm.FILLCNT : Nat := 0xA4
abbrev pvm.PVQADDR : Nat := 0xA8
abbrev pvm.PVQDATA : Nat := 0xAC
abbrev pvm.SCRBCTL : Nat := 0xB0
abbrev pvm.LAPTIME : Nat := 0xB4
abbrev pvm.LAPLIM : Nat := 0xB8
abbrev pvm.LAPCNT : Nat := 0xBC
abbrev pvm.LAPPROG : Nat := 0xC0

/-! Nimbus engine page (R331) -/
abbrev nve.NESTAT : Nat := 0x80
abbrev nve.NEPROG : Nat := 0x84
abbrev nve.NECMDCNT : Nat := 0x88
abbrev nve.NESKIP : Nat := 0x8C
abbrev nve.NERBASE : Nat := 0x90
abbrev nve.NERBASEH : Nat := 0x94
abbrev nve.NERSIZE : Nat := 0x98
abbrev nve.NEHEAD : Nat := 0x9C
abbrev nve.NETAIL : Nat := 0xA0
abbrev nve.NEEPOCH : Nat := 0xA4
abbrev nve.NFMT : Nat := 0xC0

/-! Fabric region page (R361) -/
abbrev region.FRCTL : Nat := 0x80
abbrev region.FRSTAT : Nat := 0x84
abbrev region.FRCMD : Nat := 0x88
abbrev region.WINTO : Nat := 0x8C
abbrev region.FRPWR : Nat := 0x90
abbrev region.FRPWRLIM : Nat := 0x94
abbrev region.PINUSE : Nat := 0x98
abbrev region.PORTCLK : Nat := 0x9C
abbrev region.FCLKMEAS : Nat := 0xA0
abbrev region.WINREQ : Nat := 0xC0
abbrev region.WINTOCNT : Nat := 0xC4
abbrev region.INITREQ : Nat := 0xC8
abbrev region.INITERR : Nat := 0xCC
abbrev region.PRBSEL : Nat := 0x100
abbrev region.PRBPIN : Nat := 0x104

/-! Configuration controller page (R393, R394) -/
abbrev ccfg.CCCTL : Nat := 0x80
abbrev ccfg.CCCMD : Nat := 0x84
abbrev ccfg.CCSTAT : Nat := 0x88
abbrev ccfg.CCSRC : Nat := 0x8C
abbrev ccfg.CCSRCH : Nat := 0x90
abbrev ccfg.CCSRCLEN : Nat := 0x94
abbrev ccfg.CCCHAIN : Nat := 0x98
abbrev ccfg.CCATTEMPT : Nat := 0x9C
abbrev ccfg.CCLOADSET : Nat := 0xA0
abbrev ccfg.CCFRAMES : Nat := 0xA4
abbrev ccfg.CCPARTID : Nat := 0xA8
abbrev ccfg.CCRETRY : Nat := 0xAC
abbrev ccfg.CCCHRES : Nat := 0xB0
abbrev ccfg.CCCHDROP : Nat := 0xB4
abbrev ccfg.CCRBPROG : Nat := 0xB8
abbrev ccfg.RGSTAT : Nat := 0x200
abbrev ccfg.RGRBCTL : Nat := 0x204
abbrev ccfg.RGGOLD : Nat := 0x208
abbrev ccfg.RGIMG : Nat := 0x20C
abbrev ccfg.RGIMGH : Nat := 0x210
abbrev ccfg.RGLAP : Nat := 0x214
abbrev ccfg.RGUPSET : Nat := 0x218
abbrev ccfg.RGREPAIR : Nat := 0x21C

/-! Check channel page (R405) -/
abbrev ck.CKCFG : Nat := 0x80
abbrev ck.CKSTART : Nat := 0x84
abbrev ck.CKSTARTH : Nat := 0x88
abbrev ck.CKLEN : Nat := 0x8C
abbrev ck.CKLENH : Nat := 0x90
abbrev ck.CKSEQ : Nat := 0x94
abbrev ck.CKSEQH : Nat := 0x98
abbrev ck.CKEXP : Nat := 0x9C
abbrev ck.CKEXPH : Nat := 0xA0
abbrev ck.CKRES : Nat := 0xA4
abbrev ck.CKRESH : Nat := 0xA8
abbrev ck.CKCMD : Nat := 0xAC
abbrev ck.CKSTAT : Nat := 0xB0
abbrev ck.CKPROG : Nat := 0xB4
abbrev ck.CKDEP : Nat := 0xB8
abbrev ck.CKDVAL : Nat := 0xBC
abbrev ck.CKCNTX : Nat := 0xC0
abbrev ck.CKMISS : Nat := 0xC4
abbrev ck.CKSCANS : Nat := 0xC8
abbrev ck.CKPOLY : Nat := 0xE0
abbrev ck.CKPOLYH : Nat := 0xE4
abbrev ck.CKINIT : Nat := 0xE8
abbrev ck.CKINITH : Nat := 0xEC
abbrev ck.CKPCFG : Nat := 0xF0

/-! Probe page (R437) -/
abbrev probe.PRCTL : Nat := 0x80
abbrev probe.PRCLR : Nat := 0x84
abbrev probe.PRFMATCH : Nat := 0x88
abbrev probe.PRFMASK : Nat := 0x8C
abbrev probe.PRFPKT : Nat := 0x90
abbrev probe.PRFBYTES : Nat := 0x94
abbrev probe.PRSTATSEL : Nat := 0x98
abbrev probe.PRREQ : Nat := 0x9C
abbrev probe.PRRDBYTES : Nat := 0xA0
abbrev probe.PRWRBYTES : Nat := 0xA4
abbrev probe.PRHIST : Nat := 0xC0
abbrev probe.PRLNKPKT : Nat := 0x100
abbrev probe.PRLNKBYTE : Nat := 0x104
abbrev probe.PRTRCTL : Nat := 0x180
abbrev probe.PRTRSTAT : Nat := 0x184
abbrev probe.PRTRADDR : Nat := 0x188
abbrev probe.PRTRDATA : Nat := 0x18C

/-! Partition table pages (R439-R442) -/
abbrev ptab.PTMODE : Nat := 0x80
abbrev ptab.PTFAULT : Nat := 0x84
abbrev ptab.PTFLIVE : Nat := 0x88
abbrev ptab.LULLLIM : Nat := 0xC0
abbrev ptab.RSPERR : Nat := 0x104
abbrev ptab.PWBASE : Nat := 0x1080
abbrev ptab.PWBASEH : Nat := 0x1084
abbrev ptab.PWLEN : Nat := 0x1088
abbrev ptab.PWCTL : Nat := 0x108C
abbrev ptab.NSLOT : Nat := 0x2080
abbrev ptab.NSLOTV : Nat := 0x20A0
abbrev ptab.DSLOT : Nat := 0x20C0
abbrev ptab.DSLOTV : Nat := 0x20C8
abbrev ptab.ESLOT : Nat := 0x2100
abbrev ptab.ESLOTV : Nat := 0x2120
abbrev ptab.VSLOT : Nat := 0x2140
abbrev ptab.VSLOTV : Nat := 0x2160
abbrev ptab.LRSTAT : Nat := 0x3080
abbrev ptab.LRPOP : Nat := 0x3084
abbrev ptab.LRDATA : Nat := 0x3090

/-! Chagus port page (R486) -/
abbrev port.PCTL : Nat := 0x80
abbrev port.PSTAT : Nat := 0x84
abbrev port.PEERID : Nat := 0x88
abbrev port.LOCALID : Nat := 0x8C
abbrev port.PTIMING : Nat := 0x90
abbrev port.RQTO : Nat := 0x94
abbrev port.RMWBASE : Nat := 0x98
abbrev port.RMWBASEH : Nat := 0x9C
abbrev port.RMWLEN : Nat := 0xA0
abbrev port.PAUSETX : Nat := 0xA4
abbrev port.PAUSECFG : Nat := 0xA8
abbrev port.RXWM : Nat := 0xAC
abbrev port.RXBASE : Nat := 0xB0
abbrev port.RXBASEH : Nat := 0xB4
abbrev port.RXCFG : Nat := 0xB8
abbrev port.RXHEAD : Nat := 0xBC
abbrev port.RXTAIL : Nat := 0xC0
abbrev port.RXERR : Nat := 0xC4
abbrev port.TAGSTAT : Nat := 0xC8
abbrev port.CREDSTAT : Nat := 0xD0
abbrev port.TXFRAMES : Nat := 0x100
abbrev port.RXFRAMES : Nat := 0x104
abbrev port.TXBYTES : Nat := 0x108
abbrev port.RXBYTES : Nat := 0x10C
abbrev port.CRCERR : Nat := 0x110
abbrev port.REPLAYS : Nat := 0x114
abbrev port.RETRAINS : Nat := 0x118
abbrev port.STALECNT : Nat := 0x11C
abbrev port.ABANDON : Nat := 0x120
abbrev port.RXTRUNC : Nat := 0x124
abbrev port.RXNOBUF : Nat := 0x128
abbrev port.RXSTOPDROP : Nat := 0x12C
abbrev port.BADHDR : Nat := 0x130
abbrev port.OSERR : Nat := 0x134
abbrev port.DUPCNT : Nat := 0x138
abbrev port.PAUSERX : Nat := 0x13C
abbrev port.PAUSENS : Nat := 0x140

/-! Lane group page (R489) -/
abbrev lgrp.LGSTAT : Nat := 0x80
abbrev lgrp.LGSKEW : Nat := 0x84
abbrev lgrp.EQ : Nat := 0xC0
abbrev lgrp.TRIM : Nat := 0x200
abbrev lgrp.EQEFF : Nat := 0x240
abbrev lgrp.CVCNT : Nat := 0x280
abbrev lgrp.DISPCNT : Nat := 0x284

/-! Power and thermal manager page (R520) -/
abbrev ptm.MODSTAT : Nat := 0x80
abbrev ptm.MODCMD : Nat := 0x84
abbrev ptm.TBASELO : Nat := 0x88
abbrev ptm.TBASEHI : Nat := 0x8C
abbrev ptm.DISCSTAT : Nat := 0x90
abbrev ptm.DISCDIE : Nat := 0x94
abbrev ptm.RSTREQ : Nat := 0x98
abbrev ptm.PDSTAT : Nat := 0xA0
abbrev ptm.PDSLEEP : Nat := 0xB0
abbrev ptm.PDREQ : Nat := 0xC0
abbrev ptm.PDREQSTAT : Nat := 0xC4
abbrev ptm.PCAP : Nat := 0xD0
abbrev ptm.VMIN : Nat := 0xD4
abbrev ptm.PWRIN : Nat := 0xD8
abbrev ptm.CAPSTAT : Nat := 0xDC
abbrev ptm.GRANTGAP : Nat := 0xE0
abbrev ptm.GRANTSTAT : Nat := 0xE4
abbrev ptm.TWARN : Nat := 0xE8
abbrev ptm.DIEMAX : Nat := 0xEC
abbrev ptm.LASTSHUT : Nat := 0xF0
abbrev ptm.RAILV : Nat := 0x100
abbrev ptm.FABALLOC : Nat := 0x180
abbrev ptm.TEMP : Nat := 0x200

/-! Overcast broadcaster page (R523) -/
abbrev ocast.OCSRC : Nat := 0x80
abbrev ocast.OCSRCH : Nat := 0x84
abbrev ocast.OCLEN : Nat := 0x88
abbrev ocast.OCDEST : Nat := 0x8C
abbrev ocast.OCMASK : Nat := 0x90
abbrev ocast.OCCMD : Nat := 0x98
abbrev ocast.OCSTAT : Nat := 0x9C
abbrev ocast.OCFAIL : Nat := 0xA0
abbrev ocast.OCCRC : Nat := 0xA8
abbrev ocast.EPVAL : Nat := 0xB0
abbrev ocast.EPAPPLIED : Nat := 0xB4
abbrev ocast.EPPEND : Nat := 0xB8
abbrev ocast.EPFAIL : Nat := 0xBC

/-! PCIe endpoint page (R537) -/
abbrev pcie.EPSTAT : Nat := 0x80
abbrev pcie.APSEL : Nat := 0x84
abbrev pcie.APDATA : Nat := 0x88
abbrev pcie.INREQ : Nat := 0x90
abbrev pcie.INERR : Nat := 0x94
abbrev pcie.INTO : Nat := 0x98
abbrev pcie.CPYBYTES : Nat := 0x9C
abbrev pcie.VFPART : Nat := 0xC0

/-! Event concentrator pages (R536) -/
abbrev evc.MODTIME : Nat := 0x100
abbrev evc.TSTAT : Nat := 0x200
abbrev evc.NOTIFCNT : Nat := 0x300
abbrev evc.SRCCFG : Nat := 0x1400
abbrev evc.SRCPEND : Nat := 0x5400
abbrev evc.SRCLIVE : Nat := 0x5600
abbrev evc.DBSET : Nat := 0x5700

/-! Security page (R52, R374) -/
abbrev sec.FPRADDR : Nat := 0x80
abbrev sec.FPRDATA : Nat := 0x84
abbrev sec.KEYSTAT : Nat := 0x100
abbrev sec.KEYHSEL : Nat := 0x104
abbrev sec.KEYHDATA : Nat := 0x108
abbrev sec.KEYBUF : Nat := 0x110
abbrev sec.KEYPROG : Nat := 0x140

/-! Function registers in BAR0 (R528) -/
abbrev fn.MSIXTAB : Nat := 0x0
abbrev fn.MSIXPBA : Nat := 0x800
abbrev fn.FNSTAT : Nat := 0x1000
abbrev fn.ARMIDLE : Nat := 0x1004
abbrev fn.CRBASE : Nat := 0x1010
abbrev fn.CRBASEH : Nat := 0x1014
abbrev fn.CRCFG : Nat := 0x1018
abbrev fn.CRHEAD : Nat := 0x101C
abbrev fn.CRTAIL : Nat := 0x1020
abbrev fn.CRERR : Nat := 0x1024
abbrev fn.EVVPEND : Nat := 0x2000
abbrev fn.EVVLIVE : Nat := 0x2100

end Rg

/-- Common page header (R17). -/
def hdrRegs : List RegRow :=
  [⟨Rg.hdr.BLKID, 1, 0, .ro, 0xFFFFFF7F, 0⟩,
   ⟨Rg.hdr.BLKVER, 1, 0, .ro, 0xFFFFFFFF, 0⟩,
   ⟨Rg.hdr.BLKCAP, 1, 0, .ro, 0xFFFFFFFF, 0⟩,
   ⟨Rg.hdr.BLKPART, 1, 0, .rw, 0x0000000F, 0⟩,
   ⟨Rg.hdr.BLKCTL, 1, 0, .rw, 0x0000FF00, 0⟩,
   ⟨Rg.hdr.BLKSTAT, 1, 0, .ro, 0x0000FF07, 0⟩,
   ⟨Rg.hdr.EVPEND, 1, 0, .w1c, 0x0000FFFF, 0⟩,
   ⟨Rg.hdr.EVENA, 1, 0, .rw, 0x0000FFFF, 0⟩,
   ⟨Rg.hdr.EVSENSE, 1, 0, .rw, 0xFFFFFFFF, 0⟩,
   ⟨Rg.hdr.EVLIVE, 1, 0, .ro, 0x0000FFFF, 0⟩,
   ⟨Rg.hdr.ERRCNT, 1, 0, .rc, 0xFFFFFFFF, 0⟩,
   ⟨Rg.hdr.ERRLOG, 16, 4, .ro, 0xFFFFFFFF, 0⟩]

/-- Anvil tile pages (R114-R121). -/
def rowRegs : List RegRow :=
  [⟨Rg.row.TSHAPE, 1, 0, .ro, 0x3, 0⟩,
   ⟨Rg.row.TMODE, 1, 0, .rwl, 0x3, 0⟩,
   ⟨Rg.row.RAMPCTL, 1, 0, .rwl, 0xFF, 0x20⟩,
   ⟨Rg.row.RAMPSTAT, 1, 0, .ro, 0x30F, 0⟩,
   ⟨Rg.row.CMDQSTAT, 1, 0, .ro, 0xFFFF011F, 0⟩,
   ⟨Rg.row.SEGPROG, 8, 4, .ro, 0x3FFFFFF, 0⟩,
   ⟨Rg.row.FMTDESC, 16, 4, .rw, 0x3FF, 0⟩,
   ⟨Rg.row.RDBASE, 16, 16, .rw, 0xFFFFFFFF, 0⟩,
   ⟨Rg.row.RDBASEH, 16, 16, .rw, 0xFFFFFFFF, 0⟩,
   ⟨Rg.row.RDCTL, 16, 16, .rw, 0x00FF3F7F, 0⟩,
   ⟨Rg.row.RDMULT, 16, 16, .rw, 0xFFFFFFFF, 0⟩,
   ⟨Rg.row.ACCRECA, 32, 8, .ro, 0x01FFFFF7, 0⟩,
   ⟨Rg.row.ACCRECB, 32, 8, .ro, 0xFFFFFFFF, 0⟩,
   ⟨Rg.row.ACCSTATE, 128, 4, .ro, 0xFFFFFFFF, 0⟩,
   ⟨Rg.row.ACCTYPE, 64, 4, .ro, 0xFFFFFFFF, 0⟩,
   ⟨Rg.row.RATECUR, 1, 0, .ros, 0xFFFF, 0⟩,
   ⟨Rg.row.RATEMIN, 1, 0, .ros, 0xFFFF, 0xFFFF⟩,
   ⟨Rg.row.RATECTL, 1, 0, .wo, 0x1, 0⟩,
   ⟨Rg.row.RATEFLOOR, 1, 0, .rw, 0xFFFF, 0x76C⟩,
   ⟨Rg.row.TOKCNT, 1, 0, .rc, 0xFFFFFFFF, 0⟩] ++
  [⟨Rg.row.SLIPTOK, 1, 0, .rc, 0xFFFFFFFF, 0⟩,
   ⟨Rg.row.SLIPWGT, 1, 0, .rc, 0xFFFFFFFF, 0⟩,
   ⟨Rg.row.SLIPRES, 1, 0, .rc, 0xFFFFFFFF, 0⟩,
   ⟨Rg.row.SLIPPORT, 1, 0, .rc, 0xFFFFFFFF, 0⟩,
   ⟨Rg.row.SLIPRAMP, 1, 0, .rc, 0xFFFFFFFF, 0⟩,
   ⟨Rg.row.NULLCNT, 1, 0, .rc, 0xFFFFFFFF, 0⟩,
   ⟨Rg.row.OPSTAT, 1, 0, .ro, 0x3, 0⟩,
   ⟨Rg.row.RESSTAT, 1, 0, .ro, 0x3, 0⟩,
   ⟨Rg.row.OPBEATS, 1, 0, .rc, 0xFFFFFFFF, 0⟩,
   ⟨Rg.row.RESBEATS, 1, 0, .rc, 0xFFFFFFFF, 0⟩,
   ⟨Rg.row.PORTERR, 1, 0, .ros, 0xFFFF00FF, 0⟩,
   ⟨Rg.row.INSPADDR, 1, 0, .rw, 0x3FFFF, 0⟩,
   ⟨Rg.row.INSPDATA, 1, 0, .ro, 0xFFFFFFFF, 0⟩]

/-- Sequencer pages (R204-R207). -/
def seqRegs : List RegRow :=
  [⟨Rg.seq.SEQENTRY, 1, 0, .rwl, 0x1FFFC, 0⟩,
   ⟨Rg.seq.SEQPC, 1, 0, .ro, 0x1FFFC, 0⟩,
   ⟨Rg.seq.SEQSTAT, 1, 0, .ro, 0x7F0777, 0x10⟩,
   ⟨Rg.seq.SEQFAULT, 1, 0, .ros, 0xFFFF0F, 0⟩,
   ⟨Rg.seq.SEQDOOR, 1, 0, .w1s, 0xFF, 0⟩,
   ⟨Rg.seq.MOVSTAT, 1, 0, .ro, 0x1F, 0⟩,
   ⟨Rg.seq.MPROG, 1, 0, .ro, 0xFFFFFFFF, 0⟩,
   ⟨Rg.seq.SYNCSTAT, 1, 0, .ro, 0xFF1F, 0⟩,
   ⟨Rg.seq.STRSTAT, 1, 0, .ro, 0x7, 0⟩,
   ⟨Rg.seq.SKIPSTAT, 1, 0, .ro, 0x3F, 0⟩,
   ⟨Rg.seq.SKIPPOP, 1, 0, .wo, 0x1, 0⟩,
   ⟨Rg.seq.SKIPDROP, 1, 0, .rc, 0xFFFFFFFF, 0⟩,
   ⟨Rg.seq.SKIPADDR, 1, 0, .ro, 0xFFFFFFFF, 0⟩,
   ⟨Rg.seq.SKIPHDR, 1, 0, .ro, 0xFFFFFFFF, 0⟩,
   ⟨Rg.seq.SKIPRSN, 1, 0, .ro, 0x7FF, 0⟩,
   ⟨Rg.seq.DBGADDR, 1, 0, .rw, 0xF00FFFFF, 0⟩,
   ⟨Rg.seq.DBGDATA, 1, 0, .ro, 0xFFFFFFFF, 0⟩,
   ⟨Rg.seq.DBGCTL, 1, 0, .rw, 0x1, 0⟩,
   ⟨Rg.seq.INSTRET, 1, 0, .rc, 0xFFFFFFFF, 0⟩,
   ⟨Rg.seq.CMDISS, 1, 0, .rc, 0xFFFFFFFF, 0⟩] ++
  [⟨Rg.seq.CMDSKIPP, 1, 0, .rc, 0xFFFFFFFF, 0⟩,
   ⟨Rg.seq.CMDSKIPL, 1, 0, .rc, 0xFFFFFFFF, 0⟩,
   ⟨Rg.seq.FENCEWAIT, 1, 0, .rc, 0xFFFFFFFF, 0⟩,
   ⟨Rg.seq.HELDEPOCH, 1, 0, .rc, 0xFFFFFFFF, 0⟩,
   ⟨Rg.seq.QFULLWAIT, 1, 0, .rc, 0xFFFFFFFF, 0⟩,
   ⟨Rg.seq.TRAPCNT, 1, 0, .rc, 0xFFFFFFFF, 0⟩,
   ⟨Rg.seq.SPILLCNT, 1, 0, .rc, 0xFFFFFFFF, 0⟩,
   ⟨Rg.seq.FILLCNT, 1, 0, .rc, 0xFFFFFFFF, 0⟩,
   ⟨Rg.seq.CORRCNT, 1, 0, .rc, 0xFFFFFFFF, 0⟩]

/-- Tile vector unit page (R210). -/
def vecRegs : List RegRow :=
  [⟨Rg.vec.VSTAT, 1, 0, .ro, 0x11F, 0⟩,
   ⟨Rg.vec.VPROG, 1, 0, .ro, 0x1FFFFFF, 0⟩,
   ⟨Rg.vec.VCMDCNT, 1, 0, .rc, 0xFFFFFFFF, 0⟩]

/-- Arrival counter page (R246). -/
def acntRegs : List RegRow :=
  [⟨Rg.acnt.ACWRAP, 1, 0, .ros, 0xFF, 0⟩,
   ⟨Rg.acnt.ACINC, 1, 0, .rc, 0xFFFFFFFF, 0⟩,
   ⟨Rg.acnt.ACWATCH, 4, 8, .rw, 0x1FF, 0⟩,
   ⟨Rg.acnt.ACWVAL, 4, 8, .rw, 0xFFFFFFFF, 0⟩,
   ⟨Rg.acnt.ACNT, 256, 4, .rw, 0xFFFFFFFF, 0⟩,
   ⟨Rg.acnt.ACADD, 256, 4, .wo, 0xFFFFFFFF, 0⟩]

/-- Bank group page (R243). -/
def bankRegs : List RegRow :=
  [⟨Rg.bank.BGCTL, 1, 0, .rwl, 0x7, 3⟩,
   ⟨Rg.bank.BGSTAT, 1, 0, .ro, 0x7, 0⟩,
   ⟨Rg.bank.SWEEPCTL, 1, 0, .wo, 0x1, 0⟩,
   ⟨Rg.bank.SWEEPPROG, 1, 0, .ros, 0x1FFFF, 0⟩,
   ⟨Rg.bank.LAPTIME, 1, 0, .ros, 0xFFFFFFFF, 0⟩,
   ⟨Rg.bank.LAPPROG, 1, 0, .ro, 0x1FFFF, 0⟩,
   ⟨Rg.bank.LAPLIM, 1, 0, .rw, 0xFFFFFFFF, 0x186A0⟩,
   ⟨Rg.bank.LAPCNT, 1, 0, .rc, 0xFFFFFFFF, 0⟩,
   ⟨Rg.bank.SCRCORR, 1, 0, .rc, 0xFFFFFFFF, 0⟩,
   ⟨Rg.bank.DEMCORR, 1, 0, .rc, 0xFFFFFFFF, 0⟩,
   ⟨Rg.bank.UNCCNT, 1, 0, .rc, 0xFFFFFFFF, 0⟩,
   ⟨Rg.bank.ACCCNT, 1, 0, .rc, 0xFFFFFFFF, 0⟩,
   ⟨Rg.bank.ERRINJ, 1, 0, .rw, 0x37F7F, 0⟩,
   ⟨Rg.bank.CONFLICT, 16, 4, .rc, 0xFFFFFFFF, 0⟩]

/-- Stream engine pages (R284, R285). -/
def sengRegs : List RegRow :=
  [⟨Rg.seng.CTXDONE, 1, 0, .w1c, 0xFFFFFFFF, 0⟩,
   ⟨Rg.seng.CTXERRSUM, 1, 0, .ro, 0xFFFFFFFF, 0⟩,
   ⟨Rg.seng.CTXWMSTK, 1, 0, .w1c, 0xFFFFFFFF, 0⟩,
   ⟨Rg.seng.CTXWMLIVE, 1, 0, .ro, 0xFFFFFFFF, 0⟩,
   ⟨Rg.seng.POOLSTAT, 1, 0, .ro, 0x7FF07FF, 0⟩,
   ⟨Rg.seng.POOLRES, 1, 0, .ro, 0x7FF07FF, 0⟩,
   ⟨Rg.seng.POOLWM, 1, 0, .rw, 0x7FF, 0x300⟩,
   ⟨Rg.seng.POOLWMST, 1, 0, .w1c, 0x2, 0⟩,
   ⟨Rg.seng.DEPPOLL, 1, 0, .rw, 0x1FFF, 0x40⟩,
   ⟨Rg.seng.ADMITCNT, 1, 0, .rc, 0xFFFFFFFF, 0⟩,
   ⟨Rg.seng.REFUSECNT, 1, 0, .rc, 0xFFFFFFFF, 0⟩,
   ⟨Rg.seng.POLLCNT, 1, 0, .rc, 0xFFFFFFFF, 0⟩,
   ⟨Rg.seng.RDBYTES, 1, 0, .rc, 0xFFFFFFFF, 0⟩,
   ⟨Rg.seng.WRBYTES, 1, 0, .rc, 0xFFFFFFFF, 0⟩,
   ⟨Rg.seng.LULLCNT, 1, 0, .rc, 0xFFFFFFFF, 0⟩,
   ⟨Rg.seng.QUOTA, 16, 4, .rw, 0x7FF, 0⟩,
   ⟨Rg.seng.BORROWMAX, 16, 4, .rw, 0x7FF, 0x400⟩,
   ⟨Rg.seng.PARTHELD, 16, 4, .ro, 0x7FF07FF, 0⟩]

/-- Stream context registers (R286). -/
def ctxRegs : List RegRow :=
  [⟨Rg.ctx.CTXOWN, 1, 0, .rw, 0xF, 0⟩,
   ⟨Rg.ctx.CTXCFG, 1, 0, .rw, 0x37FF7FFF, 2⟩,
   ⟨Rg.ctx.CTXCMD, 1, 0, .wo, 0xF, 0⟩,
   ⟨Rg.ctx.CTXSTAT, 1, 0, .ro, 0x7FF7FFFF, 0⟩,
   ⟨Rg.ctx.CTXLIST, 1, 0, .rw, 0xFFFFFFE0, 0⟩,
   ⟨Rg.ctx.CTXLISTH, 1, 0, .rw, 0xFFFF, 0⟩,
   ⟨Rg.ctx.CTXRDESC, 1, 0, .ro, 0xFFFFFFFF, 0⟩,
   ⟨Rg.ctx.CTXRDESCH, 1, 0, .ro, 0xFFFF, 0⟩,
   ⟨Rg.ctx.CTXWDESC, 1, 0, .ro, 0xFFFFFFFF, 0⟩,
   ⟨Rg.ctx.CTXWDESCH, 1, 0, .ro, 0xFFFF, 0⟩,
   ⟨Rg.ctx.CTXRPOS, 1, 0, .ro, 0xFFFFFFFF, 0⟩,
   ⟨Rg.ctx.CTXRPOSH, 1, 0, .ro, 0xFFFFFFFF, 0⟩,
   ⟨Rg.ctx.CTXWPOS, 1, 0, .ro, 0xFFFFFFFF, 0⟩,
   ⟨Rg.ctx.CTXWPOSH, 1, 0, .ro, 0xFFFFFFFF, 0⟩,
   ⟨Rg.ctx.CTXRBIAS, 1, 0, .ro, 0xFFFFFFFF, 0⟩,
   ⟨Rg.ctx.CTXWBIAS, 1, 0, .ro, 0xFFFFFFFF, 0⟩,
   ⟨Rg.ctx.CTXWAITT, 1, 0, .ro, 0xFFFFFFFF, 0⟩,
   ⟨Rg.ctx.CTXDEPNS, 1, 0, .rc, 0xFFFFFFFF, 0⟩,
   ⟨Rg.ctx.CTXBUFNS, 1, 0, .rc, 0xFFFFFFFF, 0⟩,
   ⟨Rg.ctx.CTXBLKS, 1, 0, .rc, 0xFFFFFFFF, 0⟩] ++
  [⟨Rg.ctx.CTXERR, 1, 0, .ros, 0xFF, 0⟩]

/-- Channel controller page (R328). -/
def chanRegs : List RegRow :=
  [⟨Rg.chan.CHCTL, 1, 0, .rwl, 0x7, 1⟩,
   ⟨Rg.chan.CHSTAT, 1, 0, .ro, 0xFFF, 0⟩,
   ⟨Rg.chan.ERASECTL, 1, 0, .rw, 0x1F, 0⟩,
   ⟨Rg.chan.FRZCTL, 1, 0, .wo, 0x3, 0⟩,
   ⟨Rg.chan.FRZCAUSE, 1, 0, .ros, 0xFF03, 0⟩,
   ⟨Rg.chan.FRZSYN, 1, 0, .ros, 0x7FFFF, 0⟩,
   ⟨Rg.chan.FRZADDR, 1, 0, .ros, 0xFFFFFFFF, 0⟩,
   ⟨Rg.chan.FRZADDRH, 1, 0, .ros, 0x7, 0⟩,
   ⟨Rg.chan.FRZCMD, 8, 4, .ros, 0x7FFFFF, 0⟩,
   ⟨Rg.chan.TRNCTL, 1, 0, .wo, 0x1, 0⟩,
   ⟨Rg.chan.TRNSTAT, 1, 0, .ros, 0x3FFFFF, 0⟩,
   ⟨Rg.chan.TRNRD, 10, 4, .ros, 0x7F7F7F, 0⟩,
   ⟨Rg.chan.TRNWR, 10, 4, .ros, 0x7F7F7F, 0⟩,
   ⟨Rg.chan.CORRCORE, 10, 4, .rc, 0xFFFFFFFF, 0⟩,
   ⟨Rg.chan.DEMCORR, 1, 0, .rc, 0xFFFFFFFF, 0⟩,
   ⟨Rg.chan.SCRCORR, 1, 0, .rc, 0xFFFFFFFF, 0⟩,
   ⟨Rg.chan.UNCCNT, 1, 0, .rc, 0xFFFFFFFF, 0⟩,
   ⟨Rg.chan.RDCNT, 1, 0, .rc, 0xFFFFFFFF, 0⟩,
   ⟨Rg.chan.WRCNT, 1, 0, .rc, 0xFFFFFFFF, 0⟩,
   ⟨Rg.chan.RMWCNT, 1, 0, .rc, 0xFFFFFFFF, 0⟩] ++
  [⟨Rg.chan.INORDCNT, 1, 0, .rc, 0xFFFFFFFF, 0⟩,
   ⟨Rg.chan.REFPOST, 1, 0, .rc, 0xFFFFFFFF, 0⟩]

/-- Page-valid manager page (R330). -/
def pvmRegs : List RegRow :=
  [⟨Rg.pvm.ILVCFG, 1, 0, .rw, 0x3F, 0x20⟩,
   ⟨Rg.pvm.PVCLRBASE, 1, 0, .rw, 0xFFFFF000, 0⟩,
   ⟨Rg.pvm.PVCLRBASEH, 1, 0, .rw, 0x3F, 0⟩,
   ⟨Rg.pvm.PVCLRLEN, 1, 0, .rw, 0x7FFFFFF, 0⟩,
   ⟨Rg.pvm.PVCMD, 1, 0, .wo, 0x1, 0⟩,
   ⟨Rg.pvm.PVSTAT, 1, 0, .ro, 0x1, 0⟩,
   ⟨Rg.pvm.VALIDCNT, 1, 0, .ro, 0xFFFFFF, 0⟩,
   ⟨Rg.pvm.FILLSTAT, 1, 0, .ro, 0x7F, 0⟩,
   ⟨Rg.pvm.FILLWAIT, 1, 0, .rc, 0xFFFFFFFF, 0⟩,
   ⟨Rg.pvm.FILLCNT, 1, 0, .rc, 0xFFFFFFFF, 0⟩,
   ⟨Rg.pvm.PVQADDR, 1, 0, .rw, 0x7FFFE0, 0⟩,
   ⟨Rg.pvm.PVQDATA, 1, 0, .ro, 0xFFFFFFFF, 0⟩,
   ⟨Rg.pvm.SCRBCTL, 1, 0, .rwl, 0xFFF1, 0x401⟩,
   ⟨Rg.pvm.LAPTIME, 1, 0, .ros, 0xFFFFFFFF, 0⟩,
   ⟨Rg.pvm.LAPLIM, 1, 0, .rw, 0xFFFFFFFF, 0x1388⟩,
   ⟨Rg.pvm.LAPCNT, 1, 0, .rc, 0xFFFFFFFF, 0⟩,
   ⟨Rg.pvm.LAPPROG, 1, 0, .ro, 0xFFFFFF, 0⟩]

/-- Nimbus engine page (R331). -/
def nveRegs : List RegRow :=
  [⟨Rg.nve.NESTAT, 1, 0, .ro, 0x13F, 0⟩,
   ⟨Rg.nve.NEPROG, 1, 0, .ro, 0x1FFFFFF, 0⟩,
   ⟨Rg.nve.NECMDCNT, 1, 0, .rc, 0xFFFFFFFF, 0⟩,
   ⟨Rg.nve.NESKIP, 1, 0, .rc, 0xFFFFFFFF, 0⟩,
   ⟨Rg.nve.NERBASE, 1, 0, .rwl, 0xFFFFFFE0, 0⟩,
   ⟨Rg.nve.NERBASEH, 1, 0, .rwl, 0xFFFF, 0⟩,
   ⟨Rg.nve.NERSIZE, 1, 0, .rwl, 0x1F, 4⟩,
   ⟨Rg.nve.NEHEAD, 1, 0, .rw, 0xFFFF, 0⟩,
   ⟨Rg.nve.NETAIL, 1, 0, .ros, 0xFFFF, 0⟩,
   ⟨Rg.nve.NEEPOCH, 1, 0, .rw, 0xFF, 0⟩,
   ⟨Rg.nve.NFMT, 16, 4, .rw, 0x3FF, 0⟩]

/-- Fabric region page (R361). -/
def regionRegs : List RegRow :=
  [⟨Rg.region.FRCTL, 1, 0, .rwl, 0x1, 0⟩,
   ⟨Rg.region.FRSTAT, 1, 0, .ro, 0x7F7FFF, 0⟩,
   ⟨Rg.region.FRCMD, 1, 0, .wo, 0x1, 0⟩,
   ⟨Rg.region.WINTO, 1, 0, .rw, 0x3FF, 0xA⟩,
   ⟨Rg.region.FRPWR, 1, 0, .ros, 0xFFFF, 0⟩,
   ⟨Rg.region.FRPWRLIM, 1, 0, .ro, 0xFFFF, 0⟩,
   ⟨Rg.region.PINUSE, 1, 0, .ros, 0xFFF, 0⟩,
   ⟨Rg.region.PORTCLK, 1, 0, .ros, 0x777777, 0⟩,
   ⟨Rg.region.FCLKMEAS, 8, 4, .ros, 0x7FF, 0⟩,
   ⟨Rg.region.WINREQ, 1, 0, .rc, 0xFFFFFFFF, 0⟩,
   ⟨Rg.region.WINTOCNT, 1, 0, .rc, 0xFFFFFFFF, 0⟩,
   ⟨Rg.region.INITREQ, 1, 0, .rc, 0xFFFFFFFF, 0⟩,
   ⟨Rg.region.INITERR, 1, 0, .rc, 0xFFFFFFFF, 0⟩,
   ⟨Rg.region.PRBSEL, 64, 8, .rw, 0x801FFFFF, 0⟩,
   ⟨Rg.region.PRBPIN, 64, 8, .rw, 0xF0F, 0⟩]

/-- Configuration controller page (R393, R394). -/
def ccfgRegs : List RegRow :=
  [⟨Rg.ccfg.CCCTL, 1, 0, .rw, 0x3, 3⟩,
   ⟨Rg.ccfg.CCCMD, 1, 0, .wo, 0x7, 0⟩,
   ⟨Rg.ccfg.CCSTAT, 1, 0, .ro, 0x7FF, 0⟩,
   ⟨Rg.ccfg.CCSRC, 1, 0, .rw, 0xFFFFF000, 0⟩,
   ⟨Rg.ccfg.CCSRCH, 1, 0, .rw, 0x1FFFF, 0⟩,
   ⟨Rg.ccfg.CCSRCLEN, 1, 0, .rw, 0xFFFFFFFF, 0⟩,
   ⟨Rg.ccfg.CCCHAIN, 1, 0, .rw, 0x7F, 0⟩,
   ⟨Rg.ccfg.CCATTEMPT, 1, 0, .ros, 0xFFFFFFFF, 0⟩,
   ⟨Rg.ccfg.CCLOADSET, 1, 0, .ros, 0xFFFFFFFF, 0⟩,
   ⟨Rg.ccfg.CCFRAMES, 1, 0, .ros, 0x1FFFF, 0⟩,
   ⟨Rg.ccfg.CCPARTID, 1, 0, .ro, 0xFFFFFFFF, 0xB640F01⟩,
   ⟨Rg.ccfg.CCRETRY, 1, 0, .rc, 0xFFFFFFFF, 0⟩,
   ⟨Rg.ccfg.CCCHRES, 1, 0, .rc, 0xFFFFFFFF, 0⟩,
   ⟨Rg.ccfg.CCCHDROP, 1, 0, .rc, 0xFFFFFFFF, 0⟩,
   ⟨Rg.ccfg.CCRBPROG, 1, 0, .ro, 0x1FFF, 0⟩,
   ⟨Rg.ccfg.RGSTAT, 16, 32, .ros, 0x37F, 0⟩,
   ⟨Rg.ccfg.RGRBCTL, 16, 32, .rw, 0x7, 1⟩,
   ⟨Rg.ccfg.RGGOLD, 16, 32, .ros, 0xFFFFFFFF, 0⟩,
   ⟨Rg.ccfg.RGIMG, 16, 32, .ros, 0xFFFFFFFF, 0⟩,
   ⟨Rg.ccfg.RGIMGH, 16, 32, .ros, 0xFFFF, 0⟩] ++
  [⟨Rg.ccfg.RGLAP, 16, 32, .ros, 0xFFFFFFFF, 0⟩,
   ⟨Rg.ccfg.RGUPSET, 16, 32, .rc, 0xFFFFFFFF, 0⟩,
   ⟨Rg.ccfg.RGREPAIR, 16, 32, .rc, 0xFFFFFFFF, 0⟩]

/-- Check channel page (R405). -/
def ckRegs : List RegRow :=
  [⟨Rg.ck.CKCFG, 1, 0, .rw, 0x7737, 0⟩,
   ⟨Rg.ck.CKSTART, 1, 0, .rw, 0xFFFFFFC0, 0⟩,
   ⟨Rg.ck.CKSTARTH, 1, 0, .rw, 0xFFFF, 0⟩,
   ⟨Rg.ck.CKLEN, 1, 0, .rw, 0xFFFFFFC0, 0⟩,
   ⟨Rg.ck.CKLENH, 1, 0, .rw, 0xFF, 0⟩,
   ⟨Rg.ck.CKSEQ, 1, 0, .rw, 0xFFFFFFFF, 0⟩,
   ⟨Rg.ck.CKSEQH, 1, 0, .rw, 0xFFFFFFFF, 0⟩,
   ⟨Rg.ck.CKEXP, 1, 0, .rw, 0xFFFFFFFF, 0⟩,
   ⟨Rg.ck.CKEXPH, 1, 0, .rw, 0xFFFFFFFF, 0⟩,
   ⟨Rg.ck.CKRES, 1, 0, .ros, 0xFFFFFFFF, 0⟩,
   ⟨Rg.ck.CKRESH, 1, 0, .ros, 0xFFFFFFFF, 0⟩,
   ⟨Rg.ck.CKCMD, 1, 0, .wo, 0x1, 0⟩,
   ⟨Rg.ck.CKSTAT, 1, 0, .ro, 0xFF1F, 0⟩,
   ⟨Rg.ck.CKPROG, 1, 0, .ros, 0xFFFFFFFF, 0⟩,
   ⟨Rg.ck.CKDEP, 1, 0, .rw, 0xFF3F, 0⟩,
   ⟨Rg.ck.CKDVAL, 1, 0, .rw, 0xFFFFFFFF, 0⟩,
   ⟨Rg.ck.CKCNTX, 1, 0, .rw, 0xFF3F, 0⟩,
   ⟨Rg.ck.CKMISS, 1, 0, .rc, 0xFFFFFFFF, 0⟩,
   ⟨Rg.ck.CKSCANS, 1, 0, .rc, 0xFFFFFFFF, 0⟩,
   ⟨Rg.ck.CKPOLY, 1, 0, .rw, 0xFFFFFFFF, 0⟩] ++
  [⟨Rg.ck.CKPOLYH, 1, 0, .rw, 0xFFFFFFFF, 0⟩,
   ⟨Rg.ck.CKINIT, 1, 0, .rw, 0xFFFFFFFF, 0⟩,
   ⟨Rg.ck.CKINITH, 1, 0, .rw, 0xFFFFFFFF, 0⟩,
   ⟨Rg.ck.CKPCFG, 1, 0, .rw, 0x77F, 0⟩]

/-- Probe page (R437). -/
def probeRegs : List RegRow :=
  [⟨Rg.probe.PRCTL, 1, 0, .rw, 0x3, 0⟩,
   ⟨Rg.probe.PRCLR, 1, 0, .wo, 0x1, 0⟩,
   ⟨Rg.probe.PRFMATCH, 1, 0, .rw, 0x7FFFFFF, 0⟩,
   ⟨Rg.probe.PRFMASK, 1, 0, .rw, 0x7FFFFFF, 0⟩,
   ⟨Rg.probe.PRFPKT, 1, 0, .rc, 0xFFFFFFFF, 0⟩,
   ⟨Rg.probe.PRFBYTES, 1, 0, .rc, 0xFFFFFFFF, 0⟩,
   ⟨Rg.probe.PRSTATSEL, 1, 0, .rw, 0x3F, 0⟩,
   ⟨Rg.probe.PRREQ, 1, 0, .rc, 0xFFFFFFFF, 0⟩,
   ⟨Rg.probe.PRRDBYTES, 1, 0, .rc, 0xFFFFFFFF, 0⟩,
   ⟨Rg.probe.PRWRBYTES, 1, 0, .rc, 0xFFFFFFFF, 0⟩,
   ⟨Rg.probe.PRHIST, 16, 4, .rc, 0xFFFFFFFF, 0⟩,
   ⟨Rg.probe.PRLNKPKT, 8, 8, .rc, 0xFFFFFFFF, 0⟩,
   ⟨Rg.probe.PRLNKBYTE, 8, 8, .rc, 0xFFFFFFFF, 0⟩,
   ⟨Rg.probe.PRTRCTL, 1, 0, .rw, 0x3, 0⟩,
   ⟨Rg.probe.PRTRSTAT, 1, 0, .ro, 0x3FF, 0⟩,
   ⟨Rg.probe.PRTRADDR, 1, 0, .rw, 0x3FF, 0⟩,
   ⟨Rg.probe.PRTRDATA, 1, 0, .ro, 0xFFFFFFFF, 0⟩]

/-- Partition table pages (R439-R442). -/
def ptabRegs : List RegRow :=
  [⟨Rg.ptab.PTMODE, 1, 0, .rw, 0xFFFF, 0⟩,
   ⟨Rg.ptab.PTFAULT, 1, 0, .w1c, 0xFFFF, 0⟩,
   ⟨Rg.ptab.PTFLIVE, 1, 0, .ro, 0xFFFF, 0⟩,
   ⟨Rg.ptab.LULLLIM, 16, 4, .rw, 0xFFFF, 0xC8⟩,
   ⟨Rg.ptab.RSPERR, 10, 4, .rc, 0xFFFFFFFF, 0⟩,
   ⟨Rg.ptab.PWBASE, 64, 16, .rw, 0xFFFFF000, 0⟩,
   ⟨Rg.ptab.PWBASEH, 64, 16, .rw, 0x3F, 0⟩,
   ⟨Rg.ptab.PWLEN, 64, 16, .rw, 0x7FFFFFF, 0⟩,
   ⟨Rg.ptab.PWCTL, 64, 16, .rw, 0x7F, 0⟩,
   ⟨Rg.ptab.NSLOT, 8, 4, .rw, 0xFFFFFFFF, 0⟩,
   ⟨Rg.ptab.NSLOTV, 2, 4, .rw, 0xFFFFFFFF, 0⟩,
   ⟨Rg.ptab.DSLOT, 2, 4, .rw, 0xFFFFFFFF, 0⟩,
   ⟨Rg.ptab.DSLOTV, 1, 0, .rw, 0xFFFF, 0⟩,
   ⟨Rg.ptab.ESLOT, 8, 4, .rw, 0xFFFFFFFF, 0⟩,
   ⟨Rg.ptab.ESLOTV, 2, 4, .rw, 0xFFFFFFFF, 0⟩,
   ⟨Rg.ptab.VSLOT, 8, 4, .rw, 0xFFFFFFFF, 0⟩,
   ⟨Rg.ptab.VSLOTV, 2, 4, .rw, 0xFFFFFFFF, 0⟩,
   ⟨Rg.ptab.LRSTAT, 1, 0, .ro, 0xF, 0⟩,
   ⟨Rg.ptab.LRPOP, 1, 0, .wo, 0x1, 0⟩,
   ⟨Rg.ptab.LRDATA, 4, 4, .ro, 0xFFFFFFFF, 0⟩]

/-- Chagus port page (R486). -/
def portRegs : List RegRow :=
  [⟨Rg.port.PCTL, 1, 0, .rwl, 0xF7, 0x34⟩,
   ⟨Rg.port.PSTAT, 1, 0, .ro, 0xFFF777, 0⟩,
   ⟨Rg.port.PEERID, 1, 0, .ros, 0x1F7FFFFF, 0⟩,
   ⟨Rg.port.LOCALID, 1, 0, .rw, 0xFFFF, 0⟩,
   ⟨Rg.port.PTIMING, 1, 0, .rwl, 0xFFFF1F, 0xA0A16⟩,
   ⟨Rg.port.RQTO, 1, 0, .rw, 0xFFFF, 0x1F4⟩,
   ⟨Rg.port.RMWBASE, 1, 0, .rwl, 0xFFFFF000, 0⟩,
   ⟨Rg.port.RMWBASEH, 1, 0, .rwl, 0xFFFF, 0⟩,
   ⟨Rg.port.RMWLEN, 1, 0, .rwl, 0xFFFFFFF, 0⟩,
   ⟨Rg.port.PAUSETX, 1, 0, .wo, 0x1FFFF, 0⟩,
   ⟨Rg.port.PAUSECFG, 1, 0, .rw, 0x3F7FFFFF, 0x10300040⟩,
   ⟨Rg.port.RXWM, 1, 0, .w1c, 0x2, 0⟩,
   ⟨Rg.port.RXBASE, 1, 0, .rw, 0xFFFFFFF0, 0⟩,
   ⟨Rg.port.RXBASEH, 1, 0, .rw, 0xFFFF, 0⟩,
   ⟨Rg.port.RXCFG, 1, 0, .rw, 0xFF3FF3, 0x40⟩,
   ⟨Rg.port.RXHEAD, 1, 0, .rw, 0xFFF, 0⟩,
   ⟨Rg.port.RXTAIL, 1, 0, .ros, 0xFFF, 0⟩,
   ⟨Rg.port.RXERR, 1, 0, .ros, 0xFFF00FF, 0⟩,
   ⟨Rg.port.TAGSTAT, 1, 0, .ro, 0x1FFF1FFF, 0⟩,
   ⟨Rg.port.CREDSTAT, 3, 4, .ro, 0xFFF, 0⟩] ++
  [⟨Rg.port.TXFRAMES, 1, 0, .rc, 0xFFFFFFFF, 0⟩,
   ⟨Rg.port.RXFRAMES, 1, 0, .rc, 0xFFFFFFFF, 0⟩,
   ⟨Rg.port.TXBYTES, 1, 0, .rc, 0xFFFFFFFF, 0⟩,
   ⟨Rg.port.RXBYTES, 1, 0, .rc, 0xFFFFFFFF, 0⟩,
   ⟨Rg.port.CRCERR, 1, 0, .rc, 0xFFFFFFFF, 0⟩,
   ⟨Rg.port.REPLAYS, 1, 0, .rc, 0xFFFFFFFF, 0⟩,
   ⟨Rg.port.RETRAINS, 1, 0, .rc, 0xFFFFFFFF, 0⟩,
   ⟨Rg.port.STALECNT, 1, 0, .rc, 0xFFFFFFFF, 0⟩,
   ⟨Rg.port.ABANDON, 1, 0, .rc, 0xFFFFFFFF, 0⟩,
   ⟨Rg.port.RXTRUNC, 1, 0, .rc, 0xFFFFFFFF, 0⟩,
   ⟨Rg.port.RXNOBUF, 1, 0, .rc, 0xFFFFFFFF, 0⟩,
   ⟨Rg.port.RXSTOPDROP, 1, 0, .rc, 0xFFFFFFFF, 0⟩,
   ⟨Rg.port.BADHDR, 1, 0, .rc, 0xFFFFFFFF, 0⟩,
   ⟨Rg.port.OSERR, 1, 0, .rc, 0xFFFFFFFF, 0⟩,
   ⟨Rg.port.DUPCNT, 1, 0, .rc, 0xFFFFFFFF, 0⟩,
   ⟨Rg.port.PAUSERX, 1, 0, .rc, 0xFFFFFFFF, 0⟩,
   ⟨Rg.port.PAUSENS, 1, 0, .rc, 0xFFFFFFFF, 0⟩]

/-- Lane group page (R489). -/
def lgrpRegs : List RegRow :=
  [⟨Rg.lgrp.LGSTAT, 1, 0, .ros, 0xFFFFFFFF, 0⟩,
   ⟨Rg.lgrp.LGSKEW, 1, 0, .ros, 0x7F, 0⟩,
   ⟨Rg.lgrp.EQ, 80, 4, .rwl, 0xF1F0F, 0⟩,
   ⟨Rg.lgrp.TRIM, 16, 4, .ros, 0xF1F0F, 0⟩,
   ⟨Rg.lgrp.EQEFF, 16, 4, .ros, 0xF1F0F, 0⟩,
   ⟨Rg.lgrp.CVCNT, 16, 8, .rc, 0xFFFFFFFF, 0⟩,
   ⟨Rg.lgrp.DISPCNT, 16, 8, .rc, 0xFFFFFFFF, 0⟩]

/-- Power and thermal manager page (R520). -/
def ptmRegs : List RegRow :=
  [⟨Rg.ptm.MODSTAT, 1, 0, .ro, 0xF, 0⟩,
   ⟨Rg.ptm.MODCMD, 1, 0, .wo, 0xFFFF0003, 0⟩,
   ⟨Rg.ptm.TBASELO, 1, 0, .ro, 0xFFFFFFFF, 0⟩,
   ⟨Rg.ptm.TBASEHI, 1, 0, .ros, 0xFFFFFFFF, 0⟩,
   ⟨Rg.ptm.DISCSTAT, 1, 0, .ros, 0x3FF, 0⟩,
   ⟨Rg.ptm.DISCDIE, 1, 0, .ros, 0xFFFF7F, 0⟩,
   ⟨Rg.ptm.RSTREQ, 1, 0, .wo, 0x17F, 0⟩,
   ⟨Rg.ptm.PDSTAT, 3, 4, .ro, 0xFFFFFFFF, 0⟩,
   ⟨Rg.ptm.PDSLEEP, 3, 4, .ro, 0xFFFFFFFF, 0⟩,
   ⟨Rg.ptm.PDREQ, 1, 0, .wo, 0x37F, 0⟩,
   ⟨Rg.ptm.PDREQSTAT, 1, 0, .ros, 0x7, 0⟩,
   ⟨Rg.ptm.PCAP, 1, 0, .rw, 0x1FFF, 0xFA0⟩,
   ⟨Rg.ptm.VMIN, 1, 0, .rw, 0x3FF, 0x2A8⟩,
   ⟨Rg.ptm.PWRIN, 1, 0, .ros, 0x1FFF, 0⟩,
   ⟨Rg.ptm.CAPSTAT, 1, 0, .ro, 0x1F1, 0⟩,
   ⟨Rg.ptm.GRANTGAP, 1, 0, .rw, 0x3FF, 0x28⟩,
   ⟨Rg.ptm.GRANTSTAT, 1, 0, .ro, 0x7F, 0⟩,
   ⟨Rg.ptm.TWARN, 1, 0, .rw, 0xFF, 0x64⟩,
   ⟨Rg.ptm.DIEMAX, 1, 0, .ros, 0x7F7FFFFF, 0⟩,
   ⟨Rg.ptm.LASTSHUT, 1, 0, .ros, 0x7F01, 0⟩] ++
  [⟨Rg.ptm.RAILV, 12, 4, .ros, 0x3FF03FF, 0x2D0⟩,
   ⟨Rg.ptm.FABALLOC, 16, 4, .rw, 0xFFFF, 0xC35⟩,
   ⟨Rg.ptm.TEMP, 104, 4, .ros, 0xFFFF, 0⟩]

/-- Overcast broadcaster page (R523). -/
def ocastRegs : List RegRow :=
  [⟨Rg.ocast.OCSRC, 1, 0, .rw, 0xFFFFFFC0, 0⟩,
   ⟨Rg.ocast.OCSRCH, 1, 0, .rw, 0xFFFF, 0⟩,
   ⟨Rg.ocast.OCLEN, 1, 0, .rw, 0x3FFFF, 0⟩,
   ⟨Rg.ocast.OCDEST, 1, 0, .rw, 0x1001FFFF, 0⟩,
   ⟨Rg.ocast.OCMASK, 2, 4, .rw, 0xFFFFFFFF, 0⟩,
   ⟨Rg.ocast.OCCMD, 1, 0, .wo, 0x3, 0⟩,
   ⟨Rg.ocast.OCSTAT, 1, 0, .ro, 0x3, 0⟩,
   ⟨Rg.ocast.OCFAIL, 2, 4, .ros, 0xFFFFFFFF, 0⟩,
   ⟨Rg.ocast.OCCRC, 1, 0, .ros, 0xFFFFFFFF, 0⟩,
   ⟨Rg.ocast.EPVAL, 1, 0, .rw, 0x1FF, 0⟩,
   ⟨Rg.ocast.EPAPPLIED, 1, 0, .ros, 0x1FF, 0⟩,
   ⟨Rg.ocast.EPPEND, 1, 0, .ro, 0x1FF, 0⟩,
   ⟨Rg.ocast.EPFAIL, 1, 0, .ros, 0xFFFF007F, 0⟩]

/-- PCIe endpoint page (R537). -/
def pcieRegs : List RegRow :=
  [⟨Rg.pcie.EPSTAT, 1, 0, .ros, 0x1F01FF, 0⟩,
   ⟨Rg.pcie.APSEL, 1, 0, .rw, 0x3F1F, 0⟩,
   ⟨Rg.pcie.APDATA, 1, 0, .ro, 0x8000FFFF, 0⟩,
   ⟨Rg.pcie.INREQ, 1, 0, .rc, 0xFFFFFFFF, 0⟩,
   ⟨Rg.pcie.INERR, 1, 0, .rc, 0xFFFFFFFF, 0⟩,
   ⟨Rg.pcie.INTO, 1, 0, .rc, 0xFFFFFFFF, 0⟩,
   ⟨Rg.pcie.CPYBYTES, 1, 0, .rc, 0xFFFFFFFF, 0⟩,
   ⟨Rg.pcie.VFPART, 16, 4, .rw, 0xF, 0⟩]

/-- Event concentrator pages (R536). -/
def evcRegs : List RegRow :=
  [⟨Rg.evc.MODTIME, 38, 4, .rw, 0x3FF, 0⟩,
   ⟨Rg.evc.TSTAT, 38, 4, .ro, 0x3, 0⟩,
   ⟨Rg.evc.NOTIFCNT, 1, 0, .rc, 0xFFFFFFFF, 0⟩,
   ⟨Rg.evc.SRCCFG, 512, 4, .rw, 0x13F03, 0⟩,
   ⟨Rg.evc.SRCPEND, 64, 4, .w1c, 0xFFFFFFFF, 0⟩,
   ⟨Rg.evc.SRCLIVE, 64, 4, .ro, 0xFFFFFFFF, 0⟩,
   ⟨Rg.evc.DBSET, 2, 4, .w1s, 0xFFFFFFFF, 0⟩]

/-- Security page (R52, R374). -/
def secRegs : List RegRow :=
  [⟨Rg.sec.FPRADDR, 1, 0, .rw, 0xFFC, 0⟩,
   ⟨Rg.sec.FPRDATA, 1, 0, .ro, 0xFFFFFFFF, 0⟩,
   ⟨Rg.sec.KEYSTAT, 1, 0, .ro, 0x80773F3F, 0⟩,
   ⟨Rg.sec.KEYHSEL, 1, 0, .rw, 0xF7, 0⟩,
   ⟨Rg.sec.KEYHDATA, 1, 0, .ro, 0xFFFFFFFF, 0⟩,
   ⟨Rg.sec.KEYBUF, 12, 4, .wo, 0xFFFFFFFF, 0⟩,
   ⟨Rg.sec.KEYPROG, 1, 0, .wo, 0xFFFF001F, 0⟩]

/-- Function registers in BAR0 (R528). -/
def fnRegs : List RegRow :=
  [⟨Rg.fn.MSIXTAB, 4, 4, .rw, 0xFFFFFFFF, 0⟩,
   ⟨Rg.fn.MSIXPBA, 1, 0, .ros, 0x1, 0⟩,
   ⟨Rg.fn.FNSTAT, 1, 0, .ro, 0x3F, 0⟩,
   ⟨Rg.fn.ARMIDLE, 1, 0, .rw, 0x1, 0⟩,
   ⟨Rg.fn.CRBASE, 1, 0, .rw, 0xFFFFF000, 0⟩,
   ⟨Rg.fn.CRBASEH, 1, 0, .rw, 0xFFFFFFFF, 0⟩,
   ⟨Rg.fn.CRCFG, 1, 0, .rw, 0xF1, 0⟩,
   ⟨Rg.fn.CRHEAD, 1, 0, .rw, 0xFFF, 0⟩,
   ⟨Rg.fn.CRTAIL, 1, 0, .ros, 0xFFF, 0⟩,
   ⟨Rg.fn.CRERR, 1, 0, .ros, 0xFFFFFFF, 0⟩,
   ⟨Rg.fn.EVVPEND, 64, 4, .w1c, 0xFFFFFFFF, 0⟩,
   ⟨Rg.fn.EVVLIVE, 64, 4, .ro, 0xFFFFFFFF, 0⟩]

/-- The rows of a block's own registers. -/
def Rg.rowsOf : Blk → List RegRow
  | .probe _ _ => probeRegs | .ptab _ => ptabRegs | .row _ => rowRegs | .seq _ => seqRegs | .vec _ => vecRegs
  | .acnt _ => acntRegs | .bank _ _ => bankRegs | .seng _ => sengRegs | .chan _ _ => chanRegs | .nve _ _ => nveRegs
  | .pvm _ => pvmRegs | .check _ _ => ckRegs | .region _ => regionRegs | .port _ => portRegs | .lanes _ => lgrpRegs
  | .loader => ccfgRegs | .pcheck _ => ckRegs | .conc => evcRegs | .ptm => ptmRegs | .pcie _ => pcieRegs
  | .ocast => ocastRegs | .sec => secRegs

/-- The row that holds an offset, and which of its registers. -/
def findReg : List RegRow → Nat → Option (RegRow × Nat)
  | [], _ => none
  | r :: t, o =>
    if r.off ≤ o ∧ o < r.off + r.cnt * (if r.stride = 0 then 4 else r.stride) ∧
        (r.stride = 0 ∧ o = r.off ∨ r.stride ≠ 0 ∧ (o - r.off) % r.stride = 0)
    then some (r, if r.stride = 0 then 0 else (o - r.off) / r.stride)
    else findReg t o

/-- The register at an offset of a page of a block: the header (R17), the summary and context registers of stream
    engine pages (R284, R286), or the block's own. -/
def regAt (b : Blk) (page off : Nat) : Option (RegRow × Nat) :=
  if off < 0x80 then findReg hdrRegs off
  else match b with
  | .seng _ =>
    if 0x400 ≤ off then (if (off - 0x400) / 0x60 < 32 then findReg ctxRegs ((off - 0x400) % 0x60) else none)
    else if off < 0x90 then findReg sengRegs off
    else findReg sengRegs (page * 0x1000 + off)
  | .check _ _ => if 0xE0 ≤ off then none else findReg ckRegs off
  | .ptab d =>
    if dieKind d ≠ .base ∧ (page = 1 ∨ page = 2) then none else findReg ptabRegs (page * 0x1000 + off)
  | .conc => findReg evcRegs ((if 1 ≤ page ∧ page ≤ 4 then 1 else page) * 0x1000 + off)
  | _ => findReg (Rg.rowsOf b) (page * 0x1000 + off)

/-- ERASECTL at start-up: EN and the core that the record's DRAMFAIL byte of the stack names, before any access (R4, R53,
    R296). -/
def eraseRst (f : Fuses) (k : Fin 8) : W32 :=
  let b := bits f.fpr.dramFail (8 * k.val + 7) (8 * k.val)
  if b / 128 = 1 ∧ b % 16 < 10 then w32 (0x10 + b % 16) else 0

/-- What a register holds until something writes it: its reset value; the ordering-code cap for PCAP (R520), n for
    VFPARTn, n below 16 (R526), 64 for QUOTA0 (R262); an MSI-X vector is masked (PRESUMED, log entry 22). -/
def regReset (f : Fuses) (k : Nat) : W32 :=
  if 2 ^ 32 ≤ k then (if k % 2 ^ 20 = 0xC then 1 else 0) else
  match blkOfKey k with
  | none => 0
  | some (b, p) =>
    match regAt b p (k % 0x1000) with
    | none => 0
    | some (r, i) =>
      match b with
      | .ptm => if r.off = Rg.ptm.PCAP ∧ f.fpr.ordcode.toNat % 4 = 1 then 3600 else w32 r.rst
      | .pcie _ => if r.off = Rg.pcie.VFPART ∧ i < 15 then w32 (i + 1) else w32 r.rst
      | .chan k _ => if r.off = Rg.chan.ERASECTL then eraseRst f k else w32 r.rst
      | .seng _ => if r.off = Rg.seng.QUOTA ∧ i = 0 ∧ k % 0x1000 < 0x400 then 64 else w32 r.rst
      | _ => w32 r.rst

end Sys2Proof.Machine
end

