-- ==== Sys2Proof/Machine/Regs.lean ====
section
/-! DEFINITION. Register storage, counters, error logs, event pulses, owners, response counts, partition faults and lull
    reports: the operations by which every meaning leaves its traces in register pages. -/

namespace Sys2Proof.Machine

/-! ### Stored registers -/

/-- The stored value of a register. -/
def reg (s : State) (k : Nat) : W32 := tgetD (regReset s.fuses) s.regs k

def setReg (s : State) (k : Nat) (v : W32) : State := { s with regs := tsetD (regReset s.fuses) s.regs k v }

/-- The stored value as a number. -/
def regN (s : State) (k : Nat) : Nat := (reg s k).toNat

/-- Bit i of a stored register. -/
def regBit (s : State) (k i : Nat) : Bool := (reg s k).getLsbD i

/-- Change a stored register. -/
def updReg (s : State) (k : Nat) (f : W32 → W32) : State := setReg s k (f (reg s k))

def setRegBit (s : State) (k i : Nat) (b : Bool) : State := updReg s k (fun w => setBit w i b)

/-- Return registers to reset: drop the stored values of the keys `p` holds of. -/
def dropRegs (s : State) (p : Nat → Bool) : State := { s with regs := tdrop p s.regs }

/-- A counter that saturates at 0xFFFF_FFFF, raised by n (R16). -/
def satAdd (w : W32) (n : Nat) : W32 := w32 (min (w.toNat + n) 0xFFFFFFFF)

/-- Raise an RC counter. -/
def bump (s : State) (k : Nat) (n : Nat := 1) : State := updReg s k (fun w => satAdd w n)

/-! ### Error logs (R562) -/

/-- The log of a page, newest entry first. -/
def logOf (s : State) (page : Nat) : List LogEnt := tget [] s.logs page

/-- Log an entry on a page: the oldest of four is dropped, ERRCNT counts. -/
def logE (s : State) (page : Nat) (w0 : W32) (w1 : W32 := 0) (w2 : W32 := 0) (w3 : W32 := 0) : State :=
  bump { s with logs := tset [] s.logs page (({ w0, w1, w2, w3 } :: logOf s page).take 4) } (page + Rg.hdr.ERRCNT)

/-- Empty a page's log. -/
def clearLog (s : State) (page : Nat) : State := { s with logs := tset [] s.logs page [] }

/-- Count an error that makes no entry. -/
def errOnly (s : State) (page : Nat) : State := bump s (page + Rg.hdr.ERRCNT)

/-! ### Event pulses (R116) -/

/-- A pulse source sets its pending bit whatever EVSENSE says. -/
def pulse (s : State) (page n : Nat) : State := setRegBit s (page + Rg.hdr.EVPEND) n true

def pulseIf (c : Bool) (s : State) (page n : Nat) : State := if c then pulse s page n else s

/-! ### Owners (R422, R423) -/

/-- The operator: partition 0 with the operator privilege bit. -/
def isOp (w : Init) : Bool := w.op && w.part == 0

/-- The block whose BLKPART holds a block's owner: the four blocks of a tile share one. -/
def ownerHome : Blk → Blk
  | .row t | .seq t | .vec t | .acnt t => .row t
  | b => b

/-- BLKPART of a block. -/
def ownerOf (s : State) (b : Blk) : BitVec 4 := BitVec.ofNat 4 (regN s ((ownerHome b).key + Rg.hdr.BLKPART) % 16)

def tileOwner (s : State) (t : Fin 64) : BitVec 4 := ownerOf s (.row t)

/-- Blocks whose pages only the operator reaches. -/
def opOnly : Blk → Bool
  | .probe _ _ | .ptab _ | .chan _ _ | .pvm _ | .lanes _ | .loader | .pcheck _ | .conc | .ptm | .pcie _ | .ocast
  | .sec | .seng _ => true
  | _ => false

/-- Blocks whose BLKPART is 0 and ignores writes. -/
def ownerFixed : Blk → Bool
  | .row _ | .seq _ | .vec _ | .acnt _ | .bank _ _ | .nve _ _ | .check _ _ | .region _ | .port _ => false
  | _ => true

/-- The ownership check (R422). -/
def ownOk (w : Init) (o : BitVec 4) : Bool := isOp w || w.part == o

/-- The partition in fixed-share mode on a die (R429). -/
def fixedShare (s : State) (die : Nat) (p : BitVec 4) : Bool := regBit s (Blk.key (.ptab die) + Rg.ptab.PTMODE) p.toNat

/-- Slot n of a slot map of a die is reserved: its owner, while it is valid and its owner is in fixed-share mode (R429,
    R441). `map` and `valid` are the offsets of the owners and of the valid bits. -/
def slotOwner (s : State) (die map valid n : Nat) : Option (BitVec 4) :=
  let p := Blk.key (.ptab die)
  let o := BitVec.ofNat 4 (bits (reg s (p + map + 4 * (n / 8))) (4 * (n % 8) + 3) (4 * (n % 8)))
  if regBit s (p + valid + 4 * (n / 32)) (n % 32) && fixedShare s die o then some o else none

/-- Some slot of a frame of `len` slots is this partition's to use: one of its own in fixed-share mode, else one that nobody
    has reserved. A partition without one waits without end (R429). DESIGN CHOICE (log entry 67): the spec does not say at
    which time each issue slot of an engine comes, so one slot in the frame is enough. -/
def hasSlot (s : State) (die map valid len : Nat) (p : BitVec 4) : Bool :=
  (List.range len).any (fun n => slotOwner s die map valid n == if fixedShare s die p then some p else none)

/-- The block issues work: present, on, not fenced, no reset requested (R421, R507); an engine or an ordinary check channel also
    has an issue slot of its die (R404, R429). -/
def issues (s : State) (b : Blk) : Bool :=
  live s b && !blkFenced s b && !resetting s b &&
  match b with
  | .nve k _ | .check k _ => hasSlot s (8 + 11 * k.val) Rg.ptab.VSLOT Rg.ptab.VSLOTV 64 (ownerOf s b)
  | _ => true

/-! ### Initiators (R411, R412) -/

def tileInit (s : State) (t : Fin 64) : Init :=
  { die := BitVec.ofNat 7 (t.val / 16), rtr := BitVec.ofNat 4 (t.val % 16), part := tileOwner s t, op := false, pri := 1 }

def coreInit : Init := { die := 103, rtr := 0, part := 0, op := true, pri := 3 }

/-- The configuration controller, broadcaster and privileged check channels. -/
def zenithInit : Init := { die := 103, rtr := 1, part := 0, op := true, pri := 3 }

def cpuInit (s : State) : Cpu → Init
  | .tile t => tileInit s t
  | .core _ => coreInit

/-- A block of a base die, at router `r`, with partition `p`. -/
def baseInit (k : Fin 8) (r : Nat) (p : BitVec 4) (pri : BitVec 2) : Init :=
  { die := BitVec.ofNat 7 (8 + 11 * k.val), rtr := BitVec.ofNat 4 r, part := p, op := false, pri := pri }

/-! ### Responses (R416, R418) -/

namespace Rsn
abbrev ok : BitVec 8 := 0x00
abbrev unmapped : BitVec 8 := 0x01
abbrev partition : BitVec 8 := 0x02
abbrev absent : BitVec 8 := 0x03
abbrev fenced : BitVec 8 := 0x04
abbrev stopped : BitVec 8 := 0x05
abbrev frozen : BitVec 8 := 0x06
abbrev uncorr : BitVec 8 := 0x07
abbrev timeout : BitVec 8 := 0x08
abbrev nocnt : BitVec 8 := 0x09
abbrev resetAbort : BitVec 8 := 0x0A
end Rsn

/-- The die whose partition table counts for a die: a scratch die has none (R418). -/
def tableDie (d : Nat) : Nat := if dieKind d = .scratch then d - 4 else d

/-- Count an error response generated on a die (R418, R439). -/
def respErr (s : State) (die : Nat) (r : BitVec 8) : State :=
  if r = 0 ∨ 10 < r.toNat ∨ routers (tableDie die) = 0 then s else bump s (Blk.key (.ptab (tableDie die)) + Rg.ptab.RSPERR + 4 * (r.toNat - 1))

/-! ### Partition faults and lull reports (R432, R434) -/

/-- A partition fault of `p` on a die. -/
def partFault (s : State) (die : Nat) (p : BitVec 4) : State :=
  let k := Blk.key (.ptab (tableDie die))
  let s := pulse (setRegBit s (k + Rg.ptab.PTFAULT) p.toNat true) k 0
  { s with net := { s.net with events := s.net.events ++ [p.toNat] } }

/-- A block enters FAULT. -/
def faultBlk (s : State) (b : Blk) : State := partFault (setRun s b .fault) b.die (ownerOf s b)

/-- A lull fault (R278): recorded in the die's ring of eight, or discarded and logged when that is full. -/
def lullReport (s : State) (die : Nat) (p : BitVec 4) (r : Lull) : State :=
  let d := tableDie die
  let ring := tget [] s.net.lulls d
  let k := Blk.key (.ptab d)
  let s := if ring.length < 8
    then pulse { s with net := { s.net with lulls := tset [] s.net.lulls d (ring ++ [r]) } } k 2
    else logE s (k + 0x3000) 0x03 r.w0 r.w1 r.w2
  partFault s d p

/-- The lull limit of a partition on a die, in nanoseconds (R278). -/
def lullLimit (s : State) (die : Nat) (p : BitVec 4) : Nat :=
  10000 * regN s (Blk.key (.ptab (tableDie die)) + Rg.ptab.LULLLIM + 4 * p.toNat)

/-! ### Refused register writes -/

/-- CCSTAT PHASE (R393). -/
def phaseCode : Phase → Nat
  | .idle => 0 | .receive => 1 | .transmit => 2 | .auth => 3 | .load => 4 | .waitdone => 5 | .startup => 6 | .error => 7

/-- The requester as a region's log shows it (R362). -/
def reqWord (w : Init) : W32 := w32 (w.part.toNat + w.die.toNat * 2 ^ 8 + b2n w.op * 2 ^ 15)

/-- CKSTAT (R405). -/
def ckStat (x : Check) : W32 :=
  w32 (b2n x.busy + 2 * b2n x.waitDep + 4 * b2n x.fin + 8 * b2n x.isMatch + 16 * b2n x.err + x.reason.toNat * 2 ^ 8)

/-- Log a refused register write with the block's code and the offset where the block's table puts it (R14). -/
def refuseReg (s : State) (b : Blk) (page off : Nat) : State :=
  let k := b.keyP page
  let o := w32 off
  match b with
  | .row _ => logE s b.key 0x06 0 o
  | .acnt _ | .vec _ => s
  | .seq t => logE s k 0x05 (w32 (tile s t).seq.pc.toNat) (tile s t).seq.trcode o
  | .bank _ _ => logE s k 0x05 o
  | .seng e =>
    let x := 32 * page + (off - 0x400) / 0x60
    let part := if 0x400 ≤ off then regN s (b.keyP page + 0x400 + 0x60 * (x % 32)) % 16 else 0
    let a := 2 * 2 ^ 40 + b.keyP page + off
    logE s (Blk.key (.seng e)) (w32 (0x09 + (if 0x400 ≤ off then x % 2048 * 2 ^ 8 else 0))) 0 (w32 a)
      (w32 (a / 2 ^ 32 % 2 ^ 16 + part * 2 ^ 16))
  | .chan _ _ => logE s k 0xF08 o
  | .pvm _ => logE s k 0x01 o
  | .nve _ _ => logE s k 0x05 0 o
  | .region _ => logE s k 0x04 o
  | .port p => logE s k (w32 (0x07 + (port s p).rate * 2 ^ 8)) o
  | .lanes _ => logE s k 0x01 o
  | .loader => logE s k (w32 (0x0C + phaseCode s.loader.phase * 2 ^ 12)) o (reg s (b.key + Rg.ccfg.CCATTEMPT))
  | .check d c => logE s k 0x02 o (ckStat (check s (.ord d c)))
  | .pcheck c => logE s k 0x02 o (ckStat (check s (.priv c)))
  | .ptab _ => logE s k (if page = 0 then 0x04 else 0x01) o
  | .ptm => logE s k 0x03 o
  | .pcie _ => logE s k 0x04 (w32 (k + off)) 0x200
  | .ocast => logE s k 0x01
  | .conc => logE s k 0x01
  | .probe _ _ | .sec => errOnly s k

/-! ### Fields of addresses -/

/-- The space of an address (R31). -/
def space (a : Addr) : Nat := a.toNat / 2 ^ 40

/-- The offset in the scratch space, within its mapped range. -/
def scrOff (a : Addr) : Option Nat :=
  let o := a.toNat - 2 ^ 40
  if space a = 1 ∧ o < 2 ^ 33 then some o else none

/-- Tile and bank group of a scratch offset (R34). -/
def scrTile (o : Nat) : Fin 64 := fin 64 (o / 2 ^ 27)
def scrGroup (o : Nat) : Fin 4 := fin 4 (o / 2 ^ 25)

end Sys2Proof.Machine
end

