-- ==== Sys2Proof/Machine/Flags.lean ====
section
/-! DEFINITION. Block states as BLKSTAT shows them (R19, R504), the level of every event source, and how levels set
    pending bits under EVSENSE (R17, R20, R116). -/

namespace Sys2Proof.Machine

/-! ### Access to a block through its domain (R44, R421, R507, R510) -/

/-- A domain all of whose resources are held bad (R45, R499). -/
def domBad (s : State) (d : Nat) : Bool :=
  if d < 64 then !tileGood s (fin 64 d)
  else if 72 ≤ d ∧ d < 88 then !regionGood s (fin 16 (d - 72))
  else if 88 ≤ d ∧ d < 91 then (List.range 32).all (fun i => !portGood s (fin 96 (32 * (d - 88) + i)))
  else false

def clrBit (v : BitVec 95) (d : Nat) : BitVec 95 := v &&& ~~~ BitVec.ofNat 95 (2 ^ d)
def putBit (v : BitVec 95) (d : Nat) : BitVec 95 := v ||| BitVec.ofNat 95 (2 ^ d)

/-- A domain is being switched off: a PDREQ SLEEP or SHUT of it is in progress. -/
def goingOff (s : State) (d : Nat) : Bool :=
  match s.power.pd with
  | some (e, a) => e == d && a != 0
  | none => false

/-- A switch that R43 or R45 forbids, or a switch-on after thermal shutdown, which only a module reset leaves (R519). A tile domain that is being switched on is no longer off, and a scratch periphery that
    is being switched off is no place for one (DEDUCED, log entry 62). -/
def pdForbids (s : State) (d : Nat) (on : Bool) : Bool :=
  if on then s.power.mst == .thermal || domBad s d || (decide (d < 64) && (!domOn s (91 + d / 16) || goingOff s (91 + d / 16)))
  else decide (91 ≤ d) && (List.range 16).any (fun i => domOn s (16 * (d - 91) + i) || s.power.waking.getLsbD (16 * (d - 91) + i))

/-- Whether an access to a block's registers beyond the header goes on: the reason code it is answered with, 0 where it
    is served; none where it waits at its target for the domain (R44, R510). -/
def mgmtReach (s : State) (b : Blk) : Option (BitVec 8) :=
  let rst := if resetting s b then Rsn.resetAbort else Rsn.ok
  match b.domain with
  | none => some rst
  | some d =>
    if domOn s d then (if s.power.pd == some (d, 1) && domFenced s d then none else some rst)
    else if s.power.sleep.getLsbD d && !pdForbids s d true then none else some Rsn.fenced

/-- An access that waits for a sleeping domain wakes it (R44). -/
def mgmtWake (b : Blk) (s : State) : State :=
  match b.domain with
  | none => s
  | some d =>
    if !domOn s d && s.power.sleep.getLsbD d then { s with power := { s.power with waking := putBit s.power.waking d } } else s

/-! ### Extension ports (R96) -/

/-- The fabric region of a tile's extension ports (R26). -/
def tileRegion (t : Fin 64) : Fin 16 := fin 16 (t.val / 4)

/-- A tile's extension ports are connected: both directions together. -/
def portConn (s : State) (t : Fin 64) : Bool :=
  let r := tileRegion t
  let g := region s r
  live s (.region r) && g.loaded && g.portsOn && ownerOf s (.region r) == tileOwner s t

/-- The clocks of a region run: its design is started, and the region is RUNNING or STOPPING (R343, R346). -/
def clocksRun (s : State) (r : Fin 16) : Bool :=
  let g := region s r
  live s (.region r) && g.started && ((blkSt s (.region r)).run == .going || (blkSt s (.region r)).run == .stopping)

/-- Beats cross between a tile and its region: the ports are connected and the port's region clock runs (R96, R346, R351). -/
def portMoves (s : State) (t : Fin 64) : Bool := portConn s t && clocksRun s (tileRegion t)

/-! ### Stream contexts as the pool sees them -/

/-- Buffers being filled or holding data (R265, R266): those between the oldest byte not yet visible and the newest read. A
    context that is IDLE or in ERROR holds none (R249). -/
def ctxFilled (c : Ctx) : Nat :=
  let a := c.rpos + (c.rin.map (·.len)).sum
  if c.st = .idle ∨ c.st = .error ∨ a ≤ c.wpos then 0 else (a - 1) / 65536 - c.wpos / 65536 + 1

/-- Buffers a context holds. -/
def ctxHeld (c : Ctx) : Nat := c.floor + c.bslots.length

/-- The register page of a context's engine page and offset (R286). -/
def ctxKey (k : Fin 8) (x : Fin 2048) : Nat := Blk.keyP (.seng k) (x.val / 32) + 0x400 + 0x60 * (x.val % 32)

/-- A context is at its watermark (R266). -/
def ctxWm (s : State) (k : Fin 8) (x : Fin 2048) : Bool :=
  let w := bits (reg s (ctxKey k x + Rg.ctx.CTXCFG)) 26 16
  w != 0 && decide (w ≤ ctxFilled (ctx s k x))

/-- The contexts of an engine page that hold some state. -/
def pageCtxs (s : State) (k : Fin 8) (page : Nat) : List (Nat × Ctx) :=
  s.ctxs.filter (fun e => e.1 / 32 == 64 * k.val + page)

/-- The contexts of an engine that hold some state. -/
def engCtxs (s : State) (k : Fin 8) : List (Nat × Ctx) := s.ctxs.filter (fun e => e.1 / 2048 == k.val)

/-- CTXERRSUM of a page (R284). -/
def ctxErrSum (s : State) (k : Fin 8) (page : Nat) : Nat :=
  ((pageCtxs s k page).map (fun e => if e.2.st = .error then 2 ^ (e.1 % 32) else 0)).sum

/-- CTXWMLIVE of a page (R284). -/
def ctxWmLive (s : State) (k : Fin 8) (page : Nat) : Nat :=
  ((pageCtxs s k page).map (fun e => if ctxWm s k (fin 2048 e.1) then 2 ^ (e.1 % 32) else 0)).sum

/-- Buffers borrowed on a die. -/
def poolBorrowed (s : State) (k : Fin 8) : Nat := ((engCtxs s k).map (fun e => e.2.bslots.length)).sum

/-- The pool is at its watermark (R266). -/
def poolWm (s : State) (k : Fin 8) : Bool :=
  decide (bits (reg s (Blk.key (.seng k) + Rg.seng.POOLWM)) 10 0 ≤ poolBorrowed s k)

/-! ### Block states -/

def unitBusy (u : Unit) : Bool := !u.queue.isEmpty || u.active.isSome

/-- A row command is queued or executing, or the ramp is not at level 0 (R113). -/
def rowBusy (r : Row) : Bool := !r.queue.isEmpty || !r.exec.isEmpty || r.level != 0

/-- Row commands queued or executing (R111). -/
def rowHasCmds (r : Row) : Bool := !r.queue.isEmpty || !r.exec.isEmpty

/-- Instructions execute, or commands remain in the FIFO or in a unit (R203). -/
def seqBusy (x : Tile) : Bool :=
  x.seq.live || !x.seq.fifo.isEmpty || rowHasCmds x.row || unitBusy x.vec || unitBusy x.mover || unitBusy x.sync ||
  unitBusy x.str

/-- NEHEAD and NETAIL differ (R320). -/
def ringWaits (s : State) (k : Fin 8) (e : Fin 16) : Bool :=
  reg s (Blk.key (.nve k e) + Rg.nve.NEHEAD) != reg s (Blk.key (.nve k e) + Rg.nve.NETAIL)

/-- Whether a block that is neither stopped nor in FAULT is RUNNING, as its chapter says, rather than IDLE. -/
def busy (s : State) : Blk → Bool
  | .row t => rowBusy (tile s t).row
  | .seq t => seqBusy (tile s t)
  | .vec t => unitBusy (tile s t).vec
  | .acnt _ => false
  | .bank _ _ => true
  | .seng k => (engCtxs s k).any (fun e => e.2.st != .idle && e.2.st != .error)
  | .chan k c => !(chan s k c).queue.isEmpty
  | .nve k e => unitBusy (eng s k e) || ringWaits s k e
  | .pvm _ => true
  | .check k c => (check s (.ord k c)).busy
  | .pcheck c => (check s (.priv c)).busy
  | .region r => (region s r).started
  | .port p => (blkSt s (.port p)).used
  | .lanes _ => true
  | .loader => s.loader.phase != .idle
  | .pcie e => regBit s (Blk.key (.pcie e) + Rg.pcie.EPSTAT) 0
  | .ocast => s.ocast.busy || s.ocast.epBusy
  | .probe _ _ | .ptab _ | .conc | .ptm | .sec => true

/-- A channel that is frozen or failed in training is in FAULT (R313, R316). -/
def chanFault (s : State) (k : Fin 8) (c : Fin 32) : Bool := (chan s k c).frozen.isSome || (chan s k c).failed

/-- A sequencer zeroes its memories after reset (R162). -/
def zeroingBlk (s : State) : Blk → Bool
  | .seq t => (tile s t).seq.zeroing
  | _ => false

/-- The block is in FAULT. -/
def faultOf (s : State) : Blk → Bool
  | .chan k c => chanFault s k c
  | b => (blkSt s b).run == .fault

/-- The state code of BLKSTAT (R19). -/
def blkState (s : State) (b : Blk) : Nat :=
  if absent s b then 0 else if !blkOn s b then 1
  else if zeroingBlk s b then 4
  else if faultOf s b then 6
  else match (blkSt s b).run with
    | .stopping => 4
    | .stopped => 5
    | _ => if busy s b then 3 else 2

/-- A block of partition p on a die is in FAULT (PTFLIVE, R439). -/
def inFault (s : State) (b : Blk) : Bool := blkState s b == 6

/-- PTFLIVE of a die, over the blocks whose state is listed and the channels. -/
def ptfLive (s : State) (die : Nat) : Nat :=
  let bs := s.blks.filterMap (fun e => (blkOfKey e.1).map (·.1))
  let cs := s.chans.map (fun e => Blk.chan (fin 8 (e.1 / 32)) (fin 32 e.1))
  let fs := (bs ++ cs).filter (fun b => tableDie b.die == die && inFault s b)
  wordOf (fun p => fs.any (fun b => (ownerOf s b).toNat == p)) 16

/-! ### Levels of event sources -/

/-- The current lap of a bank group's scrubber has run longer than LAPLIM (R243, R245). -/
def lapLate (s : State) (t : Fin 64) (g : Fin 4) : Bool :=
  decide ((reg s (Blk.key (.bank t g) + Rg.bank.LAPLIM)).toNat + (bank s t g).lapFrom.toNat < now s)

/-- The current scrub lap of a stack has run longer than LAPLIM, in ms (R319, R330). -/
def dramLapLate (s : State) (k : Fin 8) : Bool :=
  decide ((reg s (Blk.key (.pvm k) + Rg.pvm.LAPLIM)).toNat * 1000000 + (stack s k).lapFrom.toNat < now s)

/-- Watch k of a tile's counters (R246). -/
def watchHit (s : State) (t : Fin 64) (k : Nat) : Bool :=
  let b := Blk.key (.acnt t)
  let w := reg s (b + Rg.acnt.ACWATCH + 8 * k)
  w.getLsbD 8 && decide (regN s (b + Rg.acnt.ACWVAL + 8 * k) ≤ regN s (b + Rg.acnt.ACNT + 4 * (w.toNat % 256)))

/-- Bytes of receive buffer held reach the watermark (RXWM LIVE, R472). -/
def rxWm (s : State) (p : Fin 96) : Bool :=
  decide (4096 * bits (reg s (Blk.key (.port p) + Rg.port.PAUSECFG)) 22 16 ≤ (port s p).rxHeld)

/-- RXEN is set and the ring has no buffer: RXTAIL equals RXHEAD within the ring (R479, R488). -/
def rxEmpty (s : State) (p : Fin 96) : Bool :=
  let k := Blk.key (.port p)
  let n := 2 ^ bits (reg s (k + Rg.port.RXCFG)) 7 4
  regBit s (k + Rg.port.RXCFG) 0 && bits (reg s (k + Rg.port.RXHEAD)) 11 0 % n == bits (reg s (k + Rg.port.RXTAIL)) 11 0 % n

/-- The live level sources of a page, one bit each (EVLIVE, R17). -/
def levels (s : State) (b : Blk) (page : Nat) : Nat :=
  if !live s b then 0 else
  match b with
  | .row t =>
    if page = 0 then 2 * b2n (inFault s b)
    else if page = 3 then b2n (decide (regN s (b.key + Rg.row.RATECUR) < regN s (b.key + Rg.row.RATEFLOOR)))
    else if page = 4 then 3 * b2n (!portConn s t) else 0
  | .seq t =>
    if page = 0 then 2 * b2n (inFault s b) else if page = 1 then 4 * b2n (!(tile s t).seq.skips.isEmpty) else 0
  | .vec _ => 2 * b2n (inFault s b)
  | .acnt t => wordOf (watchHit s t) 4
  | .bank t g => 4 * b2n ((bank s t g).lapOver && lapLate s t g)
  | .seng k =>
    2 * b2n (ctxErrSum s k page != 0) + 8 * b2n (ctxWmLive s k page != 0) + (if page = 0 then 16 * b2n (poolWm s k) else 0)
  | .chan k c => 4 * b2n (chan s k c).frozen.isSome + 8 * b2n (stack s k).fast
  | .pvm k => 2 * b2n ((stack s k).lapOver && dramLapLate s k) + 4 * b2n (decide (64 ≤ (stack s k).fills.length))
  | .nve _ _ => 2 * b2n (inFault s b) + 8 * b2n (blkState s b == 2)
  | .region r => b2n (inFault s b) + (if (region s r).setReset then 0 else 256 * (region s r).events.toNat)
  | .loader => 2 * b2n (s.loader.phase == .error) + 64 * b2n (s.loader.phase == .receive || s.loader.phase == .transmit)
  | .check k c => 8 * b2n (check s (.ord k c)).waitDep
  | .pcheck c => 8 * b2n (check s (.priv c)).waitDep
  | .ptab d => if page = 0 then 2 * b2n (ptfLive s d != 0) else 0
  | .port p =>
    b2n ((port s p).ls == .up) + 64 * b2n ((port s p).ls == .failed) + 512 * b2n (rxWm s p) +
      16 * b2n (rxEmpty s p)
  | .ptm => 2 * b2n s.power.capping + 4 * b2n s.power.hotDie + 16 * b2n (s.power.mst == .mismatch)
  | .pcie _ => b2n (regBit s (b.key + Rg.pcie.EPSTAT) 0)
  | _ => 0

/-- Bits of sources 0-15 whose EVSENSE field is v. -/
def senseIs (w : W32) (v : Nat) : Nat := wordOf (fun n => bits w (2 * n + 1) (2 * n) == v) 16

/-- The pending bits of a page as software sees them: those latched, and those whose source is live under level sense. -/
def evPend (s : State) (b : Blk) (page : Nat) : Nat :=
  let k := b.keyP page
  regN s (k + Rg.hdr.EVPEND) ||| (levels s b page &&& senseIs (reg s (k + Rg.hdr.EVSENSE)) 0)

/-- Latch the pending bits of one page after a change: a level that was live stays pending under level sense, an edge
    sets its bit as EVSENSE says. -/
def settle1 (before : State) (bp : Blk × Nat) (s : State) : State :=
  let k := bp.1.keyP bp.2
  let lb := levels before bp.1 bp.2
  let la := levels s bp.1 bp.2
  let w := reg s (k + Rg.hdr.EVSENSE)
  let rise := la &&& (0xFFFF ^^^ (lb &&& 0xFFFF))
  let fall := lb &&& (0xFFFF ^^^ (la &&& 0xFFFF))
  let set := (rise &&& (senseIs w 0 ||| senseIs w 1 ||| senseIs w 3)) |||
    (fall &&& (senseIs w 0 ||| senseIs w 2 ||| senseIs w 3))
  if set = 0 then s else updReg s (k + Rg.hdr.EVPEND) (fun v => v ||| w32 set)

/-- Latch the pending bits of the listed pages. -/
def settle (before : State) : List (Blk × Nat) → State → State
  | [], s => s
  | p :: t, s => settle before t (settle1 before p s)

/-- Apply a change, then latch the levels of the listed pages. -/
def watched (pages : List (Blk × Nat)) (f : State → State) (s : State) : State := settle s pages (f s)

/-- The pages with level sources of a tile, and its die's partition table. -/
def tilePages (t : Fin 64) : List (Blk × Nat) :=
  [(.row t, 0), (.row t, 3), (.row t, 4), (.seq t, 0), (.seq t, 1), (.vec t, 0), (.acnt t, 0), (.ptab (t.val / 16), 0)]

/-- The pages with level sources of a block, and its die's partition table. -/
def blkPages (b : Blk) : List (Blk × Nat) :=
  (match b with
   | .row t | .seq t | .vec t | .acnt t => tilePages t
   | .seng k => (List.range 64).map (fun i => (Blk.seng k, i))
   | b => [(b, 0)]) ++ [(.ptab (tableDie b.die), 0)]

end Sys2Proof.Machine
end

