-- ==== Sys2Proof/Machine/Cells.lean ====
section
/-! DEFINITION. The logic of a fabric region: cells, DSP slices and block memories in RAM mode, as the image sets them, and
    what the edges of the region clocks make of them (R334, R335, R341). The image's bit places, the order of the columns and
    the phases of the clocks are open (log entries 14 and 70). -/

namespace Sys2Proof.Machine

/-! ### Logic cells (R334) -/

/-- A cell's table: one of six inputs, or two of five on shared inputs. -/
def tableOut (t : BitVec 64) (split upper : Bool) (ins : Nat → Bool) : Bool :=
  let n := wordOf ins 6
  if split then t.getLsbD (n % 32 + if upper then 32 else 0) else t.getLsbD n

/-- A flip-flop after the moment: its set or reset acts at any time if asynchronous, else on an edge and before the clock
    enable (PRESUMED, log entry 70). -/
def flopNext (c : Flop) (edge v ce sr d : Bool) : Bool :=
  if sr && (!c.sync || edge) then c.set else if edge && ce then d else v

/-- The carry chain: the table's output passes the carry on, else the cell's own input is taken (PRESUMED, log entry 70). -/
def carryOut (pass cin gen : Bool) : Bool := if pass then cin else gen

/-! ### DSP slices (R334) -/

/-- The signed or unsigned value of a word. -/
def valOf {n : Nat} (signed : Bool) (x : BitVec n) : Int := if signed then x.toInt else Int.ofNat x.toNat

/-- The nearest value that n bits hold. -/
def clampTo (signed : Bool) (n : Nat) (x : Int) : Int :=
  let lo : Int := if signed then -(2 ^ (n - 1)) else 0
  let hi : Int := if signed then 2 ^ (n - 1) - 1 else 2 ^ n - 1
  max lo (min hi x)

/-- The input adder: the 25-bit sum or difference, limited to 24 bits. -/
def preAdd (sub sat signed : Bool) (a d : BitVec 24) : BitVec 24 :=
  let x := if sub then valOf signed a - valOf signed d else valOf signed a + valOf signed d
  BitVec.ofInt 24 (if sat then clampTo signed 24 x else x)

/-- The multiplier: one product of 24-bit operands, or two independent ones of their 12-bit halves. -/
def multiply (pair sa sb : Bool) (a b : BitVec 24) : BitVec 48 :=
  if pair then
    BitVec.ofInt 24 (valOf sa (a.extractLsb' 12 12) * valOf sb (b.extractLsb' 12 12)) ++
    BitVec.ofInt 24 (valOf sa (a.extractLsb' 0 12) * valOf sb (b.extractLsb' 0 12))
  else BitVec.ofInt 48 (valOf sa a * valOf sb b)

/-- A product as the accumulator takes it. -/
def widen (c : Slice) (m : BitVec 48) : BitVec 60 := if !c.pair && (c.signA || c.signB) then m.signExtend 60 else m.setWidth 60

/-- The accumulator adds or subtracts the product, or loads the constant. -/
def accumulate (c : Slice) (load sub : Bool) (base : BitVec 60) (m : BitVec 48) : BitVec 60 :=
  if load then c.konst else if sub then base - widen c m else base + widen c m

/-- The output: a rounding half unit, a right shift of 0 to 40, saturation to 16 to 60 bits, of a signed sum (PRESUMED, log
    entry 70). -/
def roundShift (c : Slice) (acc : BitVec 60) : BitVec 60 :=
  let half : Int := if c.round ∧ c.shift.val ≠ 0 then 2 ^ (c.shift.val - 1) else 0
  let x := (acc.toInt + half) / 2 ^ c.shift.val
  BitVec.ofInt 60 (match c.width with | none => x | some w => clampTo true (16 + w.val) x)

/-! ### What a region holds -/

/-- A flip-flop's settings, by 2 × cell + number. -/
def flopCfg (g : Region) (k : Nat) : Flop :=
  let c := Config.imageCell g.frames (k / 2)
  if k % 2 = 0 then c.flop0 else c.flop1

def flopBase (g : Region) (k : Nat) : Bool :=
  match g.ffBase with
  | .zero => false
  | .image => (flopCfg g k).init
  | .free n => (Config.fabricFree n k).getLsbD 0

/-- A flip-flop, by 2 × cell + number. -/
def flop (g : Region) (k : Nat) : Bool := tgetD (flopBase g) g.ffs k

def dspBase (g : Region) (d : Nat) : Dsp :=
  match g.dspBase with
  | .free n =>
    let f (i : Nat) := Config.fabricFree n (2 ^ 24 + 8 * d + i)
    { a := (f 0).setWidth 24, mul := (f 1).setWidth 48, acc := (f 2).setWidth 60, out := (f 3).setWidth 60, chain := (f 4).setWidth 60 }
  | _ => { a := 0, mul := 0, acc := 0, out := 0, chain := 0 }

/-- A DSP slice's registers. -/
def dsp (g : Region) (d : Nat) : Dsp := tgetD (dspBase g) g.dsps d

/-- The width of a block memory's words. -/
def cut (w : Nat) (d : BitVec 72) : BitVec 72 := BitVec.ofNat 72 (d.toNat % 2 ^ w)

/-- Bit i of block memory k in the configuration memory: the bits of its nine frames in order (R370; PRESUMED, log entry 70). -/
def memBit (g : Region) (k i : Nat) : Bool :=
  ((tget [] g.frames (61440 + k / 16 * 144 + k % 16 * 9 + i / 4096)).getD (i % 4096 / 32) 0).getLsbD (i % 32)

def wordBase (g : Region) (k w a : Nat) : BitVec 72 :=
  match g.memBase with
  | .free n => cut w (Config.fabricFree n (2 ^ 28 + 4096 * k + a))
  | _ => BitVec.ofNat 72 (wordOf (fun j => memBit g k (a * w + j)) w)

/-- Word a of a block memory. -/
def memWord (g : Region) (k : Nat) (q : Queue) (a : Nat) : BitVec 72 := tgetD (wordBase g k q.width) q.words a

/-- Words of a block memory of width 9 × 2^w (R335). -/
def memDepth (w : Fin 4) : Nat := 4096 / 2 ^ w.val
def memWidth (w : Fin 4) : Nat := 9 * 2 ^ w.val

/-- A mark in its range, 1 to depth − 1 (R336). -/
def markIn (depth n : Nat) : Nat := 1 + n % (depth - 1)

/-- Flags of a queue: EMPTY, AEMPTY, AEMPTY_X, UNF, FULL, AFULL, AFULL_X, OVF (R336). -/
def queueFlags (q : Queue) : List Bool :=
  [q.rdSeen == 0, decide (q.rdSeen ≤ q.aemark), q.aemptyX, q.unf, decide (q.depth ≤ q.wrSeen), decide (q.afmark ≤ q.wrSeen), q.afullX, q.ovf]

/-! ### Signals -/

/-- The input adder's result, the product and the accumulator's and output's values as the slice's registers let them
    through, `v` reading a signal. -/
def word24 (v : Signal → Bool) (l : List Signal) : BitVec 24 := BitVec.ofNat 24 (wordOf (fun i => v (l.getD i (.const false))) 24)

def preNow (c : Slice) (v : Signal → Bool) : BitVec 24 :=
  if c.pre then preAdd c.preSub c.preSat c.signA (word24 v c.a) (word24 v c.d) else word24 v c.a

def mulNow (c : Slice) (x : Dsp) (v : Signal → Bool) : BitVec 48 :=
  multiply c.pair c.signA c.signB (if c.preReg then x.a else preNow c v) (word24 v c.b)

/-- What the chain brings from the slice below. -/
def chainIn (d : Nat) (v : Signal → Bool) : BitVec 60 :=
  match Config.belowSlice d with
  | none => 0
  | some b => BitVec.ofNat 60 (wordOf (fun i => v (.chain b i)) 60)

/-- The accumulator's next value: over the chain's sum where the image takes that, else over its own (DEDUCED, log entry 70). -/
def accNow (c : Slice) (d : Nat) (x : Dsp) (v : Signal → Bool) : BitVec 60 :=
  accumulate c (v c.load) (v c.sub) (if c.chain then chainIn d v else if c.accReg then x.acc else 0)
    (if c.mulReg then x.mul else mulNow c x v)

def accSeen (c : Slice) (d : Nat) (x : Dsp) (v : Signal → Bool) : BitVec 60 := if c.accReg then x.acc else accNow c d x v
def chainSeen (c : Slice) (d : Nat) (x : Dsp) (v : Signal → Bool) : BitVec 60 := if c.chainReg then x.chain else accSeen c d x v
def outSeen (c : Slice) (d : Nat) (x : Dsp) (v : Signal → Bool) : BitVec 60 :=
  if c.outReg then x.out else roundShift c (accSeen c d x v)

/-- The level of a signal, `n` the free value for what is open. The fuel is above the number of tables, carries and slice
    bits a region has, so that only a loop through logic ends at 0, and its level is free. -/
def level (n : Nat) (g : Region) : Nat → Signal → Bool
  | 0, _ => (Config.fabricFree n (2 ^ 32)).getLsbD 0
  | f + 1, x =>
    let table (c : Nat) (upper : Bool) : Bool :=
      let e := Config.imageCell g.frames c
      tableOut e.table e.split upper (fun i => level n g f (e.ins.getD i (.const false)))
    let cin (c : Nat) : Bool := match Config.belowCell c with | none => false | some b => level n g f (.carry b)
    match x with
    | .const b => b
    | .table c u => table c u
    | .flop c i => flop g (2 * c + b2n i)
    | .carry c => carryOut (table c false) (cin c) (level n g f (Config.imageCell g.frames c).gen)
    | .sum c => Bool.xor (table c false) (cin c)
    | .dsp d i => (outSeen (Config.imageSlice g.frames d) d (dsp g d) (level n g f)).getLsbD i
    | .chain d i => (chainSeen (Config.imageSlice g.frames d) d (dsp g d) (level n g f)).getLsbD i
    | .mem k b i => let q := tget queue0 g.queues k; (if b then q.outB else q.out).getLsbD i
    | .flag k i => (queueFlags (tget queue0 g.queues k)).getD i false
    | .outer i => (Config.fabricFree n (2 ^ 33 + i)).getLsbD 0

/-- The level of a signal. -/
def sigNow (n : Nat) (g : Region) : Signal → Bool := level n g (2 ^ 22)

/-! ### Clock edges -/

/-- A slice after an edge of its clock. -/
def dspEdge (c : Slice) (d : Nat) (x : Dsp) (v : Signal → Bool) : Dsp :=
  { a := preNow c v, mul := mulNow c x v, acc := accNow c d x v, out := roundShift c (accSeen c d x v), chain := accSeen c d x v }

/-- A block memory in RAM mode after edges of the clocks `on`. What a read beside a write of its word gives, and what two
    writes of one word leave, is open (log entry 70). -/
def ramEdge (n : Nat) (g : Region) (on : Nat → Bool) (k : Nat) (c : MemCfg) (q : Queue) : Queue :=
  let v := sigNow n g
  let go (p : RamPort) : Bool := on p.clk.val && v p.en
  let wr (p : RamPort) : Bool := go p && v p.we
  let at_ (p : RamPort) : Nat := wordOf (fun i => v (p.addr.getD i (.const false))) 12 % q.depth
  let put (p : RamPort) (t : Tab (BitVec 72)) : Tab (BitVec 72) :=
    if wr p then tsetD (wordBase g k q.width) t (at_ p)
      (BitVec.ofNat 72 (wordOf (fun i => v (p.din.getD i (.const false))) q.width)) else t
  let clash := at_ c.portA == at_ c.portB
  let free (i : Nat) : BitVec 72 := cut q.width (Config.fabricFree n (2 ^ 34 + 4 * k + i))
  let look (i : Nat) (p o : RamPort) (was : BitVec 72) : BitVec 72 :=
    if !go p then was else if wr p || (wr o && clash) then free i else memWord g k q (at_ p)
  let words := put c.portB (put c.portA q.words)
  { q with
    words := if wr c.portA && wr c.portB && clash then tsetD (wordBase g k q.width) words (at_ c.portA) (free 2) else words,
    out := look 0 c.portA c.portB q.out, outB := look 1 c.portB c.portA q.outB }

/-- A region's logic after edges of the clocks `on`: every part sees what stood before them. -/
def logicEdge (n : Nat) (on : Nat → Bool) (g : Region) : Region :=
  let v := sigNow n g
  { g with
    ffs := (List.range 1200000).foldl (fun t k =>
      let c := flopCfg g k
      tsetD (flopBase g) t k (flopNext c (on c.clk.val) (flop g k) (v c.ce) (v c.sr) (v c.d))) g.ffs,
    dsps := (List.range 768).foldl (fun t d =>
      let c := Config.imageSlice g.frames d
      if on c.clk.val then tsetD (dspBase g) t d (dspEdge c d (dsp g d) v) else t) g.dsps,
    queues := (List.range 512).foldl (fun t k =>
      let q := tget queue0 g.queues k
      if q.ram then tset queue0 t k (ramEdge n g on k (Config.imageMem g.frames k) q) else t) g.queues }

/-- MHz of a region clock: PLL 0 drives clocks 0 to 3, PLL 1 clocks 4 to 7; one the image uses runs at 10 to 1000 (R341). -/
def clkMHz (g : Region) (k : Nat) : Nat :=
  let f := (Config.imageFreq g.frames k).toNat
  if f = 0 ∨ g.pllLock.getLsbD (k / 4) = false then 0 else max 10 (min 1000 f)

/-- Clock k of a region has a rising edge in the nanosecond that begins now. -/
def clockEdge (r : Fin 16) (g : Region) (t k : Nat) : Bool :=
  let f := clkMHz g k
  let p := Config.clockPhase r.val k
  (t * f + p) / 1000 != ((t + 1) * f + p) / 1000

/-- The design's logic runs: start-up has released the set-reset net, and the clocks are not stopped (R345, R346). -/
def logicRuns (s : State) (r : Fin 16) : Bool :=
  let g := region s r
  !g.setReset && (clocksRun s r || (live s (.region r) && g.starting && g.released))

/-- A nanosecond of every region's logic. -/
def fabTick (s : State) : State :=
  (List.range 16).foldl (fun u i =>
    let r := fin 16 i
    if logicRuns s r then
      updRegion { u with frees := u.frees + 1 } r (fun g => logicEdge u.frees (clockEdge r g (now s)) g)
    else u) s

/-- A nanosecond of the timebase passes, while it counts (R490), and with it the clocks of the fabric's regions (R341). -/
def tick (s : State) : State :=
  if s.clock.counting then let t := fabTick s; { t with clock := { t.clock with now := t.clock.now + 1 } } else s

end Sys2Proof.Machine
end

