-- ==== Sys2Proof/Machine/Crypto.lean ====
section
/-! DEFINITION. The functions that images are checked with: the CRC of R398 with the parameters of R399, SHA-384, ECDSA over
    P-384 and AES-256-GCM. The spec names the last three by their standards only (R364, R373, R375); their definitions are
    those of FIPS 180-4, FIPS 186-5, FIPS 197 and NIST SP 800-38D (PRESUMED, log entry 16). -/

namespace Sys2Proof
namespace Machine

/-! ### CRC (R398, R399) -/

/-- The parameters of a CRC. -/
structure Crc where
  w : Nat
  p : Nat
  init : Nat
  refin : Bool
  refout : Bool
  finv : Bool

/-- The low n bits of v in reverse order. -/
def reflect : Nat → Nat → Nat
  | 0, _ => 0
  | n + 1, v => 2 ^ n * (v % 2) + reflect n (v / 2)

def crc32c : Crc := ⟨32, 0x1EDC6F41, 0xFFFFFFFF, true, true, true⟩
def crc32 : Crc := ⟨32, 0x04C11DB7, 0xFFFFFFFF, true, true, true⟩
def crc64 : Crc := ⟨64, 0x42F0E1EBA9EA3693, 0, false, false, false⟩
def crc16 : Crc := ⟨16, 0x1021, 0xFFFF, false, false, false⟩

/-- Feed bit i - 1 of x and those below. -/
def crcBits (c : Crc) : Nat → Nat → Nat → Nat
  | 0, _, crc => crc
  | i + 1, x, crc =>
    let t := Bool.xor (nbit crc (c.w - 1)) (nbit x i)
    let v := crc * 2 % 2 ^ c.w
    crcBits c i x (if t then v ^^^ c.p else v)

/-- Feed one byte. -/
def crcByte (c : Crc) (crc : Nat) (b : Byte) : Nat :=
  crcBits c 8 (if c.refin then reflect 8 b.toNat else b.toNat) crc

def crcFeed (c : Crc) (crc : Nat) (bs : List Byte) : Nat := bs.foldl (crcByte c) crc

/-- The result of a register value. -/
def crcEnd (c : Crc) (crc : Nat) : Nat :=
  let r := if c.refout then reflect c.w crc else crc
  if c.finv then r ^^^ (2 ^ c.w - 1) else r

def crcOf (c : Crc) (bs : List Byte) : Nat := crcEnd c (crcFeed c c.init bs)

/-! ### SHA-384 (FIPS 180-4) -/

/-- Big-endian number of bytes. -/
def beNat (bs : List Byte) : Nat := bs.foldl (fun n b => 256 * n + b.toNat) 0
/-- The n low bytes of v, big-endian. -/
def beBytes (n v : Nat) : List Byte := (leBytes n v).reverse

/-- The greatest x with x^k at most v, from bit b - 1 down. -/
def iroot (k v : Nat) : Nat → Nat → Nat
  | 0, x => x
  | b + 1, x => let y := x + 2 ^ b; iroot k v b (if y ^ k ≤ v then y else x)

/-- Prime, for n below 21^2. -/
def isPrime (n : Nat) : Bool := decide (2 ≤ n) && (List.range 21).all (fun d => d < 2 || n ≤ d || n % d != 0)
def primes80 : List Nat := (List.range 410).filter isPrime

/-- The first 64 bits of the fractional parts of the cube roots of the first 80 primes. -/
def shaK : List (BitVec 64) := primes80.map (fun p => BitVec.ofNat 64 (iroot 3 (p * 2 ^ 192) 67 0))
/-- Those of the square roots of the ninth to sixteenth primes. -/
def shaH0 : List (BitVec 64) := ((primes80.drop 8).take 8).map (fun p => BitVec.ofNat 64 (iroot 2 (p * 2 ^ 128) 67 0))

/-- The message schedule, newest word first. -/
def shaW : Nat → List (BitVec 64) → List (BitVec 64)
  | 0, w => w
  | n + 1, w =>
    let a := w.getD 1 0
    let b := w.getD 14 0
    let s1 := a.rotateRight 19 ^^^ a.rotateRight 61 ^^^ (a >>> 6)
    let s0 := b.rotateRight 1 ^^^ b.rotateRight 8 ^^^ (b >>> 7)
    shaW n ((s1 + w.getD 6 0 + s0 + w.getD 15 0) :: w)

/-- The eight working variables. -/
structure Sha where
  a : BitVec 64
  b : BitVec 64
  c : BitVec 64
  d : BitVec 64
  e : BitVec 64
  f : BitVec 64
  g : BitVec 64
  h : BitVec 64

def shaRound (v : Sha) (kw : BitVec 64) : Sha :=
  let s1 := v.e.rotateRight 14 ^^^ v.e.rotateRight 18 ^^^ v.e.rotateRight 41
  let ch := (v.e &&& v.f) ^^^ (~~~ v.e &&& v.g)
  let t1 := v.h + s1 + ch + kw
  let s0 := v.a.rotateRight 28 ^^^ v.a.rotateRight 34 ^^^ v.a.rotateRight 39
  let maj := (v.a &&& v.b) ^^^ (v.a &&& v.c) ^^^ (v.b &&& v.c)
  { a := t1 + (s0 + maj), b := v.a, c := v.b, d := v.c, e := v.d + t1, f := v.e, g := v.f, h := v.g }

def shaBlock (v : Sha) (blk : List Byte) : Sha :=
  let m := (chunksF 8 16 blk).map (fun c => BitVec.ofNat 64 (beNat c))
  let w := (shaW 64 m.reverse).reverse
  let r := (shaK.zip w).foldl (fun v kw => shaRound v (kw.1 + kw.2)) v
  { a := v.a + r.a, b := v.b + r.b, c := v.c + r.c, d := v.d + r.d, e := v.e + r.e, f := v.f + r.f, g := v.g + r.g, h := v.h + r.h }

def shaPad (bs : List Byte) : List Byte :=
  bs ++ [0x80] ++ List.replicate ((239 - bs.length % 128) % 128) 0 ++ beBytes 16 (8 * bs.length)

def sha384 (bs : List Byte) : BitVec 384 :=
  let p := shaPad bs
  let h := fun i => shaH0.getD i 0
  let v := (chunksF 128 (p.length / 128) p).foldl shaBlock
    { a := h 0, b := h 1, c := h 2, d := h 3, e := h 4, f := h 5, g := h 6, h := h 7 }
  BitVec.ofNat 384 ([v.a, v.b, v.c, v.d, v.e, v.f].foldl (fun n x => n * 2 ^ 64 + x.toNat) 0)

/-! ### ECDSA over P-384 (FIPS 186-5) -/

def p384P : Nat := 2 ^ 384 - 2 ^ 128 - 2 ^ 96 + 2 ^ 32 - 1
def p384N : Nat := 0xFFFFFFFFFFFFFFFFFFFFFFFFFFFFFFFFFFFFFFFFFFFFFFFFC7634D81F4372DDF581A0DB248B0A77AECEC196ACCC52973
def p384B : Nat := 0xB3312FA7E23EE7E4988E056BE3F82D19181D9C6EFE8141120314088F5013875AC656398D8A2ED19D2A85C8EDD3EC2AEF
def p384G : Nat × Nat :=
  (0xAA87CA22BE8B05378EB1C71EF320AD746E1D3B628BA79B9859F741E082542A385502F25DBF55296C3A545E3872760AB7,
   0x3617DE4A96262C6F5D9E98BF9292DC29F8F41DBD289A147CE9DA3113B5F0B8C00A60B1CE1D7E819D7A431D7C90EA0E5F)

/-- a^e mod m over the low n bits of e. -/
def powMod (m : Nat) : Nat → Nat → Nat → Nat
  | 0, _, _ => 1 % m
  | n + 1, a, e => let r := powMod m n (a * a % m) (e / 2); if e % 2 = 1 then a * r % m else r

/-- The inverse modulo a prime. -/
def invMod (m a : Nat) : Nat := powMod m 384 (a % m) (m - 2)

/-- A point x / z^2, y / z^3; z = 0 is the point at infinity. -/
structure Pt where
  x : Nat
  y : Nat
  z : Nat

def subMod (m a b : Nat) : Nat := (a + (m - b % m)) % m

/-- Twice a point of the curve y^2 = x^3 - 3x + b. -/
def ptDbl (p : Pt) : Pt :=
  let m := p384P
  let d := p.z * p.z % m
  let g := p.y * p.y % m
  let b := p.x * g % m
  let a := 3 * subMod m p.x d * (p.x + d) % m
  let x := subMod m (a * a) (8 * b)
  ⟨x, subMod m (a * subMod m (4 * b) x) (8 * g * g), 2 * p.y * p.z % m⟩

/-- Addition on that curve. -/
def ptAdd (p q : Pt) : Pt :=
  if p.z = 0 then q
  else if q.z = 0 then p
  else
    let m := p384P
    let zp := p.z * p.z % m
    let zq := q.z * q.z % m
    let u := p.x * zq % m
    let s := p.y * q.z * zq % m
    let h := subMod m (q.x * zp) u
    let r := subMod m (q.y * p.z * zp) s
    if h = 0 then (if r = 0 then ptDbl p else ⟨1, 1, 0⟩)
    else
      let h2 := h * h % m
      let h3 := h * h2 % m
      let v := u * h2 % m
      let x := subMod m (r * r) (h3 + 2 * v)
      ⟨x, subMod m (r * subMod m v x) (s * h3), p.z * q.z * h % m⟩

/-- Scalar multiple over the low n bits of k. -/
def ptMul : Nat → Nat → Pt → Pt
  | 0, _, _ => ⟨1, 1, 0⟩
  | n + 1, k, p => let q := ptMul n (k / 2) (ptDbl p); if k % 2 = 1 then ptAdd p q else q

def onCurve (x y : Nat) : Bool :=
  decide (x < p384P ∧ y < p384P) && y * y % p384P == (x * x * x + (p384P - 3) * x + p384B) % p384P

/-- A signature r, s over a digest verifies under the public key. -/
def ecdsaOk (qx qy r s : Nat) (digest : BitVec 384) : Bool :=
  let n := p384N
  if !onCurve qx qy || r = 0 || n ≤ r || s = 0 || n ≤ s then false
  else
    let w := invMod n s
    let u1 := digest.toNat * w % n
    let u2 := r * w % n
    let p := ptAdd (ptMul 384 u1 ⟨p384G.1, p384G.2, 1⟩) (ptMul 384 u2 ⟨qx, qy, 1⟩)
    let i := invMod p384P p.z
    p.z != 0 && p.x * (i * i % p384P) % p384P % n == r

/-! ### AES-256 and GCM (FIPS 197, SP 800-38D) -/

/-- Multiplication in GF(2^8) over the low n bits of b. -/
def gmul : Nat → Nat → Nat → Nat
  | 0, _, _ => 0
  | n + 1, a, b =>
    let r := gmul n (let d := 2 * a; if 256 ≤ d then (d ^^^ 0x11B) else d) (b / 2)
    if b % 2 = 1 then a ^^^ r else r

def gpow : Nat → Nat → Nat
  | 0, _ => 1
  | n + 1, a => gmul 8 a (gpow n a)

def rotl8 (v k : Nat) : Nat := (v * 2 ^ k ||| v / 2 ^ (8 - k)) % 256
def sboxOf (a : Nat) : Nat :=
  let b := if a = 0 then 0 else gpow 254 a
  b ^^^ rotl8 b 1 ^^^ rotl8 b 2 ^^^ rotl8 b 3 ^^^ rotl8 b 4 ^^^ 0x63
def sboxTab : Array Nat := ((List.range 256).map sboxOf).toArray
def sbox (a : Nat) : Nat := sboxTab.getD a 0

/-- One word of the key schedule from the words before it, newest first. -/
def aesNext (ws : List (List Nat)) (rcon : Nat) : List Nat :=
  let i := ws.length
  let t := ws.headD []
  let t := if i % 8 = 0 then ((t.drop 1 ++ t.take 1).map sbox).mapIdx (fun j v => if j = 0 then v ^^^ rcon else v)
    else if i % 8 = 4 then t.map sbox else t
  List.zipWith (fun a b => a ^^^ b) (ws.getD 7 []) t

/-- The key schedule, newest word first. -/
def aesExpand : Nat → Nat → List (List Nat) → List (List Nat)
  | 0, _, ws => ws
  | n + 1, rc, ws => aesExpand n (if ws.length % 8 = 0 then gmul 8 rc 2 else rc) (aesNext ws rc :: ws)

def aesKeys (key : List Nat) : List (List Nat) :=
  chunksF 16 15 (aesExpand 52 1 (chunksF 4 8 key).reverse).reverse.flatten

def shiftRows (st : List Nat) : List Nat := (List.range 16).map (fun i => st.getD ((i + 4 * (i % 4)) % 16) 0)

def mixCol (c : List Nat) : List Nat :=
  (List.range 4).map (fun i => gmul 8 (c.getD i 0) 2 ^^^ gmul 8 (c.getD ((i + 1) % 4) 0) 3 ^^^ c.getD ((i + 2) % 4) 0 ^^^
    c.getD ((i + 3) % 4) 0)

def addKey (st k : List Nat) : List Nat := List.zipWith (fun a b => a ^^^ b) st k

def aesRounds : List (List Nat) → List Nat → List Nat
  | [], st => st
  | [k], st => addKey (shiftRows (st.map sbox)) k
  | k :: ks, st => aesRounds ks (addKey ((chunksF 4 4 (shiftRows (st.map sbox))).flatMap mixCol) k)

/-- AES-256 of a 16-byte block. -/
def aesEnc (keys : List (List Nat)) (blk : List Nat) : List Nat :=
  match keys with
  | [] => blk
  | k :: ks => aesRounds ks (addKey blk k)

/-- A block as a number, first byte most significant. -/
def blkNat (b : List Nat) : Nat := b.foldl (fun n x => 256 * n + x) 0
def natBlk (v : Nat) : List Nat := (beBytes 16 v).map (·.toNat)

/-- The product of GCM, over bits n - 1 down to 0 of x, v the running multiple of y. -/
def ghMul : Nat → Nat → Nat → Nat → Nat
  | 0, _, _, z => z
  | n + 1, x, v, z =>
    ghMul n x (if v % 2 = 1 then v / 2 ^^^ 0xE1 * 2 ^ 120 else v / 2) (if nbit x n then z ^^^ v else z)

/-- GHASH of ciphertext with no additional data. -/
def ghash (h : Nat) (c : List Byte) : Nat :=
  let blocks := (chunksF 16 (c.length / 16 + 1) c).map (fun b => beNat (b ++ List.replicate (16 - b.length) 0))
  (blocks ++ [8 * c.length]).foldl (fun y b => ghMul 128 (y ^^^ b) h 0) 0

def keyBytes (key : BitVec 256) : List Nat := (leBytes 32 key.toNat).map (·.toNat)

/-- The tag over ciphertext under a 96-bit initialization vector. -/
def gcmTag (key : BitVec 256) (iv : List Byte) (c : List Byte) : BitVec 128 :=
  let ks := aesKeys (keyBytes key)
  let h := blkNat (aesEnc ks (List.replicate 16 0))
  let j0 := iv.map (·.toNat) ++ [0, 0, 0, 1]
  BitVec.ofNat 128 (ghash h c ^^^ blkNat (aesEnc ks j0))

/-- Decrypt ciphertext that begins at a byte offset of the body. -/
def gcmDec (key : BitVec 256) (iv : List Byte) (off : Nat) (c : List Byte) : List Byte :=
  let ks := aesKeys (keyBytes key)
  let pad := fun i => aesEnc ks (iv.map (·.toNat) ++ (beBytes 4 (2 + i)).map (·.toNat))
  let stream := (List.range (c.length / 16 + 2)).flatMap (fun i => pad (off / 16 + i))
  List.zipWith (fun b k => b ^^^ BitVec.ofNat 8 k) c (stream.drop (off % 16))

end Machine
end Sys2Proof
end

