-- ==== Sys2Proof/Machine/Fp.lean ====
section
/-! DEFINITION. Number formats and arithmetic (R122-R140): exact values, the one rounding, FP32 primitives,
    conversions, block scaling, decoded elements and the group sum. -/

namespace Sys2Proof.Machine

/-! ### Formats (R122) -/

/-- A floating-point format: width, mantissa bits, bias, the codes (sign apart) of its largest finite value, of its
    infinity if it has one, and of its canonical NaN if it has one. -/
structure FFmt where
  width : Nat
  mb : Nat
  bias : Nat
  maxF : Nat
  infC : Option Nat
  nanC : Option Nat
  deriving DecidableEq, Repr

def e4m3 : FFmt := ⟨8, 3, 7, 0x7E, none, some 0x7F⟩
def e5m2 : FFmt := ⟨8, 2, 15, 0x7B, some 0x7C, some 0x7E⟩
def e3m2 : FFmt := ⟨6, 2, 3, 0x1F, none, none⟩
def e2m3 : FFmt := ⟨6, 3, 1, 0x1F, none, none⟩
def e2m1 : FFmt := ⟨4, 1, 1, 0x7, none, none⟩
def bf16 : FFmt := ⟨16, 7, 127, 0x7F7F, some 0x7F80, some 0x7FC0⟩
def fp16 : FFmt := ⟨16, 10, 15, 0x7BFF, some 0x7C00, some 0x7E00⟩
def fp32 : FFmt := ⟨32, 23, 127, 0x7F7FFFFF, some 0x7F800000, some 0x7FC00000⟩

/-- A format code (R58): a float, an integer of a width, or not used. -/
inductive Fmt where
  | flt (f : FFmt)
  | int (w : Nat)
  | bad
  deriving DecidableEq, Repr

def fmtOf (c : Nat) : Fmt :=
  match c with
  | 0x0 => .flt e4m3 | 0x1 => .flt e5m2 | 0x2 => .flt e3m2 | 0x3 => .flt e2m3 | 0x4 => .flt e2m1
  | 0x5 => .int 8 | 0x6 => .int 4 | 0x8 => .flt bf16 | 0x9 => .flt fp16 | 0xA => .flt fp32 | 0xB => .int 32
  | _ => .bad

def fmtWidth (c : Nat) : Nat :=
  match fmtOf c with | .flt f => f.width | .int w => w | .bad => 0

/-- A row weight or token format (R58). -/
def rowFmt (c : Nat) : Bool := c ≤ 6 || c == 8 || c == 9

/-- A format that may be block-scaled (R58, R128). -/
def scalable (c : Nat) : Bool := c ≤ 4

def isIntFmt (c : Nat) : Bool := c == 5 || c == 6 || c == 0xB

/-- K (R57). -/
def kOf (c : Nat) : Nat :=
  match c with | 2 | 3 => 160 | 4 | 6 => 256 | 8 | 9 => 64 | _ => 128

/-! ### Exact values -/

/-- A value: NaN, an infinity, or (-1)^neg × m × 2^e; zero has m = 0 and a sign. -/
inductive Fv where
  | nan
  | inf (neg : Bool)
  | fin (neg : Bool) (m : Nat) (e : Int)
  deriving DecidableEq, Repr

/-- The value an encoding has (R123, R127). -/
def fdec (f : FFmt) (c : Nat) : Fv :=
  let neg := c.testBit (f.width - 1)
  let mag := c % 2 ^ (f.width - 1)
  if f.infC = some mag then .inf neg
  else if f.maxF < mag then .nan
  else
    let e := mag / 2 ^ f.mb
    let m := mag % 2 ^ f.mb
    if e = 0 then .fin neg m (1 - (f.bias : Int) - f.mb)
    else .fin neg (2 ^ f.mb + m) ((e : Int) - f.bias - f.mb)

/-- The code of a sign and a code without sign. -/
def signed (f : FFmt) (neg : Bool) (c : Nat) : Nat := if neg then 2 ^ (f.width - 1) + c else c

/-- What an overflow of a sign becomes (R136): the largest finite value with the saturation bit, else the infinity;
    FP8 E4M3 has none and gives 0x7F whatever the sign, FP6 and FP4 always keep the largest finite value. -/
def fover (f : FFmt) (sat neg : Bool) : Nat :=
  if sat then signed f neg f.maxF
  else match f.infC, f.nanC with
    | some i, _ => signed f neg i
    | none, some n => n
    | none, none => signed f neg f.maxF

/-- Round (-1)^neg × m × 2^e, with a sticky bit, into a format (R136). -/
def fround (f : FFmt) (sat : Bool) (neg : Bool) (m : Nat) (e : Int) (sticky : Bool) : Nat :=
  if m = 0 then signed f neg 0 else
  let emin : Int := 1 - (f.bias : Int) - f.mb
  let q : Int := max ((m.log2 : Int) + e - f.mb) emin
  let n : Nat :=
    if q ≤ e then m * 2 ^ (e - q).toNat
    else
      let sh := (q - e).toNat
      let n := m / 2 ^ sh
      let r := m % 2 ^ sh
      let half := 2 ^ (sh - 1)
      if half < r ∨ r = half ∧ (sticky ∨ n % 2 = 1) then n + 1 else n
  let c := (q - emin).toNat * 2 ^ f.mb + n
  if f.maxF < c then fover f sat neg else signed f neg c

/-- The canonical NaN of a format (R127); a format without one gives 0. -/
def fnan (f : FFmt) : Nat := match f.nanC with | some n => n | none => 0

/-- Round a value into a format; an infinity of a format without one becomes its NaN, or with the saturation bit set
    its largest finite value (R140). -/
def fenc (f : FFmt) (sat : Bool) : Fv → Nat
  | .nan => fnan f
  | .inf neg => match f.infC with
    | some i => signed f neg i
    | none => fover f sat neg
  | .fin neg m e => fround f sat neg m e false

def f32 (w : W32) : Fv := fdec fp32 w.toNat

def to32 (sat : Bool) (v : Fv) : W32 := w32 (fenc fp32 sat v)

/-- Round to FP32 and keep the value. -/
def rnd (sat : Bool) (v : Fv) : Fv := fdec fp32 (fenc fp32 sat v)

def Fv.neg : Fv → Fv
  | .nan => .nan
  | .inf n => .inf (!n)
  | .fin n m e => .fin (!n) m e

/-- The exact sum of two finite values: as an integer at an exponent. -/
def finSum (n1 : Bool) (m1 : Nat) (e1 : Int) (n2 : Bool) (m2 : Nat) (e2 : Int) : Int × Int :=
  let e := min e1 e2
  let a : Int := (m1 : Int) * 2 ^ (e1 - e).toNat
  let b : Int := (m2 : Int) * 2 ^ (e2 - e).toNat
  ((if n1 then -a else a) + (if n2 then -b else b), e)

/-- The exact sum; an exact zero is +0 unless both are -0 (R138). -/
def Fv.add : Fv → Fv → Fv
  | .nan, _ | _, .nan => .nan
  | .inf a, .inf b => if a = b then .inf a else .nan
  | .inf a, _ | _, .inf a => .inf a
  | .fin n1 m1 e1, .fin n2 m2 e2 =>
    if m1 = 0 ∧ m2 = 0 then .fin (n1 && n2) 0 0
    else
      let (v, e) := finSum n1 m1 e1 n2 m2 e2
      .fin (decide (v < 0)) v.natAbs e

/-- The exact product (R139). -/
def Fv.mul : Fv → Fv → Fv
  | .nan, _ | _, .nan => .nan
  | .inf a, .inf b => .inf (a ^^ b)
  | .inf a, .fin b m _ | .fin b m _, .inf a => if m = 0 then .nan else .inf (a ^^ b)
  | .fin n1 m1 e1, .fin n2 m2 e2 => .fin (n1 ^^ n2) (m1 * m2) (e1 + e2)

/-- Multiply by 2^k. -/
def Fv.scale (k : Int) : Fv → Fv
  | .fin n m e => .fin n m (e + k)
  | v => v

/-! ### FP32 primitives (R139): operands may be exact intermediate values (R144); each result is rounded once -/

def fadd (sat : Bool) (a b : Fv) : Fv := rnd sat (a.add b)
def fsub (sat : Bool) (a b : Fv) : Fv := rnd sat (a.add b.neg)
def fmul (sat : Bool) (a b : Fv) : Fv := rnd sat (a.mul b)
def ffma (sat : Bool) (a b c : Fv) : Fv := rnd sat ((a.mul b).add c)
def ffmas (sat : Bool) (a b c : Fv) (k : Int) : Fv := rnd sat (((a.mul b).add c).scale k)

/-- The order of the extended reals with -0 below +0. -/
def Fv.lt : Fv → Fv → Bool
  | .nan, _ | _, .nan => false
  | .inf a, .inf b => a && !b
  | .inf a, _ => a
  | _, .inf b => !b
  | .fin n1 m1 e1, .fin n2 m2 e2 =>
    if m1 = 0 ∧ m2 = 0 then n1 && !n2
    else decide ((finSum n1 m1 e1 (!n2) m2 e2).1 < 0)

/-- Strictly smaller as numbers, the two zeros equal. -/
def Fv.ltNum (a b : Fv) : Bool :=
  match a, b with
  | .fin _ 0 _, .fin _ 0 _ => false
  | _, _ => a.lt b

def Fv.isNan : Fv → Bool
  | .nan => true
  | _ => false

def fmax (a b : Fv) : Fv := if a.isNan || b.isNan then .nan else if a.lt b then b else a
def fmin (a b : Fv) : Fv := if a.isNan || b.isNan then .nan else if b.lt a then b else a

/-! ### Integers -/

/-- An INT32 sum (R138). -/
def iadd (sat : Bool) (a b : W32) : W32 :=
  let v := a.toInt + b.toInt
  if sat then BitVec.ofInt 32 (max (-2147483648) (min 2147483647 v)) else BitVec.ofInt 32 v

/-- Round n / 2^k to an integer, ties to even. -/
def idivEven (n : Int) (k : Nat) : Int :=
  let q := n / (2 ^ k : Int)
  let r := n % (2 ^ k : Int)
  if 2 ^ k < 2 * r ∨ 2 * r = 2 ^ k ∧ q % 2 = 1 then q + 1 else q

/-- Into a signed field of `w` bits: clamped with the saturation bit, else its low bits. -/
def intoInt (sat : Bool) (w : Nat) (v : Int) : Nat :=
  let v := if sat then max (-(2 ^ (w - 1) : Int)) (min ((2 ^ (w - 1) : Int) - 1) v) else v
  (v % (2 ^ w : Int)).toNat

/-- Round a value to an integer, ties to even. -/
def toInteger (neg : Bool) (m : Nat) (e : Int) : Int :=
  let a : Int := if 0 ≤ e then (m : Int) * 2 ^ e.toNat else idivEven (m : Int) (-e).toNat
  if neg then -a else a

/-- FP32 to an integer format (R140). -/
def cvtToInt (sat : Bool) (w : Nat) : Fv → Nat
  | .nan => 0
  | .inf neg => if sat then (if neg then 2 ^ (w - 1) else 2 ^ (w - 1) - 1) else 2 ^ (w - 1)
  | .fin neg m e => intoInt sat w (toInteger neg m e)

/-- An integer as an exact value. -/
def ofInteger (v : Int) : Fv := .fin (decide (v < 0)) v.natAbs 0

/-- An element of a format as a value, with its block scale (R128, R140). -/
def elemVal (code c : Nat) (scale : Option Nat) : Fv :=
  match fmtOf code with
  | .flt f => match scale with
    | some 0xFF => .nan
    | some x => (fdec f c).scale ((x : Int) - 127)
    | none => fdec f c
  | .int w => ofInteger (sext w c)
  | .bad => .nan

/-- An FP32 value into an output format that is not block-scaled (R140). -/
def outElem (sat : Bool) (code : Nat) (v : Fv) : Nat :=
  match fmtOf code with
  | .flt f => fenc f sat v
  | .int w => cvtToInt sat w v
  | .bad => 0

/-- An integer accumulator into INT32 or INT8: multiplied, shifted and rounded (R94). -/
def outScaled (sat : Bool) (w : Nat) (acc mult : W32) (shift : Nat) : Nat :=
  intoInt sat w (idivEven (acc.toInt * mult.toInt) shift)

/-! ### Block conversion (R129) -/

/-- emax of a block-scalable format. -/
def emaxOf (code : Nat) : Nat :=
  match code with | 0 => 8 | 1 => 15 | 2 => 4 | _ => 2

/-- Exponent of a finite non-zero value. -/
def expOf (m : Nat) (e : Int) : Int := (m.log2 : Int) + e

/-- The largest magnitude among the finite values, as an exact value. R129 gives none for an FP8 E5M2 block whose values are all
    infinite: it is 0 there, so the scale byte is 0x00 (DESIGN CHOICE, log entry 64). -/
def largest : List Fv → Fv
  | [] => .fin false 0 0
  | .fin _ m e :: t => let r := largest t; if r.ltNum (.fin false m e) then .fin false m e else r
  | _ :: t => largest t

/-- A block of FP32 values in a block-scalable format: the scale byte and the element codes (R129). -/
def blockConv (code : Nat) (vs : List Fv) : Nat × List Nat :=
  match fmtOf code with
  | .flt f =>
    if vs.any Fv.isNan || (code != 1 && vs.any (fun v => match v with | .inf _ => true | _ => false))
    then (0xFF, vs.map (fun _ => 0))
    else
      let x : Nat := match largest vs with
        | .fin _ m e =>
          if m = 0 ∨ expOf m e < (emaxOf code : Int) - 127 then 0
          else min (expOf m e - emaxOf code + 127).toNat 0xFE
        | _ => 0
      (x, vs.map (fun v => match v with
        | .fin n m e => fround f true n m (e - ((x : Int) - 127)) false
        | v => fenc f true v))
  | _ => (0, vs.map (fun _ => 0))

/-! ### Decoded elements (R98, R130, R131) -/

/-- Classes of a decoded element. -/
inductive DCls where
  | finite | zero | infinity | nan
  deriving DecidableEq, Repr

/-- A decoded element: (-1)^s × m × 2^(e - 11). -/
structure Dec where
  cls : DCls
  s : Bool
  e : Int
  m : Nat
  deriving DecidableEq, Repr

/-- decode of R130. -/
def decElem (code c : Nat) (scale : Option Nat) : Dec :=
  if scale = some 0xFF then ⟨.nan, false, 0, 0⟩ else
  match fmtOf code with
  | .int w =>
    let v := sext w c
    if v = 0 then ⟨.zero, false, 0, 0⟩
    else let a := v.natAbs; ⟨.finite, decide (v < 0), a.log2, a * 2 ^ (11 - a.log2)⟩
  | .flt f =>
    match fdec f c with
    | .nan => ⟨.nan, c.testBit (f.width - 1), 0, 0⟩
    | .inf n => ⟨.infinity, n, 0, 0⟩
    | .fin n m e =>
      if m = 0 then ⟨.zero, n, 0, 0⟩
      else ⟨.finite, n, expOf m e + (match scale with | some x => (x : Int) - 127 | none => 0), m * 2 ^ (11 - m.log2)⟩
  | .bad => ⟨.nan, false, 0, 0⟩

/-- A word of the operand port under OPDEC (R98), as the row takes it (R131). -/
def decWord (w : W32) : Dec :=
  let s := w.getLsbD 31
  let e := sext 10 (bits w 30 21)
  let m := bits w 20 9
  match bits w 2 0 with
  | 0 =>
    if m = 0 then ⟨.zero, s, 0, 0⟩
    else if 142 < e then ⟨.infinity, s, 0, 0⟩
    else if e < -143 then ⟨.zero, s, 0, 0⟩
    else ⟨.finite, s, e, m⟩
  | 1 => ⟨.zero, s, 0, 0⟩
  | 2 => ⟨.infinity, s, 0, 0⟩
  | _ => ⟨.nan, s, 0, 0⟩

/-! ### The group sum (R132-R137) -/

/-- What the special products of a group decide (R133). -/
structure Spec where
  nan : Bool
  pinf : Bool
  ninf : Bool
  allZero : Bool
  allNegZero : Bool
  deriving DecidableEq, Repr

/-- The special products of the pairs of a group. R133 names infinity times a finite non-zero value; infinity times infinity is
    taken as infinite too, with the product of the signs (DESIGN CHOICE, log entry 64). -/
def specials : List (Dec × Dec) → Spec
  | [] => ⟨false, false, false, true, true⟩
  | (w, t) :: r =>
    let p := specials r
    let neg := w.s ^^ t.s
    match w.cls, t.cls with
    | .nan, _ | _, .nan => { p with nan := true, allZero := false, allNegZero := false }
    | .zero, .infinity | .infinity, .zero => { p with nan := true, allZero := false, allNegZero := false }
    | .infinity, _ | _, .infinity =>
      if neg then { p with ninf := true, allZero := false, allNegZero := false }
      else { p with pinf := true, allZero := false, allNegZero := false }
    | .zero, _ | _, .zero => { p with allNegZero := p.allNegZero && neg }
    | .finite, .finite => { p with allZero := false, allNegZero := false }

/-- The finite non-zero products: sign, significand, exponent. -/
def products (l : List (Dec × Dec)) : List (Bool × Nat × Int) :=
  l.filterMap (fun (w, t) =>
    if w.cls = .finite ∧ t.cls = .finite then some (w.s ^^ t.s, w.m * t.m, w.e + t.e) else none)

/-- The exact sum of R134, at 2^-308. -/
def exactAcc : List (Bool × Nat × Int) → Int
  | [] => 0
  | (s, p, e) :: r =>
    let v : Int := (p : Int) * 2 ^ (e + 286).toNat
    (if s then -v else v) + exactAcc r

/-- The window sum of R135 with `up` places above the largest exponent E: 30 in normal mode, 6 in compatibility mode. -/
def windowAcc (up : Int) (emax : Int) : List (Bool × Nat × Int) → Int × Bool
  | [] => (0, false)
  | (s, p, e) :: r =>
    let (acc, st) := windowAcc up emax r
    let sh := e - emax + up
    let (a, lost) : Nat × Bool :=
      if 0 ≤ sh then (p * 2 ^ sh.toNat, false)
      else if sh ≤ -24 then (0, true)
      else (p / 2 ^ (-sh).toNat, decide (p % 2 ^ (-sh).toNat ≠ 0))
    (acc + (if s then -(a : Int) else (a : Int)), st || lost)

/-- A sum rounded to FP32 (R136); a zero sum is +0. -/
def round32 (sat : Bool) (acc w : Int) (sticky : Bool) : W32 :=
  w32 (fround fp32 sat (decide (acc < 0)) acc.natAbs w sticky)

/-- The largest exponent of a list of products. -/
def maxExp : List (Bool × Nat × Int) → Int
  | [] => -1000
  | (_, _, e) :: r => max e (maxExp r)

/-- The floating-point group sum of a lane (R132-R136, R158). -/
def groupSumF (sat compat sixteen : Bool) (l : List (Dec × Dec)) : W32 :=
  let p := specials l
  if p.nan || (p.pinf && p.ninf) then 0x7FC00000
  else if p.pinf then 0x7F800000
  else if p.ninf then 0xFF800000
  else if p.allZero then (if p.allNegZero then 0x80000000 else 0)
  else
    let ps := products l
    if sixteen then
      let em := maxExp ps
      let up : Int := if compat then 6 else 30
      let (acc, st) := windowAcc up em ps
      if acc = 0 then 0 else round32 sat acc (em - 22 - up) st
    else round32 sat (exactAcc ps) (-308) false

/-- The integer group sum (R137). -/
def groupSumI (l : List (Int × Int)) : W32 := BitVec.ofInt 32 ((l.map (fun p => p.1 * p.2)).sum)

end Sys2Proof.Machine
end

