-- ==== Sys2Proof/Machine/FpFunc.lean ====
section
/-! DEFINITION. Special functions by iteration from seeds, the fixed summation order, softmax and normalization
    statistics (R141-R152), in normal and compatibility mode (R158, R159). -/

namespace Sys2Proof.Machine

/-! ### Seed tables (R142) -/

/-- ET (R142): entry i is 2^(i/128) rounded to FP32. The 64-entry table of compatibility mode is its even entries. -/
def etTab : List W32 :=
  [0x3F800000, 0x3F80B1ED, 0x3F8164D2, 0x3F8218AF, 0x3F82CD87, 0x3F838359, 0x3F843A29, 0x3F84F1F6,
   0x3F85AAC3, 0x3F866491, 0x3F871F62, 0x3F87DB35, 0x3F88980F, 0x3F8955EE, 0x3F8A14D5, 0x3F8AD4C6,
   0x3F8B95C2, 0x3F8C57CA, 0x3F8D1ADF, 0x3F8DDF04, 0x3F8EA43A, 0x3F8F6A81, 0x3F9031DC, 0x3F90FA4D,
   0x3F91C3D3, 0x3F928E72, 0x3F935A2B, 0x3F9426FF, 0x3F94F4F0, 0x3F95C3FF, 0x3F96942D, 0x3F97657D] ++
  [0x3F9837F0, 0x3F990B88, 0x3F99E046, 0x3F9AB62B, 0x3F9B8D3A, 0x3F9C6573, 0x3F9D3EDA, 0x3F9E196E,
   0x3F9EF532, 0x3F9FD228, 0x3FA0B051, 0x3FA18FAF, 0x3FA27043, 0x3FA3520F, 0x3FA43516, 0x3FA51958,
   0x3FA5FED7, 0x3FA6E595, 0x3FA7CD94, 0x3FA8B6D5, 0x3FA9A15B, 0x3FAA8D26, 0x3FAB7A3A, 0x3FAC6897,
   0x3FAD583F, 0x3FAE4934, 0x3FAF3B79, 0x3FB02F0E, 0x3FB123F6, 0x3FB21A32, 0x3FB311C4, 0x3FB40AAF] ++
  [0x3FB504F3, 0x3FB60094, 0x3FB6FD92, 0x3FB7FBF0, 0x3FB8FBAF, 0x3FB9FCD2, 0x3FBAFF5B, 0x3FBC034A,
   0x3FBD08A4, 0x3FBE0F68, 0x3FBF179A, 0x3FC0213B, 0x3FC12C4D, 0x3FC238D2, 0x3FC346CD, 0x3FC4563F,
   0x3FC5672A, 0x3FC67991, 0x3FC78D75, 0x3FC8A2D8, 0x3FC9B9BE, 0x3FCAD226, 0x3FCBEC15, 0x3FCD078C,
   0x3FCE248C, 0x3FCF4319, 0x3FD06334, 0x3FD184DF, 0x3FD2A81E, 0x3FD3CCF1, 0x3FD4F35B, 0x3FD61B5E] ++
  [0x3FD744FD, 0x3FD87039, 0x3FD99D16, 0x3FDACB94, 0x3FDBFBB8, 0x3FDD2D82, 0x3FDE60F5, 0x3FDF9613,
   0x3FE0CCDF, 0x3FE2055B, 0x3FE33F89, 0x3FE47B6D, 0x3FE5B907, 0x3FE6F85B, 0x3FE8396A, 0x3FE97C38,
   0x3FEAC0C7, 0x3FEC0719, 0x3FED4F30, 0x3FEE9910, 0x3FEFE4BA, 0x3FF13231, 0x3FF28177, 0x3FF3D290,
   0x3FF5257D, 0x3FF67A41, 0x3FF7D0DF, 0x3FF9295A, 0x3FFA83B3, 0x3FFBDFED, 0x3FFD3E0C, 0x3FFE9E11]

/-- LT (R142): entry i is log2(1 + (2i + 1)/256), less 1 from entry 64 on, rounded to FP32. -/
def ltTab : List W32 :=
  [0x3BB84E23, 0x3C89B189, 0x3CE49B1E, 0x3D1F6985, 0x3D4C2DFE, 0x3D789C4C, 0x3D925ADC, 0x3DA83DC2,
   0x3DBDF775, 0x3DD3888F, 0x3DE8F1A7, 0x3DFE3350, 0x3E09A70E, 0x3E14214A, 0x3E1E88A3, 0x3E28DD5D,
   0x3E331FB8, 0x3E3D4FF6, 0x3E476E57, 0x3E517B19, 0x3E5B7679, 0x3E6560B2, 0x3E6F39FF, 0x3E79029A,
   0x3E815D5D, 0x3E86314C, 0x3E8AFD34, 0x3E8FC130, 0x3E947D5A, 0x3E9931CB, 0x3E9DDE9D, 0x3EA283E8] ++
  [0x3EA721C4, 0x3EABB849, 0x3EB0478E, 0x3EB4CFA9, 0x3EB950B2, 0x3EBDCABD, 0x3EC23DE2, 0x3EC6AA34,
   0x3ECB0FC8, 0x3ECF6EB4, 0x3ED3C70A, 0x3ED818DF, 0x3EDC6447, 0x3EE0A953, 0x3EE4E818, 0x3EE920A6,
   0x3EED5311, 0x3EF17F6A, 0x3EF5A5C2, 0x3EF9C62B, 0x3EFDE0B6, 0x3F00FAB9, 0x3F030239, 0x3F0506E2,
   0x3F0708BC, 0x3F0907CF, 0x3F0B0422, 0x3F0CFDBE, 0x3F0EF4A9, 0x3F10E8EB, 0x3F12DA8B, 0x3F14C990] ++
  [0xBED293FF, 0xBECEC037, 0xBECAF17D, 0xBEC727C2, 0xBEC362FA, 0xBEBFA317, 0xBEBBE80E, 0xBEB831D1,
   0xBEB48054, 0xBEB0D38C, 0xBEAD2B6C, 0xBEA987E8, 0xBEA5E8F6, 0xBEA24E89, 0xBE9EB896, 0xBE9B2713,
   0xBE9799F3, 0xBE94112E, 0xBE908CB7, 0xBE8D0C85, 0xBE89908D, 0xBE8618C5, 0xBE82A524, 0xBE7E6B3C,
   0xBE779455, 0xBE70C580, 0xBE69FEAA, 0xBE633FC0, 0xBE5C88AF, 0xBE55D965, 0xBE4F31D1, 0xBE4891E1] ++
  [0xBE41F982, 0xBE3B68A5, 0xBE34DF38, 0xBE2E5D2A, 0xBE27E26A, 0xBE216EE9, 0xBE1B0297, 0xBE149D62,
   0xBE0E3F3C, 0xBE07E815, 0xBE0197DE, 0xBDF69D0F, 0xBDEA1805, 0xBDDDA081, 0xBDD13667, 0xBDC4D998,
   0xBDB889FA, 0xBDAC476F, 0xBDA011DC, 0xBD93E926, 0xBD87CD32, 0xBD777BC9, 0xBD5F7649, 0xBD4789AE,
   0xBD2FB5C5, 0xBD17FA5C, 0xBD005740, 0xBCD1987F, 0xBCA2B253, 0xBC67F738, 0xBC0AE7F4, 0xBB38D875]
/-- The entry with an index, as an exact value. -/
def tabVal (t : List W32) (i : Nat) : Fv := f32 (t.getD i 0)

/-- Round n / d to an integer, ties to even. -/
def divEven (n d : Nat) : Nat :=
  let q := n / d
  let r := n % d
  if d < 2 * r ∨ 2 * r = d ∧ q % 2 = 1 then q + 1 else q

/-- Reciprocal seed of index i with b significant bits: 1 / (1 + (2i + 1) / 2^b). -/
def rcpSeed (b i : Nat) : Fv := .fin false (divEven (2 ^ (2 * b)) (2 ^ b + 2 * i + 1)) (-(b : Int))

/-- The integer nearest to sqrt(n / d), found bit by bit downward. -/
def sqrtNear (n d : Nat) : Nat → Nat → Nat
  | 0, acc => acc
  | b + 1, acc =>
    let c := acc + 2 ^ b
    if (2 * c - 1) ^ 2 * d ≤ 4 * n then sqrtNear n d b c else sqrtNear n d b acc

/-- Reciprocal square root seed: 1 / sqrt(2^odd × (1 + (2j + 1) / 2^g)) with b significant bits. -/
def rsqrtSeed (b g odd j : Nat) : Fv :=
  .fin false (sqrtNear (2 ^ (2 * b + g)) (2 ^ odd * (2 ^ g + 2 * j + 1)) (b + 1) 0) (-(b : Int))

/-! ### Constants -/

def fone : Fv := .fin false 1 0
def fhalf : Fv := .fin false 1 (-1)
def ftwo : Fv := .fin false 2 0
def fzero : Fv := .fin false 0 0
def cLn2 : Fv := f32 0x3F317218
def cThird : Fv := f32 0x3EAAAAAB
def cInvLn2 : Fv := f32 0x3FB8AA3B
/-- L of R146: the FP32 value nearest to log2(e) less H. -/
def cExpL : Fv := f32 0x32A57060
def cComp8 : Fv := f32 0x3F800008
def cCompC : Fv := f32 0x3F80000C

/-! ### The functions -/

/-- The significand of a finite non-zero value as 24 bits with its leading bit, and its exponent (R141). -/
def mant24 (m : Nat) (e : Int) : Nat × Int := (m * 2 ^ (23 - m.log2), expOf m e)

/-- rcp (R143, R147, R158). -/
def frcp (sat compat : Bool) : Fv → Fv
  | .nan => .nan
  | .inf n => .fin n 0 0
  | .fin n 0 _ => .inf n
  | .fin n m e =>
    let (mm, ex) := mant24 m e
    let f := mm - 2 ^ 23
    let mv : Fv := .fin false mm (-23)
    let y0 := if compat then rcpSeed 9 (f / 2 ^ 15) else rcpSeed 13 (f / 2 ^ 11)
    let d0 := ffma sat mv.neg y0 fone
    let y1 := ffma sat y0 d0 y0
    let r := if compat then ffmas sat y1 cComp8 fzero (-ex)
      else let d1 := ffma sat mv.neg y1 fone; ffmas sat y1 d1 y1 (-ex)
    if n then r.neg else r

/-- rsqrt (R143, R147, R158). -/
def frsqrt (sat compat : Bool) : Fv → Fv
  | .nan => .nan
  | .inf n => if n then .nan else .fin false 0 0
  | .fin n 0 _ => .inf n
  | .fin true _ _ => .nan
  | .fin false m e =>
    let (mm, ex) := mant24 m e
    let f := mm - 2 ^ 23
    let odd := (ex % 2).toNat
    let mv : Fv := .fin false mm (-23 + odd)
    let k : Int := -((ex - odd) / 2)
    let y0 := if compat then rsqrtSeed 9 8 odd (f / 2 ^ 16) else rsqrtSeed 13 12 odd (f / 2 ^ 12)
    let t0 := fmul sat y0 y0
    let d0 := ffma sat mv.neg t0 fone
    let h0 := fmul sat fhalf y0
    let y1 := ffma sat h0 d0 y0
    if compat then ffmas sat y1 cCompC fzero k
    else
      let t1 := fmul sat y1 y1
      let d1 := ffma sat mv.neg t1 fone
      let h1 := fmul sat fhalf y1
      ffmas sat h1 d1 y1 k

/-- A finite value as an integer over 2^k. -/
def asFrac (n : Bool) (m : Nat) (e : Int) : Int × Nat :=
  let v : Int := if 0 ≤ e then (m : Int) * 2 ^ e.toNat else m
  (if n then -v else v, (-e).toNat)

/-- The steps of R144 from the line computing i: 2^(n + fr) with fr = p / 2^k, exact, in [0, 1). -/
def exp2Core (sat compat : Bool) (n : Int) (p : Int) (k : Nat) : Fv :=
  let g : Nat := if compat then 6 else 7
  let sc : Int := p * 2 ^ g
  let i := (sc / (2 ^ k : Int)).toNat
  let r : Fv := .fin false (sc % (2 ^ k : Int)).toNat (-((k : Int) + g))
  let y0 := tabVal etTab (if compat then 2 * i else i)
  let c := fmul sat r cLn2
  let d := fmul sat (fmul sat c c) (ffma sat c cThird.neg fhalf)
  let y1 := ffma sat y0 c y0
  ffmas sat y1 d y1 n

/-- What an overflow of a function is (R136). -/
def foverflow (sat : Bool) : Fv := fdec fp32 (fover fp32 sat false)

/-- exp2 (R144, R147). -/
def fexp2 (sat compat : Bool) : Fv → Fv
  | .nan => .nan
  | .inf n => if n then fzero else .inf false
  | .fin _ 0 _ => fone
  | .fin n m e =>
    let x : Fv := .fin n m e
    if !(x.lt (.fin false 128 0)) then foverflow sat
    else if x.lt (.fin true 151 0) then fzero
    else
      let (v, k) := asFrac n m e
      exp2Core sat compat (v / (2 ^ k : Int)) (v % (2 ^ k : Int)) k

/-- A Newton step of log2 (R145). -/
def logStep (sat compat : Bool) (m y : Fv) : Fv :=
  let z := fexp2 sat compat y.neg
  let d := ffma sat m z fone.neg
  ffma sat d cInvLn2 y

/-- log2 (R145, R147). -/
def flog2 (sat compat : Bool) : Fv → Fv
  | .nan => .nan
  | .inf n => if n then .nan else .inf false
  | .fin _ 0 _ => .inf true
  | .fin true _ _ => .nan
  | .fin false m e =>
    let (mm, ex) := mant24 m e
    let i := (mm - 2 ^ 23) / 2 ^ 16
    let (mv, ex) : Fv × Int := if 64 ≤ i then (.fin false mm (-24), ex + 1) else (.fin false mm (-23), ex)
    let y := if mm = 2 ^ 23 then fzero
      else logStep sat compat mv (logStep sat compat mv (tabVal ltTab i))
    fadd sat y (ofInteger ex)

/-- exp (R146, R147). -/
def fexp (sat compat : Bool) : Fv → Fv
  | .nan => .nan
  | .inf n => if n then fzero else .inf false
  | .fin _ 0 _ => fone
  | .fin n m e =>
    let x : Fv := .fin n m e
    let th := fmul sat x cInvLn2
    let tl := ffma sat x cExpL (ffma sat x cInvLn2 th.neg)
    if !(th.lt (.fin false 128 0)) then foverflow sat
    else if th.lt (.fin true 151 0) then fzero
    else match th with
      | .fin tn tm te =>
        let (v, k) := asFrac tn tm te
        let nn := v / (2 ^ k : Int)
        let diff : Fv := .fin false (v % (2 ^ k : Int)).toNat (-(k : Int))
        let fr := fadd sat diff tl
        let (fr, nn) := if fr.ltNum fzero then (fadd sat fr fone, nn - 1) else (fr, nn)
        let (fr, nn) := if !(fr.ltNum fone) then (fadd sat fr fone.neg, nn + 1) else (fr, nn)
        match fr with
        | .fin _ fm fe => let (p, q) := asFrac false fm fe; exp2Core sat compat nn p q
        | v => v
      | v => v

/-- sigmoid (R146, R147). -/
def fsigmoid (sat compat : Bool) (x : Fv) : Fv :=
  match x with
  | .nan => .nan
  | .inf n => if n then fzero else fone
  | .fin _ 0 _ => fhalf
  | .fin true _ _ =>
    let u := fexp sat compat x
    fmul sat u (frcp sat compat (fadd sat fone u))
  | .fin false _ _ => frcp sat compat (fadd sat fone (fexp sat compat x.neg))

/-- tanh (R146, R147). -/
def ftanh (sat compat : Bool) (x : Fv) : Fv :=
  match x with
  | .nan => .nan
  | .inf n => .fin n 1 0
  | .fin n 0 e => .fin n 0 e
  | .fin n m e =>
    let a : Fv := .fin false m e
    if a.lt (.fin false 1 (-12)) then x
    else if !(a.lt (.fin false 10 0)) then .fin n 1 0
    else
      let q := frcp sat compat (fadd sat (fexp sat compat (fmul sat ftwo a)) fone)
      let v := ffma sat ftwo.neg q fone
      match v with
      | .fin _ vm ve => .fin n vm ve
      | v => v

/-! ### Row sums, softmax, statistics (R149-R152) -/

/-- One level of the pairwise tree. -/
def pairUp (sat : Bool) : List Fv → List Fv
  | a :: b :: t => fadd sat a b :: pairUp sat t
  | l => l

/-- The pairwise tree over a group of 128, absent elements +0. -/
def groupTree (sat : Bool) (g : List Fv) : Fv :=
  let w := g ++ List.replicate (128 - g.length) fzero
  ((List.range 7).foldl (fun l _ => pairUp sat l) w).headD fzero

/-- Groups added in order onto a running total, which the first group replaces. -/
def sumGroups (sat : Bool) (tot : Option Fv) (gs : List (List Fv)) : Option Fv :=
  gs.foldl (fun t g => some (match t with | none => groupTree sat g | some v => fadd sat v (groupTree sat g))) tot

/-- fixed_sum (R149). -/
def fixedSum (sat : Bool) (v : List Fv) : Fv := (sumGroups sat none (chunksF 128 v.length v)).getD fzero

/-- Pass 3 of softmax for one element (R150, R158). -/
def smxStep (sat compat : Bool) (sum r ei : Fv) : Fv :=
  let q := fmul sat ei r
  if compat then q
  else let res := ffma sat q.neg sum ei; ffma sat res r q

/-- Division by a count with a residual correction (R152); by one that no FP32 value is, a free value. -/
def divCount (sat compat : Bool) (a : Fv) (n : Nat) : Fv :=
  match a with
  | .nan => .nan
  | .inf s => .inf s
  | _ =>
    let nv := rnd false (.fin false n 0)
    if nv.lt (.fin false n 0) || (Fv.fin false n 0).lt nv then f32 (Config.inexactQuotient (to32 sat a) n) else
    let r := frcp sat compat nv
    let q := fmul sat a r
    let res := ffma sat q.neg nv a
    ffma sat res r q

end Sys2Proof.Machine
end

