-- ==== Sys2Proof/WellFormed.lean ====
section
/-! DEFINITION. Which operands make a command of the table: where a rule fixes how many of a thing a command carries,
    a command that carries another number is none. Values that the BX64 answers with an error are all well formed. -/

namespace Sys2Proof

/-- How many routers a die has (R37, R413). -/
def dieRouters (d : Nat) : Nat :=
  if d < 4 then 16
  else if 8 ≤ d ∧ d < 96 then (if (d - 8) % 11 = 0 then 4 else 0)
  else if 96 ≤ d ∧ d < 100 then 4
  else if 100 ≤ d ∧ d < 104 then 2 else 0

/-- A probe of a router, a partition table of a die with routers; every other block is in the floor plan's range. -/
def Blk.wf : Blk → Bool
  | .probe d r => decide (r < dieRouters d)
  | .ptab d => dieRouters d != 0
  | _ => true

/-- An access carries as many bytes as it writes, and none when it writes none (R410). -/
def Req.wf (r : Req) : Bool :=
  match r.kind with
  | .write | .accum => r.data.length == r.len
  | _ => r.data.isEmpty

/-- One entry per lane of a port (R446). -/
def wf16 {α : Type} (l : List α) : Bool := l.length == 16

/-- A frame has 128 words and reads back as 128 words (R368). -/
def Frame.wf (f : Frame) : Bool := f.data.length == 128 && f.back.length == 128

/-- A link frame has a 16-byte header and a payload padded to a multiple of 16 (R464). -/
def LFrame.wf (f : LFrame) : Bool := f.hdr.length == 16 && f.pay.length % 16 == 0

/-- Word i of a list of bytes. -/
def wordAt (d : List Byte) (i : Nat) : Nat := leNat ((d.drop (4 * i)).take 4)

/-- A copy descriptor that is valid (R530): aligned addresses, LEN in its range, reserved bits 0. -/
def descOk (d : List Byte) : Bool :=
  wordAt d 0 % 64 == 0 && wordAt d 2 % 64 == 0 && wordAt d 3 < 2 ^ 19 && wordAt d 4 % 64 == 0 &&
  decide (64 ≤ wordAt d 4 ∧ wordAt d 4 ≤ 0x10000000) && wordAt d 5 < 2 ^ 16 && wordAt d 5 % 256 < 64 && wordAt d 6 == 0

/-- A copy descriptor is 32 bytes; its read of host memory, where it makes one, gives as many bytes as LEN says or one
    of the two host errors (R530). -/
def copyWf (d data : List Byte) (err : Option (BitVec 8)) : Bool :=
  d.length == 32 &&
  (match err with
   | some e => e == 0x80 || e == 0x81
   | none => !descOk d || wordAt d 3 / 2 ^ 16 % 2 == 1 || data.length == wordAt d 4)

/-- The operands have the shape their rule gives them. -/
def wellFormed : Instr → Bool
  | .blkctlRun b _ | .blkctlStop b _ | .blkctlStopnow b _ | .blkctlSoftrst b _ | .modeEpochDirectWrite b _ _
  | .blkpartWrite b _ _ | .blockStopped b => b.wf
  | .lrpop _ die _ => (Blk.ptab die.toNat).wf
  | .prclr _ die rtr _ => (Blk.probe die.toNat rtr.toNat).wf
  | .scratchRead r => r.wf && r.kind == .read
  | .scratchWrite r => r.wf && r.kind == .write
  | .scratchAccumulate r => r.wf && r.kind == .accum
  | .dramAccessRequest r => r.wf
  | .windowRequest r => r.wf
  | .fabricInitiatorRequest _ k _ len d _ _ _ _ =>
    match k with
    | .write | .accum => d.length == len
    | .read => d.isEmpty
    | _ => false
  | .trainingComplete _ _ eyes => eyes.length == 10
  | .frames fs => fs.all Frame.wf
  | .writeBack _ _ d => d.length == 64
  | .fillSet _ l | .align _ l _ | .ack _ l | .nak _ l | .credit _ l | .pause _ l | .eios _ l => wf16 l
  | .ts _ l _ => wf16 l && l.all wf16
  | .messageFrame _ f | .readRequestFrame _ f | .writeRequestFrame _ f | .readResponseFrame _ f
  | .writeCompletionFrame _ f => f.wf
  | .tempSample ts => ts.length == 104
  | .copyDescriptor _ d x e => copyWf d x e
  | .hostWrite _ _ _ d => !d.isEmpty
  | .hostRead _ _ _ len _ => 0 < len
  | _ => true

end Sys2Proof
end

