-- ==== Sys2Proof/Machine/Dram.lean ====
section
/-! DEFINITION. Stratus memory: the address map, windows, page-valid bitmap and fill tracker, channel queues and their
    order, the symbol code, freeze, refresh, training and the scrubber (R289-R319, R328-R330, R424). -/

namespace Sys2Proof.Machine

/-! ### Where an address lies (R297, R298) -/

/-- ILVGIB, held on the page-valid manager of stack 0 (R299). -/
def ilvGib (s : State) : Nat := bits (reg s (Blk.key (.pvm 0) + Rg.pvm.ILVCFG)) 5 0

/-- GiB of each stack in the local region, as bytes (Lg). -/
def localLen (s : State) : Nat := 2 ^ 35 - ilvGib s * 2 ^ 30

/-- Stack and stack-local address of a DRAM address (R297). -/
def dramMap (s : State) (a : Nat) : Fin 8 × Nat :=
  let lg := localLen s
  if 8 * lg ≤ a then
    let o := a - 8 * lg
    (fin 8 (o / 2 ^ 12), lg + (o / 2 ^ 15 * 2 ^ 12 + o % 2 ^ 12))
  else (fin 8 (a / lg), a % lg)

/-- The module address of a stack-local address: R297 read backwards. -/
def dramUnmap (s : State) (k : Fin 8) (l : Nat) : Nat :=
  let lg := localLen s
  if lg ≤ l then 8 * lg + ((l - lg) / 2 ^ 12 * 2 ^ 15 + k.val * 2 ^ 12 + l % 2 ^ 12) else k.val * lg + l

def locChan (l : Nat) : Fin 32 := fin 32 (l / 2 ^ 6)
def locBank (l : Nat) : Nat := l / 2 ^ 16 % 32 ^^^ l / 2 ^ 21 % 32
def locRow (l : Nat) : Nat := l / 2 ^ 21 % 2 ^ 14
def locPage (l : Nat) : Nat := l / 2 ^ 12 % 2 ^ 23
/-- The block within a page. -/
def locBlk (l : Nat) : Nat := l / 2 ^ 6 % 64

/-- An address of the DRAM space within its mapped range (R31). -/
def inDram (a : Nat) : Bool := decide (a < 2 ^ 38)

/-- The coherent system region (R33). -/
def sysBase : Nat := 0x3FFC000000
def inSys (a : Nat) : Bool := decide (sysBase ≤ a ∧ a < 2 ^ 38)

/-! ### The symbol code (R292, R293) -/

/-- Multiply by α. -/
def gfX (v : Nat) : Nat := (2 * v % 256) ^^^ (if 128 ≤ v % 256 then 0x1D else 0)

/-- Multiply by α^n. -/
def gfPow (v : Nat) : Nat → Nat
  | 0 => v
  | n + 1 => gfX (gfPow v n)

/-- The product of two elements. -/
def gfMul (a b : Nat) : Nat := (List.range 8).foldl (fun r i => if b.testBit i then r ^^^ gfPow a i else r) 0

/-- The inverse of α^8 + α^9. -/
def gfInv89 : Nat := 138

/-- S0 and S1 of a beat's symbols. -/
def syn0 (c : List Nat) : Nat := c.foldl (· ^^^ ·) 0
def syn1 (c : List Nat) : Nat := (List.range c.length).foldl (fun a j => a ^^^ gfPow (c.getD j 0) j) 0

/-- The check symbols c8 and c9 of eight data symbols. -/
def checkSyms (c : List Nat) : Nat × Nat :=
  let a := syn0 c
  let b := syn1 c
  let c9 := gfMul (b ^^^ gfPow a 8) gfInv89
  (a ^^^ c9, c9)

/-- How a beat decoded: 0 good, 1 corrected, 2 uncorrectable; the corrected core; the sums; its ten symbols then. -/
structure BeatR where
  st : Nat
  core : Nat
  s0 : Nat
  s1 : Nat
  sym : List Nat
  deriving DecidableEq, Repr

/-- Change symbol j of a list by x. -/
def xorAt (l : List Nat) (j x : Nat) : List Nat := l.set j (l.getD j 0 ^^^ x)

/-- Decode the ten symbols of a beat, under erasure of core f if given. -/
def decBeat (erase : Option Nat) (e : List Nat) : BeatR :=
  let s0 := syn0 e
  let s1 := syn1 e
  match erase with
  | some f =>
    if s1 = gfPow s0 f then ⟨0, f, s0, s1, xorAt e f s0⟩ else ⟨2, 0xF, s0, s1, e⟩
  | none =>
    if s0 = 0 ∧ s1 = 0 then ⟨0, 0, s0, s1, e⟩
    else match (List.range 10).find? (fun j => s0 != 0 && s1 == gfPow s0 j) with
      | some j => ⟨1, j, s0, s1, xorAt e j s0⟩
      | none => ⟨2, 0xF, s0, s1, e⟩

/-! ### Stored symbols (R290, R294): a data byte under key stack × 2^35 + local address, the two check symbols of a beat under
    keys from 2^38 on -/

def dramByte (s : State) (k : Fin 8) (l : Nat) : Byte := tget 0 s.dram (k.val * 2 ^ 35 + l)

def dramBytes (s : State) (k : Fin 8) (l n : Nat) : List Byte := (List.range n).map (fun i => dramByte s k (l + i))

/-- The key of check symbol 8 + j of the beat at l. -/
def chkKey (k : Fin 8) (l j : Nat) : Nat := 2 ^ 38 + (k.val * 2 ^ 32 + l / 8) * 2 + j

/-- The ten symbols stored for the beat at l. -/
def beatSyms (s : State) (k : Fin 8) (l : Nat) : List Nat :=
  (dramBytes s k (l / 8 * 8) 8).map (·.toNat) ++ [(tget 0 s.dram (chkKey k l 0)).toNat, (tget 0 s.dram (chkKey k l 1)).toNat]

/-- Store data bytes from l on. -/
def putSyms (s : State) (k : Fin 8) (l : Nat) : List Byte → State
  | [] => s
  | b :: t => putSyms { s with dram := tset 0 s.dram (k.val * 2 ^ 35 + l) b } k (l + 1) t

/-- Compute and store the check symbols of the n beats from beat number b on (R292). -/
def putChecks (k : Fin 8) (b : Nat) : Nat → State → State
  | 0, s => s
  | n + 1, s =>
    let c := checkSyms ((beatSyms s k (8 * b)).take 8)
    putChecks k (b + 1) n
      { s with dram := tset 0 (tset 0 s.dram (chkKey k (8 * b) 0) (BitVec.ofNat 8 c.1)) (chkKey k (8 * b) 1) (BitVec.ofNat 8 c.2) }

/-- A write: the data symbols, and the check symbols of every beat it touches (R292, R294). -/
def putDram (s : State) (k : Fin 8) (l : Nat) (d : List Byte) : State :=
  putChecks k (l / 8) ((l + d.length + 7) / 8 - l / 8) (putSyms s k l d)

/-- Symbols of the block at l become wrong in the array: the given bits of a symbol change, whatever is stored. DESIGN CHOICE
    (log entry 66): an error stays in the array until the symbol is written again. -/
def upsetBlk (s : State) (k : Fin 8) (l : Nat) (errs : List SymErr) : State :=
  errs.foldl (fun s x =>
    let at_ := l / 64 * 64 + 8 * x.beat.val
    let key := if x.core.val < 8 then k.val * 2 ^ 35 + at_ + x.core.val else chkKey k at_ (x.core.val - 8)
    { s with dram := tset 0 s.dram key (tget 0 s.dram key ^^^ x.bits) }) s

/-- The eight beats of the block at l, decoded under the channel's erasure. -/
def decBlk (s : State) (k : Fin 8) (erase : Option Nat) (l : Nat) : List BeatR :=
  (List.range 8).map (fun b => decBeat erase (beatSyms s k (l / 64 * 64 + 8 * b)))

/-- The data of a block as its beats decoded. -/
def blkData (bs : List BeatR) : List Byte := bs.flatMap (fun b => (b.sym.take 8).map (BitVec.ofNat 8))

/-! ### Windows (R424) -/

/-- The key of a window's registers on a stack's base die (R440). -/
def winKey (k w : Nat) : Nat := pageKey (8 + 11 * k) 0x011 + 0x80 + 0x10 * w

/-- First byte and length of a window. -/
def winRange (s : State) (k w : Nat) : Nat × Nat :=
  let b := winKey k w
  (bits (reg s b) 31 12 * 2 ^ 12 + bits (reg s (b + 4)) 5 0 * 2 ^ 32, bits (reg s (b + 8)) 26 0 * 2 ^ 12)

/-- A window permits an access. -/
def winPermits (s : State) (k : Nat) (p : BitVec 4) (write : Bool) (a len : Nat) (w : Nat) : Bool :=
  let c := reg s (winKey k w + 0xC)
  let (b, n) := winRange s k w
  c.getLsbD 4 && bits c 3 0 == p.toNat && c.getLsbD (if write then 6 else 5) && decide (b ≤ a ∧ a + len ≤ b + n)

/-- The windows of a base die let an initiator make an access. -/
def winOk (s : State) (k : Fin 8) (who : Init) (write : Bool) (a len : Nat) : Bool :=
  isOp who || (List.range 64).any (winPermits s k.val who.part write a len)

/-- Clear WIPED in a die's windows that are not enabled and contain a range. -/
def clearWiped (s : State) (k a len : Nat) : State :=
  (List.range 64).foldl (fun s w =>
    let c := winKey k w + 0xC
    let (b, n) := winRange s k w
    if !(reg s c).getLsbD 4 && (reg s c).getLsbD 8 && decide (b ≤ a ∧ a + len ≤ b + n) then setRegBit s c 8 false else s) s

/-- A write was accepted on stack k: WIPED clears there, and a message goes to the other seven dies (R424). -/
def wipeNote (s : State) (k : Fin 8) (a len : Nat) : State :=
  let t := clearWiped s k.val a len
  if t.regs = s.regs then s
  else (List.range 8).foldl (fun t j =>
    if j = k.val then t
    else { t with net := { t.net with wipes := tset [] t.net.wipes j (tget [] t.net.wipes j ++ [(a, len)]) } }) t

/-! ### Responses on the network (R408, R414) -/

/-- A response leaves a router for its initiator. -/
def sendResp (s : State) (src : Src) (req : Req) (die rtr : Nat) (reason : BitVec 8) (data : List Byte) : State :=
  if src = .nobody then s
  else
    let p : Pkt := { req, src, fromDie := BitVec.ofNat 7 die, fromRtr := BitVec.ofNat 4 rtr, dstDie := req.who.die,
                     dstRtr := req.who.rtr, die := BitVec.ofNat 7 die, rtr := BitVec.ofNat 4 rtr, inp := 0,
                     resp := some (reason, data), at_ := s.clock.now }
    { s with net := { s.net with pkts := s.net.pkts ++ [p] } }

/-! ### Channel log and counters -/

/-- The erased core of a channel. -/
def eraseOf (s : State) (k : Fin 8) (c : Fin 32) : Option Nat :=
  let e := reg s (Blk.key (.chan k c) + Rg.chan.ERASECTL)
  if e.getLsbD 4 then some (bits e 3 0) else none

/-- The block at l as its channel decodes it (R293). -/
def decAt (s : State) (k : Fin 8) (l : Nat) : List BeatR := decBlk s k (eraseOf s k (locChan l)) l

/-- Log an error of a channel (R329). -/
def chanLog (s : State) (k : Fin 8) (c : Fin 32) (code core beat l s0 s1 : Nat) (who : Option Init) : State :=
  logE s (Blk.key (.chan k c)) (w32 (code + core * 2 ^ 8 + beat * 2 ^ 12)) (w32 l)
    (w32 (l / 2 ^ 32 % 8 + s0 * 2 ^ 8 + s1 * 2 ^ 16))
    (match who with
     | none => 0
     | some i => w32 (i.part.toNat + i.die.toNat * 2 ^ 8 + b2n i.op * 2 ^ 15))

/-- Count the corrections of a burst: CORRCORE per beat, the given counter once, the pulse, and the log under LOGCORR. -/
def chanCorr (s : State) (k : Fin 8) (c : Fin 32) (cnt l : Nat) (bs : List BeatR) (who : Option Init) : State :=
  let key := Blk.key (.chan k c)
  match (bs.zipIdx.filter (fun x => x.1.st == 1)) with
  | [] => s
  | (b0, i0) :: _ =>
    let s := bs.foldl (fun s b => if b.st = 1 then bump s (key + Rg.chan.CORRCORE + 4 * b.core) else s) s
    let s := pulse (bump s (key + cnt)) key 1
    if regBit s (key + Rg.chan.CHCTL) 1 then chanLog s k c 0x04 b0.core i0 l b0.s0 b0.s1 who else s

/-- The first uncorrectable beat of a burst. -/
def firstBad (bs : List BeatR) : Option (BeatR × Nat) := bs.zipIdx.find? (fun x => x.1.st == 2)

/-- Whether a write covers part of a beat (R300). -/
def partBeat (l len : Nat) : Bool := l % 8 != 0 || len % 8 != 0

/-! ### Slots and DRAM commands (R303, R304, R328, R429) -/

/-- The partition that the DRAM slot of a moment is reserved for: 16 slots of 64 ns. DESIGN CHOICE (log entry 66): frames begin
    at multiples of 1,024 ns of the module timebase. -/
def dslot (s : State) (k : Fin 8) (t : Nat) : Option (BitVec 4) :=
  slotOwner s (8 + 11 * k.val) Rg.ptab.DSLOT Rg.ptab.DSLOTV (t / 64 % 16)

/-- A reserved slot began or ended after one moment and up to another: every row is closed (R304, R429). -/
def slotEdge (s : State) (k : Fin 8) (from_ till : Nat) : Bool :=
  (List.range (min (till / 64 - from_ / 64) 17)).any (fun i =>
    (dslot s k ((till / 64 - i) * 64)).isSome || (dslot s k ((till / 64 - i) * 64 - 1)).isSome)

/-- The rows that are open in a channel: bank to row + 1. -/
def openRows (s : State) (k : Fin 8) (x : Chan) : Tab Nat := if slotEdge s k x.rowsAt.toNat (now s) then [] else x.openRow

/-- Nanoseconds that an access needs (R304). The spec gives them for reads; a write is taken alike (log entry 66). -/
def accNs (rows : Tab Nat) (l : Nat) : Nat :=
  let r := tget 0 rows (locBank l)
  if r = locRow l + 1 then 34 else if r = 0 then 48 else 62

/-- An access may be issued now: in a slot of its partition, or in an unreserved one if its partition is not in fixed-share
    mode; and it ends before a reserved slot ends or begins (R303, R429). -/
def slotTakes (s : State) (k : Fin 8) (x : Chan) (q : QAcc) : Bool :=
  let t := now s
  let p := q.req.who.part
  dslot s k t == (if fixedShare s (8 + 11 * k.val) p then some p else none) &&
    ((dslot s k t).isNone && (dslot s k (t + 64)).isNone || decide (accNs (openRows s k x) q.loc + t % 64 ≤ 64))

/-- Block of a local address within its row. -/
def locCol (l : Nat) : Nat := l / 2 ^ 11 % 32

/-- A channel issues DRAM commands, oldest first. -/
def cmdNote (s : State) (k : Fin 8) (c : Fin 32) (l : List (Nat × Option Nat)) : State :=
  updChan s k c (fun x => { x with cmds := (l.reverse ++ x.cmds).take 8 })

/-- The commands that an access with n bursts takes: another row of its bank closed, its row opened, its bursts. PRESUMED (log
    entry 66): the spec does not list a DRAM's commands. -/
def accCmds (rows : Tab Nat) (l n : Nat) : List (Nat × Option Nat) :=
  let b := locBank l
  let r := tget 0 rows b
  (if r ≠ 0 ∧ r ≠ locRow l + 1 then [(b, none)] else []) ++ (if r = locRow l + 1 then [] else [(b, some (locRow l))]) ++
    List.replicate n (b, some (locCol l))

/-- An access opens its row, which stays open (R304). -/
def openRowOf (s : State) (k : Fin 8) (c : Fin 32) (l n : Nat) : State :=
  let rows := openRows s k (chan s k c)
  updChan (cmdNote s k c (accCmds rows l n)) k c (fun x =>
    { x with openRow := tset 0 rows (locBank l) (locRow l + 1), rowsAt := s.clock.now })

/-! ### Performing an access -/

/-- Perform a read or write at local address l, with the symbol errors that its block has met: reason and data. A fill write
    counts nowhere (R328). -/
def dramPerform (s : State) (k : Fin 8) (r : Req) (l : Nat) (fill : Bool) (errs : List SymErr) : BitVec 8 × List Byte × State :=
  let c := locChan l
  let key := Blk.key (.chan k c)
  let rmw := r.kind != .read && partBeat l r.len
  let s := upsetBlk (openRowOf s k c l (if rmw then 2 else 1)) k l errs
  let blk := l / 64 * 64
  let bs := decAt s k l
  if r.kind = .read then
    let s := bump s (key + Rg.chan.RDCNT)
    match firstBad bs with
    | some (b, _) =>
      let s := chanLog s k c 0x01 0xF 0 l b.s0 b.s1 (some r.who)
      (Rsn.uncorr, [], pulse (bump s (key + Rg.chan.UNCCNT)) key 0)
    | none =>
      let s := chanCorr s k c Rg.chan.DEMCORR l bs (some r.who)
      let s := if bs.any (fun b => b.st == 1) && regBit s (key + Rg.chan.CHCTL) 0 then noteWb s k c blk else s
      (Rsn.ok, (blkData bs).drop (l % 64) |>.take r.len, s)
  else if rmw then
    let s := bump s (key + Rg.chan.RMWCNT)
    match firstBad bs with
    | some (b, _) =>
      let s := chanLog s k c 0x02 0xF 0 l b.s0 b.s1 (some r.who)
      (Rsn.uncorr, [], pulse (bump s (key + Rg.chan.UNCCNT)) key 0)
    | none =>
      let s := chanCorr s k c Rg.chan.DEMCORR l bs (some r.who)
      (Rsn.ok, [], putDram (putDram s k blk (blkData bs)) k l r.data)
  else (Rsn.ok, [], putDram (if fill then s else bump s (key + Rg.chan.WRCNT)) k l r.data)
where
  /-- A corrected block is to be written back (R312). -/
  noteWb (s : State) (k : Fin 8) (c : Fin 32) (blk : Nat) : State :=
    updChan s k c (fun x => { x with wbs := if x.wbs.contains blk then x.wbs else x.wbs ++ [blk] })

/-! ### The order of a bank's accesses (R302) -/

/-- A write that reaches a block drops its pending write-back (R312). -/
def dropDramWb (s : State) (k : Fin 8) (l : Nat) : State :=
  updChan s k (locChan l) (fun x => { x with wbs := x.wbs.filter (fun b => b != l / 64 * 64) })

/-- Bank accesses of a channel's queue. -/
def bankQ (q : List QAcc) (b : Nat) : List QAcc := q.filter (fun x => locBank x.loc == b)

/-- A read that arrives behind a pending write of its row puts the bank in order up to the youngest such write (R302). -/
def noteOrder (s : State) (k : Fin 8) (l : Nat) (read : Bool) : State :=
  let c := locChan l
  let b := locBank l
  let x := chan s k c
  let pos := ((bankQ x.queue b).zipIdx.filter (fun e => e.1.req.kind != .read && locRow e.1.loc == locRow l)).map (·.2 + 1)
  match read, pos.getLast? with
  | true, some n =>
    let old := tget 0 x.inorder b
    let s := updChan s k c (fun x => { x with inorder := tset 0 x.inorder b (max old n) })
    if old = 0 then bump s (Blk.key (.chan k c) + Rg.chan.INORDCNT) else s
  | _, _ => s

/-- A queued access may go before those that arrived earlier: a write not before an earlier write of its bank, nor
    before an earlier access to its row. -/
def mayGo (before : List QAcc) (x : QAcc) : Bool :=
  let same := bankQ before (locBank x.loc)
  if x.req.kind = .read then true
  else same.all (fun y => y.req.kind == .read && locRow y.loc != locRow x.loc)

/-- The accesses of a queue with those before each. -/
def withBefore (q : List QAcc) : List (List QAcc × QAcc) := q.zipIdx.map (fun (x, i) => (q.take i, x))

/-- The next access of a bank among those that may be issued: in order, or one that has waited 1 µs, or a row hit, or the
    oldest. -/
def nextOfBank (s : State) (x : Chan) (rows : Tab Nat) (q : List QAcc) (b : Nat) : Option QAcc :=
  let mine := bankQ q b
  match mine with
  | [] => none
  | o :: _ =>
    if tget 0 x.inorder b ≠ 0 then some o
    else if 1000 ≤ now s - o.arrived.toNat then some o
    else
      let ok := (withBefore mine).filter (fun e => mayGo e.1 e.2)
      match ok.find? (fun e => locRow e.2.loc + 1 == tget 0 rows b) with
      | some e => some e.2
      | none => some o

/-- The next access of a channel: of those that the slot of this moment lets be issued, that of the bank of the oldest (DESIGN
    CHOICE, log entry 5: banks are not ordered against each other). -/
def nextAcc (s : State) (k : Fin 8) (x : Chan) : Option QAcc :=
  let q := x.queue.filter (slotTakes s k x)
  match q with
  | [] => none
  | o :: _ => nextOfBank s x (openRows s k x) q (locBank o.loc)

/-- Remove one access from a channel's queue; one of those that must go in order counts down. -/
def takeAcc (s : State) (k : Fin 8) (c : Fin 32) (q : QAcc) : State :=
  updChan s k c (fun x =>
    let b := locBank q.loc
    let n := tget 0 x.inorder b
    { x with queue := x.queue.erase q,
             inorder := if (bankQ x.queue b).idxOf q < n then tset 0 x.inorder b (n - 1) else x.inorder })

/-- Perform a queued access and answer its requester, if it has no answer yet. -/
def performQ (s : State) (k : Fin 8) (c : Fin 32) (q : QAcc) (errs : List SymErr) : State :=
  let s := takeAcc s k c q
  let (rsn, d, s) := dramPerform s k q.req q.loc q.fill errs
  let s := respErr s (8 + 11 * k.val) rsn
  if q.acked then s else sendResp s q.src q.req (8 + 11 * k.val) (c.val / 8) rsn d

/-- Perform the queued accesses of one bank in order: an access made at once by a unit comes after them (R302). -/
def flushBank (s : State) (k : Fin 8) (l : Nat) : State :=
  let c := locChan l
  (bankQ (chan s k c).queue (locBank l)).foldl (fun s q => performQ s k c q []) s

/-! ### The page-valid manager (R307, R308) -/

def pvKey (k : Fin 8) (page : Nat) : Nat := k.val * 2 ^ 23 + page

def pageValid (s : State) (k : Fin 8) (page : Nat) : Bool := tget false s.pv (pvKey k page)

/-- The fill entry of a page. -/
def fillOf (s : State) (k : Fin 8) (page : Nat) : Option FillEnt := (stack s k).fills.find? (fun e => e.page == page)

/-- Mark a block of a page filled; the entry is released with FILLCNT when all 64 are (R308). -/
def markFilled (s : State) (k : Fin 8) (page b : Nat) : State :=
  let fs := (stack s k).fills.map (fun e => if e.page = page then { e with mask := e.mask ||| BitVec.ofNat 64 (2 ^ b) } else e)
  let full := fs.any (fun e => e.page == page && e.mask == BitVec.allOnes 64)
  let s := watched [(.pvm k, 0)]
    (fun s => updStack s k (fun x => { x with fills := fs.filter (fun e => !(e.page == page && e.mask == BitVec.allOnes 64)) })) s
  if full then bump s (Blk.key (.pvm k) + Rg.pvm.FILLCNT) else s

/-- The lowest unfilled block of an entry. -/
def fillNext (e : FillEnt) : Option Nat := (List.range 64).find? (fun b => !e.mask.getLsbD b)

/-- The channel of an address takes a new access: neither frozen nor failed nor STOPPED, and not full (R301, R313, R328). -/
def chanOpen (s : State) (k : Fin 8) (l : Nat) : Bool :=
  let c := locChan l
  !chanFault s k c && isGoing s (.chan k c) && decide ((chan s k c).queue.length < 128)

/-- Put an access into its channel's queue. -/
def enqueue (s : State) (k : Fin 8) (q : QAcc) : State :=
  let s := noteOrder s k q.loc (q.req.kind == .read)
  let s := if q.req.kind = .read then s else dropDramWb s k q.loc
  updChan s k (locChan q.loc) (fun x => { x with queue := x.queue ++ [q] })

/-- A write of zeros by the fill tracker, for the partition whose first write allocated the entry. -/
def fillReq (s : State) (k : Fin 8) (e : FillEnt) (l : Nat) : Req :=
  { who := baseInit k 0 e.part 0, kind := .write, addr := BitVec.ofNat 48 (dramUnmap s k l), len := 64, data := List.replicate 64 0,
    cnt := none, sat := false, coh := false }

/-- One fill write of an entry: zeros into its lowest unfilled block, queued in the block's channel as any write; the block is
    filled once the channel has accepted it (R302, R308). -/
def fillOne (s : State) (k : Fin 8) (e : FillEnt) : State :=
  match fillNext e with
  | none => s
  | some b =>
    let l := e.page * 2 ^ 12 + b * 64
    if chanOpen s k l then
      markFilled (enqueue s k { req := fillReq s k e l, src := .nobody, loc := l, arrived := s.clock.now, acked := true, fill := true })
        k e.page b
    else s

/-- Every remaining fill write of an entry, made at once: a unit's own first write, which is one step, waits for it. -/
def fillAll (s : State) (k : Fin 8) (e : FillEnt) : State :=
  (List.range 64).foldl (fun s b =>
    let l := e.page * 2 ^ 12 + b * 64
    match fillOf s k e.page with
    | some e =>
      if e.mask.getLsbD b then s
      else markFilled (dramPerform (flushBank s k l) k (fillReq s k e l) l true []).2.2 k e.page b
    | none => s) s

/-- Fixed-share partitions of a base die. -/
def fixedCount (s : State) (k : Fin 8) : Nat := ones16 (regN s (Blk.key (.ptab (8 + 11 * k.val)) + Rg.ptab.PTMODE))
where
  /-- Bits set among sixteen. -/
  ones16 (v : Nat) : Nat := ((List.range 16).filter v.testBit).length

/-- The entry whose release a first write of partition p waits for, if the tracker has no place for it: three entries
    per fixed-share partition, the rest for the others (R429). -/
def fillWaitFor (s : State) (k : Fin 8) (p : BitVec 4) : Option FillEnt :=
  let die := 8 + 11 * k.val
  let fs := (stack s k).fills
  if fixedShare s die p then
    let mine := fs.filter (fun e => e.part == p)
    if 3 ≤ mine.length then mine.head? else none
  else
    let rest := fs.filter (fun e => !fixedShare s die e.part)
    if 64 - 3 * fixedCount s k ≤ rest.length then rest.head? else none

/-- Allocate a fill entry for the first write of a page. -/
def fillAlloc (s : State) (k : Fin 8) (p : BitVec 4) (page : Nat) : State :=
  let s := { s with pv := tset false s.pv (pvKey k page) true }
  watched [(.pvm k, 0)] (fun s => updStack s k (fun x => { x with fills := x.fills ++ [{ page, mask := 0, part := p }] })) s

/-- A read that the manager answers with zeros: its page is invalid, or its block not yet filled (R307, R308). -/
def readsZero (s : State) (k : Fin 8) (l : Nat) : Bool :=
  !pageValid s k (locPage l) || match fillOf s k (locPage l) with | some e => !e.mask.getLsbD (locBlk l) | none => false

/-- What the manager makes of an access at a local address: answered with zeros, or passed to the channel, a write of
    part of an unfilled block as a write of the block merged with zeros. -/
def pvPass (s : State) (k : Fin 8) (r : Req) (l : Nat) : Option (Req × Nat) × State :=
  let page := locPage l
  let b := locBlk l
  if r.kind = .read then (if readsZero s k l then none else some (r, l), s)
  else
    let s := if pageValid s k page then s else fillAlloc s k r.who.part page
    match fillOf s k page with
    | none => (some (r, l), s)
    | some e =>
      if e.mask.getLsbD b then (some (r, l), s)
      else
        let off := l % 64
        let d := List.replicate off 0 ++ r.data ++ List.replicate (64 - off - r.data.length) 0
        (some ({ r with len := 64, data := d }, l / 64 * 64), markFilled s k page b)

/-! ### Checks at a base die (R301, R307, R311, R313, R417) -/

/-- The reason an access meets at the manager and its channel, 0 if none. A read that the manager answers reaches no channel
    (R307); a write that its channel refuses changes nothing, its page's bit neither (DEDUCED, log entry 66). -/
def stackCheck (s : State) (k : Fin 8) (read : Bool) (l : Nat) : BitVec 8 :=
  let c := locChan l
  if !isGoing s (.pvm k) then Rsn.stopped
  else if read && readsZero s k l then Rsn.ok
  else if chanFault s k c then Rsn.frozen
  else if !isGoing s (.chan k c) then Rsn.stopped
  else Rsn.ok

/-- A refused access: logged by a frozen channel (R313, R329), counted by the die that refuses (R418). -/
def dramRefuse (s : State) (r : Req) (c : BitVec 8) : State :=
  let (k, l) := dramMap s r.addr.toNat
  let s := if c = Rsn.frozen ∧ (chan s k (locChan l)).frozen.isSome then chanLog s k (locChan l) 0x09 0xF 0 l 0 0 (some r.who) else s
  respErr s (if c = Rsn.unmapped then r.who.die.toNat else 8 + 11 * k.val) c

/-- An access made and answered at once, after the accesses queued for its bank: reason, data, state. A first write for which
    the tracker has no entry waits for the oldest; the nanoseconds are not stated for a step that waits (free value). -/
def stackNow (s : State) (k : Fin 8) (r : Req) (l : Nat) : BitVec 8 × List Byte × State :=
  let s := match (if r.kind = .read ∨ pageValid s k (locPage l) then none else fillWaitFor s k r.who.part) with
    | some e =>
      let (v, s) := draw s
      bump (fillAll s k e) (Blk.key (.pvm k) + Rg.pvm.FILLWAIT) (v.toNat % 2 ^ 32)
    | none => s
  match pvPass s k r l with
  | (none, s) => (0, List.replicate r.len 0, s)
  | (some (r', l'), s) =>
    let s := flushBank s k l'
    let s := if r.kind = .read then s else dropDramWb s k l'
    let (rsn, d, s) := dramPerform s k r' l' false []
    (rsn, d, respErr s (8 + 11 * k.val) rsn)

/-! ### Cached copies of the system region (R425): key line × 32 + agent -/

def agentIdx : Agent → Nat
  | .core k => k.val
  | .region r => 4 + r.val

def sysLine (a : Nat) : Nat := (a - sysBase) / 64

/-- A line's access to its home by an initiator, coherent: refused as any access of the stack (R311), else made at once. -/
def lineAcc (s : State) (who : Init) (line : Nat) (kind : Kind) (d : List Byte) : BitVec 8 × List Byte × State :=
  let a := sysBase + 64 * line
  let (k, l) := dramMap s a
  let r : Req := { who, kind, addr := BitVec.ofNat 48 a, len := 64, data := d, cnt := none, sat := false, coh := true }
  let c := stackCheck s k (kind == .read) l
  if c ≠ 0 then (c, [], dramRefuse s r c) else stackNow s k r l

/-- An agent's request for a line's data is served, or refused without a copy. -/
def lineRefused (s : State) (line : Nat) : Bool :=
  let (k, l) := dramMap s (sysBase + 64 * line)
  stackCheck s k true l != 0

/-- Store a line to DRAM for its home; whether it was stored, and the state. -/
def putLine (s : State) (line : Nat) (d : List Byte) : Bool × State :=
  let (k, _) := dramMap s (sysBase + 64 * line)
  let (c, _, s) := lineAcc s (baseInit k 0 0 3) line .write d
  (c == 0, s)

/-- An agent's copy of a line. -/
def copyOf (s : State) (line i : Nat) : Option Mesi := s.net.dir.lookup (line * 32 + i)
/-- The 64 bytes of it. -/
def copyData (s : State) (line i : Nat) : List Byte :=
  (((s.net.cache.lookup (line * 32 + i)).getD []) ++ List.replicate 64 0).take 64

/-- Drop an agent's copy. -/
def dropCopy (s : State) (line i : Nat) : State :=
  let p (x : Nat) : Bool := x == line * 32 + i
  { s with net := { s.net with dir := tdrop p s.net.dir, cache := tdrop p s.net.cache } }

/-- Put a key into a table that lists what is held. -/
def tput {α : Type} (k : Nat) (v : α) : Tab α → Tab α
  | [] => [(k, v)]
  | (k', w) :: t => if k < k' then (k, v) :: (k', w) :: t else if k = k' then (k, v) :: t else (k', w) :: tput k v t

/-- Give an agent a copy with its data. -/
def setCopy (s : State) (line i : Nat) (m : Mesi) (d : List Byte) : State :=
  { s with net := { s.net with dir := tput (line * 32 + i) m s.net.dir, cache := tput (line * 32 + i) d s.net.cache } }

/-- An agent takes a copy of a line from DRAM; none where the access meets an error. -/
def bringLine (s : State) (who : Init) (line i : Nat) (m : Mesi) : State :=
  let (c, d, s) := lineAcc s who line .read []
  if c = 0 then setCopy s line i m d else s

/-- Write an agent's Modified copy of a line to DRAM; the copy becomes Shared. -/
def wbCopy (s : State) (line i : Nat) : State :=
  if copyOf s line i = some .modified then
    let d := copyData s line i
    let (ok, s) := putLine s line d
    if ok then setCopy s line i .shared d else s
  else s

/-- The agents that hold a line. -/
def holders (s : State) (line : Nat) : List Nat := (s.net.dir.filter (fun e => e.1 / 32 == line)).map (fun e => e.1 % 32)

/-- Modified data on its way home in snoop replies reaches DRAM. -/
def landReplies (s : State) (line : Nat) : State :=
  s.net.snoops.foldl (fun s q => match q.data with
    | some d => if q.line = line then (putLine s line d).2 else s
    | none => s) s

/-- The non-coherent rule: a write invalidates every copy, a read finds a Modified copy written back. -/
def cohSync (s : State) (a : Nat) (write : Bool) : State :=
  if !inSys a then s
  else
    let line := sysLine a
    let s := landReplies s line
    (holders s line).foldl (fun s i => let s := wbCopy s line i; if write then dropCopy s line i else s) s

/-! ### Accepting accesses (R300, R301, R311, R313, R417) -/

/-- The reason a DRAM access meets before the page-valid manager takes it, 0 if none. -/
def dramCheck (s : State) (r : Req) : BitVec 8 :=
  let a := r.addr.toNat
  let (k, l) := dramMap s a
  if !winOk s k r.who (r.kind != .read) a r.len then Rsn.partition
  else if resetting s (.pvm k) then Rsn.resetAbort
  else if !(4 ≤ r.len && r.len ≤ 64 && r.len % 4 == 0 && a % 4 == 0 && a % 64 + r.len ≤ 64) then Rsn.unmapped
  else if (r.kind != .read && r.kind != .write) || r.cnt.isSome then Rsn.unmapped
  else stackCheck s k (r.kind == .read) l

/-- Why a request that passes its checks waits at its base die: `some true` for a fill-tracker entry (R308), `some false` for
    room in its channel (R301). -/
def mustWait (s : State) (k : Fin 8) (r : Req) (l : Nat) : Option Bool :=
  if r.kind = .read then (if readsZero s k l || chanOpen s k l then none else some false)
  else if !pageValid s k (locPage l) && (fillWaitFor s k r.who.part).isSome then some true
  else if chanOpen s k l then none else some false

/-- Take an access that passes its checks: answered by the page-valid manager, or queued in its channel, which acknowledges a
    write of whole beats at once (R301). One that is a read-modify-write is answered when it is performed, since R312 may
    refuse it (DEDUCED, log entry 66). -/
def dramTake (s : State) (src : Src) (r : Req) : State :=
  let (k, _) := dramMap s r.addr.toNat
  let die := 8 + 11 * k.val
  let write := r.kind != .read
  let s := cohSync s r.addr.toNat write
  let s := if write then wipeNote s k r.addr.toNat r.len else s
  let (_, l) := dramMap s r.addr.toNat
  match pvPass s k r l with
  | (none, s) => sendResp s src r die 0 0 (List.replicate r.len 0)
  | (some (r', l'), s) =>
    let ack := write && !partBeat l' r'.len
    let s := enqueue s k { req := r', src := if ack then .nobody else src, loc := l', arrived := s.clock.now, acked := ack, fill := false }
    if ack then sendResp s src r die ((locChan l').val / 8) 0 [] else s

/-- A request reaches its base die: refused, made to wait, or taken. `rtr` is the router that answers. -/
def dramAccept (s : State) (src : Src) (r : Req) : State :=
  let (k, l) := dramMap s r.addr.toNat
  let c := dramCheck s r
  if c ≠ 0 then sendResp (dramRefuse s r c) src r (8 + 11 * k.val) 0 c []
  else match mustWait s k r l with
    | some fill => updStack s k (fun x => { x with waits := x.waits ++ [{ req := r, src, since := s.clock.now, fill }] })
    | none => dramTake s src r

/-- Requests that wait at a base die and need no longer do so go on, in the order they came; the time that a first write
    waited for an entry is counted. The fuel is their number. -/
def waitPump (k : Fin 8) : Nat → State → State
  | 0, s => s
  | f + 1, s =>
    match (stack s k).waits.find? (fun w => dramCheck s w.req != 0 || (mustWait s k w.req (dramMap s w.req.addr.toNat).2).isNone) with
    | none => s
    | some w =>
      let s := updStack s k (fun x => { x with waits := x.waits.erase w })
      let s := if w.fill then bump s (Blk.key (.pvm k) + Rg.pvm.FILLWAIT) (now s - w.since.toNat) else s
      waitPump k f (dramAccept s w.src w.req)

/-- A change to a stack, after which the requests that wait there are looked at again. -/
def stackDo (k : Fin 8) (f : State → State) (s : State) : State :=
  let s := f s
  waitPump k (stack s k).waits.length s

def execDramAccessRequest (r : Req) (s : State) : Out :=
  actIf (wellFormed (.dramAccessRequest r))
    (fun s => if inDram r.addr.toNat then dramAccept s .nobody r else respErr s r.who.die.toNat Rsn.unmapped) s

/-- A DRAM access made and answered at once: reason, data, state. -/
def dramNow (s : State) (r : Req) : BitVec 8 × List Byte × State :=
  let (k, _) := dramMap s r.addr.toNat
  let c := dramCheck s r
  if c ≠ 0 then (c, [], dramRefuse s r c)
  else
    let write := r.kind != .read
    let s := cohSync s r.addr.toNat write
    let s := if write then wipeNote s k r.addr.toNat r.len else s
    stackNow s k r (dramMap s r.addr.toNat).2

/-! ### Freeze (R313) -/

/-- FRZCMD0-7: bank, and row or block, of the last eight commands; the command codes are not given, nor what stands in a field
    that a command does not have (free values, log entry 3). -/
def frzCmds (s : State) (k : Fin 8) (c : Fin 32) : State :=
  ((chan s k c).cmds.take 8).zipIdx.foldl (fun s ((b, x), i) =>
    let (v, s) := draw s
    let row := match x with | some n => n | none => v.toNat / 16
    setReg s (Blk.key (.chan k c) + Rg.chan.FRZCMD + 4 * i) (w32 (v.toNat % 16 + b % 32 * 2 ^ 4 + row % 2 ^ 14 * 2 ^ 9))) s

/-- Freeze a channel with an access held at the head of its queue. -/
def freeze (s : State) (k : Fin 8) (c : Fin 32) (cause : Frz) (code : Nat) (held : Option QAcc) (b : Option (BeatR × Nat)) : State :=
  let key := Blk.key (.chan k c)
  let l := match held with | some q => q.loc | none => 0
  let (s0, s1, bt) := match b with | some (x, i) => (x.s0, x.s1, i) | none => (0, 0, 0)
  let q := match held with | some q => q :: (chan s k c).queue.erase q | none => (chan s k c).queue
  let s := updChan s k c (fun x => { x with frozen := some cause, frozenAt := s.clock.now, queue := q })
  let n := (chan s k c).queue.length
  let s := setReg s (key + Rg.chan.FRZCAUSE) (w32 ((match cause with | .parity => 1 | .uncorrectable => 2) + min n 128 * 2 ^ 8))
  let s := setReg s (key + Rg.chan.FRZSYN) (w32 (s0 + s1 * 2 ^ 8 + bt * 2 ^ 16))
  let s := setReg (setReg s (key + Rg.chan.FRZADDR) (w32 l)) (key + Rg.chan.FRZADDRH) (w32 (l / 2 ^ 32 % 8))
  let s := frzCmds s k c
  let s := chanLog s k c code 0xF 0 l s0 s1 (if code = 0x05 then none else held.map (·.req.who))
  partFault s (8 + 11 * k.val) 0

/-- An access whose burst is decoded: a read or a read-modify-write. -/
def decodes (q : QAcc) : Bool := q.req.kind == .read || partBeat q.loc q.req.len

/-- DRAM_ACCESS_PERFORM: the next access of a channel, with the symbol errors its block has met (R302, R312, R313). -/
def accPerform (k : Fin 8) (c : Fin 32) (errs : List SymErr) (s : State) : State :=
  let x := chan s k c
  if chanFault s k c || x.training then s
  else match nextAcc s k x with
    | none => s
    | some q =>
      let w := upsetBlk s k q.loc errs
      match decodes q && regBit s (Blk.key (.chan k c) + Rg.chan.CHCTL) 2, firstBad (decAt w k q.loc) with
      | true, some b => freeze (openRowOf w k c q.loc 1) k c .uncorrectable 0x06 (some q) (some b)
      | _, _ => performQ s k c q errs

def chanPages (k : Fin 8) (c : Fin 32) : List (Blk × Nat) := blkPages (.chan k c)

def execDramAccessPerform (k : Fin 8) (c : Fin 32) (errs : List SymErr) (s : State) : Out :=
  act (watched (chanPages k c) (stackDo k (accPerform k c errs))) s

/-- CA_PARITY_ERROR (R313): the access in hand is held; its command is the last one issued. -/
def caParity (k : Fin 8) (c : Fin 32) (s : State) : State :=
  let x := chan s k c
  let q := nextAcc s k x
  if chanFault s k c then s
  else freeze (match q with | some q => cmdNote s k c ((accCmds (openRows s k x) q.loc 1).take 1) | none => s) k c .parity 0x05 q none

def execCaParityError (k : Fin 8) (c : Fin 32) (s : State) : Out := act (watched (chanPages k c) (stackDo k (caParity k c))) s

/-- Answer every held access FROZEN. -/
def discardHeld (s : State) (k : Fin 8) (c : Fin 32) : State :=
  let q := (chan s k c).queue
  let s := updChan s k c (fun x => { x with queue := [], inorder := [] })
  q.foldl (fun s a => if a.acked then s
    else sendResp (respErr s (8 + 11 * k.val) Rsn.frozen) a.src a.req (8 + 11 * k.val) (c.val / 8) Rsn.frozen []) s

/-- FRZCTL RESUME: held accesses are performed from the head; one held for a data error is answered as R312 states. -/
def frzResume (k : Fin 8) (c : Fin 32) (s : State) : State :=
  let x := chan s k c
  match x.frozen with
  | none => s
  | some f =>
    let s := updChan s k c (fun x => { x with frozen := none })
    match f, x.queue with
    | .uncorrectable, q :: _ =>
      let key := Blk.key (.chan k c)
      let syn := reg s (key + Rg.chan.FRZSYN)
      let rd := q.req.kind == .read
      let s := takeAcc s k c q
      let s := bump s (key + (if rd then Rg.chan.RDCNT else Rg.chan.RMWCNT))
      let s := chanLog s k c (if rd then 0x01 else 0x02) 0xF 0 q.loc (bits syn 7 0) (bits syn 15 8) (some q.req.who)
      let s := respErr (pulse (bump s (key + Rg.chan.UNCCNT)) key 0) (8 + 11 * k.val) Rsn.uncorr
      let s := sendResp s q.src q.req (8 + 11 * k.val) (c.val / 8) Rsn.uncorr []
      (chan s k c).queue.foldl (fun s q => performQ s k c q []) s
    | _, qs => qs.foldl (fun s q => performQ s k c q []) s

/-- FRZCTL DISCARD (R313). -/
def frzDiscard (k : Fin 8) (c : Fin 32) (s : State) : State :=
  if (chan s k c).frozen.isNone then s
  else updChan (discardHeld s k c) k c (fun x => { x with frozen := none })

/-! ### Fill writes, write-back, refresh, temperature (R305, R306, R308, R312) -/

/-- FILL_WRITE: the oldest entry whose next block's channel takes a write. -/
def fillWrite (k : Fin 8) (s : State) : State :=
  match (stack s k).fills.find? (fun e => match fillNext e with | some b => chanOpen s k (e.page * 2 ^ 12 + b * 64) | none => false) with
  | none => s
  | some e => fillOne s k e

def execFillWrite (k : Fin 8) (s : State) : Out := act (watched (blkPages (.pvm k)) (stackDo k (fillWrite k))) s

/-- DRAM_DEMAND_WRITEBACK: in an idle burst of its channel a corrected block is written back, all ten symbols of it (R312). -/
def dramWb (k : Fin 8) (c : Fin 32) (s : State) : State :=
  let x := chan s k c
  match x.wbs with
  | [] => s
  | l :: rest =>
    if !x.queue.isEmpty || chanFault s k c || x.training then s
    else
      let bs := decBlk s k (eraseOf s k c) l
      let s := openRowOf (updChan s k c (fun x => { x with wbs := rest })) k c l 2
      if (firstBad bs).isSome then s else putDram s k l (blkData bs)

def execDramDemandWriteback (k : Fin 8) (c : Fin 32) (s : State) : Out := act (dramWb k c) s

/-- REFRESH: the next bank of the channel, postponed at most four times while it has accesses waiting, and only in an unreserved
    slot (R306, R429). -/
def refreshBank (k : Fin 8) (c : Fin 32) (s : State) : State :=
  let x := chan s k c
  let b := x.refNext % 32
  let debt := tget 0 x.refDebt b
  if !(bankQ x.queue b).isEmpty && debt < 4 && (dslot s k (now s)).isNone then
    bump (updChan s k c (fun x => { x with refNext := (b + 1) % 32, refDebt := tset 0 x.refDebt b (debt + 1) }))
      (Blk.key (.chan k c) + Rg.chan.REFPOST)
  else
    let rows := openRows s k x
    updChan (cmdNote s k c (if tget 0 rows b = 0 then [(b, none)] else [(b, none), (b, none)])) k c (fun x =>
      { x with refNext := (b + 1) % 32, refDebt := tset 0 x.refDebt b 0, openRow := tset 0 rows b 0, rowsAt := s.clock.now })

def execRefresh (k : Fin 8) (c : Fin 32) (s : State) : Out := act (refreshBank k c) s

/-- CORE_TEMP_REPORT (R306). -/
def coreTemp (k : Fin 8) (core : Fin 10) (temp : Nat) (s : State) : State :=
  updStack s k (fun x =>
    let bit : BitVec 10 := BitVec.ofNat 10 (2 ^ core.val)
    let hot := if temp < 83 then x.hot &&& ~~~ bit else x.hot ||| bit
    { x with hot := hot, fast := if 85 < temp then true else if hot = 0 then false else x.fast })

def execCoreTempReport (k : Fin 8) (core : Fin 10) (temp : Nat) (s : State) : Out :=
  act (watched ((List.range 32).map (fun c => (Blk.chan k (fin 32 c), 0))) (coreTemp k core temp)) s

/-! ### The scrubber (R318, R319) -/

/-- The next block of a channel to scrub: in a valid page and not unfilled, at or above an index (two blocks a page). -/
def nextScrub (s : State) (k : Fin 8) (c : Fin 32) (from_ : Nat) : Option Nat :=
  let pages := (s.pv.filter (fun e => e.1 / 2 ^ 23 == k.val)).map (fun e => e.1 % 2 ^ 23)
  let blks := pages.flatMap (fun p => [2 * p, 2 * p + 1])
  blks.find? (fun i => decide (from_ ≤ i) &&
    (match fillOf s k (i / 2) with | some e => e.mask.getLsbD (i % 2 * 32 + c.val) | none => true))

/-- The lap of a stack ends when every channel has passed its last block. -/
def dramLapEnd (s : State) (k : Fin 8) : State :=
  if (List.range 32).all (fun c => decide (2 ^ 24 ≤ (chan s k (fin 32 c)).scrubAt)) then
    let key := Blk.key (.pvm k)
    let s := setReg s (key + Rg.pvm.LAPTIME) (w32 ((now s - (stack s k).lapFrom.toNat) / 1000))
    let s := bump s (key + Rg.pvm.LAPCNT)
    let s := updStack s k (fun x => { x with lapFrom := s.clock.now, lapOver := false })
    (List.range 32).foldl (fun s c => updChan s k (fin 32 c) (fun x => { x with scrubAt := 0 })) s
  else s

/-- DRAM_SCRUB_READ: one scrub read of a channel with no access waiting, SCRBINT after its last. -/
def dramScrub (k : Fin 8) (c : Fin 32) (errs : List SymErr) (s : State) : State :=
  let key := Blk.key (.chan k c)
  let x := chan s k c
  let ctl := reg s (Blk.key (.pvm k) + Rg.pvm.SCRBCTL)
  if !ctl.getLsbD 0 || !isGoing s (.pvm k) || !x.queue.isEmpty || chanFault s k c || x.training ||
      decide (2 ^ 24 ≤ x.scrubAt) || decide (now s < x.scrubLast.toNat + bits ctl 15 4) then s
  else
    match nextScrub s k c x.scrubAt with
    | none => dramLapEnd (updChan s k c (fun x => { x with scrubAt := 2 ^ 24 })) k
    | some i =>
      let l := i * 2 ^ 11 + c.val * 2 ^ 6
      let s := upsetBlk (openRowOf (updChan s k c (fun x => { x with scrubAt := i + 1, scrubLast := s.clock.now })) k c l 1) k l errs
      let bs := decAt s k l
      let s := match firstBad bs with
        | some (b, _) => pulse (bump (chanLog s k c 0x03 0xF 0 l b.s0 b.s1 none) (key + Rg.chan.UNCCNT)) key 0
        | none =>
          let s := chanCorr s k c Rg.chan.SCRCORR l bs none
          if bs.any (fun b => b.st == 1) then dramPerform.noteWb s k c l else s
      dramLapEnd s k

def execDramScrubRead (k : Fin 8) (c : Fin 32) (errs : List SymErr) (s : State) : Out :=
  act (watched (blkPages (.pvm k)) (dramScrub k c errs)) s

/-- DRAM_LAP_LIMIT: the current lap has run longer than LAPLIM, or nothing happens (R319). -/
def dramLapLimit (k : Fin 8) (s : State) : State :=
  if dramLapLate s k then updStack s k (fun x => { x with lapOver := true }) else s

def execDramLapLimit (k : Fin 8) (s : State) : Out := act (watched (blkPages (.pvm k)) (dramLapLimit k)) s

/-! ### CLEAR and ILVCFG (R299, R309, R310) -/

/-- The range of a CLEAR. -/
def clrRange (s : State) (k : Fin 8) : Nat × Nat :=
  let key := Blk.key (.pvm k)
  (bits (reg s (key + Rg.pvm.PVCLRBASE)) 31 12 * 2 ^ 12 + bits (reg s (key + Rg.pvm.PVCLRBASEH)) 5 0 * 2 ^ 32,
   bits (reg s (key + Rg.pvm.PVCLRLEN)) 26 0 * 2 ^ 12)

/-- PVCMD CLEAR: the pages of this stack in the range become invalid at once for every access that arrives later. -/
def pvClear (k : Fin 8) (s : State) : State :=
  let key := Blk.key (.pvm k)
  let (b, n) := clrRange s k
  if (stack s k).clearing.isSome then logE s key 0x04 (w32 Rg.pvm.PVCMD)
  else if n = 0 ∨ 2 ^ 38 < b + n then logE s key 0x02 (w32 Rg.pvm.PVCMD)
  else
    let hit (page : Nat) : Bool := let a := dramUnmap s k (page * 2 ^ 12); decide (b ≤ a ∧ a < b + n)
    let t := { s with pv := tdrop (fun x => x / 2 ^ 23 == k.val && hit (x % 2 ^ 23)) s.pv }
    updStack t k (fun x => { x with clearing := some (b, n), fills := x.fills.filter (fun e => !hit e.page) })

/-- PV_CLEAR_COMPLETE: BUSY clears, WIPED sets for the disabled windows the CLEAR covered (R310, R424). -/
def pvClearDone (k : Fin 8) (s : State) : State :=
  match (stack s k).clearing with
  | none => s
  | some (b, n) =>
    let s := updStack s k (fun x => { x with clearing := none })
    let s := (List.range 64).foldl (fun s w =>
      let c := winKey k.val w + 0xC
      let (wb, wn) := winRange s k.val w
      if !(reg s c).getLsbD 4 && decide (0 < wn) && decide (b ≤ wb ∧ wb + wn ≤ b + n) then setRegBit s c 8 true else s) s
    pulse s (Blk.key (.pvm k)) 0

def execPvClearComplete (k : Fin 8) (s : State) : Out := act (pvClearDone k) s

/-- ILVCFG write: stack 0's register, copied to the other seven managers (R299). -/
def ilvcfg (k : Fin 8) (v : W32) (s : State) : State :=
  if k.val ≠ 0 then s
  else
    let n := bits v 5 0
    let key := Blk.key (.pvm 0)
    if (List.range 8).all (fun j => isStopped s (.pvm (fin 8 j))) && s.pv.isEmpty && decide (1 ≤ n ∧ n ≤ 32)
    then (List.range 8).foldl (fun s j => setReg s (Blk.key (.pvm (fin 8 j)) + Rg.pvm.ILVCFG) (w32 n)) s
    else logE s key 0x03 (w32 Rg.pvm.ILVCFG)

/-! ### ERASECTL and training (R296, R315-R317) -/

/-- ERASECTL write. -/
def erasectl (k : Fin 8) (c : Fin 32) (v : W32) (s : State) : State :=
  let key := Blk.key (.chan k c)
  if 9 < bits v 3 0 && v.getLsbD 4 then logE s key 0xF08 (w32 Rg.chan.ERASECTL)
  else updReg s (key + Rg.chan.ERASECTL) (fun o => (v &&& 0x1F) ||| (o &&& 0x20))

/-- TRNCTL START: at start-up, or while the channel is STOPPED or frozen. -/
def trnStart (k : Fin 8) (c : Fin 32) (s : State) : State :=
  let startup := s.power.mst = .boot ∨ s.power.mst = .init
  if startup ∨ isStopped s (.chan k c) ∨ (chan s k c).frozen.isSome then updChan s k c (fun x => { x with training := true })
  else logE s (Blk.key (.chan k c)) 0xF08 (w32 Rg.chan.TRNCTL)

/-- A window's register: delay, left, right; with no passing step they are not stated (log entry 3). -/
def trnWord (s : State) (l r : Nat) : W32 × State :=
  if l ≤ r then (w32 ((l + r) / 2 + l * 2 ^ 8 + r * 2 ^ 16), s)
  else let (v, s) := draw s; (w32 (v.toNat % 2 ^ 24) &&& 0x7F7F7F, s)

/-- Eye width of a window. -/
def eyeW (l r : BitVec 7) : Nat := r.toNat + 1 - l.toNat

/-- TRAINING_COMPLETE (R316, R317). Where every lane passes, a channel in FAULT is STOPPED: a frozen one too, since its BLKSTAT is
    FAULT (R328); the accesses that it held are performed from the head of its queue (DEDUCED, log entry 66). -/
def trnDone (k : Fin 8) (c : Fin 32) (eyes : List Eye) (s : State) : State :=
  if !(chan s k c).training then s
  else
    let key := Blk.key (.chan k c)
    let s := eyes.zipIdx.foldl (fun s (e, i) =>
      let (a, s) := trnWord s e.rl.toNat e.rr.toNat
      let (b, s) := trnWord s e.wl.toNat e.wr.toNat
      setReg (setReg s (key + Rg.chan.TRNRD + 4 * i) a) (key + Rg.chan.TRNWR + 4 * i) b) s
    let rdBad := wordOf (fun i => match eyes[i]? with | some e => decide (eyeW e.rl e.rr < 16) | none => false) 10
    let wrBad := wordOf (fun i => match eyes[i]? with | some e => decide (eyeW e.wl e.wr < 16) | none => false) 10
    let bad := rdBad ||| wrBad
    let s := updChan s k c (fun x => { x with training := false })
    let s := setReg s (key + Rg.chan.TRNSTAT) (w32 (1 + 2 * b2n (bad == 0) + rdBad * 2 ^ 2 + wrBad * 2 ^ 12))
    let s := pulse s key 4
    let er := reg s (key + Rg.chan.ERASECTL)
    match (List.range 10).filter bad.testBit with
    | [] =>
      if chanFault s k c then setRun (updChan s k c (fun x => { x with failed := false, frozen := none })) (.chan k c) .stopped else s
    | core :: rest =>
      let s := chanLog s k c 0x07 core 0 0 0 0 none
      if rest.isEmpty && (!er.getLsbD 4 || bits er 3 0 == core)
      then setReg s (key + Rg.chan.ERASECTL) (w32 (core + 0x30))
      else partFault (updChan s k c (fun x => { x with failed := true })) (8 + 11 * k.val) 0

def execTrainingComplete (k : Fin 8) (c : Fin 32) (eyes : List Eye) (s : State) : Out :=
  actIf (wellFormed (.trainingComplete k c eyes)) (watched (chanPages k c) (stackDo k (trnDone k c eyes))) s

end Sys2Proof.Machine
end

