-- ==== Sys2Proof/Machine/Scratch.lean ====
section
/-! DEFINITION. Scratch memory: bank groups, their code and accesses, accumulate-on-write, the scrubber and the zero
    sweep, and arrival counters (R211-R246, R564). -/

namespace Sys2Proof.Machine

/-! ### The code of a storage word (R231) -/

/-- The number of ones in the low n bits. -/
def ones : Nat → Nat → Nat
  | 0, _ => 0
  | n + 1, v => v % 2 + ones n (v / 2)

/-- The columns of the 72 bit positions: weight 3 for data bits 0-55, weight 5 for 56-63, one bit for check bits. -/
def eccCols : List Nat :=
  (List.range 256).filter (fun v => ones 8 v == 3) ++ ((List.range 256).filter (fun v => ones 8 v == 5)).take 8 ++
  (List.range 8).map (fun j => 2 ^ j)

/-- The column of a position. -/
def eccCol (p : Nat) : Nat := eccCols.getD p 0

/-- What a syndrome says: good, the position to correct, or uncorrectable. -/
inductive Syn where
  | good
  | at_ (p : Nat)
  | unc
  deriving DecidableEq, Repr

def synOf (v : Nat) : Syn :=
  if v = 0 then .good
  else let p := eccCols.findIdx (fun c => c == v); if p < 72 then .at_ p else .unc

/-! ### Stored words: key of `scr` is the byte offset in the scratch space, of `scrChk` that divided by 8 -/

def scrByte (s : State) (o : Nat) : Byte := tget 0 s.scr o

def scrBytes (s : State) (o n : Nat) : List Byte := (List.range n).map (fun i => scrByte s (o + i))

def putScrBytes (s : State) (o : Nat) : List Byte → State
  | [] => s
  | b :: t => putScrBytes { s with scr := tset 0 s.scr o b } (o + 1) t

/-- The syndrome a read of word w meets: how its stored check bits differ from those of its data. -/
def scrSyn (s : State) (w : Nat) : Nat := (tget 0 s.scrChk w).toNat

def setScrSyn (s : State) (w v : Nat) : State := { s with scrChk := tset 0 s.scrChk w (BitVec.ofNat 8 v) }

/-- Invert one of the 72 positions of word w as stored. -/
def flipPos (s : State) (w p : Nat) : State :=
  let s := setScrSyn s w (scrSyn s w ^^^ eccCol p)
  if p < 64 then
    let o := 8 * w + p / 8
    { s with scr := tset 0 s.scr o (scrByte s o ^^^ BitVec.ofNat 8 (2 ^ (p % 8))) }
  else s

/-- Correct word w in place if it has a correctable error. -/
def fixWord (s : State) (w : Nat) : State :=
  match synOf (scrSyn s w) with
  | .at_ p => flipPos s w p
  | _ => s

/-! ### The bank group page -/

def grpKey (o : Nat) : Nat := Blk.key (.bank (scrTile o) (scrGroup o))

/-- Log an error of an access at word w (R244). -/
def bankLog (s : State) (code w : Nat) (pos : Nat) (who : Option Init) : State :=
  let o := 8 * w
  let k := grpKey o
  let a := 2 ^ 40 + o
  let syn := if code < 5 then scrSyn s w else 0
  logE s k (w32 (code + o / 64 % 16 * 2 ^ 8 + w % 8 * 2 ^ 12)) (w32 a)
    (w32 (a / 2 ^ 32 % 2 ^ 16 + syn * 2 ^ 16 + (if code < 5 then pos * 2 ^ 24 else 0)))
    (match who with
     | none => 0
     | some i => w32 (i.part.toNat + i.die.toNat * 2 ^ 8 + b2n i.op * 2 ^ 15))

/-- Words [w, w + n) that an access touches: is any uncorrectable? -/
def firstUnc (s : State) (w : Nat) : Nat → Option Nat
  | 0 => none
  | n + 1 => match firstUnc s w n with
    | some x => some x
    | none => if synOf (scrSyn s (w + n)) = .unc then some (w + n) else none

/-- Count, and with LOGCORR log, a corrected word (R232, R243); with DEMANDWB and a read, queue its write-back. -/
def corrected1 (read : Bool) (who : Init) (s : State) (w : Nat) : State :=
  match synOf (scrSyn s w) with
  | .at_ p =>
    let o := 8 * w
    let k := grpKey o
    let s := pulse (bump s (k + Rg.bank.DEMCORR)) k 1
    let s := if regBit s (k + Rg.bank.BGCTL) 2 then bankLog s 0x04 w p (some who) else s
    if read && regBit s (k + Rg.bank.BGCTL) 1 then
      updBank s (scrTile o) (scrGroup o) (fun b => { b with wbs := if b.wbs.contains w then b.wbs else b.wbs ++ [w] })
    else s
  | _ => s

/-- A write has reached words [w, w + n): their pending write-backs are dropped (R233). -/
def dropWbs (s : State) (o w n : Nat) : State :=
  updBank s (scrTile o) (scrGroup o) (fun b => { b with wbs := b.wbs.filter (fun x => x < w || w + n ≤ x) })

/-! ### Arrival counters (R225-R230) -/

def cntKey (t : Fin 64) (c : Nat) : Nat := Blk.key (.acnt t) + Rg.acnt.ACNT + 4 * (c % 256)

def cntVal (s : State) (t : Fin 64) (c : Nat) : W32 := reg s (cntKey t c)

/-- Add to a counter: it wraps modulo 2^32, records and pulses the wrap (R230). -/
def cntInc (s : State) (t : Fin 64) (c : Nat) (v : W32) : State :=
  let k := Blk.key (.acnt t)
  let n := (cntVal s t c).toNat + v.toNat
  let s := bump (setReg s (cntKey t c) (w32 n)) (k + Rg.acnt.ACINC)
  if 2 ^ 32 ≤ n then pulse (setReg s (k + Rg.acnt.ACWRAP) (w32 (c % 256))) k 4 else s

/-- Set a counter. -/
def cntPut (s : State) (t : Fin 64) (c : Nat) (v : W32) : State := setReg s (cntKey t c) v

/-- The reason a counter access of an initiator meets, 0 if none (R228). -/
def cntCheck (s : State) (who : Init) (t : Fin 64) : BitVec 8 :=
  if !ownOk who (tileOwner s t) then Rsn.partition
  else if !tileGood s t || !domOn s t.val then Rsn.nocnt
  else if resetting s (.acnt t) then Rsn.resetAbort
  else if domFenced s t.val then Rsn.fenced
  else Rsn.ok

/-- A counter packet: refused with a reason that is counted, or applied with its watches (R226, R228). -/
def cntPacket (s : State) (who : Init) (set : Bool) (t : Fin 64) (c : Nat) (v : W32) : BitVec 8 × State :=
  let r := cntCheck s who t
  if r = 0 then (r, watched [(.acnt t, 0)] (fun s => if set then cntPut s t c v else cntInc s t c v) s)
  else (r, respErr s (t.val / 16) r)

/-! ### Accesses (R213-R233) -/

/-- The form rule of R213. -/
def formOk (o len : Nat) : Bool := 4 ≤ len && len ≤ 64 && len % 4 == 0 && o % 4 == 0 && o % 64 + len ≤ 64

/-- An FP32 accumulate over stored bytes (R223). -/
def accBytes (sat : Bool) : List Byte → List Byte → List Byte
  | a :: b :: c :: d :: t, x :: y :: z :: w :: u =>
    leBytes 4 (to32 sat ((f32 (w32 (leNat [a, b, c, d]))).add (f32 (w32 (leNat [x, y, z, w]))))).toNat ++ accBytes sat t u
  | _, _ => []

/-- The reason an access to the scratch space at offset o meets before it is performed, 0 if none: its own ownership and that of
    the counter it carries first, then what the bank and the counter answer, in the order of R417 (R228; log entry 48). -/
def scrCheck (s : State) (r : Req) (o : Nat) : BitVec 8 :=
  let t := scrTile o
  let g := scrGroup o
  let b := Blk.bank t g
  let c := if r.cnt.isSome && r.kind != .read then cntCheck s r.who t else Rsn.ok
  if !ownOk r.who (ownerOf s b) || c = Rsn.partition then Rsn.partition
  else if groupBad s t g then Rsn.absent
  else if !blkOn s b || domFenced s (91 + t.val / 16) then Rsn.fenced
  else if resetting s b then Rsn.resetAbort
  else if c ≠ 0 then c
  else if !formOk o r.len || (r.cnt.isSome && r.kind == .read) then Rsn.unmapped
  else if !isGoing s b then Rsn.stopped
  else Rsn.ok

/-- The whole words that bytes [o, o + len) cover: the first and how many. -/
def wholeWords (o len : Nat) : Nat × Nat :=
  let lo := (o + 7) / 8
  let hi := (o + len) / 8
  (lo, hi - lo)

/-- Store bytes at o: partly covered words are corrected first, whole words get matching check bits, and an armed
    injection takes the lowest whole word of a write (R232, R236). -/
def scrStore (s : State) (o : Nat) (data : List Byte) (inject : Bool) : State :=
  let len := data.length
  let w := o / 8
  let n := (o + len + 7) / 8 - w
  let (lo, whole) := wholeWords o len
  let s := (List.range n).foldl (fun s i => if lo ≤ w + i ∧ w + i < lo + whole then s else fixWord s (w + i)) s
  let s := putScrBytes s o data
  let s := (List.range whole).foldl (fun s i => setScrSyn s (lo + i) 0) s
  let s := dropWbs s o w n
  let k := grpKey o + Rg.bank.ERRINJ
  let e := reg s k
  if inject && e.getLsbD 17 && 0 < whole then
    let s := flipPos s lo (bits e 6 0)
    let s := if e.getLsbD 16 then flipPos s lo (bits e 14 8) else s
    setReg s k (setBit e 17 false)
  else s

/-- Words of [o, o + len) that an access reads: every word of a read, the partly covered ones of a write, every word of
    an accumulate. -/
def touchedReads (r : Req) (o : Nat) : List Nat :=
  let w := o / 8
  let n := (o + r.len + 7) / 8 - w
  let (lo, whole) := wholeWords o r.len
  match r.kind with
  | .write => ((List.range n).map (· + w)).filter (fun x => x < lo || lo + whole ≤ x)
  | _ => (List.range n).map (· + w)

/-- The data a read returns, corrected. -/
def readFixed (s : State) (o len : Nat) : List Byte :=
  let w := o / 8
  let n := (o + len + 7) / 8 - w
  scrBytes ((List.range n).foldl (fun s i => fixWord s (w + i)) s) o len

/-- Perform an access at offset o that passed its checks. -/
def scrPerform (s : State) (r : Req) (o : Nat) : BitVec 8 × List Byte × State :=
  let k := grpKey o
  let ws := touchedReads r o
  match ws.find? (fun w => synOf (scrSyn s w) == .unc) with
  | some w =>
    let s := bankLog s (if r.kind = .read then 0x01 else 0x02) w 0x7F (some r.who)
    (Rsn.uncorr, [], pulse (bump s (k + Rg.bank.UNCCNT)) k 0)
  | none =>
    let s := bump s (k + Rg.bank.ACCCNT)
    let s := ws.foldl (corrected1 (r.kind == .read) r.who) s
    match r.kind with
    | .read => (Rsn.ok, readFixed s o r.len, s)
    | .write => (Rsn.ok, [], scrStore s o r.data true)
    | _ => (Rsn.ok, [], scrStore s o (accBytes r.sat (readFixed s o r.len) r.data) false)

/-- An access to scratch: the reason of its response, the data of a read, and the state after it. A refusal while
    STOPPED is logged; an access that carries a counter index increments it once it is visible (R227). -/
def scrAccess (s : State) (r : Req) (o : Nat) : BitVec 8 × List Byte × State :=
  let t := scrTile o
  let c := scrCheck s r o
  if c = Rsn.stopped then (c, [], bankLog s 0x07 (o / 8) 0 (some r.who))
  else if c ≠ 0 then (c, [], s)
  else
    let (c, d, s) := scrPerform s r o
    match r.cnt with
    | some i => (c, d, if c = 0 then watched [(.acnt t, 0)] (fun s => cntInc s t i.toNat 1) s else s)
    | none => (c, d, s)

/-- As `scrAccess`, with an error response counted where R418 says. -/
def scrRequest (s : State) (r : Req) (o : Nat) : BitVec 8 × List Byte × State :=
  let (c, d, s) := scrAccess s r o
  (c, d, respErr s (if c = Rsn.unmapped then r.who.die.toNat else (scrTile o).val / 16) c)

/-- SCRATCH_READ, SCRATCH_WRITE and SCRATCH_ACCUMULATE: one access arriving at a bank (an address outside the scratch
    space is UNMAPPED, R223). -/
def scratchArrive (r : Req) (s : State) : State :=
  match scrOff r.addr with
  | some o => (scrRequest s r o).2.2
  | none => respErr s r.who.die.toNat Rsn.unmapped

def execScratchRead (r : Req) (s : State) : Out :=
  actIf (wellFormed (.scratchRead r)) (scratchArrive r) s
def execScratchWrite (r : Req) (s : State) : Out :=
  actIf (wellFormed (.scratchWrite r)) (scratchArrive r) s
def execScratchAccumulate (r : Req) (s : State) : Out :=
  actIf (wellFormed (.scratchAccumulate r)) (scratchArrive r) s

/-- COUNTER_INCREMENT (R226, R228, R230). -/
def execCounterIncrement (who : Init) (t : Fin 64) (c : BitVec 8) (v : W32) (s : State) : Out :=
  act (fun s => (cntPacket s who false t c.toNat v).2) s

/-- COUNTER_SET (R226, R228). -/
def execCounterSet (who : Init) (t : Fin 64) (c : BitVec 8) (v : W32) (s : State) : Out :=
  act (fun s => (cntPacket s who true t c.toNat v).2) s

/-- A write of ACNT or ACADD: a set or an increment of the counter (R226, R246). -/
def acntReg (set : Bool) (t : Fin 64) (c : BitVec 8) (v : W32) (s : State) : State :=
  if set then cntPut s t c.toNat v else cntInc s t c.toNat v

/-! ### Write-back, scrubber, sweep (R232-R240) -/

/-- DEMAND_WRITEBACK: the oldest corrected word waiting is written back (R232, R233). -/
def demandWb (t : Fin 64) (g : Fin 4) (s : State) : State :=
  match (bank s t g).wbs with
  | [] => s
  | w :: rest => updBank (fixWord s w) t g (fun b => { b with wbs := rest })

def execDemandWriteback (t : Fin 64) (g : Fin 4) (s : State) : Out := act (demandWb t g) s

/-- The scrubber works on one word (R234). -/
def scrubWord (s : State) (w : Nat) : State :=
  let k := grpKey (8 * w)
  match synOf (scrSyn s w) with
  | .good => s
  | .at_ p =>
    let s := if regBit s (k + Rg.bank.BGCTL) 2 then bankLog s 0x04 w p none else s
    pulse (bump (fixWord (dropWbs s (8 * w) w 1) w) (k + Rg.bank.SCRCORR)) k 1
  | .unc => pulse (bump (bankLog s 0x03 w 0x7F none) (k + Rg.bank.UNCCNT)) k 0

/-- Rows below which every bank of a group has been scrubbed in this lap (LAPPROG). -/
def lapProg (b : Bank) : Nat := ((List.range 16).map (tget 0 b.lapRows)).foldl min 32768

/-- The scrubber runs: SCRUBEN set and the group RUNNING (R235). -/
def scrubs (s : State) (t : Fin 64) (g : Fin 4) : Bool :=
  live s (.bank t g) && isGoing s (.bank t g) && regBit s (Blk.key (.bank t g) + Rg.bank.BGCTL) 0

/-- DRIZZLE_SCRUB_READ: the next block row of one bank; the lap ends when all banks have passed row 32,767 (R234). -/
def scrubRead (t : Fin 64) (g : Fin 4) (i : Fin 16) (s : State) : State :=
  let row := tget 0 (bank s t g).lapRows i.val
  if !scrubs s t g || 32768 ≤ row then s
  else
    let base := t.val * 2 ^ 27 + g.val * 2 ^ 25 + row * 2 ^ 10 + i.val * 2 ^ 6
    let s := (List.range 8).foldl (fun s j => scrubWord s (base / 8 + j)) s
    let s := updBank s t g (fun b => { b with lapRows := tset 0 b.lapRows i.val (row + 1) })
    if lapProg (bank s t g) < 32768 then s
    else
      let k := Blk.key (.bank t g)
      let s := setReg s (k + Rg.bank.LAPTIME) (w32 (now s - (bank s t g).lapFrom.toNat))
      let s := bump s (k + Rg.bank.LAPCNT)
      updBank s t g (fun b => { b with lapRows := [], lapFrom := s.clock.now, lapOver := false })

def execDrizzleScrubRead (t : Fin 64) (g : Fin 4) (i : Fin 16) (s : State) : Out :=
  act (watched [(.bank t g, 0)] (scrubRead t g i)) s

/-- SCRUB_LAP_LIMIT: a current lap that has run longer than LAPLIM is marked; event source 2 is live until the lap ends or
    LAPLIM is raised above it (R245). -/
def lapLimit (t : Fin 64) (g : Fin 4) (s : State) : State :=
  if live s (.bank t g) && isGoing s (.bank t g) && lapLate s t g then updBank s t g (fun b => { b with lapOver := true }) else s

def execScrubLapLimit (t : Fin 64) (g : Fin 4) (s : State) : Out := act (watched [(.bank t g, 0)] (lapLimit t g)) s

/-- ERRINJ write (R236). -/
def errinj (t : Fin 64) (g : Fin 4) (v : W32) (s : State) : State :=
  let k := Blk.key (.bank t g)
  if v.getLsbD 17 && (71 < bits v 6 0 || (v.getLsbD 16 && 71 < bits v 14 8))
  then logE s k 0x08 (w32 Rg.bank.ERRINJ)
  else setReg s (k + Rg.bank.ERRINJ) (v &&& 0x37F7F)

/-- SWEEPCTL START (R239). -/
def sweepStart (t : Fin 64) (g : Fin 4) (s : State) : State :=
  let k := Blk.key (.bank t g)
  if isStopped s (.bank t g) && !(bank s t g).sweep
  then setReg (updBank s t g (fun b => { b with sweep := true, sweepFrom := s.clock.now })) (k + Rg.bank.SWEEPPROG) 0
  else logE s k 0x05 (w32 Rg.bank.SWEEPCTL)

/-- Zero data with matching check bits in the block rows below n of a group. -/
def zeroRows (s : State) (t : Fin 64) (g : Fin 4) (n : Nat) : State :=
  let hit (o : Nat) : Bool := o / 2 ^ 25 == 4 * t.val + g.val && o / 2 ^ 10 % 2 ^ 15 < n
  { s with scr := tdrop hit s.scr, scrChk := tdrop (fun w => hit (8 * w)) s.scrChk }

/-- Block rows a sweep in progress has zeroed: a free number, since the spec gives no rate of its own to each, no less than
    what SWEEPPROG last showed (log entry 3). -/
def sweepRows (s : State) (t : Fin 64) (g : Fin 4) : Nat :=
  let n := (reg s (Blk.key (.bank t g) + Rg.bank.SWEEPPROG)).toNat % 32768
  n + (Config.freeWord s.frees).toNat % (32768 - n)

/-- A read of SWEEPPROG shows the sweep's progress, which a later look does not fall below. -/
def sweepLook (t : Fin 64) (g : Fin 4) (s : State) : State :=
  if (bank s t g).sweep then
    { setReg s (Blk.key (.bank t g) + Rg.bank.SWEEPPROG) (w32 (sweepRows s t g)) with frees := s.frees + 1 }
  else s

/-- SWEEP_COMPLETE (R239). -/
def sweepDone (t : Fin 64) (g : Fin 4) (s : State) : State :=
  if !(bank s t g).sweep then s
  else
    let k := Blk.key (.bank t g)
    let s := setReg (zeroRows s t g 32768) (k + Rg.bank.SWEEPPROG) 32768
    let s := updBank s t g (fun b =>
      { b with sweep := false, wiped := true, lapRows := [], lapFrom := s.clock.now, lapOver := false, wbs := [] })
    pulse s k 3

def execSweepComplete (t : Fin 64) (g : Fin 4) (s : State) : Out := act (watched [(.bank t g, 0)] (sweepDone t g)) s

/-- A sweep that ends early: the rows already zeroed hold zeros, and SWEEPPROG keeps their number (R239). -/
def sweepCut (t : Fin 64) (g : Fin 4) (s : State) : State :=
  if !(bank s t g).sweep then s
  else
    let s := sweepLook t g s
    let n := (reg s (Blk.key (.bank t g) + Rg.bank.SWEEPPROG)).toNat
    updBank (zeroRows s t g n) t g (fun b => { b with sweep := false })

end Sys2Proof.Machine
end

