-- ==== Sys2Proof/Machine/Mem.lean ====
section
/-! DEFINITION. Memory as the units see it: one access answered at once, ranges cut into accesses of one 64-byte block
    (R213, R300), the ownership of ranges (R83, R186, R423), and ranges left undefined. -/

namespace Sys2Proof.Machine

/-- A request of an initiator with no counter, not coherent. -/
def mkReq (who : Init) (kind : Kind) (a len : Nat) (data : List Byte) (sat : Bool := false) : Req :=
  { who, kind, addr := BitVec.ofNat 48 a, len, data, cnt := none, sat, coh := false }

/-- One memory access: reason, data, state. A space that is no memory is UNMAPPED, counted at the initiator's die. -/
def memNow (s : State) (r : Req) : BitVec 8 × List Byte × State :=
  match scrOff r.addr with
  | some o => scrRequest s r o
  | none =>
    if inDram r.addr.toNat then dramNow s r else (Rsn.unmapped, [], respErr s r.who.die.toNat Rsn.unmapped)

/-- The accesses of a range: each within one 64-byte block. The fuel bounds their number. -/
def pieces : Nat → Nat → Nat → List (Nat × Nat)
  | 0, _, _ => []
  | _, _, 0 => []
  | f + 1, a, n => let m := min n (64 - a % 64); (a, m) :: pieces f (a + m) (n - m)

/-- The accesses of a range of n bytes at a. -/
def blocksOf (a n : Nat) : List (Nat × Nat) := pieces (n / 64 + 2) a n

/-- What a range access ends in: the reason and address of the first error response (reason 0: none), the data, the state. -/
structure MemR where
  rsn : BitVec 8
  at_ : Nat
  data : List Byte
  st : State

/-- Read a list of blocks. -/
def readPieces (who : Init) : List (Nat × Nat) → List Byte → State → MemR
  | [], d, s => ⟨0, 0, d, s⟩
  | (a, n) :: t, d, s =>
    let (c, x, s) := memNow s (mkReq who .read a n [])
    if c ≠ 0 then ⟨c, a, d, s⟩ else readPieces who t (d ++ x) s

/-- Read n bytes at a. -/
def memRead (s : State) (who : Init) (a n : Nat) : MemR := readPieces who (blocksOf a n) [] s

/-- Write or accumulate a list of blocks. -/
def writePieces (who : Init) (kind : Kind) (sat : Bool) : List (Nat × Nat) → List Byte → State → MemR
  | [], _, s => ⟨0, 0, [], s⟩
  | (a, n) :: t, d, s =>
    let (c, _, s) := memNow s (mkReq who kind a n (d.take n) sat)
    if c ≠ 0 then ⟨c, a, [], s⟩ else writePieces who kind sat t (d.drop n) s

/-- Write data at a. -/
def memWrite (s : State) (who : Init) (a : Nat) (d : List Byte) : MemR :=
  writePieces who .write false (blocksOf a d.length) d s

/-- Accumulate FP32 data at a (R223). -/
def memAccum (s : State) (who : Init) (a : Nat) (d : List Byte) (sat : Bool) : MemR :=
  writePieces who .accum sat (blocksOf a d.length) d s

/-! ### Ownership of ranges (R83, R186, R189) -/

/-- Every bank group a scratch range touches is good and owned by p. -/
def scrOwned (s : State) (p : BitVec 4) (o len : Nat) : Bool :=
  decide (o + len ≤ 2 ^ 33) &&
  (List.range ((o + len - 1) / 2 ^ 25 - o / 2 ^ 25 + 1)).all (fun i =>
    let g := o / 2 ^ 25 + i
    let b := Blk.bank (fin 64 (g / 4)) (fin 4 g)
    !absent s b && ownerOf s b == p)

/-- From `a`, enabled windows of p on stack k cover the bytes up to `stop`. The fuel is the number of windows. -/
def winCovers (s : State) (k : Nat) (p : BitVec 4) : Nat → Nat → Nat → Bool
  | 0, a, stop => decide (stop ≤ a)
  | f + 1, a, stop =>
    if stop ≤ a then true
    else match (List.range 64).find? (fun w =>
        let c := reg s (winKey k w + 0xC)
        let (b, n) := winRange s k w
        c.getLsbD 4 && bits c 3 0 == p.toNat && decide (b ≤ a ∧ a < b + n)) with
      | some w => let (b, n) := winRange s k w; winCovers s k p f (b + n) stop
      | none => false

/-- A range of memory owned by partition p: in scratch (R423), or in DRAM windows (R424); the windows are those of the
    base die of its first byte (identical tables, R424). -/
def rangeOwned (s : State) (p : BitVec 4) (a len : Nat) : Bool :=
  if len = 0 then true
  else if 2 ^ 40 ≤ a ∧ a < 2 ^ 40 + 2 ^ 33 then scrOwned s p (a - 2 ^ 40) len
  else decide (a + len ≤ 2 ^ 38) && winCovers s (dramMap s a).1.val p 64 a (a + len)

/-- A range of scratch owned by p (R83). -/
def scrRangeOwned (s : State) (p : BitVec 4) (a len : Nat) : Bool :=
  len == 0 || (decide (2 ^ 40 ≤ a ∧ a < 2 ^ 40 + 2 ^ 33) && scrOwned s p (a - 2 ^ 40) len)

/-- n ranges of `len` bytes, `step` apart, all satisfying `p`. -/
def strideAll (p : Nat → Bool) (a step n : Nat) : Bool := (List.range n).all (fun i => p (a + i * step))

/-- Two ranges share a byte. -/
def overlaps (a n b m : Nat) : Bool := decide (0 < n ∧ 0 < m ∧ a < b + m ∧ b < a + n)

/-- The tile whose counters a range written at `a` counts on (R186): that of its scratch, else the issuing tile. -/
def countTile (t : Fin 64) (a : Nat) : Fin 64 :=
  if 2 ^ 40 ≤ a ∧ a < 2 ^ 40 + 2 ^ 33 then scrTile (a - 2 ^ 40) else t

/-! ### Undefined contents (log entry 3) -/

/-- A range of memory is left undefined. -/
def undefRange (s : State) (a n : Nat) : State :=
  let (d, s) := drawBytes n s
  if 2 ^ 40 ≤ a ∧ a + n ≤ 2 ^ 40 + 2 ^ 33 then putScrBytes s (a - 2 ^ 40) d
  else if a + n ≤ 2 ^ 38 then
    (d.zipIdx).foldl (fun s (b, i) => let (k, l) := dramMap s (a + i); putDram s k l [b]) s
  else s

/-- Ranges of memory are left undefined. -/
def undefAll (s : State) (l : List (Nat × Nat)) : State := l.foldl (fun s r => undefRange s r.1 r.2) s

end Sys2Proof.Machine
end

