-- ==== Sys2Proof/Machine/Operands.lean ====
section
/-! DEFINITION. Fields of commands (R177, R178), reserved bits (R563), skipping and completing commands (R182, R192),
    sequencer events (R195), and the faults of the units of a tile (R191). -/

namespace Sys2Proof
namespace Machine

/-! ### The header (R177) -/

def hOpc (c : Cmd) : Nat := bits c.hdr 5 0
def hUnit (c : Cmd) : Nat := bits c.hdr 8 6
def hPidx (c : Cmd) : Nat := bits c.hdr 14 9
def hPsense (c : Cmd) : Bool := c.hdr.getLsbD 15
def hFence (c : Cmd) : Bool := c.hdr.getLsbD 16
def hSat (c : Cmd) : Bool := c.hdr.getLsbD 17
def hFdi (c : Cmd) : Nat := bits c.hdr 21 18
def hEvc (c : Cmd) : Bool := c.hdr.getLsbD 22
def hPref (c : Cmd) (i : Nat) : Bool := c.hdr.getLsbD (23 + i)

/-- The header with opcode and unit as a command of the table names them. -/
def withOp (c : Cmd) (unit opc : Nat) : Cmd := { c with hdr := (c.hdr &&& ~~~ 0x1FF#32) ||| w32 (opc + unit * 64) }

end Machine

/-- Operand word i (1-7). -/
def Cmd.word (c : Cmd) : Nat → W32
  | 1 => c.w1 | 2 => c.w2 | 3 => c.w3 | 4 => c.w4 | 5 => c.w5 | 6 => c.w6 | 7 => c.w7
  | _ => c.hdr

/-- The command with operand word i replaced. -/
def Cmd.setWord (c : Cmd) (i : Nat) (v : W32) : Cmd :=
  match i with
  | 1 => { c with w1 := v } | 2 => { c with w2 := v } | 3 => { c with w3 := v } | 4 => { c with w4 := v }
  | 5 => { c with w5 := v } | 6 => { c with w6 := v } | 7 => { c with w7 := v } | _ => c

/-- A command from nine words; missing ones are 0. -/
def Cmd.ofWords (l : List W32) (src : W32) : Cmd :=
  { hdr := l.getD 0 0, w1 := l.getD 1 0, w2 := l.getD 2 0, w3 := l.getD 3 0, w4 := l.getD 4 0, w5 := l.getD 5 0,
    w6 := l.getD 6 0, w7 := l.getD 7 0, src }

/-- The words of a command in order, the source address last (R206). -/
def Cmd.words (c : Cmd) : List W32 := [c.hdr, c.w1, c.w2, c.w3, c.w4, c.w5, c.w6, c.w7, c.src]

namespace Machine

/-- A 48-bit address whose low word is word i and whose high part is bits [15:0] of word i + 1. -/
def addr48 (c : Cmd) (i : Nat) : Nat := (c.word i).toNat + bits (c.word (i + 1)) 15 0 * 2 ^ 32

/-! ### Checks (R192, R193) -/

/-- A failed check: reason and operand word. -/
abbrev Fail := Nat × Nat

/-- The lowest code, and of equal codes the lowest word. -/
def worst : List Fail → Option Fail
  | [] => none
  | f :: t => match worst t with
    | none => some f
    | some g => if g.1 < f.1 ∨ (g.1 = f.1 ∧ g.2 < f.2) then some g else some f

/-- A failure when a condition holds. -/
def failIf (c : Bool) (reason word : Nat) : List Fail := if c then [(reason, word)] else []

/-- Reserved bits set in the listed words (R563). -/
def rsvFails (c : Cmd) (masks : List (Nat × Nat)) : List Fail :=
  (masks.filter (fun m => (c.word m.1).toNat &&& m.2 != 0)).map (fun m => (0x03, m.1))

/-! ### Sequencer events, skips, completions -/

/-- Set a sequencer event (R195). -/
def sev (s : State) (t : Fin 64) (n : Nat) : State :=
  updCpu s (.tile t) (fun p => { p with sevlatch := p.sevlatch ||| w32 (2 ^ n) })

/-- Skip a command: log it, or drop the entry of a full log (R192). `cnt` is where CMDSKIPL counts. -/
def skipLog (s : State) (t : Fin 64) (addr hdr : W32) (f : Fail) : State :=
  let k := Blk.key (.seq t)
  let p := cpu s (.tile t)
  let s := bump s (k + Rg.seq.CMDSKIPL)
  if p.skips.length < 32 then
    let e : SkipEnt := { addr, hdr, reason := w32 (f.1 + f.2 * 2 ^ 8) }
    let s := setCpu s (.tile t) { p with skips := p.skips ++ [e] }
    pulse (sev s t 8) (Blk.keyP (.seq t) 1) 0
  else pulse (sev (bump s (k + Rg.seq.SKIPDROP)) t 9) (Blk.keyP (.seq t) 1) 1

/-- A command no longer counts as outstanding at a fence. -/
def retireSeq (s : State) (t : Fin 64) (n : Nat) : State :=
  updCpu s (.tile t) (fun p => { p with outst := p.outst.filter (fun x => x != n) })

/-- A unit skips an accepted-for-check command of the FIFO. -/
def skipCmd (s : State) (t : Fin 64) (c : Cmd) (n : Nat) (f : Fail) : State :=
  retireSeq (skipLog s t c.src c.hdr f) t n

/-- A command completes: with EVC set its unit's sequencer event is set (R182). -/
def doneCmd (s : State) (t : Fin 64) (c : Cmd) (n : Nat) : State :=
  let s := retireSeq s t n
  if hEvc c then sev s t (hUnit c) else s

/-! ### Faults of units (R175, R191, R208, R210) -/

/-- A sequencer enters FAULT: it stops fetching and dispatching. -/
def seqFault (s : State) (t : Fin 64) (cause : Nat) (c1 c2 : W32) (log : W32 × W32 × W32 × W32) : State :=
  let k := Blk.key (.seq t)
  let s := setReg s (k + Rg.seq.SEQFAULT) (w32 (cause + c1.toNat % 256 * 2 ^ 8 + c2.toNat % 256 * 2 ^ 16))
  let s := updCpu s (.tile t) (fun p => { p with live := false })
  faultBlk (logE s k log.1 log.2.1 log.2.2.1 log.2.2.2) (.seq t)

/-- Word 3 of an entry for an access that received an error response. -/
def errWord3 (a : Nat) (rsn : BitVec 8) : W32 := w32 (a / 2 ^ 32 % 2 ^ 16 + rsn.toNat * 2 ^ 24)

/-- A unit of a tile, or a Nimbus engine, with its command queue. -/
def unitOf (s : State) : XU → Unit
  | .vec (.tile t) => (tile s t).vec
  | .vec (.eng k e) => eng s k e
  | .mover t => (tile s t).mover
  | .sync t => (tile s t).sync

def updUnit (s : State) (u : XU) (f : Unit → Unit) : State :=
  match u with
  | .vec (.tile t) => updTile s t (fun x => { x with vec := f x.vec })
  | .vec (.eng k e) => updEng s k e f
  | .mover t => updTile s t (fun x => { x with mover := f x.mover })
  | .sync t => updTile s t (fun x => { x with sync := f x.sync })

/-- Abandon a unit's executing command and clear its queue. -/
def clearUnit (u : Unit) : Unit := { u with queue := [], active := none, prog := 0, waiting := false, since := 0, pollAt := 0 }

/-- An access of a unit's command `c` received an error response (R191). -/
def unitError (s : State) (u : XU) (c : Cmd) (write : Bool) (a : Nat) (rsn : BitVec 8) : State :=
  let s := updUnit s u clearUnit
  match u with
  | .vec (.tile t) =>
    faultBlk (logE s (Blk.key (.vec t)) (if write then 2 else 1) c.src (w32 a) (errWord3 a rsn)) (.vec t)
  | .vec (.eng k e) =>
    faultBlk (logE s (Blk.key (.nve k e)) (if write then 2 else 1) c.src (w32 a) (errWord3 a rsn)) (.nve k e)
  | .mover t => seqFault s t 3 0 0 (0x06, c.src, w32 a, errWord3 a rsn)
  | .sync t => seqFault s t 4 0 0 (0x07, c.src, w32 a, errWord3 a rsn)

/-- Increment a counter of the counting tile for a unit of tile t: the reason of its response (R564). -/
def countFor (s : State) (t ct : Fin 64) (c : Nat) : BitVec 8 × State := cntPacket s (tileInit s t) false ct c 1

/-! ### Stopping (R108, R199, R202) -/

/-- A row whose commands and items have all left stops. -/
def rowSettle (t : Fin 64) (s : State) : State :=
  let r := (tile s t).row
  if (blkSt s (.row t)).run = .stopping ∧ r.exec = [] ∧ r.segs.all (fun g => g.2.items.isEmpty) then setRun s (.row t) .stopped
  else s

/-- The mover, the sync unit and the stream unit take their next command: the tile runs, or its sequencer is in FAULT, after
    which the commands already accepted run on (R175). -/
def unitsGo (s : State) (t : Fin 64) : Bool := isGoing s (.seq t) || (blkSt s (.seq t)).run == .fault

/-- Earlier commands of the FIFO that have not completed. -/
def earlier (s : State) (t : Fin 64) (n : Nat) : Bool := (cpu s (.tile t)).outst.any (fun x => decide (x < n))

/-- An earlier command is executing in a unit. -/
def earlierRuns (x : Tile) (n : Nat) : Bool :=
  ([x.vec, x.mover, x.str].filterMap (fun u => u.active.map (·.seqno)) ++
    (x.row.exec.filter (fun c => c.fabric.isNone)).map (·.seqno)).any (fun m => decide (m < n))

/-- The executing command goes back to the head of the queue. -/
def parkHead (u : Unit) : Unit :=
  match u.active with
  | some c => { u with active := none, waiting := false, queue := c :: u.queue }
  | none => u

/-- A CNTADD of a stopping tile that waits for commands which no unit executes, and which therefore stay queued, goes back to
    the head of the sync queue as a waiting SEM does (DEDUCED, log entry 65: R199 has every stop end). -/
def syncSettle (t : Fin 64) (s : State) : State :=
  match (tile s t).sync.active with
  | some c =>
    if (blkSt s (.seq t)).run = .stopping ∧ hOpc c.cmd = 2 ∧ earlier s t c.seqno ∧ !earlierRuns (tile s t) c.seqno then
      updTile s t (fun x => { x with sync := parkHead x.sync })
    else s
  | none => s

/-- A vector unit that executes nothing stops. -/
def vecSettle (t : Fin 64) (s : State) : State :=
  if (blkSt s (.vec t)).run = .stopping ∧ (tile s t).vec.active = none then setRun s (.vec t) .stopped else s

/-- A unit of a stopping tile has come to rest. -/
def atRest (r : Run) : Bool := r == .stopped || r == .fault

/-- The sequencer of a stopping tile stops once no instruction waits, no trap handler runs and every unit is idle. -/
def seqSettle (t : Fin 64) (s : State) : State :=
  let x := tile s t
  if (blkSt s (.seq t)).run = .stopping ∧ x.seq.wait = .none ∧ !(x.seq.live && x.seq.intrap) ∧
      atRest (blkSt s (.row t)).run ∧ atRest (blkSt s (.vec t)).run ∧ x.mover.active = none ∧ x.sync.active = none ∧
      x.str.active = none
  then setRun s (.seq t) .stopped else s

/-- Stops of a tile take hold. -/
def tileSettle (t : Fin 64) (s : State) : State := seqSettle t (vecSettle t (rowSettle t s))

/-- A change within a tile: stops take hold, and its event levels are latched. -/
def tileAct (t : Fin 64) (f : State → State) : State → Out :=
  act (watched (tilePages t) (fun s => if issues s (.seq t) then tileSettle t (f s) else s))

/-! ### Result descriptors (R117) -/

def rdBase (r : RDesc) : Nat := r.base.toNat + bits r.baseh 15 0 * 2 ^ 32
def rdStride (r : RDesc) : Nat := 8 * bits r.baseh 31 16
def rdFmt (r : RDesc) : Nat := bits r.ctl 3 0
def rdVia (r : RDesc) : Bool := r.ctl.getLsbD 4
def rdAcc (r : RDesc) : Bool := r.ctl.getLsbD 5
def rdCount (r : RDesc) : Bool := r.ctl.getLsbD 6
def rdShift (r : RDesc) : Nat := bits r.ctl 13 8
def rdCnt (r : RDesc) : Nat := bits r.ctl 23 16

/-- Result descriptor d of a tile, as its page holds it. -/
def rdesc (s : State) (t : Fin 64) (d : Nat) : RDesc :=
  let k := Blk.key (.row t) + 0x10 * d
  { base := reg s (k + Rg.row.RDBASE), baseh := reg s (k + Rg.row.RDBASEH), ctl := reg s (k + Rg.row.RDCTL),
    mult := reg s (k + Rg.row.RDMULT) }

/-- Format descriptor d of a tile. -/
def fmtdesc (s : State) (t : Fin 64) (d : Nat) : W32 := reg s (Blk.key (.row t) + Rg.row.FMTDESC + 4 * d)

def fWf (w : W32) : Nat := bits w 3 0
def fTf (w : W32) : Nat := bits w 7 4
def fWs (w : W32) : Bool := w.getLsbD 8
def fTs (w : W32) : Bool := w.getLsbD 9

end Machine
end Sys2Proof
end

