-- ==== Sys2Proof/Machine/Row.lean ====
section
/-! DEFINITION. Row commands at acceptance (R78-R95, R102): their fields, every check, the accumulator state they leave,
    the rows they will emit, and the queue. -/

namespace Sys2Proof.Machine

/-! ### Shapes (R75) -/

def shapeSegs (c : BitVec 2) : Nat := 2 ^ c.toNat
def shapeL (c : BitVec 2) : Nat := 512 / 2 ^ c.toNat

def segOf (r : Row) (i : Nat) : Seg := tget seg0 r.segs i
def updSeg (r : Row) (i : Nat) (f : Seg → Seg) : Row := { r with segs := tupd seg0 r.segs i f }
def rowOf (s : State) (t : Fin 64) : Row := (tile s t).row

/-! ### Entries and records (R63-R67) -/

def entOf (a : SegAcc) (e : Nat) : Ent := tget idleEnt a.ents e

/-- Entries [e, e + n) take a state. -/
def setEnts (a : SegAcc) (e n : Nat) (v : Ent) : SegAcc :=
  { a with ents := (List.range n).foldl (fun t i => tset idleEnt t (e + i) v) a.ents }

/-- Records none of whose entries is PENDING are released (R66). -/
def sweepRecs (a : SegAcc) : SegAcc :=
  { a with recs := a.recs.filter (fun r => a.ents.any (fun x => x.2.k == .pending && x.2.slot == r.1)) }

/-- The PENDING entries of a range, ascending, with their records. -/
def pendings (a : SegAcc) (e n : Nat) : List (Nat × Rec) :=
  ((List.range n).map (· + e)).filterMap (fun x =>
    let v := entOf a x
    if v.k = .pending then some (x, tget rec0 a.recs v.slot) else none)

/-- A free record slot. -/
def freeSlot (a : SegAcc) : Nat := ((List.range 4).find? (fun i => (a.recs.lookup i).isNone)).getD 0

/-- Records that keep PENDING entries outside a range (R85). -/
def recsOutside (a : SegAcc) (e n : Nat) : Nat :=
  (a.recs.filter (fun r => a.ents.any (fun x =>
    x.2.k == .pending && x.2.slot == r.1 && (decide (x.1 < e) || decide (e + n ≤ x.1))))).length

/-! ### Fields (R84, R87, R88, R90, R93) -/

def rowOpOf (n : Nat) : Option RowOp :=
  match n with
  | 1 => some .pass | 2 => some .flush | 3 => some .argx | 4 => some .tap | 5 => some .shape | _ => none

def pSeg (c : Cmd) : Nat := bits c.w1 2 0
def pOpen (c : Cmd) : Bool := c.w1.getLsbD 3
def pClose (c : Cmd) : Bool := c.w1.getLsbD 4
def pKeepw (c : Cmd) : Bool := c.w1.getLsbD 5
def pPath (c : Cmd) : Nat := bits c.w1 7 6
def pA (c : Cmd) : Nat := bits c.w1 15 8
def pB (c : Cmd) : Nat := bits c.w1 24 16
def pStride (c : Cmd) (i : Nat) : Nat := 8 * bits (c.word i) 31 16
def pRdi (c : Cmd) : Nat := bits c.w6 3 0
def xMin (c : Cmd) : Bool := c.w2.getLsbD 0
def xRdi (c : Cmd) : Nat := bits c.w2 7 4
def tapM (c : Cmd) : Nat := bits c.w1 31 8

/-- Token j, or sample m, of a command. The spec starts records on 8-byte boundaries (R60) and gives no check of it: a record
    at another multiple of 4 is read where its address says (DESIGN CHOICE, log entry 63). -/
def tokAt (c : Cmd) (j : Nat) : Nat := addr48 c 2 + j * pStride c 3
/-- The weight record of a local lane. -/
def wgtAt (c : Cmd) (lane : Nat) : Nat := addr48 c 4 + lane * pStride c 5

/-- The segment a command works on. -/
def segNo (op : RowOp) (c : Cmd) : Nat := match op with | .argx | .shape => 0 | _ => pSeg c

/-- Reserved bits of the operand words (R563). -/
def rowRsv (op : RowOp) : List (Nat × Nat) :=
  match op with
  | .pass => [(1, 0xFE000000), (6, 0xFFFFFFF0)]
  | .flush => [(1, 0xFE0000F8)]
  | .argx => [(1, 0xFE0000FF), (2, 0xFFFFFF0E)]
  | .tap => [(1, 0xD8), (6, 0xFFFFFFF0)]
  | .shape => [(1, 0xFFFFFFFC)]

/-! ### Formats (R57-R61, R85) -/

/-- Elements of a token record in bytes (R60). -/
def tokElems (fmt : W32) : Nat := kOf (fWf fmt) * fmtWidth (fTf fmt) / 8
def tokBytes (fmt : W32) : Nat := tokElems fmt + (if fTs fmt then 8 else 0)

/-- The accumulators of a pass are integer (R61). -/
def rowInt (fmt : W32) : Bool := (fWf fmt == 5 || fWf fmt == 6) && (fTf fmt == 5 || fTf fmt == 6)

/-- Row formats, scale bits on block-scalable ones only, none of 0x2-0x4 in compatibility mode. -/
def fmtOk (compat : Bool) (fmt : W32) : Bool :=
  rowFmt (fWf fmt) && rowFmt (fTf fmt) && (!fWs fmt || scalable (fWf fmt)) && (!fTs fmt || scalable (fTf fmt)) &&
  !(compat && (decide (2 ≤ fWf fmt ∧ fWf fmt ≤ 4) || decide (2 ≤ fTf fmt ∧ fTf fmt ≤ 4)))

/-- The output format is allowed for the accumulator type, and ACCUM only with FP32 (R58, R95). -/
def outOk (rd : RDesc) (int : Bool) : Bool :=
  let f := rdFmt rd
  (if int then f == 5 || f == 0xB else f == 0 || f == 1 || f == 8 || f == 9 || f == 0xA) && (!rdAcc rd || f == 0xA)

/-- Bytes of a result row of L lanes. -/
def rowBytes (rd : RDesc) (l : Nat) : Nat := l * fmtWidth (rdFmt rd) / 8

/-! ### The checks -/

/-- n records of `len` bytes, `step` apart, lie in scratch owned by p (R83). -/
def recsOwned (s : State) (p : BitVec 4) (a step n len : Nat) : Bool :=
  if n = 0 then true
  else if step ≤ len then scrRangeOwned s p a ((n - 1) * step + len)
  else strideAll (fun x => scrRangeOwned s p x len) a step n

/-- Checks of a result descriptor that a closing PASS and a TAP share. -/
def rdFails (s : State) (t : Fin 64) (rd : RDesc) (int : Bool) : List Fail :=
  failIf (!outOk rd int) 0x0B 6 ++ failIf (rdVia rd && !portConn s t) 0x0D 6

/-- Checks of tokens and weights that PASS and TAP share: `path` as TPATH, n tokens. -/
def feedFails (s : State) (t : Fin 64) (c : Cmd) (fmt : W32) (path n l : Nat) : List Fail :=
  let p := tileOwner s t
  failIf (fmtOk (rowOf s t).compat fmt && (path == 0 || path == 2) && !recsOwned s p (tokAt c 0) (pStride c 3) n (tokBytes fmt))
    0x05 2 ++
  failIf (!pKeepw c && !recsOwned s p (wgtAt c 0) (pStride c 5) l 136) 0x05 4

def opdec (s : State) (t : Fin 64) : Bool := regBit s (Blk.key (.row t) + Rg.row.TMODE) 1
def fabMaster (s : State) (t : Fin 64) : Bool := regBit s (Blk.key (.row t) + Rg.row.TMODE) 0

/-- R85. -/
def passFails (s : State) (t : Fin 64) (c : Cmd) : List Fail :=
  let r := rowOf s t
  let l := shapeL r.accShape
  let fmt := fmtdesc s t (hFdi c)
  let rd := rdesc s t (pRdi c)
  let int := rowInt fmt
  let a := (segOf r (pSeg c)).acc
  let b := min (pB c) (256 - pA c)
  let es := (List.range b).map (fun i => entOf a (pA c + i))
  failIf (shapeSegs r.accShape ≤ pSeg c) 0x07 1 ++
  failIf (pB c < 16 || 256 < pB c || 256 < pA c + pB c) 0x08 1 ++
  failIf (!fmtOk r.compat fmt) 0x04 0 ++
  failIf (if pOpen c then es.any (fun e => e.k == .opened) else es.any (fun e => e.k != .opened || e.int != int)) 0x09 1 ++
  (if pClose c then rdFails s t rd int ++ failIf (3 < recsOutside a (pA c) (pB c)) 0x0A 1 else []) ++
  failIf (pKeepw c && a.loaded != some (BitVec.ofNat 4 (fWf fmt))) 0x0C 1 ++
  failIf ((pPath c == 1 || pPath c == 2) && !portConn s t) 0x0D 1 ++
  failIf (pPath c == 1 && opdec s t && isIntFmt (fTf fmt)) 0x0D 1 ++
  failIf (pPath c == 3) 0x10 1 ++
  feedFails s t c fmt (pPath c) (pB c) l ++
  failIf (pClose c && outOk rd int &&
    !recsOwned s (tileOwner s t) (rdBase rd + c.w7.toNat * rdStride rd) (rdStride rd) (pB c) (rowBytes rd l)) 0x05 6

/-- R87. -/
def flushFails (s : State) (t : Fin 64) (c : Cmd) : List Fail :=
  let r := rowOf s t
  let a := (segOf r (pSeg c)).acc
  let n := min (pB c) (256 - pA c)
  failIf (shapeSegs r.accShape ≤ pSeg c) 0x07 1 ++
  failIf (pB c == 0 || 256 < pB c || 256 < pA c + pB c) 0x08 1 ++
  failIf ((List.range n).any (fun i => (entOf a (pA c + i)).k == .opened)) 0x09 1

/-- Where the result of entry e of an ARGX goes (R88). -/
def argxAt (rd : RDesc) (c : Cmd) (e : Nat) : Nat := rdBase rd + (c.w3.toNat + e - pA c) * rdStride rd

/-- R88. -/
def argxFails (s : State) (t : Fin 64) (c : Cmd) : List Fail :=
  let r := rowOf s t
  let a := (segOf r 0).acc
  let n := min (pB c) (256 - pA c)
  let rd := rdesc s t (xRdi c)
  failIf (r.accShape != 0) 0x06 0 ++
  failIf (pB c == 0 || 256 < pB c || 256 < pA c + pB c) 0x08 1 ++
  failIf ((List.range n).any (fun i => (entOf a (pA c + i)).k == .opened)) 0x09 1 ++
  failIf ((pendings a (pA c) n).any (fun e => !scrRangeOwned s (tileOwner s t) (argxAt rd c e.1) 8)) 0x05 2

/-- R90. -/
def tapFails (s : State) (t : Fin 64) (c : Cmd) : List Fail :=
  let r := rowOf s t
  let l := shapeL r.accShape
  let fmt := fmtdesc s t (hFdi c)
  let rd := rdesc s t (pRdi c)
  let a := (segOf r (pSeg c)).acc
  failIf (r.accShape.toNat < 2) 0x06 0 ++
  failIf (shapeSegs r.accShape ≤ pSeg c) 0x07 1 ++
  failIf (tapM c < l) 0x08 1 ++
  failIf (!fmtOk r.compat fmt) 0x04 0 ++
  rdFails s t rd (rowInt fmt) ++
  failIf (pKeepw c && a.loaded != some (BitVec.ofNat 4 (fWf fmt))) 0x0C 1 ++
  feedFails s t c fmt 0 (tapM c) l ++
  failIf (outOk rd (rowInt fmt) && l ≤ tapM c &&
    !scrRangeOwned s (tileOwner s t) (rdBase rd + c.w7.toNat * rdStride rd) ((tapM c - l + 1) * fmtWidth (rdFmt rd) / 8)) 0x05 6

/-- R93. -/
def shapeFails (s : State) (t : Fin 64) : List Fail :=
  failIf ((rowOf s t).segs.any (fun g => !g.2.acc.ents.isEmpty)) 0x09 0

/-- Every check of a row command at acceptance (R79, R102, R193). -/
def rowFails (s : State) (t : Fin 64) (c : Cmd) (fab : Bool) : List Fail :=
  failIf (!fab && fabMaster s t) 0x0E 0 ++
  match rowOpOf (hOpc c) with
  | none => [(0x02, 0)]
  | some op => rsvFails c (rowRsv op) ++
    match op with
    | .pass => passFails s t c
    | .flush => flushFails s t c
    | .argx => argxFails s t c
    | .tap => tapFails s t c
    | .shape => shapeFails s t

/-! ### What an accepted command leaves (R80) -/

/-- Entries, records and loaded format of its segment after a row command. -/
def accAfter (a : SegAcc) (c : RowCmd) : SegAcc :=
  match c.op with
  | .pass =>
    let e := pA c.cmd
    let n := pB c.cmd
    let int := rowInt c.fmt
    let a := sweepRecs (setEnts a e n idleEnt)
    let slot := freeSlot a
    let a := if pClose c.cmd then
        let rcd : Rec := { first := e, count := n, int, sat := hSat c.cmd, rdi := pRdi c.cmd, rd := c.rd, off := c.cmd.w7.toNat }
        let a := setEnts a e n { k := .pending, int, slot }
        { a with recs := tset rec0 a.recs slot rcd }
      else setEnts a e n { k := .opened, int, slot := 0 }
    if pKeepw c.cmd then a else { a with loaded := some (BitVec.ofNat 4 (fWf c.fmt)) }
  | .flush | .argx => sweepRecs (setEnts a (pA c.cmd) (pB c.cmd) idleEnt)
  | .tap => if pKeepw c.cmd then a else { a with loaded := some (BitVec.ofNat 4 (fWf c.fmt)) }
  | .shape => segAcc0

/-- A checked command as the queue holds it: captured descriptors and the entries it emits with their records. -/
def mkRowCmd (s : State) (t : Fin 64) (op : RowOp) (c : Cmd) (fab : Option (BitVec 16)) (n : Nat) : RowCmd :=
  let r := rowOf s t
  let seg := segNo op c
  let a := (segOf r seg).acc
  let emits := match op with
    | .pass => if pOpen c then pendings a (pA c) (pB c) else []
    | .flush | .argx => pendings a (pA c) (pB c)
    | _ => []
  let total := match op with
    | .pass => pB c | .flush | .argx => emits.length | .tap => tapM c | .shape => 0
  { id := r.nextId, op, seg, cmd := c, fabric := fab, seqno := n, fmt := fmtdesc s t (hFdi c),
    rd := rdesc s t (if op = .argx then xRdi c else pRdi c), emits, total, admitted := 0, started := false, outs := 0 }

/-- The segments after acceptance. -/
def accSegs (r : Row) (c : RowCmd) : Row :=
  if c.op = .shape then
    { r with accShape := BitVec.ofNat 2 (bits c.cmd.w1 1 0),
             segs := (List.range 8).foldl (fun t i => tupd seg0 t i (fun g => { g with acc := segAcc0 })) r.segs }
  else updSeg r c.seg (fun g => { g with acc := accAfter g.acc c })

/-! ### Completion and skips, sequencer's and fabric's (R82, R102) -/

/-- The completion beat of a fabric command. -/
def fabBeat (n : BitVec 16) (status reason : Nat) : Beat :=
  { data := BitVec.ofNat 512 (n.toNat + status * 2 ^ 16 + reason * 2 ^ 24), sb := 0x02 }

/-- A boundary queue of 32 beats and the beats their sender holds for it (R351): the queue takes what it has room for. -/
def bqFill (q held : List Beat) : List Beat × List Beat := (q ++ held.take (32 - q.length), held.drop (32 - q.length))

/-- Beats for the fabric on the operand port; those that arise while the port is not connected are not sent (R96). -/
def opSend (s : State) (t : Fin 64) (bs : List Beat) : State :=
  if !portConn s t then s
  else updRow s t (fun r => let (q, w) := bqFill r.opOut (r.opWait ++ bs); { r with opOut := q, opWait := w })

/-- Beats for the fabric on the result port (R99). -/
def resSend (s : State) (t : Fin 64) (bs : List Beat) : State :=
  if !portConn s t then s
  else updRow s t (fun r => let (q, w) := bqFill r.resOut (r.resWait ++ bs); { r with resOut := q, resWait := w })

def sendFab (s : State) (t : Fin 64) (b : Beat) : State := opSend s t [b]

/-- A row command completes. -/
def rowDone (s : State) (t : Fin 64) (c : RowCmd) : State :=
  let s := pulseIf (hEvc c.cmd) s (Blk.key (.row t)) 0
  match c.fabric with
  | some n => sendFab (if hEvc c.cmd then sev s t 0 else s) t (fabBeat n 0 0)
  | none => doneCmd s t c.cmd c.seqno

/-- A row command is skipped. -/
def rowSkip (s : State) (t : Fin 64) (c : Cmd) (fab : Option (BitVec 16)) (n : Nat) (f : Fail) : State :=
  match fab with
  | some k =>
    let s := pulse (skipLog s t (w32 (2 ^ 31 + k.toNat)) c.hdr f) (Blk.key (.row t)) 2
    sendFab s t (fabBeat k 1 f.1)
  | none => skipCmd s t c n f

/-- Acceptance (R79): skipped, completed at once (R87, R88), or queued. -/
def rowAccept (s : State) (t : Fin 64) (c : Cmd) (fab : Option (BitVec 16)) (n : Nat) : State :=
  match worst (rowFails s t c fab.isSome), rowOpOf (hOpc c) with
  | some f, _ => rowSkip s t c fab n f
  | none, none => s
  | none, some op =>
    let x := mkRowCmd s t op c fab n
    let s := updRow s t (fun r => { accSegs r x with nextId := r.nextId + 1 })
    if (op = .flush ∨ op = .argx) ∧ x.total = 0 then rowDone s t x
    else updRow s t (fun r => { r with queue := r.queue ++ [x] })

/-! ### Fabric commands (R102, R194) -/

/-- The check of a fabric command at step 2 of R179. -/
def fabFails (c : Cmd) : List Fail :=
  failIf (hUnit c != 0) 0x01 0 ++ failIf (c.hdr.getLsbD 23 || c.hdr.getLsbD 31) 0x03 0 ++
  failIf (hPidx c != 0 || hPsense c) 0x03 0 ++ failIf (bits c.hdr 30 24 != 0) 0x0F 0

/-- Take held fabric commands in order, each with the number of its beat: one with FENCE waits for every earlier one, and all wait for queue space. -/
def fabPump (t : Fin 64) : Nat → State → State
  | 0, s => s
  | f + 1, s =>
    let r := rowOf s t
    match r.fabHeld with
    | [] => s
    | (c, n) :: rest =>
      let waits := (hFence c && (r.queue ++ r.exec).any (fun x => x.fabric.isSome)) || decide (16 ≤ r.queue.length) ||
        !isGoing s (.row t)
      if waits then s
      else
        let s := updRow s t (fun r => { r with fabHeld := rest })
        fabPump t f (match worst (fabFails c) with
          | some x => rowSkip s t c (some n) 0 x
          | none => rowAccept s t c (some n) 0)

def fabAll (t : Fin 64) (s : State) : State := fabPump t (rowOf s t).fabHeld.length s

end Sys2Proof.Machine
end

