-- ==== Sys2Proof/Machine/RowExec.lean ====
section
/-! DEFINITION. The row at work: starting commands, the Updraft ramp, items moving down the lanes, the weight front,
    emission, the result writer, extension ports, faults, stop-now and reset (R55-R112, R120, R517). -/

namespace Sys2Proof.Machine

/-- Word 1 of a tile log entry (R115). -/
def rowSrc (c : RowCmd) : W32 := match c.fabric with | some n => w32 (2 ^ 31 + n.toNat) | none => c.cmd.src

/-! ### Undefined and abandoned (R109, R110) -/

/-- Segments as they stand with every executing command abandoned: its entries IDLE, its weights not loaded. -/
def abandonSegs (r : Row) : Row :=
  let r := r.exec.foldl (fun r c => updSeg r c.seg (fun g =>
    let a := match c.op with
      | .pass => sweepRecs (setEnts g.act (pA c.cmd) (pB c.cmd) idleEnt)
      | .flush | .argx => sweepRecs (c.emits.foldl (fun a e => setEnts a e.1 1 idleEnt) g.act)
      | _ => g.act
    let loads := (c.op == .pass || c.op == .tap) && !pKeepw c.cmd
    { g with act := if loads then { a with loaded := none } else a })) r
  { r with accShape := r.shape, queue := [], exec := [],
           segs := (List.range 8).foldl (fun t i => tupd seg0 t i (fun g =>
             { seg0 with acc := g.act, act := g.act })) r.segs }

/-- Entries an executing command touches. -/
def touchedEnts (c : RowCmd) : List Nat :=
  match c.op with
  | .pass => (List.range (pB c.cmd)).map (· + pA c.cmd)
  | .flush | .argx => c.emits.map (·.1)
  | _ => []

/-- What an accumulator holds that nothing has written since reset, or since the row left all of them undefined: 0, or a
    free value of its own (R68, R110). -/
def accBase (r : Row) (k : Nat) : W32 := match r.accSeed with | none => 0 | some b => (Config.freeWord (b + k)).setWidth 32

/-- The accumulator at lane × 256 + entry. -/
def accAt (r : Row) (k : Nat) : W32 := tgetD (accBase r) r.accv k

/-- Write it. -/
def accPut (r : Row) (k : Nat) (v : W32) : Row :=
  { r with accv := if r.accSeed.isNone then tset 0 r.accv k v else tins r.accv k v }

/-- Free values in an entry of every lane of a segment. -/
def undefEnt (s : State) (t : Fin 64) (seg l e : Nat) : State :=
  (List.range l).foldl (fun s i =>
    let (v, s) := draw s
    updRow s t (fun r => accPut r ((seg * l + i) * 256 + e) (w32 v.toNat))) s

/-- Every accumulator of a row takes a free value: 512 × 256 of them are drawn. -/
def undefAccs (s : State) (t : Fin 64) : State :=
  updRow { s with frees := s.frees + 512 * 256 } t (fun r => { r with accv := [], accSeed := some s.frees })

/-- Items drop, the ramp drops to level 0, what is on its way through the ports drops: but for the completion beats in
    `kept`, which report commands that had completed. -/
def dropItems (kept : List Beat) (r : Row) : Row :=
  { r with level := 0, credit := 0, steps := 0, grantWait := false, granted := false, opOut := (bqFill [] kept).1, opIn := [],
           resOut := [], awaiting := [], opWait := (bqFill [] kept).2, resWait := [] }

/-- The grant request of a tile is withdrawn. -/
def dropGrant (s : State) (t : Fin 64) : State :=
  { s with power := { s.power with grantQ := s.power.grantQ.filter (· != t) } }

/-- Destination rows of executing commands not yet written: where they lie and how long they are. -/
def unwritten (r : Row) (c : RowCmd) : List (Nat × Nat) :=
  let l := shapeL r.shape
  let live (i e : Nat) : Bool := decide (c.admitted ≤ i) ||
    (segOf r c.seg).items.any (fun x => x.cmd == c.id && (x.kind == .flush e || x.kind == .argx e || x.kind == .token (e - pA c.cmd)))
  match c.op with
  | .argx => (c.emits.zipIdx.filter (fun (x, i) => live i x.1)).map (fun (x, _) => (argxAt c.rd c.cmd x.1, 8))
  | .tap =>
    let w := fmtWidth (rdFmt c.rd) / 8
    let n := c.outs
    [(rdBase c.rd + c.cmd.w7.toNat * rdStride c.rd + n * w, (c.total - l + 1 - n) * w)]
  | _ => (c.emits.zipIdx.filter (fun (x, i) => live (if c.op = .pass then x.1 - pA c.cmd else i) x.1)).map (fun ((e, rcd), _) =>
      (rdBase rcd.rd + (rcd.off + (e - rcd.first)) * rdStride rcd.rd, rowBytes rcd.rd l))

/-- STOPNOW on a row (R109). The spec names neither the fabric commands that are numbered and still held before the queue,
    which run after RUN here, nor completion beats on their way to the fabric, which still go (DESIGN CHOICE, log entry 63). -/
def rowStopnow (s : State) (t : Fin 64) : State :=
  let r := rowOf s t
  let l := shapeL r.shape
  let s := (r.exec.flatMap (unwritten r) ++ r.awaiting.map (fun p => (p.addr, rowBytes p.rd l))).foldl (fun s x => undefRange s x.1 x.2) s
  let s := r.exec.foldl (fun s c => (touchedEnts c).foldl (fun s e => undefEnt s t c.seg l e) s) s
  dropGrant (updRow s t (fun r => dropItems ((r.opOut ++ r.opWait).filter (·.sb.getLsbD 1)) (abandonSegs r))) t

/-- The row enters FAULT (R110): every accumulator is undefined, no completion returns. -/
def rowFault (s : State) (t : Fin 64) (code seg : Nat) (src : W32) (a lane : Nat) : State :=
  let s := logE s (Blk.key (.row t)) (w32 (code + seg * 2 ^ 8)) src (w32 a) (w32 (a / 2 ^ 32 % 2 ^ 16 + lane * 2 ^ 16))
  faultBlk (dropGrant (updRow (undefAccs s t) t (fun r => dropItems [] (abandonSegs r))) t) (.row t)

/-! ### Starting commands (R81, R108) -/

/-- Send token j of a TPATH 0b10 pass to the fabric (R98). -/
def sendToken (s : State) (t : Fin 64) (c : RowCmd) (j : Nat) : State :=
  let m := memRead s (tileInit s t) (tokAt c.cmd j) (tokBytes c.fmt)
  if m.rsn ≠ 0 then rowFault m.st t 1 c.seg (rowSrc c) m.at_ 0
  else
    let es := m.data.take (tokElems c.fmt)
    let bs := (chunksF 64 (es.length + 1) es) ++ (if fTs c.fmt then [m.data.drop (tokElems c.fmt)] else [])
    let out := bs.zipIdx.map (fun (b, i) =>
      ({ data := BitVec.ofNat 512 (leNat b), sb := BitVec.ofNat 8 (b2n (i + 1 == bs.length) + c.seg * 4) } : Beat))
    opSend m.st t out

/-- Whether a queued command may start: nothing of its segment before it, every started one fully admitted. -/
def mayStart (r : Row) (before : List RowCmd) (c : RowCmd) : Bool :=
  c.op != .shape && before.all (fun x => x.op != .shape && x.seg != c.seg) &&
  r.exec.all (fun x => x.seg != c.seg || x.admitted == x.total)

/-- The first command of the queue that may start. -/
def startable (r : Row) : List RowCmd → List RowCmd → Option RowCmd
  | _, [] => none
  | b, c :: t => if mayStart r b c then some c else startable r (b ++ [c]) t

/-- Start what may start. -/
def rowStart (t : Fin 64) : Nat → State → State
  | 0, s => s
  | f + 1, s =>
    let r := rowOf s t
    if !isGoing s (.row t) then s
    else match startable r [] r.queue with
      | none => s
      | some c =>
        let s := updRow s t (fun r => { r with queue := r.queue.filter (fun x => x.id != c.id),
                                               exec := r.exec ++ [{ c with started := true }] })
        rowStart t f (if c.op = .pass ∧ pPath c.cmd = 2 then sendToken s t c 0 else s)

/-- Fabric commands and queued commands move on. -/
def rowPump (t : Fin 64) (s : State) : State :=
  let s := fabAll t s
  rowStart t (rowOf s t).queue.length s

/-! ### The result writer (R67, R94, R95) -/

/-- One value in the output format, as bytes. -/
def outBytes (rd : RDesc) (int sat : Bool) (v : W32) : List Byte :=
  let w := fmtWidth (rdFmt rd)
  leBytes (w / 8) (if int then outScaled sat w v rd.mult (rdShift rd) else outElem sat (rdFmt rd) (f32 v))

/-- Write bytes of a command's result; an error response puts the tile in FAULT (error 0x03). -/
def rowWrite (s : State) (t : Fin 64) (c : RowCmd) (acc sat : Bool) (a : Nat) (d : List Byte) : State :=
  let m := if acc then memAccum s (tileInit s t) a d sat else memWrite s (tileInit s t) a d
  if m.rsn ≠ 0 then rowFault m.st t 3 c.seg (rowSrc c) m.at_ 0 else m.st

/-- Count one result at its destination tile. -/
def rowCount (s : State) (t : Fin 64) (c : RowCmd) (rd : RDesc) (a : Nat) : State :=
  if !rdCount rd || inFault s (.row t) then s
  else
    let (rsn, s) := countFor s t (countTile t a) (rdCnt rd)
    if rsn ≠ 0 then rowFault s t 3 c.seg (rowSrc c) a 0 else s

/-- A command in the row. -/
def execCmd (r : Row) (id : Nat) : Option RowCmd := r.exec.find? (fun c => c.id == id)

/-- A change to a command in the row. -/
def updExec (s : State) (t : Fin 64) (id : Nat) (f : RowCmd → RowCmd) : State :=
  updRow s t (fun r => { r with exec := r.exec.map (fun x => if x.id = id then f x else x) })

/-- Append an output of a TAP (R92): outputs that fill a word, or the last one, are written. -/
def tapPut (s : State) (t : Fin 64) (c : RowCmd) (v : W32) : State :=
  let l := shapeL (rowOf s t).shape
  let g := segOf (rowOf s t) c.seg
  let d := outBytes c.rd (rowInt c.fmt) (hSat c.cmd) v
  let a := rdBase c.rd + c.cmd.w7.toNat * rdStride c.rd + c.outs * d.length - g.tapBuf.length
  let buf := g.tapBuf ++ d
  let last := c.outs + 1 == c.total + 1 - l
  let full := last || (a + buf.length) % 4 == 0
  let s := updRow s t (fun r => updSeg r c.seg (fun g => { g with tapBuf := if full then [] else buf }))
  let s := updExec s t c.id (fun x => { x with outs := c.outs + 1 })
  let s := if full then rowWrite s t c (rdAcc c.rd) (hSat c.cmd) a buf else s
  if last then rowCount s t c c.rd (rdBase c.rd + c.cmd.w7.toNat * rdStride c.rd) else s

/-- The writer converts and writes one result: a row, or an output of a TAP (R94, R95). -/
def writeOne (s : State) (t : Fin 64) (p : PortOut) : State :=
  match execCmd (rowOf s t) p.cmd with
  | none => s
  | some c =>
    if c.op = .tap then tapPut s t c (p.got.headD 0)
    else
      let s := rowWrite s t c (rdAcc p.rd) p.sat p.addr (p.got.flatMap (outBytes p.rd p.int p.sat))
      if p.count then rowCount s t c p.rd p.addr else s

/-- The results of a segment that wait behind none are written, in emission order (R95). -/
def writeReady (t : Fin 64) (seg : Nat) : Nat → State → State
  | 0, s => s
  | f + 1, s =>
    match (rowOf s t).awaiting.find? (fun p => p.seg == seg) with
    | some p =>
      if p.beats = 0 then writeReady t seg f (writeOne (updRow s t (fun r => { r with awaiting := r.awaiting.erase p })) t p) else s
    | none => s

/-- Beats of values on the result port. -/
def valBeats (seg : Nat) (vals : List W32) : List Beat :=
  let cs := chunksF 16 (vals.length + 1) vals
  cs.zipIdx.map (fun (v, i) =>
    { data := BitVec.ofNat 512 (leNat (bytesOf v)), sb := BitVec.ofNat 8 (b2n (i + 1 == cs.length) + seg * 4) })

/-- A result is complete: it goes out on the result port and is awaited back (R99), or it is written once every earlier
    result of its segment is (R95). R99 speaks of FP32 values; integer accumulators go out as their INT32 words (DESIGN
    CHOICE, log entry 63). -/
def putResult (s : State) (t : Fin 64) (c : RowCmd) (rd : RDesc) (sat int count : Bool) (a : Nat) (vals : List W32) : State :=
  let p : PortOut := { cmd := c.id, seg := c.seg, beats := 0, got := vals, addr := a, rd, sat, int, count }
  let add (s : State) (p : PortOut) : State := updRow s t (fun r => { r with awaiting := r.awaiting ++ [p] })
  if rdVia rd then
    let bs := valBeats c.seg vals
    resSend (add s { p with beats := bs.length, got := [] }) t bs
  else if (rowOf s t).awaiting.any (fun x => x.seg == c.seg) then add s p
  else writeOne s t p

/-- A lane emits an entry's value (R65): the row is complete when the last lane has emitted (R67). -/
def emitVal (s : State) (t : Fin 64) (c : RowCmd) (l e : Nat) (rcd : Rec) (v : W32) : State :=
  let g := segOf (rowOf s t) c.seg
  let found := g.rows.find? (fun b => b.cmd == c.id && b.ent == e)
  if rdVia rcd.rd && found.isNone && !portConn s t then rowFault s t 7 c.seg (rowSrc c) 0 0
  else
    let b : RowBuf := found.getD { rcd, row := rcd.off + (e - rcd.first), ent := e, vals := [], cmd := c.id }
    let vals := b.vals ++ [v]
    let rest := g.rows.filter (fun x => !(x.cmd == c.id && x.ent == e))
    if vals.length < l then
      updRow s t (fun r => updSeg r c.seg (fun g => { g with rows := rest ++ [{ b with vals }] }))
    else
      let s := updRow s t (fun r => updSeg r c.seg (fun g => { g with rows := rest }))
      putResult s t c rcd.rd rcd.sat rcd.int (rdCount rcd.rd) (rdBase rcd.rd + b.row * rdStride rcd.rd) vals

/-! ### Lane arithmetic (R59-R64, R91) -/

/-- n elements of a format, packed little-endian (R59). -/
def elems (code n : Nat) (d : List Byte) : List Nat :=
  let v := leNat d
  let w := fmtWidth code
  (List.range n).map (fun i => (v >>> (w * i)) % 2 ^ w)

/-- Elements with their block scales. -/
def scaled (code n : Nat) (d sc : List Byte) (on : Bool) : List Dec :=
  (elems code n d).zipIdx.map (fun (e, i) => decElem code e (if on then some (sc.getD (i / 32) 0).toNat else none))

/-- The group sum of a lane for one token (R132): weight record, token bytes, or decoded words. -/
def groupOf (compat sat : Bool) (fmt : W32) (wrec tok : List Byte) (dec : List W32) : W32 :=
  let k := kOf (fWf fmt)
  if rowInt fmt then
    groupSumI (((elems (fWf fmt) k wrec).map (sext (fmtWidth (fWf fmt)))).zip ((elems (fTf fmt) k tok).map (sext (fmtWidth (fTf fmt)))))
  else
    let ws := scaled (fWf fmt) k (wrec.take 128) (wrec.drop 128) (fWs fmt)
    let ts := if dec.isEmpty then scaled (fTf fmt) k (tok.take (tokElems fmt)) (tok.drop (tokElems fmt)) (fTs fmt)
      else dec.map decWord
    let sixteen := fWf fmt == 8 || fWf fmt == 9 || fTf fmt == 8 || fTf fmt == 9
    groupSumF sat compat sixteen (ws.zip ts)

/-- A sum into an accumulator (R61). -/
def accAdd (int sat : Bool) (a g : W32) : W32 :=
  if int then iadd sat a g else to32 sat ((f32 a).add (f32 g))

/-- The running best of an ARGX item after a lane's value (R89). -/
def argBest (int minm : Bool) (best : W32) (bl : Nat) (v : W32) (lane : Nat) : W32 × Nat :=
  if lane = 0 then (v, 0)
  else
    let better := if int then (if minm then decide (v.toInt < best.toInt) else decide (best.toInt < v.toInt))
      else match (f32 best).isNan, (f32 v).isNan with
        | true, _ => false
        | false, true => true
        | _, _ => if minm then (f32 v).ltNum (f32 best) else (f32 best).ltNum (f32 v)
    if better then (v, lane) else (best, bl)

/-! ### LANE_PROCESS_ITEM (R56, R65, R70, R72) -/

/-- An item brings a front with weights. -/
def bringsWeights (c : RowCmd) : ItemK → Bool
  | .token 0 | .sample 0 => !pKeepw c.cmd
  | _ => false

/-- The entry's stored value at a lane of the row. -/
def accVal (s : State) (t : Fin 64) (lane e : Nat) : W32 := accAt (rowOf s t) (lane * 256 + e)

def setAcc (s : State) (t : Fin 64) (lane e : Nat) (v : W32) : State := updRow s t (fun r => accPut r (lane * 256 + e) v)

/-- A lane meets token j of a pass. -/
def laneToken (s : State) (t : Fin 64) (c : RowCmd) (l lane j : Nat) (it : Item) : State :=
  let e := pA c.cmd + j
  let al := c.seg * l + lane
  let v := accVal s t al e
  let r := rowOf s t
  let g := groupOf r.compat (hSat c.cmd) c.fmt (tget [] r.wts al) it.tok it.dec
  let s := match c.emits.find? (fun x => x.1 == e) with
    | some (_, rcd) => emitVal s t c l e rcd v
    | none => s
  if inFault s (.row t) then s
  else setAcc s t al e (if pOpen c.cmd then g else accAdd (rowInt c.fmt) (hSat c.cmd) v g)

/-- Every lane has met its sample of output n: samples n - L + 1 to n are admitted, and each has passed its lane. -/
def tapFull (g : Seg) (c : RowCmd) (l n : Nat) : Bool :=
  decide (n < c.admitted) && g.items.all (fun x => x.cmd != c.id || match x.kind with
    | .sample m => decide (n < m ∨ m + l ≤ n ∨ n - m < x.lane)
    | _ => true)

/-- A lane meets sample m of a TAP: its term g(lane, m + lane); the last of the L terms of an output completes it (R91). -/
def laneSample (s : State) (t : Fin 64) (c : RowCmd) (l lane m : Nat) (it : Item) : State :=
  let r := rowOf s t
  let g := groupOf r.compat (hSat c.cmd) c.fmt (tget [] r.wts (c.seg * l + lane)) it.tok []
  let n := m + lane
  if n + 1 < l ∨ c.total ≤ n then s
  else
    let key := (c.id * 2 ^ 24 + n) * 512
    let tab := tset 0 (segOf r c.seg).taps (key + lane) g
    let s := updRow s t (fun r => updSeg r c.seg (fun g => { g with taps := tab }))
    if !tapFull (segOf (rowOf s t) c.seg) c l n then s
    else
      let y := (List.range (l - 1)).foldl (fun p i => accAdd (rowInt c.fmt) (hSat c.cmd) p (tget 0 tab (key + i + 1))) (tget 0 tab key)
      let s := updRow s t (fun r => updSeg r c.seg (fun g =>
        { g with taps := tdrop (fun x => decide (key ≤ x ∧ x < key + 512)) g.taps }))
      if rdVia c.rd && !portConn s t then rowFault s t 7 c.seg (rowSrc c) 0 0
      else putResult s t c c.rd (hSat c.cmd) (rowInt c.fmt) false 0 [y]

/-- The result of an ARGX item that has passed the last lane (R88, R89). -/
def argxOut (s : State) (t : Fin 64) (c : RowCmd) (e : Nat) (best : W32) (bl : Nat) (int : Bool) : State :=
  let v := if !int && (f32 best).isNan then 0x7FC00000 else best
  let a := argxAt c.rd c.cmd e
  rowCount (rowWrite s t c false false a (bytesOf [v, w32 bl])) t c c.rd a

/-- The item moves to the next lane, or leaves. -/
def moveItem (s : State) (t : Fin 64) (seg l lane : Nat) (it : Item) : State :=
  updRow s t (fun r => updSeg r seg (fun g =>
    { g with items := if lane + 1 < l then g.items.map (fun x => if x.lane = lane then it else x)
                      else g.items.filter (fun x => x.lane != lane) }))

/-- The record under which an item of a command emits, if it does. -/
def emitRec (c : RowCmd) (k : ItemK) : Option (Nat × Rec) :=
  match k with
  | .token j => c.emits.find? (fun x => x.1 == pA c.cmd + j)
  | .flush e | .argx e => c.emits.find? (fun x => x.1 == e)
  | _ => none

/-- An item that sends values out on the result port while the port's boundary queue has no room for them (R351). -/
def viaHeld (r : Row) (c : RowCmd) (k : ItemK) : Bool :=
  !r.resWait.isEmpty && (match k with
    | .sample _ => rdVia c.rd
    | .token _ | .flush _ => (emitRec c k).any (fun e => rdVia e.2.rd)
    | _ => false)

/-- The item with the lane's value offered to its running best (R88, R89). -/
def argOffer (s : State) (t : Fin 64) (c : RowCmd) (lane : Nat) (it : Item) : Item :=
  match it.kind with
  | .argx e =>
    let (b, bl) := argBest ((emitRec c it.kind).any (·.2.int)) (xMin c.cmd) it.best it.bestLane (accVal s t lane e) lane
    { it with best := b, bestLane := bl }
  | _ => it

/-- A lane processes the item that waits for it, unless a front's weights have not come, the next lane is taken, or the
    result port has no room. -/
def laneProcess (t : Fin 64) (seg lane : Nat) (s : State) : State :=
  let r := rowOf s t
  let l := shapeL r.shape
  let g := segOf r seg
  match g.items.find? (fun x => x.lane == lane) with
  | none => s
  | some it =>
    if !tileOn s t || inFault s (.row t) || decide (l ≤ lane) || g.items.any (fun x => x.lane == lane + 1) then s
    else if it.kind = .null then moveItem s t seg l lane { it with lane := lane + 1 }
    else match execCmd r it.cmd with
      | none => s
      | some c =>
        let wk := c.id * 512 + lane
        match bringsWeights c it.kind, g.inw.lookup wk with
        | true, none => s
        | b, w => if viaHeld r c it.kind then s else
          let s := if b then updRow s t (fun r =>
              { updSeg r seg (fun g => { g with inw := tset [] g.inw wk [] }) with
                wts := tset [] r.wts (seg * l + lane) (w.getD []) })
            else s
          let it := argOffer s t c lane it
          let s := moveItem s t seg l lane { it with lane := lane + 1 }
          match it.kind with
          | .token j => laneToken s t c l lane j it
          | .flush e =>
            (match emitRec c it.kind with
             | some (_, rcd) => emitVal s t c l e rcd (accVal s t (seg * l + lane) e)
             | none => s)
          | .argx e => if lane + 1 < l then s else argxOut s t c e it.best it.bestLane ((emitRec c it.kind).any (·.2.int))
          | .sample m => laneSample s t c l lane m it
          | .null => s

def execLaneProcessItem (t : Fin 64) (seg : Fin 8) (lane : Fin 512) (s : State) : Out :=
  tileAct t (laneProcess t seg.val lane.val) s

/-! ### Feeds (R72, R77, R110) -/

/-- The command of a segment whose front has not yet passed a lane and whose weights for it have not come. -/
def wantsWeights (r : Row) (seg lane : Nat) : Option RowCmd :=
  let g := segOf r seg
  r.exec.find? (fun c => c.seg == seg && (c.op == .pass || c.op == .tap) && !pKeepw c.cmd &&
    (g.inw.lookup (c.id * 512 + lane)).isNone &&
    (c.admitted == 0 || g.items.any (fun x => x.cmd == c.id && bringsWeights c x.kind && decide (x.lane ≤ lane))))

/-- WEIGHT_RECORD_ARRIVAL: the whole 136-byte record is read and delivered. -/
def weightArrive (t : Fin 64) (seg lane : Nat) (s : State) : State :=
  let r := rowOf s t
  if !tileOn s t || inFault s (.row t) || decide (shapeL r.shape ≤ lane) then s
  else match wantsWeights r seg lane with
    | none => s
    | some c =>
      let m := memRead s (tileInit s t) (wgtAt c.cmd lane) 136
      if m.rsn ≠ 0 then rowFault m.st t 2 seg (rowSrc c) m.at_ lane
      else updRow m.st t (fun r => updSeg r seg (fun g => { g with inw := tset [] g.inw (c.id * 512 + lane) m.data }))

def execWeightRecordArrival (t : Fin 64) (seg : Fin 8) (lane : Fin 512) (s : State) : Out :=
  tileAct t (weightArrive t seg.val lane.val) s

/-- ROW_FEED_ERROR: an access of an executing command of the segment received an error response (R110). -/
def feedError (t : Fin 64) (code seg lane : Nat) (a : Nat) (s : State) : State :=
  match (rowOf s t).exec.find? (fun c => c.seg == seg) with
  | none => s
  | some c => if tileOn s t && !inFault s (.row t) then rowFault s t (code + 1) seg (rowSrc c) a lane else s

def execRowFeedError (t : Fin 64) (code : Fin 3) (seg : Fin 8) (lane : Fin 512) (a : Addr) (s : State) : Out :=
  tileAct t (feedError t code.val seg.val lane.val a.toNat) s

/-! ### Admission and the ramp (R103-R107, R515) -/

/-- The command of a segment with items not yet admitted. -/
def admitting (r : Row) (seg : Nat) : Option RowCmd := r.exec.find? (fun c => c.seg == seg && decide (c.admitted < c.total))

def hasWork (r : Row) : Bool := r.exec.any (fun c => decide (c.admitted < c.total))

/-- Beats of one token on the operand port (R98). -/
def tokBeats (dec : Bool) (fmt : W32) : Nat :=
  if dec then kOf (fWf fmt) / 16 else (tokElems fmt + 63) / 64 + b2n (fTs fmt)

/-- Whether a pass takes decoded tokens. -/
def takesDec (s : State) (t : Fin 64) (c : RowCmd) : Bool := pPath c.cmd == 1 && opdec s t

/-- Beats received for a segment. -/
def segBeats (r : Row) (seg : Nat) : List Beat := r.opIn.filter (fun b => bits b.sb 4 2 == seg)

/-- Words of a beat. -/
def beatWords (b : Beat) : List W32 := wordsLE (leBytes 64 b.data.toNat)

/-- The item a command admits next with the beats or scratch data it needs; none where its port data is not complete. -/
def nextItem (s : State) (t : Fin 64) (c : RowCmd) : Option Item × State :=
  let base : Item := { kind := .null, cmd := c.id, lane := 0, tok := [], dec := [], best := 0, bestLane := 0 }
  match c.op with
  | .flush => (some { base with kind := .flush ((c.emits.map (·.1)).getD c.admitted 0) }, s)
  | .argx => (some { base with kind := .argx ((c.emits.map (·.1)).getD c.admitted 0) }, s)
  | .shape => (none, s)
  | _ =>
    let kind : ItemK := if c.op = .tap then .sample c.admitted else .token c.admitted
    if c.op = .pass ∧ (pPath c.cmd = 1 ∨ pPath c.cmd = 2) then
      let dec := takesDec s t c
      let n := tokBeats dec c.fmt
      let bs := (segBeats (rowOf s t) c.seg).take n
      if bs.length < n then (none, s)
      else
        let s := updRow s t (fun r => { r with opIn := bs.foldl (fun l b => l.erase b) r.opIn })
        if dec then (some { base with kind, dec := bs.flatMap beatWords }, s)
        else
          let d := bs.flatMap (fun b => leBytes 64 b.data.toNat)
          let el := tokElems c.fmt
          (some { base with kind, tok := d.take el ++ (if fTs c.fmt then (d.drop (64 * (n - 1))).take 8 else []) }, s)
    else
      let m := memRead s (tileInit s t) (tokAt c.cmd c.admitted) (tokBytes c.fmt)
      if m.rsn ≠ 0 then (none, rowFault m.st t 1 c.seg (rowSrc c) m.at_ 0)
      else (some { base with kind, tok := m.data }, m.st)

/-- The beats of a command's next token have not all come. -/
def portShort (s : State) (t : Fin 64) (c : RowCmd) : Bool :=
  c.op == .pass && (pPath c.cmd == 1 || pPath c.cmd == 2) &&
  decide ((segBeats (rowOf s t) c.seg).length < tokBeats (takesDec s t c) c.fmt)

/-- What keeps a segment's next item out, by its place in the order of R107 after the start grant: 1 a port, 2 the weight
    feed, for which an item held at lane 0 stands too, 3 the token feed, 4 the result writer. -/
def slipRank (late : List (Fin 8 × Late)) (seg : Nat) (port full : Bool) : Option Nat :=
  let has (x : Late) : Bool := late.any (fun e => e.1.val == seg && e.2 == x)
  if port || has .port then some 1 else if has .weights then some 2 else if has .tokens then some 3
  else if has .results then some 4 else if full then some 2 else none

/-- The counter of a slip. -/
def slipReg (n : Nat) : Nat :=
  match n with | 1 => Rg.row.SLIPPORT | 2 => Rg.row.SLIPWGT | 3 => Rg.row.SLIPTOK | _ => Rg.row.SLIPRES

/-- One admission slot of one segment with work: what kept its item out, if anything did. -/
def admitSeg (late : List (Fin 8 × Late)) (t : Fin 64) (s : State) (seg : Nat) : Option Nat × State :=
  let r := rowOf s t
  match admitting r seg with
  | none => (none, s)
  | some c =>
    match slipRank late seg (portShort s t c) ((segOf r seg).items.any (fun x => x.lane == 0)) with
    | some n => (some n, s)
    | none =>
      match nextItem s t c with
      | (none, s) => (none, s)
      | (some it, s) =>
        let s := updRow s t (fun r =>
          { updSeg r seg (fun g => { g with items := g.items ++ [it] }) with
            exec := r.exec.map (fun x => if x.id = c.id then { x with admitted := x.admitted + 1 } else x) })
        let s := bump s (Blk.key (.row t) + Rg.row.TOKCNT)
        (none, if c.op = .pass ∧ pPath c.cmd = 2 ∧ c.admitted + 1 < c.total then sendToken s t c (c.admitted + 1) else s)

/-- The admission of one slot: each segment with work admits one item, and a slot in which one could not counts once, in the
    first counter of the order of R107 that has a cause. -/
def admitAll (late : List (Fin 8 × Late)) (t : Fin 64) (segs : List Nat) (s : State) : State :=
  let (why, s) := segs.foldl (fun (w, s) seg =>
    let (x, s) := admitSeg late t s seg
    (match w, x with | some a, some b => some (min a b) | none, x => x | w, none => w, s)) ((none : Option Nat), s)
  match why with
  | some n => bump s (Blk.key (.row t) + slipReg n)
  | none => s

/-- A null token into one segment (R105). -/
def admitNull (t : Fin 64) (s : State) (seg : Nat) : State :=
  if (segOf (rowOf s t) seg).items.any (fun x => x.lane == 0) then s
  else
    let it : Item := { kind := .null, cmd := 0, lane := 0, tok := [], dec := [], best := 0, bestLane := 0 }
    bump (updRow s t (fun r => updSeg r seg (fun g => { g with items := g.items ++ [it] }))) (Blk.key (.row t) + Rg.row.NULLCNT)

/-- RAMPN of a tile. -/
def rampN (s : State) (t : Fin 64) : Nat := bits (reg s (Blk.key (.row t) + Rg.row.RAMPCTL)) 7 0

/-- The level the ramp may reach: LVLCAP for tiles of best-effort partitions (R515). -/
def levelCap (s : State) (t : Fin 64) : Nat :=
  if fixedShare s (t.val / 16) (tileOwner s t) then 8 else min 8 s.power.lvlcap

/-- The slot once the ramp is above level 0. What the slot's admission leaves of the work, with the next command of a segment
    started behind one that is fully admitted (R81), decides the level at a step's end. -/
def rampStep (late : List (Fin 8 × Late)) (t : Fin 64) (work : Bool) (s : State) : State :=
  let segs := List.range (shapeSegs (rowOf s t).shape)
  let r := rowOf s t
  let full := 8 ≤ r.credit + r.level
  let s := updRow s t (fun r => { r with credit := if full then r.credit + r.level - 8 else r.credit + r.level })
  let s := if full then (if work then admitAll late t segs s else segs.foldl (admitNull t) s) else s
  if inFault s (.row t) then s
  else
    let s := rowPump t s
    let work := hasWork (rowOf s t)
    let last := r.steps + 1 == rampN s t / 8
    let cap := levelCap s t
    updRow s t (fun r =>
      if last then
        let lv := if work then min (r.level + 1) cap else r.level - 1
        { r with steps := 0, level := lv, granted := r.granted && lv != 0 }
      else { r with steps := r.steps + 1 })

/-- RAMP_SLOT (R103): one token slot of the tile's admission. -/
def rampSlot (t : Fin 64) (late : List (Fin 8 × Late)) (s : State) : State :=
  let r := rowOf s t
  let work := hasWork r
  if !tileOn s t || inFault s (.row t) then s
  else if r.level ≠ 0 then rampStep late t work s
  else if !work then s
  else if r.granted then
    rampStep late t work (updRow s t (fun r => { r with level := 1, credit := 7, steps := 0, grantWait := false }))
  else
    let s := bump s (Blk.key (.row t) + Rg.row.SLIPRAMP)
    if r.grantWait then s
    else updRow { s with power := { s.power with grantQ := s.power.grantQ ++ [t] } } t (fun r => { r with grantWait := true })

def execRampSlot (t : Fin 64) (late : List (Fin 8 × Late)) (s : State) : Out :=
  tileAct t (rampSlot t late) s

/-- START_GRANT (R517): the next grant in order of request, GRANTGAP ns after the last. -/
def startGrant (s : State) : State :=
  let gap := regN s (Blk.key .ptm + Rg.ptm.GRANTGAP)
  let ready := match s.power.lastGrant with | none => true | some x => decide (x.toNat + gap ≤ now s)
  match s.power.grantQ with
  | t :: rest =>
    if ready then
      updRow { s with power := { s.power with grantQ := rest, lastGrant := some s.clock.now } } t (fun r => { r with granted := true })
    else s
  | [] => s

def execStartGrant (s : State) : Out := act startGrant s

/-! ### SHAPE and completion (R82, R93) -/

/-- A held SHAPE takes effect. -/
def shapeApply (t : Fin 64) (s : State) : State :=
  let r := rowOf s t
  match r.queue with
  | c :: rest =>
    if c.op = .shape ∧ r.exec = [] ∧ isGoing s (.row t) ∧ tileOn s t then
      let s := updRow s t (fun r =>
        { r with shape := BitVec.ofNat 2 (bits c.cmd.w1 1 0), queue := rest, accv := [], accSeed := none, wts := [],
                 segs := (List.range 8).foldl (fun x i => tupd seg0 x i (fun g => { seg0 with acc := g.acc })) r.segs })
      rowPump t (rowDone s t c)
    else s
  | [] => s

def execShapeApply (t : Fin 64) (s : State) : Out := tileAct t (shapeApply t) s

/-- A command of a segment whose items have left and whose results are written. -/
def finished (r : Row) (c : RowCmd) : Bool :=
  let g := segOf r c.seg
  c.admitted == c.total && g.items.all (fun x => x.kind == .null || x.cmd != c.id) && g.rows.all (fun b => b.cmd != c.id) &&
  r.awaiting.all (fun p => p.cmd != c.id)

/-- ROW_COMMAND_COMPLETE: the oldest command of the segment, if it has finished. -/
def rowComplete (t : Fin 64) (seg : Nat) (s : State) : State :=
  let r := rowOf s t
  match r.exec.find? (fun c => c.seg == seg) with
  | none => s
  | some c =>
    if finished r c && tileOn s t then
      let s := updRow s t (fun r =>
        { updSeg r seg (fun g => { g with act := accAfter g.act c }) with
          exec := r.exec.filter (fun x => x.id != c.id) })
      rowPump t (rowDone s t c)
    else s

def execRowCommandComplete (t : Fin 64) (seg : Fin 8) (s : State) : Out :=
  tileAct t (rowComplete t seg.val) s

/-! ### Rate monitor (R106) -/

def rateEnd (t : Fin 64) (rate : BitVec 16) (s : State) : State :=
  if !domOn s t.val then s
  else
    let k := Blk.key (.row t)
    let s := setReg s (k + Rg.row.RATECUR) (rate.setWidth 32)
    updReg s (k + Rg.row.RATEMIN) (fun v => w32 (min v.toNat rate.toNat))

def execRateIntervalEnd (t : Fin 64) (rate : BitVec 16) (s : State) : Out :=
  act (watched (tilePages t) (rateEnd t rate)) s

/-- RATECTL CLRMIN (R119). -/
def rateClr (t : Fin 64) (s : State) : State := setReg s (Blk.key (.row t) + Rg.row.RATEMIN) 0xFFFF

/-! ### Extension ports (R96-R101) -/

/-- A port protocol error (R100, R120): `res` for the result port, `n` beats of the item received. -/
def portError (s : State) (t : Fin 64) (res : Bool) (cause seg n : Nat) : State :=
  let s := setReg s (Blk.key (.row t) + Rg.row.PORTERR) (w32 (cause + b2n res * 16 + seg * 32 + n % 2 ^ 16 * 2 ^ 16))
  rowFault s t (if res then 5 else 4) seg (match (rowOf s t).exec.find? (fun c => c.seg == seg) with | some c => rowSrc c | none => 0) 0 0

/-- A command uses the operand port, or the result port (R120). -/
def usesPort (r : Row) (res : Bool) : Bool :=
  if res then !r.awaiting.isEmpty || !r.resOut.isEmpty || r.segs.any (fun g => g.2.rows.any (fun b => rdVia b.rcd.rd)) ||
    r.exec.any (fun c => c.op == .tap && rdVia c.rd)
  else r.exec.any (fun c => c.op == .pass && (pPath c.cmd == 1 || pPath c.cmd == 2))

/-- The command of the row that uses a port. -/
def portUser (r : Row) (res : Bool) : Option RowCmd :=
  r.exec.find? (fun c =>
    if res then r.awaiting.any (fun p => p.cmd == c.id) || (segOf r c.seg).rows.any (fun b => b.cmd == c.id && rdVia b.rcd.rd) ||
      (c.op == .tap && rdVia c.rd)
    else c.op == .pass && (pPath c.cmd == 1 || pPath c.cmd == 2))

/-- A CMD beat in fabric-mastered mode: numbered, and shown in FABSEQ, as the tile takes the beat, then taken by the queue in
    order. R102 numbers accepted CMD beats and does not say whether one that waits for the queue counts (DESIGN CHOICE, log
    entry 63). -/
def fabCommand (s : State) (t : Fin 64) (b : Beat) : State :=
  let w := beatWords b
  let n := (rowOf s t).fabNext
  let c : Cmd := Cmd.ofWords (w.take 8) (w32 (2 ^ 31 + n.toNat))
  rowPump t (updRow s t (fun r => { r with fabHeld := r.fabHeld ++ [(c, n)], fabNext := n + 1, fabSeq := n }))

/-- Beats of the token being received for a segment. -/
def partBeats (r : Row) (seg n : Nat) : Nat := if n = 0 then 0 else (segBeats r seg).length % n

/-- Beats received of the item that a segment receives on a port; none if no command there expects one. -/
def itemBeats (s : State) (t : Fin 64) (res : Bool) (seg : Nat) : Option Nat :=
  let r := rowOf s t
  if res then (r.awaiting.find? (fun p => p.seg == seg)).map (fun p => p.got.length / 16)
  else match admitting r seg with
    | some c => if c.op == .pass && (pPath c.cmd == 1 || pPath c.cmd == 2) then some (partBeats r seg (tokBeats (takesDec s t c) c.fmt)) else none
    | none => none

/-- Beats in the boundary queue towards the tile: those beyond the token that a segment is putting together (R351). -/
def opQueued (s : State) (t : Fin 64) : Nat :=
  let r := rowOf s t
  ((List.range 8).map (fun seg => (segBeats r seg).length - (match admitting r seg with
    | some c => tokBeats (takesDec s t c) c.fmt
    | none => 0))).sum + r.fabHeld.length

/-- A beat from the fabric on the operand port (R98, R100); it moves once the boundary queue has room (R351). -/
def operandBeat (t : Fin 64) (b : Beat) (s : State) : State :=
  let r := rowOf s t
  let seg := bits b.sb 4 2
  let n0 := itemBeats s t false seg
  if !tileOn s t || !portMoves s t || decide (32 ≤ opQueued s t) then s
  else
    let s := bump s (Blk.key (.row t) + Rg.row.OPBEATS)
    if inFault s (.row t) then s
    else if bits b.sb 7 5 ≠ 0 then portError s t false 6 seg ((n0.map (· + 1)).getD 0)
    else if b.sb.getLsbD 1 then (if fabMaster s t then fabCommand s t b else portError s t false 3 seg (n0.getD 0))
    else if shapeSegs r.shape ≤ seg then portError s t false 4 seg 0
    else match admitting r seg with
      | none => portError s t false 5 seg 0
      | some c =>
        let dec := takesDec s t c
        let n := tokBeats dec c.fmt
        let have_ := (segBeats r seg).length
        let got := partBeats r seg n + 1
        let room := (c.total - c.admitted) * n
        if c.op != .pass || !(pPath c.cmd == 1 || pPath c.cmd == 2) || decide (room ≤ have_) then
          portError s t false 5 seg (n0.getD 0)
        else if dec && (beatWords b).any (fun w => !([0, 1, 2, 4].contains (bits w 2 0))) then portError s t false 6 seg got
        else if b.sb.getLsbD 0 && got != n then portError s t false 1 seg got
        else if !b.sb.getLsbD 0 && got == n then portError s t false 2 seg got
        else updRow s t (fun r => { r with opIn := r.opIn ++ [b] })

def execOperandPortBeat (t : Fin 64) (b : Beat) (s : State) : Out := tileAct t (operandBeat t b) s

/-- FABRIC_COMMAND_BEAT: the beat with its CMD bit. -/
def execFabricCommandBeat (t : Fin 64) (b : Beat) (s : State) : Out :=
  tileAct t (operandBeat t { b with sb := b.sb ||| 0x02 }) s

/-- A beat from the fabric on the result port (R99, R100). -/
def resultBeat (t : Fin 64) (b : Beat) (s : State) : State :=
  let r := rowOf s t
  let seg := bits b.sb 4 2
  let n0 := itemBeats s t true seg
  if !tileOn s t || !portMoves s t then s
  else
    let s := bump s (Blk.key (.row t) + Rg.row.RESBEATS)
    if inFault s (.row t) then s
    else if bits b.sb 7 5 ≠ 0 then portError s t true 6 seg ((n0.map (· + 1)).getD 0)
    else if b.sb.getLsbD 1 then portError s t true 3 seg (n0.getD 0)
    else if shapeSegs r.shape ≤ seg then portError s t true 4 seg 0
    else match r.awaiting.find? (fun p => p.seg == seg) with
      | none => portError s t true 5 seg 0
      | some p =>
        let got := p.got.length / 16 + 1
        if b.sb.getLsbD 0 && got != p.beats then portError s t true 1 seg got
        else if !b.sb.getLsbD 0 && got == p.beats then portError s t true 2 seg got
        else
          let p' := { p with got := p.got ++ beatWords b }
          if got = p.beats then
            let s := writeOne (updRow s t (fun r => { r with awaiting := r.awaiting.erase p })) t p'
            writeReady t seg (rowOf s t).awaiting.length s
          else updRow s t (fun r => { r with awaiting := r.awaiting.map (fun x => if x = p then p' else x) })

def execResultPortBeat (t : Fin 64) (b : Beat) (s : State) : Out :=
  tileAct t (resultBeat t b) s

/-- EXTENSION_PORT_DISCONNECT (R101): the port is no longer connected and a command uses it. -/
def portLost (t : Fin 64) (res : Bool) (s : State) : State :=
  let r := rowOf s t
  if portConn s t || !tileOn s t || inFault s (.row t) || !usesPort r res then s
  else
    let c := portUser r res
    rowFault s t 7 ((c.map (·.seg)).getD 0) ((c.map rowSrc).getD 0) 0 0

def execExtensionPortDisconnect (t : Fin 64) (res : Bool) (s : State) : Out := tileAct t (portLost t res) s

/-- BEAT_TRANSFER_TO_FABRIC: the first beat of a port's boundary queue goes to the fabric at an edge of the port's clock, and
    the queue takes the next that its sender holds. Beats for a port that is not connected are not sent (R96, R97, R351). -/
def beatOut (t : Fin 64) (res : Bool) (s : State) : State :=
  if !portConn s t then
    updRow s t (fun r => if res then { r with resOut := [], resWait := [] } else { r with opOut := [], opWait := [] })
  else if !portMoves s t then s
  else updRow s t (fun r =>
    if res then let (q, w) := bqFill (r.resOut.drop 1) r.resWait; { r with resOut := q, resWait := w }
    else let (q, w) := bqFill (r.opOut.drop 1) r.opWait; { r with opOut := q, opWait := w })

def execBeatTransferToFabric (t : Fin 64) (res : Bool) (s : State) : Out := act (beatOut t res) s

/-! ### The row commands given to the row (R86-R93) -/

/-- A row command reaches the row: taken while the row runs, its queue has room and its mode is the command's. -/
def rowTake (s : State) (t : Fin 64) (c : Cmd) (n : Nat) : State :=
  rowPump t (rowAccept s t c none n)

/-- The row has room and accepts (R180, R202). -/
def rowRoom (s : State) (t : Fin 64) : Bool :=
  tileOn s t && isGoing s (.row t) && decide ((rowOf s t).queue.length < 16)

/-- A row command given directly: as one that the sequencer has just dispatched. -/
def rowGive (t : Fin 64) (op : Nat) (c : Cmd) (s : State) : State :=
  if !rowRoom s t then s
  else
    let n := (cpu s (.tile t)).nextSeq
    let s := updCpu s (.tile t) (fun p => { p with nextSeq := n + 1, outst := p.outst ++ [n] })
    rowTake s t (withOp c 0 op) n

def execPass (t : Fin 64) (c : Cmd) (s : State) : Out := tileAct t (rowGive t 1 c) s
def execFlush (t : Fin 64) (c : Cmd) (s : State) : Out := tileAct t (rowGive t 2 c) s
def execArgx (t : Fin 64) (c : Cmd) (s : State) : Out := tileAct t (rowGive t 3 c) s
def execTap (t : Fin 64) (c : Cmd) (s : State) : Out := tileAct t (rowGive t 4 c) s
def execShape (t : Fin 64) (c : Cmd) (s : State) : Out := tileAct t (rowGive t 5 c) s

end Sys2Proof.Machine
end

