-- ==== Sys2Proof/Machine/Vec.lean ====
section
/-! DEFINITION. Commands of the vector units, a tile's and a Nimbus engine's: fields, checks, what each computes, its
    reads and writes, and its completion (R186-R189, R191, R323). -/

namespace Sys2Proof.Machine

/-! ### Fields (R186) -/

def vA (c : Cmd) : Nat := addr48 c 1
def vB (c : Cmd) : Nat := addr48 c 3
def vD (c : Cmd) : Nat := addr48 c 5
def vBscal (c : Cmd) : Bool := c.w4.getLsbD 16
def vCnt (c : Cmd) : Nat := bits c.w6 23 16
def vCount (c : Cmd) : Bool := c.w6.getLsbD 24
/-- CTILE, on an engine (R322). -/
def vCtile (c : Cmd) : Fin 64 := fin 64 (bits c.w6 30 25)
def vN (c : Cmd) : Nat := bits c.w7 23 0 + 1
def vFn (c : Cmd) : Nat := bits c.w7 27 24
def vFirst (c : Cmd) : Bool := c.w7.getLsbD 28
def vLast (c : Cmd) : Bool := c.w7.getLsbD 29
/-- ROW64 of a GATHER. -/
def gRow (c : Cmd) : Nat := bits c.w2 31 16

/-- Where a vector unit works: its initiator and partition, its applied mode, the captured format descriptor, whether it
    is an engine, and the tile it counts on when its destination is in DRAM. -/
structure VEnv where
  u : VU
  who : Init
  part : BitVec 4
  compat : Bool
  fmt : W32
  home : Fin 64

def isEng (u : VU) : Bool := match u with | .tile _ => false | .eng _ _ => true

/-- A range of a command: address, bytes, the operand word that names it, whether it is written. -/
structure VRange where
  a : Nat
  n : Nat
  word : Nat
  wr : Bool

/-- Elementwise opcodes with operand B. -/
def isBin (op : Nat) : Bool := decide (1 ≤ op ∧ op ≤ 6)
/-- The row passes, whose B is a state record. -/
def isPass (op : Nat) : Bool := op == 0x10 || op == 0x11 || op == 0x12 || op == 0x14 || op == 0x15 || op == 0x18

/-- Opcodes of a unit (R187, R323), NWAIT and NCOUNT apart. -/
def vOpOk (u : VU) (op : Nat) : Bool :=
  isBin op || op == 0x08 || op == 0x0A || op == 0x10 || op == 0x11 || op == 0x12 || op == 0x14 || op == 0x15 ||
  (isEng u && (op == 0x18 || op == 0x19))

/-- VCVT pairs that R140 or R129 defines and the mode allows. FP32 to FP32 is no conversion between formats and is read as not
    among them (DESIGN CHOICE, log entry 64). -/
def cvtOk (compat : Bool) (fmt : W32) : Bool :=
  let sf := fTf fmt
  let df := fWf fmt
  let ok (c : Nat) : Bool := fmtOf c != .bad && !(compat && decide (2 ≤ c ∧ c ≤ 4))
  ok sf && ok df && (!fTs fmt || scalable sf) && (!fWs fmt || scalable df) &&
  (if df = 0xA then sf != 0xA
   else sf == 0xA && (if fWs fmt then df ≤ 4 else [0, 1, 8, 9, 5, 0xB].contains df))

/-- Bytes of n elements. -/
def cvtBytes (code n : Nat) : Nat := (n * fmtWidth code + 7) / 8

/-- The ranges of a command (R187, R323). -/
def vRanges (e : VEnv) (c : Cmd) : List VRange :=
  let n := vN c
  let a : VRange := ⟨vA c, 4 * n, 1, false⟩
  let d : VRange := ⟨vD c, 4 * n, 5, true⟩
  let rr : VRange := ⟨vB c, 16, 3, false⟩
  let rw : VRange := ⟨vB c, 16, 3, true⟩
  match hOpc c with
  | 0x0A =>
    if !cvtOk e.compat e.fmt then []
    else
      [⟨vA c, cvtBytes (fTf e.fmt) n, 1, false⟩] ++
      (if fTs e.fmt then [⟨vB c, n / 32, 3, false⟩] else []) ++
      [⟨vD c, cvtBytes (fWf e.fmt) n, 5, true⟩] ++
      (if fWs e.fmt then [⟨vB c, n / 32, 3, true⟩] else [])
  | 0x08 => [a, d]
  | 0x10 => [a, rr, rw]
  | 0x11 => [a, rr, d, rw]
  | 0x12 => [⟨vD c, 4 * n, 5, false⟩, rr, d]
  | 0x14 | 0x15 => [a, rr, rw]
  | 0x18 => [a, rr, rw] ++ (if vLast c then [⟨vD c, 4, 5, true⟩] else [])
  | 0x19 => [⟨vB c, 4 * n, 3, false⟩, ⟨vD c, n * 64 * gRow c, 5, true⟩]
  | op => [a] ++ (if vBscal c then [] else [⟨vB c, 4 * n, 3, false⟩]) ++
      (if op = 6 then [⟨vD c, 4 * n, 5, false⟩] else []) ++ [d]

/-- The tile a command counts on (R186, R323). -/
def vCountTile (e : VEnv) (c : Cmd) : Fin 64 :=
  if isEng e.u then vCtile c
  else
    let op := hOpc c
    countTile e.home (if op = 0x10 ∨ op = 0x14 ∨ op = 0x15 then vB c else vD c)

/-- The lowest word that names a command's counting tile (R192): an engine's CTILE, the state record, or D. -/
def vCountWord (e : VEnv) (c : Cmd) : Nat :=
  let op := hOpc c
  if isEng e.u then 6 else if op = 0x10 ∨ op = 0x14 ∨ op = 0x15 then 3 else 5

/-- Reserved bits (R563); words 1-2 of SMX3 are not used. -/
def vRsv (e : VEnv) (c : Cmd) : List (Nat × Nat) :=
  let op := hOpc c
  (if op = 0x12 ∨ op = 0x19 then [] else [(2, 0xFFFF0000)]) ++
  [(4, if op = 0x19 then 0xFFFF0000 else 0xFFFE0000), (6, if isEng e.u then 0x80000000 else 0xFE000000), (7, 0xC0000000)]

/-- Every check of a vector command (R186, R188, R189, R193). -/
def vecFails (s : State) (e : VEnv) (c : Cmd) : List Fail :=
  let op := hOpc c
  let n := vN c
  if !vOpOk e.u op then [(0x02, 0)]
  else
    let rs := vRanges e c
    let blk := fTs e.fmt || fWs e.fmt
    let dl := match rs.find? (fun r => r.wr && r.word == 5) with | some r => r.n | none => 0
    let al := match rs.find? (fun r => r.word == 1) with | some r => r.n | none => 0
    rsvFails c (vRsv e c) ++
    (if op = 0x0A then failIf (!cvtOk e.compat e.fmt) 0x04 0 ++
        failIf (cvtOk e.compat e.fmt && blk && n % 32 != 0) 0x10 7 ++ failIf (cvtOk e.compat e.fmt && blk && vBscal c) 0x10 4
      else []) ++
    failIf (isPass op && vBscal c) 0x10 4 ++
    failIf (6 < vFn c || (op == 0x18 && 2 < vFn c)) 0x10 7 ++
    failIf (op == 0x19 && vA c % 2 ^ 48 % 64 != 0) 0x10 1 ++
    failIf (op == 0x19 && gRow c == 0) 0x10 2 ++
    failIf ((op == 0x11 || op == 0x14 || op == 0x15 || (op == 0x18 && vFn c == 0)) && !vLast c && n % 128 != 0) 0x11 7 ++
    failIf (vA c != vD c && overlaps (vA c) al (vD c) dl) 0x10 1 ++
    (rs.filter (fun r => r.a % 4 != 0 || (r.wr && r.n % 4 != 0))).map (fun r => (0x10, r.word)) ++
    (rs.filter (fun r => !rangeOwned s e.part r.a ((r.n + 3) / 4 * 4))).map (fun r => (0x05, r.word)) ++
    failIf (vCount c && tileOwner s (vCountTile e c) != e.part) 0x12 (vCountWord e c)

/-! ### What a command computes (R139-R152, R187, R188) -/

def vals (d : List Byte) : List Fv := (wordsLE d).map f32

def outVals (sat : Bool) (l : List Fv) : List Byte := bytesOf (l.map (to32 sat))

/-- The functions of VFN. -/
def vfnOf (fn : Nat) (sat compat : Bool) (x : Fv) : Fv :=
  match fn with
  | 0 => frcp sat compat x
  | 1 => frsqrt sat compat x
  | 2 => fexp2 sat compat x
  | 3 => flog2 sat compat x
  | 4 => fexp sat compat x
  | 5 => fsigmoid sat compat x
  | _ => ftanh sat compat x

/-- The two-operand primitives. -/
def vbin (op : Nat) (sat : Bool) (a b d : Fv) : Fv :=
  match op with
  | 1 => fadd sat a b
  | 2 => fsub sat a b
  | 3 => fmul sat a b
  | 4 => fmax a b
  | 5 => fmin a b
  | _ => ffma sat a b d

/-- n elements packed into bytes (R59). -/
def packElems (w : Nat) (l : List Nat) : List Byte :=
  leBytes ((l.length * w + 7) / 8) (l.foldr (fun v acc => acc * 2 ^ w + v % 2 ^ w) 0)

/-- A conversion: elements in, with their scales; destination bytes and scale bytes out. -/
def vcvtOf (sat : Bool) (fmt : W32) (n : Nat) (src sc : List Byte) : List Byte × List Byte :=
  let sf := fTf fmt
  let df := fWf fmt
  let xs := (elems sf n src).zipIdx.map (fun (c, i) => rnd sat (elemVal sf c (if fTs fmt then some (sc.getD (i / 32) 0).toNat else none)))
  if df = 0xA then (outVals sat xs, [])
  else if fWs fmt then
    let bs := (chunksF 32 n xs).map (blockConv df)
    (packElems (fmtWidth df) (bs.flatMap (·.2)), bs.map (fun b => BitVec.ofNat 8 b.1))
  else (packElems (fmtWidth df) (xs.map (outElem sat df)), [])

/-- Word i of a state record. -/
def recWord (r : List Byte) (i : Nat) : W32 := (wordsLE r).getD i 0

/-- The state record after a pass over values (R150, R152, R188, R323). -/
def passRec (op : Nat) (sat compat : Bool) (c : Cmd) (r : List Byte) (x : List Fv) : List W32 :=
  let w := wordsLE r
  let st (i : Nat) : Fv := f32 (w.getD i 0)
  let tot (i : Nat) : Option Fv := if vFirst c then none else some (st i)
  let sum (i : Nat) (l : List Fv) : Fv := (sumGroups sat (tot i) (chunksF 128 l.length l)).getD fzero
  let red (f : Fv → Fv → Fv) : Fv := match tot 0, x with
    | some v, l => l.foldl f v
    | none, h :: t => t.foldl f h
    | none, [] => fzero
  match op with
  | 0x10 => w.set 0 (to32 sat (red fmax))
  | 0x11 => w.set 1 (to32 sat (sum 1 (x.map (fun v => fexp sat compat (fsub sat v (st 0))))))
  | 0x14 =>
    let s1 := sum 1 x
    let n := if vFirst c then vN c else ((w.getD 2 0).toNat + vN c) % 2 ^ 32
    let w := (w.set 1 (to32 sat s1)).set 2 (w32 n)
    if vLast c then w.set 0 (to32 sat (divCount sat compat s1 n)) else w
  | 0x15 =>
    let m2 := sum 1 (x.map (fun v => let d := fsub sat v (st 0); fmul sat d d))
    let w' := w.set 1 (to32 sat m2)
    if vLast c then w'.set 3 (to32 sat (divCount sat compat m2 (w.getD 2 0).toNat)) else w'
  | _ => w.set 0 (to32 sat (match vFn c with | 0 => sum 0 x | 1 => red fmax | _ => red fmin))

/-- What is written where: address and bytes, in order, from the bytes read of each range in order. -/
def vecOut (e : VEnv) (c : Cmd) (got : List (List Byte)) : List (Nat × List Byte) :=
  let op := hOpc c
  let sat := hSat c
  let n := vN c
  let g (i : Nat) : List Byte := got.getD i []
  let a := (vals (g 0)).take n
  match op with
  | 0x0A =>
    let (d, sc) := vcvtOf sat e.fmt n (g 0) (g 1)
    [(vD c, d)] ++ (if fWs e.fmt then [(vB c, sc)] else [])
  | 0x08 => [(vD c, outVals sat (a.map (vfnOf (vFn c) sat e.compat)))]
  | 0x12 =>
    let sm := f32 (recWord (g 1) 1)
    let r := frcp sat e.compat sm
    [(vD c, outVals sat (a.map (smxStep sat e.compat sm r)))]
  | 0x11 =>
    let mx := f32 (recWord (g 1) 0)
    [(vD c, outVals sat (a.map (fun v => fexp sat e.compat (fsub sat v mx)))), (vB c, bytesOf (passRec op sat e.compat c (g 1) a))]
  | 0x10 | 0x14 | 0x15 => [(vB c, bytesOf (passRec op sat e.compat c (g 1) a))]
  | 0x18 =>
    let r := passRec op sat e.compat c (g 1) a
    [(vB c, bytesOf r)] ++ (if vLast c then [(vD c, bytesOf (r.take 1))] else [])
  | _ =>
    let b := if vBscal c then List.replicate n (f32 c.w3) else (vals (g 1)).take n
    let d := vals (g (if vBscal c then 1 else 2))
    [(vD c, outVals sat (((a.zip b).zipIdx).map (fun ((x, y), i) => vbin op sat x y (d.getD i fzero))))]

/-! ### Reads, writes, count -/

/-- Read each range, whole words; the bytes read, or the first error response. -/
def readAll (who : Init) : List VRange → List (List Byte) → State → MemR × List (List Byte)
  | [], got, s => (⟨0, 0, [], s⟩, got)
  | r :: t, got, s =>
    let m := memRead s who r.a ((r.n + 3) / 4 * 4)
    if m.rsn ≠ 0 then (m, got) else readAll who t (got ++ [m.data]) m.st

/-- Write each range. -/
def writeAll (who : Init) : List (Nat × List Byte) → State → MemR
  | [], s => ⟨0, 0, [], s⟩
  | (a, d) :: t, s =>
    let m := memWrite s who a d
    if m.rsn ≠ 0 then m else writeAll who t m.st

/-- The address of a counter's register. -/
def cntAddr (t : Fin 64) (c : Nat) : Nat := 2 * 2 ^ 40 + cntKey t c

/-- The rows a GATHER reads, in index order: none for 0xFFFF_FFFF, which gives zeros. A row beyond the 48-bit addresses lies in
    no mapped space. -/
def gatherRows (s : State) (e : VEnv) (c : Cmd) : List W32 → List Byte → State × List Byte × Option (BitVec 8 × Nat)
  | [], d => (s, d, none)
  | i :: t, d =>
    let n := 64 * gRow c
    let a := vA c + i.toNat * n
    if i = 0xFFFFFFFF then gatherRows s e c t (d ++ List.replicate n 0)
    else if 2 ^ 48 < a + n then (respErr s e.who.die.toNat Rsn.unmapped, d, some (Rsn.unmapped, a))
    else
      let m := memRead s e.who a n
      if m.rsn ≠ 0 then (m.st, d, some (m.rsn, m.at_)) else gatherRows m.st e c t (d ++ m.data)

/-- The part of a destination of n bytes that lies at or beyond the mark of p of m units. -/
def beyond (a n p m : Nat) : Nat × Nat := let k := n * min p m / m; (a + k, n - k)

/-- What a command leaves undefined when it is abandoned at mark p (R191, R201, R326): the elements of D and of a scale array
    from the mark on, and a state record or a word of NRED unless every element was visible. -/
def vBeyond (e : VEnv) (c : Cmd) (p : Nat) : List (Nat × Nat) :=
  let op := hOpc c
  if op = 0x1A ∨ op = 0x1B then []
  else ((vRanges e c).filter (fun r => r.wr)).map (fun r =>
    if (r.word = 5 ∧ op ≠ 0x18) ∨ op = 0x0A then beyond r.a r.n p (vN c) else beyond r.a r.n (p / vN c) 1)

/-- The destinations an abandoned command leaves undefined are made free. -/
def vUndef (s : State) (e : VEnv) (c : Cmd) (p : Nat) : State := undefAll s (vBeyond e c p)

/-- A vector command ends in an error response with the progress mark at p. -/
def vecAbort (s : State) (e : VEnv) (c : Cmd) (p : Nat) (write : Bool) (a : Nat) (rsn : BitVec 8) : State :=
  unitError (vUndef s e c p) (.vec e.u) c write a rsn

/-- The progress mark of a command at work: a free number of its n elements or bytes, since every value stands in memory from
    the start (log entry 10). -/
def markFree (s : State) (u : XU) (n : Nat) : State :=
  let (v, s) := draw s
  updUnit s u (fun x => { x with prog := v.toNat % (n + 1) })

/-- Execute a checked command whole: read, compute, write; an error response ends it (R191, R325). -/
def vecRun (s : State) (e : VEnv) (c : Cmd) : State :=
  let (m, got) := readAll e.who ((vRanges e c).filter (fun r => !r.wr)) [] s
  if m.rsn ≠ 0 then vecAbort m.st e c 0 false m.at_ m.rsn
  else
    let (s, outs, bad) := if hOpc c = 0x19 then
        let (s, d, bad) := gatherRows m.st e c ((wordsLE (got.getD 0 [])).take (vN c)) []
        (s, [(vD c, d)], bad)
      else (m.st, vecOut e c got, none)
    match bad with
    | some (rsn, a) => vecAbort s e c 0 false a rsn
    | none =>
      let w := writeAll e.who outs s
      if w.rsn ≠ 0 then vecAbort w.st e c 0 true w.at_ w.rsn else markFree w.st (.vec e.u) (vN c)

/-- The count of a command whose values are visible: the reason of its response (R182, R564). -/
def vecCount (s : State) (e : VEnv) (c : Cmd) : BitVec 8 × State :=
  if vCount c then cntPacket s e.who false (vCountTile e c) (vCnt c) 1 else (0, s)

/-! ### A tile's vector unit -/

def vecEnv (s : State) (t : Fin 64) (fmt : W32) : VEnv :=
  { u := .tile t, who := tileInit s t, part := tileOwner s t, compat := (tile s t).vec.compat, fmt, home := t }

/-- Start the next command of an idle unit that runs. -/
def vecNext (t : Fin 64) (s : State) : State :=
  let u := (tile s t).vec
  if u.active.isSome || !isGoing s (.vec t) then s
  else match u.queue with
    | [] => s
    | c :: rest =>
      let s := updUnit s (.vec (.tile t)) (fun u => { u with queue := rest, active := some c, prog := 0 })
      vecRun s (vecEnv s t c.fmt) c.cmd

/-- Commands a unit holds: the executing one counts towards the 8 or 4 (DESIGN CHOICE, log entry 65; R181 gives the numbers). -/
def unitCount (u : Unit) : Nat := u.queue.length + b2n u.active.isSome

def vecRoom (s : State) (t : Fin 64) : Bool := tileOn s t && isGoing s (.vec t) && decide (unitCount (tile s t).vec < 8)

/-- Acceptance by the tile's vector unit: checked, with FMTDESC captured (R181, R187). -/
def vecTake (s : State) (t : Fin 64) (c : Cmd) (n : Nat) : State :=
  let fmt := fmtdesc s t (hFdi c)
  match worst (vecFails s (vecEnv s t fmt) c) with
  | some f => skipCmd s t c n f
  | none =>
    vecNext t (updUnit s (.vec (.tile t)) (fun u => { u with queue := u.queue ++ [{ cmd := c, seqno := n, fmt, idx := 0 }] }))

/-- The executing command of a tile's vector unit completes: its values are visible, it counts, and it retires. -/
def vecComplete (t : Fin 64) (s : State) : State :=
  match (tile s t).vec.active with
  | none => s
  | some c =>
    let e := vecEnv s t c.fmt
    let (rsn, s) := vecCount s e c.cmd
    if rsn ≠ 0 then vecAbort s e c.cmd (vN c.cmd) true (cntAddr (vCountTile e c.cmd) (vCnt c.cmd)) rsn
    else
      let s := updUnit s (.vec (.tile t)) (fun u => { u with active := none, prog := 0 })
      let s := pulse (bump s (Blk.key (.vec t) + Rg.vec.VCMDCNT)) (Blk.key (.vec t)) 0
      vecNext t (doneCmd s t c.cmd c.seqno)

/-- STOPNOW of a tile's vector unit, or of its tile: the command is abandoned and the queue cleared (R201). -/
def vecStopnow (t : Fin 64) (s : State) : State :=
  let s := match (tile s t).vec.active with
    | some c => vUndef s (vecEnv s t c.fmt) c.cmd (tile s t).vec.prog
    | none => s
  updUnit s (.vec (.tile t)) clearUnit

/-- A fresh sequence number for a command given to a unit directly, as one the sequencer has just dispatched. -/
def giveSeq (s : State) (t : Fin 64) : Nat × State :=
  let n := (cpu s (.tile t)).nextSeq
  (n, updCpu s (.tile t) (fun p => { p with nextSeq := n + 1, outst := p.outst ++ [n] }))

/-- A vector command given to a tile's vector unit. -/
def vecGive (t : Fin 64) (op : Nat) (c : Cmd) (s : State) : State :=
  if !vecRoom s t then s
  else let (n, s) := giveSeq s t; vecTake s t (withOp c 1 op) n

end Sys2Proof.Machine
end

