-- ==== Sys2Proof/Machine/Mover.lean ====
section
/-! DEFINITION. The data mover and the sync unit of a tile: MCOPY with its bank read modes, MFILL, SEM, CNTADD, CNTSET
    (R190, R191, R220-R222), and the completion and error events of the units. -/

namespace Sys2Proof.Machine

/-! ### Data mover: fields and reads (R190, R220-R222) -/

def mLen (c : Cmd) : Nat := c.w5.toNat
def mDst (c : Cmd) : Nat := addr48 c 3
def mSrc (c : Cmd) : Nat := addr48 c 1
def mMode (c : Cmd) : Nat := bits c.w6 3 0

/-- The 64-byte source blocks of a strided read, or the rows of a transposed one, in order; for a linear one the
    range itself is read. -/
def mBlocks (c : Cmd) : List Nat :=
  let p := c.w7
  match mMode c with
  | 1 => (List.range (mLen c / 64)).map (fun k =>
      let r := bits p 19 16 + 1
      mSrc c + 64 * (k / r * bits p 15 0 + k % r))
  | 2 | 3 | 4 => (List.range (mLen c / 64)).map (fun k => mSrc c + 64 * (k / 64 * bits p 31 16 + k % 64 * bits p 15 0))
  | _ => []

/-- The ranges an MCOPY reads. -/
def mReads (c : Cmd) : List (Nat × Nat) :=
  if mMode c = 0 then [(mSrc c, mLen c)] else (mBlocks c).map (fun a => (a, 64))

/-- An address lies in scratch. -/
def inScr (a : Nat) : Bool := decide (2 ^ 40 ≤ a ∧ a < 2 ^ 40 + 2 ^ 33)

/-- Every 4,096-byte block of a transposed read has its rows in the scratch of one tile. -/
def oneTile (c : Cmd) : Bool :=
  (chunksF 64 (mLen c / 64 + 1) (mBlocks c)).all (fun rows =>
    rows.all inScr && rows.all (fun a => scrTile (a - 2 ^ 40) == scrTile (rows.headD 0 - 2 ^ 40)))

/-- Every check of a data mover command (R190, R193, R220). Memory owned by the partition includes its DRAM: R186 and R190 name
    DRAM sources and destinations (DEDUCED, log entry 68). -/
def movFails (s : State) (t : Fin 64) (c : Cmd) : List Fail :=
  let p := tileOwner s t
  let op := hOpc c
  let m := mMode c
  if op ≠ 1 ∧ op ≠ 2 then [(0x02, 0)]
  else
    let sane := 64 ≤ mLen c && mLen c % 64 == 0
    rsvFails c ([(4, 0xFFFF0000), (6, 0xFE00FFF0)] ++ if op = 1 then [(2, 0xFFFF0000)] else []) ++
    failIf (!sane) 0x10 5 ++
    failIf (!rangeOwned s p (mDst c) (mLen c)) 0x05 3 ++
    failIf (vCount c && tileOwner s (countTile t (mDst c)) != p) 0x12 3 ++
    (if op = 2 then failIf (m != 0) 0x10 6
     else
      failIf (4 < m) 0x10 6 ++
      failIf (m == 0 && c.w7 != 0) 0x10 6 ++
      failIf (m == 1 && bits c.w7 31 20 != 0) 0x03 7 ++
      failIf (2 ≤ m && m ≤ 4 && bits c.w7 15 0 == 0) 0x10 6 ++
      failIf (1 ≤ m && m ≤ 4 && (!inScr (mSrc c) || mSrc c % 64 != 0)) 0x10 1 ++
      failIf (2 ≤ m && m ≤ 4 && mLen c % 4096 != 0) 0x10 5 ++
      failIf (2 ≤ m && m ≤ 4 && !oneTile c) 0x10 1 ++
      failIf (sane && (mReads c).any (fun r => overlaps r.1 r.2 (mDst c) (mLen c))) 0x10 1 ++
      failIf (sane && m ≤ 4 && (mReads c).any (fun r => !rangeOwned s p r.1 r.2)) 0x05 1)

/-- A transposed block: element (r, c) of width w goes to byte c × 64w + r × w (R222). -/
def transpose (w : Nat) (rows : List (List Byte)) : List Byte :=
  (List.range (64 / w)).flatMap (fun c => rows.flatMap (fun r => (r.drop (c * w)).take w))

/-- Read a list of ranges, in order. -/
def readRanges (who : Init) : List (Nat × Nat) → List (List Byte) → State → MemR × List (List Byte)
  | [], got, s => (⟨0, 0, [], s⟩, got)
  | (a, n) :: t, got, s =>
    let m := memRead s who a n
    if m.rsn ≠ 0 then (m, got) else readRanges who t (got ++ [m.data]) m.st

/-- Conflicts of a burst of bank reads of a transposed or strided copy: in each bank cycle sixteen reads are issued to the
    sixteen banks of a group and each bank serves one; a bank counts every cycle in which a read waits for it (R216, R222).
    The accesses of different commands never meet in a cycle of the model (log entry 57). -/
def bankConflicts (s : State) (as : List Nat) : State :=
  let os := (as.filter inScr).map (· - 2 ^ 40)
  (os.map grpKey).eraseDups.foldl (fun s g =>
    let os := os.filter (fun o => grpKey o == g)
    (List.range 16).foldl (fun s b =>
      let mine := (os.filter (fun o => o / 64 % 16 == b)).length
      if (os.length + 15) / 16 < mine then bump s (g + Rg.bank.CONFLICT + 4 * b) (mine - 1) else s) s) s

/-- The conflicts of an MCOPY that reads banks in bursts of 64 blocks. -/
def movConflicts (c : Cmd) (s : State) : State :=
  if mMode c = 0 then s else (chunksF 64 (mLen c / 64 + 1) (mBlocks c)).foldl bankConflicts s

/-- A data mover command abandoned at mark p leaves its destination undefined from there (R191, R201). -/
def mUndef (s : State) (c : Cmd) (p : Nat) : State := undefAll s [beyond (mDst c) (mLen c) p (mLen c)]

/-- A data mover command ends in an error response with the progress mark at p. -/
def movAbort (s : State) (t : Fin 64) (c : Cmd) (p : Nat) (write : Bool) (a : Nat) (rsn : BitVec 8) : State :=
  unitError (mUndef s c p) (.mover t) c write a rsn

/-- Execute a data mover command whole. -/
def movRun (s : State) (t : Fin 64) (c : Cmd) : State :=
  let who := tileInit s t
  let (m, got) := if hOpc c = 2 then ((⟨0, 0, [], s⟩ : MemR), []) else readRanges who (mReads c) [] s
  if m.rsn ≠ 0 then movAbort m.st t c 0 false m.at_ m.rsn
  else
    let data := if hOpc c = 2 then (List.replicate (mLen c / 4) (leBytes 4 c.w7.toNat)).flatten
      else if mMode c ≤ 1 then got.flatten
      else (chunksF 64 (got.length + 1) got).flatMap (transpose (2 ^ (mMode c - 2)))
    let w := memWrite (movConflicts c m.st) who (mDst c) data
    if w.rsn ≠ 0 then movAbort w.st t c 0 true w.at_ w.rsn else markFree w.st (.mover t) (mLen c)

/-- Start the next command of an idle data mover. -/
def movNext (t : Fin 64) (s : State) : State :=
  let u := (tile s t).mover
  if u.active.isSome || !unitsGo s t then s
  else match u.queue with
    | [] => s
    | c :: rest =>
      movRun (updUnit s (.mover t) (fun u => { u with queue := rest, active := some c, prog := 0 })) t c.cmd

def movRoom (s : State) (t : Fin 64) : Bool := tileOn s t && isGoing s (.seq t) && decide (unitCount (tile s t).mover < 8)

def movTake (s : State) (t : Fin 64) (c : Cmd) (n : Nat) : State :=
  match worst (movFails s t c) with
  | some f => skipCmd s t c n f
  | none => movNext t (updUnit s (.mover t) (fun u => { u with queue := u.queue ++ [{ cmd := c, seqno := n, fmt := 0, idx := 0 }] }))

def movComplete (t : Fin 64) (s : State) : State :=
  match (tile s t).mover.active with
  | none => s
  | some c =>
    let ct := countTile t (mDst c.cmd)
    let (rsn, s) := if vCount c.cmd then cntPacket s (tileInit s t) false ct (vCnt c.cmd) 1 else (0, s)
    if rsn ≠ 0 then movAbort s t c.cmd (mLen c.cmd) true (cntAddr ct (vCnt c.cmd)) rsn
    else movNext t (doneCmd (updUnit s (.mover t) (fun u => { u with active := none, prog := 0 })) t c.cmd c.seqno)

/-- STOPNOW of the tile abandons the data mover's command and clears its queue (R201). -/
def movStopnow (t : Fin 64) (s : State) : State :=
  let s := match (tile s t).mover.active with
    | some c => mUndef s c.cmd (tile s t).mover.prog
    | none => s
  updUnit s (.mover t) clearUnit

def movGive (t : Fin 64) (op : Nat) (c : Cmd) (s : State) : State :=
  if !movRoom s t then s
  else let (n, s) := giveSeq s t; movTake s t (withOp c 2 op) n

def execMcopy (t : Fin 64) (c : Cmd) (s : State) : Out := tileAct t (movGive t 1 c) s
def execMfill (t : Fin 64) (c : Cmd) (s : State) : Out := tileAct t (movGive t 2 c) s

/-! ### Sync unit (R190) -/

def sCnt (c : Cmd) : Nat := bits c.w1 7 0
def aTile (c : Cmd) : Fin 64 := fin 64 (bits c.w1 5 0)
def aCnt (c : Cmd) : Nat := bits c.w1 15 8

def syncFails (s : State) (t : Fin 64) (c : Cmd) : List Fail :=
  match hOpc c with
  | 1 | 3 => rsvFails c [(1, 0xFFFFFF00)]
  | 2 => rsvFails c [(1, 0xFFFF00C0)] ++ failIf (tileOwner s (aTile c) != tileOwner s t) 0x12 1
  | _ => [(0x02, 0)]

/-- The command at the head of the sync unit has done its work. -/
def syncDone (t : Fin 64) (c : UCmd) (s : State) : State :=
  doneCmd (updUnit s (.sync t) (fun u => { u with active := none, waiting := false })) t c.cmd c.seqno

/-- Make what progress the executing command can. -/
def syncWork (t : Fin 64) (s : State) : State :=
  match (tile s t).sync.active with
  | none => s
  | some c =>
    match hOpc c.cmd with
    | 1 =>
      if c.cmd.w2.toNat ≤ (cntVal s t (sCnt c.cmd)).toNat then syncDone t c s
      else updUnit s (.sync t) (fun u =>
        if u.waiting then u else { u with waiting := true, since := s.clock.now })
    | 2 =>
      if earlier s t c.seqno then updUnit s (.sync t) (fun u => { u with waiting := true })
      else
        let (rsn, s) := cntPacket s (tileInit s t) false (aTile c.cmd) (aCnt c.cmd) c.cmd.w2
        if rsn ≠ 0 then unitError s (.sync t) c.cmd true (cntAddr (aTile c.cmd) (aCnt c.cmd)) rsn else syncDone t c s
    | _ =>
      let (rsn, s) := cntPacket s (tileInit s t) true t (sCnt c.cmd) c.cmd.w2
      if rsn ≠ 0 then unitError s (.sync t) c.cmd true (cntAddr t (sCnt c.cmd)) rsn else syncDone t c s

/-- Start commands of the sync unit until one waits. -/
def syncNext (t : Fin 64) : Nat → State → State
  | 0, s => s
  | f + 1, s =>
    let u := (tile s t).sync
    if u.active.isSome || !unitsGo s t then s
    else match u.queue with
      | [] => s
      | c :: rest =>
        let s := syncWork t (updUnit s (.sync t) (fun u => { u with queue := rest, active := some c, waiting := false }))
        syncNext t f s

def syncRoom (s : State) (t : Fin 64) : Bool := tileOn s t && isGoing s (.seq t) && decide (unitCount (tile s t).sync < 8)

def syncTake (s : State) (t : Fin 64) (c : Cmd) (n : Nat) : State :=
  match worst (syncFails s t c) with
  | some f => skipCmd s t c n f
  | none => syncNext t 1 (updUnit s (.sync t) (fun u => { u with queue := u.queue ++ [{ cmd := c, seqno := n, fmt := 0, idx := 0 }] }))

def syncGive (t : Fin 64) (op : Nat) (c : Cmd) (s : State) : State :=
  if !syncRoom s t then s
  else let (n, s) := giveSeq s t; syncTake s t (withOp c 3 op) n

/-- Look again at the command the sync unit executes, if it is of an opcode. A stopping tile's CNTADD completes (R199). -/
def syncAgain (t : Fin 64) (op : Nat) (s : State) : State :=
  match (tile s t).sync.active with
  | some c => if hOpc c.cmd = op ∧ !isStopped s (.seq t) then syncSettle t (syncNext t 8 (syncWork t s)) else s
  | none => s

def execSem (t : Fin 64) (c : Cmd) (s : State) : Out := tileAct t (syncGive t 1 c) s
/-- SEM_SATISFIED: the waiting SEM looks at its counter. -/
def execSemSatisfied (t : Fin 64) (s : State) : Out := tileAct t (syncAgain t 1) s
def execCntadd (t : Fin 64) (c : Cmd) (s : State) : Out := tileAct t (syncGive t 2 c) s
/-- CNTADD_PERFORM: every earlier command has completed and the increment is made. -/
def execCntaddPerform (t : Fin 64) (s : State) : Out := tileAct t (syncAgain t 2) s
def execCntset (t : Fin 64) (c : Cmd) (s : State) : Out := tileAct t (syncGive t 3 c) s

end Sys2Proof.Machine
end

