-- ==== Sys2Proof/Machine/Route.lean ====
section
/-! DEFINITION. The network's shape and the way of a packet through it (R25, R28, R413, R414), its header (R410), and the
    probe of each router (R435-R437). -/

namespace Sys2Proof.Machine

/-- A router: die and number. -/
abbrev Node := Nat × Nat

/-! ### Bridges and the grid (R25, R28, R413) -/

/-- The die of stack s. -/
def stackDie (s : Nat) : Nat := 8 + 11 * s

/-- The bridges in the order of R28. -/
def bridges : List (Nat × Nat) :=
  [(0, 1), (2, 3), (0, 2), (1, 3)] ++
  [(0, stackDie 0), (0, stackDie 7), (1, stackDie 1), (1, stackDie 2), (3, stackDie 3), (3, stackDie 4), (2, stackDie 5), (2, stackDie 6)] ++
  [(0, 96), (1, 97), (2, 98), (3, 99)] ++
  [(96, stackDie 0), (96, stackDie 7), (97, stackDie 1), (97, stackDie 2), (99, stackDie 3), (99, stackDie 4), (98, stackDie 5),
   (98, stackDie 6)] ++
  [(100, stackDie 0), (101, stackDie 1), (102, stackDie 4), (102, stackDie 5)] ++ [(103, stackDie 6), (103, stackDie 7)]

/-- Two dies share a bridge. -/
def joined (a b : Nat) : Bool := bridges.contains (a, b) || bridges.contains (b, a)

/-- Grid place of an Anvil router. -/
def gridOf (n : Node) : Nat × Nat := (4 * (n.1 / 2) + n.2 / 4, 4 * (n.1 % 2) + n.2 % 4)
def gridNode (g : Nat × Nat) : Node := (2 * (g.1 / 4) + g.2 / 4, 4 * (g.1 % 4) + g.2 % 4)

/-- The grid place at which the bridge of a stack or fabric die ends. -/
def gate (die : Nat) : Nat × Nat :=
  match dieKind die with
  | .base => match (die - 8) / 11 with
    | 0 => (0, 1) | 1 => (0, 6) | 2 => (1, 7) | 3 => (6, 7) | 4 => (7, 6) | 5 => (7, 1) | 6 => (6, 0) | _ => (1, 0)
  | _ => match die with
    | 96 => (0, 0) | 97 => (0, 7) | 98 => (7, 0) | _ => (7, 7)

/-- The grid place of an end that has one of its own (R414). -/
def place (n : Node) : Nat × Nat :=
  match dieKind n.1 with
  | .anvil => gridOf n
  | .base | .fabric => gate n.1
  | _ => if n.1 = 100 then gate (stackDie 0) else gate (stackDie 1)

/-- The stack through which a Horizon or Zenith die's home path runs, by its other end. -/
def gateStack (die : Nat) (other : Node) : Nat :=
  if die = 100 then stackDie 0 else if die = 101 then stackDie 1
  else if die = 102 then (if other.1 = 103 ∨ (place other).2 ≤ 3 then stackDie 5 else stackDie 4)
  else if other.1 ≠ 102 ∧ (place other).1 ≤ 3 then stackDie 7 else stackDie 6

/-- Whether a die's home path runs through a stack. -/
def viaStack (die : Nat) : Bool := match dieKind die with | .horizon | .zenith => true | _ => false

/-- The router of a die other than an Anvil die that carries its bridge to another. -/
def bridgeRtr (die other : Nat) : Nat :=
  match dieKind die with
  | .base => if dieKind other = .anvil then 0 else 3
  | .zenith => if other = stackDie 7 then 0 else 1
  | _ => 0

/-- A router carries, or faces, the bridge of its die to another. -/
def carries (n : Node) (other : Nat) : Bool :=
  match dieKind n.1, dieKind other with
  | .anvil, .anvil =>
    if n.1 / 2 = other / 2 then n.2 % 4 == (if n.1 < other then 3 else 0) else n.2 / 4 == (if n.1 < other then 3 else 0)
  | .anvil, _ => gate other == gridOf n
  | _, _ => bridgeRtr n.1 other == n.2

/-- Links 5 to 7 of a router: the dies across its bridges and bridge ports, in the order of R28. -/
def bridgesAt (n : Node) : List Nat :=
  (bridges.filterMap (fun b => if b.1 = n.1 then some b.2 else if b.2 = n.1 then some b.1 else none)).filter (carries n)

def bridgeLink (n : Node) (other : Nat) : Nat := 5 + (bridgesAt n).idxOf other

/-! ### The next router of a packet (R414): the node, and the link it leaves by -/

/-- A step along a die's line of routers (links east and west by rising number: log entry 19). -/
def lineStep (cur : Node) (r : Nat) : Node × Nat :=
  if cur.2 < r then ((cur.1, cur.2 + 1), 2) else ((cur.1, cur.2 - 1), 4)

/-- A step on the grid: along the row first, then along the column. -/
def gridStep (cur : Node) (g : Nat × Nat) : Node × Nat :=
  let p := gridOf cur
  let (q, l) : (Nat × Nat) × Nat :=
    if p.2 < g.2 then ((p.1, p.2 + 1), 2) else if g.2 < p.2 then ((p.1, p.2 - 1), 4)
    else if p.1 < g.1 then ((p.1 + 1, p.2), 3) else ((p.1 - 1, p.2), 1)
  let n := gridNode q
  (n, if n.1 = cur.1 then l else bridgeLink cur n.1)

/-- The router at which a bridge from `frm` ends on die `to`. -/
def landing (die frm : Nat) : Node := if dieKind die = .anvil then gridNode (gate frm) else (die, bridgeRtr die frm)

/-- Cross to a joined die from the router that carries the bridge, or move toward that router. -/
def crossTo (cur : Node) (die : Nat) : Node × Nat :=
  if carries cur die then (landing die cur.1, bridgeLink cur die)
  else lineStep cur (bridgeRtr cur.1 die)

/-- The step of a packet from `src` to `dst` at `cur`, which is not where it goes. -/
def hop (src dst cur : Node) : Node × Nat :=
  if cur.1 = dst.1 then (if dieKind cur.1 = .anvil then gridStep cur (gridOf dst) else lineStep cur dst.2)
  else if dieKind cur.1 = .anvil then
    if dieKind dst.1 = .anvil then gridStep cur (gridOf dst)
    else
      let d := if viaStack dst.1 then gateStack dst.1 src else dst.1
      if gridOf cur = gate d then crossTo cur d else gridStep cur (gate d)
  else if joined cur.1 dst.1 ∧ (cur.1 = src.1 ∨ (viaStack dst.1 ∧ gateStack dst.1 src = cur.1)) then crossTo cur dst.1
  else if viaStack cur.1 then crossTo cur (gateStack cur.1 dst)
  else crossTo cur (gridNode (gate cur.1)).1

/-! ### Packet headers (R410, R411) -/

def isReg (r : Req) : Bool := r.addr.toNat / 2 ^ 40 == 2

/-- OPC of a packet. -/
def pktOpc (p : Pkt) : Nat :=
  if p.resp.isSome then 8
  else match p.req.kind with
    | .read => if isReg p.req then 5 else 0
    | .write => if isReg p.req then 6 else 1
    | .accum => 2 | .cntInc => 3 | .cntSet => 4

/-- DSTDIE: for a request to scratch memory or to the page of a bank group the scratch die, which the network reaches through
    the Anvil router above it (R410, R413, R414). -/
def pktDstDie (p : Pkt) : Nat :=
  let a := p.req.addr.toNat
  let scratch := (scrOff p.req.addr).isSome ||
    (isReg p.req && match blkOfKey (a - 2 * 2 ^ 40) with | some (.bank _ _, _) => true | _ => false)
  p.dstDie.toNat + if p.resp.isNone && scratch then 4 else 0

/-- The priority a packet travels at: 3 without the privilege bit is 2. -/
def pktPri (p : Pkt) : Nat := if p.req.who.pri = 3 ∧ !p.req.who.op then 2 else p.req.who.pri.toNat

def srcTag : Src → Nat
  | .region _ t | .port _ t => t % 4096
  | .ctx _ _ _ n => n % 4096
  | .host _ i k => (16 * i + k) % 4096
  | _ => 0

/-- Header bits [31:0] and [63:32]. -/
def pktHdr (p : Pkt) : W32 × W32 :=
  let q := p.req
  (w32 (pktDstDie p + p.dstRtr.toNat * 2 ^ 7 + q.who.die.toNat * 2 ^ 11 + q.who.rtr.toNat * 2 ^ 18 + pktPri p * 2 ^ 22 +
     q.who.part.toNat * 2 ^ 24 + b2n q.who.op * 2 ^ 28 + b2n q.coh * 2 ^ 29 + b2n q.sat * 2 ^ 30),
   w32 (pktOpc p + srcTag p.src * 2 ^ 4 + (q.cnt.getD 0).toNat * 2 ^ 16 + b2n q.cnt.isSome * 2 ^ 24))

/-- Payload in 64-byte units. -/
def pktUnits (p : Pkt) : Nat :=
  let n := match p.resp with | some (_, d) => d.length | none => p.req.data.length
  (n + 63) / 64

/-! ### The four physical networks (R28, R407) -/

/-- Every bridge and every link between routers carries one link of each. -/
inductive PNet where
  | request | response | data | snoop
  deriving DecidableEq, Repr

/-- The NET code of a probe's filter, in the order of R407. PRESUMED (log entry 69): the spec does not number them. -/
def PNet.code : PNet → Nat
  | .request => 0 | .response => 1 | .data => 2 | .snoop => 3

/-- The networks and virtual networks that a packet takes: its header's, and the data network for its payload. -/
def pktNets (p : Pkt) : List (PNet × Nat) :=
  let vn := b2n (isReg p.req)
  match p.resp with
  | some (_, d) => (.response, vn) :: if d.isEmpty then [] else [(.data, 1)]
  | none => (.request, vn) :: if p.req.data.isEmpty then [] else [(.data, 0)]

/-- The fields of PRFMATCH of a packet on a network. -/
def pktFilter (p : Pkt) (n : PNet) : Nat :=
  let q := p.req.who
  q.part.toNat + q.die.toNat * 2 ^ 4 + pktDstDie p * 2 ^ 11 + n.code * 2 ^ 18 + pktOpc p * 2 ^ 20 + pktPri p * 2 ^ 24 +
    b2n q.op * 2 ^ 26

/-- What a probe sees of a packet: its filter fields on each network it takes, its payload, header words and address. -/
structure Seen where
  filters : List Nat
  units : Nat
  h0 : W32
  h1 : W32
  addr : W32

def pktSeen (p : Pkt) : Seen :=
  { filters := (pktNets p).map (fun n => pktFilter p n.1), units := pktUnits p, h0 := (pktHdr p).1, h1 := (pktHdr p).2,
    addr := w32 p.req.addr.toNat }

/-! ### Probes (R435-R437) -/

def probeKey (n : Node) : Nat := Blk.key (.probe n.1 n.2)

/-- The probe is enabled; its counters count unless FREEZE holds them. -/
def probeOn (s : State) (n : Node) : Bool := regBit s (probeKey n + Rg.probe.PRCTL) 0
def probeCounts (s : State) (n : Node) : Bool := probeOn s n && !regBit s (probeKey n + Rg.probe.PRCTL) 1
def probeBump (n : Node) (o c : Nat) (s : State) : State := if probeCounts s n then bump s (probeKey n + o) c else s

/-- A trace entry is made while tracing is enabled; a full trace stops, with event source 0 as it fills, or wraps. -/
def traceAdd (n : Node) (p : Seen) (s : State) : State :=
  let c := reg s (probeKey n + Rg.probe.PRTRCTL)
  let k := 16 * n.1 + n.2
  let l := tget [] s.net.traces k
  let e : TraceEnt := { h0 := p.h0, h1 := p.h1, a := p.addr, t := w32 (now s) }
  if !c.getLsbD 0 then s
  else if l.length < 256 then
    let s := { s with net := { s.net with traces := tset [] s.net.traces k (l ++ [e]) } }
    pulseIf (c.getLsbD 1 && l.length == 255) s (probeKey n) 0
  else if c.getLsbD 1 then s
  else { s with net := { s.net with traces := tset [] s.net.traces k (l.drop 1 ++ [e]), wrapped := tset false s.net.wrapped k true } }

/-- A packet leaves a router by a link: its probe counts it, and once more if it passes the filter on a network it takes. -/
def probeSeen (n : Node) (link : Nat) (p : Seen) (s : State) : State :=
  let k := probeKey n
  if !probeOn s n then s
  else
    let s := probeBump n (Rg.probe.PRLNKBYTE + 8 * link) p.units (probeBump n (Rg.probe.PRLNKPKT + 8 * link) 1 s)
    let m := regN s (k + Rg.probe.PRFMASK)
    if p.filters.any (fun f => (f ^^^ regN s (k + Rg.probe.PRFMATCH)) &&& m == 0)
    then traceAdd n p (probeBump n Rg.probe.PRFBYTES p.units (probeBump n Rg.probe.PRFPKT 1 s)) else s
def probeOut (n : Node) (link : Nat) (p : Pkt) (s : State) : State := probeSeen n link (pktSeen p) s

/-- The histogram bin of a latency in ns. -/
def histBin (t : Nat) : Nat := min 15 (if t < 8 then 0 else Nat.log2 t - 2)

/-- A response without an error. -/
def respOk (p : Pkt) : Bool := match p.resp with | some (c, _) => c == 0 | none => false

/-- A response reaches its initiator's router: statistics of the partition selected, with the bytes that it brings or that
    it says are written (R436). -/
def probeResp (p : Pkt) (lat : Nat) (s : State) : State :=
  let n : Node := (p.req.who.die.toNat, p.req.who.rtr.toNat)
  let k := probeKey n
  let w := reg s (k + Rg.probe.PRSTATSEL)
  let q := p.req.who
  if !probeCounts s n || !(w.getLsbD 5 || (bits w 3 0 == q.part.toNat && w.getLsbD 4 == q.op)) then s
  else
    let s := bump (bump s (k + Rg.probe.PRREQ)) (k + Rg.probe.PRHIST + 4 * histBin lat)
    if p.req.kind = .read then bump s (k + Rg.probe.PRRDBYTES) (pktUnits p)
    else if p.req.data.isEmpty ∨ !respOk p then s else bump s (k + Rg.probe.PRWRBYTES) ((p.req.len + 63) / 64)

end Sys2Proof.Machine
end

