-- ==== Sys2Proof/Machine/Packet.lean ====
section
/-! DEFINITION. Packets: where an address is served (R37, R413), sending a request into the network and taking a response
    from it (R408, R410, R417), and the access of a caching agent to the coherent system region (R425). -/

namespace Sys2Proof

/-- The router of its die that serves a block (R413). -/
def Blk.rtr : Blk → Nat
  | .probe _ r => r
  | .ptab _ => 0
  | .row t | .seq t | .vec t | .acnt t => t.val % 16
  | .bank t _ => t.val % 16
  | .seng _ | .pvm _ => 0
  | .chan _ c => c.val / 8
  | .nve _ e => e.val / 4
  | .check _ k => k.val / 2
  | .region r => r.val % 4
  | .port p | .lanes p => p.val % 32 / 16
  | .pcie _ => 0
  | _ => 1

namespace Machine

/-- Register space: the offset from its base, if the address lies there (R36). -/
def regOff (a : Nat) : Option Nat := if 2 * 2 ^ 40 ≤ a ∧ a < 2 * 2 ^ 40 + 2 ^ 31 then some (a - 2 * 2 ^ 40) else none

/-- The block and page of a register address. -/
def regBlk (a : Nat) : Option (Blk × Nat) := (regOff a).bind blkOfKey

/-- Window space: region and offset (R35). -/
def winOff (a : Nat) : Option (Fin 16 × Nat) :=
  if 3 * 2 ^ 40 ≤ a ∧ a < 4 * 2 ^ 40 then some (fin 16 (a / 2 ^ 36), a % 2 ^ 36) else none

/-- Die and router that serve an address; none where it is not mapped. -/
def targetOf (s : State) (a : Nat) : Option (Nat × Nat) :=
  if inDram a then
    let (k, l) := dramMap s a
    some (8 + 11 * k.val, (locChan l).val / 8)
  else match scrOff (BitVec.ofNat 48 a) with
    | some o => let t := scrTile o; some (t.val / 16, t.val % 16)
    | none =>
      match winOff a with
      | some (r, _) => some (96 + r.val / 4, r.val % 4)
      | none => (regBlk a).map (fun (b, _) => (tableDie b.die, b.rtr))

/-- Whether a request is one the initiator's router maps: the address, and the form of a register access, which carries no
    counter index (R36, R39, R227). -/
def mapped (s : State) (r : Req) : Bool :=
  let a := r.addr.toNat
  match regOff a with
  | some _ => (regBlk a).isSome && r.len == 4 && a % 4 == 0 && (r.kind == .read || r.kind == .write) && r.cnt.isNone
  | none => (targetOf s a).isSome

/-- A response at its initiator. -/
def respHere (s : State) (src : Src) (r : Req) (reason : BitVec 8) (d : List Byte) : State :=
  sendResp s src r r.who.die.toNat r.who.rtr.toNat reason d

/-- A request enters the network at its initiator's router, which answers UNMAPPED itself (R417). -/
def netSend (s : State) (src : Src) (r : Req) : State :=
  match mapped s r, targetOf s r.addr.toNat with
  | true, some (d, k) =>
    let p : Pkt := { req := r, src, fromDie := r.who.die, fromRtr := r.who.rtr, dstDie := BitVec.ofNat 7 d,
                     dstRtr := BitVec.ofNat 4 k, die := r.who.die, rtr := r.who.rtr, inp := 0, resp := none,
                     at_ := s.clock.now }
    let o := if src = .nobody then s.net.outst else s.net.outst ++ [(src, s.clock.now)]
    { s with net := { s.net with pkts := s.net.pkts ++ [p], outst := o } }
  | _, _ => respHere (respErr s r.who.die.toNat Rsn.unmapped) src r Rsn.unmapped []

/-- A packet is where it goes. -/
def arrived (p : Pkt) : Bool := p.die == p.dstDie && p.rtr == p.dstRtr

/-- A response leaves the network at its initiator: the probe there counts it and takes its latency. -/
def takePkt (p : Pkt) (s : State) : State :=
  let t := ((s.net.outst.find? (fun o => o.1 == p.src)).map (·.2)).getD s.clock.now
  let s := { s with net := { s.net with
    pkts := s.net.pkts.erase p, outst := s.net.outst.eraseP (fun o => o.1 == p.src) } }
  probeResp p (now s - t.toNat) (probeOut (p.die.toNat, p.rtr.toNat) 0 p s)

/-- The first response for `src` that has reached it, and the network without it. -/
def takeResp (s : State) (src : Src) : Option ((BitVec 8 × List Byte) × State) :=
  match s.net.pkts.find? (fun p => p.src == src && p.resp.isSome && arrived p) with
  | none => none
  | some p => p.resp.map (fun r => (r, takePkt p s))

/-! ### A caching agent's own accesses (R425) -/

/-- An agent comes to hold a line: Modified copies of others are written back; for ownership the others are invalidated,
    else they become Shared. -/
def cohGet (s : State) (who : Init) (i line : Nat) (own : Bool) : State :=
  match copyOf s line i with
  | some .modified => s
  | some .exclusive => s
  | some .shared =>
    if own then
      let s := (holders s line).foldl (fun s j => if j = i then s else dropCopy s line j) s
      setCopy s line i .exclusive (copyData s line i)
    else s
  | none =>
    if lineRefused s line then (lineAcc s who line .read []).2.2
    else
    let others := (holders s line).filter (· != i)
    let s := others.foldl (fun s j =>
      let s := wbCopy s line j
      if own then dropCopy s line j else setCopy s line j .shared (copyData s line j)) s
    bringLine s who line i (if own ∨ others = [] then .exclusive else .shared)

/-- A management core reads bytes of one line at an offset of the region. Where the line meets an error response the spec does
    not state what the core reads: free values (log entry 3). -/
def coreRead1 (s : State) (k : Fin 4) (o n : Nat) : List Byte × State :=
  let s := cohGet s coreInit k.val (o / 64) false
  if (copyOf s (o / 64) k.val).isNone then drawBytes n s
  else (((copyData s (o / 64) k.val).drop (o % 64)).take n, s)

/-- A management core writes bytes of one line: its copy becomes Modified. A line that meets an error response is not
    written. -/
def coreWrite1 (s : State) (k : Fin 4) (o : Nat) (d : List Byte) : State :=
  let line := o / 64
  let s := cohGet s coreInit k.val line true
  let old := copyData s line k.val
  if (copyOf s line k.val).isNone then s
  else setCopy s line k.val .modified (old.take (o % 64) ++ d ++ old.drop (o % 64 + d.length))

/-- A management core reads the lines of a range. -/
def coreReadL (k : Fin 4) : List (Nat × Nat) → State → List Byte × State
  | [], s => ([], s)
  | (a, n) :: t, s =>
    let (x, s) := coreRead1 s k a n
    let (y, s) := coreReadL k t s
    (x ++ y, s)

/-- A management core writes the lines of a range. -/
def coreWriteL (k : Fin 4) : List (Nat × Nat) → List Byte → State → State
  | [], _, s => s
  | (a, n) :: t, d, s => coreWriteL k t (d.drop n) (coreWrite1 s k a (d.take n))

def coreRead (s : State) (k : Fin 4) (o n : Nat) : List Byte × State := coreReadL k (blocksOf o n) s

def coreWrite (s : State) (k : Fin 4) (o : Nat) (d : List Byte) : State := coreWriteL k (blocksOf o d.length) d s

/-! ### Responses no one waits for (R347, R408, R507) -/

/-- The responses awaited by the sources `p` holds of are discarded when they come. -/
def orphan (p : Src → Bool) (s : State) : State :=
  let n := s.net
  { s with net := { n with pkts := n.pkts.map (fun q => if p q.src then { q with src := .nobody } else q),
                           outst := n.outst.filter (fun o => !p o.1) },
           chans := s.chans.map (fun e =>
             (e.1, { e.2 with queue := e.2.queue.map (fun q => if p q.src then { q with src := .nobody, acked := true } else q) })),
           stks := s.stks.map (fun e =>
             (e.1, { e.2 with waits := e.2.waits.map (fun w => if p w.src then { w with src := .nobody } else w) })) }

end Machine
end Sys2Proof
end

