-- ==== Sys2Proof/Machine/Seq.lean ====
section
/-! DEFINITION. The Jirun processor: registers and windows, traps and double faults, control registers, its memories,
    and the instructions other than those that issue commands (R160-R176, R195, R196, R524). -/

namespace Sys2Proof.Machine

/-! ### Widths (R160, R524) -/

def xlen : Cpu → Nat | .tile _ => 32 | .core _ => 64
/-- Where instruction fetch ends. -/
def imTop : Cpu → Nat | .tile _ => 0x20000 | .core _ => 0x4000000
/-- Where data memory ends. -/
def dmTop : Cpu → Nat | .tile _ => 0x10000 | .core _ => 0x4000000
def isTile : Cpu → Bool | .tile _ => true | .core _ => false

/-- An integer modulo 2^n. -/
def wrapN (n : Nat) (v : Int) : Nat := (v % (2 ^ n : Nat)).toNat

/-- A change made by a processor: stops of its tile take hold and its event levels are latched. -/
def cpuAct (q : Cpu) (f : State → State) : State → Out :=
  match q with
  | .tile t => tileAct t f
  | .core _ => act f

/-- Raise a counter of page +3 of a tile's sequencer. -/
def seqCnt (q : Cpu) (off : Nat) (s : State) : State :=
  match q with
  | .tile t => bump s (Blk.key (.seq t) + off)
  | .core _ => s

/-! ### Registers (R165, R170) -/

def winOf (p : Proc) : Nat := if p.intrap then 7 else p.curwin

def rgKey (p : Proc) (f : RegF) : Nat := if f.toNat < 8 then f.toNat else 8 + 16 * winOf p + (f.toNat - 8)

/-- g0 reads 0. -/
def rg (q : Cpu) (p : Proc) (f : RegF) : Nat := if f = 0 then 0 else (tget 0 p.regs (rgKey p f)).toNat % 2 ^ xlen q

/-- g0 ignores writes. -/
def setRg (q : Cpu) (p : Proc) (f : RegF) (v : Nat) : Proc :=
  if f = 0 then p else { p with regs := tset 0 p.regs (rgKey p f) (BitVec.ofNat 64 (v % 2 ^ xlen q)) }

/-- Register n of window v. -/
def winReg (p : Proc) (v n : Nat) : BitVec 64 := tget 0 p.regs (8 + 16 * v + n)
def setWinReg (p : Proc) (v n : Nat) (x : BitVec 64) : Proc := { p with regs := tset 0 p.regs (8 + 16 * v + n) x }

/-- q0 reads 1. -/
def qv (p : Proc) (i : BitVec 6) : Bool := i == 0 || p.preds.getLsbD i.toNat
def setQ (p : Proc) (i : BitVec 6) (b : Bool) : Proc :=
  if i = 0 then p
  else { p with preds := if b then p.preds ||| BitVec.ofNat 64 (2 ^ i.toNat) else p.preds &&& ~~~ BitVec.ofNat 64 (2 ^ i.toNat) }

/-! ### Running, retiring, trapping (R164, R169, R173-R175) -/

/-- The processor takes an instruction now: it runs, is not stopped (a trap handler finishes first, R199), waits for
    nothing, and replays nothing. -/
def runs (s : State) (q : Cpu) : Bool :=
  let p := cpu s q
  let free := p.live && p.wait == .none && p.replay.isNone
  match q with
  | .tile t => free && issues s (.seq t) && !p.zeroing &&
      ((blkSt s (.seq t)).run == .going || ((blkSt s (.seq t)).run == .stopping && p.intrap))
  | .core _ => free

/-- The instruction retires at the next word. -/
def retire (q : Cpu) (s : State) : State :=
  seqCnt q Rg.seq.INSTRET (updCpu s q (fun p =>
    { p with pc := BitVec.ofNat 64 ((p.pc.toNat + 4) % 2 ^ xlen q), skipBrk := false, wait := .none }))

/-- It retires at a target. -/
def retireAt (q : Cpu) (a : Nat) (s : State) : State :=
  seqCnt q Rg.seq.INSTRET (updCpu s q (fun p =>
    { p with pc := BitVec.ofNat 64 (a % 2 ^ xlen q), skipBrk := false, wait := .none }))

/-- It writes d and retires. -/
def retireSet (q : Cpu) (d : RegF) (v : Nat) (s : State) : State := retire q (updCpu s q (fun p => setRg q p d v))

/-- Word-aligned addresses within instruction memory, as TRVEC, TRPC and BRKADDR hold them. -/
def imMask : Cpu → Nat | .tile _ => 0x1FFFC | .core _ => 0x3FFFFFC
/-- The bits of SPILLPTR and SPILLLIM. -/
def spMask : Cpu → Nat | .tile _ => 0xFFC0 | .core _ => 0x3FFFFC0

namespace Tr
abbrev winovf : Nat := 0x01
abbrev winunf : Nat := 0x02
abbrev illegal : Nat := 0x03
abbrev ifetch : Nat := 0x04
abbrev align : Nat := 0x05
abbrev dmrange : Nat := 0x06
abbrev dmerr : Nat := 0x07
abbrev swtrap : Nat := 0x08
abbrev recovf : Nat := 0x09
abbrev xerr : Nat := 0x0A
abbrev brk : Nat := 0x0B
end Tr

/-- A double fault (R175): the first trap code is TRCODE as it stands, which a handler may have written (DESIGN CHOICE, log
    entry 65). A management core, which has no register page, stops fetching (log entry 6). -/
def doubleFault (s : State) (q : Cpu) (code : Nat) : State :=
  let p := cpu s q
  match q with
  | .tile t => seqFault s t 1 p.trcode (w32 code) (0x01, w32 p.pc.toNat, p.trcode, w32 p.trinfo.toNat)
  | .core _ => updCpu s q (fun p => { p with live := false })

/-- A trap (R173), with the reason of an error response for XERR. -/
def trap (q : Cpu) (code trpc info : Nat) (s : State) (rsn : BitVec 8 := 0) : State :=
  if (cpu s q).intrap then doubleFault (updCpu s q (fun p => { p with wait := .none })) q code
  else
    seqCnt q Rg.seq.TRAPCNT (updCpu s q (fun p =>
      { p with trpc := BitVec.ofNat 64 (trpc &&& imMask q), trcode := w32 (code + rsn.toNat * 256), trinfo := BitVec.ofNat 64 (info % 2 ^ 32),
               intrap := true, pc := p.trvec, skipBrk := false, wait := .none }))

/-- A trap whose TRPC is the instruction. -/
def trapHere (q : Cpu) (code info : Nat) (s : State) : State := trap q code (cpu s q).pc.toNat info s

/-- The shared form of an instruction: it acts while the processor takes one, and raises ILLEGAL for a reserved register,
    a non-zero unused field or an undefined operation (R166). -/
def instr (q : Cpu) (regs : List RegF) (ok : Bool) (word : W32) (f : State → State) (s : State) : State :=
  if !runs s q then s
  else if !ok || regs.any (fun r => 24 ≤ r.toNat) then trapHere q Tr.illegal word.toNat s
  else f s

/-! ### Encodings (R165) -/

def encRR (op : Nat) (d a b : RegF) (fn : BitVec 11) : W32 :=
  w32 (op * 2 ^ 26 + d.toNat * 2 ^ 21 + a.toNat * 2 ^ 16 + b.toNat * 2 ^ 11 + fn.toNat)
def encRI (op : Nat) (d a : RegF) (imm : BitVec 16) : W32 := w32 (op * 2 ^ 26 + d.toNat * 2 ^ 21 + a.toNat * 2 ^ 16 + imm.toNat)
def encQC (op : Nat) (qd : BitVec 6) (a b : RegF) (cond : BitVec 4) : W32 :=
  w32 (op * 2 ^ 26 + qd.toNat * 2 ^ 20 + a.toNat * 2 ^ 15 + b.toNat * 2 ^ 10 + cond.toNat * 2 ^ 6)
def encQI (op : Nat) (qd : BitVec 6) (a : RegF) (cond : BitVec 4) (imm : BitVec 11) : W32 :=
  w32 (op * 2 ^ 26 + qd.toNat * 2 ^ 20 + a.toNat * 2 ^ 15 + cond.toNat * 2 ^ 11 + imm.toNat)
def encQL (op : Nat) (qd qa qb : BitVec 6) (lfn : BitVec 2) : W32 :=
  w32 (op * 2 ^ 26 + qd.toNat * 2 ^ 20 + qa.toNat * 2 ^ 14 + qb.toNat * 2 ^ 8 + lfn.toNat * 2 ^ 6)
def encBR (op : Nat) (p : BitVec 6) (sense : Bool) (off : BitVec 19) : W32 :=
  w32 (op * 2 ^ 26 + p.toNat * 2 ^ 20 + b2n sense * 2 ^ 19 + off.toNat)
def encJ (op : Nat) (off : BitVec 26) : W32 := w32 (op * 2 ^ 26 + off.toNat)
def encPM (op : Nat) (p : BitVec 6) (a d : RegF) : W32 := w32 (op * 2 ^ 26 + p.toNat * 2 ^ 20 + a.toNat * 2 ^ 15 + d.toNat * 2 ^ 10)
def encCM (op : Nat) (a : BitVec 12) (b : BitVec 13) : W32 := w32 (op * 2 ^ 26 + a.toNat * 2 ^ 14 + b.toNat)

/-! ### Arithmetic (R166, R167) -/

/-- The ALU functions on n-bit values. -/
def aluFn (n fn a b : Nat) : Option Nat :=
  let sh := b % n
  let sa := sext n a
  let sb := sext n b
  match fn with
  | 0x0 => some ((a + b) % 2 ^ n)
  | 0x1 => some (wrapN n ((a : Int) - b))
  | 0x2 => some (a &&& b)
  | 0x3 => some (a ||| b)
  | 0x4 => some (a ^^^ b)
  | 0x5 => some ((a <<< sh) % 2 ^ n)
  | 0x6 => some (a >>> sh)
  | 0x7 => some (wrapN n (sa / (2 ^ sh : Nat)))
  | 0x8 => some (a * b % 2 ^ n)
  | 0x9 => some (a * b / 2 ^ n)
  | 0xA => some (if b = 0 then 2 ^ n - 1 else a / b)
  | 0xB => some (if b = 0 then a else a % b)
  | 0xC => some (if sa < sb then a else b)
  | 0xD => some (if sa < sb then b else a)
  | 0xE => some (min a b)
  | 0xF => some (max a b)
  | _ => none

/-- The compare conditions. -/
def cmpFn (n cond a b : Nat) : Option Bool :=
  match cond with
  | 0 => some (a == b)
  | 1 => some (a != b)
  | 2 => some (decide (sext n a < sext n b))
  | 3 => some (decide (sext n b ≤ sext n a))
  | 4 => some (decide (a < b))
  | 5 => some (decide (b ≤ a))
  | _ => none

def jAlu (q : Cpu) (d a b : RegF) (fn : BitVec 11) : State → State :=
  instr q [d, a, b] (decide (fn.toNat < 16)) (encRR 0x00 d a b fn) (fun s =>
    let p := cpu s q
    retireSet q d ((aluFn (xlen q) fn.toNat (rg q p a) (rg q p b)).getD 0) s)
def execAlu (q : Cpu) (d a b : RegF) (fn : BitVec 11) (s : State) : Out := cpuAct q (jAlu q d a b fn) s

def jAddi (q : Cpu) (d a : RegF) (imm : BitVec 16) : State → State :=
  instr q [d, a] true (encRI 0x01 d a imm) (fun s =>
    retireSet q d (wrapN (xlen q) ((rg q (cpu s q) a : Int) + imm.toInt)) s)
def execAddi (q : Cpu) (d a : RegF) (imm : BitVec 16) (s : State) : Out := cpuAct q (jAddi q d a imm) s

def jAndi (q : Cpu) (d a : RegF) (imm : BitVec 16) : State → State :=
  instr q [d, a] true (encRI 0x02 d a imm) (fun s => retireSet q d (rg q (cpu s q) a &&& imm.toNat) s)
def execAndi (q : Cpu) (d a : RegF) (imm : BitVec 16) (s : State) : Out := cpuAct q (jAndi q d a imm) s

def jOri (q : Cpu) (d a : RegF) (imm : BitVec 16) : State → State :=
  instr q [d, a] true (encRI 0x03 d a imm) (fun s => retireSet q d (rg q (cpu s q) a ||| imm.toNat) s)
def execOri (q : Cpu) (d a : RegF) (imm : BitVec 16) (s : State) : Out := cpuAct q (jOri q d a imm) s

def jXori (q : Cpu) (d a : RegF) (imm : BitVec 16) : State → State :=
  instr q [d, a] true (encRI 0x04 d a imm) (fun s => retireSet q d (rg q (cpu s q) a ^^^ imm.toNat) s)
def execXori (q : Cpu) (d a : RegF) (imm : BitVec 16) (s : State) : Out := cpuAct q (jXori q d a imm) s

/-- SHI: count and direction of imm; direction 0b11 is an undefined operation. -/
def shiOf (q : Cpu) (imm : BitVec 16) (a : Nat) : Option Nat :=
  let n := xlen q
  let w := if isTile q then 5 else 6
  let cnt := imm.toNat % 2 ^ w
  match imm.toNat / 2 ^ w % 4, imm.toNat / 2 ^ (w + 2) with
  | 0, 0 => aluFn n 5 a cnt
  | 1, 0 => aluFn n 6 a cnt
  | 2, 0 => aluFn n 7 a cnt
  | _, _ => none

def jShi (q : Cpu) (d a : RegF) (imm : BitVec 16) : State → State :=
  instr q [d, a] (shiOf q imm 0).isSome (encRI 0x05 d a imm) (fun s => retireSet q d ((shiOf q imm (rg q (cpu s q) a)).getD 0) s)
def execShi (q : Cpu) (d a : RegF) (imm : BitVec 16) (s : State) : Out := cpuAct q (jShi q d a imm) s

def jLui (q : Cpu) (d a : RegF) (imm : BitVec 16) : State → State :=
  instr q [d] (a == 0) (encRI 0x06 d a imm) (retireSet q d (imm.toNat * 2 ^ 16))
def execLui (q : Cpu) (d a : RegF) (imm : BitVec 16) (s : State) : Out := cpuAct q (jLui q d a imm) s

def jCmp (q : Cpu) (qd : BitVec 6) (a b : RegF) (cond : BitVec 4) : State → State :=
  instr q [a, b] (decide (cond.toNat < 6)) (encQC 0x10 qd a b cond) (fun s =>
    let p := cpu s q
    retire q (setCpu s q (setQ p qd ((cmpFn (xlen q) cond.toNat (rg q p a) (rg q p b)).getD false))))
def execCmp (q : Cpu) (qd : BitVec 6) (a b : RegF) (cond : BitVec 4) (s : State) : Out := cpuAct q (jCmp q qd a b cond) s

def jCmpi (q : Cpu) (qd : BitVec 6) (a : RegF) (cond : BitVec 4) (imm : BitVec 11) : State → State :=
  instr q [a] (decide (cond.toNat < 6)) (encQI 0x11 qd a cond imm) (fun s =>
    let p := cpu s q
    retire q (setCpu s q (setQ p qd ((cmpFn (xlen q) cond.toNat (rg q p a) (wrapN (xlen q) imm.toInt)).getD false))))
def execCmpi (q : Cpu) (qd : BitVec 6) (a : RegF) (cond : BitVec 4) (imm : BitVec 11) (s : State) : Out :=
  cpuAct q (jCmpi q qd a cond imm) s

def plogFn (lfn : Nat) (x y : Bool) : Bool :=
  match lfn with | 0 => x && y | 1 => x || y | 2 => x ^^ y | _ => x && !y

def jPlog (q : Cpu) (qd qa qb : BitVec 6) (lfn : BitVec 2) : State → State :=
  instr q [] true (encQL 0x12 qd qa qb lfn) (fun s =>
    let p := cpu s q
    retire q (setCpu s q (setQ p qd (plogFn lfn.toNat (qv p qa) (qv p qb)))))
def execPlog (q : Cpu) (qd qa qb : BitVec 6) (lfn : BitVec 2) (s : State) : Out := cpuAct q (jPlog q qd qa qb lfn) s

/-- The two halves of the predicates, q0 as 1. -/
def predWord (p : Proc) (hi : Bool) : Nat := bits (p.preds ||| 1) (if hi then 63 else 31) (if hi then 32 else 0)
def setPredWord (p : Proc) (hi : Bool) (v : Nat) : Proc :=
  let o := predWord p (!hi)
  { p with preds := BitVec.ofNat 64 (if hi then o + v % 2 ^ 32 * 2 ^ 32 else v % 2 ^ 32 + o * 2 ^ 32) ||| 1 }

def jPrd (q : Cpu) (d a : RegF) (imm : BitVec 16) : State → State :=
  instr q [d] (a == 0 && decide (imm.toNat < 2)) (encRI 0x13 d a imm) (fun s =>
    retireSet q d (predWord (cpu s q) (imm.toNat == 1)) s)
def execPrd (q : Cpu) (d a : RegF) (imm : BitVec 16) (s : State) : Out := cpuAct q (jPrd q d a imm) s

def jPwr (q : Cpu) (d a : RegF) (imm : BitVec 16) : State → State :=
  instr q [a] (d == 0 && decide (imm.toNat < 2)) (encRI 0x14 d a imm) (fun s =>
    let p := cpu s q
    retire q (setCpu s q (setPredWord p (imm.toNat == 1) (rg q p a))))
def execPwr (q : Cpu) (d a : RegF) (imm : BitVec 16) (s : State) : Out := cpuAct q (jPwr q d a imm) s

/-! ### Data memory (R168, R172, R524) -/

/-- Whether boot memory stands in the system region's place (R494, R524). -/
def bootMap (s : State) (o : Nat) : Bool := (s.power.mst == .boot || s.power.mst == .init) && decide (o < 0x400000)

/-- n bytes at a of a processor's data memory. -/
def dmRead (s : State) (q : Cpu) (a n : Nat) : List Byte × State :=
  match q with
  | .tile _ => ((List.range n).map (fun i => tget 0 (cpu s q).dm (a + i)), s)
  | .core k => if bootMap s a then ((List.range n).map (fun i => tget 0 s.bootMem (a + i)), s) else coreRead s k a n

/-- Store bytes at consecutive keys. -/
def putBytes (t : Tab Byte) (a : Nat) (d : List Byte) : Tab Byte := d.zipIdx.foldl (fun t (b, i) => tset 0 t (a + i) b) t

def dmWrite (s : State) (q : Cpu) (a : Nat) (d : List Byte) : State :=
  match q with
  | .tile _ => updCpu s q (fun p => { p with dm := putBytes p.dm a d })
  | .core k => if bootMap s a then { s with bootMem := putBytes s.bootMem a d } else coreWrite s k a d

/-- The address a + imm. -/
def dmAddr (q : Cpu) (p : Proc) (a : RegF) (imm : BitVec 16) : Nat := wrapN (xlen q) ((rg q p a : Int) + imm.toInt)

/-- The shared form of a load or store of n bytes: ALIGN, then DMRANGE, then the access. -/
def memInstr (q : Cpu) (n a : Nat) (f : State → State) (s : State) : State :=
  if a % n ≠ 0 then trapHere q Tr.align a s
  else if dmTop q ≤ a then trapHere q Tr.dmrange a s
  else f s

/-- A load of n bytes into d; an uncorrectable word raises DMERR, a corrected one counts (R161). -/
def loadInto (q : Cpu) (d : RegF) (a n : Nat) (ecc : Ecc) (s : State) : State :=
  if ecc = .uncorrectable then trapHere q Tr.dmerr a s
  else
    let s := if ecc = .corrected then seqCnt q Rg.seq.CORRCNT s else s
    let (b, s) := dmRead s q a n
    retireSet q d (leNat b) s

def jLdw (q : Cpu) (d a : RegF) (imm : BitVec 16) (ecc : Ecc) : State → State :=
  instr q [d, a] true (encRI 0x08 d a imm) (fun s =>
    let x := dmAddr q (cpu s q) a imm
    memInstr q 4 x (loadInto q d x 4 ecc) s)
def execLdw (q : Cpu) (d a : RegF) (imm : BitVec 16) (ecc : Ecc) (s : State) : Out := cpuAct q (jLdw q d a imm ecc) s

def jLdb (q : Cpu) (d a : RegF) (imm : BitVec 16) (ecc : Ecc) : State → State :=
  instr q [d, a] true (encRI 0x0A d a imm) (fun s =>
    let x := dmAddr q (cpu s q) a imm
    memInstr q 1 x (loadInto q d x 1 ecc) s)
def execLdb (q : Cpu) (d a : RegF) (imm : BitVec 16) (ecc : Ecc) (s : State) : Out := cpuAct q (jLdb q d a imm ecc) s

/-- LDD is an undefined opcode of a tile's sequencer. -/
def jLdd (q : Cpu) (d a : RegF) (imm : BitVec 16) : State → State :=
  instr q [d, a] (!isTile q) (encRI 0x0E d a imm) (fun s =>
    let x := dmAddr q (cpu s q) a imm
    memInstr q 8 x (loadInto q d x 8 .good) s)
def execLdd (q : Cpu) (d a : RegF) (imm : BitVec 16) (s : State) : Out := cpuAct q (jLdd q d a imm) s

/-- A store of n bytes of d. -/
def storeFrom (q : Cpu) (d : RegF) (x n : Nat) (s : State) : State :=
  retire q (dmWrite s q x (leBytes n (rg q (cpu s q) d)))

def jStw (q : Cpu) (d a : RegF) (imm : BitVec 16) : State → State :=
  instr q [d, a] true (encRI 0x09 d a imm) (fun s =>
    let x := dmAddr q (cpu s q) a imm
    memInstr q 4 x (storeFrom q d x 4) s)
def execStw (q : Cpu) (d a : RegF) (imm : BitVec 16) (s : State) : Out := cpuAct q (jStw q d a imm) s

def jStb (q : Cpu) (d a : RegF) (imm : BitVec 16) : State → State :=
  instr q [d, a] true (encRI 0x0B d a imm) (fun s =>
    let x := dmAddr q (cpu s q) a imm
    memInstr q 1 x (storeFrom q d x 1) s)
def execStb (q : Cpu) (d a : RegF) (imm : BitVec 16) (s : State) : Out := cpuAct q (jStb q d a imm) s

def jStd (q : Cpu) (d a : RegF) (imm : BitVec 16) : State → State :=
  instr q [d, a] (!isTile q) (encRI 0x0F d a imm) (fun s =>
    let x := dmAddr q (cpu s q) a imm
    memInstr q 8 x (storeFrom q d x 8) s)
def execStd (q : Cpu) (d a : RegF) (imm : BitVec 16) (s : State) : Out := cpuAct q (jStd q d a imm) s

/-! ### LDX and STX (R168, R524) -/

/-- The module address, and whether 8 bytes move. -/
def xAddr (q : Cpu) (p : Proc) (a b : RegF) (fn : BitVec 11) : Nat × Bool :=
  match q with
  | .tile _ => (rg q p b % 2 ^ 16 * 2 ^ 32 + rg q p a, false)
  | .core _ => (rg q p a % 2 ^ 48, fn == 1)

/-- Unused fields of LDX and STX. -/
def xOk (q : Cpu) (b : RegF) (fn : BitVec 11) : Bool :=
  match q with
  | .tile _ => fn == 0
  | .core _ => b == 0 && decide (fn.toNat < 2)

/-- Send an access and hold the instructions behind it until the response (R164). -/
def xSend (q : Cpu) (a : Nat) (dbl : Bool) (w : Wait) (kind : Kind) (data : List Byte) (s : State) : State :=
  let n := if dbl then 8 else 4
  if a % n ≠ 0 then trapHere q Tr.align (a % 2 ^ 32) s
  else
    let s := updCpu s q (fun p => { p with wait := w })
    netSend s (.cpu q) (mkReq (cpuInit s q) kind a n data)

def jLdx (q : Cpu) (d a b : RegF) (fn : BitVec 11) : State → State :=
  instr q [d, a, b] (xOk q b fn) (encRR 0x0C d a b fn) (fun s =>
    let (x, dbl) := xAddr q (cpu s q) a b fn
    xSend q x dbl (.load d (BitVec.ofNat 48 x) dbl) .read [] s)
def execLdx (q : Cpu) (d a b : RegF) (fn : BitVec 11) (s : State) : Out := cpuAct q (jLdx q d a b fn) s

def jStx (q : Cpu) (d a b : RegF) (fn : BitVec 11) : State → State :=
  instr q [d, a, b] (xOk q b fn) (encRR 0x0D d a b fn) (fun s =>
    let p := cpu s q
    let (x, dbl) := xAddr q p a b fn
    xSend q x dbl (.store (BitVec.ofNat 48 x)) .write (leBytes (if dbl then 8 else 4) (rg q p d)) s)
def execStx (q : Cpu) (d a b : RegF) (fn : BitVec 11) (s : State) : Out := cpuAct q (jStx q d a b fn) s

/-- LDX_STX_RESPONSE: the response has come back; an error response raises XERR. -/
def xResp (q : Cpu) (s : State) : State :=
  match takeResp s (.cpu q) with
  | none => s
  | some ((rsn, d), s) =>
    let p := cpu s q
    match p.wait with
    | .load r a _ => if rsn = 0 then retireSet q r (leNat d) s else trap q Tr.xerr p.pc.toNat a.toNat s rsn
    | .store a => if rsn = 0 then retire q s else trap q Tr.xerr p.pc.toNat a.toNat s rsn
    | _ => s

/-! ### Control flow and windows (R169-R172) -/

/-- A target: the address of the instruction plus 4 × offset. -/
def target (q : Cpu) (p : Proc) (off : Int) : Nat := wrapN (xlen q) ((p.pc.toNat : Int) + 4 * off)

def jBr (q : Cpu) (i : BitVec 6) (sense : Bool) (off : BitVec 19) : State → State :=
  instr q [] true (encBR 0x18 i sense off) (fun s =>
    let p := cpu s q
    if qv p i = !sense then retireAt q (target q p off.toInt) s else retire q s)
def execBr (q : Cpu) (i : BitVec 6) (sense : Bool) (off : BitVec 19) (s : State) : Out := cpuAct q (jBr q i sense off) s

def jJmp (q : Cpu) (off : BitVec 26) : State → State :=
  instr q [] true (encJ 0x19 off) (fun s => retireAt q (target q (cpu s q) off.toInt) s)
def execJmp (q : Cpu) (off : BitVec 26) (s : State) : Out := cpuAct q (jJmp q off) s

/-- A call to a target: the next window, w15 with the address of the next instruction; WINOVF with RES = 7 or in the
    trap window. -/
def callTo (q : Cpu) (a : Nat) (s : State) : State :=
  let p := cpu s q
  if p.intrap ∨ p.res = 7 then trapHere q Tr.winovf 0 s
  else
    let w := (p.curwin + 1) % 7
    let ra := BitVec.ofNat 64 ((p.pc.toNat + 4) % 2 ^ xlen q)
    retireAt q a (setCpu s q (setWinReg { p with curwin := w, res := p.res + 1 } w 15 ra))

def jCall (q : Cpu) (off : BitVec 26) : State → State :=
  instr q [] true (encJ 0x1A off) (fun s => callTo q (target q (cpu s q) off.toInt) s)
def execCall (q : Cpu) (off : BitVec 26) (s : State) : Out := cpuAct q (jCall q off) s

/-- The low two bits of a register target are ignored (DEDUCED: the PC is word-aligned, R160). -/
def jCallr (q : Cpu) (d a b : RegF) (fn : BitVec 11) : State → State :=
  instr q [a] (d == 0 && b == 0 && fn == 0) (encRR 0x1B d a b fn) (fun s => callTo q (rg q (cpu s q) a / 4 * 4) s)
def execCallr (q : Cpu) (d a b : RegF) (fn : BitVec 11) (s : State) : Out := cpuAct q (jCallr q d a b fn) s

def jRet (q : Cpu) (off : BitVec 26) : State → State :=
  instr q [] (off == 0) (encJ 0x1C off) (fun s =>
    let p := cpu s q
    if p.res = 1 then
      (if p.spilled = 0 then trapHere q Tr.illegal (encJ 0x1C off).toNat s else trapHere q Tr.winunf 0 s)
    else
      let ra := (winReg p (winOf p) 15).toNat / 4 * 4
      retireAt q ra (setCpu s q { p with curwin := (p.curwin + 6) % 7, res := p.res - 1 }))
def execRet (q : Cpu) (off : BitVec 26) (s : State) : Out := cpuAct q (jRet q off) s

def jTexit (q : Cpu) (off : BitVec 26) : State → State :=
  instr q [] (off == 0) (encJ 0x1D off) (fun s =>
    let p := cpu s q
    if !p.intrap then trapHere q Tr.illegal (encJ 0x1D off).toNat s
    else
      let s := retireAt q p.trpc.toNat (setCpu s q { p with intrap := false })
      updCpu s q (fun p => { p with skipBrk := true }))
def execTexit (q : Cpu) (off : BitVec 26) (s : State) : Out := cpuAct q (jTexit q off) s

def jTrap (q : Cpu) (d a : RegF) (imm : BitVec 16) : State → State :=
  instr q [] (d == 0 && a == 0 && decide (imm.toNat < 256)) (encRI 0x1E d a imm) (fun s =>
    trap q Tr.swtrap ((cpu s q).pc.toNat + 4) imm.toNat s)
def execTrap (q : Cpu) (d a : RegF) (imm : BitVec 16) (s : State) : Out := cpuAct q (jTrap q d a imm) s

def jHalt (q : Cpu) (off : BitVec 26) : State → State :=
  instr q [] (off == 0) (encJ 0x1F off) (fun s =>
    let s := updCpu (retire q s) q (fun p => { p with live := false })
    match q with
    | .tile t => pulse s (Blk.key (.seq t)) 0
    | .core _ => s)
def execHalt (q : Cpu) (off : BitVec 26) (s : State) : Out := cpuAct q (jHalt q off) s

/-- Bytes of a window in the spill area. -/
def winBytes (q : Cpu) : Nat := 16 * (xlen q / 8)

/-- SPILL of the oldest resident window; outside the trap window ILLEGAL, its trap conditions double faults (R172). -/
def jSpill (q : Cpu) (off : BitVec 26) : State → State :=
  instr q [] (off == 0) (encJ 0x2C off) (fun s =>
    let p := cpu s q
    if !p.intrap then trapHere q Tr.illegal (encJ 0x2C off).toNat s
    else if p.res = 1 ∨ p.spillptr.toNat < p.spilllim.toNat + winBytes q then doubleFault s q Tr.winovf
    else
      let v := (p.curwin + 7 - (p.res - 1)) % 7
      let a := p.spillptr.toNat - winBytes q
      let d := (List.range 16).flatMap (fun n => leBytes (xlen q / 8) (winReg p v n).toNat)
      let s := dmWrite s q a d
      let s := updCpu s q (fun p => { p with spillptr := BitVec.ofNat 64 a, res := p.res - 1, spilled := p.spilled + 1 })
      seqCnt q Rg.seq.SPILLCNT (retire q s))
def execSpill (q : Cpu) (off : BitVec 26) (s : State) : Out := cpuAct q (jSpill q off) s

/-- FILL of the window just below the oldest resident one. Its reads are data memory loads: an uncorrectable word raises DMERR
    with the window's address, in the trap window a double fault, and a corrected one counts (R161, R175). -/
def jFill (q : Cpu) (off : BitVec 26) (ecc : Ecc) : State → State :=
  instr q [] (off == 0) (encJ 0x2D off) (fun s =>
    let p := cpu s q
    if !p.intrap then trapHere q Tr.illegal (encJ 0x2D off).toNat s
    else if p.spilled = 0 ∨ p.res = 7 then doubleFault s q Tr.winunf
    else if ecc = .uncorrectable then trapHere q Tr.dmerr p.spillptr.toNat s
    else
      let s := if ecc = .corrected then seqCnt q Rg.seq.CORRCNT s else s
      let v := (p.curwin + 7 - p.res) % 7
      let a := p.spillptr.toNat
      let n := xlen q / 8
      let (d, s) := dmRead s q a (winBytes q)
      let s := updCpu s q (fun p =>
        let p := (List.range 16).foldl (fun p i => setWinReg p v i (BitVec.ofNat 64 (leNat ((d.drop (n * i)).take n)))) p
        { p with spillptr := BitVec.ofNat 64 ((a + winBytes q) &&& spMask q), res := p.res + 1, spilled := p.spilled - 1 })
      seqCnt q Rg.seq.FILLCNT (retire q s))
def execFill (q : Cpu) (off : FillOp) (s : State) : Out := cpuAct q (jFill q off.off off.ecc) s

/-! ### Parameters and control registers (R166, R176, R524) -/

def jPwrp (q : Cpu) (i : BitVec 6) (a d : RegF) : State → State :=
  instr q [a] (isTile q && d == 0) (encPM 0x20 i a d) (fun s =>
    let p := cpu s q
    retire q (setCpu s q { p with params := tset 0 p.params i.toNat (BitVec.ofNat 64 (rg q p a)) }))
def execPwrp (q : Cpu) (i : BitVec 6) (a d : RegF) (s : State) : Out := cpuAct q (jPwrp q i a d) s

def jPrdp (q : Cpu) (i : BitVec 6) (a d : RegF) : State → State :=
  instr q [d] (isTile q && a == 0) (encPM 0x21 i a d) (fun s =>
    retireSet q d (tget 0 (cpu s q).params i.toNat).toNat s)
def execPrdp (q : Cpu) (i : BitVec 6) (a d : RegF) (s : State) : Out := cpuAct q (jPrdp q i a d) s

/-- SEQSTAT. -/
def seqStat (p : Proc) : Nat :=
  p.curwin + p.res * 2 ^ 4 + b2n p.intrap * 2 ^ 8 + b2n p.recording * 2 ^ 9 + b2n p.replay.isSome * 2 ^ 10 + p.fifo.length * 2 ^ 16

/-- RECSTAT. -/
def recStat (p : Proc) : Nat := b2n p.recording + p.recNext * 2 + b2n p.recRun * 2 ^ 14

/-- A control register's value. -/
def crVal (s : State) (q : Cpu) (i : Nat) : Option Nat :=
  let p := cpu s q
  match i with
  | 0x00 => some (seqStat p)
  | 0x01 => some p.trvec.toNat
  | 0x02 => some p.trpc.toNat
  | 0x03 => some p.trcode.toNat
  | 0x04 => some p.trinfo.toNat
  | 0x05 => some p.spillptr.toNat
  | 0x06 => some p.spilllim.toNat
  | 0x07 => some (p.spilled % 2 ^ 16)
  | 0x08 => some p.sevpend.toNat
  | 0x09 => some p.sevena.toNat
  | 0x0A => some p.sevlatch.toNat
  | 0x0B => some p.seqepoch.toNat
  | 0x0C => some p.brkaddr.toNat
  | 0x0D => some (b2n p.brkctl)
  | 0x0E => some (recStat p)
  | 0x10 => some (now s % 2 ^ 32)
  | 0x11 => some p.tbhi.toNat
  | _ =>
    match q with
    | .tile _ => none
    | .core k =>
      match i with
      | 0x12 => some p.tcmplo.toNat
      | 0x13 => some p.tcmphi.toNat
      | 0x14 => some k.val
      | _ => none

/-- A read of TBLO latches TBHI. -/
def crLatch (s : State) (q : Cpu) (i : Nat) : State :=
  if i = 0x10 then updCpu s q (fun p => { p with tbhi := w32 (now s / 2 ^ 32) }) else s

/-- A write of a control register; one to an RO register has no effect. Writing TCMPHI arms the timer. -/
def crPut (q : Cpu) (i v : Nat) (p : Proc) : Proc :=
  let im := BitVec.ofNat 64 (v &&& imMask q)
  let sp := BitVec.ofNat 64 (v &&& spMask q)
  match i with
  | 0x01 => { p with trvec := im }
  | 0x02 => { p with trpc := im }
  | 0x03 => { p with trcode := w32 (v % 2 ^ 16) }
  | 0x04 => { p with trinfo := BitVec.ofNat 64 (v % 2 ^ 32) }
  | 0x05 => { p with spillptr := sp }
  | 0x06 => { p with spilllim := sp }
  | 0x09 => { p with sevena := w32 v }
  | 0x0B => { p with seqepoch := BitVec.ofNat 8 v }
  | 0x0C => { p with brkaddr := im }
  | 0x0D => { p with brkctl := nbit v 0 }
  | 0x12 => if isTile q then p else { p with tcmplo := w32 v }
  | 0x13 => if isTile q then p else { p with tcmphi := w32 v, armed := true }
  | _ => p

def jCrr (q : Cpu) (d a : RegF) (imm : BitVec 16) : State → State :=
  fun s => instr q [d] (a == 0 && (crVal s q imm.toNat).isSome) (encRI 0x22 d a imm) (fun s =>
    retireSet q d ((crVal s q imm.toNat).getD 0) (crLatch s q imm.toNat)) s
def execCrr (q : Cpu) (d a : RegF) (imm : BitVec 16) (s : State) : Out := cpuAct q (jCrr q d a imm) s

def jCrw (q : Cpu) (d a : RegF) (imm : BitVec 16) : State → State :=
  fun s => instr q [a] (d == 0 && (crVal s q imm.toNat).isSome) (encRI 0x23 d a imm) (fun s =>
    let p := cpu s q
    retire q (setCpu s q (crPut q imm.toNat (rg q p a) p))) s
def execCrw (q : Cpu) (d a : RegF) (imm : BitVec 16) (s : State) : Out := cpuAct q (jCrw q d a imm) s

/-- TIMER_COMPARE: an armed timer whose compare value the timebase has reached sets event 25 (R524). -/
def timerCmp (k : Fin 4) (s : State) : State :=
  let p := cpu s (.core k)
  if p.armed && decide (p.tcmplo.toNat + p.tcmphi.toNat * 2 ^ 32 ≤ now s) then
    setCpu s (.core k) { p with armed := false, sevlatch := p.sevlatch ||| 0x02000000 }
  else s
def execTimerCompare (k : Fin 4) (s : State) : Out := act (timerCmp k) s

/-! ### Events (R169, R195, R196) -/

/-- A command boundary: SEVPEND is refreshed. -/
def boundary (q : Cpu) (s : State) : State := updCpu s q (fun p => { p with sevpend := p.sevlatch })

/-- WFE retires when an enabled event has arrived, and waits until then. -/
def wfeTry (q : Cpu) (s : State) : State :=
  let p := cpu s q
  if p.sevlatch &&& p.sevena ≠ 0 then boundary q (retire q s) else setCpu s q { p with wait := .wfe }

def jWfe (q : Cpu) (off : BitVec 26) : State → State := instr q [] (off == 0) (encJ 0x2E off) (wfeTry q)
def execWfe (q : Cpu) (off : BitVec 26) (s : State) : Out := cpuAct q (jWfe q off) s

/-- WFE_WAKE: a waiting WFE looks again. -/
def wfeWake (q : Cpu) (s : State) : State := if (cpu s q).wait = .wfe then wfeTry q s else s
def execWfeWake (q : Cpu) (s : State) : Out := cpuAct q (wfeWake q) s

/-- The events a processor has (R195, R524). -/
def sevMask (q : Cpu) : W32 := if isTile q then 0x00FF07FF else 0x03000000

/-- EVACK; an event that arrives at the same moment stays set in SEVLATCH. -/
def jEvack (q : Cpu) (d a b : RegF) (fn : BitVec 11) (arriving : W32) : State → State :=
  instr q [a] (d == 0 && b == 0 && fn == 0) (encRR 0x2F d a b fn) (fun s =>
    let p := cpu s q
    let m := w32 (rg q p a)
    retire q (setCpu s q { p with sevlatch := (p.sevlatch &&& ~~~ m) ||| (arriving &&& sevMask q), sevpend := p.sevpend &&& ~~~ m }))
def execEvack (q : Cpu) (d a b : RegF) (fn : BitVec 11) (arriving : W32) (s : State) : Out :=
  cpuAct q (jEvack q d a b fn arriving) s

end Sys2Proof.Machine
end

