-- ==== Sys2Proof/Machine/PortQ.lean ====
section
/-! DEFINITION. A Chagus port as a stream context meets it: whether it answers, its remote window, its tags and the space
    it reserves, and the frames it queues (R470, R473-R478). -/

namespace Sys2Proof.Machine

/-- Credits of a frame with n payload bytes: 64-byte units of header, padded payload and trailer (R470). -/
def credits (n : Nat) : Nat := (32 + (n + 15) / 16 * 16 + 63) / 64

/-- The reason a context's request meets at the port's own checks, 0 if none (R417, R473). -/
def portReason (s : State) (p : Nat) (who : Init) : BitVec 8 :=
  if 96 ≤ p then Rsn.unmapped
  else
    let b := Blk.port (fin 96 p)
    if !ownOk who (ownerOf s b) then Rsn.partition
    else if absent s b then Rsn.absent
    else if !blkOn s b || blkFenced s b then Rsn.fenced
    else if resetting s b then Rsn.resetAbort
    else Rsn.ok

/-- The port takes new local requests: RUNNING, and not stopping (R484). -/
def portTakes (s : State) (p : Fin 96) : Bool := isGoing s (.port p) && (blkSt s (.port p)).used

/-- The remote window (R486). -/
def rmwBase (s : State) (p : Fin 96) : Nat :=
  let k := Blk.key (.port p)
  bits (reg s (k + Rg.port.RMWBASE)) 31 12 * 2 ^ 12 + bits (reg s (k + Rg.port.RMWBASEH)) 15 0 * 2 ^ 32
def rmwLen (s : State) (p : Fin 96) : Nat := bits (reg s (Blk.key (.port p) + Rg.port.RMWLEN)) 27 0 * 2 ^ 12

/-- Credits of VC1 reserved for responses still to come (R475). -/
def reserved (x : Port) : Nat := ((x.tags.filter (fun e => e.2.out)).map (fun e => if e.2.read then credits e.2.len else 1)).sum

/-- A free tag with space for the response. -/
def freeTag (x : Port) (read : Bool) (len : Nat) : Option Nat :=
  if 2048 < reserved x + (if read then credits len else 1) then none
  else (List.range 4096).find? (fun t => let g := tget tag0 x.tags t; !g.out && !g.held)

/-- A frame with nothing in it. -/
def frame0 : TFrame :=
  { seq := 0, typ := 0, len := 0, tag := 0, epoch := 0, word2 := 0, word3 := 0, pay := [], src := .nobody, sent := false }

/-- Queue a remote request with a tag (R474, R475). -/
def sendRequest (s : State) (p : Fin 96) (t : Nat) (read : Bool) (ra len : Nat) (data : List Byte) (src : Src) : State :=
  updPort s p (fun x =>
    let g := tget tag0 x.tags t
    let rq := bits (reg s (Blk.key (.port p) + Rg.port.RQTO)) 15 0
    let f : TFrame := { frame0 with
                        typ := if read then 1 else 2, len := len, tag := BitVec.ofNat 12 t, epoch := g.epoch, word2 := w32 ra,
                        word3 := w32 (ra / 2 ^ 32 % 2 ^ 16), pay := data, src := src }
    { x with tags := tset tag0 x.tags t { g with out := true, at_ := s.clock.now, rqto := rq, read := read, src := src, len := len },
             txq := x.txq ++ [f] })

/-- Queue a message frame (R478). -/
def sendMessage (s : State) (p : Fin 96) (user : W32) (data : List Byte) (src : Src) : State :=
  updPort s p (fun x =>
    { x with txq := x.txq ++ [{ frame0 with typ := 0, len := data.length, word2 := user, pay := data, src := src }] })

end Sys2Proof.Machine
end

