-- ==== Sys2Proof/Machine/Stream.lean ====
section
/-! DEFINITION. Stream contexts: states, descriptor lists and cursors, dependence marks, moving data through the staging
    pool, blocks and their counts, errors, and the stream unit of a tile (R247-R288). -/

namespace Sys2Proof.Machine

/-! ### Contexts and their engine's log (R247, R287) -/

def ctxReg (s : State) (k : Fin 8) (x : Fin 2048) (o : Nat) : W32 := reg s (ctxKey k x + o)
def ctxOwn (s : State) (k : Fin 8) (x : Fin 2048) : BitVec 4 := BitVec.ofNat 4 (ctxReg s k x Rg.ctx.CTXOWN).toNat

/-- A context as initiator (R412). -/
def ctxInit (s : State) (k : Fin 8) (x : Fin 2048) : Init :=
  baseInit k 0 (ctxOwn s k x) (BitVec.ofNat 2 (bits (ctxReg s k x Rg.ctx.CTXCFG) 29 28))

def isWr (side : Side) : Bool := side == .write

/-- An engine error of a context. -/
def sengLog (s : State) (k : Fin 8) (x : Fin 2048) (code daddr a : Nat) (side : Side) (rsn : BitVec 8) : State :=
  logE s (Blk.key (.seng k)) (w32 (code + x.val * 2 ^ 8)) (w32 daddr) (w32 a)
    (w32 (a / 2 ^ 32 % 2 ^ 16 + (ctxOwn s k x).toNat * 2 ^ 16 + b2n (isWr side) * 2 ^ 20 + rsn.toNat * 2 ^ 24))

def sengKey (k : Fin 8) : Nat := Blk.key (.seng k)

/-- Set a bit of a summary register of the context's page, with its pulse (R284, R288). -/
def pageBit (s : State) (k : Fin 8) (x : Fin 2048) (off src : Nat) : State :=
  let p := Blk.keyP (.seng k) (x.val / 32)
  pulse (setRegBit s (p + off) (x.val % 32) true) p src

/-! ### Descriptors (R251, R253, R473) -/

def dW (d : Desc) (i : Nat) : W32 := d.words.getD i 0
def dBase (d : Desc) : Nat := (dW d 0).toNat + bits (dW d 1) 15 0 * 2 ^ 32
def dSide (d : Desc) : Side := if (dW d 1).getLsbD 16 then .write else .read
def dEndpt (d : Desc) : Nat := bits (dW d 1) 18 17
def dAccum (d : Desc) : Bool := (dW d 1).getLsbD 19
def dSat (d : Desc) : Bool := (dW d 1).getLsbD 20
def dEvb (d : Desc) : Bool := (dW d 1).getLsbD 21
def dEnd (d : Desc) : Bool := (dW d 1).getLsbD 22
def dLink (d : Desc) : Bool := (dW d 1).getLsbD 23
def dLx (d : Desc) : Bool := (dW d 1).getLsbD 24
def dLen (d : Desc) : Nat := (dW d 2).toNat
def dStride (d : Desc) : Nat := (dW d 3).toNat
def dRcnt (d : Desc) : Nat := bits (dW d 4) 23 0
def dDtile (d : Desc) : Fin 64 := fin 64 (bits (dW d 5) 5 0)
def dDcnt (d : Desc) : Nat := bits (dW d 5) 15 8
def dDep (d : Desc) : Bool := (dW d 5).getLsbD 16
def dVal (d : Desc) : W32 := dW d 6
def dCtile (d : Desc) : Fin 64 := fin 64 (bits (dW d 7) 5 0)
def dCcnt (d : Desc) : Nat := bits (dW d 7) 15 8
def dCount (d : Desc) : Bool := (dW d 7).getLsbD 16
/-- Bytes of a block. -/
def dTotal (d : Desc) : Nat := dRcnt d * dLen d
/-- PORT and KIND of a port descriptor, and its offset. -/
def dPort (d : Desc) : Nat := bits (dW d 1) 15 9
def dKind (d : Desc) : Bool := (dW d 1).getLsbD 8
def dOff (d : Desc) : Nat := dBase d % 2 ^ 40

/-- A mark that cursors wait at. -/
def dMarked (d : Desc) : Bool := dDep d && !dEnd d && !dLink d

/-- Every run lies in the scratch space. -/
def dInScr (d : Desc) : Bool :=
  decide (2 ^ 40 ≤ dBase d ∧ dBase d + (dRcnt d - 1) * dStride d + dLen d ≤ 2 ^ 41)

/-- An invalid descriptor. -/
def dBad (d : Desc) : Bool :=
  (dW d 1).toNat &&& 0xFE000000 != 0 || (dW d 4).toNat &&& 0xFF000000 != 0 ||
  (dW d 5).toNat &&& 0xFFFE00C0 != 0 || (dW d 7).toNat &&& 0xFFFE00C0 != 0 ||
  (dEnd d && dLink d) ||
  (if dEnd d then false
   else if dLink d then
     dBase d % 32 != 0 || dW d 1 &&& 0xFF7F0000 != 0 || dW d 2 != 0 || dW d 3 != 0 || dW d 4 != 0 || dW d 5 != 0 || dW d 7 != 0
   else
     dEndpt d == 2 || dEndpt d == 3 || dRcnt d == 0 ||
     (dAccum d && (dSide d == .read || dEndpt d == 1 || !dInScr d)) ||
     (if dEndpt d = 0 then dBase d % 64 != 0 || dLen d == 0 || dLen d % 64 != 0 || dStride d % 64 != 0
      else if dKind d then dOff d % 64 != 0 || dLen d == 0 || dLen d % 64 != 0 || dStride d % 64 != 0
      else dSide d == .read || dLen d == 0 || 2048 < dLen d || dLen d % 4 != 0))

/-- Run i begins here, and byte n of the block lies at this place of its run. -/
def dRun (d : Desc) (n : Nat) : Nat × Nat := (n / dLen d * dStride d, n % dLen d)

/-! ### Staging buffers (R263-R266) -/

/-- The next byte the read side will ask for. -/
def ctxNext (c : Ctx) : Nat := c.rpos + (c.rin.map (·.len)).sum

/-- Buffers of the stream, by ordinal, that are being filled or hold data not yet visible. -/
def slotsUsed (c : Ctx) : List Nat :=
  if ctxNext c ≤ c.wpos then [] else (List.range (ctxFilled c)).map (· + c.wpos / 65536)

/-- The read side has a buffer for the stream's buffer n. -/
def slotOk (c : Ctx) (n : Nat) : Bool :=
  (slotsUsed c).contains n || c.bslots.contains n ||
  decide (((slotsUsed c).filter (fun i => !c.bslots.contains i)).length < c.floor)

/-- Return borrowed buffers whose every byte is written and visible (R264). -/
def returnSlots (c : Ctx) : Ctx := { c with bslots := c.bslots.filter (fun i => decide (c.wpos < 65536 * (i + 1)) && decide (c.wpos < ctxNext c)) }

/-- Sum of the quotas of a die (R262). -/
def quotaSum (s : State) (k : Fin 8) : Nat :=
  ((List.range 16).map (fun p => bits (reg s (sengKey k + Rg.seng.QUOTA + 4 * p)) 10 0)).sum
def quotaOf (s : State) (k : Fin 8) (p : Nat) : Nat := bits (reg s (sengKey k + Rg.seng.QUOTA + 4 * p)) 10 0

/-- The contexts of partition p on a die. -/
def partCtxs (s : State) (k : Fin 8) (p : Nat) : List (Nat × Ctx) :=
  (engCtxs s k).filter (fun e => (ctxOwn s k (fin 2048 e.1)).toNat == p)
def partFloors (s : State) (k : Fin 8) (p : Nat) : Nat := ((partCtxs s k p).map (fun e => e.2.floor)).sum
def partBorrowed (s : State) (k : Fin 8) (p : Nat) : Nat := ((partCtxs s k p).map (fun e => e.2.bslots.length)).sum

/-! ### Accesses (R258, R259, R474) -/

/-- The next access of a cursor's block: address, or the offset past the run's start for a port, and bytes. A port's
    request ends at 2,048 bytes and at a 4 KiB boundary of the remote address; a message is a whole run. -/
def nextPiece (s : State) (d : Desc) (issued : Nat) : Nat × Nat :=
  let (r, o) := dRun d issued
  let left := dLen d - o
  if dEndpt d = 0 then
    let a := dBase d + r + o
    (a, min (64 - a % 64) left)
  else if dKind d then
    let a := rmwBase s (fin 96 (dPort d)) + dOff d + r + o
    (a, min (min 2048 (4096 - a % 4096)) left)
  else (dOff d % 2 ^ 32, left)

/-- The block a cursor works on, with its mark met and bytes left to issue. -/
def curWork (c : Cursor) : Option Desc :=
  match c.blk with
  | some d => if c.met && decide (c.issued < dTotal d) then some d else none
  | none => none

/-- The block of a cursor is not one whose waits are untimed (LX, R277). -/
def timed (c : Cursor) : Bool := match c.blk with | some d => !dLx d | none => false

/-- The context issues accesses. -/
def ctxRuns (c : Ctx) : Bool := c.st == .active && c.bad.isNone

/-- The ordinal of the buffer that the read side fills next. -/
def nextSlot (c : Ctx) : Nat := ctxNext c / 65536

/-- The next access of the read side: it also ends with the buffer it fills, so that no buffer is refilled before it is
    emptied and one buffer is enough to go on (R258, R264, R265). DEDUCED (log entry 67): the spec bounds a request (R474)
    and a buffer, and does not say that a request ends at a buffer's end. -/
def readPiece (s : State) (c : Ctx) (d : Desc) : Nat × Nat :=
  let (a, n) := nextPiece s d c.rcur.issued
  (a, min n (65536 - ctxNext c % 65536))

/-- The read side wants to issue and has no buffer. -/
def wantsBuf (c : Ctx) : Bool := ctxRuns c && (curWork c.rcur).isSome && !slotOk c (nextSlot c)

/-- The write side wants to issue and its data is not staged. -/
def wantsData (s : State) (c : Ctx) : Bool :=
  ctxRuns c && match curWork c.wcur with
  | some d => decide (c.staged.length < (nextPiece s d c.wcur.issued).2)
  | none => false

/-! ### Whose turn it is to issue (R268, R429) -/

/-- The reason an access of a block to a port meets at once, 0 if none (R417, R473, R474). -/
def endptReason (s : State) (who : Init) (d : Desc) (issued : Nat) : BitVec 8 :=
  let r := portReason s (dPort d) who
  if r = 0 ∧ dKind d ∧ rmwLen s (fin 96 (dPort d)) < dOff d + (dRun d issued).1 + dLen d then Rsn.unmapped else r

/-- The access waits for its port: one that takes no request, or has no free tag (R475, R484). -/
def portWaits (s : State) (who : Init) (d : Desc) (issued : Nat) (read : Bool) (n : Nat) : Bool :=
  let p : Fin 96 := fin 96 (dPort d)
  dEndpt d != 0 && endptReason s who d issued == 0 &&
    (!portTakes s p || (dKind d && (freeTag (port s p) read n).isNone))

/-- A side of the context has an access that it could issue now. -/
def ctxReads (s : State) (k : Fin 8) (x : Fin 2048) : Bool :=
  let c := ctx s k x
  ctxRuns c && match curWork c.rcur with
  | some d => slotOk c (nextSlot c) && !portWaits s (ctxInit s k x) d c.rcur.issued true (readPiece s c d).2
  | none => false
def ctxWrites (s : State) (k : Fin 8) (x : Fin 2048) : Bool :=
  let c := ctx s k x
  ctxRuns c && match curWork c.wcur with
  | some d => decide ((nextPiece s d c.wcur.issued).2 ≤ c.staged.length) &&
      !portWaits s (ctxInit s k x) d c.wcur.issued false (nextPiece s d c.wcur.issued).2
  | none => false

/-- Whom a context shares its issue slots with, and its PRI level: a partition in fixed-share mode shares with nobody else. -/
def ctxShare (s : State) (k : Fin 8) (x : Fin 2048) : Nat :=
  if fixedShare s (8 + 11 * k.val) (ctxOwn s k x) then (ctxOwn s k x).toNat + 1 else 0
def ctxPri (s : State) (k : Fin 8) (x : Fin 2048) : Nat := bits (ctxReg s k x Rg.ctx.CTXCFG) 29 28
def turnKey (s : State) (k : Fin 8) (x : Fin 2048) : Nat := 4 * ctxShare s k x + ctxPri s k x

/-- It is the context's turn to issue: its partition has an issue slot, no context with work that shares its slots stands at
    a higher PRI level, and it is the next of its level from the one served last on. DESIGN CHOICE (log entry 67): the order
    within the round robin is ascending by local number, as the spec has it for borrowing. -/
def ctxTurn (s : State) (k : Fin 8) (x : Fin 2048) : Bool :=
  let rivals := ((engCtxs s k).map (fun e => (fin 2048 e.1 : Fin 2048))).filter (fun y =>
    ctxShare s k y == ctxShare s k x && (ctxReads s k y || ctxWrites s k y))
  let peers := (rivals.filter (fun y => ctxPri s k y == ctxPri s k x)).map (·.val)
  hasSlot s (8 + 11 * k.val) Rg.ptab.ESLOT Rg.ptab.ESLOTV 64 (ctxOwn s k x) &&
    rivals.all (fun y => decide (ctxPri s k y ≤ ctxPri s k x)) &&
    ((peers.find? (fun i => decide (tget 0 (stack s k).turns (turnKey s k x) ≤ i))).or peers.head?) == some x.val

/-- The context has had its turn. -/
def turnTaken (s : State) (k : Fin 8) (x : Fin 2048) : State :=
  updStack s k (fun y => { y with turns := tset 0 y.turns (turnKey s k x) (x.val + 1) })

/-! ### Errors and waits -/

/-- An error of a context: it is logged and counted, no further access is issued, and nothing from block `n` on completes
    (R261, R287). -/
def ctxFail (s : State) (k : Fin 8) (x : Fin 2048) (n code daddr a : Nat) (side : Side) (rsn : BitVec 8) : State :=
  let c := ctx s k x
  let s := sengLog s k x code daddr a side rsn
  setReg (setCtx s k x { c with bad := some (match c.bad with | some m => min m n | none => n) })
    (ctxKey k x + Rg.ctx.CTXERR) (w32 code)

/-- Nanoseconds since a moment. -/
def nsSince (s : State) (t : BitVec 64) : Nat := now s - t.toNat

/-- Length mismatches (R254). -/
def ctxTotals (k : Fin 8) (x : Fin 2048) (s : State) : State :=
  let c := ctx s k x
  if !ctxRuns c then s
  else if c.wcur.atEnd && !c.staged.isEmpty then ctxFail s k x c.wcur.pos 0x05 c.wcur.addr.toNat 0 .write 0
  else if wantsData s c && c.rcur.atEnd && c.rin.isEmpty then
    ctxFail s k x (c.wcur.pos - 1) 0x05 (match c.wcur.blk with | some d => d.at_.toNat | none => 0) 0 .write 0
  else s

/-- Begin and end a timed wait; one that ends adds its length to a counter. -/
def waitReg (s : State) (key : Option Nat) (on : Bool) (t : Option (BitVec 64)) : Option (BitVec 64) × State :=
  match on, t with
  | true, none => (some s.clock.now, s)
  | false, some a => (none, match key with | some r => bump s r (nsSince s a) | none => s)
  | _, t => (t, s)

/-- Waits of a context as they now stand (R272, R277). -/
def ctxWaits (k : Fin 8) (x : Fin 2048) (s : State) : State :=
  let c := ctx s k x
  let key := ctxKey k x
  let (b, s) := waitReg s (some (key + Rg.ctx.CTXBUFNS)) (wantsBuf c) c.bufSince
  let (d, s) := waitReg s none (wantsData s c) c.stgSince
  let (r, s) := if ctxRuns c && !c.rcur.met then (c.rcur.since, s) else waitReg s (some (key + Rg.ctx.CTXDEPNS)) false c.rcur.since
  let (w, s) := if ctxRuns c && !c.wcur.met then (c.wcur.since, s) else waitReg s (some (key + Rg.ctx.CTXDEPNS)) false c.wcur.since
  updCtx s k x (fun c => { c with bufSince := b, stgSince := d, rcur := { c.rcur with since := r }, wcur := { c.wcur with since := w } })

/-- The engine is stopped once no context is PAUSING (R283). -/
def sengSettle (k : Fin 8) (s : State) : State :=
  if (blkSt s (.seng k)).run = .stopping ∧ (engCtxs s k).all (fun e => e.2.st != .pausing) then setRun s (.seng k) .stopped else s

/-- Sticky watermark bits (R266). -/
def wmSticky (before : State) (k : Fin 8) (x : Fin 2048) (s : State) : State :=
  let s := if !ctxWm before k x && ctxWm s k x then pageBit s k x Rg.seng.CTXWMSTK 2 else s
  if !poolWm before k && poolWm s k then setRegBit s (sengKey k + Rg.seng.POOLWMST) 1 true else s

/-- The pages of a context's levels. -/
def ctxPages (k : Fin 8) (x : Fin 2048) : List (Blk × Nat) := [(.seng k, x.val / 32), (.seng k, 0), (.ptab (8 + 11 * k.val), 0)]

/-- A change to a context, with mismatches, waits, watermarks and levels brought up to date. -/
def ctxDo (k : Fin 8) (x : Fin 2048) (f : State → State) (s : State) : State :=
  watched (ctxPages k x) (fun s => wmSticky s k x (sengSettle k (ctxWaits k x (ctxTotals k x (f s))))) s

/-- A change that needs the engine's domain on. -/
def ctxAct (k : Fin 8) (x : Fin 2048) (f : State → State) : State → Out :=
  act (fun s => if blkOn s (.seng k) then ctxDo k x f s else s)

/-! ### Completing blocks (R260, R261, R564) -/

/-- A block completes: counted, marked, and its count sent. -/
def blkDone (s : State) (k : Fin 8) (x : Fin 2048) (b : BlkProg) : State :=
  let d := b.desc
  let s := bump s (ctxKey k x + Rg.ctx.CTXBLKS)
  let s := if dEvb d then pageBit s k x Rg.seng.CTXDONE 0 else s
  if !dCount d then s
  else
    let (rsn, s) := cntPacket s (ctxInit s k x) false (dCtile d) (dCcnt d) 1
    if rsn = 0 then s
    else ctxFail s k x b.n 0x02 d.at_.toNat (2 * 2 ^ 40 + cntKey (dCtile d) (dCcnt d)) b.side rsn

/-- Bytes of block n are staged, or visible: the block completes when none are left, unless STOP has come or it is not
    before a failing block. -/
def blkBytes (s : State) (k : Fin 8) (x : Fin 2048) (n len : Nat) : State :=
  let c := ctx s k x
  match c.blks.find? (fun b => b.n == n) with
  | none => s
  | some b =>
    let b' : BlkProg := { b with left := b.left - len }
    if b'.left = 0 then
      let s := setCtx s k x { c with blks := c.blks.filter (fun y => y.n != n) }
      if c.st == .stopping || (match c.bad with | some m => decide (m ≤ n) | none => false) then s else blkDone s k x b'
    else setCtx s k x { c with blks := c.blks.map (fun y => if y.n = n then b' else y) }

/-! ### Requests (R250) -/

/-- Every access in flight has completed. -/
def drained (c : Ctx) : Bool := c.rin.isEmpty && c.win.isEmpty && !c.rcur.polling && !c.wcur.polling

/-- A context gives up its buffers and what it holds. -/
def ctxRelease (c : Ctx) (st : CtxSt) : Ctx :=
  { c with st := st, floor := 0, bslots := [], staged := [], rin := [], win := [], blks := [], fetched := [], bad := none,
           bufSince := none, stgSince := none, byEngine := false, rwait := false, wwait := false,
           rcur := { c.rcur with blk := none, polling := false, since := none },
           wcur := { c.wcur with blk := none, polling := false, since := none } }

/-- START (R250, R263, R283). -/
def ctxStart (k : Fin 8) (x : Fin 2048) (s : State) : State :=
  let c := ctx s k x
  if c.st ≠ .idle then sengLog s k x 0x07 0 0 .read 0
  else
    let p := (ctxOwn s k x).toNat
    let fl := bits (ctxReg s k x Rg.ctx.CTXCFG) 3 0
    if quotaOf s k p < partFloors s k p + fl then
      pulse (bump (sengLog s k x 0x06 0 0 .read 0) (sengKey k + Rg.seng.REFUSECNT)) (sengKey k) 5
    else
      let a := addrOf (ctxReg s k x Rg.ctx.CTXLIST) (ctxReg s k x Rg.ctx.CTXLISTH)
      let going := isGoing s (.seng k)
      let c : Ctx := { ctx0 with
                       st := if going then .active else .paused, floor := fl, byEngine := !going, fetchAt := a,
                       rcur := { cursor0 with addr := a }, wcur := { cursor0 with addr := a } }
      bump (setCtx s k x c) (sengKey k + Rg.seng.ADMITCNT)

/-- STOP. -/
def ctxStop (k : Fin 8) (x : Fin 2048) (s : State) : State :=
  updCtx s k x (fun c =>
    match c.st with
    | .active | .pausing | .paused => { c with st := .stopping, byEngine := false }
    | .error => ctxRelease c .idle
    | _ => c)

/-- PAUSE. -/
def ctxPause (k : Fin 8) (x : Fin 2048) (s : State) : State :=
  updCtx s k x (fun c => if c.st = .active then { c with st := .pausing, byEngine := false } else c)

/-- RESUME: waits start again from zero (R278). -/
def ctxResumed (c : Ctx) : Ctx :=
  { c with st := .active, byEngine := false, rcur := { c.rcur with pollAt := 0, since := none },
           wcur := { c.wcur with pollAt := 0, since := none } }
def ctxResume (k : Fin 8) (x : Fin 2048) (s : State) : State :=
  updCtx s k x (fun c => if c.st = .pausing ∨ c.st = .paused then ctxResumed c else c)

/-- CTXCMD: STOP, START, PAUSE, RESUME in order of precedence (R286). -/
def ctxCmd (k : Fin 8) (x : Fin 2048) (v : W32) (s : State) : State :=
  if v.getLsbD 1 then ctxStop k x s else if v.getLsbD 0 then ctxStart k x s
  else if v.getLsbD 2 then ctxPause k x s else if v.getLsbD 3 then ctxResume k x s else s

/-- Act on every context of an engine; the waits that this ends are counted, and those that it begins start from zero (R272,
    R278). -/
def eachCtx (k : Fin 8) (f : Fin 2048 → State → State) (s : State) : State :=
  (engCtxs s k).foldl (fun s e => ctxWaits k (fin 2048 e.1) (f (fin 2048 e.1) s)) s

/-- STOP of the engine (R283). -/
def sengStop (k : Fin 8) (s : State) : State :=
  let s := eachCtx k (fun x s => updCtx s k x (fun c => if c.st = .active then { c with st := .pausing, byEngine := true } else c)) s
  setRun s (.seng k) (if (engCtxs s k).all (fun e => e.2.st != .pausing) then .stopped else .stopping)

/-- RUN of the engine. -/
def sengRun (k : Fin 8) (s : State) : State :=
  eachCtx k (fun x s => updCtx s k x (fun c => if c.byEngine && (c.st == .pausing || c.st == .paused) then ctxResumed c else c))
    (setRun s (.seng k) .going)

/-- STOPNOW of the engine. -/
def sengStopnow (k : Fin 8) (s : State) : State :=
  eachCtx k (fun x s => if (ctx s k x).st = .idle then s else ctxStop k x s) (setRun s (.seng k) .stopped)

/-- SOFTRST of the engine's contexts and registers. -/
def sengFresh (k : Fin 8) (s : State) : State :=
  let lo := sengKey k
  let s := { s with ctxs := tdrop (fun i => i / 2048 == k.val) s.ctxs }
  let s := updStack s k (fun y => { y with lastBorrow := 0, turns := [] })
  setRun (dropRegs s (fun r => decide (lo ≤ r ∧ r < lo + 0x40000 ∧ 0x80 ≤ r % 0x1000))) (.seng k) .going

/-! ### The stream unit of a tile (R190, R280, R281) -/

def strCtx (c : Cmd) : Fin 8 × Fin 2048 := (fin 8 (bits c.w1 13 11), fin 2048 (bits c.w1 10 0))

def strFails (s : State) (t : Fin 64) (c : Cmd) : List Fail :=
  let (k, x) := strCtx c
  let owned := blkOn s (.seng k) && ctxOwn s k x == tileOwner s t
  match hOpc c with
  | 1 => rsvFails c [(1, 0xFFFFC000), (3, 0xFFFF0000)] ++ failIf (c.w2.toNat % 32 != 0) 0x10 2 ++ failIf (!owned) 0x13 1
  | 2 => rsvFails c [(1, 0xFFFFC000)] ++ failIf (!owned) 0x13 1
  | _ => [(0x02, 0)]

/-- The executing command of a stream unit completes. -/
def strDone (t : Fin 64) (c : UCmd) (s : State) : State :=
  doneCmd (updTile s t (fun y => { y with str := { y.str with active := none } })) t c.cmd c.seqno

/-- SSTART: the writes of CTXLIST and CTXLISTH, each refused while the context is not IDLE, and START (R280, R286). -/
def sstartDo (k : Fin 8) (x : Fin 2048) (c : Cmd) (s : State) : State :=
  let key := ctxKey k x
  let s := if (ctx s k x).st = .idle then setReg (setReg s (key + Rg.ctx.CTXLIST) c.w2) (key + Rg.ctx.CTXLISTH) (w32 (bits c.w3 15 0))
    else
      let refused (s : State) (o : Nat) : State := sengLog s k x 0x09 0 (2 * 2 ^ 40 + key + o) .read 0
      refused (refused s Rg.ctx.CTXLIST) Rg.ctx.CTXLISTH
  ctxStart k x s

/-- What the executing command of a stream unit can do now: SSTART acts and completes; SSTOP completes once the context
    is IDLE. -/
def strWork (t : Fin 64) (s : State) : State :=
  match (tile s t).str.active with
  | none => s
  | some c =>
    let (k, x) := strCtx c.cmd
    if hOpc c.cmd = 1 then strDone t c (ctxDo k x (sstartDo k x c.cmd) s)
    else if (ctx s k x).st = .idle then strDone t c s
    else
      let s := if (tile s t).str.waiting then s else ctxDo k x (ctxStop k x) s
      if (ctx s k x).st = .idle then strDone t c s
      else updTile s t (fun y => { y with str := { y.str with waiting := true } })

/-- Start commands of a stream unit until one waits. -/
def strNext (t : Fin 64) : Nat → State → State
  | 0, s => s
  | f + 1, s =>
    let u := (tile s t).str
    if u.active.isSome || !unitsGo s t then s
    else match u.queue with
      | [] => s
      | c :: rest =>
        strNext t f (strWork t (updTile s t (fun y => { y with str := { y.str with queue := rest, active := some c, waiting := false } })))

def strRoom (s : State) (t : Fin 64) : Bool := tileOn s t && isGoing s (.seq t) && decide (unitHolds (tile s t).str < 4)
where
  /-- Commands queued or executing. -/
  unitHolds (u : Unit) : Nat := u.queue.length + b2n u.active.isSome

def strTake (s : State) (t : Fin 64) (c : Cmd) (n : Nat) : State :=
  match worst (strFails s t c) with
  | some f => skipCmd s t c n f
  | none =>
    strNext t 1 (updTile s t (fun y => { y with str := { y.str with queue := y.str.queue ++ [{ cmd := c, seqno := n, fmt := 0, idx := 0 }] } }))

/-- Tiles whose stream unit executes an SSTOP of one of these contexts, looked at again once it is IDLE (R281). -/
def strWakes (which : Fin 8 × Fin 2048 → Bool) (s : State) : State :=
  (s.tiles.map (·.1)).foldl (fun s i =>
    let t := fin 64 i
    match (tile s t).str.active with
    | some c =>
      if hOpc c.cmd = 2 ∧ which (strCtx c.cmd) then watched (tilePages t) (fun s => tileSettle t (strNext t 4 (strWork t s))) s else s
    | none => s) s
def strWake (k : Fin 8) (x : Fin 2048) (s : State) : State := strWakes (· == (k, x)) s

/-- SOFTRST of the engine: its contexts are IDLE, so an SSTOP of one of them completes (R281, R283). -/
def sengReset (k : Fin 8) (s : State) : State := strWakes (fun y => y.1 == k) (sengFresh k s)

/-! ### The events of a context (R250) -/

/-- The accesses in flight have completed: PAUSING becomes PAUSED, STOPPING IDLE, an error ERROR. -/
def ctxDrained (k : Fin 8) (x : Fin 2048) (s : State) : State :=
  let c := ctx s k x
  if !drained c then s
  else match c.st, c.bad with
    | .stopping, _ => strWake k x (setCtx s k x (ctxRelease c .idle))
    | .active, some _ | .pausing, some _ => setCtx s k x (ctxRelease c .error)
    | .pausing, none => setCtx s k x { c with st := .paused }
    | _, _ => s

def execCtxAccessesDrained (k : Fin 8) (x : Fin 2048) (s : State) : Out := ctxAct k x (ctxDrained k x) s

/-- Both cursors are at END and every access has completed and been counted. -/
def ctxEnd (k : Fin 8) (x : Fin 2048) (s : State) : State :=
  let c := ctx s k x
  if ctxRuns c && c.rcur.atEnd && c.wcur.atEnd && drained c && c.blks.isEmpty && c.staged.isEmpty then
    strWake k x (pageBit (setCtx s k x { ctxRelease c .idle with done := true }) k x Rg.seng.CTXDONE 0)
  else s

def execCtxEndReached (k : Fin 8) (x : Fin 2048) (s : State) : Out := ctxAct k x (ctxEnd k x) s

/-! ### Descriptor fetch and cursors (R252, R255-R257) -/

/-- Where a cursor stands: at the descriptor whose block it acts on or acted on last, or at the one it comes to next. -/
def curAt (y : Cursor) : Nat := if y.blk.isSome then y.pos - 1 else y.pos

/-- Fetch the next descriptor of the list, at most 16 beyond the earlier cursor. -/
def descFetch (k : Fin 8) (x : Fin 2048) (s : State) : State :=
  let c := ctx s k x
  let n := c.fbase + c.fetched.length
  if !issues s (.seng k) || !ctxRuns c || c.fetchStop || min (curAt c.rcur) (curAt c.wcur) + 16 < n then s
  else
    let a := c.fetchAt.toNat
    let m := memRead s (ctxInit s k x) a 32
    if m.rsn ≠ 0 then ctxFail m.st k x n 0x03 a a .read m.rsn
    else
      let d : Desc := { at_ := c.fetchAt, words := wordsLE m.data }
      updCtx m.st k x (fun c => { c with
        fetched := c.fetched ++ [d],
        fetchAt := BitVec.ofNat 48 (if dLink d && !dBad d then dBase d else a + 32),
        fetchStop := dBad d || dEnd d || dMarked d })

def execDescriptorFetch (k : Fin 8) (x : Fin 2048) (s : State) : Out := ctxAct k x (descFetch k x) s

def curOf (c : Ctx) (side : Side) : Cursor := match side with | .read => c.rcur | .write => c.wcur
def setCur (c : Ctx) (side : Side) (y : Cursor) : Ctx :=
  match side with | .read => { c with rcur := y } | .write => { c with wcur := y }

/-- Drop fetched descriptors that both cursors have passed. -/
def trimFetched (c : Ctx) : Ctx :=
  let lo := min c.rcur.pos c.wcur.pos - c.fbase
  { c with fetched := c.fetched.drop lo, fbase := c.fbase + min lo c.fetched.length }

/-- The cursor is done with its block, or has none. -/
def curFree (y : Cursor) : Bool := match y.blk with | some d => decide (dTotal d ≤ y.issued) | none => true

/-- A cursor reaches its next descriptor. -/
def reach (k : Fin 8) (x : Fin 2048) (side : Side) (s : State) : State :=
  let c := ctx s k x
  let y := curOf c side
  if !ctxRuns c || y.atEnd || !curFree y then s
  else match c.fetched[y.pos - c.fbase]? with
    | none => s
    | some d =>
      if dBad d then ctxFail s k x y.pos 0x04 d.at_.toNat 0 side 0
      else if dEnd d then setCtx s k x (setCur c side { y with blk := none, atEnd := true, addr := d.at_ })
      else
        let y' : Cursor := { y with pos := y.pos + 1, blk := none, met := true, issued := 0 }
        if dLink d then setCtx s k x (trimFetched (setCur c side { y' with addr := BitVec.ofNat 48 (dBase d), bias := y.bias + dVal d }))
        else
          let next := BitVec.ofNat 48 (d.at_.toNat + 32)
          if dSide d ≠ side then setCtx s k x (trimFetched (setCur c side { y' with addr := next }))
          else
            let b : BlkProg := { n := y.pos, desc := d, left := dTotal d, side }
            let c := setCur c side { y' with addr := next, blk := some d, met := !dDep d, polling := false, pollAt := 0, since := none }
            setCtx s k x (trimFetched { c with blks := c.blks ++ [b] })

def execCursorReachDescriptor (k : Fin 8) (x : Fin 2048) (side : Side) (s : State) : Out := ctxAct k x (reach k x side) s

/-- A cursor at an unmet mark begins a poll. -/
def depPoll (k : Fin 8) (x : Fin 2048) (side : Side) (s : State) : State :=
  let c := ctx s k x
  let y := curOf c side
  if issues s (.seng k) && ctxRuns c && y.blk.isSome && !y.met && !y.polling && decide (y.pollAt.toNat ≤ now s) then
    bump (setCtx s k x (setCur c side { y with polling := true })) (sengKey k + Rg.seng.POLLCNT)
  else s

def execDependencePoll (k : Fin 8) (x : Fin 2048) (side : Side) (s : State) : Out := ctxAct k x (depPoll k x side) s

/-- A read of a counter register by a unit: its reason code and value; none where it waits for a sleeping domain (R44).
    The counters of an ABSENT tile read as zero (R6). -/
def cntRead (s : State) (who : Init) (t : Fin 64) (n : Nat) : Option (BitVec 8 × W32) :=
  if !ownOk who (ownerOf s (.acnt t)) then some (Rsn.partition, 0)
  else if !tileGood s t then some (Rsn.ok, 0)
  else (mgmtReach s (.acnt t)).map (fun r => (r, if r = 0 then cntVal s t n else 0))

/-- The value a mark waits for. -/
def markVal (y : Cursor) (d : Desc) : W32 := dVal d + y.bias

/-- The response to a poll arrives. -/
def depResp (k : Fin 8) (x : Fin 2048) (side : Side) (s : State) : State :=
  let c := ctx s k x
  let y := curOf c side
  match y.polling, y.blk with
  | true, some d =>
    match cntRead s (ctxInit s k x) (dDtile d) (dDcnt d) with
    | none => mgmtWake (.acnt (dDtile d)) s
    | some (rsn, v) =>
    let y := { y with polling := false }
    if rsn ≠ 0 then
      ctxFail (respErr (setCtx s k x (setCur c side y)) ((dDtile d).val / 16) rsn) k x (y.pos - 1) 0x0A d.at_.toNat
        (2 * 2 ^ 40 + cntKey (dDtile d) (dDcnt d)) side rsn
    else if markVal y d ≤ v then
      let last := decide (c.fbase + c.fetched.length ≤ y.pos)
      setCtx s k x { setCur c side { y with met := true } with fetchStop := c.fetchStop && !last }
    else
      setCtx s k x (setCur c side { y with
        pollAt := BitVec.ofNat 64 (now s + bits (reg s (sengKey k + Rg.seng.DEPPOLL)) 12 0),
        since := if y.since.isSome then y.since else some s.clock.now })
  | _, _ => s

/-! ### Reading and writing (R258-R261) -/

/-- An access that goes to fabric windows. -/
def isWinAddr (a : Nat) : Bool := (winOff a).isSome

/-- The ordinal of a cursor's block. -/
def curBlk (y : Cursor) : Nat := y.pos - 1

/-- The read side issues its next access, in its context's turn. -/
def readIssue (k : Fin 8) (x : Fin 2048) (s : State) : State :=
  let c := ctx s k x
  match issues s (.seng k) && ctxRuns c, curWork c.rcur with
  | true, some d =>
    let (a, n) := readPiece s c d
    let who := ctxInit s k x
    if !slotOk c (nextSlot c) then s
    else if portWaits s who d c.rcur.issued true n then setCtx s k x { c with rwait := true }
    else if !ctxTurn s k x then s
    else
      let s := turnTaken s k x
      let pos := ctxNext c
      let acc : CAcc := { addr := BitVec.ofNat 48 a, len := n, data := [], accum := false, sat := false, blk := curBlk c.rcur, pos,
                          via := none, back := none }
      let issued (acc : CAcc) : State :=
        setCtx s k x { c with rwait := false, rin := c.rin ++ [acc], rcur := { c.rcur with issued := c.rcur.issued + n } }
      let src := Src.ctx k x .read pos
      if dEndpt d = 0 then
        if isWinAddr a then netSend (issued acc) src (mkReq who .read a n []) else issued acc
      else
        let r := endptReason s who d c.rcur.issued
        let p : Fin 96 := fin 96 (dPort d)
        if r ≠ 0 then
          ctxFail (respErr s (if r = Rsn.unmapped then who.die.toNat else (Blk.port p).die) r) k x (curBlk c.rcur) 0x01 d.at_.toNat a .read r
        else match freeTag (port s p) true n with
          | some t => sendRequest (issued { acc with via := some (p, t) }) p t true a n [] src
          | none => s
  | _, _ => s

def execStreamReadIssue (k : Fin 8) (x : Fin 2048) (s : State) : Out := ctxAct k x (readIssue k x) s

/-- The context that borrows next: from the last served on, in ascending order (R264). -/
def borrower (s : State) (k : Fin 8) : Option Nat :=
  let free := decide (poolBorrowed s k < 1024 - quotaSum s k)
  let can (e : Nat × Ctx) : Bool :=
    let x : Fin 2048 := fin 2048 e.1
    let p := ctxOwn s k x
    let cap := bits (ctxReg s k x Rg.ctx.CTXCFG) 14 4
    wantsBuf e.2 && !fixedShare s (8 + 11 * k.val) p && (cap == 0 || decide (ctxHeld e.2 < cap)) &&
    decide (partBorrowed s k p.toNat < bits (reg s (sengKey k + Rg.seng.BORROWMAX + 4 * p.toNat)) 10 0)
  let cs := ((engCtxs s k).filter can).map (fun e => e.1 % 2048)
  if !free then none
  else match cs.find? (fun i => decide ((stack s k).lastBorrow ≤ i)) with
    | some i => some i
    | none => cs.head?

/-- BUFFER_BORROW. -/
def borrowBuf (k : Fin 8) (s : State) : State :=
  match borrower s k with
  | none => s
  | some i =>
    let x : Fin 2048 := fin 2048 i
    let s := updStack s k (fun y => { y with lastBorrow := i + 1 })
    ctxDo k x (fun s => updCtx s k x (fun c => { c with bslots := c.bslots ++ [nextSlot c] })) s

def execBufferBorrow (k : Fin 8) (s : State) : Out := act (fun s => if blkOn s (.seng k) then borrowBuf k s else s) s

/-- A response to the oldest access of a side: none while it has not come; reason, data and state. -/
def oldestResp (s : State) (k : Fin 8) (x : Fin 2048) (side : Side) (a : CAcc) : Option (BitVec 8 × List Byte × State) :=
  let who := ctxInit s k x
  match a.via with
  | some _ => a.back.map (fun r => (r, a.data, s))
  | none =>
    if isWinAddr a.addr.toNat then (takeResp s (.ctx k x side a.pos)).map (fun ((r, d), s) => (r, d, s))
    else
      let kind : Kind := match side with | .read => .read | .write => if a.accum then .accum else .write
      some (memNow s (mkReq who kind a.addr.toNat a.len (if side = .read then [] else a.data) a.sat))

/-- The descriptor of a block that has not completed. -/
def blkDesc (c : Ctx) (n : Nat) : Nat := match c.blks.find? (fun b => b.n == n) with | some b => b.desc.at_.toNat | none => 0

/-- Whole 64-byte units passed. -/
def units64 (a n : Nat) : Nat := (a + n) / 64 - a / 64

/-- STREAM_READ_DATA: the oldest read's data is staged. -/
def readData (k : Fin 8) (x : Fin 2048) (s : State) : State :=
  match (ctx s k x).rin with
  | [] => s
  | a :: _ =>
    match oldestResp s k x .read a with
    | none => s
    | some (r, d, s) =>
      let c := ctx s k x
      let c := { c with rin := c.rin.drop 1 }
      if r ≠ 0 then ctxFail (setCtx s k x c) k x a.blk 0x01 (blkDesc c a.blk) a.addr.toNat .read r
      else if c.st = .stopping then setCtx s k x c
      else
        let s := bump s (sengKey k + Rg.seng.RDBYTES) (units64 c.rpos a.len)
        blkBytes (setCtx s k x { c with rpos := c.rpos + a.len, staged := c.staged ++ d }) k x a.blk a.len

/-- The write side issues its next access, in its context's turn. -/
def writeIssue (k : Fin 8) (x : Fin 2048) (s : State) : State :=
  let c := ctx s k x
  match issues s (.seng k) && ctxRuns c, curWork c.wcur with
  | true, some d =>
    let (a, n) := nextPiece s d c.wcur.issued
    let who := ctxInit s k x
    if c.staged.length < n then s
    else if portWaits s who d c.wcur.issued false n then setCtx s k x { c with wwait := true }
    else if !ctxTurn s k x then s
    else
      let s := turnTaken s k x
      let data := c.staged.take n
      let pos := c.wpos + (c.win.map (·.len)).sum
      let acc : CAcc := { addr := BitVec.ofNat 48 a, len := n, data, accum := dAccum d, sat := dSat d, blk := curBlk c.wcur, pos,
                          via := none, back := none }
      let issued (acc : CAcc) : State :=
        setCtx s k x { c with wwait := false, win := c.win ++ [acc], staged := c.staged.drop n,
                              wcur := { c.wcur with issued := c.wcur.issued + n } }
      let src := Src.ctx k x .write pos
      if dEndpt d = 0 then
        if isWinAddr a then netSend (issued acc) src (mkReq who (if dAccum d then .accum else .write) a n data (dSat d)) else issued acc
      else
        let r := endptReason s who d c.wcur.issued
        let p : Fin 96 := fin 96 (dPort d)
        if r ≠ 0 then
          ctxFail (respErr s (if r = Rsn.unmapped then who.die.toNat else (Blk.port p).die) r) k x (curBlk c.wcur) 0x02 d.at_.toNat a .write r
        else if !dKind d then sendMessage (issued { acc with via := some (p, 0) }) p (dW d 0) data src
        else match freeTag (port s p) false n with
          | some t => sendRequest (issued { acc with via := some (p, t) }) p t false a n data src
          | none => s
  | _, _ => s

def execStreamWriteIssue (k : Fin 8) (x : Fin 2048) (s : State) : Out := ctxAct k x (writeIssue k x) s

/-- STREAM_WRITE_ACK: the oldest write is visible. -/
def writeAck (k : Fin 8) (x : Fin 2048) (s : State) : State :=
  match (ctx s k x).win with
  | [] => s
  | a :: _ =>
    match oldestResp s k x .write a with
    | none => s
    | some (r, _, s) =>
      let c := ctx s k x
      let c := { c with win := c.win.drop 1 }
      if r ≠ 0 then ctxFail (setCtx s k x c) k x a.blk 0x02 (blkDesc c a.blk) a.addr.toNat .write r
      else
        let s := bump s (sengKey k + Rg.seng.WRBYTES) (units64 c.wpos a.len)
        blkBytes (setCtx s k x (returnSlots { c with wpos := c.wpos + a.len })) k x a.blk a.len

/-- STREAM_ACCESS_ERROR: the oldest access in flight of a side has received an error response. -/
def accError (k : Fin 8) (x : Fin 2048) (side : Side) (a : Addr) (rsn : BitVec 8) (s : State) : State :=
  let c := ctx s k x
  if rsn = 0 then s
  else match side, c.rin, c.win with
    | .read, r :: rest, _ => ctxFail (setCtx s k x { c with rin := rest }) k x r.blk 0x01 (blkDesc c r.blk) a.toNat .read rsn
    | .write, _, w :: rest => ctxFail (setCtx s k x { c with win := rest }) k x w.blk 0x02 (blkDesc c w.blk) a.toNat .write rsn
    | _, _, _ => s

def execStreamAccessError (k : Fin 8) (x : Fin 2048) (side : Side) (a : Addr) (rsn : BitVec 8) (s : State) : Out :=
  ctxAct k x (accError k x side a rsn) s

/-- What a port brings back for an access of a context (R474, R478). -/
def portBack (s : State) (k : Fin 8) (x : Fin 2048) (side : Side) (pos : Nat) (r : BitVec 8) (d : List Byte) : State :=
  let put (l : List CAcc) : List CAcc :=
    l.map (fun a => if a.pos = pos ∧ a.via.isSome then { a with back := some r, data := if side = .read then d else a.data } else a)
  updCtx s k x (fun c => match side with | .read => { c with rin := put c.rin } | .write => { c with win := put c.win })

end Sys2Proof.Machine
end

