-- ==== Sys2Proof/Machine/SeqCmd.lean ====
section
/-! DEFINITION. Commands from instruction memory to their units: issue, recording, replay, dispatch, instruction fetch, the
    local unit, and the debug window (R161-R164, R177-R185, R206). -/

namespace Sys2Proof.Machine

/-! ### Issue (R179) -/

/-- Word n bytes into instruction memory. -/
def imWord (p : Proc) (a : Nat) : W32 := w32 (leNat ((List.range 4).map (fun i => tget 0 p.im (a + i))))

/-- The command block at an address. -/
def imCmd (p : Proc) (a : Nat) : Cmd := Cmd.ofWords ((List.range 8).map (fun i => imWord p (a + 4 * i))) (w32 a)

/-- The predicate lets a command pass. -/
def predOk (p : Proc) (c : Cmd) : Bool := qv p (BitVec.ofNat 6 (hPidx c)) != hPsense c

/-- Step 2: UNIT, reserved header bits, reserved bits of parameter references. -/
def headFails (c : Cmd) : List Fail :=
  failIf (hUnit c == 5 || hUnit c == 6) 0x01 0 ++ failIf (c.hdr &&& 0x80800000 != 0) 0x03 0 ++
  ((List.range 7).filter (fun i => hPref c (i + 1) && bits (c.word (i + 1)) 7 6 != 0)).map (fun i => (0x03, i + 1))

/-- A parameter reference resolved (R178). -/
def resolveRef (p : Proc) (w : W32) : W32 :=
  w32 (wrapN 32 (((tget 0 p.params (bits w 5 0)).toNat : Int) + sext 24 (bits w 31 8)))

/-- Step 3. -/
def resolve (p : Proc) (c : Cmd) : Cmd :=
  (List.range 7).foldl (fun d i => if hPref c (i + 1) then d.setWord (i + 1) (resolveRef p (c.word (i + 1))) else d) c

/-- Step 4: tagged, into the FIFO. -/
def enterFifo (s : State) (t : Fin 64) (c : Cmd) : State :=
  let p := cpu s (.tile t)
  let f : FCmd := { cmd := resolve p c, epoch := p.seqepoch, seqno := p.nextSeq }
  bump (setCpu s (.tile t) { p with fifo := p.fifo ++ [f], nextSeq := p.nextSeq + 1 }) (Blk.key (.seq t) + Rg.seq.CMDISS)

/-- What an unlisted replay word reads as: a local NOP (R160). -/
def rbufDef (k : Nat) : W32 := if k % 9 = 0 then 0x1C1 else 0

/-- Write a replay entry. -/
def putEntry (p : Proc) (e : Nat) (c : Cmd) : Proc :=
  { p with rbuf := c.words.zipIdx.foldl (fun t (w, i) => tsetD rbufDef t (9 * e + i) w) p.rbuf }

/-- The command of a replay entry. -/
def getEntry (p : Proc) (e : Nat) : Cmd :=
  let w (i : Nat) : W32 := tgetD rbufDef p.rbuf (9 * e + i)
  Cmd.ofWords ((List.range 8).map w) (w 8)

/-- Record a command at the next entry. -/
def record (s : State) (t : Fin 64) (c : Cmd) : State :=
  updCpu s (.tile t) (fun p => { putEntry p p.recNext c with recNext := p.recNext + 1 })

/-- Steps 1 to 4 of a command that is not past the end of the replay buffer; `rec` says whether recording applies. -/
def issueSteps (s : State) (t : Fin 64) (c : Cmd) (rcd : Bool) : State :=
  let p := cpu s (.tile t)
  if !predOk p c then bump s (Blk.key (.seq t) + Rg.seq.CMDSKIPP)
  else match worst (headFails c) with
    | some f => skipLog s t c.src c.hdr f
    | none =>
      let s := if rcd && p.recording then record s t c else s
      if rcd && p.recording && !p.recRun then s else enterFifo s t c

/-- An uncorrectable command block or replay entry (R161). -/
def cmdFault (s : State) (t : Fin 64) (a : W32) : State :=
  let p := cpu s (.tile t)
  seqFault s t 2 0 0 (0x02, a, p.trcode, w32 p.trinfo.toNat)

def fifoFull (p : Proc) : Bool := decide (64 ≤ p.fifo.length)

/-- ISSUE or ISSUER of the block at an address. -/
def issueAt (t : Fin 64) (a : Nat) (ecc : Ecc) (s : State) : State :=
  let q := Cpu.tile t
  let p := cpu s q
  if fifoFull p then s
  else if ecc = .uncorrectable then cmdFault s t (w32 a)
  else
    let s := if ecc = .corrected then seqCnt q Rg.seq.CORRCNT s else s
    let c := imCmd p a
    if p.recording && decide (4096 ≤ p.recNext) && predOk p c && (headFails c).isEmpty then trapHere q Tr.recovf 4096 s
    else boundary q (retire q (issueSteps s t c true))

def jIssue (q : Cpu) (a : BitVec 12) (b : BitVec 13) (ecc : Ecc) : State → State :=
  instr q [] (isTile q && b == 0) (encCM 0x24 a b) (fun s =>
    match q with | .tile t => issueAt t (32 * a.toNat) ecc s | .core _ => s)
def execIssue (q : Cpu) (a : BitVec 12) (b : BitVec 13) (ecc : Ecc) (s : State) : Out := cpuAct q (jIssue q a b ecc) s

def jIssuer (q : Cpu) (d a b : RegF) (fn : BitVec 11) (ecc : Ecc) : State → State :=
  fun s =>
    let x := rg q (cpu s q) a
    instr q [a] (isTile q && d == 0 && b == 0 && fn == 0 && x % 32 == 0 && decide (x < 0x20000)) (encRR 0x25 d a b fn) (fun s =>
      match q with | .tile t => issueAt t x ecc s | .core _ => s) s
def execIssuer (q : Cpu) (d a b : RegF) (fn : BitVec 11) (ecc : Ecc) (s : State) : Out := cpuAct q (jIssuer q d a b fn ecc) s

/-! ### Recording and replay (R184, R185) -/

def jRecbeg (q : Cpu) (a : BitVec 12) (b : BitVec 13) : State → State :=
  fun s => instr q [] (isTile q && decide (b.toNat < 2) && !(cpu s q).recording) (encCM 0x26 a b) (fun s =>
    retire q (updCpu s q (fun p => { p with recording := true, recNext := a.toNat, recRun := b.toNat == 1 }))) s
def execRecbeg (q : Cpu) (a : BitVec 12) (b : BitVec 13) (s : State) : Out := cpuAct q (jRecbeg q a b) s

def jRecend (q : Cpu) (off : BitVec 26) : State → State :=
  fun s => instr q [] (isTile q && off == 0 && (cpu s q).recording) (encJ 0x28 off) (fun s =>
    retire q (updCpu s q (fun p => { p with recording := false }))) s
def execRecend (q : Cpu) (off : BitVec 26) (s : State) : Out := cpuAct q (jRecend q off) s

/-- REPLAY; B = 0, which lies outside R185's 1-4,096, raises ILLEGAL as A + B above 4,096 does (DESIGN CHOICE, log entry 65). -/
def jReplay (q : Cpu) (a : BitVec 12) (b : BitVec 13) : State → State :=
  fun s => instr q []
    (isTile q && decide (1 ≤ b.toNat ∧ b.toNat ≤ 4096 ∧ a.toNat + b.toNat ≤ 4096) && !(cpu s q).recording) (encCM 0x27 a b) (fun s =>
    updCpu s q (fun p => { p with replay := some (a.toNat, a.toNat + b.toNat) })) s
def execReplay (q : Cpu) (a : BitVec 12) (b : BitVec 13) (s : State) : Out := cpuAct q (jReplay q a b) s

/-- REPLAY_ENTRY: the next entry of a REPLAY under way; the REPLAY retires after its last. -/
def replayEntry (t : Fin 64) (ecc : Ecc) (s : State) : State :=
  let q := Cpu.tile t
  let p := cpu s q
  match p.replay with
  | none => s
  | some (i, e) =>
    if !runs (setCpu s q { p with replay := none }) q || fifoFull p then s
    else if ecc = .uncorrectable then cmdFault s t (getEntry p i).src
    else
      let s := if ecc = .corrected then seqCnt q Rg.seq.CORRCNT s else s
      let s := boundary q (issueSteps s t (getEntry p i) false)
      if i + 1 = e then retire q (updCpu s q (fun p => { p with replay := none }))
      else updCpu s q (fun p => { p with replay := some (i + 1, e) })
def execReplayEntry (t : Fin 64) (ecc : Ecc) (s : State) : Out := tileAct t (replayEntry t ecc) s

/-! ### Dispatch (R180) -/

/-- The epoch a command's target unit has applied; none for a unit without a mode. -/
def unitEpoch (s : State) (t : Fin 64) (u : Nat) : Option (BitVec 8) :=
  match u with
  | 0 => some (blkSt s (.row t)).epoch
  | 1 => some (blkSt s (.vec t)).epoch
  | _ => none

/-- The local unit: NOP completes at once. -/
def localTake (s : State) (t : Fin 64) (c : Cmd) (n : Nat) : State :=
  if hOpc c = 1 then doneCmd s t c n else skipCmd s t c n (0x02, 0)

/-- A unit accepts a command now. -/
def unitRoom (s : State) (t : Fin 64) (u : Nat) : Bool :=
  match u with
  | 0 => rowRoom s t
  | 1 => vecRoom s t
  | 2 => movRoom s t
  | 3 => syncRoom s t
  | 4 => strRoom s t
  | _ => true

/-- Acceptance by the unit the header names. -/
def unitTake (s : State) (t : Fin 64) (c : Cmd) (n : Nat) : State :=
  match hUnit c with
  | 0 => rowTake s t c n
  | 1 => vecTake s t c n
  | 2 => movTake s t c n
  | 3 => syncTake s t c n
  | 4 => strTake s t c n
  | _ => localTake s t c n

/-- The head command is no longer held for its epoch tag. -/
def noEpHold (s : State) (t : Fin 64) : State := updCpu s (.tile t) (fun p => { p with epSince := none })

/-- COMMAND_DISPATCH: the head of the FIFO goes to its unit, or a slot of waiting is counted. -/
def dispatch (t : Fin 64) (s : State) : State :=
  let p := cpu s (.tile t)
  let k := Blk.key (.seq t)
  if !issues s (.seq t) || !isGoing s (.seq t) || p.zeroing then s
  else match p.fifo with
    | [] => s
    | f :: rest =>
      let u := hUnit f.cmd
      if hFence f.cmd && !p.outst.isEmpty then bump (noEpHold s t) (k + Rg.seq.FENCEWAIT)
      else if (match unitEpoch s t u with | some e => e != f.epoch | none => false) then
        bump (updCpu s (.tile t) (fun p => { p with epSince := if p.epSince.isSome then p.epSince else some s.clock.now }))
          (k + Rg.seq.HELDEPOCH)
      else if !unitRoom s t u then bump (noEpHold s t) (k + Rg.seq.QFULLWAIT)
      else
        let s := updCpu s (.tile t) (fun p => { p with fifo := rest, outst := p.outst ++ [f.seqno], epSince := none })
        unitTake s t f.cmd f.seqno

def execCommandDispatch (t : Fin 64) (s : State) : Out := tileAct t (dispatch t) s

/-- A command given to the local unit, as one the sequencer has just dispatched. -/
def localGive (t : Fin 64) (c : Cmd) (s : State) : State :=
  if !issues s (.seq t) || !isGoing s (.seq t) then s
  else let (n, s) := giveSeq s t; localTake s t (withOp c 7 1) n
def execNop (t : Fin 64) (c : Cmd) (s : State) : Out := tileAct t (localGive t c) s

/-- A command given to a tile's stream unit. -/
def strGive (t : Fin 64) (op : Nat) (c : Cmd) (s : State) : State :=
  if !strRoom s t then s
  else let (n, s) := giveSeq s t; strTake s t (withOp c 4 op) n
def execSstart (t : Fin 64) (c : Cmd) (s : State) : Out := tileAct t (strGive t 1 c) s
def execSstop (t : Fin 64) (c : Cmd) (s : State) : Out := tileAct t (strGive t 2 c) s

/-! ### Instruction fetch (R163-R165, R174) -/

/-- Decode a word and execute it; `ecc` is what its own read of data memory or of a command block meets (R161). -/
def decodeRun (q : Cpu) (w : W32) (ecc : Ecc) : State → State :=
  let op := bits w 31 26
  let d : RegF := BitVec.ofNat 5 (bits w 25 21)
  let a : RegF := BitVec.ofNat 5 (bits w 20 16)
  let b : RegF := BitVec.ofNat 5 (bits w 15 11)
  let fn : BitVec 11 := BitVec.ofNat 11 (bits w 10 0)
  let imm : BitVec 16 := BitVec.ofNat 16 (bits w 15 0)
  let qd : BitVec 6 := BitVec.ofNat 6 (bits w 25 20)
  let qa5 : RegF := BitVec.ofNat 5 (bits w 19 15)
  let qb5 : RegF := BitVec.ofNat 5 (bits w 14 10)
  let off : BitVec 26 := BitVec.ofNat 26 (bits w 25 0)
  let cmA : BitVec 12 := BitVec.ofNat 12 (bits w 25 14)
  let cmB : BitVec 13 := BitVec.ofNat 13 (bits w 12 0)
  let bad : State → State := instr q [] false w id
  let iff (c : Bool) (f : State → State) : State → State := if c then f else bad
  match op with
  | 0x00 => jAlu q d a b fn
  | 0x01 => jAddi q d a imm
  | 0x02 => jAndi q d a imm
  | 0x03 => jOri q d a imm
  | 0x04 => jXori q d a imm
  | 0x05 => jShi q d a imm
  | 0x06 => jLui q d a imm
  | 0x08 => jLdw q d a imm ecc
  | 0x09 => jStw q d a imm
  | 0x0A => jLdb q d a imm ecc
  | 0x0B => jStb q d a imm
  | 0x0C => jLdx q d a b fn
  | 0x0D => jStx q d a b fn
  | 0x0E => jLdd q d a imm
  | 0x0F => jStd q d a imm
  | 0x10 => iff (bits w 5 0 == 0) (jCmp q qd qa5 qb5 (BitVec.ofNat 4 (bits w 9 6)))
  | 0x11 => jCmpi q qd qa5 (BitVec.ofNat 4 (bits w 14 11)) (BitVec.ofNat 11 (bits w 10 0))
  | 0x12 => iff (bits w 5 0 == 0) (jPlog q qd (BitVec.ofNat 6 (bits w 19 14)) (BitVec.ofNat 6 (bits w 13 8)) (BitVec.ofNat 2 (bits w 7 6)))
  | 0x13 => jPrd q d a imm
  | 0x14 => jPwr q d a imm
  | 0x18 => jBr q qd (w.getLsbD 19) (BitVec.ofNat 19 (bits w 18 0))
  | 0x19 => jJmp q off
  | 0x1A => jCall q off
  | 0x1B => jCallr q d a b fn
  | 0x1C => jRet q off
  | 0x1D => jTexit q off
  | 0x1E => jTrap q d a imm
  | 0x1F => jHalt q off
  | 0x20 => iff (bits w 9 0 == 0) (jPwrp q qd qa5 qb5)
  | 0x21 => iff (bits w 9 0 == 0) (jPrdp q qd qa5 qb5)
  | 0x22 => jCrr q d a imm
  | 0x23 => jCrw q d a imm
  | 0x24 => iff (bits w 13 13 == 0) (jIssue q cmA cmB ecc)
  | 0x25 => jIssuer q d a b fn ecc
  | 0x26 => iff (bits w 13 13 == 0) (jRecbeg q cmA cmB)
  | 0x27 => iff (bits w 13 13 == 0) (jReplay q cmA cmB)
  | 0x28 => jRecend q off
  | 0x2C => jSpill q off
  | 0x2D => jFill q off ecc
  | 0x2E => jWfe q off
  | 0x2F => jEvack q d a b fn 0
  | _ => bad

/-- The word at the PC: a sequencer's from IM, a management core's from its memory (R524). -/
def fetchWord (s : State) (q : Cpu) : W32 × State :=
  let p := cpu s q
  match q with
  | .tile _ => (imWord p p.pc.toNat, s)
  | .core _ => let (b, s) := dmRead s q p.pc.toNat 4; (w32 (leNat b), s)

/-- INSTRUCTION_FETCH: fetch, decode and execute one instruction; `e` is what the fetch and the instruction's own read
    meet. -/
def fetch (q : Cpu) (e : FetchEcc) (s : State) : State :=
  let p := cpu s q
  if !runs s q then s
  else
    let pc := p.pc.toNat
    if imTop q ≤ pc then trapHere q Tr.ifetch pc s
    else if p.brkctl && p.pc == p.brkaddr && !p.skipBrk then trapHere q Tr.brk pc s
    else if e.fetch = .uncorrectable then
      match q with
      | .tile t => seqFault s t 2 0 0 (0x02, w32 pc, p.trcode, w32 p.trinfo.toNat)
      | .core _ => updCpu s q (fun p => { p with live := false })
    else
      let s := if e.fetch = .corrected then seqCnt q Rg.seq.CORRCNT s else s
      let (w, s) := fetchWord s q
      decodeRun q w e.data s

def execInstructionFetch (q : Cpu) (ecc : FetchEcc) (s : State) : Out := cpuAct q (fetch q ecc) s


/-! ### The debug window (R206) -/

/-- BLKSTAT lets the window work. -/
def dbgOpen (s : State) (t : Fin 64) : Bool := let b := blkState s (.seq t); b == 2 || b == 5 || b == 6

def dbgAddr (s : State) (t : Fin 64) : W32 := reg s (Blk.key (.seq t) + Rg.seq.DBGADDR)

/-- The word that DBGADDR selects; one that does not exist reads 0. -/
def dbgGet (s : State) (t : Fin 64) : W32 :=
  let q := Cpu.tile t
  let p := cpu s q
  let a := dbgAddr s t
  let i := bits a 19 0
  match bits a 31 28 with
  | 0 => imWord p (i / 4 * 4)
  | 1 => if i < 0x10000 then w32 (leNat (dmRead s q (i / 4 * 4) 4).1) else 0
  | 2 => if i = 0 ∨ 136 ≤ i then 0 else w32 (tget 0 p.regs i).toNat
  | 3 => w32 ((crVal s q i).getD 0)
  | 4 => if i < 64 then w32 (tget 0 p.params i).toNat else 0
  | 5 => if i < 2 then w32 (predWord p (i == 1)) else 0
  | 6 => if i < 36864 then tgetD rbufDef p.rbuf i else 0
  | _ => 0

/-- Write the word that DBGADDR selects. -/
def dbgPut (t : Fin 64) (v : W32) (s : State) : State :=
  let q := Cpu.tile t
  let a := dbgAddr s t
  let i := bits a 19 0
  updCpu s q (fun p =>
    match bits a 31 28 with
    | 0 => if i < 0x20000 then { p with im := putBytes p.im (i / 4 * 4) (leBytes 4 v.toNat) } else p
    | 1 => if i < 0x10000 then { p with dm := putBytes p.dm (i / 4 * 4) (leBytes 4 v.toNat) } else p
    | 2 => if i = 0 ∨ 136 ≤ i then p else { p with regs := tset 0 p.regs i (BitVec.ofNat 64 v.toNat) }
    | 3 => crPut q i v.toNat p
    | 4 => if i < 64 then { p with params := tset 0 p.params i (BitVec.ofNat 64 v.toNat) } else p
    | 5 => if i < 2 then setPredWord p (i == 1) v.toNat else p
    | 6 => if i < 36864 then { p with rbuf := tsetD rbufDef p.rbuf i v } else p
    | _ => p)

/-- INDEX advances after an access under AUTOINC. -/
def dbgStep (t : Fin 64) (s : State) : State :=
  let k := Blk.key (.seq t)
  if regBit s (k + Rg.seq.DBGCTL) 0 then
    let a := dbgAddr s t
    let n := if bits a 31 28 < 2 then 4 else 1
    setReg s (k + Rg.seq.DBGADDR) (w32 (bits a 31 28 * 2 ^ 28 + (bits a 19 0 + n) % 2 ^ 20))
  else s

/-- A write of DBGDATA. -/
def dbgWrite (t : Fin 64) (v : W32) (s : State) : State :=
  if dbgOpen s t then dbgStep t (dbgPut t v s)
  else
    let p := cpu s (.tile t)
    logE s (Blk.keyP (.seq t) 2) 0x04 (w32 p.pc.toNat) p.trcode (w32 p.trinfo.toNat)

/-- What a read of DBGDATA does: one of control register TBLO latches TBHI (R176), and INDEX steps. -/
def dbgRead (t : Fin 64) (s : State) : State :=
  let a := dbgAddr s t
  if dbgOpen s t then dbgStep t (if bits a 31 28 = 3 then crLatch s (.tile t) (bits a 19 0) else s) else s

end Sys2Proof.Machine
end

