-- ==== Sys2Proof/Machine/Nimbus.lean ====
section
/-! DEFINITION. Nimbus vector engines: rings, their commands, skips, bus errors; and the command and error events that the
    tile's vector unit, data mover and sync unit share with them (R182, R187, R191, R320-R327). -/

namespace Sys2Proof.Machine

def neKey (k : Fin 8) (e : Fin 16) : Nat := Blk.key (.nve k e)

/-- An engine as initiator (R412, R413). Its PRI is not stated; 1, as tile units (log entry 15). -/
def engInit (s : State) (k : Fin 8) (e : Fin 16) : Init := baseInit k (e.val / 4) (ownerOf s (.nve k e)) 1

def engEnv (s : State) (k : Fin 8) (e : Fin 16) (fmt : W32) : VEnv :=
  { u := .eng k e, who := engInit s k e, part := ownerOf s (.nve k e), compat := (eng s k e).compat, fmt, home := 0 }

/-- Tile and counter of NWAIT and NCOUNT. -/
def nwTile (c : Cmd) : Fin 64 := fin 64 (bits c.w1 5 0)
def nwCnt (c : Cmd) : Nat := bits c.w1 15 8

/-- Every check of an engine command (R322, R324). -/
def engFails (s : State) (k : Fin 8) (e : Fin 16) (fmt : W32) (c : Cmd) : List Fail :=
  failIf (hUnit c != 1 || c.hdr &&& 0xFF80FE00 != 0) 0x03 0 ++
  (if hOpc c = 0x1A ∨ hOpc c = 0x1B then
     rsvFails c [(1, 0xFFFF00C0)] ++ failIf (tileOwner s (nwTile c) != ownerOf s (.nve k e)) 0x12 1
   else vecFails s (engEnv s k e fmt) c)

/-- A stopping engine that executes nothing stops. -/
def engSettle (k : Fin 8) (e : Fin 16) (s : State) : State :=
  if (blkSt s (.nve k e)).run = .stopping ∧ (eng s k e).active = none then setRun s (.nve k e) .stopped else s

/-- A change of an engine whose domain is on. -/
def engDo (k : Fin 8) (e : Fin 16) (f : State → State) (s : State) : State :=
  if issues s (.nve k e) then watched (blkPages (.nve k e)) (fun s => engSettle k e (f s)) s else s

/-- The executing command of an engine completes. -/
def engDone (k : Fin 8) (e : Fin 16) (c : UCmd) (s : State) : State :=
  let s := updEng s k e (fun u => { u with active := none, prog := 0, waiting := false, pollAt := 0 })
  pulseIf (hEvc c.cmd) (bump s (neKey k e + Rg.nve.NECMDCNT)) (neKey k e) 0

/-- A poll of an NWAIT: completed, waiting, or a bus error to an operand read. -/
def nwaitLook (k : Fin 8) (e : Fin 16) (c : UCmd) (s : State) : State :=
  let t := nwTile c.cmd
  match cntRead s (engInit s k e) t (nwCnt c.cmd) with
  | none => mgmtWake (.acnt t) (updEng s k e (fun u =>
      { u with waiting := true, since := if u.waiting then u.since else s.clock.now }))
  | some (rsn, v) =>
  if rsn ≠ 0 then unitError (respErr s (t.val / 16) rsn) (.vec (.eng k e)) c.cmd false (cntAddr t (nwCnt c.cmd)) rsn
  else if c.cmd.w2 ≤ v then engDone k e c s
  else
    updEng s k e (fun u =>
      { u with waiting := true, since := if u.waiting then u.since else s.clock.now,
               pollAt := BitVec.ofNat 64 (now s + bits (reg s (sengKey k + Rg.seng.DEPPOLL)) 12 0) })

/-- What an engine's command does when it starts. -/
def engWork (k : Fin 8) (e : Fin 16) (c : UCmd) (s : State) : State :=
  match hOpc c.cmd with
  | 0x1A => nwaitLook k e c s
  | 0x1B =>
    let t := nwTile c.cmd
    let (rsn, s) := cntPacket s (engInit s k e) false t (nwCnt c.cmd) c.cmd.w2
    if rsn ≠ 0 then unitError s (.vec (.eng k e)) c.cmd true (cntAddr t (nwCnt c.cmd)) rsn else engDone k e c s
  | _ => vecRun s (engEnv s k e c.fmt) c.cmd

/-- The command an engine executes: a stopped one, whose NWAIT waits for RUN, executes none (R326). -/
def engActive (s : State) (k : Fin 8) (e : Fin 16) : Option UCmd :=
  if isStopped s (.nve k e) then none else (eng s k e).active

/-- Start commands of an engine until one is under way. -/
def engNext (k : Fin 8) (e : Fin 16) : Nat → State → State
  | 0, s => s
  | f + 1, s =>
    let u := eng s k e
    if u.active.isSome || !isGoing s (.nve k e) then s
    else match u.queue with
      | [] => s
      | c :: rest =>
        engNext k e f (engWork k e c (updEng s k e (fun u =>
          { u with queue := rest, active := some c, prog := 0, waiting := false })))

/-- Acceptance into an engine's queue of the command of ring index i, with its format descriptor copied; a skipped one counts as
    completed (R324). -/
def engTake (k : Fin 8) (e : Fin 16) (i : Nat) (c : Cmd) (s : State) : State :=
  let key := neKey k e
  let fmt := reg s (key + Rg.nve.NFMT + 4 * hFdi c)
  let c := { c with src := w32 i }
  match worst (engFails s k e fmt c) with
  | some f =>
    pulse (bump (bump (logE s key 0x04 (w32 i) (w32 (f.1 + f.2 * 2 ^ 8))) (key + Rg.nve.NESKIP)) (key + Rg.nve.NECMDCNT)) key 2
  | none =>
    engNext k e 9 (updEng s k e (fun u => { u with queue := u.queue ++ [{ cmd := c, seqno := 0, fmt, idx := BitVec.ofNat 16 i }] }))

/-- NEEPOCH and the applied epoch differ: NESTAT HELD (R321). -/
def epochDiffers (s : State) (k : Fin 8) (e : Fin 16) : Bool :=
  bits (reg s (neKey k e + Rg.nve.NEEPOCH)) 7 0 != (blkSt s (.nve k e)).epoch.toNat

/-- Slots wait and the epoch holds them. -/
def ringHeld (s : State) (k : Fin 8) (e : Fin 16) : Bool := ringWaits s k e && epochDiffers s k e

/-- An engine abandons its command, whose destinations are undefined from the mark on, and clears its queue. -/
def engDrop (k : Fin 8) (e : Fin 16) (s : State) : State :=
  let s := match engActive s k e with
    | some c => vUndef s (engEnv s k e c.fmt) c.cmd (eng s k e).prog
    | none => s
  updEng s k e clearUnit

/-- NE_RING_FETCH. -/
def ringFetch (k : Fin 8) (e : Fin 16) (s : State) : State :=
  let key := neKey k e
  if !isGoing s (.nve k e) || !ringWaits s k e || 8 ≤ (eng s k e).queue.length then s
  else if ringHeld s k e then
    updEng s k e (fun u => { u with epSince := if u.epSince.isSome then u.epSince else some s.clock.now })
  else
    let s := updEng s k e (fun u => { u with epSince := none })
    let i := bits (reg s (key + Rg.nve.NETAIL)) 15 0
    let a := (addrOf (reg s (key + Rg.nve.NERBASE)) (reg s (key + Rg.nve.NERBASEH))).toNat + 32 * i
    let m := memRead s (engInit s k e) a 32
    if m.rsn ≠ 0 then
      let s := engDrop k e m.st
      faultBlk (logE s key 0x03 (w32 i) (w32 a) (errWord3 a m.rsn)) (.nve k e)
    else
      let s := setReg m.st (key + Rg.nve.NETAIL) (w32 ((i + 1) % 2 ^ bits (reg s (key + Rg.nve.NERSIZE)) 4 0))
      engTake k e i (Cmd.ofWords (wordsLE m.data) 0) (setUsed s (.nve k e) true)

def execNeRingFetch (k : Fin 8) (e : Fin 16) (s : State) : Out := act (engDo k e (ringFetch k e)) s

/-- A command given to an engine, as one just fetched. -/
def engGive (k : Fin 8) (e : Fin 16) (op : Nat) (c : Cmd) (s : State) : State :=
  if !isGoing s (.nve k e) || 8 ≤ (eng s k e).queue.length then s
  else engTake k e (bits (reg s (neKey k e + Rg.nve.NETAIL)) 15 0) (withOp c 1 op) (setUsed s (.nve k e) true)

/-- A command given to a vector unit of either kind. -/
def vuGive (u : VU) (op : Nat) (c : Cmd) : State → Out :=
  match u with
  | .tile t => tileAct t (vecGive t op c)
  | .eng k e => act (engDo k e (engGive k e op c))

def execVadd (u : VU) (c : Cmd) (s : State) : Out := vuGive u 0x01 c s
def execVsub (u : VU) (c : Cmd) (s : State) : Out := vuGive u 0x02 c s
def execVmul (u : VU) (c : Cmd) (s : State) : Out := vuGive u 0x03 c s
def execVmax (u : VU) (c : Cmd) (s : State) : Out := vuGive u 0x04 c s
def execVmin (u : VU) (c : Cmd) (s : State) : Out := vuGive u 0x05 c s
def execVfma (u : VU) (c : Cmd) (s : State) : Out := vuGive u 0x06 c s
def execVfn (u : VU) (c : Cmd) (s : State) : Out := vuGive u 0x08 c s
def execVcvt (u : VU) (c : Cmd) (s : State) : Out := vuGive u 0x0A c s
def execSmx1 (u : VU) (c : Cmd) (s : State) : Out := vuGive u 0x10 c s
def execSmx2 (u : VU) (c : Cmd) (s : State) : Out := vuGive u 0x11 c s
def execSmx3 (u : VU) (c : Cmd) (s : State) : Out := vuGive u 0x12 c s
def execNst1 (u : VU) (c : Cmd) (s : State) : Out := vuGive u 0x14 c s
def execNst2 (u : VU) (c : Cmd) (s : State) : Out := vuGive u 0x15 c s
def execNred (k : Fin 8) (e : Fin 16) (c : Cmd) (s : State) : Out := act (engDo k e (engGive k e 0x18 c)) s
def execGather (k : Fin 8) (e : Fin 16) (c : Cmd) (s : State) : Out := act (engDo k e (engGive k e 0x19 c)) s
def execNwait (k : Fin 8) (e : Fin 16) (c : Cmd) (s : State) : Out := act (engDo k e (engGive k e 0x1A c)) s
def execNcount (k : Fin 8) (e : Fin 16) (c : Cmd) (s : State) : Out := act (engDo k e (engGive k e 0x1B c)) s

/-- NWAIT_POLL: a waiting NWAIT looks again once its interval is over. -/
def nwaitPoll (k : Fin 8) (e : Fin 16) (s : State) : State :=
  match (eng s k e).active with
  | some c =>
    if hOpc c.cmd = 0x1A ∧ (eng s k e).pollAt.toNat ≤ now s ∧ isGoing s (.nve k e) then engNext k e 9 (nwaitLook k e c s) else s
  | none => s
def execNwaitPoll (k : Fin 8) (e : Fin 16) (s : State) : Out := act (engDo k e (nwaitPoll k e)) s

/-- An engine's executing command completes, if it is not one that waits for something else. -/
def engComplete (k : Fin 8) (e : Fin 16) (s : State) : State :=
  match (eng s k e).active with
  | some c =>
    if hOpc c.cmd = 0x1A then s
    else
      let v := engEnv s k e c.fmt
      let (rsn, s) := if hOpc c.cmd = 0x1B then (0, s) else vecCount s v c.cmd
      if rsn ≠ 0 then vecAbort s v c.cmd (vN c.cmd) true (cntAddr (vCountTile v c.cmd) (vCnt c.cmd)) rsn
      else engNext k e 9 (engDone k e c s)
  | none => s

/-- VECTOR_COMMAND_COMPLETE: the executing command's values are visible and its counter counted (R182). -/
def execVectorCommandComplete (u : XU) (s : State) : Out :=
  match u with
  | .vec (.tile t) => tileAct t (vecComplete t) s
  | .vec (.eng k e) => act (engDo k e (engComplete k e)) s
  | .mover t => tileAct t (movComplete t) s
  | .sync t => tileAct t (fun s => syncAgain t 2 (syncAgain t 1 s)) s

/-- An access of a unit's executing command has received an error response. -/
def unitFail (u : XU) (c : UCmd) (write : Bool) (a : Nat) (rsn : BitVec 8) (s : State) : State :=
  match u with
  | .vec (.tile t) => vecAbort s (vecEnv s t c.fmt) c.cmd (tile s t).vec.prog write a rsn
  | .vec (.eng k e) => vecAbort s (engEnv s k e c.fmt) c.cmd (eng s k e).prog write a rsn
  | .mover t => movAbort s t c.cmd (tile s t).mover.prog write a rsn
  | .sync _ => unitError s u c.cmd write a rsn

/-- UNIT_ERROR_RESPONSE: an access of a unit's executing command has received an error response (R191, R325). -/
def unitErrorResp (u : XU) (write : Bool) (a : Addr) (rsn : BitVec 8) (s : State) : State :=
  let c := match u with | .vec (.eng k e) => engActive s k e | u => (unitOf s u).active
  match c with
  | some c => if rsn = 0 then s else unitFail u c write a.toNat rsn s
  | none => s

def execUnitErrorResponse (u : XU) (write : Bool) (a : Addr) (rsn : BitVec 8) (s : State) : Out :=
  match u with
  | .vec (.tile t) | .mover t | .sync t => tileAct t (unitErrorResp u write a rsn) s
  | .vec (.eng k e) => act (engDo k e (unitErrorResp u write a rsn)) s

/-- NE_BUS_ERROR (R325). -/
def neBusErr (k : Fin 8) (e : Fin 16) (kind : NeErr) (a : Addr) (rsn : BitVec 8) (s : State) : State :=
  match kind, engActive s k e with
  | .operand, some c => unitFail (.vec (.eng k e)) c false a.toNat rsn s
  | .dest, some c => unitFail (.vec (.eng k e)) c true a.toNat rsn s
  | .ring, _ =>
    if isGoing s (.nve k e) && ringWaits s k e then
      let i := bits (reg s (neKey k e + Rg.nve.NETAIL)) 15 0
      faultBlk (logE (engDrop k e s) (neKey k e) 0x03 (w32 i) (w32 a.toNat) (errWord3 a.toNat rsn)) (.nve k e)
    else s
  | _, none => s

def execNeBusError (k : Fin 8) (e : Fin 16) (kind : NeErr) (a : Addr) (rsn : BitVec 8) (s : State) : Out :=
  act (engDo k e (fun s => if rsn = 0 then s else neBusErr k e kind a rsn s)) s

/-- NEHEAD written with an index: one beyond the ring is refused (R331). -/
def neheadPut (k : Fin 8) (e : Fin 16) (v : W32) (s : State) : State :=
  let key := neKey k e
  if bits v 15 0 < 2 ^ bits (reg s (key + Rg.nve.NERSIZE)) 4 0 then setReg s (key + Rg.nve.NEHEAD) (w32 (bits v 15 0))
  else logE s key 0x06 0 (w32 Rg.nve.NEHEAD)

/-- STOP of an engine: an NWAIT that waits ends at once and is taken up again on RUN (R326). -/
def engStop (k : Fin 8) (e : Fin 16) (s : State) : State :=
  let w := match (eng s k e).active with | some c => hOpc c.cmd == 0x1A | none => true
  let s := updEng s k e (fun u => { u with waiting := u.waiting && !w, epSince := none })
  setRun s (.nve k e) (if w then .stopped else .stopping)

/-- RUN of an engine: a stopped NWAIT looks again. -/
def engRun (k : Fin 8) (e : Fin 16) (s : State) : State :=
  let s := match (eng s k e).active with
    | some c => if isStopped s (.nve k e) && hOpc c.cmd == 0x1A then nwaitLook k e c (setRun s (.nve k e) .going) else setRun s (.nve k e) .going
    | none => setRun s (.nve k e) .going
  engNext k e 9 s

/-- STOPNOW of an engine: the command is abandoned, its destinations undefined from the mark on, and the queue cleared
    (R326). -/
def engStopnow (k : Fin 8) (e : Fin 16) (s : State) : State := setRun (engDrop k e s) (.nve k e) .stopped

/-- SOFTRST of an engine; the applied mode is kept (R511). -/
def engReset (k : Fin 8) (e : Fin 16) (s : State) : State :=
  let lo := neKey k e
  let s := updEng s k e (fun u => { unit0 with compat := u.compat })
  setUsed (setRun (dropRegs s (fun r => decide (lo + 0x80 ≤ r ∧ r < lo + 0x1000))) (.nve k e) .going) (.nve k e) false

end Sys2Proof.Machine
end

