-- ==== Sys2Proof/Machine/Check.lean ====
section
/-! DEFINITION. Check channels: configuration, dependence, scans, results and counts (R397-R406). -/

namespace Sys2Proof.Machine

def ckReg (s : State) (c : Ck) (o : Nat) : W32 := reg s (c.blk.key + o)
def ckAlg (s : State) (c : Ck) : Nat := bits (ckReg s c Rg.ck.CKCFG) 2 0
def ckFold (s : State) (c : Ck) : Nat := bits (ckReg s c Rg.ck.CKCFG) 5 4
def ckBit (s : State) (c : Ck) (i : Nat) : Bool := (ckReg s c Rg.ck.CKCFG).getLsbD i

def isPriv : Ck → Bool
  | .priv _ => true
  | _ => false

/-- A channel as initiator (R397, R412; priority of an ordinary one: log entry 15). -/
def ckInit (s : State) : Ck → Init
  | .ord k c => baseInit k (c.val / 2) (ownerOf s (.check k c)) 1
  | .priv _ => zenithInit

/-- A change of a channel whose domain is on. -/
def ckDo (c : Ck) (f : State → State) (s : State) : State :=
  if issues s c.blk then watched (blkPages c.blk) f s else s
def ckAct (c : Ck) (f : State → State) : State → Out := act (ckDo c f)

def ck64 (s : State) (c : Ck) (lo : Nat) : Nat := (ckReg s c lo).toNat + (ckReg s c (lo + 4)).toNat * 2 ^ 32

def ckStartA (s : State) (c : Ck) : Nat := (addrOf (ckReg s c Rg.ck.CKSTART &&& 0xFFFFFFC0) (ckReg s c Rg.ck.CKSTARTH)).toNat

/-- The length: 0 stands for 2^40. -/
def ckLen (s : State) (c : Ck) : Nat :=
  let n := ((ckReg s c Rg.ck.CKLEN) &&& 0xFFFFFFC0).toNat + bits (ckReg s c Rg.ck.CKLENH) 7 0 * 2 ^ 32
  if n = 0 then 2 ^ 40 else n

/-- Bytes of a fold block. -/
def ckBlk (s : State) (c : Ck) : Nat := 64 * 2 ^ bits (ckReg s c Rg.ck.CKCFG) 10 8

/-- The parameters that CKCFG selects; none where ALG or WIDTH is not allowed (R399). -/
def ckCrc (s : State) (c : Ck) : Option Crc :=
  match ckAlg s c with
  | 0 => some crc32c | 1 => some crc32 | 2 => some crc64 | 3 => some crc16
  | 7 =>
    let p := ckReg s c Rg.ck.CKPCFG
    let w := bits p 6 0
    if isPriv c && 8 ≤ w && w ≤ 64 then
      some ⟨w, ck64 s c Rg.ck.CKPOLY % 2 ^ w, ck64 s c Rg.ck.CKINIT % 2 ^ w, p.getLsbD 8, p.getLsbD 9, p.getLsbD 10⟩
    else none
  | _ => none

/-- Whether START finds the configuration valid; reserved codes of FOLD and BLK are not (DEDUCED, log entry 18). -/
def ckValid (s : State) (c : Ck) : Bool :=
  (ckCrc s c).isSome && ckFold s c != 3 && bits (ckReg s c Rg.ck.CKCFG) 10 8 != 7

/-- An error of a scan: CKSTAT, the log and the event say so (R402, R406). -/
def ckErr (c : Ck) (rsn : BitVec 8) (s : State) : State :=
  let s := updCheck s c (fun x => { x with err := true, reason := rsn })
  let k := c.blk.key
  pulse (logE s k 0x01 (w32 (ckStartA s c)) (ckStat (check s c))) k 2

/-- A scan ends in error (R402). -/
def ckFail (c : Ck) (rsn : BitVec 8) (s : State) : State :=
  ckErr c rsn (updCheck s c (fun x => { x with busy := false, waitDep := false }))

/-- CKCMD START. -/
def ckStart (c : Ck) (s : State) : State :=
  if (check s c).busy then s
  else
    let s := updCheck s c (fun x => { x with fin := false, isMatch := false, err := false, reason := 0 })
    if !ckValid s c then ckFail c 0x01 s
    else
      let init := match ckCrc s c with | some p => p.init | none => 0
      let dep := ckBit s c 12 && !isPriv c
      let s := setReg s (c.blk.key + Rg.ck.CKPROG) 0
      updCheck s c (fun x => { x with
        busy := true, waitDep := dep, crc := BitVec.ofNat 64 init, pos := 0, pollAt := s.clock.now, since := s.clock.now })

/-- A channel that works on a scan. -/
def ckRuns (s : State) (c : Ck) : Bool := (check s c).busy && isGoing s c.blk

/-- Tile and counter of a register laid out as CKDEP. -/
def ckTile (w : W32) : Fin 64 := fin 64 (bits w 5 0)
def ckCnt (w : W32) : Nat := bits w 15 8

/-- DEPPOLL of the die of an ordinary channel. -/
def ckPoll (s : State) : Ck → Nat
  | .ord k _ => bits (reg s (sengKey k + Rg.seng.DEPPOLL)) 12 0
  | .priv _ => 0

/-- CHECK_DEPENDENCE_POLL: the counter is read; the scan begins once it has reached CKDVAL. -/
def ckDepPoll (c : Ck) (s : State) : State :=
  let x := check s c
  if !ckRuns s c || !x.waitDep || s.clock.now < x.pollAt then s
  else
    let w := ckReg s c Rg.ck.CKDEP
    match cntRead s (ckInit s c) (ckTile w) (ckCnt w) with
    | none => mgmtWake (.acnt (ckTile w)) s
    | some (rsn, v) =>
    if rsn ≠ 0 then ckFail c rsn (respErr s ((ckTile w).val / 16) rsn)
    else if ckReg s c Rg.ck.CKDVAL ≤ v then updCheck s c (fun x => { x with waitDep := false })
    else updCheck s c (fun x => { x with pollAt := BitVec.ofNat 64 (now s + ckPoll s c) })
def execCheckDependencePoll (k : Ck) (s : State) : Out := ckAct k (ckDepPoll k) s

/-- Feed a 64-byte block at byte offset `off`, with a fold word before the first of each fold block (R398). -/
def ckFeed (s : State) (c : Ck) (p : Crc) (crc off : Nat) (d : List Byte) : Nat :=
  let a := ckStartA s c + off
  let b := off / ckBlk s c
  let crc := if off % ckBlk s c ≠ 0 then crc
    else match ckFold s c with
    | 1 => crcFeed p crc (leBytes 8 a)
    | 2 => crcFeed p crc (leBytes 8 (ck64 s c Rg.ck.CKSEQ + b))
    | _ => crc
  crcFeed p crc d

/-- CHECK_SCAN_READ: the next 64 bytes. -/
def ckRead (c : Ck) (s : State) : State :=
  let x := check s c
  match ckCrc s c with
  | none => s
  | some p =>
    if !ckRuns s c || x.waitDep || ckLen s c ≤ 64 * x.pos then s
    else
      let m := memRead s (ckInit s c) (ckStartA s c + 64 * x.pos) 64
      if m.rsn ≠ 0 then ckFail c m.rsn m.st
      else
        let v := ckFeed s c p x.crc.toNat (64 * x.pos) m.data
        let s := updCheck m.st c (fun x => { x with crc := BitVec.ofNat 64 v, pos := x.pos + 1 })
        setReg s (c.blk.key + Rg.ck.CKPROG) (w32 (x.pos + 1))
def execCheckScanRead (k : Ck) (s : State) : Out := ckAct k (ckRead k) s

/-- CHECK_SCAN_COMPLETE: the result, the comparison and the count (R400, R401, R564). -/
def ckDone (c : Ck) (s : State) : State :=
  let x := check s c
  match ckCrc s c with
  | none => s
  | some p =>
    if !ckRuns s c || x.waitDep || 64 * x.pos < ckLen s c then s
    else
      let k := c.blk.key
      let v := crcEnd p x.crc.toNat
      let s := setReg (setReg s (k + Rg.ck.CKRES) (w32 v)) (k + Rg.ck.CKRESH) (w32 (v / 2 ^ 32))
      let hit := !ckBit s c 14 || ck64 s c Rg.ck.CKEXP % 2 ^ p.w == v
      let s := updCheck s c (fun x => { x with busy := false, fin := true, isMatch := hit })
      let s := pulse (bump s (k + Rg.ck.CKSCANS)) k 0
      if !hit then pulse (bump s (k + Rg.ck.CKMISS)) k 1
      else if !ckBit s c 13 || isPriv c then s
      else
        let w := ckReg s c Rg.ck.CKCNTX
        let (rsn, s) := cntPacket s (ckInit s c) false (ckTile w) (ckCnt w) 1
        if rsn = 0 then s
        else ckErr c rsn s
def execCheckScanComplete (k : Ck) (s : State) : Out := ckAct k (ckDone k) s

/-- CHECK_SCAN_ERROR: a read of the scan is answered with an error. -/
def ckError (c : Ck) (rsn : BitVec 8) (s : State) : State :=
  if rsn ≠ 0 ∧ (check s c).busy ∧ !(check s c).waitDep then ckFail c rsn s else s
def execCheckScanError (k : Ck) (reason : BitVec 8) (s : State) : Out := ckAct k (ckError k reason) s

/-! ### Requests (R403) -/

/-- RUN resumes a scan from CKPROG; a wait at the dependence begins again (R278, R403). -/
def ckRun (c : Ck) (s : State) : State :=
  if isStopped s c.blk then updCheck (setRun s c.blk .going) c (fun x => if x.waitDep then { x with since := s.clock.now } else x)
  else s

/-- STOPNOW ends a scan. -/
def ckStopnow (c : Ck) (s : State) : State :=
  let s := if (check s c).busy then ckFail c Rsn.stopped s else s
  setRun s c.blk .stopped

/-- Every register but BLKPART at reset, the log empty (R397, R403). -/
def ckReset (c : Ck) (s : State) : State :=
  let k := c.blk.key
  let s := updCheck s c (fun _ => check0)
  setRun (clearLog (dropRegs s (fun x => decide (k ≤ x ∧ x < k + 0x1000) && x != k + Rg.hdr.BLKPART)) k) c.blk .going

end Sys2Proof.Machine
end

