-- ==== Sys2Proof/Machine/Link.lean ====
section
/-! DEFINITION. The Chagus link: ordered sets, bring-up, Mist, frames and replay, credits and pauses, remote requests, and
    message delivery into receive rings (R444-R489). -/

namespace Sys2Proof.Machine

/-! ### The port and its counters -/

def ptKey (p : Fin 96) : Nat := Blk.key (.port p)
def lgKey (p : Fin 96) : Nat := Blk.key (.lanes p)
def ptReg (s : State) (p : Fin 96) (o : Nat) : W32 := reg s (ptKey p + o)

/-- Pages whose levels a port moves. -/
def portPages (p : Fin 96) : List (Blk × Nat) := [(.port p, 0), (.lanes p, 0)]

/-- A change of a port that works: good and its domain on. -/
def portDo (p : Fin 96) (f : State → State) (s : State) : State :=
  if live s (.port p) then watched (portPages p) f s else s
def portAct (p : Fin 96) (f : State → State) : State → Out := act (portDo p f)

/-- A symbol time in units of 0.25 ns (R444). -/
def symQ (rate : Nat) : Nat := 16 / 2 ^ rate

/-- n symbol times, in ns. -/
def symNs (rate n : Nat) : Nat := n * symQ rate / 4

/-- A PAUSE quantum in ns (R444). -/
def quantum (x : Port) : Nat := symNs x.rate 512

def qualLog (s : State) (p : Fin 96) : Nat := bits (ptReg s p Rg.port.PTIMING) 4 0
def mistIdle (s : State) (p : Fin 96) : Nat := 1000 * bits (ptReg s p Rg.port.PTIMING) 15 8
def replayTo (s : State) (p : Fin 96) : Nat := 1000 * bits (ptReg s p Rg.port.PTIMING) 23 16

/-- An entry of the port's log (R487). -/
def portLog (s : State) (p : Fin 96) (code : Nat) (rate cause : Nat) (w1 : Nat) (a : Nat) (rsn : BitVec 8) : State :=
  logE s (ptKey p) (w32 (code + rate * 2 ^ 8 + cause * 2 ^ 12)) (w32 w1) (w32 a) (w32 (a / 2 ^ 32 % 2 ^ 16 + rsn.toNat * 2 ^ 24))

/-- The link is in a state in which its counters run (R463). -/
def linkRuns (x : Port) : Bool := x.ls != .down && x.ls != .failed

def isUp (x : Port) : Bool := x.ls == .up

/-- Put ordered sets on the lanes. In Mist they wait for its exit (R461), in RETRAIN, where the port sends TS, for the return to
    UP; a link that is not up sends none (R454, R459). -/
def emit (p : Fin 96) (l : List LOut) (s : State) : State :=
  updPort s p (fun x =>
    if x.ls = .up ∧ !x.txMist then { x with out := x.out ++ l, idleAt := s.clock.now }
    else if x.ls = .up ∨ x.ls = .retrain then { x with due := x.due ++ l, idleAt := s.clock.now }
    else x)

/-- Count a discarded ordered set or TS (R448, R453). -/
def osErr (p : Fin 96) (s : State) : State := if linkRuns (port s p) then bump s (ptKey p + Rg.port.OSERR) else s

/-! ### Tags and requests (R475, R476) -/

/-- What a port brings back for whoever sent a request or a message. -/
def answerSrc (s : State) (src : Src) (r : BitVec 8) (d : List Byte) : State :=
  match src with
  | .ctx k x side pos => portBack s k x side pos r d
  | _ => s

/-- Abandon the request of a tag. -/
def abandon (p : Fin 96) (t : Nat) (s : State) : State :=
  let g := tget tag0 (port s p).tags t
  if !g.out then s
  else
    let s := updPort s p (fun x => { x with
      tags := tset tag0 x.tags t { g with out := false, held := true, at_ := s.clock.now, epoch := g.epoch + 1, src := .nobody }
      txq := x.txq.filter (fun f => !((f.typ == 1 || f.typ == 2) && f.tag.toNat == t)) })
    let s := bump (portLog s p 0x05 (port s p).rate 0 t 0 Rsn.stopped) (ptKey p + Rg.port.ABANDON)
    pulse (answerSrc s g.src Rsn.stopped []) (ptKey p) 5

/-- REQUEST_ABANDON: unanswered for RQTO µs. -/
def reqAbandon (p : Fin 96) (t : Nat) (s : State) : State :=
  let g := tget tag0 (port s p).tags t
  if g.out && decide (g.at_.toNat + 1000 * g.rqto ≤ now s) then abandon p t s else s
def execRequestAbandon (p : Fin 96) (tag : BitVec 12) (s : State) : Out := portAct p (reqAbandon p tag.toNat) s

/-- TAG_HOLD_EXPIRY. -/
def tagFree (p : Fin 96) (t : Nat) (s : State) : State :=
  let g := tget tag0 (port s p).tags t
  if g.held && decide (g.at_.toNat + 1000 * g.rqto ≤ now s) then
    updPort s p (fun x => { x with tags := tset tag0 x.tags t { tag0 with epoch := g.epoch } })
  else s
def execTagHoldExpiry (p : Fin 96) (tag : BitVec 12) (s : State) : Out := portAct p (tagFree p tag.toNat) s

/-! ### Pauses (R471) -/

/-- A pause ends; the time it lasted is counted. -/
def endPause (p : Fin 96) (s : State) : State :=
  match (port s p).paused with
  | none => s
  | some (a, b) =>
    let t := min (now s) b.toNat
    bump (updPort s p (fun x => { x with paused := none })) (ptKey p + Rg.port.PAUSENS) (t - a.toNat)

/-- PAUSE_EXPIRY. -/
def pauseOver (p : Fin 96) (s : State) : State :=
  match (port s p).paused with
  | some (_, b) => if b.toNat ≤ now s then endPause p s else s
  | none => s
def execPauseExpiry (p : Fin 96) (s : State) : Out := portAct p (pauseOver p) s

/-! ### Going down, retraining, coming up (R455, R458, R459, R469) -/

/-- The link goes down from UP or RETRAIN. -/
def linkDown (p : Fin 96) (s : State) : State :=
  let x := port s p
  if x.ls != .up && x.ls != .retrain then s
  else
    let s := endPause p s
    let s := (x.tags.filter (fun e => e.2.out)).foldl (fun s e => abandon p e.1 s) s
    let s := updPort s p (fun x => { x with
      ls := .down, replay := [], rxHeld := 0, autoAt := none, serves := [], txMist := false, rxMist := false, due := [],
      txq := x.txq.filter (fun f => f.typ == 0) })
    pulse (portLog s p 0x04 x.rate 0 0 0 0) (ptKey p) 1

/-- A bring-up attempt fails: another follows after 1 ms with AUTORETRY, up to three failures in a row. -/
def attemptFail (p : Fin 96) (cause : Nat) (s : State) : State :=
  let n := (port s p).fails + 1
  let again := (ptReg s p Rg.port.PCTL).getLsbD 5 && decide (n < 3)
  let s := updPort s p (fun x => { x with
    fails := n, failCause := BitVec.ofNat 4 cause, ls := if again then .down else .failed,
    retryAt := if again then some (BitVec.ofNat 64 (now s + 1000000)) else none })
  portLog s p 0x01 (port s p).rate cause 0 0 0

/-- RETRAIN begins. -/
def enterRetrain (p : Fin 96) (s : State) : State :=
  if !isUp (port s p) then s
  else
    let s := updPort s p (fun x => { x with
      ls := .retrain, startAt := s.clock.now, qualAt := s.clock.now, selfPass := false, peerPass := false, rxMist := false,
      txMist := false })
    pulse (bump (portLog s p 0x03 (port s p).rate 0 0 0 0) (ptKey p + Rg.port.RETRAINS)) (ptKey p) 1

/-- Every unacknowledged frame from a position on is to be sent again; the fourth time in a row the port retrains. -/
def goBack (p : Fin 96) (from_ : TFrame → Bool) (s : State) : State :=
  let n := (port s p).replays + 1
  let s := updPort s p (fun x => { x with
    replay := x.replay.map (fun f => if from_ f then { f with sent := false } else f), replays := n, ackAt := s.clock.now })
  if 4 ≤ n then enterRetrain p s else s

/-- Equalization applied at a rate: the clamped sum of trim and table (R451). -/
def eqEff (s : State) (p : Fin 96) (l rate : Nat) : W32 :=
  let t := tget 0 s.fuses.trims (16 * p.val + l)
  let e := reg s (lgKey p + Rg.lgrp.EQ + 0x14 * l + 4 * rate)
  let clamp (hi : Int) (v : Int) : Nat := (max 0 (min hi v)).toNat
  let pre := clamp 15 (bits t 3 0 + sext 4 (bits e 3 0))
  let post := clamp 31 (bits t 12 8 + sext 5 (bits e 12 8))
  let peak := clamp 15 (bits t 19 16 + sext 4 (bits e 19 16))
  w32 (pre + post * 2 ^ 8 + peak * 2 ^ 16)

/-- The lanes take up the settings of a rate. -/
def applyEq (p : Fin 96) (rate : Nat) (s : State) : State :=
  (List.range 16).foldl (fun s l => setReg s (lgKey p + Rg.lgrp.EQEFF + 4 * l) (eqEff s p l rate)) s

/-- A port may train: RUNNING, with its lane group RUNNING. -/
def mayTrain (s : State) (p : Fin 96) : Bool := portTakes s p && isGoing s (.lanes p)

/-- A bring-up attempt begins. -/
def startTrain (p : Fin 96) (s : State) : State :=
  let s := updPort s p (fun x => { x with
    ls := .train, rate := 0, target := 0, settled := false, selfPass := false, peerPass := false, startAt := s.clock.now,
    retryAt := none, attempts := min 255 (x.attempts + 1) })
  applyEq p 0 (setReg s (lgKey p + Rg.lgrp.LGSTAT) 0)

/-- BRING_UP_START. -/
def bringUp (p : Fin 96) (s : State) : State :=
  let x := port s p
  if mayTrain s p ∧ x.ls = .down ∧ x.retryAt = none then startTrain p s else s
def execBringUpStart (p : Fin 96) (s : State) : Out := portAct p (bringUp p) s

/-- BRING_UP_TIMEOUT: no valid peer TS within 100 ms. -/
def bringUpTo (p : Fin 96) (s : State) : State :=
  let x := port s p
  if x.ls = .train ∧ x.startAt.toNat + 100000000 ≤ now s then attemptFail p 1 s else s
def execBringUpTimeout (p : Fin 96) (s : State) : Out := portAct p (bringUpTo p) s

/-- AUTORETRY_RESTART, 1 ms after a failed attempt. -/
def autoRetry (p : Fin 96) (s : State) : State :=
  match (port s p).retryAt with
  | some t => if t.toNat ≤ now s ∧ mayTrain s p then startTrain p s else s
  | none => s
def execAutoretryRestart (p : Fin 96) (s : State) : Out := portAct p (autoRetry p) s

/-- RETRAIN_TIMEOUT: not back to UP within 100 µs. -/
def retrainTo (p : Fin 96) (s : State) : State :=
  let x := port s p
  if x.ls = .retrain ∧ x.startAt.toNat + 100000 ≤ now s then attemptFail p 5 (linkDown p s) else s
def execRetrainTimeout (p : Fin 96) (s : State) : Out := portAct p (retrainTo p) s

/-- ALIGNMENT_LOSS at two marker positions. -/
def execAlignmentLoss (p : Fin 96) (s : State) : Out := portAct p (enterRetrain p) s

/-- The link comes up with the credits that READY carried. -/
def linkUp (p : Fin 96) (credits : List Nat) (s : State) : State :=
  updPort s p (fun x => { x with
    ls := .up, txSeq := 0, rxSeq := 0, nakFor := none, replay := [], replays := 0, ackAt := s.clock.now, fails := 0, idleAt := s.clock.now,
    adv := tset 0 (tset 0 (tset 0 [] 0 (credits.getD 0 0)) 1 (credits.getD 1 0)) 2 (credits.getD 2 0), peerFreed := [], spent := [],
    freed := [], rxHeld := 0, autoAt := none, paused := none, lastPause := none, txMist := false, rxMist := false, due := [] })

/-- Qualification of the current rate begins. -/
def startQual (p : Fin 96) (s : State) : State :=
  updPort s p (fun x => { x with ls := .qualify, qualAt := s.clock.now, selfPass := false, peerPass := false })

/-- A rate fails: at rate 0, or at the rate returned to, the attempt fails; else the port steps back and settles there. -/
def qualFail (p : Fin 96) (s : State) : State :=
  let x := port s p
  if x.rate = 0 ∨ x.settled then attemptFail p 3 s
  else portLog (updPort s p (fun x => { x with ls := .step, settled := true })) p 0x02 x.rate 0 0 0 0

/-- Both ends have qualified: a step to the next rate below the target, or READY at the final one; from RETRAIN back to UP. -/
def bothPass (p : Fin 96) (s : State) : State :=
  let x := port s p
  if !(x.selfPass && x.peerPass) then s
  else match x.ls with
  | .qualify => if x.rate < x.target ∧ !x.settled then updPort s p (fun x => { x with ls := .step }) else s
  | .retrain => updPort s p (fun x => { x with
      ls := .up, replays := 0, ackAt := s.clock.now, replay := x.replay.map (fun f => { f with sent := false }),
      idleAt := s.clock.now, out := x.out ++ x.due, due := [] })
  | _ => s

/-- RATE_STEP_COMPLETE: the new rate with its equalization, then its qualification. -/
def stepDone (p : Fin 96) (s : State) : State :=
  let x := port s p
  if x.ls != .step then s
  else
    let r := if x.settled then x.rate - 1 else x.rate + 1
    startQual p (applyEq p r (updPort s p (fun x => { x with rate := r })))
def execRateStepComplete (p : Fin 96) (s : State) : Out := portAct p (stepDone p) s

/-- Count lane errors: any pulses lane group event source 0 (R445, R463). -/
def laneErrs (p : Fin 96) (viol disp : List (Fin 16)) (s : State) : State :=
  let k := lgKey p
  let s := viol.foldl (fun s l => bump s (k + Rg.lgrp.CVCNT + 8 * l.val)) s
  let s := disp.foldl (fun s l => bump s (k + Rg.lgrp.DISPCNT + 8 * l.val)) s
  pulseIf (!viol.isEmpty || !disp.isEmpty) s k 0

/-- QUALIFY_COMPLETE: lane errors count in every state of a running link (R463); in QUALIFY one fails the rate at once; else it qualifies after 2^QUALLOG symbol times (2^(QUALLOG-4) in
    RETRAIN, where an error starts the interval again). -/
def qualDone (p : Fin 96) (viol disp : List (Fin 16)) (s : State) : State :=
  let x := port s p
  let n := 2 ^ (if x.ls = .retrain then qualLog s p - 4 else qualLog s p)
  if x.ls != .qualify && x.ls != .retrain then (if linkRuns x then laneErrs p viol disp s else s)
  else if !viol.isEmpty || !disp.isEmpty then
    let s := laneErrs p viol disp s
    if x.ls = .qualify then qualFail p s else updPort s p (fun x => { x with qualAt := s.clock.now })
  else if x.qualAt.toNat + symNs x.rate n ≤ now s then bothPass p (updPort s p (fun x => { x with selfPass := true }))
  else s
def execQualifyComplete (p : Fin 96) (viol disp : List (Fin 16)) (s : State) : Out := portAct p (qualDone p viol disp) s

/-! ### Training sequences (R450, R453) -/

/-- Symbol i of a lane's TS. -/
def tsSym (l : List Byte) (i : Nat) : Nat := (l.getD i 0).toNat

/-- Symbol 15 is the XOR of symbols 1 to 14. -/
def tsSum (l : List Byte) : Bool := ((l.drop 1).take 14).foldl (fun a b => a ^^^ b) 0 == l.getD 15 0

/-- The rates a port offers: up to RATELIM. -/
def ownRates (s : State) (p : Fin 96) : Nat := 2 ^ (min 4 (bits (ptReg s p Rg.port.PCTL) 2 0) + 1) - 1

/-- A valid TS on all lanes. -/
def tsGood (p : Fin 96) (l : List Byte) (pol : BitVec 16) (s : State) : State :=
  let x := port s p
  let rates := tsSym l 3 % 32
  let flags := tsSym l 5
  let cur := tsSym l 4 % 8
  let cred := (List.range 3).map (fun v => tsSym l (9 + 2 * v) * 256 + tsSym l (10 + 2 * v))
  match x.ls with
  | .train =>
    let s := setReg s (lgKey p + Rg.lgrp.LGSTAT) (w32 (0xFFFF + pol.toNat * 2 ^ 16))
    let s := setReg s (ptKey p + Rg.port.PEERID)
      (w32 (tsSym l 6 * 256 + tsSym l 7 + tsSym l 8 % 128 * 2 ^ 16 + rates * 2 ^ 24))
    let both := rates &&& ownRates s p
    if both = 0 then attemptFail p 4 s
    else startQual p (updPort s p (fun x => { x with target := Nat.log2 both }))
  | .qualify =>
    if cur ≠ x.rate then s
    else if nbit flags 1 then qualFail p s
    else
      let s := if nbit flags 0 then updPort s p (fun x => { x with peerPass := true }) else s
      let x := port s p
      if x.selfPass && x.peerPass && nbit flags 2 && (x.rate == x.target || x.settled) then linkUp p cred s
      else bothPass p s
  | .retrain => if nbit flags 0 then bothPass p (updPort s p (fun x => { x with peerPass := true })) else s
  | .up => if nbit flags 3 then enterRetrain p s else s
  | _ => s

/-- TS: checked on every lane; a lane number that differs ends the attempt with cause 2. -/
def tsIn (p : Fin 96) (lanes : List (List Byte)) (pol : BitVec 16) (s : State) : State :=
  let x := port s p
  if !linkRuns x then s
  else
    let l0 := lanes.headD []
    let same := lanes.all (fun l => (List.range 15).all (fun i => i == 0 || i == 2 || tsSym l i == tsSym l0 i))
    if !(lanes.all tsSum && same) then
      let s := osErr p s
      if x.ls = .qualify then qualFail p s else s
    else if (List.range 16).any (fun i => tsSym (lanes.getD i []) 2 != i) then
      if x.ls = .train ∨ x.ls = .qualify ∨ x.ls = .step then attemptFail p 2 s else s
    else tsGood p l0 pol s

def execTs (p : Fin 96) (lanes : List (List Byte)) (pol : BitVec 16) (s : State) : Out :=
  if wellFormed (.ts p lanes pol) then portAct p (tsIn p lanes pol) s else .refused .illFormed

/-! ### Ordered sets (R447-R449, R460, R467, R470, R471): symbols 1 to 3 of a lane are its bytes from the low one up -/

def osSym (w : BitVec 24) (i : Nat) : Nat := bits w (8 * i - 1) (8 * i - 8)

/-- The symbols that all 16 lanes carry; else the set is discarded and counted. -/
def sameOs (p : Fin 96) (l : OsLanes) (f : BitVec 24 → State → State) (s : State) : State :=
  match l with
  | [] => s
  | w :: t => if t.all (· == w) then f w s else osErr p s

def osAct (ok : Bool) (p : Fin 96) (f : State → State) (s : State) : Out :=
  if ok then portAct p f s else .refused .illFormed

/-- FILL_SET: nothing to act on. -/
def fillIn (p : Fin 96) (w : BitVec 24) (s : State) : State := if w = 0x505050 then s else osErr p s
def execFillSet (p : Fin 96) (l : OsLanes) (s : State) : Out :=
  osAct (wellFormed (.fillSet p l)) p (sameOs p l (fillIn p)) s

/-- ALIGN: the lanes are aligned; a receiver in Mist has relocked. -/
def alignIn (p : Fin 96) (l : OsLanes) (skew : BitVec 7) (s : State) : State :=
  let ok := (List.range 16).all (fun i =>
    let w := l.getD i 0
    osSym w 1 == i && osSym w 2 == 255 - i && osSym w 3 == 0)
  if !linkRuns (port s p) then s
  else if !ok then osErr p s
  else if 64 < skew.toNat then s
  else setReg (updPort s p (fun x => { x with rxMist := false })) (lgKey p + Rg.lgrp.LGSKEW) (w32 skew.toNat)
def execAlign (p : Fin 96) (l : OsLanes) (skew : BitVec 7) (s : State) : Out :=
  osAct (wellFormed (.align p l skew)) p (alignIn p l skew) s

/-- An ordered set acts only in UP. -/
def inUp (p : Fin 96) (f : State → State) (s : State) : State := if isUp (port s p) then f s else s

def seqOf (w : BitVec 24) : BitVec 16 := BitVec.ofNat 16 (osSym w 1 * 256 + osSym w 2)

/-- Frames of the replay buffer up to and with a sequence number. -/
def ackSplit (seq : BitVec 16) (l : List TFrame) : List TFrame × List TFrame :=
  if l.any (fun f => f.seq == seq) then
    (l.takeWhile (fun f => f.seq != seq) ++ (l.find? (fun f => f.seq == seq)).toList, (l.dropWhile (fun f => f.seq != seq)).drop 1)
  else ([], l)

/-- ACK: the frames it covers leave the replay buffer; messages among them are acknowledged to their contexts. -/
def ackIn (p : Fin 96) (w : BitVec 24) : State → State :=
  inUp p (fun s =>
    let (gone, rest) := ackSplit (seqOf w) (port s p).replay
    if gone = [] then s
    else
      let s := updPort s p (fun x => { x with replay := rest, replays := 0, ackAt := s.clock.now, idleAt := s.clock.now })
      gone.foldl (fun s f => if f.typ = 0 then answerSrc s f.src 0 [] else s) s)
def execAck (p : Fin 96) (l : OsLanes) (s : State) : Out := osAct (wellFormed (.ack p l)) p (sameOs p l (ackIn p)) s

/-- NAK: every unacknowledged frame from its SEQ on is resent. -/
def nakIn (p : Fin 96) (w : BitVec 24) : State → State :=
  inUp p (fun s =>
    let q := seqOf w
    let l := (port s p).replay
    if l.any (fun f => f.seq == q) then goBack p (fun f => (f.seq - q).toNat < 0x8000) s else s)
def execNak (p : Fin 96) (l : OsLanes) (s : State) : Out := osAct (wellFormed (.nak p l)) p (sameOs p l (nakIn p)) s

/-- LINK_REPLAY_TIMEOUT. -/
def replayTimeout (p : Fin 96) : State → State :=
  inUp p (fun s =>
    let x := port s p
    if x.replay ≠ [] ∧ x.ackAt.toNat + replayTo s p ≤ now s then goBack p (fun _ => true) s else s)
def execLinkReplayTimeout (p : Fin 96) (s : State) : Out := portAct p (replayTimeout p) s

/-- CREDIT: the total freed by the peer for a VC. -/
def creditIn (p : Fin 96) (w : BitVec 24) : State → State :=
  inUp p (fun s =>
    if 3 ≤ osSym w 1 then osErr p s
    else updPort s p (fun x => { x with peerFreed := tset 0 x.peerFreed (osSym w 1) (BitVec.ofNat 16 (osSym w 2 * 256 + osSym w 3)) }))
def execCredit (p : Fin 96) (l : OsLanes) (s : State) : Out := osAct (wellFormed (.credit p l)) p (sameOs p l (creditIn p)) s

/-- PAUSE: a repeat within 8 columns is ignored; zero ends a pause, another time replaces it. Frames are sent whole, so none
    is ever cut by a pause. -/
def pauseIn (p : Fin 96) (w : BitVec 24) : State → State :=
  inUp p (fun s =>
    let x := port s p
    let t := seqOf w
    let again := match x.lastPause with
      | some (v, at_) => v == t && decide (4 * (now s - at_.toNat) ≤ 8 * symQ x.rate)
      | none => false
    if again || (t == 0 && x.paused.isNone) then s
    else
      let from_ := match x.paused with | some (a, _) => a | none => s.clock.now
      let s := bump (updPort s p (fun x => { x with lastPause := some (t, s.clock.now) })) (ptKey p + Rg.port.PAUSERX)
      if t = 0 then endPause p s
      else updPort s p (fun x => { x with paused := some (from_, BitVec.ofNat 64 (now s + t.toNat * quantum x)) }))
def execPause (p : Fin 96) (l : OsLanes) (s : State) : Out := osAct (wellFormed (.pause p l)) p (sameOs p l (pauseIn p)) s

/-- EIOS: the peer's transmitter enters Mist. In STEP it only goes ahead of the change of rate. -/
def eiosIn (p : Fin 96) (_ : BitVec 24) : State → State := inUp p (fun s => updPort s p (fun x => { x with rxMist := true }))
def execEios (p : Fin 96) (l : OsLanes) (s : State) : Out := osAct (wellFormed (.eios p l)) p (sameOs p l (eiosIn p)) s

/-- ACK_CREDIT_REPEAT: the latest values again. A repeat carries nothing new and does not keep the port from Mist (DEDUCED, log
    entry 36). -/
def ackRepeat (p : Fin 96) : State → State :=
  inUp p (fun s =>
    let x := port s p
    if x.txMist then s
    else updPort s p (fun x => { x with
      out := x.out ++ [.ack (x.rxSeq - 1)] ++ (List.range 3).map (fun v => .credit v (tget 0 x.freed v)) }))
def execAckCreditRepeat (p : Fin 96) (s : State) : Out := portAct p (ackRepeat p) s

/-- PAUSETX with SEND: the PAUSE goes out twice (R448, R472). -/
def sendPause (p : Fin 96) (t : BitVec 16) : State → State := inUp p (emit p [.pause t, .pause t])
def pauseTx (p : Fin 96) (v : W32) (s : State) : State :=
  if v.getLsbD 16 then sendPause p (BitVec.ofNat 16 v.toNat) s else s

/-! ### Mist (R460-R462) -/

/-- MIST_ENTRY. -/
def mistIn (p : Fin 96) : State → State :=
  inUp p (fun s =>
    let x := port s p
    if (ptReg s p Rg.port.PCTL).getLsbD 4 ∧ !x.txMist ∧ x.txq = [] ∧ x.replay = [] ∧ x.idleAt.toNat + mistIdle s p ≤ now s then
      updPort s p (fun x => { x with txMist := true, mistAt := s.clock.now, out := x.out ++ [.eios] })
    else s)
def execMistEntry (p : Fin 96) (s : State) : Out := portAct p (mistIn p) s

/-- MIST_EXIT: something is due, and the idle has lasted 128 symbol times. -/
def mistOut (p : Fin 96) : State → State :=
  inUp p (fun s =>
    let x := port s p
    if x.txMist ∧ (x.due ≠ [] ∨ x.txq ≠ []) ∧ x.mistAt.toNat + symNs x.rate 128 ≤ now s then
      updPort s p (fun x => { x with
        txMist := false, idleAt := s.clock.now, out := x.out ++ [.burst, .align] ++ x.due, due := [] })
    else s)
def execMistExit (p : Fin 96) (s : State) : Out := portAct p (mistOut p) s

/-- MIST_RELOCK_TIMEOUT: no ALIGN after the end of the peer's idle. -/
def mistLost (p : Fin 96) : State → State := inUp p (fun s => if (port s p).rxMist then enterRetrain p s else s)
def execMistRelockTimeout (p : Fin 96) (s : State) : Out := portAct p (mistLost p) s

/-! ### Sending frames (R464, R465, R468, R470) -/

def vcOf (typ : BitVec 4) : Nat := if typ = 0 then 2 else if typ.toNat ≤ 2 then 0 else 1

/-- Bytes of a frame. -/
def frameBytes (f : TFrame) : Nat := 32 + (f.pay.length + 15) / 16 * 16
def frameCred (f : TFrame) : Nat := (frameBytes f + 63) / 64

/-- Credits available at the peer for a VC. -/
def credAvail (x : Port) (v : Nat) : Nat :=
  (tget 0 x.adv v + (tget 0 x.peerFreed v).toNat + 65536 - tget 0 x.spent v % 65536) % 65536

/-- The first waiting frame that its credits and the replay buffer cover, no other of its VC being before it. -/
def nextFrame (x : Port) : List Nat → List TFrame → Option TFrame
  | _, [] => none
  | seen, f :: t =>
    let v := vcOf f.typ
    if !seen.contains v && decide (frameCred f ≤ credAvail x v ∧ (x.replay.map frameBytes).sum + frameBytes f ≤ 262144)
    then some f else nextFrame x (v :: seen) t

/-- FRAME_TRANSMIT: a frame to be resent, else a new one. -/
def transmit (p : Fin 96) : State → State :=
  inUp p (fun s =>
    let x := port s p
    if x.txMist || x.paused.isSome then s
    else match x.replay.find? (fun f => !f.sent) with
    | some f =>
      let g := { f with sent := true }
      let s := updPort s p (fun x => { x with
        replay := x.replay.map (fun h => if h = f then g else h), out := x.out ++ [.frame g], idleAt := s.clock.now })
      bump s (ptKey p + Rg.port.REPLAYS)
    | none =>
      match nextFrame x [] x.txq with
      | none => s
      | some f =>
        let g := { f with seq := x.txSeq, sent := true }
        let v := vcOf f.typ
        let req := f.typ = 1 ∨ f.typ = 2
        let s := updPort s p (fun x => { x with
          txq := x.txq.erase f, txSeq := x.txSeq + 1, ackAt := if x.replay = [] then s.clock.now else x.ackAt,
          replay := x.replay ++ [g], spent := tset 0 x.spent v ((tget 0 x.spent v + frameCred f) % 65536), out := x.out ++ [.frame g],
          idleAt := s.clock.now,
          tags := if req then tupd tag0 x.tags f.tag.toNat (fun t => { t with at_ := s.clock.now }) else x.tags })
        bump (bump s (ptKey p + Rg.port.TXFRAMES)) (ptKey p + Rg.port.TXBYTES) (frameCred f))
def execFrameTransmit (p : Fin 96) (s : State) : Out := portAct p (transmit p) s

/-! ### Receive buffer and its watermark (R470, R472) -/

/-- Bytes held change: RXWM crossings, and the automatic PAUSE at HI and its end at LO. -/
def holdBytes (p : Fin 96) (n : Nat) (s : State) : State :=
  let w := ptReg s p Rg.port.PAUSECFG
  let hi := 4096 * bits w 22 16
  let lo := 4096 * bits w 29 24
  let old := (port s p).rxHeld
  let s := updPort s p (fun x => { x with rxHeld := n })
  let s := if old < hi ∧ hi ≤ n then pulse (setRegBit s (ptKey p + Rg.port.RXWM) 1 true) (ptKey p) 8 else s
  if !(ptReg s p Rg.port.PCTL).getLsbD 7 then s
  else if hi ≤ n ∧ (port s p).autoAt = none then
    sendPause p (BitVec.ofNat 16 w.toNat) (updPort s p (fun x => { x with autoAt := some s.clock.now }))
  else if n ≤ lo ∧ (port s p).autoAt ≠ none then sendPause p 0 (updPort s p (fun x => { x with autoAt := none }))
  else s

/-- AUTOPAUSE_REPEAT, each PTIME / 2 quanta while the buffer holds HI or more. -/
def autoPause (p : Fin 96) : State → State :=
  inUp p (fun s =>
    let x := port s p
    let w := ptReg s p Rg.port.PAUSECFG
    match x.autoAt with
    | none => s
    | some t =>
      if (ptReg s p Rg.port.PCTL).getLsbD 7 ∧ 4096 * bits w 22 16 ≤ x.rxHeld ∧ t.toNat + bits w 15 0 * quantum x / 2 ≤ now s then
        sendPause p (BitVec.ofNat 16 w.toNat) (updPort s p (fun x => { x with autoAt := some s.clock.now }))
      else s)
def execAutopauseRepeat (p : Fin 96) (s : State) : Out := portAct p (autoPause p) s

/-- A frame's credits are freed and announced. -/
def freeCred (p : Fin 96) (v n : Nat) (s : State) : State :=
  let t := tget 0 (port s p).freed v + BitVec.ofNat 16 n
  emit p [.credit v t] (updPort s p (fun x => { x with freed := tset 0 x.freed v t }))

/-! ### Remote requests served here (R477) -/

/-- The port as initiator. -/
def portInit (s : State) (p : Fin 96) : Init :=
  { die := BitVec.ofNat 7 (100 + p.val / 32), rtr := BitVec.ofNat 4 (p.val % 32 / 16), part := ownerOf s (.port p), op := false, pri := 1 }

/-- Queue the response of a request. -/
def queueResp (p : Fin 96) (v : Serve) (s : State) : State :=
  let d := if v.read ∧ v.reason = 0 then (v.got.mergeSort (fun a b => a.1 ≤ b.1)).flatMap (·.2) else []
  let f : TFrame := { frame0 with
    typ := if v.read then 3 else 4, len := d.length, tag := v.tag, epoch := v.epoch, word2 := w32 v.reason.toNat, pay := d }
  updPort s p (fun x => { x with txq := x.txq ++ [f], serves := x.serves.filter (fun w => w.key != v.key) })

/-- Issue a waiting request on the network, in accesses of 64 bytes, and pass its frame on. -/
def issueServe (p : Fin 96) (v : Serve) (s : State) : State :=
  let n := v.len / 64
  let s := updPort s p (fun x => { x with
    serves := x.serves.map (fun w => if w.key = v.key then { w with issued := true, left := n, data := [] } else w) })
  let s := (List.range n).foldl (fun s i =>
    netSend s (.port p (v.key * 64 + i)) (mkReq (portInit s p) (if v.read then .read else .write) (v.addr + 64 * i) 64
      (if v.read then [] else (v.data.drop (64 * i)).take 64))) s
  let bytes := 32 + (if v.read then 0 else v.len)
  freeCred p 0 ((bytes + 63) / 64) (holdBytes p ((port s p).rxHeld - bytes) s)

/-- Issue waiting requests while fewer than 256 are in progress. The fuel is their number. -/
def pumpServes (p : Fin 96) : Nat → State → State
  | 0, s => s
  | f + 1, s =>
    let l := (port s p).serves
    match l.find? (fun v => !v.issued) with
    | some v => if issues s (.port p) ∧ (l.filter (·.issued)).length < 256 then pumpServes p f (issueServe p v s) else s
    | none => s

/-- A response of the network for access `key` of a served request (NETWORK_RESPONSE). -/
def serveBack (s : State) (p : Fin 96) (key : Nat) (rsn : BitVec 8) (d : List Byte) : State :=
  match (port s p).serves.find? (fun v => v.issued && v.key == key / 64) with
  | none => s
  | some v =>
    let v' := { v with left := v.left - 1, got := v.got ++ [(key % 64, d)], reason := if v.reason = 0 then rsn else v.reason }
    if v'.left = 0 then
      let s := queueResp p v' s
      pumpServes p (port s p).serves.length s
    else updPort s p (fun x => { x with serves := x.serves.map (fun w => if w.key = v.key then v' else w) })

/-- A request frame that passed its checks. -/
def serveReq (p : Fin 96) (h : List Byte) (pay : List Byte) (s : State) : State :=
  let w0 := leNat (h.take 4)
  let w1 := leNat ((h.drop 4).take 4)
  let len := w1 % 2 ^ 12
  let a := leNat ((h.drop 8).take 4) + leNat ((h.drop 12).take 2) * 2 ^ 32
  let read := w0 / 2 ^ 16 % 16 == 1
  let v : Serve :=
    { key := (port s p).serveNext, tag := BitVec.ofNat 12 (w1 / 2 ^ 16), epoch := BitVec.ofNat 2 (w1 / 2 ^ 28), read, addr := a, len,
      data := pay.take len, issued := false, got := [], left := 0, reason := 0 }
  let s := updPort s p (fun x => { x with serveNext := x.serveNext + 1 })
  let bytes := 32 + pay.length
  let refuse (r : BitVec 8) : State := freeCred p 0 ((bytes + 63) / 64) (queueResp p { v with reason := r } s)
  if !(ptReg s p Rg.port.PCTL).getLsbD 6 then refuse Rsn.partition
  else if isStopped s (.port p) then refuse Rsn.stopped
  else
    let s := holdBytes p ((port s p).rxHeld + bytes) s
    let s := updPort s p (fun x => { x with serves := x.serves ++ [v] })
    pumpServes p (port s p).serves.length s

/-! ### Responses received (R475) -/

/-- A response completes the request of its tag and epoch, else it is stale. -/
def respIn (p : Fin 96) (h pay : List Byte) (s : State) : State :=
  let w1 := leNat ((h.drop 4).take 4)
  let t := w1 / 2 ^ 16 % 2 ^ 12
  let g := tget tag0 (port s p).tags t
  let s := freeCred p 1 ((32 + pay.length + 63) / 64) s
  if g.out && g.epoch == BitVec.ofNat 2 (w1 / 2 ^ 28) then
    let s := updPort s p (fun x => { x with tags := tset tag0 x.tags t { tag0 with epoch := g.epoch } })
    answerSrc s g.src (BitVec.ofNat 8 (leNat ((h.drop 8).take 1))) (pay.take (w1 % 2 ^ 12))
  else bump s (ptKey p + Rg.port.STALECNT)

/-! ### Messages into the receive ring (R479-R482) -/

def rxSize (s : State) (p : Fin 96) : Nat := 2 ^ bits (ptReg s p Rg.port.RXCFG) 7 4
def rxBase (s : State) (p : Fin 96) : Nat := (addrOf (ptReg s p Rg.port.RXBASE &&& 0xFFFFFFF0) (ptReg s p Rg.port.RXBASEH)).toNat
def rxTail (s : State) (p : Fin 96) : Nat := bits (ptReg s p Rg.port.RXTAIL) 11 0
def rxEn (s : State) (p : Fin 96) : Bool := (ptReg s p Rg.port.RXCFG).getLsbD 0

/-- A ring error: RXEN clears, and the cause is recorded. -/
def ringError (p : Fin 96) (i : Nat) (a : Nat) (rsn : BitVec 8) (s : State) : State :=
  let k := ptKey p
  let s := setRegBit s (k + Rg.port.RXCFG) 0 false
  let s := setReg s (k + Rg.port.RXERR) (w32 (rsn.toNat + i * 2 ^ 16))
  pulse (portLog s p 0x06 (port s p).rate 0 i a rsn) k 7

/-- A buffer filled by the frame in delivery: descriptor index and payload bytes placed. -/
abbrev Filled := Nat × Nat

/-- Fill buffers from `tail` on with the bytes that remain; `pre` of them are prefix. The result: the buffers filled, whether
    all bytes were placed, the state. The fuel bounds the number of buffers. -/
def fillBufs (p : Fin 96) : Nat → Nat → Nat → List Byte → State → List Filled × Bool × State
  | 0, _, _, _, s => ([], false, s)
  | f + 1, i, pre, d, s =>
    if d = [] then ([], true, s)
    else if i = bits (ptReg s p Rg.port.RXHEAD) 11 0 % rxSize s p then ([], false, s)
    else
      let a := rxBase s p + 16 * i
      let m := memRead s (portInit s p) a 16
      let w := wordsLE m.data
      let w0 := w.getD 0 0
      let w1 := w.getD 1 0
      if m.rsn ≠ 0 then ([], false, ringError p i m.at_ m.rsn m.st)
      else if bits w0 7 0 ≠ 0 ∨ bits w1 31 19 ≠ 0 ∨ 4 < bits w1 18 16 ∨ bits (w.getD 3 0) 31 4 ≠ 0 then ([], false, ringError p i a 0xFF m.st)
      else
        let n := min d.length (256 * 2 ^ bits w1 18 16)
        let m := memWrite m.st (portInit s p) (addrOf w0 w1).toNat (d.take n)
        if m.rsn ≠ 0 then ([], false, ringError p i m.at_ m.rsn m.st)
        else
          let (l, ok, s) := fillBufs p f ((i + 1) % rxSize s p) 0 (d.drop n) m.st
          ((i, n - pre) :: l, ok, s)

/-- Return the buffers: words 2 and 3 of each descriptor, RXTAIL after each. False after a ring error. -/
def returnBufs (p : Fin 96) (flen : Nat) (trunc : Bool) : Bool → List Filled → State → Bool × State
  | _, [], s => (true, s)
  | first, (i, n) :: t, s =>
    let w3 := 2 * b2n first + 4 * b2n t.isEmpty + 8 * b2n trunc
    let m := memWrite s (portInit s p) (rxBase s p + 16 * i + 8) (leBytes 4 (n + flen * 2 ^ 16) ++ leBytes 4 w3)
    if m.rsn ≠ 0 then (false, ringError p i m.at_ m.rsn m.st)
    else returnBufs p flen trunc false t (setReg m.st (ptKey p + Rg.port.RXTAIL) (w32 ((i + 1) % rxSize s p)))

/-- Deliver an accepted message frame. -/
def deliver (p : Fin 96) (h pay : List Byte) (s : State) : State :=
  let k := ptKey p
  let w1 := leNat ((h.drop 4).take 4)
  let len := w1 % 2 ^ 12
  let none_ (s : State) : State := pulse (bump s (k + Rg.port.RXNOBUF)) k 3
  let s := freeCred p 2 ((32 + pay.length + 63) / 64) s
  if isStopped s (.port p) then bump s (k + Rg.port.RXSTOPDROP)
  else if !rxEn s p then none_ s
  else
    let prefix_ := leBytes 4 len ++ leBytes 4 (leNat (h.take 2)) ++ (h.drop 8).take 4 ++ leBytes 4 0
    let (l, ok, s) := fillBufs p 16 (rxTail s p % rxSize s p) 16 (prefix_ ++ pay.take len) s
    if l = [] then none_ s
    else if !ok then
      let (_, s) := returnBufs p len true true l s
      pulse (bump s (k + Rg.port.RXTRUNC)) k 3
    else
      let (ok, s) := returnBufs p len false true l s
      if !ok then pulse (bump s (k + Rg.port.RXTRUNC)) k 3
      else
        let s := pulse (bump s (k + Rg.port.RXFRAMES)) k 2
        let w := ptReg s p Rg.port.RXCFG
        if !w.getLsbD 1 then s
        else
          let t : Fin 64 := fin 64 (bits w 13 8)
          let (rsn, s) := cntPacket s (portInit s p) false t (bits w 23 16) 1
          if rsn = 0 then s else ringError p (rxTail s p) (2 * 2 ^ 40 + cntKey t (bits w 23 16)) rsn s

/-! ### Receiving frames (R466, R467) -/

/-- NAK the expected frame, unless one for it went out within REPLAYTO. -/
def sendNak (p : Fin 96) (s : State) : State :=
  let x := port s p
  let again := match x.nakFor with
    | some (q, t) => q == x.rxSeq && decide (now s < t.toNat + replayTo s p)
    | none => false
  if again then s
  else emit p [.nak x.rxSeq] (updPort s p (fun x => { x with nakFor := some (x.rxSeq, s.clock.now) }))

/-- The header breaks a rule: a reserved bit, an unused TYPE, LEN, or a request's address or length (R473); or the payload
    is not that of LEN (DEDUCED, log entry 21). -/
def badHeader (h pay : List Byte) : Bool :=
  let w0 := leNat (h.take 4)
  let w1 := leNat ((h.drop 4).take 4)
  let typ := w0 / 2 ^ 16 % 16
  let len := w1 % 2 ^ 12
  let a := leNat ((h.drop 8).take 4)
  decide (w0 / 2 ^ 20 ≠ 0) || decide (w1 / 2 ^ 12 % 16 ≠ 0) || decide (w1 / 2 ^ 30 ≠ 0) || decide (4 < typ) || decide (2048 < len) ||
  ((typ == 1 || typ == 2) && (len == 0 || len % 64 != 0 || a % 64 != 0)) ||
  pay.length != (if typ = 1 then 0 else (len + 15) / 16 * 16)

/-- A received frame: CRC, sequence, header; then it is acknowledged and acted on by its TYPE. -/
def frameIn (p : Fin 96) (f : LFrame) : State → State :=
  inUp p (fun s =>
    let k := ptKey p
    let x := port s p
    let seq := BitVec.ofNat 16 (leNat (f.hdr.take 2))
    let d := (seq - x.rxSeq).toNat
    if crcOf crc32c (f.hdr ++ f.pay) ≠ f.crc.toNat then sendNak p (bump s (k + Rg.port.CRCERR))
    else if 0x8000 ≤ d then bump s (k + Rg.port.DUPCNT)
    else if d ≠ 0 then sendNak p s
    else
      let units := (32 + f.pay.length + 63) / 64
      let s := emit p [.ack seq] (updPort s p (fun x => { x with rxSeq := x.rxSeq + 1, nakFor := none }))
      let s := bump s (k + Rg.port.RXBYTES) units
      let typ := leNat (f.hdr.take 4) / 2 ^ 16 % 16
      if badHeader f.hdr f.pay then
        let a := leNat ((f.hdr.drop 8).take 4) + leNat ((f.hdr.drop 12).take 2) * 2 ^ 32
        freeCred p (vcOf (BitVec.ofNat 4 typ)) units (portLog (bump s (k + Rg.port.BADHDR)) p 0x08 x.rate 0 0 a 0)
      else if typ = 0 then deliver p f.hdr f.pay s
      else if typ ≤ 2 then serveReq p f.hdr f.pay s
      else respIn p f.hdr f.pay s)

/-- A frame of a table row: a frame whose TYPE is another's is acted on by its TYPE. -/
def frameAct (ok : Bool) (p : Fin 96) (f : LFrame) (s : State) : Out :=
  if ok then portAct p (frameIn p f) s else .refused .illFormed

def execMessageFrame (p : Fin 96) (f : LFrame) (s : State) : Out := frameAct f.wf p f s
def execReadRequestFrame (p : Fin 96) (f : LFrame) (s : State) : Out := frameAct f.wf p f s
def execWriteRequestFrame (p : Fin 96) (f : LFrame) (s : State) : Out := frameAct f.wf p f s
def execReadResponseFrame (p : Fin 96) (f : LFrame) (s : State) : Out := frameAct f.wf p f s
def execWriteCompletionFrame (p : Fin 96) (f : LFrame) (s : State) : Out := frameAct f.wf p f s

/-! ### Block states (R484, R485) -/

/-- RUN of a port: RUNNING; with the link DOWN or FAILED a new bring-up may start. -/
def portRun (p : Fin 96) (s : State) : State :=
  let s := setUsed (setRun s (.port p) .going) (.port p) true
  let s := updPort s p (fun x => if x.ls = .failed ∨ x.ls = .down then { x with ls := .down, fails := 0, attempts := 0, retryAt := none } else
    { x with attempts := 0 })
  bringUp p s

/-- STOP of a port. -/
def portStop (p : Fin 96) (s : State) : State :=
  if (blkSt s (.port p)).run = .going then setRun s (.port p) .stopping else s

/-- A stopping port is STOPPED once every tag is answered or abandoned and the replay buffer is empty. -/
def portSettle (p : Fin 96) (s : State) : State :=
  let x := port s p
  if (blkSt s (.port p)).run = .stopping ∧ x.replay = [] ∧ x.txq.all (fun f => 3 ≤ f.typ.toNat) ∧ x.tags.all (fun e => !e.2.out)
  then setRun s (.port p) .stopped else s

/-- A port out of UP and RETRAIN returns to DOWN when it is stopped at once. -/
def trainEnd (p : Fin 96) (s : State) : State :=
  updPort s p (fun x => if x.ls = .failed then x else { x with ls := .down, retryAt := none })

/-- STOPNOW of a port. -/
def portStopnow (p : Fin 96) (s : State) : State := setRun (trainEnd p (linkDown p s)) (.port p) .stopped

/-- SOFTRST of a port: registers but BLKPART to reset, IDLE. -/
def portReset (p : Fin 96) (s : State) : State :=
  let s := linkDown p s
  let k := ptKey p
  let s := dropRegs s (fun x => decide (k + 0x80 ≤ x ∧ x < k + 0x1000))
  let s := updPort s p (fun x => { port0 with tags := x.tags, serveNext := x.serveNext, out := x.out })
  setUsed (setRun s (.port p) .going) (.port p) false

/-- RUN and STOP of a lane group. -/
def lanesRun (p : Fin 96) (s : State) : State := bringUp p (setRun s (.lanes p) .going)
def lanesStop (p : Fin 96) (s : State) : State :=
  let s := linkDown p s
  let s := updPort s p (fun x => if linkRuns x then { x with ls := .down, retryAt := none } else x)
  setRun s (.lanes p) .stopped

end Sys2Proof.Machine
end

