-- ==== Sys2Proof/Machine/Fabric.lean ====
section
/-! DEFINITION. Fabric regions: block states and start-up, clearing, windows and the initiator port, queue controllers,
    probe routes and power (R332-R363). -/

namespace Sys2Proof.Machine

def frKey (r : Fin 16) : Nat := Blk.key (.region r)
def ldrKey : Nat := Blk.key .loader

/-- The tiles whose extension ports a region serves (R26). -/
def regTiles (r : Fin 16) : List (Fin 64) := (List.range 4).map (fun k => fin 64 (4 * r.val + k))

/-- Pages whose levels a region's state moves: its own, its tiles', the controller's. -/
def regPages (r : Fin 16) : List (Blk × Nat) := blkPages (.region r) ++ (regTiles r).flatMap tilePages ++ [(.loader, 0)]

/-- A change of a region. -/
def regDo (r : Fin 16) (f : State → State) : State → State := watched (regPages r) f

/-- A change of a region that works: good and its domain on. -/
def regAct (r : Fin 16) (f : State → State) : State → Out := act (fun s => if live s (.region r) then regDo r f s else s)

/-! ### The load that a region belongs to (R380, R395) -/

/-- An entry of the controller's log. -/
def ldrLog (s : State) (code : Nat) (region : Nat) (w1 : W32) (rsn : BitVec 8) : State :=
  logE s ldrKey (w32 (code + region % 16 * 2 ^ 8 + phaseCode s.loader.phase * 2 ^ 12)) w1 (reg s (ldrKey + Rg.ccfg.CCATTEMPT)) (w32 rsn.toNat)

/-- The regions of the load set that have not started up. -/
def loadSet (s : State) : List (Fin 16) := (s.loader.entries.map (·.region)).filter (fun r => !s.loader.started.contains r)

/-- The regions of the set stay IDLE with the set-reset net asserted and LOADED clear. -/
def dropLoad (s : State) : State :=
  (loadSet s).foldl (fun s r => updRegion s r (fun g =>
    { g with loaded := false, setReset := true, due := false, starting := false, released := false })) s

/-- A load ends in error: logged, PHASE ERROR. -/
def loadErr (s : State) (code : Nat) (region : Nat) (w1 : W32) (rsn : BitVec 8) : State :=
  let s := dropLoad (ldrLog s code region w1 rsn)
  { s with loader := { s.loader with phase := .error } }

/-- The controller is loading. -/
def loading (s : State) : Bool :=
  match s.loader.phase with | .idle | .error => false | _ => true

/-- A region of a load under way that has not started up. -/
def inLoad (s : State) (r : Fin 16) : Bool := loading s && (loadSet s).contains r

/-- A CLEAR or switch-off of a region in the load set ends the load (R381). -/
def loadLost (r : Fin 16) (s : State) : State := if inLoad s r then loadErr s 0x0E r.val 0 0 else s

/-- A region that readback is in the middle of is left until its next lap (R392). -/
def leaveLap (r : Fin 16) (s : State) : State :=
  if s.loader.rbRegion = r ∧ s.loader.rbCol ≠ 0 then { s with loader := { s.loader with rbRegion := fin 16 (r.val + 1), rbCol := 0 } } else s

/-! ### Queue controllers (R335-R340) -/

def queueOf (g : Region) (k : Nat) : Queue := tget queue0 g.queues k
/-- Every block memory of a region changed by its number. -/
def mapQueues (f : Nat → Queue → Queue) (g : Region) : Tab Queue :=
  (List.range 512).foldl (fun t k => tset queue0 t k (f k (queueOf g k))) g.queues
def updQueue (s : State) (r : Fin 16) (k : Nat) (f : Queue → Queue) : State :=
  updRegion s r (fun g => { g with queues := tupd queue0 g.queues k f })

/-- A block memory run as a queue, its region's clocks running and out of reset. -/
def queueWorks (s : State) (r : Fin 16) (k : Nat) : Bool := clocksRun s r && !(region s r).setReset && !(queueOf (region s r) k).ram

/-- Set the level a side's flags show, with the sticky companion of its almost flag. -/
def showRead (q : Queue) (n : Nat) : Queue :=
  { q with rdSeen := n, aemptyX := q.aemptyX || (decide (q.aemark < q.rdSeen) && decide (n ≤ q.aemark)) }
def showWrite (q : Queue) (n : Nat) : Queue :=
  { q with wrSeen := n, afullX := q.afullX || (decide (q.wrSeen < q.afmark) && decide (q.afmark ≤ n)) }

/-- An edge of the read clock: writes become seen at the third at the latest; earlier is open (log entry 3). -/
def readEdge (free : Bool) (q : Queue) : Queue :=
  if q.rdSeen = q.items.length then { q with rdLag := 0 }
  else if !q.async || free || 2 ≤ q.rdLag then { showRead q q.items.length with rdLag := 0 }
  else { q with rdLag := q.rdLag + 1 }

/-- An edge of the write clock. -/
def writeEdge (free : Bool) (q : Queue) : Queue :=
  if q.wrSeen = q.items.length then { q with wrLag := 0 }
  else if !q.async || free || 2 ≤ q.wrLag then { showWrite q q.items.length with wrLag := 0 }
  else { q with wrLag := q.wrLag + 1 }

/-- A free choice of the hardware. -/
def drawBit (s : State) : Bool × State := let (v, s) := draw s; (v.getLsbD 0, s)

/-- A word joins a queue, and the memory at its write pointer. -/
def pushWord (g : Region) (k : Nat) (d : BitVec 72) (q : Queue) : Queue :=
  { q with items := q.items ++ [cut q.width d], words := tsetD (wordBase g k q.width) q.words q.wptr (cut q.width d),
           wptr := (q.wptr + 1) % q.depth }

/-- QUEUE_WRITE: ignored while FULL, with OVF. In a synchronous queue both sides see it. -/
def queueWrite (r : Fin 16) (k : Nat) (d : BitVec 72) (s : State) : State :=
  if !queueWorks s r k then s
  else
    let (b, s) := drawBit s
    updQueue s r k (fun q =>
      let q := writeEdge b q
      if q.depth ≤ q.wrSeen then { q with ovf := true }
      else
        let q := showWrite (pushWord (region s r) k d q) (q.wrSeen + 1)
        if q.async then q else showRead q q.items.length)

def execQueueWrite (r : Fin 16) (k : Fin 512) (d : BitVec 72) (s : State) : Out := act (queueWrite r k d) s

/-- QUEUE_READ: nothing changes while EMPTY, with UNF. -/
def queueRead (r : Fin 16) (k : Nat) (s : State) : State :=
  if !queueWorks s r k then s
  else
    let (b, s) := drawBit s
    updQueue s r k (fun q =>
      let q := readEdge b q
      match q.rdSeen, q.items with
      | n + 1, d :: rest =>
        let q := showRead { q with items := rest, out := d } n
        if q.async then q else showWrite q rest.length
      | _, _ => { q with unf := true })

def execQueueRead (r : Fin 16) (k : Fin 512) (s : State) : Out := act (queueRead r k) s

/-- Pointers, live flags and sticky flags cleared; the memory keeps its contents. -/
def resetQueue (q : Queue) : Queue :=
  { q with items := [], wptr := 0, rdSeen := 0, wrSeen := 0, rdLag := 0, wrLag := 0, aemptyX := false, afullX := false, ovf := false, unf := false }

def execQueueReset (r : Fin 16) (k : Fin 512) (s : State) : Out :=
  act (fun s => if queueWorks s r k.val then updQueue s r k.val resetQueue else s) s

/-- STICKY_CLEAR on an edge at which the live flag rises, or the over- or underflow occurs, as the operands say. -/
def stickyClear (r : Fin 16) (k : Nat) (side : Side) (rise err : Bool) (s : State) : State :=
  if !queueWorks s r k then s
  else updQueue s r k (fun q => match side with
    | .read => { q with aemptyX := rise, unf := err }
    | .write => { q with afullX := rise, ovf := err })

def execStickyClear (r : Fin 16) (k : Fin 512) (side : Side) (rise err : Bool) (s : State) : Out :=
  act (stickyClear r k.val side rise err) s

/-! ### Windows (R353, R354) -/

/-- The time a window request may stay unanswered, in ns. -/
def winTo (s : State) (r : Fin 16) : Nat := 1000 * bits (reg s (frKey r + Rg.region.WINTO)) 9 0

/-- Requests with the fabric: delivered, reserved tags included. -/
def winOut (g : Region) : Nat := (g.wins.filter (·.given)).length

/-- Deliver waiting requests while a tag is free, in order of arrival. The fuel is the number waiting. -/
def winPump (r : Fin 16) : Nat → State → State
  | 0, s => s
  | f + 1, s =>
    let g := region s r
    match g.wins.find? (fun w => !w.given), (List.range 64).find? (fun t => !(g.wins.any (fun w => w.given && w.tag == t))) with
    | some w, some t =>
      let w' : WinReq := { w with given := true, tag := t, at_ := s.clock.now }
      let s := updRegion s r (fun g => { g with wins := (g.wins.erase w) ++ [w'] })
      winPump r f (bump s (frKey r + Rg.region.WINREQ))
    | _, _ => s

def winAll (r : Fin 16) (s : State) : State := winPump r (region s r).wins.length s

/-- The reason a window access meets, 0 if it goes to the fabric. -/
def winCheck (s : State) (q : Req) (r : Fin 16) : BitVec 8 :=
  let b := Blk.region r
  let g := region s r
  if !ownOk q.who (ownerOf s b) then Rsn.partition
  else if absent s b then Rsn.absent
  else if !blkOn s b || domFenced s (72 + r.val) then Rsn.fenced
  else if resetting s b then Rsn.resetAbort
  else if q.kind == .accum || q.kind == .cntInc || q.kind == .cntSet || q.cnt.isSome ||
      !(4 ≤ q.len && q.len ≤ 64 && q.len % 4 == 0 && q.addr.toNat % 4 == 0) then Rsn.unmapped
  else if !(g.started && (blkSt s b).run == .going) then Rsn.stopped
  else Rsn.ok

/-- An access arrives at a region's window. A packet carries whole words, so every byte of it is enabled (DEDUCED, log
    entry 70). -/
def winArrive (s : State) (src : Src) (q : Req) (r : Fin 16) : State :=
  let c := winCheck s q r
  let d := (Blk.region r).die
  if c ≠ 0 then sendResp (respErr s (if c = Rsn.unmapped then q.who.die.toNat else d) c) src q d (r.val % 4) c []
  else
    let w : WinReq := { tag := 0, req := q, be := BitVec.ofNat 64 (2 ^ q.len - 1), src, given := false, expired := false, at_ := s.clock.now }
    winAll r (updRegion s r (fun g => { g with wins := g.wins ++ [w] }))

def execWindowRequest (q : Req) (s : State) : Out :=
  actIf (wellFormed (.windowRequest q)) (fun s => match winOff q.addr.toNat with
    | some (r, _) => winArrive s .nobody q r
    | none => respErr s q.who.die.toNat Rsn.unmapped) s

/-- The request that a tag names. -/
def winTag (g : Region) (t : Nat) : Option WinReq := g.wins.find? (fun w => w.given && w.tag == t)
def dropWin (s : State) (r : Fin 16) (w : WinReq) : State := updRegion s r (fun g => { g with wins := g.wins.erase w })

/-- WINDOW_RESPONSE: the fabric answers a tag; the answer to a timed-out request is discarded. -/
def winResp (r : Fin 16) (t : Nat) (data : List Byte) (s : State) : State :=
  match clocksRun s r, winTag (region s r) t with
  | true, some w =>
    let s := dropWin s r w
    let s := if w.expired then s
      else sendResp s w.src w.req (Blk.region r).die (r.val % 4) 0
        (if w.req.kind = .read then (data ++ List.replicate (w.req.len - data.length) 0).take w.req.len else [])
    winAll r s
  | _, _ => s

def execWindowResponse (r : Fin 16) (tag : Fin 64) (data : List Byte) (s : State) : Out := regAct r (winResp r tag.val data) s

/-- WINDOW_TIMEOUT: a request unanswered for WINTO is answered TIMEOUT; its tag stays reserved. -/
def winTimeout (r : Fin 16) (t : Nat) (s : State) : State :=
  match winTag (region s r) t with
  | none => s
  | some w =>
    if w.expired || decide (now s < w.at_.toNat + winTo s r) then s
    else
      let o := w.req.addr.toNat % 2 ^ 36
      let q := w.req.who
      let s := updRegion s r (fun g => { g with wins := g.wins.map (fun x => if x = w then { x with expired := true } else x) })
      let s := logE s (frKey r) 0x03 (w32 o) (w32 (o / 2 ^ 32 + t * 2 ^ 8)) (reqWord q)
      let s := pulse (bump s (frKey r + Rg.region.WINTOCNT)) (frKey r) 1
      sendResp (respErr s (Blk.region r).die Rsn.timeout) w.src w.req (Blk.region r).die (r.val % 4) Rsn.timeout []

def execWindowTimeout (r : Fin 16) (tag : Fin 64) (s : State) : Out := regAct r (winTimeout r tag.val) s

/-- Every delivered window request is answered STOPPED, and none waits (R347, R348). -/
def winAbort (r : Fin 16) (s : State) : State :=
  let ws := (region s r).wins
  let s := updRegion s r (fun g => { g with wins := g.wins.filter (fun w => w.given && w.expired) })
  let die := (Blk.region r).die
  ws.foldl (fun s w => if w.given && w.expired then s
    else sendResp (respErr s die Rsn.stopped) w.src w.req die (r.val % 4) Rsn.stopped []) s

/-! ### The initiator port (R355) -/

/-- A region as initiator. -/
def regInit (s : State) (r : Fin 16) (pri : BitVec 2) : Init :=
  let p := ownerOf s (.region r)
  { die := BitVec.ofNat 7 (Blk.region r).die, rtr := BitVec.ofNat 4 (r.val % 4), part := p,
    op := p == 0 && regBit s (frKey r + Rg.region.FRCTL) 0, pri := pri }

/-- FABRIC_INITIATOR_REQUEST, while the region runs and fewer than 64 requests are outstanding. -/
def fabRequest (r : Fin 16) (kind : Kind) (a : Addr) (len : Nat) (data : List Byte) (cnt : Option (BitVec 8)) (sat coh : Bool)
    (pri : BitVec 2) (s : State) : State :=
  let g := region s r
  if !clocksRun s r || !issues s (.region r) || !isGoing s (.region r) || !g.portsOn || 64 ≤ g.inits.length || len < 4 || 64 < len then s
  else
    let t := ((List.range 64).find? (fun t => !g.inits.contains t)).getD 0
    let q : Req := { who := regInit s r pri, kind, addr := a, len, data, cnt, sat, coh }
    let s := bump (updRegion s r (fun g => { g with inits := g.inits ++ [t] })) (frKey r + Rg.region.INITREQ)
    netSend s (.region r t) q

def execFabricInitiatorRequest (r : Fin 16) (kind : Kind) (a : Addr) (len : Nat) (data : List Byte)
    (cnt : Option (BitVec 8)) (sat coh : Bool) (pri : BitVec 2) (s : State) : Out :=
  if wellFormed (.fabricInitiatorRequest r kind a len data cnt sat coh pri)
  then regAct r (fabRequest r kind a len data cnt sat coh pri) s else .refused .illFormed

/-- The responses that a region's initiator requests await are discarded when they come (R347, R348). -/
def dropInits (r : Fin 16) (s : State) : State :=
  updRegion (orphan (fun x => match x with | .region j _ => j == r | _ => false) s) r (fun g => { g with inits := [] })

/-- The response to an outstanding initiator request returns. -/
def fabResp (s : State) (r : Fin 16) (t : Nat) (rsn : BitVec 8) : State :=
  if !(region s r).inits.contains t then s
  else
    let s := updRegion s r (fun g => { g with inits := g.inits.erase t })
    if rsn = 0 then s else bump s (frKey r + Rg.region.INITERR)

/-! ### Probe routes (R357-R359) -/

def prbSel (s : State) (r : Fin 16) (j : Nat) : W32 := reg s (frKey r + Rg.region.PRBSEL + 8 * j)
def prbPin (s : State) (r : Fin 16) (j : Nat) : W32 := reg s (frKey r + Rg.region.PRBPIN + 8 * j)

/-- Every enabled route: region, output, bank, pin. -/
def routes (s : State) : List (Nat × Nat × Nat × Nat) :=
  (List.range 16).flatMap (fun r => (List.range 64).filterMap (fun j =>
    let p := prbPin s (fin 16 r) j
    if (prbSel s (fin 16 r) j).getLsbD 31 then some (r, j, bits p 3 0, bits p 11 8) else none))

/-- A region in RUNNING or STOPPED. -/
def runOrStop (s : State) (r : Fin 16) : Bool := let b := blkState s (.region r); b == 3 || b == 5

/-- Pins of a bank that its region's design uses (PINUSE). -/
def pinUse (s : State) (r : Fin 16) : Nat :=
  let g := region s r
  if live s (.region r) && g.loaded then (Config.imagePins g.frames).toNat else 0

/-- A write of PRBSEL or PRBPIN of output j; one that would enable a route R358 forbids changes nothing. A pin above 11
    is no pin of the bank (DEDUCED: refused as well). -/
def probePut (r : Fin 16) (j : Nat) (pin : Bool) (v : W32) (s : State) : State :=
  let sel := if pin then prbSel s r j else v &&& 0x801FFFFF
  let tgt := if pin then v &&& 0xF0F else prbPin s r j
  let bank : Fin 16 := fin 16 (bits tgt 3 0)
  let n := bits tgt 11 8
  let bad := sel.getLsbD 31 && (decide (11 < n) || nbit (pinUse s bank) n ||
    (routes s).any (fun e => (e.1, e.2.1) != (r.val, j) && e.2.2 == (bank.val, n)) ||
    !runOrStop s bank || ownerOf s (.region bank) != ownerOf s (.region r))
  let off := (if pin then Rg.region.PRBPIN else Rg.region.PRBSEL) + 8 * j
  if bad then logE s (frKey r) 0x06 (w32 off) else setReg s (frKey r + off) (if pin then tgt else sel)

/-- Routes of a region and into its bank end. -/
def endRoutes (r : Fin 16) (s : State) : State :=
  (routes s).foldl (fun s e =>
    if e.1 = r.val ∨ e.2.2.1 = r.val then setRegBit s (frKey (fin 16 e.1) + Rg.region.PRBSEL + 8 * e.2.1) 31 false else s) s

/-! ### Pins (R344, R356-R359, R549) -/

/-- A pin of a user I/O bank: the level it drives, or high impedance; its pull; fast slew. -/
structure PinState where
  drive : Option Bool
  pull : Pull
  fast : Bool
  deriving DecidableEq, Repr

/-- The flip-flop that a probe output takes. -/
def probeLevel (s : State) (r : Fin 16) (j : Nat) : Bool :=
  let v := prbSel s r j
  flop (region s r) (2 * bits v 19 0 + bits v 20 20)

/-- Pin p of bank b: without domain or supply it is high impedance with no pull; a probe drives it with fast slew and no
    pull; a running design sets the pins it uses; any other is high impedance with its weak pull-down. -/
def pinState (s : State) (b : Fin 16) (p : Fin 12) : PinState :=
  let g := region s b
  if !blkOn s (.region b) || !s.pins.vio.getLsbD b.val then ⟨none, .none, false⟩
  else match (routes s).find? (fun e => e.2.2 == (b.val, p.val)) with
  | some e => ⟨some (probeLevel s (fin 16 e.1) e.2.1), .none, true⟩
  | none =>
    if g.started && !g.setReset && nbit (pinUse s b) p.val then
      let c := Config.imagePin g.frames p.val
      ⟨if c.output then some (sigNow s.frees g c.drive) else none, c.pull, c.fast⟩
    else ⟨none, .down, false⟩

/-! ### States (R341-R349) -/

/-- The set-reset net is asserted: flip-flops at their initial values, queues in reset, events low, ports off (R344). What
    it makes of the registers of the DSP slices is not stated: free values (log entry 70). -/
def assertReset (r : Fin 16) (s : State) : State :=
  let (_, t) := draw s
  updRegion t r (fun g =>
    { g with setReset := true, portsOn := false, queues := g.queues.map (fun e => (e.1, resetQueue e.2)),
             ffs := [], ffBase := .image, dsps := [], dspBase := .free s.frees })

/-- The first frame of a load is coming: the net is asserted, and the memories take their contents from the frames. -/
def loadReset (r : Fin 16) (s : State) : State :=
  updRegion (assertReset r s) r (fun g =>
    { g with cleared := false, loaded := false, memBase := .image, queues := g.queues.map (fun e => (e.1, { e.2 with words := [] })) })

/-- Discard the boundary queues of a region's ports. -/
def dropBoundary (r : Fin 16) (s : State) : State :=
  (regTiles r).foldl (fun s t => updRow s t (fun w => { w with opOut := [], opIn := [], resOut := [], opWait := [], resWait := [] })) s

/-- A region enters FAULT (R342, R360). -/
def regFault (r : Fin 16) (code : Nat) (s : State) : State :=
  endRoutes r (faultBlk (logE s (frKey r) (w32 code)) (.region r))

/-- PLL_LOCK_LOSS. -/
def pllLoss (r : Fin 16) (i : Nat) (s : State) : State :=
  let g := region s r
  if !g.pllLock.getLsbD i then s
  else
    let s := updRegion s r (fun g => { g with pllLock := g.pllLock &&& ~~~ BitVec.ofNat 2 (2 ^ i) })
    let b := blkState s (.region r)
    if b = 3 ∨ b = 4 ∨ b = 5 then regFault r 0x01 s else s

def execPllLockLoss (r : Fin 16) (pll : Fin 2) (s : State) : Out := regAct r (pllLoss r pll.val) s

/-- Start-up begins: the PLL configuration of the image is applied (R345). -/
def beginStart (r : Fin 16) (s : State) : State :=
  updRegion s r (fun g => { g with due := false, starting := true, released := false, pllUsed := Config.imagePlls g.frames, pllLock := 0 })

/-- REGION_START_SIGNAL: a region that has the controller's start signal begins start-up. -/
def regionStart (r : Fin 16) (s : State) : State := if (region s r).due then beginStart r s else s
def execRegionStartSignal (r : Fin 16) (s : State) : Out := regAct r (regionStart r) s

/-- PLLS_LOCKED: the set-reset net is released, with the queues as the image runs them. -/
def pllsLocked (r : Fin 16) (s : State) : State :=
  let g := region s r
  if !g.starting || g.released then s
  else updRegion s r (fun g =>
    { g with pllLock := g.pllUsed, released := true, setReset := false,
             queues := mapQueues (fun k q =>
               let c := Config.imageMem g.frames k
               let n := memDepth c.w
               { resetQueue q with ram := c.ram, async := c.async, width := memWidth c.w, depth := n,
                                   aemark := markIn n c.aemark, afmark := markIn n c.afmark }) g })
def execPllsLocked (r : Fin 16) (s : State) : Out := regAct r (pllsLocked r) s

/-- A block memory whose contents and pointers are undefined, by free value n: any level, any words, any sticky flags. Each
    side's flags stay conservative (R339). -/
def undefQueue (n k : Nat) (q : Queue) : Queue :=
  let v (i : Nat) : Nat := (Config.fabricFree n (2 ^ 35 + 8 * k + i)).toNat
  let m := v 0 % (q.depth + 1)
  { q with
    words := [], wptr := v 1 % q.depth, items := (List.range m).map (fun i => cut q.width (Config.fabricFree n (2 ^ 36 + 4096 * k + i))),
    rdSeen := if q.async then v 2 % (m + 1) else m, wrSeen := if q.async then m + v 3 % (q.depth - m + 1) else m,
    out := cut q.width (BitVec.ofNat 72 (v 4)), outB := cut q.width (BitVec.ofNat 72 (v 5)),
    aemptyX := nbit (v 6) 0, afullX := nbit (v 6) 1, ovf := nbit (v 6) 2, unf := nbit (v 6) 3 }

/-- STOPNOW: clocks stop at once; flip-flops and memories are undefined, and with them the queues (log entry 3). -/
def regStopnow (r : Fin 16) (s : State) : State :=
  let s := dropInits r (dropBoundary r (winAbort r (leaveLap r s)))
  let n := s.frees
  let s := updRegion { s with frees := n + 1 } r (fun g =>
    { g with portsOn := false, stopReq := none, ffs := [], ffBase := .free n, dsps := [], dspBase := .free n, memBase := .free n,
             queues := mapQueues (undefQueue n) g })
  setRun s (.region r) .stopped

/-- STOP or STOPNOW of a region: during start-up it waits until the region is RUNNING. -/
def regStop (r : Fin 16) (hard : Bool) (s : State) : State :=
  let g := region s r
  if g.starting then updRegion s r (fun g => { g with stopReq := some (hard || g.stopReq == some true) })
  else if !g.started then s
  else if hard then regStopnow r s
  else if isGoing s (.region r) then setRun s (.region r) .stopping else s

/-- The controller has seen a region of its set start up; PHASE IDLE when all are RUNNING (R377). -/
def loadStarted (r : Fin 16) (s : State) : State :=
  if s.loader.phase != .startup || !(loadSet s).contains r then s
  else
    let s := { s with loader := { s.loader with started := s.loader.started ++ [r] } }
    if (loadSet s).isEmpty then pulse { s with loader := { s.loader with phase := .idle } } ldrKey 0 else s

/-- STARTUP_PORTS_ON: the region is RUNNING, and a stop that waited takes effect. -/
def portsOnEv (r : Fin 16) (s : State) : State :=
  let g := region s r
  if !g.starting || !g.released then s
  else
    let s := updRegion s r (fun g => { g with starting := false, released := false, portsOn := true, started := true, stopReq := none })
    let s := loadStarted r (pulse (setUsed (setRun s (.region r) .going) (.region r) true) (frKey r) 3)
    match g.stopReq with
    | some hard => regStop r hard s
    | none => s
def execStartupPortsOn (r : Fin 16) (s : State) : Out := regAct r (portsOnEv r) s

/-- FABRIC_QUIESCED (R346): every initiator request has its response, every delivered window request its answer. -/
def quiesced (r : Fin 16) (s : State) : State :=
  let g := region s r
  if (blkSt s (.region r)).run = .stopping ∧ g.inits = [] ∧ g.wins.all (·.expired) then setRun s (.region r) .stopped else s
def execFabricQuiesced (r : Fin 16) (s : State) : Out := regAct r (quiesced r) s

/-- RUN of a stopped region (R346, R347). -/
def regRun (r : Fin 16) (s : State) : State :=
  if isStopped s (.region r) && !(region s r).clearing then updRegion (setRun s (.region r) .going) r (fun g => { g with portsOn := true }) else s

/-- Counters and probe registers return to 0 (R361). -/
def dropCounters (r : Fin 16) (s : State) : State :=
  let k := frKey r
  dropRegs (endRoutes r s) (fun x => decide (k + 0xC0 ≤ x ∧ x < k + 0xD0) || decide (k + 0x100 ≤ x ∧ x < k + 0x300))

/-- SOFTRST of a region: the configuration is kept, and start-up runs again if one is loaded (R348). In a load it only
    counts in ERRCNT (R381). -/
def regionReset (r : Fin 16) (s : State) : State :=
  if inLoad s r then errOnly s (frKey r)
  else
    let s := dropInits r (dropBoundary r (winAbort r (leaveLap r s)))
    let s := assertReset r s
    let s := updRegion s r (fun g => { g with wins := [], started := false, starting := false, released := false, stopReq := none,
                                              overPower := false, events := 0, due := false })
    let s := dropCounters r s
    let s := setUsed (setRun s (.region r) .going) (.region r) false
    if (region s r).loaded then beginStart r s else s

/-- FRCMD CLEAR: accepted while the region is IDLE or STOPPED (R349). -/
def frClear (r : Fin 16) (s : State) : State :=
  let b := blkState s (.region r)
  if b ≠ 2 ∧ b ≠ 5 then logE s (frKey r) 0x07 (w32 Rg.region.FRCMD)
  else
    let s := endRoutes r (assertReset r (loadLost r (leaveLap r s)))
    updRegion s r (fun g => { g with clearing := true, starting := false, released := false, due := false, stopReq := none })

/-- FR_CLEAR_COMPLETE: every bit zero, IDLE with CLEARED set. -/
def frClearDone (r : Fin 16) (s : State) : State :=
  if !(region s r).clearing then s
  else
    let s := winAbort r (dropCounters r s)
    let s := updRegion s r (fun g => { region0 with cleared := true, overPower := g.overPower, ports := g.ports })
    let s := setUsed (setRun s (.region r) .going) (.region r) false
    let s := setRegBit s (ldrKey + Rg.ccfg.RGSTAT + 0x20 * r.val) 0 false
    pulse s (frKey r) 2
def execFrClearComplete (r : Fin 16) (s : State) : Out := regAct r (frClearDone r) s

/-! ### Power and design events (R360, R363) -/

/-- A region's allocation in 0.1 W: FABALLOC is in units of 10 mW (R520). -/
def allocOf (s : State) (r : Fin 16) : Nat := regN s (Blk.key .ptm + Rg.ptm.FABALLOC + 4 * r.val) / 10

/-- FABRIC_POWER_INTERVAL: the measurement of 100 µs in 0.1 W; the second running above 110% of the allocation faults. -/
def powerInterval (r : Fin 16) (p : BitVec 16) (s : State) : State :=
  let s := setReg s (frKey r + Rg.region.FRPWR) (w32 p.toNat)
  let high := decide (11 * regN s (Blk.key .ptm + Rg.ptm.FABALLOC + 4 * r.val) < 100 * p.toNat)
  let was := (region s r).overPower
  let s := updRegion s r (fun g => { g with overPower := high })
  if high && was && !inFault s (.region r) then regFault r 0x02 s else s
def execFabricPowerInterval (r : Fin 16) (power : BitVec 16) (s : State) : Out := regAct r (powerInterval r power) s

/-- DESIGN_EVENT_INPUT: the level of an event input, sampled on clock 0. -/
def designEvent (r : Fin 16) (n : Nat) (lv : Bool) (s : State) : State :=
  if !clocksRun s r then s
  else updRegion s r (fun g =>
    { g with events := if lv then g.events ||| BitVec.ofNat 4 (2 ^ n) else g.events &&& ~~~ BitVec.ofNat 4 (2 ^ n) })
def execDesignEventInput (r : Fin 16) (n : Fin 4) (level : Bool) (s : State) : Out := regAct r (designEvent r n.val level) s

end Sys2Proof.Machine
end

