-- ==== Sys2Proof/Machine/Load.lean ====
section
/-! DEFINITION. Configuration loading: sections, authentication, the packet stream, frames, the DONE line, chains,
    golden signatures and readback, key slots (R364-R396). -/

namespace Sys2Proof.Machine

def updLoader (s : State) (f : Loader → Loader) : State := { s with loader := f s.loader }

/-- A change of the controller. -/
def ldrDo (f : State → State) : State → State := watched [(.loader, 0)] f
def ldrAct (f : State → State) : State → Out := act (ldrDo f)

def ccReg (s : State) (o : Nat) : W32 := reg s (ldrKey + o)
def ccPos (s : State) : Nat := bits (ccReg s Rg.ccfg.CCCHAIN) 3 0
def ccChained (s : State) : Bool := (ccReg s Rg.ccfg.CCCHAIN).getLsbD 6
def ccSrc (s : State) : Nat := (addrOf (ccReg s Rg.ccfg.CCSRC &&& 0xFFFFF000) (ccReg s Rg.ccfg.CCSRCH)).toNat
def doneSync (s : State) : Bool := (ccReg s Rg.ccfg.CCCTL).getLsbD 0

/-- CFGDONE is driven low by this module: never with DONESYNC clear (R383). -/
def doneLow (s : State) : Bool := doneSync s && s.loader.doneDrv

/-! ### Sections (R364-R366) -/

/-- Field of n bytes at an offset, little-endian. -/
def leAt (bs : List Byte) (o n : Nat) : Nat := leNat ((bs.drop o).take n)
def beAt (bs : List Byte) (o n : Nat) : Nat := beNat ((bs.drop o).take n)
def zeroAt (bs : List Byte) (o n : Nat) : Bool := ((bs.drop o).take n).all (· == 0)

def entOff (i : Nat) : Nat := 0x80 + 0x60 * i

/-- Region entry i of a header. -/
def regEntry (h : List Byte) (i : Nat) : RegEntry :=
  let o := entOff i
  { region := fin 16 (leAt h o 1), offset := leAt h (o + 4) 4, length := leAt h (o + 8) 4,
    iv := BitVec.ofNat 96 (leAt h (o + 0x10) 12), tag := BitVec.ofNat 128 (beAt h (o + 0x20) 16),
    digest := BitVec.ofNat 384 (beAt h (o + 0x30) 48) }

def secNreg (h : List Byte) : Nat := leAt h 7 1
def secLen (h : List Byte) : Nat := leAt h 8 4
def secEnc (h : List Byte) : Nat := leAt h 0xD 1
def encrypted (h : List Byte) : Bool := secEnc h != 0xFF

/-- The region entries of a header that has between 1 and 16 of them. -/
def secEntries (h : List Byte) : List RegEntry :=
  if 1 ≤ secNreg h ∧ secNreg h ≤ 16 then (List.range (secNreg h)).map (regEntry h) else []

/-- Offsets at which an entry breaks R365. -/
def entryBad (h : List Byte) (i : Nat) : List Nat :=
  let o := entOff i
  let e := regEntry h i
  (if 16 ≤ leAt h o 1 then [o] else []) ++ (if zeroAt h (o + 1) 3 then [] else [o + 1]) ++
  (if e.offset % 16 = 0 ∧ 0x800 ≤ e.offset then [] else [o + 4]) ++
  (if e.length % 4 = 0 ∧ e.offset + e.length + 4 ≤ secLen h then [] else [o + 8]) ++
  (if zeroAt h (o + 0xC) 4 then [] else [o + 0xC]) ++
  (if encrypted h || zeroAt h (o + 0x10) 12 then [] else [o + 0x10]) ++ (if zeroAt h (o + 0x1C) 4 then [] else [o + 0x1C]) ++
  (if encrypted h || zeroAt h (o + 0x20) 16 then [] else [o + 0x20]) ++
  (if (List.range i).any (fun j => let f := regEntry h j
      f.region == e.region || overlaps e.offset e.length f.offset f.length) then [o] else [])

/-- The first offset at which a header breaks R364 or R365, in the order of the header. -/
def headerBad (pos : Nat) (h : List Byte) : Option Nat :=
  ((if leAt h 0 4 = 0x46425342 then [] else [0]) ++ (if leAt h 4 2 = 1 then [] else [4]) ++
   (if leAt h 6 1 = pos then [] else [6]) ++ (if 1 ≤ secNreg h ∧ secNreg h ≤ 16 then [] else [7]) ++
   (if 0x804 ≤ secLen h ∧ secLen h ≤ 0x40000000 then [] else [8]) ++ (if zeroAt h 0xE 2 then [] else [0xE]) ++
   (if zeroAt h 0x70 16 then [] else [0x70]) ++ (List.range (secNreg h)).flatMap (entryBad h) ++
   (if zeroAt h (entOff (secNreg h)) (0x60 * (16 - secNreg h)) then [] else [entOff (secNreg h)]) ++
   (if zeroAt h 0x6E0 288 then [] else [0x6E0])).head?

/-! ### Starting a load (R377) -/

/-- The set of regions, as bits. -/
def setBits (es : List RegEntry) : Nat := wordOf (fun r => es.any (fun e => e.region.val == r)) 16

/-- A region that a load may name: good, on and IDLE. -/
def loadable (s : State) (r : Fin 16) : Bool := live s (.region r) && blkState s (.region r) == 2

/-- A load of the section at `a` begins: PHASE AUTH, the set taken from its header, CLEARED and VALID of every region of it
    cleared, and each held in set-reset, or error 0x06; a region that is not IDLE then keeps running (DEDUCED from R380, log
    entry 71). A header that cannot be read ends the load. -/
def beginLoad (a : Nat) (s : State) : State :=
  let m := memRead s zenithInit a 0x800
  let es := if m.rsn = 0 then secEntries m.data else []
  let s := updLoader m.st (fun l => { l with
      phase := .auth, entries := es, cur := 0, encslot := BitVec.ofNat 8 (secEnc m.data), keyslot := BitVec.ofNat 8 (leAt m.data 0xC 1), secAt := BitVec.ofNat 48 a, attempt := 0, started := [], restart := false })
  let s := setReg (setReg s (ldrKey + Rg.ccfg.CCLOADSET) (w32 (setBits es))) (ldrKey + Rg.ccfg.CCATTEMPT) 0
  let s := es.foldl (fun s e =>
    setRegBit (updRegion s e.region (fun g => { g with cleared := false })) (ldrKey + Rg.ccfg.RGSTAT + 0x20 * e.region.val) 0 false) s
  if m.rsn ≠ 0 then loadErr s 0x08 0 (w32 (m.at_ - a)) m.rsn
  else match es.zipIdx.find? (fun e => !loadable s e.1.region) with
  | some (e, i) => loadErr (updLoader s (fun l => { l with entries := es.filter (fun e => loadable s e.region) })) 0x06 e.region.val (w32 (entOff i)) 0
  | none =>
    es.foldl (fun s e => regDo e.region (loadReset e.region) s) s

/-- The head of a chain (R385). -/
def ccHead (s : State) : Bool := ccChained s && (ccReg s Rg.ccfg.CCCHAIN).getLsbD 4

/-- CCCMD START: only in PHASE IDLE; the head of a chain transmits first, a chained module receives (R386, R387). -/
def ccStart (s : State) : State :=
  if s.loader.phase != .idle then s
  else
    let s := updLoader s (fun l => { l with doneDrv := if doneSync s then true else l.doneDrv })
    if (ccReg s Rg.ccfg.CCSRCH).getLsbD 16 then
      updLoader s (fun l => { l with phase := .receive, entries := [], started := [], recvd := none })
    else if ccHead s then
      updLoader s (fun l => { l with phase := .transmit, entries := [], started := [], recvd := none })
    else beginLoad (ccSrc s) s

/-- CCCMD RELDONE (R383). -/
def ccReldone (s : State) : State := updLoader s (fun l => { l with doneDrv := false, doneSince := s.clock.now })

/-- CCCMD ABORT, in every phase but IDLE; a head sends the stream-end marker (R382). -/
def ccAbort (s : State) : State :=
  if s.loader.phase = .idle then s
  else
    let s := dropLoad (ldrLog s 0x0D 0 0 0)
    let out := if ccHead s then [ChainItem.stop] else []
    ccReldone (updLoader s (fun l => { l with phase := .idle, restart := false, chainOut := l.chainOut ++ out }))

/-! ### Pass 1 (R375) -/

/-- The body of an entry as stored. -/
def readBody (s : State) (e : RegEntry) : MemR := memRead s zenithInit (s.loader.secAt.toNat + e.offset) e.length

def ivBytes (iv : BitVec 96) : List Byte := leBytes 12 iv.toNat

/-- An encryption slot that is programmed and not revoked. -/
def encKey (s : State) (slot : Nat) : Option (BitVec 256) :=
  if 3 ≤ slot || s.fuses.encRev.getLsbD slot then none
  else (s.fuses.encKeys.find? (fun e => e.1 == slot)).map (·.2)

/-- A signature slot that is programmed and not revoked. -/
def sigHash (s : State) (slot : Nat) : Option (BitVec 384) :=
  if 6 ≤ slot || s.fuses.sigRev.getLsbD slot then none
  else (s.fuses.sigKeys.find? (fun e => e.1 == slot)).map (·.2)

/-- Steps 2 to 4: 0, or the offset of the field at fault. -/
def keysBad (s : State) (h : List Byte) : Nat :=
  let pub := (h.drop 0x10).take 96
  if sigHash s (leAt h 0xC 1) != some (sha384 pub) then 0xC
  else if !ecdsaOk (beAt h 0x10 48) (beAt h 0x40 48) (beAt h 0x680 48) (beAt h 0x6B0 48) (sha384 (h.take 0x680)) then 0x680
  else if encrypted h && (encKey s (secEnc h)).isNone then 0xD else 0

/-- Step 5 over the bodies: none, or the state after the error. -/
def bodiesBad (key : Option (BitVec 256)) : List (RegEntry × Nat) → State → Option State × State
  | [], s => (none, s)
  | (e, i) :: t, s =>
    let m := readBody s e
    let err := fun code w1 rsn => (some (loadErr m.st code e.region.val (w32 w1) rsn), m.st)
    if m.rsn ≠ 0 then err 0x08 (m.at_ - s.loader.secAt.toNat) m.rsn
    else if sha384 m.data ≠ e.digest then err 0x03 (entOff i + 0x30) 0
    else if key.any (fun k => gcmTag k (ivBytes e.iv) m.data != e.tag) then err 0x04 (entOff i + 0x20) 0
    else bodiesBad key t m.st

/-- PASS1_AUTHENTICATION. -/
def pass1 (s : State) : State :=
  if s.loader.phase != .auth then s
  else
    let a := s.loader.secAt.toNat
    let m := memRead s zenithInit a 0x800
    if m.rsn ≠ 0 then loadErr m.st 0x08 0 (w32 (m.at_ - a)) m.rsn
    else match headerBad (ccPos s) m.data with
    | some o => loadErr m.st 0x01 0 (w32 o) 0
    | none =>
      let k := keysBad s m.data
      if k ≠ 0 then loadErr m.st 0x02 0 (w32 k) 0
      else
        let es := secEntries m.data
        let key := if encrypted m.data then encKey s (secEnc m.data) else none
        match bodiesBad key es.zipIdx m.st with
        | (some s, _) => s
        | (none, s) =>
          let n := secLen m.data
          let m := memRead s zenithInit a n
          if m.rsn ≠ 0 then loadErr m.st 0x08 0 (w32 (m.at_ - a)) m.rsn
          else if leAt m.data (n - 4) 4 ≠ crcOf crc32c (m.data.take (n - 4)) then loadErr m.st 0x01 0 (w32 (n - 4)) 0
          else
            let s := updLoader m.st (fun l => { l with
              phase := .load, entries := es, cur := 0, attempt := 1, order := 0, opts := 0, addrSet := false, pos := 0, seen := [], nframes := 0, restart := false })
            setReg (setReg s (ldrKey + Rg.ccfg.CCATTEMPT) 1) (ldrKey + Rg.ccfg.CCFRAMES) 0

def execPass1Authentication (s : State) : Out := ldrAct pass1 s

/-! ### Images in memory (R376, R391) -/

/-- The image of a region in memory: body address, initialization vector, length, key if encrypted. -/
structure Img where
  at_ : Nat
  iv : BitVec 96
  len : Nat
  key : Option (BitVec 256)

/-- Bytes of an image at an offset of its body, decrypted. -/
def imgBytes (g : Img) (off n : Nat) (s : State) : MemR :=
  let m := memRead s zenithInit (g.at_ + off) n
  if m.rsn ≠ 0 then m else { m with data := match g.key with | some k => gcmDec k (ivBytes g.iv) off m.data | none => m.data }

/-! ### Packets (R367-R372, R376): a row is the packet that the body has next (log entry 17) -/

/-- The entry whose body is in hand. -/
def curEntry (s : State) : Option RegEntry := s.loader.entries[s.loader.cur]?

/-- The body of an entry of the load. -/
def loadImg (s : State) (e : RegEntry) : Img :=
  { at_ := s.loader.secAt.toNat + e.offset, iv := e.iv, len := e.length,
    key := if s.loader.encslot = 0xFF then none else encKey s s.loader.encslot.toNat }

/-- A header word that R367 and R368 allow. -/
def hdrOk (h : Nat) : Bool :=
  let kind := h / 2 ^ 20 % 16
  let len := h % 2 ^ 20
  h / 2 ^ 24 == 0xA5 && decide (1 ≤ kind ∧ kind ≤ 7) && (if kind = 5 then 1 ≤ len else len == 1)

/-- Data words of a packet. -/
def hdrWords (h : Nat) : Nat := if h / 2 ^ 20 % 16 = 5 then 129 * (h % 2 ^ 20) else 1

/-- What a body has next, beside a packet in question: an error at an offset, a read that fails, another packet, or that
    one, at an offset and with the one behind it. -/
inductive NextPkt where
  | bad (off : Nat)
  | bus (a : Nat) (rsn : BitVec 8)
  | other
  | fits (off next : Nat)
  deriving DecidableEq, Repr

/-- Look for the packet with header `h` and data `ws` at an offset of a body, no-operations left out where they may stand.
    The fuel is above the body's length in words. -/
def nextPkt (g : Img) (nops : Bool) (h : Nat) (ws : List W32) : Nat → Nat → State → NextPkt × State
  | 0, off, s => (.bad off, s)
  | f + 1, off, s =>
    if g.len ≤ off then (.bad off, s)
    else
      let m := imgBytes g off 4 s
      let x := leAt m.data 0 4
      if m.rsn ≠ 0 then (.bus m.at_ m.rsn, m.st)
      else if x = 0 ∧ nops then nextPkt g nops h ws f (off + 4) m.st
      else if !hdrOk x ∨ g.len < off + 4 + 4 * hdrWords x then (.bad off, m.st)
      else if x ≠ h then (.other, s)
      else
        let d := imgBytes g (off + 4) (4 * hdrWords x) m.st
        if d.rsn ≠ 0 then (.bus d.at_ d.rsn, d.st)
        else if d.data = bytesOf ws then (.fits off (off + 4 + 4 * hdrWords x), d.st) else (.other, s)

/-- A format error at a byte offset of the section or a frame address. -/
def fmtErr (e : RegEntry) (w1 : W32) (s : State) : State := loadErr s 0x01 e.region.val w1 0

/-- The header of a packet: its kind and LEN. -/
def hdrOf (kind len : Nat) : Nat := 0xA5 * 2 ^ 24 + kind * 2 ^ 20 + len

/-- What the body in hand has next. -/
def bodyNext (e : RegEntry) (h : Nat) (ws : List W32) (s : State) : NextPkt × State :=
  nextPkt (loadImg s e) (s.loader.order == 3) h ws (e.length / 4 + 1) s.loader.pos s

/-- A packet acts in PHASE LOAD, while no restart is due, when the body has it next: `f` with the packet's offset. What breaks
    the form of a body ends the load whichever packet is looked for. -/
def onPacket (h : Nat) (ws : List W32) (f : RegEntry → Nat → State → State) (s : State) : State :=
  match curEntry s with
  | some e =>
    if s.loader.phase = .load ∧ !s.loader.restart then
      match bodyNext e h ws s with
      | (.bad o, s) => fmtErr e (w32 (e.offset + o)) s
      | (.bus a rsn, s) => loadErr s 0x08 e.region.val (w32 (a - s.loader.secAt.toNat)) rsn
      | (.other, _) => s
      | (.fits o n, s) => f e o (updLoader s (fun l => { l with pos := n }))
    else s
  | none => s

/-- DEVCHK, OPTIONS and OPEN, kinds 1 to 3: packet n + 1 of the body, its value as `ok` says. -/
def lead (n : Nat) (v : W32) (ok : RegEntry → Bool) (f : Loader → Loader) : State → State :=
  onPacket (hdrOf (n + 1) 1) [v] (fun e o s =>
    if s.loader.order = n ∧ ok e then updLoader s (fun l => { f l with order := n + 1 })
    else fmtErr e (w32 (e.offset + o)) s)

def execDevchk (v : W32) (s : State) : Out := ldrAct (lead 0 v (fun _ => v == 0x0B640F01) id) s
def execOptions (v : W32) (s : State) : Out :=
  ldrAct (lead 1 v (fun _ => decide (v.toNat < 4)) (fun l => { l with opts := BitVec.ofNat 2 v.toNat })) s
def execOpenPkt (v : W32) (s : State) : Out := ldrAct (lead 2 v (fun e => v.toNat == e.region.val) id) s

/-- Fields of a frame address (R369). -/
def faFrame (a : W32) : Nat := bits a 7 0
def faCol (a : W32) : Nat := bits a 16 8
def faType (a : W32) : Bool := a.getLsbD 17
def faRegion (a : W32) : Nat := 4 * bits a 21 20 + bits a 19 18

/-- An address within its TYPE. -/
def faRange (a : W32) : Bool :=
  if faType a then decide (faFrame a < 144 ∧ faCol a < 32) else decide (faFrame a < 160 ∧ faCol a < 384)

/-- An address of the section's position and the entry's region. -/
def faOk (pos : Nat) (r : Fin 16) (a : W32) : Bool :=
  faRange a && faRegion a == r.val && bits a 23 22 == 0 && bits a 27 24 == pos && bits a 31 28 == 0

/-- The number of a frame: TYPE 0 by column and frame, then TYPE 1 (R370). -/
def faNum (a : W32) : Nat := if faType a then 61440 + 144 * faCol a + faFrame a else 160 * faCol a + faFrame a

/-- The address of a region's frame. -/
def faOf (pos : Nat) (r : Fin 16) (n : Nat) : W32 :=
  w32 (pos * 2 ^ 24 + r.val * 2 ^ 18 +
    (if n < 61440 then n % 160 + n / 160 * 2 ^ 8 else (n - 61440) % 144 + (n - 61440) / 144 * 2 ^ 8 + 2 ^ 17))

/-- The next address: FRAME returns to 0 after the last of a column. -/
def faNext (a : W32) : W32 :=
  if faFrame a + 1 = (if faType a then 144 else 160) then (a &&& 0xFFFFFF00) + 0x100 else a + 1

/-- SETADDR, once delivery is open. -/
def setaddr (v : W32) : State → State :=
  onPacket (hdrOf 4 1) [v] (fun e _ s =>
    if s.loader.order = 3 ∧ faOk (ccPos s) e.region v then updLoader s (fun l => { l with addr := v, addrSet := true })
    else fmtErr e v s)
def execSetaddr (v : W32) (s : State) : Out := ldrAct (setaddr v) s

/-- The check word of a frame (R371). -/
def frameCheck (a : W32) (ws : List W32) : Nat := crcOf crc32c (leBytes 4 a.toNat ++ bytesOf ws)

/-- A frame's read-back failed: the region's pass 2 is to start again (R379). -/
def frameRetry (e : RegEntry) (a : W32) (s : State) : State :=
  let n := s.loader.attempt + 1
  let s := updLoader s (fun l => { l with restart := true, attempt := n })
  let s := bump (setReg s (ldrKey + Rg.ccfg.CCATTEMPT) (w32 n)) (ldrKey + Rg.ccfg.CCRETRY)
  pulse (ldrLog s 0x05 e.region.val a 0) ldrKey 2

/-- Deliver frames: each written, read back and checked. -/
def frameList (e : RegEntry) : List Frame → State → State
  | [], s => s
  | f :: t, s =>
    let a := s.loader.addr
    if !faRange a then fmtErr e a s
    else
      let s := updRegion s e.region (fun g => { g with frames := tset [] g.frames (faNum a) f.data })
      if frameCheck a f.back ≠ f.check.toNat then frameRetry e a s
      else
        let n := s.loader.nframes + 1
        let s := updLoader s (fun l => { l with addr := faNext a, nframes := n, seen := tset false l.seen (faNum a) true })
        frameList e t (setReg s (ldrKey + Rg.ccfg.CCFRAMES) (w32 (n % 2 ^ 17)))

/-- FRAMES, after a SETADDR: the frames' words and check words as the body has them. -/
def framesPkt (fs : List Frame) : State → State :=
  onPacket (hdrOf 5 fs.length) (fs.flatMap (fun f => f.data ++ [f.check])) (fun e _ s =>
    if s.loader.order = 3 ∧ s.loader.addrSet then frameList e fs s else fmtErr e s.loader.addr s)
def execFrames (fs : List Frame) (s : State) : Out :=
  if wellFormed (.frames fs) then ldrAct (framesPkt fs) s else .refused .illFormed

/-- The body starts again from its first word. -/
def bodyFresh (l : Loader) : Loader :=
  { l with order := 0, opts := 0, addrSet := false, pos := 0, seen := [], nframes := 0, restart := false }

/-- PASS2_RESTART. -/
def pass2Restart (s : State) : State :=
  if s.loader.phase = .load ∧ s.loader.restart then setReg (updLoader s bodyFresh) (ldrKey + Rg.ccfg.CCFRAMES) 0 else s
def execPass2Restart (s : State) : Out := ldrAct pass2Restart s

/-- TALLY. -/
def tally (v : W32) : State → State :=
  onPacket (hdrOf 6 1) [v] (fun e _ s => if s.loader.order = 3 ∧ v.toNat = s.loader.nframes then s else fmtErr e s.loader.addr s)
def execTally (v : W32) (s : State) : Out := ldrAct (tally v) s

/-! ### CLOSE and the start signal (R376, R377, R383, R384, R389) -/

/-- The words of a frame in configuration memory. -/
def frameAt (s : State) (r : Fin 16) (n : Nat) : List W32 := tget [] (region s r).frames n

/-- A frame as signatures take it. -/
def frameSig (s : State) (pos : Nat) (r : Fin 16) (n : Nat) : List Byte :=
  leBytes 4 (faOf pos r n).toNat ++ bytesOf (frameAt s r n)

/-- The signature of a column. -/
def colSigOf (s : State) (r : Fin 16) (c : Nat) : W32 :=
  w32 (crcOf crc32c ((List.range 160).flatMap (fun f => frameSig s (ccPos s) r (160 * c + f))))

/-- The golden signature of a region. -/
def goldOf (s : State) (r : Fin 16) : W32 :=
  w32 (crcEnd crc32c ((List.range 61440).foldl (fun c n => crcFeed crc32c c (frameSig s (ccPos s) r n)) crc32c.init))

/-- The start signal reaches every region of the set. -/
def startSignal (s : State) : State :=
  let s := updLoader s (fun l => { l with phase := .startup })
  (loadSet s).foldl (fun s r => updRegion s r (fun g => { g with due := true })) s

/-- Every region of the set is loaded: CFGDONE is released; with DONESYNC clear the start signal follows at once. -/
def allLoaded (s : State) : State :=
  let s := updLoader s (fun l => { l with phase := .waitdone })
  if doneSync s then ccReldone s else startSignal s

/-- What CLOSE records of a region. -/
def recordRegion (e : RegEntry) (s : State) : State :=
  let r := e.region
  let l := s.loader
  let k := ldrKey + 0x20 * r.val
  let body := l.secAt.toNat + e.offset
  let enc := l.encslot != 0xFF
  let stat := 1 + b2n enc * 2 + l.keyslot.toNat % 8 * 4 + l.opts.toNat * 2 ^ 5 + (if enc then l.encslot.toNat % 4 * 2 ^ 8 else 0)
  let gold := goldOf s r
  let cols := (List.range 384).foldl (fun t c => tset 0 t (384 * r.val + c) (colSigOf s r c)) l.colSig
  let s := updLoader s (fun l => { l with colSig := cols, imgs := tset (0, 0) l.imgs r.val (e.iv, e.length) })
  let s := setReg (setReg s (k + Rg.ccfg.RGSTAT) (w32 stat)) (k + Rg.ccfg.RGGOLD) gold
  let s := setReg (setReg s (k + Rg.ccfg.RGIMG) (w32 body)) (k + Rg.ccfg.RGIMGH) (w32 (body / 2 ^ 32 % 2 ^ 16))
  let s := updReg s (ldrKey + Rg.ccfg.CCLOADSET) (fun w => w ||| w32 (2 ^ (16 + r.val)))
  updRegion s r (fun g => { g with loaded := true })

/-- The body is done: the next of the set, or all are loaded. -/
def nextBody (s : State) : State :=
  let s := updLoader s (fun l => { bodyFresh l with cur := l.cur + 1, attempt := 1 })
  if s.loader.cur < s.loader.entries.length
  then setReg (setReg s (ldrKey + Rg.ccfg.CCATTEMPT) 1) (ldrKey + Rg.ccfg.CCFRAMES) 0
  else allLoaded s

/-- CLOSE: the last packet of its body, every frame exactly once, then the digest of the stored body again. -/
def closePkt (v : W32) : State → State :=
  onPacket (hdrOf 7 1) [v] (fun e _ s =>
    if s.loader.order ≠ 3 ∨ v.toNat ≠ 66048 ∨ s.loader.nframes ≠ 66048 ∨ s.loader.seen.length ≠ 66048 then fmtErr e s.loader.addr s
    else if s.loader.pos ≠ e.length then fmtErr e (w32 (e.offset + s.loader.pos)) s
    else
      let m := readBody s e
      if m.rsn ≠ 0 then loadErr m.st 0x08 e.region.val (w32 (m.at_ - s.loader.secAt.toNat)) m.rsn
      else if sha384 m.data ≠ e.digest then loadErr m.st 0x03 e.region.val (w32 e.offset) 0
      else nextBody (regDo e.region (recordRegion e) m.st))
def execClose (v : W32) (s : State) : Out := ldrAct (closePkt v) s

/-- CFGDONE_START_SIGNAL: with DONESYNC set, once the line is not driven here and has read high for 1 µs. -/
def doneSignal (s : State) : State :=
  if s.loader.phase = .waitdone ∧ (!doneSync s ∨ (!doneLow s ∧ s.loader.doneSince.toNat + 1000 ≤ now s)) then startSignal s else s
def execCfgdoneStartSignal (s : State) : Out := ldrAct doneSignal s

/-! ### Chains (R385-R388) -/

/-- The sections of a chain stream in memory, each with the bytes up to the next: each begins on a 4 KiB boundary. The fuel is
    the stream's length in 2 KiB. -/
def chainSections (a stop : Nat) : Nat → State → Option (List (Nat × List Byte × List Byte)) × BitVec 8 × Nat × State
  | 0, s => (some [], 0, 0, s)
  | f + 1, s =>
    if stop ≤ a then (some [], 0, 0, s)
    else
      let m := memRead s zenithInit a 0x10
      if m.rsn ≠ 0 then (none, m.rsn, m.at_, m.st)
      else
        let n := secLen m.data
        if leAt m.data 0 4 ≠ 0x46425342 ∨ n < 0x804 ∨ stop < a + n then (none, 0, a, m.st)
        else
          let next := a + (n + 4095) / 4096 * 4096
          let d := memRead m.st zenithInit a (min next stop - a)
          if d.rsn ≠ 0 then (none, d.rsn, d.at_, d.st)
          else match chainSections next stop f d.st with
            | (some t, r) => (some ((a, d.data.take n, d.data.drop n) :: t), r)
            | (none, r) => (none, r)

def chposOf (d : List Byte) : Nat := leAt d 6 1

/-- The stream that the head of position `pos` sends: its own section is left out, with what pads it (DEDUCED, log entry 71). -/
def chainStream (pos : Nat) (secs : List (Nat × List Byte × List Byte)) : List ChainItem :=
  [.start] ++ (secs.filter (fun e => chposOf e.2.1 != pos)).flatMap (fun e =>
    .sect e.2.1 :: if e.2.2 = [] then [] else [.fill e.2.2]) ++ [.stop]

/-- CHAIN_TRANSMIT: the stream, without the head's own section. -/
def chainTransmit (s : State) : State :=
  if s.loader.phase != .transmit then s
  else
    let a := ccSrc s
    let n := (ccReg s Rg.ccfg.CCSRCLEN).toNat
    match chainSections a (a + n) (n / 2048 + 1) s with
    | (some secs, _, _, s) =>
      updLoader s (fun l => { l with chainOut := l.chainOut ++ chainStream (ccPos s) secs, sentAt := s.clock.now, recvd := some true })
    | (none, rsn, at_, s) => loadErr s (if rsn = 0 then 0x01 else 0x08) 0 (w32 (at_ - a)) rsn
def execChainTransmit (s : State) : Out := ldrAct chainTransmit s

/-- CFGRETRY_SAMPLE, 10 µs after the end marker: low asks for the stream again, else the head loads its own section. -/
def retrySample (low : Bool) (s : State) : State :=
  let s := updLoader s (fun l => { l with retryExt := !low })
  if s.loader.phase != .transmit || s.loader.recvd.isNone || now s < s.loader.sentAt.toNat + 10000 then s
  else if low then chainTransmit (bump s (ldrKey + Rg.ccfg.CCCHRES))
  else
    let a := ccSrc s
    let n := (ccReg s Rg.ccfg.CCSRCLEN).toNat
    match chainSections a (a + n) (n / 2048 + 1) s with
    | (some secs, _, _, s) => match secs.find? (fun e => chposOf e.2.1 == ccPos s) with
      | some (p, _) => beginLoad p s
      | none => loadErr s 0x01 0 0 0
    | (none, rsn, at_, s) => loadErr s (if rsn = 0 then 0x01 else 0x08) 0 (w32 (at_ - a)) rsn
def execCfgretrySample (low : Bool) (s : State) : Out := ldrAct (retrySample low) s

/-- The last module of a chain (R385). -/
def ccLast (s : State) : Bool := (ccReg s Rg.ccfg.CCCHAIN).getLsbD 5

/-- A marker goes on to the next module, if there is one. -/
def passMark (i : ChainItem) (s : State) : State :=
  if ccChained s && !ccLast s then updLoader s (fun l => { l with chainOut := l.chainOut ++ [i] }) else s

/-- A section arrives on the chain. -/
def chainSection (d : List Byte) (s : State) : State :=
  if s.loader.phase != .receive then s
  else if chposOf d ≠ ccPos s then
    if ccLast s then bump s (ldrKey + Rg.ccfg.CCCHDROP)
    else updLoader s (fun l => { l with chainOut := l.chainOut ++ [.sect d] })
  else if (ccReg s Rg.ccfg.CCSRCLEN).toNat < d.length ∨ s.loader.recvd.isSome then loadErr s 0x01 0 0 0
  else
    let m := memWrite s zenithInit (ccSrc s) d
    if m.rsn ≠ 0 then loadErr m.st 0x08 0 (w32 (m.at_ - ccSrc s)) m.rsn
    else
      let n := d.length
      let ok := decide (4 ≤ n) && leAt d (n - 4) 4 == crcOf crc32c (d.take (n - 4))
      updLoader m.st (fun l => { l with recvd := some ok })

/-- CHAIN_STREAM_START: the sections that follow the marker. The marker releases CFGRETRY in any phase (R388). -/
def chainStart (secs : List (List Byte)) (s : State) : State :=
  let s := updLoader s (fun l => { l with retryDrv := false })
  if s.loader.phase != .receive || !ccChained s then s
  else secs.foldl (fun s d => chainSection d s) (passMark .start (updLoader s (fun l => { l with recvd := none })))
def execChainStreamStart (sections : List (List Byte)) (s : State) : Out := ldrAct (chainStart sections) s

/-- CHAIN_STREAM_END. -/
def chainEnd (s : State) : State :=
  if s.loader.phase != .receive then s
  else
  let s := passMark .stop s
  match s.loader.recvd with
  | some true => beginLoad (ccSrc s) (updLoader s (fun l => { l with recvd := none }))
  | some false =>
    let s := bump (updLoader s (fun l => { l with recvd := none, retryDrv := true })) (ldrKey + Rg.ccfg.CCCHRES)
    ldrLog s 0x07 0 0 0
  | none => s
def execChainStreamEnd (s : State) : Out := ldrAct chainEnd s

/-! ### Readback (R390-R392) -/

def rgMode (s : State) (r : Fin 16) : Nat := bits (ccReg s (Rg.ccfg.RGRBCTL + 0x20 * r.val)) 1 0

/-- A region that background readback takes. -/
def rbTakes (s : State) (r : Fin 16) : Bool :=
  (ccReg s Rg.ccfg.CCCTL).getLsbD 1 && s.loader.phase != .load && rgMode s r != 0 && runOrStop s r

/-- The region that readback reads next, in ascending order from where it stands. -/
def rbNext (s : State) : Option (Fin 16) :=
  ((List.range 16).map (fun i => fin 16 (s.loader.rbRegion.val + i))).find? (rbTakes s)

/-- The image that a region was loaded from. -/
def imgOf (s : State) (r : Fin 16) : Img :=
  let st := ccReg s (Rg.ccfg.RGSTAT + 0x20 * r.val)
  let i := tget (0, 0) s.loader.imgs r.val
  { at_ := (addrOf (ccReg s (Rg.ccfg.RGIMG + 0x20 * r.val)) (ccReg s (Rg.ccfg.RGIMGH + 0x20 * r.val))).toNat, iv := i.1, len := i.2,
    key := if st.getLsbD 1 then encKey s (bits st 9 8) else none }

/-- Find frame n of the region in its image: the words and the check word. The fuel is the body's length in words. -/
def imgFrame (g : Img) (n : Nat) : Nat → Nat → Nat → State → Option (List W32 × W32) × State
  | 0, _, _, s => (none, s)
  | f + 1, off, cur, s =>
    if g.len ≤ off then (none, s)
    else
      let m := imgBytes g off 8 s
      let b := m.data
      let s := m.st
      let h := leAt b 0 4
      let kind := h / 2 ^ 20 % 16
      let len := h % 2 ^ 20
      if m.rsn ≠ 0 then (none, s)
      else if h = 0 then imgFrame g n f (off + 4) cur s
      else if kind = 5 then
        if cur ≤ n ∧ n < cur + len then
          let d := imgBytes g (off + 4 + 516 * (n - cur)) 516 s
          let ws := wordsLE d.data
          if d.rsn ≠ 0 then (none, d.st) else (some (ws.take 128, ws.getD 128 0), d.st)
        else imgFrame g n f (off + 4 + 516 * len) (cur + len) s
      else imgFrame g n f (off + 8) (if kind = 4 then faNum (w32 (leAt b 4 4)) else cur) s

/-- Rewrite the frames of a column that differ from the image; false if an image frame fails. The list is what is left. -/
def repairCol (r : Fin 16) (c : Nat) : List Nat → State → Bool × State
  | [], s => (true, s)
  | f :: t, s =>
    let n := 160 * c + f
    let g := imgOf s r
    let a := faOf (ccPos s) r n
    match imgFrame g n (g.len / 4 + 1) 0 0 s with
    | (none, s) => (false, s)
    | (some (ws, chk), s) =>
      if frameCheck a ws ≠ chk.toNat then (false, s)
      else if ws = frameAt s r n then repairCol r c t s
      else
        let s := updRegion s r (fun g => { g with frames := tset [] g.frames n ws })
        let s := bump (bump s (ldrKey + Rg.ccfg.RGUPSET + 0x20 * r.val)) (ldrKey + Rg.ccfg.RGREPAIR + 0x20 * r.val)
        repairCol r c t (pulse (ldrLog s 0x0A r.val a 0) ldrKey 4)

/-- MODE 1: the upset is logged with the column. -/
def upsetLog (r : Fin 16) (c : Nat) (s : State) : State :=
  let a := (faOf (ccPos s) r (160 * c) &&& 0xFFFFFF00) ||| 0xFF
  pulse (bump (ldrLog s 0x09 r.val a 0) (ldrKey + Rg.ccfg.RGUPSET + 0x20 * r.val)) ldrKey 3

/-- A column whose signature differs; the STOPNOW that may follow has no effect on a STOPPED region (R18, R391). -/
def upset (r : Fin 16) (c : Nat) (s : State) : State :=
  let st := ccReg s (Rg.ccfg.RGSTAT + 0x20 * r.val)
  let s :=
    if rgMode s r = 2 ∧ st.getLsbD 5 then
      let (ok, s) := repairCol r c (List.range 160) s
      if ok ∧ colSigOf s r c = tget 0 s.loader.colSig (384 * r.val + c) then s
      else upsetLog r c (pulse (ldrLog s 0x0B r.val (faOf (ccPos s) r (160 * c)) 0) ldrKey 5)
    else upsetLog r c s
  if ((ccReg s (Rg.ccfg.RGRBCTL + 0x20 * r.val)).getLsbD 2 || st.getLsbD 6) && !isStopped s (.region r) then regDo r (regStop r true) s else s

/-- Upsets in the column's frames. -/
def strike (r : Fin 16) (c : Nat) (ups : List Upset) (s : State) : State :=
  ups.foldl (fun s u =>
    if 160 ≤ u.frame.toNat then s
    else
      let n := 160 * c + u.frame.toNat
      let ws := (frameAt s r n).mapIdx (fun i w => if i = u.word.val then w ^^^ u.bits else w)
      updRegion s r (fun g => { g with frames := tset [] g.frames n ws })) s

/-- READBACK_COLUMN: the next column of the region that readback reads, with the upsets found in it. A region stopped for them
    is left until its next lap (R392). -/
def readback (r : Fin 16) (ups : List Upset) (s : State) : State :=
  if rbNext s ≠ some r then s
  else
    let c := if s.loader.rbRegion = r then s.loader.rbCol else 0
    let from_ := if c = 0 then s.clock.now else s.loader.rbFrom
    let was := isStopped s (.region r)
    let s := strike r c ups s
    let s := if colSigOf s r c = tget 0 s.loader.colSig (384 * r.val + c) then s else upset r c s
    if !was && isStopped s (.region r) then updLoader s (fun l => { l with rbRegion := fin 16 (r.val + 1), rbCol := 0 })
    else if c + 1 < 384 then updLoader s (fun l => { l with rbRegion := r, rbCol := c + 1, rbFrom := from_ })
    else
      let s := updLoader s (fun l => { l with rbRegion := fin 16 (r.val + 1), rbCol := 0 })
      setReg s (ldrKey + Rg.ccfg.RGLAP + 0x20 * r.val) (w32 ((now s - from_.toNat) / 1000))
def execReadbackColumn (r : Fin 16) (ups : List Upset) (s : State) : Out := ldrAct (readback r ups) s

/-! ### Keys (R373, R374) -/

def secKey : Nat := Blk.key .sec

/-- Programming is in progress: the KEYPROG value it is for. -/
def keyBusy (s : State) : Bool := reg s (secKey + Rg.sec.KEYPROG) != 0

/-- A slot is programmed. -/
def slotSet (s : State) (enc : Bool) (slot : Nat) : Bool :=
  if enc then s.fuses.encKeys.any (fun e => e.1 == slot) else s.fuses.sigKeys.any (fun e => e.1 == slot)

/-- A write of KEYPROG: an operator slot is programmed with CONFIRM, any slot revoked with REVOKE; any other changes no fuse
    and counts. While one programming is under way another is refused (DEDUCED from BUSY). -/
def keyProg (v : W32) (s : State) : State :=
  let enc := v.getLsbD 0
  let slot := bits v 3 1
  if v.getLsbD 4 then
    if slot < (if enc then 3 else 6) then
      if enc then { s with fuses := { s.fuses with encRev := s.fuses.encRev ||| BitVec.ofNat 3 (2 ^ slot) } }
      else { s with fuses := { s.fuses with sigRev := s.fuses.sigRev ||| BitVec.ofNat 6 (2 ^ slot) } }
    else errOnly s secKey
  else if bits v 31 16 = 0x6B59 ∧ !keyBusy s ∧ !slotSet s enc slot ∧ (if enc then 1 ≤ slot ∧ slot ≤ 2 else 2 ≤ slot ∧ slot ≤ 5) then
    setReg s (secKey + Rg.sec.KEYPROG) (v &&& 0xFFFF001F)
  else errOnly s secKey

/-- The staged bytes. -/
def keyBuf (s : State) (n : Nat) : List Byte := bytesOf ((List.range n).map (fun i => reg s (secKey + Rg.sec.KEYBUF + 4 * i)))

/-- List a slot with its key. -/
def keyPut {n : Nat} : Tab (BitVec n) → Nat → BitVec n → Tab (BitVec n)
  | [], k, v => [(k, v)]
  | (j, w) :: t, k, v => if k < j then (k, v) :: (j, w) :: t else if k = j then (k, v) :: t else (j, w) :: keyPut t k v

/-- KEY_PROGRAM_COMPLETE: the slot holds the staged key and KEYBUF reads 0. -/
def keyDone (s : State) : State :=
  if !keyBusy s then s
  else
    let v := reg s (secKey + Rg.sec.KEYPROG)
    let slot := bits v 3 1
    let f := s.fuses
    let f := if slotSet s (v.getLsbD 0) slot then f
      else if v.getLsbD 0 then { f with encKeys := keyPut f.encKeys slot (BitVec.ofNat 256 (leNat (keyBuf s 8))) }
      else { f with sigKeys := keyPut f.sigKeys slot (BitVec.ofNat 384 (beNat (keyBuf s 12))) }
    dropRegs { s with fuses := f } (fun k => k == secKey + Rg.sec.KEYPROG || decide (secKey + Rg.sec.KEYBUF ≤ k ∧ k < secKey + Rg.sec.KEYBUF + 48))

def execKeyProgramComplete (s : State) : Out := actKeys keyDone s

end Sys2Proof.Machine
end

