-- ==== Sys2Proof/Machine/Net.lean ====
section
/-! DEFINITION. Forwarding in routers (R409, R411, R414), the coherence protocol between caching agents and homes (R425),
    messages between dies (R424, R432), and the commands of probe and partition-table pages (R437, R442). -/

namespace Sys2Proof.Machine

/-! ### Routers -/

def pktNode (p : Pkt) : Node := (p.die.toNat, p.rtr.toNat)

/-- The completion of a DRAM write waits at its die until the WIPED clears of the write have reached every die (R424). -/
def wipeHeld (s : State) (p : Pkt) : Bool :=
  p.resp.isSome && p.req.kind != .read && inDram p.req.addr.toNat && p.fromDie == p.die && dieKind p.die.toNat == .base &&
  s.net.wipes.any (fun e => e.2.any (fun w => overlaps w.1 w.2 p.req.addr.toNat p.req.len))

/-- Two packets of one initiator to one target on one virtual network (R409). -/
def sameFlow (p q : Pkt) : Bool :=
  p.req.who.die == q.req.who.die && p.req.who.rtr == q.req.who.rtr && p.dstDie == q.dstDie && p.dstRtr == q.dstRtr &&
  p.resp.isSome == q.resp.isSome && isReg p.req == isReg q.req

/-- The packets that wait at a router's outputs, each behind the earlier ones of its flow; those of a partition that has no slot
    on the links wait without end (R429). -/
def waitingAt (s : State) (n : Node) : List Pkt :=
  (s.net.pkts.filter (fun p => pktNode p == n && !arrived p && !wipeHeld s p &&
    hasSlot s (tableDie n.1) Rg.ptab.NSLOT Rg.ptab.NSLOTV 64 p.req.who.part)).foldl
    (fun l p => if l.any (sameFlow p) then l else l ++ [p]) []

/-- What an output of a router sees of a packet, or of a snoop, that waits there: its priority, its input, since when. -/
structure Wtg where
  pri : Nat
  inp : BitVec 3
  since : Nat

/-- Waiting that goes before every later arrival: 2 µs at the output (R411). -/
def aged (t : Nat) (w : Wtg) : Bool := decide (w.since + 2000 ≤ t)

/-- Which of those that wait at one output, on one virtual network, goes next: where one has waited 2 µs, the first to have
    come; else one of the highest priority, the inputs taking turns from the one after `last` (R411). -/
def pickNext {α : Type} (f : α → Wtg) (t : Nat) (last : BitVec 3) (l : List α) : Option α :=
  if l.any (fun x => aged t (f x)) then l.find? (fun x => l.all (fun y => decide ((f x).since ≤ (f y).since)))
  else
    let m := l.filter (fun x => l.all (fun y => decide ((f y).pri ≤ (f x).pri)))
    (List.range 8).findSome? (fun i => m.find? (fun x => (f x).inp == last + 1 + BitVec.ofNat 3 i))

/-- The virtual networks that a router's output serves: those of requests and of responses, 0 and 1 each, and of snoops and
    of replies (R407). -/
def pktVn (p : Pkt) : Nat := 2 * b2n p.resp.isSome + b2n (isReg p.req)
def snoopVn (q : Snoop) : Nat := 4 + b2n q.seen

/-- The key in Net.turns of an output of a router and a virtual network. -/
def outKey (n : Node) (link vn : Nat) : Nat := ((16 * n.1 + n.2) * 8 + link) * 8 + vn
def outTurn (s : State) (n : Node) (link vn : Nat) : BitVec 3 := tget 7 s.net.turns (outKey n link vn)

/-- The input of the next router at which what leaves by a link of `n` comes: opposite on one die, else its bridge to n's die. -/
def inputAt (n m : Node) (link : Nat) : BitVec 3 := BitVec.ofNat 3 (if n.1 = m.1 then (link + 1) % 4 + 1 else bridgeLink m n.1)

/-- The next router of a packet at `n`, and the link to it. -/
def pktHop (n : Node) (p : Pkt) : Node × Nat := hop (p.fromDie.toNat, p.fromRtr.toNat) (p.dstDie.toNat, p.dstRtr.toNat) n
def pktWtg (p : Pkt) : Wtg := ⟨pktPri p, p.inp, p.at_.toNat⟩

/-- The routers of a die run: not in module reset, and after thermal shutdown only on the Zenith die (R506, R519). -/
def netUp (s : State) (die : Nat) : Bool := s.power.mst != .reset && (s.power.mst != .thermal || die == 103)

/-- Where a line's home and an agent are attached (R413, R425). -/
def homeNode (s : State) (line : Nat) : Node := (8 + 11 * (dramMap s (sysBase + 64 * line)).1.val, 0)
def agentNode : Agent → Node
  | .core _ => (103, 0)
  | .region r => (96 + r.val / 4, r.val % 4)

/-- Where a snoop, or its reply, comes from and goes, and where it is. -/
def snoopEnds (s : State) (q : Snoop) : Node × Node :=
  if q.seen then (agentNode q.agent, homeNode s q.line) else (homeNode s q.line, agentNode q.agent)
def snoopNode (q : Snoop) : Node := (q.die.toNat, q.rtr.toNat)
def snoopHere (s : State) (q : Snoop) : Bool := snoopNode q == (snoopEnds s q).2

/-- What a probe sees of a snoop or its reply (R410); its home sends it for partition 0 at priority 3. -/
def snoopSeenAs (s : State) (q : Snoop) : Seen :=
  let (src, dst) := snoopEnds s q
  let opc := if q.seen then 0xB else if q.share then 0xA else 9
  let vn0 := src.1 * 2 ^ 4 + dst.1 * 2 ^ 11 + opc * 2 ^ 20 + 3 * 2 ^ 24 + 2 ^ 26
  { filters := [vn0 + PNet.snoop.code * 2 ^ 18] ++ (if q.data.isSome then [vn0 + PNet.data.code * 2 ^ 18] else []),
    units := b2n q.data.isSome,
    h0 := w32 (dst.1 + dst.2 * 2 ^ 7 + src.1 * 2 ^ 11 + src.2 * 2 ^ 18 + 3 * 2 ^ 22 + 2 ^ 28 + 2 ^ 29), h1 := w32 opc,
    addr := w32 (sysBase + 64 * q.line) }

/-- Snoops and replies at a router that go on from it, each behind the earlier ones of its way (R409). -/
def snoopsAt (s : State) (n : Node) : List Snoop :=
  (s.net.snoops.filter (fun q => snoopNode q == n && !snoopHere s q)).foldl
    (fun l q => if l.any (fun x => x.seen == q.seen && snoopEnds s x == snoopEnds s q) then l else l ++ [q]) []
def snoopHop (s : State) (n : Node) (q : Snoop) : Node × Nat := hop (snoopEnds s q).1 (snoopEnds s q).2 n
def snoopWtg (q : Snoop) : Wtg := ⟨3, q.inp, q.came.toNat⟩

/-- Both ends of a hop run. -/
def hopUp (s : State) (n : Node) (h : Node × Nat) : Bool := netUp s n.1 && netUp s h.1.1

/-- The packets, and the snoops and replies, that a router sends on in one slot: of each output and virtual network the one
    that goes next. -/
def goes (s : State) (n : Node) : List Pkt :=
  let l := waitingAt s n
  l.filter (fun p => hopUp s n (pktHop n p) &&
    pickNext pktWtg (now s) (outTurn s n (pktHop n p).2 (pktVn p))
      (l.filter (fun q => (pktHop n q).2 == (pktHop n p).2 && pktVn q == pktVn p)) == some p)
def goesSnoop (s : State) (n : Node) : List Snoop :=
  let l := snoopsAt s n
  l.filter (fun q => hopUp s n (snoopHop s n q) &&
    pickNext snoopWtg (now s) (outTurn s n (snoopHop s n q).2 (snoopVn q))
      (l.filter (fun x => (snoopHop s n x).2 == (snoopHop s n q).2 && x.seen == q.seen)) == some q)

/-- A packet, or a snoop, that has gone on from `n`. -/
def sentOn (s : State) (n : Node) (p : Pkt) : Pkt :=
  let h := pktHop n p
  { p with die := BitVec.ofNat 7 h.1.1, rtr := BitVec.ofNat 4 h.1.2, inp := inputAt n h.1 h.2, at_ := s.clock.now }
def snoopOn (s : State) (n : Node) (q : Snoop) : Snoop :=
  let h := snoopHop s n q
  { q with die := BitVec.ofNat 7 h.1.1, rtr := BitVec.ofNat 4 h.1.2, inp := inputAt n h.1 h.2, came := s.clock.now }

/-- The turns once those that go have gone. -/
def turnsOn (s : State) (n : Node) : Tab (BitVec 3) :=
  (goesSnoop s n).foldl (fun t q => tset 7 t (outKey n (snoopHop s n q).2 (snoopVn q)) q.inp)
    ((goes s n).foldl (fun t p => tset 7 t (outKey n (pktHop n p).2 (pktVn p)) p.inp) s.net.turns)

/-- ROUTER_FORWARD: one slot of every output of a router, on every virtual network: the packet chosen moves to the next router
    of its route, and the router's probe sees it (R407, R411, R414; log entry 69). -/
def forward (n : Node) (s : State) : State :=
  let ps := goes s n
  let qs := goesSnoop s n
  let s1 := { s with net := { s.net with
    pkts := s.net.pkts.map (fun x => if ps.contains x then sentOn s n x else x)
    snoops := s.net.snoops.map (fun x => if qs.contains x then snoopOn s n x else x)
    turns := turnsOn s n } }
  qs.foldl (fun t q => probeSeen n (snoopHop s n q).2 (snoopSeenAs s q) t) (ps.foldl (fun t p => probeOut n (pktHop n p).2 p t) s1)

def execRouterForward (die : BitVec 7) (rtr : BitVec 4) (s : State) : Out := act (forward (die.toNat, rtr.toNat)) s

/-! ### Coherence (R425) -/

def agentOf (i : Nat) : Agent := if i < 4 then .core (fin 4 i) else .region (fin 16 (i - 4))

/-- An agent that takes part: a core of a running module, a region in RUNNING. -/
def agentUp (s : State) : Agent → Bool
  | .core _ => s.power.mst == .ready || s.power.mst == .init || s.power.mst == .mismatch
  | .region r => blkState s (.region r) == 3

/-- The agent as initiator of its coherent request. -/
def agentInit (s : State) : Agent → Init
  | .core _ => coreInit
  | .region r => regInit s r 0

/-- The home grants a line: for ownership every other copy is gone, for sharing others are Shared. A line that meets an error
    response is not granted. -/
def grantLine (s : State) (p : CohPend) : State :=
  let i := agentIdx p.agent
  let others := (holders s p.line).filter (· != i)
  match p.req with
  | .share => bringLine s (agentInit s p.agent) p.line i (if others = [] then .exclusive else .shared)
  | .own =>
    let s := others.foldl (fun s j => dropCopy s p.line j) s
    bringLine s (agentInit s p.agent) p.line i .exclusive

/-- Copies that a request must snoop. -/
def toSnoop (s : State) (i line : Nat) (r : CohReq) : List Nat :=
  (holders s line).filter (fun j => j != i && (r == .own || copyOf s line j != some .shared))

/-- Grant the requests of a line that no snoop holds up, the oldest first. The fuel is their number. -/
def grantAll (line : Nat) : Nat → State → State
  | 0, s => s
  | f + 1, s =>
    if s.net.snoops.any (fun q => q.line == line) then s
    else match s.net.cohs.find? (fun p => p.line == line) with
    | none => s
    | some p =>
      let js := toSnoop s (agentIdx p.agent) line p.req
      if js = [] then
        grantAll line f (grantLine { s with net := { s.net with cohs := s.net.cohs.erase p } } p)
      else
        let qs : List Snoop := js.map (fun j =>
          { line, agent := agentOf j, share := p.req == .share, seen := false, data := none, at_ := s.clock.now,
            die := BitVec.ofNat 7 (homeNode s line).1, rtr := 0, inp := 0, came := s.clock.now })
        { s with net := { s.net with snoops := s.net.snoops ++ qs } }

def settleLine (line : Nat) (s : State) : State := grantAll line (s.net.cohs.length + 1) s

/-- COHERENT_REQUEST: checked as any DRAM access of the agent's partition; COH outside the system region is ignored. -/
def cohRequest (g : Agent) (a : Addr) (r : CohReq) (s : State) : State :=
  if !inSys a.toNat || !agentUp s g then s
  else
    let line := sysLine a.toNat
    let q : Req := { mkReq (agentInit s g) (if r = .own then .write else .read) (a.toNat / 64 * 64) 64
                       (if r = .own then List.replicate 64 0 else []) with coh := true }
    let c := dramCheck s q
    if c ≠ 0 then respErr s (8 + 11 * (dramMap s a.toNat).1.val) c
    else
      let own := copyOf s line (agentIdx g)
      if own = some .modified ∨ own = some .exclusive ∨ (own = some .shared ∧ r = .share) then s
      else settleLine line { s with net := { s.net with cohs := s.net.cohs ++ [{ line, agent := g, req := r }] } }
def execCoherentRequest (g : Agent) (a : Addr) (r : CohReq) (s : State) : Out := act (cohRequest g a r) s

/-- The snoop of a line that an agent has not answered. -/
def snoopOf (s : State) (g : Agent) (line : Nat) : Option Snoop := s.net.snoops.find? (fun q => q.agent == g && q.line == line)

def setSnoop (s : State) (q q' : Snoop) : State :=
  { s with net := { s.net with snoops := s.net.snoops.map (fun x => if x = q then q' else x) } }

/-- An agent receives a snoop that has come to its router: an invalidate takes its copy, a share leaves it Shared; Modified data goes with the reply. -/
def snoopSeen (share : Bool) (g : Agent) (a : Addr) (s : State) : State :=
  let line := sysLine a.toNat
  let i := agentIdx g
  match snoopOf s g line with
  | none => s
  | some q =>
    if !inSys a.toNat || q.share != share || q.seen || !snoopHere s q || !agentUp s g then s
    else
      let d := if copyOf s line i = some .modified then some (copyData s line i) else none
      let s := setSnoop s q { q with seen := true, data := d, inp := 0, came := s.clock.now }
      if share then (if (copyOf s line i).isSome then setCopy s line i .shared (copyData s line i) else s)
      else dropCopy s line i
def execSnoopInvalidate (g : Agent) (a : Addr) (s : State) : Out := act (snoopSeen false g a) s
def execSnoopShare (g : Agent) (a : Addr) (s : State) : Out := act (snoopSeen true g a) s

/-- SNOOP_REPLY: the reply has come to the home, which has the answer, and grants what waited for it. Modified data that the line's stack refuses stays with
    the reply (R311). -/
def snoopReply (g : Agent) (a : Addr) (s : State) : State :=
  let line := sysLine a.toNat
  match snoopOf s g line with
  | none => s
  | some q =>
    if !inSys a.toNat || !q.seen || !snoopHere s q then s
    else
      match (match q.data with | some d => putLine s line d | none => (true, s)) with
      | (true, s) => settleLine line { s with net := { s.net with snoops := s.net.snoops.erase q } }
      | (false, s) => s
def execSnoopReply (g : Agent) (a : Addr) (s : State) : Out := act (snoopReply g a) s

/-- WRITE_BACK: a line that the agent owned returns to DRAM and leaves its cache, unless its stack refuses it (R311). -/
def writeBackLine (g : Agent) (a : Addr) (data : List Byte) (s : State) : State :=
  let line := sysLine a.toNat
  let i := agentIdx g
  let own := copyOf s line i
  if inSys a.toNat ∧ (own = some .modified ∨ own = some .exclusive) then
    let (ok, s) := putLine s line data
    if ok then dropCopy s line i else s
  else s
def execWriteBack (g : Agent) (a : Addr) (data : List Byte) (s : State) : Out :=
  actIf (wellFormed (.writeBack g a data)) (writeBackLine g a data) s

/-- Log the loss of a copy. The spec gives this entry no page and no code: it goes to the home's page-valid manager, and its
    words are free values (log entry 20). -/
def lossLog (s : State) (k : Fin 8) : State :=
  let (a, s) := draw s
  let (b, s) := draw s
  let (c, s) := draw s
  let (d, s) := draw s
  logE s (Blk.key (.pvm k)) (a.setWidth 32) (b.setWidth 32) (c.setWidth 32) (d.setWidth 32)

/-- SNOOP_TIMEOUT: a region that has not answered for 10 µs, or is not RUNNING, loses its copy. -/
def snoopTimeout (r : Fin 16) (a : Addr) (s : State) : State :=
  let line := sysLine a.toNat
  match snoopOf s (.region r) line with
  | none => s
  | some q =>
    if !inSys a.toNat || (agentUp s (.region r) && now s < q.at_.toNat + 10000) then s
    else
      let s := dropCopy { s with net := { s.net with snoops := s.net.snoops.erase q } } line (agentIdx (.region r))
      settleLine line (lossLog s (dramMap s a.toNat).1)
def execSnoopTimeout (r : Fin 16) (a : Addr) (s : State) : Out := act (snoopTimeout r a) s

/-! ### Messages between dies -/

/-- WIPED_CLEAR_MESSAGE: the base die clears WIPED in its copies of the windows that the oldest message's write touched. -/
def wipedMsg (k : Fin 8) (s : State) : State :=
  match tget [] s.net.wipes k.val with
  | [] => s
  | (a, n) :: t =>
    let s := { s with net := { s.net with wipes := tset [] s.net.wipes k.val t } }
    (List.range 64).foldl (fun s w =>
      let c := winKey k.val w + 0xC
      let (b, m) := winRange s k.val w
      if !(reg s c).getLsbD 4 && overlaps b m a n then setRegBit s c 8 false else s) s
def execWipedClearMessage (k : Fin 8) (s : State) : Out := act (wipedMsg k) s

/-- EVENT_MESSAGE: the oldest message drives the partition-fault source of its partition (R432, R531). -/
def eventMsg (s : State) : State :=
  match s.net.events with
  | [] => s
  | p :: t => { s with net := { s.net with events := t }, conc := { s.conc with pulse := tset false s.conc.pulse (0x670 + p) true } }
def execEventMessage (s : State) : Out := act eventMsg s

/-! ### Page commands -/

/-- A write of LRPOP with bit 0 set (R442). -/
def lrPop (d : Nat) (v : W32) (s : State) : State :=
  if v.getLsbD 0 then { s with net := { s.net with lulls := tset [] s.net.lulls d ((tget [] s.net.lulls d).drop 1) } } else s

/-- A write of PRCLR with bit 0 set: every counter and the trace (R437). -/
def prClr (n : Node) (v : W32) (s : State) : State :=
  if !v.getLsbD 0 then s
  else
    let k := probeKey n
    let i := 16 * n.1 + n.2
    let s := dropRegs s (fun x => x == k + Rg.probe.PRFPKT || x == k + Rg.probe.PRFBYTES ||
      decide (k + Rg.probe.PRREQ ≤ x ∧ x < k + Rg.probe.PRLNKPKT + 0x40))
    { s with net := { s.net with traces := tset [] s.net.traces i [], wrapped := tset false s.net.wrapped i false } }

end Sys2Proof.Machine
end

