-- ==== Sys2Proof/Machine/Block.lean ====
section
/-! DEFINITION. Block control: what RUN, STOP, STOPNOW, SOFTRST and an epoch request do to each block (R18, R44, R504),
    tile and die resets with their drain (R506-R508), what switching a domain off loses (R42). -/

namespace Sys2Proof.Machine

/-! ### Register pages at reset -/

/-- A register key lies in the block-specific part of a block's pages. -/
def inBlk (b : Blk) (k : Nat) : Bool := decide (b.key ≤ k ∧ k < b.key + 0x1000 * b.npages)

/-- The block-specific registers of a block return to reset; the common header, always on (R41), keeps its own. -/
def dropBlk (s : State) (b : Blk) : State := dropRegs s (fun k => inBlk b k && decide (0x80 ≤ k % 0x1000))

/-- A counter that a read clears. -/
def isRc (k : Nat) : Bool :=
  match blkOfKey k with
  | some (b, p) => (match regAt b p (k % 0x1000) with | some (r, _) => r.ty == .rc | none => false)
  | none => false

/-- Every counter of a block is 0, ERRCNT among them. -/
def dropCounts (s : State) (b : Blk) : State := dropRegs s (fun k => inBlk b k && isRc k)

/-- A block's error logs are empty. -/
def clearLogs (s : State) (b : Blk) : State := b.keys.foldl clearLog s

/-! ### Modes and epochs (R511-R513) -/

/-- The requested epoch of BLKCTL. -/
def reqEpoch (s : State) (b : Blk) : BitVec 8 := BitVec.ofNat 8 (bits (reg s (b.key + Rg.hdr.BLKCTL)) 15 8)

def setReqEpoch (s : State) (b : Blk) (e : BitVec 8) : State := setReg s (b.key + Rg.hdr.BLKCTL) (w32 (e.toNat * 2 ^ 8))

def ocReg (s : State) (o : Nat) : W32 := reg s (Blk.key .ocast + o)

/-- The broadcaster's current mode word: of the change in progress, else of the last completed one. -/
def modeWord (s : State) : Bool := (ocReg s (if s.ocast.epBusy then Rg.ocast.EPVAL else Rg.ocast.EPAPPLIED)).getLsbD 8

/-- The mode a unit applies to its work. -/
def setCompat (s : State) (u : ModeUnit) (c : Bool) : State :=
  match u with
  | .row t => updRow s t (fun r => { r with compat := c })
  | .vec t => updTile s t (fun x => { x with vec := { x.vec with compat := c } })
  | .nve k e => updEng s k e (fun x => { x with compat := c })

/-- The unit a block is, if it holds a mode. -/
def modeUnit : Blk → Option ModeUnit
  | .row t => some (.row t)
  | .vec t => some (.vec t)
  | .nve k e => some (.nve k e)
  | _ => none

/-- A unit applies a mode word under an epoch. -/
def applyEpoch (u : ModeUnit) (e : BitVec 8) (c : Bool) (s : State) : State :=
  setCompat (setEpoch (setReqEpoch s u.blk e) u.blk e) u c

/-- Every unit has reported: EPAPPLIED, event source 1 (R511). -/
def epochDone (s : State) : State :=
  if s.ocast.epBusy ∧ s.ocast.epUnits = [] then
    let s := setReg s (Blk.key .ocast + Rg.ocast.EPAPPLIED) (ocReg s Rg.ocast.EPVAL &&& 0x1FF)
    pulse { s with ocast := { s.ocast with epBusy := false } } (Blk.key .ocast) 1
  else s

/-- A unit reports. -/
def epochReport (u : ModeUnit) (s : State) : State :=
  epochDone { s with ocast := { s.ocast with epUnits := s.ocast.epUnits.filter (· != u) } }

/-- The idle boundary of a unit: no command queued or executing in it (R111, R157). R321 has an engine apply an epoch only
    between two commands; that the commands it has fetched drain first is a DESIGN CHOICE (log entry 65). -/
def idleBoundary (s : State) : ModeUnit → Bool
  | .row t => !rowHasCmds (rowOf s t)
  | .vec t => !unitBusy (tile s t).vec
  | .nve k e => !unitBusy (eng s k e)

/-- MODE_EPOCH_APPLY: a unit asked for another epoch applies it at its idle boundary. -/
def modeApply (u : ModeUnit) (s : State) : State :=
  let e := reqEpoch s u.blk
  if live s u.blk ∧ e ≠ (blkSt s u.blk).epoch ∧ idleBoundary s u then
    let s := applyEpoch u e (modeWord s) s
    if s.ocast.epBusy ∧ e.toNat = bits (ocReg s Rg.ocast.EPVAL) 7 0 then epochReport u s else s
  else s
def execModeEpochApply (u : ModeUnit) (s : State) : Out := act (watched (blkPages u.blk) (modeApply u)) s

/-- The requested epoch of a unit changes; a tile's sequencer sees event 10 (R195). -/
def epochRequest (b : Blk) (e : BitVec 8) (s : State) : State :=
  if reqEpoch s b = e then s
  else
    let s := setReqEpoch s b e
    match b with
    | .row t | .vec t => if tileOn s t then sev s t 10 else s
    | _ => s

/-- A unit whose domain is switched on applies the current epoch and mode word, and is not waited for (R513). -/
def epochFresh (u : ModeUnit) (s : State) : State :=
  let w := ocReg s Rg.ocast.EPAPPLIED
  epochReport u (applyEpoch u (BitVec.ofNat 8 w.toNat) (w.getLsbD 8) s)

/-! ### Responses no one waits for (R408, R507) -/

def isCpu (q : Cpu) (x : Src) : Bool := x == .cpu q
def isCtxOf (k : Fin 8) : Src → Bool | .ctx j _ _ _ => j == k | _ => false

/-! ### A tile (R68, R112, R160-R162, R225, R506) -/

/-- A tile that has received nothing of a broadcast. -/
def recv0 : Recv := { crc := w32 crc32c.init, pos := 0, failed := false, fin := false }

/-- A tile in OCMASK whose sequencer leaves IDLE and STOPPED fails the broadcast (R502). -/
def recvLost (s : State) (t : Fin 64) : State :=
  if s.ocast.busy && (ocReg s (Rg.ocast.OCMASK + 4 * (t.val / 32))).getLsbD (t.val % 32) then
    { s with ocast := { s.ocast with rx := tupd recv0 s.ocast.rx t.val (fun x => { x with failed := true }) } }
  else s

/-- The tile's blocks. -/
def tileBlks (t : Fin 64) : List Blk := [.row t, .seq t, .vec t, .acnt t]

/-- The state of a tile after its reset: the modes applied stay (R511). `zero`: the sequencer zeroes its memories. -/
def tileFresh (zero : Bool) (t : Fin 64) (s : State) : State :=
  let s := recvLost (dropGrant (orphan (isCpu (.tile t)) s) t) t
  let s := updTile s t (fun x => { tile0 with vec := { unit0 with compat := x.vec.compat },
                                              seq := { proc0 with zeroing := zero } })
  let s := (tileBlks t).foldl (fun s b => setUsed (setRun (dropBlk s b) b .going) b false) s
  dropCounts s (.row t)

/-- IM_DM_ZEROING_DONE (R162). -/
def zeroingDone (t : Fin 64) (s : State) : State :=
  if tileOn s t then updCpu s (.tile t) (fun p => { p with zeroing := false }) else s
def execImDmZeroingDone (t : Fin 64) (s : State) : Out := act (watched (tilePages t) (zeroingDone t)) s

/-! ### Scratch bank groups, channels and managers -/

/-- SOFTRST of a bank group (R239, R240). -/
def groupReset (t : Fin 64) (g : Fin 4) (s : State) : State :=
  let b := Blk.bank t g
  let s := sweepCut t g s
  let s := updBank s t g (fun x => { x with wiped := false, lapRows := [], lapOver := false, wbs := [] })
  let s := dropRegs (clearLogs (dropCounts s b) b) (fun k => k == b.key + Rg.bank.BGCTL)
  setRun s b .stopped

/-- A bank group whose periphery domain is switched off or on: STOPPED with WIPED clear (R238, R239). -/
def groupFresh (t : Fin 64) (g : Fin 4) (s : State) : State :=
  let s := sweepCut t g s
  let n := reg s (Blk.key (.bank t g) + Rg.bank.SWEEPPROG)
  let s := updBank (dropBlk s (.bank t g)) t g (fun _ => { bank0 with lapFrom := s.clock.now })
  setReg (setRun s (.bank t g) .stopped) (Blk.key (.bank t g) + Rg.bank.SWEEPPROG) n

/-- RUN of a bank group: refused during a sweep; it clears WIPED and restarts the lap (R235, R239, R240). -/
def groupRun (t : Fin 64) (g : Fin 4) (s : State) : State :=
  if (bank s t g).sweep then logE s (Blk.key (.bank t g)) 0x05 (w32 Rg.hdr.BLKCTL)
  else if isGoing s (.bank t g) then s
  else setRun (updBank s t g (fun x => { x with wiped := false, lapRows := [], lapFrom := s.clock.now, lapOver := false }))
    (.bank t g) .going

/-- SOFTRST of a channel controller (R314, R18). -/
def chanReset (k : Fin 8) (c : Fin 32) (s : State) : State :=
  let b := Blk.chan k c
  let s := updChan (discardHeld s k c) k c (fun x => { x with frozen := none, failed := false })
  setRun (dropRegs (clearLogs (dropCounts s b) b) (fun x => x == b.key + Rg.chan.CHCTL)) b .going

/-- SOFTRST of a page-valid manager (R330). -/
def pvmReset (k : Fin 8) (s : State) : State :=
  let b := Blk.pvm k
  dropRegs (clearLogs (dropCounts s b) b) (fun x => x == b.key + Rg.pvm.SCRBCTL)

/-- Every access accepted by a stack's channels has completed. -/
def stackIdle (s : State) (k : Fin 8) : Bool := (List.range 32).all (fun c => (chan s k (fin 32 c)).queue.isEmpty)

/-- RUN of a manager: the scrubber restarts from block 0 when it follows a STOP (R319). -/
def pvmRun (k : Fin 8) (s : State) : State :=
  let s := setRun s (.pvm k) .going
  let s := (List.range 32).foldl (fun s c => updChan s k (fin 32 c) (fun x => { x with scrubAt := 0 })) s
  updStack s k (fun x => { x with lapFrom := s.clock.now, lapOver := false })

/-- The stream engine, engines and check channels of a compute section after reset (R283, R326, R403). -/
def sectionFresh (k : Fin 8) (s : State) : State :=
  let s := sengReset k (orphan (isCtxOf k) s)
  let s := (List.range 16).foldl (fun s e => engReset k (fin 16 e) s) s
  (List.range 8).foldl (fun s c =>
    let b := Blk.check k (fin 8 c)
    setRun (dropBlk (updCheck s (.ord k (fin 8 c)) (fun _ => check0)) b) b .going) s

/-! ### Regions, ports, lane groups -/

/-- A region switched off: its configuration is lost, a load of it ends (R42, R343, R381, R394). -/
def regionFresh (r : Fin 16) (s : State) : State :=
  let s := winAbort r (loadLost r (endRoutes r (leaveLap r s)))
  let s := setRegBit (dropBoundary r s) (ldrKey + Rg.ccfg.RGSTAT + 0x20 * r.val) 0 false
  let s := updRegion (dropInits r s) r (fun g => { region0 with ports := g.ports })
  setUsed (setRun (dropBlk s (.region r)) (.region r) .going) (.region r) false

/-- A port and its lane group as after module reset (R485, R486). -/
def portFresh (p : Fin 96) (s : State) : State :=
  let s := linkDown p (orphan (fun x => match x with | .port j _ => j == p | _ => false) s)
  let s := updPort s p (fun x => { port0 with out := x.out })
  let s := dropBlk (dropBlk s (.port p)) (.lanes p)
  setRun (setUsed (setRun s (.port p) .going) (.port p) false) (.lanes p) .stopped

/-- SOFTRST of a lane group: counters and log cleared, the EQ table kept, STOPPED (R489, R504). -/
def lanesReset (p : Fin 96) (s : State) : State := clearLogs (dropCounts (lanesStop p s) (.lanes p)) (.lanes p)

/-! ### Management blocks -/

/-- SOFTRST of a partition table (R438). -/
def ptabReset (d : Nat) (s : State) : State :=
  let k := Blk.key (.ptab d)
  let s := dropRegs (dropCounts s (.ptab d)) (fun x => x == k + Rg.ptab.PTFAULT)
  { s with net := { s.net with lulls := tset [] s.net.lulls d [] } }

/-- SOFTRST of a probe: registers, counters and trace (R437). -/
def probeReset (d r : Nat) (s : State) : State :=
  let s := dropBlk s (.probe d r)
  let i := 16 * d + r
  { s with net := { s.net with traces := tset [] s.net.traces i [], wrapped := tset false s.net.wrapped i false } }

/-- SOFTRST of the configuration controller: as ABORT, its counters and log cleared (R382). -/
def loaderReset (s : State) : State := clearLogs (dropCounts (ccAbort s) .loader) .loader

/-- SOFTRST of the concentrator (R536). -/
def concReset (s : State) : State :=
  let k := Blk.key .conc
  let s := dropRegs s (fun x => decide (k + Rg.evc.SRCPEND ≤ x ∧ x < k + Rg.evc.SRCPEND + 0x100) || x == k + Rg.evc.NOTIFCNT)
  { s with conc := { s.conc with new := 0 } }

/-- SOFTRST of the broadcaster: a broadcast and an epoch change in progress end; EPAPPLIED stays (R504, R523). -/
def ocastReset (s : State) : State :=
  let b := Blk.ocast
  let w := ocReg s Rg.ocast.EPAPPLIED
  let s := clearLogs (dropCounts (dropBlk { s with ocast := ocast0 } b) b) b
  setReg s (b.key + Rg.ocast.EPAPPLIED) w

/-! ### Stopping and starting a tile (R169, R199, R201, R202) -/

/-- A SEM that waits goes back to the head of the sync queue. -/
def parkSem (u : Unit) : Unit :=
  match u.active with
  | some c => if hOpc c.cmd = 1 then parkHead u else u
  | none => u

/-- A unit that runs begins to stop. -/
def stopUnit (b : Blk) (s : State) : State := if isGoing s b then setRun s b .stopping else s

/-- STOP of the sequencer acts on the whole tile; a waiting WFE retires and re-executes on RUN (R199). -/
def seqStop (t : Fin 64) (s : State) : State :=
  let q := Cpu.tile t
  let s := noEpHold (setRun s (.seq t) .stopping) t
  let s := if (cpu s q).wait = .wfe then boundary q (seqCnt q Rg.seq.INSTRET (updCpu s q (fun p => { p with wait := .none }))) else s
  let s := stopUnit (.vec t) (stopUnit (.row t) s)
  tileSettle t (syncSettle t (updTile s t (fun x => { x with sync := parkSem x.sync })))

/-- A stopped unit runs again. -/
def goUnit (b : Blk) (s : State) : State := if isStopped s b then setRun s b .going else s

/-- RUN of a stopped tile: everything resumes where it was. -/
def seqResume (t : Fin 64) (s : State) : State :=
  let s := goUnit (.vec t) (goUnit (.row t) (setRun s (.seq t) .going))
  strNext t 8 (syncNext t 9 (movNext t (vecNext t (rowPump t s))))

/-- RUN of an IDLE sequencer: it starts at SEQENTRY with the window state of reset (R169). -/
def seqStart (t : Fin 64) (s : State) : State :=
  let a := bits (reg s (Blk.key (.seq t) + Rg.seq.SEQENTRY)) 16 0
  updCpu s (.tile t) (fun p => { p with pc := BitVec.ofNat 64 a, curwin := 0, res := 1, intrap := false, spilled := 0,
                                        live := true, skipBrk := false, wait := .none })

def seqRun (t : Fin 64) (s : State) : State :=
  let b := Blk.seq t
  if isStopped s b then setUsed (seqResume t (recvLost s t)) b true
  else if blkState s b = 2 then setUsed (seqStart t (recvLost s t)) b true
  else setUsed s b true

/-- A table of bytes from address 0. -/
def bytesTab (d : List Byte) : Tab Byte := d.zipIdx.filterMap (fun (b, i) => if b = 0 then none else some (i, b))

/-- A table of n free words from key k. -/
def freeTab (k n : Nat) (s : State) : Tab (BitVec 64) × State :=
  let (d, s) := drawBytes (4 * n) s
  let ws := wordsLE d
  (ws.zipIdx.filterMap (fun (w, i) => if w = 0 then none else some (k + i, w.setWidth 64)), s)

/-- The sequencer's registers, windows and DM are undefined (R201; log entry 3): every control
    register among them, its fields within their ranges; recording and replay have ended. -/
def seqUndef (t : Fin 64) (s : State) : State :=
  let (d, s) := drawBytes 0x10000 s
  let (rs, s) := freeTab 1 135 s
  let (ps, s) := freeTab 0 64 s
  let (v, s) := draw s
  let (c, s) := drawBytes 56 s
  let w (i : Nat) : W32 := (wordsLE c).getD i 0
  let im (i : Nat) : BitVec 64 := BitVec.ofNat 64 ((w i).toNat &&& imMask (.tile t))
  let sp (i : Nat) : BitVec 64 := BitVec.ofNat 64 ((w i).toNat &&& spMask (.tile t))
  updCpu s (.tile t) (fun p =>
    { p with dm := bytesTab d, regs := rs, params := ps, preds := v ||| 1, pc := im 0, trvec := im 1, trpc := im 2,
             trcode := w 3 &&& 0xFFFF, trinfo := (w 4).setWidth 64, spillptr := sp 5, spilllim := sp 6, sevena := w 7, sevpend := w 8,
             sevlatch := w 12 &&& sevMask (.tile t), recNext := bits (w 13) 31 0 % 4097, recRun := nbit (w 9).toNat 10,
             seqepoch := (w 9).setWidth 8, brkaddr := im 10, brkctl := nbit (w 9).toNat 8, intrap := nbit (w 9).toNat 9, tbhi := w 11,
             curwin := bits (w 9) 19 16 % 7, res := 1 + bits (w 9) 23 20 % 7, spilled := bits (w 9) 31 24 })

/-- A unit not in FAULT is STOPPED. -/
def haltUnit (b : Blk) (s : State) : State := if (blkSt s b).run = .fault then s else setRun s b .stopped

/-- STOPNOW of the sequencer acts on the whole tile. -/
def seqStopnow (t : Fin 64) (s : State) : State :=
  let s := movStopnow t (vecStopnow t (rowStopnow (orphan (isCpu (.tile t)) s) t))
  let s := updTile s t (fun x => { x with sync := clearUnit x.sync, str := clearUnit x.str })
  let s := updCpu s (.tile t) (fun p => { p with fifo := [], outst := [], replay := none, live := false, wait := .none,
                                                 recording := false, epSince := none })
  setRun (haltUnit (.vec t) (haltUnit (.row t) (seqUndef t s))) (.seq t) .stopped

/-! ### Tile reset with drain (R507, R508) -/

/-- The tile awaits no response. -/
def tileDrained (s : State) (t : Fin 64) : Bool :=
  match (tile s t).seq.wait with | .load _ _ _ | .store _ => false | _ => true

def endReset (s : State) (key : Nat) : State := { s with power := { s.power with inReset := tdrop (· == key) s.power.inReset } }

def beginReset (s : State) (key : Nat) : State :=
  { s with power := { s.power with inReset := tput key s.clock.now s.power.inReset } }

/-- Reset asserts on a tile. -/
def tileReset (t : Fin 64) (s : State) : State := tileFresh true t (endReset s (128 + t.val))

/-- A tile reset is requested; it asserts at once where nothing is outstanding. -/
def tileResetReq (t : Fin 64) (s : State) : State :=
  if resetting s (.row t) then s
  else if tileDrained s t then tileReset t s else beginReset s (128 + t.val)

/-! ### Requests to a block (R18, R504) -/

/-- RUN, to a block whose state lets it act. -/
def runBlk (b : Blk) (s : State) : State :=
  match b with
  | .row t => rowPump t (setUsed (goUnit b s) b true)
  | .seq t => seqRun t s
  | .vec t => vecNext t (setUsed (goUnit b s) b true)
  | .bank t g => groupRun t g s
  | .seng k => sengRun k s
  | .chan _ _ => goUnit b s
  | .check k c => ckRun (.ord k c) s
  | .pcheck c => ckRun (.priv c) s
  | .nve k e => engRun k e s
  | .pvm k => if isStopped s b then stackDo k (pvmRun k) s else s
  | .region r => if isStopped s b then setUsed (regRun r s) b true else s
  | .port p => portRun p s
  | .lanes p => if isStopped s b then lanesRun p s else s
  | .acnt _ | .probe _ _ | .ptab _ | .loader | .conc | .ptm | .pcie _ | .ocast | .sec => s

/-- STOP, to a block that is IDLE or RUNNING. -/
def stopBlk (b : Blk) (s : State) : State :=
  match b with
  | .row t => rowSettle t (setRun s b .stopping)
  | .seq t => seqStop t s
  | .vec t => vecSettle t (setRun s b .stopping)
  | .bank _ _ => setRun s b .stopped
  | .seng k => sengStop k s
  | .chan k c => stackDo k (fun s => setRun s b (if (chan s k c).queue.isEmpty then .stopped else .stopping)) s
  | .nve k e => engStop k e s
  | .pvm k => stackDo k (fun s => setRun s b (if stackIdle s k then .stopped else .stopping)) s
  | .check k c => setRun s b (if (check s (.ord k c)).busy then .stopping else .stopped)
  | .pcheck c => setRun s b (if (check s (.priv c)).busy then .stopping else .stopped)
  | .region r => regStop r false s
  | .port p => portStop p s
  | .lanes p => lanesStop p s
  | .acnt _ | .probe _ _ | .ptab _ | .loader | .conc | .ptm | .pcie _ | .ocast | .sec => s

/-- STOPNOW, to a block that is IDLE, RUNNING or STOPPING. -/
def stopnowBlk (b : Blk) (s : State) : State :=
  match b with
  | .row t => setRun (rowStopnow s t) b .stopped
  | .seq t => seqStopnow t s
  | .vec t => setRun (vecStopnow t s) b .stopped
  | .seng k => sengStopnow k s
  | .nve k e => engStopnow k e s
  | .check k c => ckStopnow (.ord k c) s
  | .pcheck c => ckStopnow (.priv c) s
  | .region r => regStop r true s
  | .port p => portStopnow p s
  | b => if isGoing s b then stopBlk b s else s

/-- SOFTRST. -/
def softrstBlk (b : Blk) (s : State) : State :=
  match b with
  | .row t | .seq t | .vec t => tileResetReq t s
  | .acnt _ => dropBlk s b
  | .bank t g => groupReset t g s
  | .seng k => sengReset k (orphan (isCtxOf k) s)
  | .chan k c => stackDo k (chanReset k c) s
  | .nve k e => engReset k e s
  | .pvm k => pvmReset k s
  | .check k c => ckReset (.ord k c) s
  | .pcheck c => ckReset (.priv c) s
  | .region r => regionReset r s
  | .port p => portReset p s
  | .lanes p => lanesReset p s
  | .ptab d => ptabReset d s
  | .probe d r => probeReset d r s
  | .loader => loaderReset s
  | .conc => concReset s
  | .ptm => clearLogs (dropCounts s b) b
  | .ocast => ocastReset s
  | .pcie _ | .sec => clearLogs (dropCounts s b) b

/-- The highest-priority request of a BLKCTL write, where the block's state lets it act: nothing while its domain is off
    (R44), RUN only in IDLE, RUNNING or STOPPED, STOP in IDLE or RUNNING, STOPNOW also in STOPPING (R504); a sequencer that
    zeroes its memories takes SOFTRST alone. -/
def blkReq (b : Blk) (v : W32) (s : State) : State :=
  let st := blkState s b
  if st < 2 then s
  else if v.getLsbD 3 then softrstBlk b s
  else if zeroingBlk s b then s
  else if v.getLsbD 2 then (if st = 2 ∨ st = 3 ∨ st = 4 then stopnowBlk b s else s)
  else if v.getLsbD 1 then (if st = 2 ∨ st = 3 then stopBlk b s else s)
  else if v.getLsbD 0 then (if st = 2 ∨ st = 3 ∨ st = 5 then runBlk b s else s)
  else s

/-- The pages whose levels a request to a block can change. -/
def ctlPages : Blk → List (Blk × Nat)
  | .region r => regPages r ++ [(.ptab (96 + r.val / 4), 0)]
  | .port p | .lanes p => portPages p
  | b => blkPages b

/-- A write to BLKCTL: the epoch field, then the request. -/
def blkctl (b : Blk) (v : W32) (s : State) : State :=
  watched (ctlPages b) (fun s => blkReq b v (epochRequest b (BitVec.ofNat 8 (bits v 15 8)) s)) s

/-- BLOCK_STOPPED: what a stopping block still did has ended. -/
def blockStopped (b : Blk) (s : State) : State :=
  if (blkSt s b).run ≠ .stopping ∨ !blkOn s b then s
  else match b with
  | .row t | .seq t | .vec t => tileSettle t (syncSettle t s)
  | .seng k => sengSettle k s
  | .nve k e => engSettle k e s
  | .region r => quiesced r s
  | .port p => portSettle p s
  | .chan k c => if (chan s k c).queue.isEmpty then setRun s b .stopped else s
  | .pvm k => if stackIdle s k then setRun s b .stopped else s
  | b => setRun s b .stopped
def execBlockStopped (b : Blk) (s : State) : Out := actIf b.wf (watched (ctlPages b) (blockStopped b)) s

/-! ### Die reset (R506, R507) -/

/-- Blocks of a die outside its network spine that a die reset reaches: those present with their domain on. -/
def dieBlks (d : Nat) : List Blk :=
  let grp (t : Nat) : List Blk := (List.range 4).map (fun g => Blk.bank (fin 64 t) (fin 4 g))
  match dieKind d with
  | .anvil => (List.range 16).flatMap (fun l => tileBlks (fin 64 (16 * d + l)) ++ grp (16 * d + l))
  | .scratch => (List.range 16).flatMap (fun l => grp (16 * (d - 4) + l))
  | .base =>
    let k : Fin 8 := fin 8 ((d - 8) / 11)
    [.seng k, .pvm k] ++ (List.range 32).map (fun c => .chan k (fin 32 c)) ++ (List.range 16).map (fun e => .nve k (fin 16 e)) ++
      (List.range 8).map (fun c => .check k (fin 8 c))
  | .fabric => (List.range 4).map (fun q => .region (fin 16 (4 * (d - 96) + q)))
  | .horizon => (List.range 32).flatMap (fun i => [.port (fin 96 (32 * (d - 100) + i)), .lanes (fin 96 (32 * (d - 100) + i))])
  | _ => []

/-- Reset of one block at die scope. -/
def dieBlkReset (b : Blk) (s : State) : State :=
  if !live s b then s
  else match b with
  | .row t => tileFresh true t s
  | .seq _ | .vec _ | .acnt _ => s
  | .lanes _ => s
  | .port p => portFresh p s
  | .seng k => sengReset k (orphan (isCtxOf k) s)
  | b => softrstBlk b s

/-- The sources of a die's blocks. -/
def srcOnDie (d : Nat) : Src → Bool
  | .cpu (.tile t) => t.val / 16 == d
  | .ctx k _ _ _ => 8 + 11 * k.val == d
  | .region r _ => 96 + r.val / 4 == d
  | .port p _ => 100 + p.val / 32 == d
  | _ => false

/-- The blocks of a die await no response. -/
def dieDrained (s : State) (d : Nat) : Bool :=
  !s.net.outst.any (fun o => srcOnDie d o.1) &&
  s.ctxs.all (fun e => 8 + 11 * (e.1 / 2048) != d || drained e.2)

/-- Reset asserts on a die. -/
def dieAssert (d : Nat) (s : State) : State :=
  (dieBlks d).foldl (fun s b => dieBlkReset b s) (orphan (srcOnDie d) (endReset s d))

/-- Pages whose levels a die's reset can change. -/
def diePages (d : Nat) : List (Blk × Nat) := ((dieBlks d).flatMap ctlPages).eraseDups

/-- The partitions owning a block on a die. -/
def dieOwners (s : State) (d : Nat) : List (BitVec 4) :=
  (((dieBlks d).filter (fun b => tableDie b.die == tableDie d && !absent s b)).map (ownerOf s)).eraseDups

/-- RSTREQ with GO: a die is reset once its blocks have drained; every partition owning a block on it has a fault. -/
def dieReset (v : W32) (s : State) : State :=
  let d := bits v 6 0
  if !v.getLsbD 8 then s
  else if dieKind d = .none ∨ dieKind d = .zenith ∨ dieKind d = .core then
    logE s (Blk.key .ptm) (w32 (0x03 + d * 2 ^ 8)) (w32 Rg.ptm.RSTREQ)
  else
    let s := (dieOwners s d).foldl (fun s p => partFault s d p) (if resetting s ((dieBlks d).headD .ptm) then s else beginReset s d)
    if dieDrained s d then watched (diePages d) (dieAssert d) s else s

/-- Resets whose drain has ended assert. -/
def resetSettle (s : State) : State :=
  s.power.inReset.foldl (fun s e =>
    if e.1 < 128 then (if dieDrained s e.1 then watched (diePages e.1) (dieAssert e.1) s else s)
    else
      let t : Fin 64 := fin 64 (e.1 - 128)
      if tileDrained s t then watched (tilePages t) (tileReset t) s else s) s

/-- RESET_DRAIN_TIMEOUT: a drain of 1 ms ends, later responses are discarded (R507). -/
def drainTimeout (die : BitVec 7) (tile : Option (Fin 64)) (s : State) : State :=
  let key := match tile with | some t => 128 + t.val | none => die.toNat
  match s.power.inReset.find? (fun e => e.1 == key) with
  | none => s
  | some (_, t0) =>
    if now s < t0.toNat + 1000000 then s
    else
      let d := match tile with | some t => t.val / 16 | none => die.toNat
      let s := logE s (Blk.key .ptm) (w32 (0x02 + d * 2 ^ 8))
      match tile with
      | some t => watched (tilePages t) (tileReset t) s
      | none => watched (diePages key) (dieAssert key) s
def execResetDrainTimeout (die : BitVec 7) (tile : Option (Fin 64)) (s : State) : Out := act (drainTimeout die tile) s

/-! ### Domains (R40, R42) -/

/-- The state of a domain's blocks, lost when it is switched off. -/
def domainFresh (d : Nat) (s : State) : State :=
  if d < 64 then tileFresh false (fin 64 d) s
  else if d < 72 then sectionFresh (fin 8 (d - 64)) s
  else if d < 88 then regionFresh (fin 16 (d - 72)) s
  else if d < 91 then (List.range 32).foldl (fun s i => portFresh (fin 96 (32 * (d - 88) + i)) s) s
  else (List.range 64).foldl (fun s i => groupFresh (fin 64 (16 * (d - 91) + i / 4)) (fin 4 i) s) s

/-- The blocks of a domain. -/
def domBlks (d : Nat) : List Blk :=
  if d < 64 then tileBlks (fin 64 d)
  else if d < 72 then
    let k : Fin 8 := fin 8 (d - 64)
    .seng k :: (List.range 16).map (fun e => Blk.nve k (fin 16 e)) ++ (List.range 8).map (fun c => Blk.check k (fin 8 c))
  else if d < 88 then [.region (fin 16 (d - 72))]
  else if d < 91 then (dieBlks (100 + (d - 88)))
  else dieBlks (4 + (d - 91))

/-- The units of a domain that hold a mode. -/
def domUnits (d : Nat) : List ModeUnit := (domBlks d).filterMap modeUnit

/-- The pages whose levels a domain can change. -/
def domPages (d : Nat) : List (Blk × Nat) := ((domBlks d).flatMap ctlPages).eraseDups

end Sys2Proof.Machine
end

