-- ==== Sys2Proof/Machine/Lull.lean ====
section
/-! DEFINITION. The lull watchdog: the nine kinds of timed waits, their limit, and the reports of those that exceed it
    (R277-R279, R434). -/

namespace Sys2Proof.Machine

/-- A timed wait: its kind, the block and the context in it, what tells two waits of one context apart, the partition,
    tile and counter awaited, the value awaited, the counter's value, and since when. -/
structure Wait9 where
  kind : Nat
  blk : Blk
  sub : Nat
  side : Nat
  part : BitVec 4
  tile : Nat
  cnt : Nat
  val : W32
  cur : W32
  since : BitVec 64

/-- A wait that has begun. -/
def began (t : Option (BitVec 64)) (f : BitVec 64 → Wait9) : List Wait9 := match t with | some a => [f a] | none => []

/-- Waits of a tile: a SEM, and an epoch hold at the head of the FIFO. -/
def tileWaits (s : State) (t : Fin 64) : List Wait9 :=
  let x := tile s t
  let p := tileOwner s t
  (match x.sync.active with
   | some c =>
     if x.sync.waiting ∧ hOpc c.cmd = 1 then
       [{ kind := 0, blk := .seq t, sub := 0, side := 0, part := p, tile := t.val, cnt := sCnt c.cmd, val := c.cmd.w2,
          cur := cntVal s t (sCnt c.cmd), since := x.sync.since }]
     else []
   | none => []) ++
  began x.seq.epSince (fun a =>
    { kind := 1, blk := .seq t, sub := 0, side := 0, part := p, tile := 0, cnt := 0,
      val := (match x.seq.fifo with | f :: _ => f.epoch.setWidth 32 | [] => 0), cur := 0, since := a })

/-- A cursor's wait at its mark. -/
def markWait (s : State) (k : Fin 8) (x : Fin 2048) (side : Nat) (c : Cursor) : List Wait9 :=
  match c.blk with
  | some d =>
    if dLx d then []
    else began c.since (fun a =>
      { kind := 2, blk := .seng k, sub := x.val, side, part := ctxOwn s k x, tile := (dDtile d).val, cnt := dDcnt d,
        val := dVal d + c.bias, cur := cntVal s (dDtile d) (dDcnt d), since := a })
  | none => []

/-- Waits of a context. -/
def ctxTimed (s : State) (k : Fin 8) (x : Fin 2048) (c : Ctx) : List Wait9 :=
  let plain (kind : Nat) (a : BitVec 64) : Wait9 :=
    { kind, blk := .seng k, sub := x.val, side := 0, part := ctxOwn s k x, tile := 0, cnt := 0, val := 0, cur := 0, since := a }
  markWait s k x 0 c.rcur ++ markWait s k x 1 c.wcur ++ (if timed c.rcur then began c.bufSince (plain 3) else []) ++
    (if timed c.wcur then began c.stgSince (plain 4) else [])

/-- Waits of a Nimbus engine: an NWAIT, and the ring held for its epoch. -/
def engWaits (s : State) (k : Fin 8) (e : Fin 16) (u : Unit) : List Wait9 :=
  let p := ownerOf s (.nve k e)
  (match u.active with
   | some c =>
     if u.waiting ∧ hOpc c.cmd = 0x1A then
       [{ kind := 5, blk := .nve k e, sub := 0, side := 0, part := p, tile := (nwTile c.cmd).val, cnt := nwCnt c.cmd, val := c.cmd.w2,
          cur := cntVal s (nwTile c.cmd) (nwCnt c.cmd), since := u.since }]
     else []
   | none => []) ++
  began u.epSince (fun a =>
    { kind := 6, blk := .nve k e, sub := 0, side := 0, part := p, tile := 0, cnt := 0,
      val := reg s (neKey k e + Rg.nve.NEEPOCH), cur := 0, since := a })

/-- The wait of a check channel at its dependence, while it is not stopped. -/
def checkWait (s : State) (i : Nat) (x : Check) : List Wait9 :=
  let c : Ck := if i < 64 then .ord (fin 8 (i / 8)) (fin 8 i) else .priv (fin 4 (i - 64))
  let w := ckReg s c Rg.ck.CKDEP
  if x.busy && x.waitDep && isGoing s c.blk then
    [{ kind := 7, blk := c.blk, sub := 0, side := 0, part := ownerOf s c.blk, tile := (ckTile w).val, cnt := ckCnt w,
       val := ckReg s c Rg.ck.CKDVAL, cur := cntVal s (ckTile w) (ckCnt w), since := x.since }]
  else []

/-- Accesses that a frozen channel holds, timed for their requesters. -/
def heldWaits (k : Fin 8) (c : Fin 32) (x : Chan) : List Wait9 :=
  if x.frozen.isNone then []
  else x.queue.zipIdx.filterMap (fun (q, i) =>
    if q.acked then none
    else some
      { kind := 8, blk := .chan k c, sub := 0, side := i, part := q.req.who.part, tile := 0, cnt := 0, val := 0, cur := 0,
        since := if q.arrived < x.frozenAt then x.frozenAt else q.arrived })

/-- Every timed wait of the module. -/
def allWaits (s : State) : List Wait9 :=
  s.tiles.flatMap (fun e => tileWaits s (fin 64 e.1)) ++
  s.ctxs.flatMap (fun e => ctxTimed s (fin 8 (e.1 / 2048)) (fin 2048 e.1) e.2) ++
  s.engs.flatMap (fun e => engWaits s (fin 8 (e.1 / 16)) (fin 16 e.1) e.2) ++
  s.checks.flatMap (fun e => checkWait s e.1 e.2) ++
  s.chans.flatMap (fun e => heldWaits (fin 8 (e.1 / 32)) (fin 32 e.1) e.2)

/-- What tells a wait from every other. -/
def waitId (w : Wait9) : Wt := { kind := w.kind, blk := w.blk.key, sub := 2 * w.sub + w.side, since := w.since }

/-- The words of a report. -/
def waitReport (w : Wait9) : Lull :=
  { w0 := w32 (w.blk.code + w.blk.inst * 2 ^ 8 + w.sub * 2 ^ 16 + w.kind * 2 ^ 28),
    w1 := w32 (w.part.toNat + w.tile * 2 ^ 8 + w.cnt * 2 ^ 16), w2 := w.val, w3 := w.cur }

/-- The descriptor of a context's wait, and the counter it waits for. -/
def waitDesc (s : State) (k : Fin 8) (w : Wait9) : Nat × Nat :=
  let c := ctx s k (fin 2048 w.sub)
  let cur := if w.kind = 4 ∨ (w.kind = 2 ∧ w.side = 1) then c.wcur else c.rcur
  (match cur.blk with | some d => d.at_.toNat | none => 0,
   if w.kind = 2 then 2 * 2 ^ 40 + cntKey (fin 64 w.tile) w.cnt else 0)

/-- A lull fault is declared. -/
def declare1 (w : Wait9) (s : State) : State :=
  let s := { s with net := { s.net with waits := s.net.waits ++ [waitId w] } }
  let s := match w.blk with
    | .seng k =>
      let (d, a) := waitDesc s k w
      let side : Side := if w.kind = 4 ∨ (w.kind = 2 ∧ w.side = 1) then .write else .read
      pulse (bump (sengLog s k (fin 2048 w.sub) 0x08 d a side 0) (sengKey k + Rg.seng.LULLCNT)) (sengKey k) 6
    | _ => s
  lullReport s w.blk.die w.part (waitReport w)

/-- LULL_CHECK: waits longer than their partition's limit that have not been declared yet. -/
def lullCheck (s : State) : State :=
  let ws := allWaits s
  let s := { s with net := { s.net with waits := s.net.waits.filter (fun i => ws.any (fun w => waitId w == i)) } }
  ws.foldl (fun s w =>
    if !s.net.waits.contains (waitId w) && decide (w.since.toNat + lullLimit s w.blk.die w.part < now s) then declare1 w s else s) s
def execLullCheck (s : State) : Out := act lullCheck s

end Sys2Proof.Machine
end

