-- ==== Sys2Proof/Machine/Power.lean ====
section
/-! DEFINITION. Start-up, module reset, discovery, the Overcast broadcaster, mode epochs, power domains, capping and
    temperatures (R490-R523). -/

namespace Sys2Proof.Machine

def ptmKey : Nat := Blk.key .ptm
def ptmReg (s : State) (o : Nat) : W32 := reg s (ptmKey + o)
def ocKey : Nat := Blk.key .ocast

/-- An entry of the manager's log: code, domain or die, register offset or request value (R522). -/
def ptmLog (s : State) (code d : Nat) (w1 : Nat) : State := logE s ptmKey (w32 (code + d % 128 * 2 ^ 8)) (w32 w1)

/-- A change seen on the manager's page. -/
def ptmDo (f : State → State) : State → State := watched [(.ptm, 0)] f

/-! ### Module reset (R490, R493, R506) -/

/-- The supplies and reset pins let the module run. -/
def pinsRun (p : Pins) : Bool := p.p48 && p.vsb && !p.mrstLow && p.pwrgd

/-- The module after module reset: everything but the fuses, the timebase, the arrays of scratch and DRAM, LASTSHUT and
    what has left the module. A zero sweep that ran ends early (R239). It enters BOOT where its pins let it run. -/
def moduleReset (s : State) : State :=
  let cut := (s.banks.filter (fun e => e.2.sweep)).map (fun e => Blk.key (.bank (fin 64 (e.1 / 4)) (fin 4 e.1)) + Rg.bank.SWEEPPROG)
  let s := s.banks.foldl (fun s e => sweepCut (fin 64 (e.1 / 4)) (fin 4 e.1) s) s
  let z := State.reset
  let last := ptmReg s Rg.ptm.LASTSHUT
  let t : State := { z with
    fuses := s.fuses, clock := s.clock, frees := s.frees, dram := s.dram, scr := s.scr, scrChk := s.scrChk,
    pins := { s.pins with thermtrip := false },
    host := { z.host with out := s.host.out, clksel := s.host.clksel }, mgmt := s.mgmt,
    power := { z.power with mst := if pinsRun s.pins then .boot else .reset } }
  setReg (cut.foldl (fun t k => setReg t k (reg s k)) t) (ptmKey + Rg.ptm.LASTSHUT) last

/-- MODCMD MODRST, with its key. -/
def modrst (v : W32) (s : State) : State := if v.getLsbD 1 ∧ bits v 31 16 = 0xD1E5 then moduleReset s else s

/-- Firmware runs on the management cores: from INIT on (R494), not in BOOTFAIL (R496). -/
def firmwareRuns (s : State) : Bool := !(s.power.mst == .reset || s.power.mst == .boot || s.power.mst == .bootfail)

/-- ZENITH_FIRMWARE_WATCHDOG: while the module's firmware runs. -/
def firmwareWatchdog (s : State) : State := if firmwareRuns s then moduleReset s else s
def execZenithFirmwareWatchdog (s : State) : Out := act firmwareWatchdog s

/-! ### ROM (R493, R494, R496) -/

/-- Step 1 of the ROM over an image. -/
def fwHeaderOk (h : List Byte) : Bool :=
  let n := leAt h 8 4
  let e := leAt h 0xC 4
  leAt h 0 4 == 0x57465A42 && leAt h 4 2 == 1 && zeroAt h 6 2 && n % 64 == 0 && decide (64 ≤ n ∧ n ≤ 0x400000) && e % 4 == 0 &&
  decide (e < n) && decide (leAt h 0x10 1 < 6) && zeroAt h 0x11 7 && zeroAt h 0xB0 1488 && zeroAt h 0x6E0 288

/-- Steps 2 and 3: key and signature. -/
def fwSigned (s : State) (h : List Byte) : Bool :=
  let pub := (h.drop 0x20).take 96
  sigHash s (leAt h 0x10 1) == some (sha384 pub) &&
  ecdsaOk (beAt h 0x20 48) (beAt h 0x50 48) (beAt h 0x680 48) (beAt h 0x6B0 48) (sha384 (h.take 0x680))

/-- An image as the ROM takes it: whether it passes, and boot memory as the ROM leaves it. -/
def romImage (s : State) (img : List Byte) (mem : Tab Byte) : Bool × Tab Byte :=
  let n := leAt img 8 4
  if decide (img.length < 0x800 + n) || !fwHeaderOk img || !fwSigned s img then (false, mem)
  else
    let body := (img.drop 0x800).take n
    (sha384 body == BitVec.ofNat 384 (beAt img 0x80 48), bytesTab body ++ mem.filter (fun e => decide (n ≤ e.1)))

/-- The cores start at ENTRY of the image that passed. -/
def startCores (img : List Byte) (mem : Tab Byte) (s : State) : State :=
  let p := { proc0 with pc := BitVec.ofNat 64 (leAt img 0xC 4), live := true }
  let s := (List.range 4).foldl (fun s k => setCpu s (.core (fin 4 k)) p) s
  { s with bootMem := mem, power := { s.power with mst := .init } }

/-- ROM_BOOT: the image at 0x0000_0000, then the backup at 0x0080_0000. -/
def romBoot (image backup : List Byte) (s : State) : State :=
  if s.power.mst ≠ .boot then s
  else
    let (ok, m) := romImage s image s.bootMem
    if ok then startCores image m s
    else
      let (ok, m) := romImage s backup m
      if ok then startCores backup m s else { s with bootMem := m, power := { s.power with mst := .bootfail } }
def execRomBoot (image backup : List Byte) (s : State) : Out := act (ptmDo (romBoot image backup)) s

/-! ### The floor plan record (R49-R52) -/

/-- The word at byte offset o of the record. -/
def fprWord (f : Fpr) (o : Nat) : W32 :=
  if o = 0 then f.hdr else if o = 4 then f.ordcode
  else if o < 0x10 then w32 (f.serial.toNat / 2 ^ (8 * (o - 8)))
  else if o < 0x18 then w32 (f.tileGood.toNat / 2 ^ (8 * (o - 0x10)))
  else if o < 0x1C then f.counts else if o < 0x20 then 0
  else if o < 0x40 then w32 (f.scrBad.toNat / 2 ^ (8 * (o - 0x20)))
  else if o < 0x48 then w32 (f.dramFail.toNat / 2 ^ (8 * (o - 0x40)))
  else if o < 0x54 then w32 (f.portBad.toNat / 2 ^ (8 * (o - 0x48)))
  else if o = 0x54 then f.fabStat else if o = 0xFFC then f.crc else 0

/-- The record's 4 KiB. -/
def fprBytes (f : Fpr) : List Byte := bytesOf ((List.range 1024).map (fun i => fprWord f (4 * i)))

/-- A byte of DRAMFAIL names at most one core, of 0 to 9, and its reserved bits are 0 (R49, R50). -/
def dramFailOk (f : Fpr) (k : Nat) : Bool :=
  let b := bits f.dramFail (8 * k + 7) (8 * k)
  decide (b / 16 % 8 = 0 ∧ b % 16 < 10)

/-- FPRCRC agrees, COUNTS are those of the masks and meet R3, and DRAMFAIL is legal (R50). -/
def fprOk (f : Fpr) : Bool :=
  let good (n : Nat) (p : Nat → Bool) : Nat := ((List.range n).filter p).length
  let tiles := good 64 f.tileGood.getLsbD
  let ports := good 96 (fun p => !f.portBad.getLsbD p)
  let regions := good 16 (fun r => bits f.fabStat (2 * r + 1) (2 * r) == 0)
  f.crc.toNat == crcOf crc32c ((fprBytes f).take 0xFFC) && bits f.counts 7 0 == tiles && bits f.counts 15 8 == ports &&
  bits f.counts 23 16 == regions && bits f.counts 31 24 == 8 && decide (60 ≤ tiles ∧ 94 ≤ ports ∧ 15 ≤ regions) &&
  (List.range 8).all (dramFailOk f)

/-- The ordering code's power cap, in W (R2). -/
def ordCap (f : Fpr) : Nat := if f.ordcode.toNat % 4 = 1 then 3600 else 4000

/-! ### The board record (R497, R498) -/

/-- The record is authentic and every field within its range. -/
def boardOk (s : State) (b : List Byte) : Bool :=
  let slot := leAt b 0x7F00 1
  let gib := leAt b 0x14 4 % 64
  let vmin := leAt b 0x18 4 / 2 ^ 16 % 1024
  b.length == 0x8000 && leAt b 0 4 == 0x80000001 && zeroAt b 0x10 4 && zeroAt b 0xA0 96 && zeroAt b 0x5B00 9216 &&
  zeroAt b 0x7F01 63 && decide (2 ≤ slot ∧ slot < 6) && decide (1 ≤ gib ∧ gib ≤ 32) &&
  decide (leAt b 0x14 4 / 2 ^ 16 % 0x2000 ≤ ordCap s.fuses.fpr) && decide (600 ≤ vmin ∧ vmin ≤ 720) &&
  sigHash s slot == some (sha384 ((b.drop 0x7F40).take 96)) &&
  ecdsaOk (beAt b 0x7F40 48) (beAt b 0x7F70 48) (beAt b 0x7FA0 48) (beAt b 0x7FD0 48) (sha384 (b.take 0x7FA0))

/-- What the record accepts as bad. -/
def boardAcc (b : List Byte) : Accepted :=
  { tiles := BitVec.ofNat 64 (leAt b 0x20 8), groups := BitVec.ofNat 256 (leAt b 0x28 32), dram := BitVec.ofNat 64 (leAt b 0x48 8),
    ports := BitVec.ofNat 96 (leAt b 0x50 12),
    regions := BitVec.ofNat 16 (wordOf (fun r => leAt b 0x5C 4 / 4 ^ r % 4 != 0) 16) }

/-! ### Discovery (R499, R500) -/

/-- A DRAM core marked bad in a field of R49's layout. -/
def coreIn (m : BitVec 64) (i : Nat) : Bool := let y := bits m (8 * (i / 10) + 7) (8 * (i / 10)); y / 128 == 1 && y % 16 == i % 10

/-- The disagreements, in R499's order: DISCSTAT bit, die, resource. -/
def disagreements (s : State) (a : Accepted) (board : Option (List Byte)) (rep : Report) : List (Nat × Nat × Nat) :=
  let f := s.fuses.fpr
  let new (p : Nat → Bool) (l : List Nat) : List Nat := l.filter (fun i => !p i)
  rep.silent.map (fun d => (8, d.toNat, 0)) ++ rep.wrongId.map (fun d => (8, d.toNat, 0)) ++
  (new (fun t => !f.tileGood.getLsbD t || a.tiles.getLsbD t) (rep.tiles.map (·.val))).map (fun t => (3, t / 16, t)) ++
  (new (fun g => f.scrBad.getLsbD g || a.groups.getLsbD g) (rep.groups.map (·.val))).map (fun g => (4, 4 + g / 64, g)) ++
  (new (fun c => coreIn f.dramFail c || coreIn a.dram c) (rep.cores.map (·.val))).map (fun c => (5, 9 + 11 * (c / 10) + c % 10, c)) ++
  (new (fun p => f.portBad.getLsbD p || a.ports.getLsbD p) (rep.ports.map (·.val))).map (fun p => (6, 100 + p / 32, p)) ++
  (new (fun r => bits f.fabStat (2 * r + 1) (2 * r) != 0 || a.regions.getLsbD r) (rep.regions.map (·.val))).map
    (fun r => (7, 96 + r / 4, r)) ++
  ((s.chans.filter (fun e => e.2.failed || e.2.frozen.isSome)).map (fun e => (9, 8 + 11 * (e.1 / 32), e.1))) ++
  (match board with
   | some b => if leAt b 8 8 != f.serial.toNat || leAt b 4 4 != f.ordcode.toNat then [(2, 103, 0)] else []
   | none => [])

/-- The caches of the management cores hold nothing; what they had modified is written back. -/
def dropCoreCaches (s : State) : State :=
  s.net.dir.foldl (fun s e => if e.1 % 32 < 4 then dropCopy (wbCopy s (e.1 / 32) (e.1 % 32)) (e.1 / 32) (e.1 % 32) else s) s

/-- A domain is off; `asleep`: with wake allowed. -/
def domainOff (asleep : Bool) (d : Nat) (s : State) : State :=
  watched (domPages d) (fun s =>
    let s := (domUnits d).foldl (fun s u => epochReport u s) (domainFresh d s)
    { s with power := { s.power with on := clrBit s.power.on d, fenced := clrBit s.power.fenced d,
                                     sleep := if asleep then putBit s.power.sleep d else clrBit s.power.sleep d } }) s

/-- Discovery and comparison: the verdict in DISCSTAT and DISCDIE, what the board record accepts is held as bad, and
    MODSTATE follows. -/
def compareTopology (board : List Byte) (rep : Report) (s : State) : State :=
  let fok := fprOk s.fuses.fpr
  let bok := boardOk s board
  let a := if bok then boardAcc board else acc0
  let ds := disagreements s a (if bok then some board else none) rep
  let st := wordOf (fun i => (i == 0 && !fok) || (i == 1 && !bok) || ds.any (fun d => d.1 == i)) 10
  let first := match ds with | (_, d, i) :: _ => w32 (d + i * 2 ^ 8) | [] => 0
  let s := setReg (setReg { s with acc := a } (ptmKey + Rg.ptm.DISCSTAT) (w32 st)) (ptmKey + Rg.ptm.DISCDIE) first
  let s := (List.range 95).foldl (fun s d => if domOn s d && domBad s d then domainOff false d s else s) s
  { s with power := { s.power with mst := if st = 0 then .ready else .mismatch } }

/-- DISCOVERY ends start-up: the copy of the floor plan record is in the system region (R52), boot memory leaves the map
    and the cores' caches are invalidated (R494). -/
def discovery (board : List Byte) (rep : Report) (s : State) : State :=
  if s.power.mst ≠ .init then s
  else
    let s := (memWrite s coreInit sysBase (fprBytes s.fuses.fpr)).st
    dropCoreCaches (compareTopology board rep s)
def execDiscovery (board : List Byte) (rep : Report) (s : State) : Out := act (ptmDo (discovery board rep)) s

/-- MODCMD REDISCOVER (R500). -/
def rediscover (v : W32) (board : List Byte) (rep : Report) (s : State) : State :=
  if v.getLsbD 0 ∧ (s.power.mst = .ready ∨ s.power.mst = .mismatch) then compareTopology board rep s else s

/-! ### Firmware broadcast (R501-R503) -/

def recvOf (s : State) (t : Fin 64) : Recv := tget recv0 s.ocast.rx t.val
def updRecv (s : State) (t : Fin 64) (f : Recv → Recv) : State :=
  { s with ocast := { s.ocast with rx := tupd recv0 s.ocast.rx t.val f } }

/-- The tiles of OCMASK. -/
def ocTiles (s : State) : List (Fin 64) :=
  ((List.range 64).filter (fun t => (ocReg s (Rg.ocast.OCMASK + 4 * (t / 32))).getLsbD (t % 32))).map (fin 64)

/-- A tile takes Overcast data: present, on, its sequencer IDLE or STOPPED. -/
def ocTakes (s : State) (t : Fin 64) : Bool :=
  let b := blkState s (.seq t)
  tileOn s t && (b == 2 || b == 5)

def ocLen (s : State) : Nat := bits (ocReg s Rg.ocast.OCLEN) 17 0
def ocDm (s : State) : Bool := (ocReg s Rg.ocast.OCDEST).getLsbD 28
def ocOff (s : State) : Nat := bits (ocReg s Rg.ocast.OCDEST) 16 0

/-- OCCMD SEND: the source is read and its packets leave. -/
def ocSend (s : State) : State :=
  if s.ocast.busy then logE s ocKey 0x01
  else
    let a := (addrOf (ocReg s Rg.ocast.OCSRC &&& 0xFFFFFFC0) (ocReg s Rg.ocast.OCSRCH)).toNat
    let m := memRead s zenithInit a (ocLen s)
    let s := { m.st with ocast := { m.st.ocast with busy := true, data := m.data, srcErr := m.rsn != 0, rx := [] } }
    let s := setReg (setReg s (ocKey + Rg.ocast.OCFAIL) 0) (ocKey + Rg.ocast.OCFAIL + 4) 0
    (ocTiles s).foldl (fun s t => if ocTakes s t then s else updRecv s t (fun x => { x with failed := true })) s

/-- Bytes into IM or DM from an offset; none beyond the memory's top. -/
def ocPut (s : State) (t : Fin 64) (off : Nat) (d : List Byte) : State :=
  updCpu s (.tile t) (fun p =>
    if ocDm s then { p with dm := putBytes p.dm off (d.take (0x10000 - off)) }
    else { p with im := putBytes p.im off (d.take (0x20000 - off)) })

/-- OVERCAST_PACKET: tile t receives the next packet; the final one carries the CRC. -/
def overcastPacket (t : Fin 64) (d : List Byte) (last : Option W32) (s : State) : State :=
  let x := recvOf s t
  if !s.ocast.busy || s.ocast.srcErr || !(ocTiles s).contains t || x.fin || x.failed then s
  else if !ocTakes s t then updRecv s t (fun x => { x with failed := true })
  else
    let s := ocPut s t (ocOff s + x.pos) d
    let crc := crcFeed crc32c x.crc.toNat d
    let bad := match last with | some c => crcEnd crc32c crc != c.toNat | none => false
    updRecv s t (fun x => { x with crc := w32 crc, pos := x.pos + d.length, fin := last.isSome, failed := bad })
def execOvercastPacket (t : Fin 64) (data : List Byte) (last : Option W32) (s : State) : Out :=
  act (overcastPacket t data last) s

/-- A tile failed the broadcast (R502). -/
def ocFailed (s : State) (t : Fin 64) : Bool :=
  s.ocast.srcErr || !ocTakes s t || (recvOf s t).failed || !(recvOf s t).fin ||
    crcEnd crc32c (recvOf s t).crc.toNat != crcOf crc32c s.ocast.data

/-- BROADCAST_COMPLETE: every tile has received the final packet or failed, or the source could not be read. -/
def broadcastDone (s : State) : State :=
  if !s.ocast.busy || !(s.ocast.srcErr || (ocTiles s).all (fun t => (recvOf s t).fin || (recvOf s t).failed || !ocTakes s t))
  then s
  else
    let n := ocLen s
    let off := ocOff s
    let bad := (ocTiles s).filter (ocFailed s)
    let s := if s.ocast.srcErr then logE s ocKey 0x02 else s
    let s := bad.foldl (fun s t =>
      let s := setRegBit s (ocKey + Rg.ocast.OCFAIL + 4 * (t.val / 32)) (t.val % 32) true
      let s := if s.ocast.srcErr then s else logE s ocKey 0x03 (w32 t.val)
      if tileOn s t then let (d, s) := drawBytes n s; ocPut s t off d else s) s
    let s := setReg s (ocKey + Rg.ocast.OCCRC) (w32 (crcOf crc32c s.ocast.data))
    pulse { s with ocast := { s.ocast with busy := false, data := [], srcErr := false, rx := [] } } ocKey 0
def execBroadcastComplete (s : State) : Out := act broadcastDone s

/-! ### Mode epochs (R511-R513) -/

/-- Every powered unit that holds a mode. -/
def modeUnits (s : State) : List ModeUnit :=
  let ts := (List.range 64).flatMap (fun t => [ModeUnit.row (fin 64 t), ModeUnit.vec (fin 64 t)])
  let es := (List.range 128).map (fun i => ModeUnit.nve (fin 8 (i / 16)) (fin 16 i))
  (ts ++ es).filter (fun u => live s u.blk)

/-- OCCMD EPOCH. -/
def ocEpoch (s : State) : State :=
  let e := ocReg s Rg.ocast.EPVAL
  if s.ocast.epBusy then logE s ocKey 0x01
  else if bits e 7 0 = bits (ocReg s Rg.ocast.EPAPPLIED) 7 0 then logE s ocKey 0x05
  else
    let us := modeUnits s
    let s := { s with ocast := { s.ocast with epBusy := true, epAt := s.clock.now, epUnits := us } }
    let s := us.foldl (fun s u => setReqEpoch s u.blk (BitVec.ofNat 8 e.toNat)) s
    epochDone ((List.range 64).foldl (fun s t => if tileOn s (fin 64 t) then sev s (fin 64 t) 10 else s) s)

/-- EPOCH_TIMEOUT: a unit not yet reported 1 ms after the command is stopped, its owner's partition faults, and it applies
    the epoch at once. -/
def epochStop (u : ModeUnit) (s : State) : State :=
  let b := u.blk
  let e := ocReg s Rg.ocast.EPVAL
  let w := w32 (b.die + b.code * 2 ^ 16 + b.inst * 2 ^ 24)
  watched (blkPages b) (fun s =>
    let s := blkReq b 4 s
    let s := pulse (logE (setReg s (ocKey + Rg.ocast.EPFAIL) w) ocKey 0x04 w) ocKey 2
    let s := partFault s b.die (ownerOf s b)
    epochReport u (applyEpoch u (BitVec.ofNat 8 e.toNat) (e.getLsbD 8) s)) s

def epochTimeout (s : State) : State :=
  if !s.ocast.epBusy || decide (now s < s.ocast.epAt.toNat + 1000000) then s
  else s.ocast.epUnits.foldl (fun s u => epochStop u s) s
def execEpochTimeout (s : State) : Out := act epochTimeout s

/-! ### Power domains (R43-R45, R419, R421, R509, R510) -/

def pdBusy (s : State) : Bool := s.power.pd.isSome

/-- A request ends with a result. -/
def pdDone (r : Nat) (s : State) : State :=
  pulse (setReg { s with power := { s.power with pd := none } } (ptmKey + Rg.ptm.PDREQSTAT) (w32 (2 * r))) ptmKey 0

/-- The fence of a domain rises (R421). -/
def fenceUp (d : Nat) (s : State) : State :=
  { s with power := { s.power with fenced := putBit s.power.fenced d, drainFrom := tupd 0 s.power.drainFrom d (fun _ => s.clock.now) } }

/-- PDREQ: domain [6:0], action [9:8]. -/
def pdreq (v : W32) (s : State) : State :=
  let d := bits v 6 0
  let a := bits v 9 8
  if pdBusy s || decide (94 < d) || a == 3 then pulse (ptmLog s 0x03 d Rg.ptm.PDREQ) ptmKey 0
  else if pdForbids s d (a == 0) then pdDone 1 (ptmLog s 0x01 d (d + a * 2 ^ 8))
  else
    let s := setReg { s with power := { s.power with pd := some (d, a) } } (ptmKey + Rg.ptm.PDREQSTAT) 1
    if a = 0 then (if domOn s d then pdDone 0 s else { s with power := { s.power with waking := putBit s.power.waking d } })
    else if domOn s d then fenceUp d s
    else if s.power.waking.getLsbD d then s
    else pdDone 0 { s with power := { s.power with sleep := if a = 1 then putBit s.power.sleep d else clrBit s.power.sleep d } }

/-- The held packets of a domain, and the rest. -/
def inDomain (d : Nat) (p : Pkt) : Bool :=
  match regBlk p.req.addr.toNat with
  | some (b, _) => b.domain == some d
  | none => false

/-- Held packets of a domain go on to their target. -/
def deliverHeld (d : Nat) (s : State) : State :=
  let held := s.net.held.flatMap (fun e => e.2.filter (inDomain d))
  let rest := s.net.held.foldl (fun t e => tset [] t e.1 (e.2.filter (fun p => !inDomain d p))) s.net.held
  { s with net := { s.net with held := rest, pkts := held ++ s.net.pkts } }

/-- A domain comes on: its blocks in their reset states, the current epoch and mode applied, its fence lifted. -/
def domainOn (d : Nat) (s : State) : State :=
  watched (domPages d) (fun s =>
    let s := { s with power := { s.power with on := putBit s.power.on d, sleep := clrBit s.power.sleep d,
                                              fenced := clrBit s.power.fenced d, waking := clrBit s.power.waking d } }
    let s := if d < 64 then tileFresh true (fin 64 d) s else domainFresh d s
    (domUnits d).foldl (fun s u => epochFresh u s) s) s

/-- A switch-on ends; a fence that waited for it begins. -/
def wakeEnds (d : Nat) (s : State) : State :=
  let s := deliverHeld d (domainOn d s)
  match s.power.pd with
  | some (e, a) => if e ≠ d then s else if a = 0 then pdDone 0 s else fenceUp d s
  | none => s

/-- DOMAIN_SWITCHED_ON: of a PDREQ ON. -/
def switchedOn (d : Nat) (s : State) : State :=
  if s.power.waking.getLsbD d && s.power.pd == some (d, 0) then wakeEnds d s else s
def execDomainSwitchedOn (d : Fin 95) (s : State) : Out := act (ptmDo (switchedOn d.val)) s

/-- DOMAIN_WAKE_DONE: of a management packet's wake (R419). -/
def wakeDone (d : Nat) (s : State) : State :=
  if s.power.waking.getLsbD d && s.power.pd != some (d, 0) then wakeEnds d s else s
def execDomainWakeDone (d : Fin 95) (s : State) : Out := act (ptmDo (wakeDone d.val)) s

/-- The blocks of a domain await no response. -/
def domDrained (s : State) (d : Nat) : Bool :=
  let mine (x : Src) : Bool := match x with
    | .cpu (.tile t) => t.val == d
    | .ctx k _ _ _ => 64 + k.val == d
    | .region r _ => 72 + r.val == d
    | .port p _ => 88 + p.val / 32 == d
    | _ => false
  !s.net.outst.any (fun o => mine o.1) &&
  (if d < 64 then tileDrained s (fin 64 d)
   else if d < 72 then (engCtxs s (fin 8 (d - 64))).all (fun e => drained e.2)
   else if d < 88 then (region s (fin 16 (d - 72))).inits.isEmpty && (region s (fin 16 (d - 72))).wins.all (·.expired)
   else true)

/-- A fence in progress. -/
def fencing (s : State) (d : Nat) : Option Nat :=
  match s.power.pd with
  | some (e, a) => if e = d ∧ a ≠ 0 ∧ domFenced s d then some a else none
  | none => none

/-- FENCE_HANDSHAKE: drained, the domain is switched off; a packet that came meanwhile wakes a sleeping one. -/
def fenceShake (d : Nat) (s : State) : State :=
  match fencing s d with
  | none => s
  | some a =>
    if !domDrained s d then s
    else
      let s := pdDone 0 (domainOff (a == 1) d s)
      if s.net.held.any (fun e => e.2.any (inDomain d)) ∧ a = 1 then
        { s with power := { s.power with waking := putBit s.power.waking d } }
      else s
def execFenceHandshake (d : Fin 95) (s : State) : Out := act (ptmDo (fenceShake d.val)) s

/-- FENCE_DRAIN_TIMEOUT: not drained within the lull limit of every partition owning blocks in it. -/
def fenceTimeout (d : Nat) (s : State) : State :=
  match fencing s d with
  | none => s
  | some _ =>
    let lim := ((domBlks d).map (fun b => lullLimit s b.die (ownerOf s b))).foldl max 0
    if domDrained s d || decide (now s < (tget 0 s.power.drainFrom d).toNat + lim) then s
    else pdDone 2 (ptmLog s 0x02 d 0)
def execFenceDrainTimeout (d : Fin 95) (s : State) : Out := act (ptmDo (fenceTimeout d.val)) s

/-! ### Power capping (R514-R516) -/

/-- The setpoint of a rail, in mV. -/
def railMv (s : State) (i : Nat) : Nat := bits (ptmReg s (Rg.ptm.RAILV + 4 * i)) 9 0

def setRail (s : State) (i v : Nat) : State := setReg s (ptmKey + Rg.ptm.RAILV + 4 * i) (w32 v)

/-- A rail that carries a tile or a Nimbus section of a fixed-share partition. -/
def fixedRail (s : State) (i : Nat) : Bool :=
  if i < 4 then (List.range 16).any (fun l => fixedShare s i (tileOwner s (fin 64 (16 * i + l))))
  else
    let k : Fin 8 := fin 8 (i - 4)
    let die := 8 + 11 * k.val
    (List.range 16).any (fun e => fixedShare s die (ownerOf s (.nve k (fin 16 e)))) ||
    (List.range 8).any (fun c => fixedShare s die (ownerOf s (.check k (fin 8 c)))) ||
    (engCtxs s k).any (fun e => fixedShare s die (ctxOwn s k (fin 2048 e.1)))

def rails (s : State) (fixed : Bool) : List Nat := (List.range 12).filter (fun i => fixedRail s i == fixed)

def vminOf (s : State) : Nat := bits (ptmReg s Rg.ptm.VMIN) 9 0

/-- A die above 105 °C (R519). -/
def hot105 (s : State) : Bool := (List.range 104).any (fun d => decide (105 < bits (ptmReg s (Rg.ptm.TEMP + 4 * d)) 7 0))

/-- CAPSTAT CAPPING: the average is over PCAP, a die is above 105 °C, or a step has not been undone. -/
def capNote (s : State) : State :=
  let on := s.power.overP || hot105 s || decide (s.power.lvlcap < 8) || (List.range 12).any (fun i => decide (railMv s i < 720))
  { s with power := { s.power with capping := on } }

/-- The next step of R515, 5 mV or one level. -/
def capLower (s : State) : State :=
  let v := vminOf s
  let above (l : List Nat) : List Nat := l.filter (fun i => decide (v < railMv s i))
  let lower (l : List Nat) (s : State) : State := l.foldl (fun s i => setRail s i (max v (railMv s i - 5))) s
  match above (rails s false) with
  | _ :: _ => lower (above (rails s false)) s
  | [] =>
    if 1 < s.power.lvlcap then { s with power := { s.power with lvlcap := s.power.lvlcap - 1 } }
    else match above (rails s true) with
    | [] => s
    | l =>
      let s := lower l s
      if s.power.fsrail then s else pulse (ptmLog { s with power := { s.power with fsrail := true } } 0x06 0 0) ptmKey 3

/-- The last step taken is undone. -/
def capRaise (s : State) : State :=
  let below (l : List Nat) : List Nat := l.filter (fun i => decide (railMv s i < 720))
  let raise (l : List Nat) (s : State) : State := l.foldl (fun s i => setRail s i (min 720 (railMv s i + 5))) s
  if s.power.fsrail then
    let s := raise (below (rails s true)) s
    { s with power := { s.power with fsrail := (rails s true).any (fun i => decide (railMv s i < 720)) } }
  else if s.power.lvlcap < 8 then { s with power := { s.power with lvlcap := s.power.lvlcap + 1 } }
  else raise (below (List.range 12)) s

/-- CAP_STEP: one step per 10 µs. -/
def capStep (s : State) : State :=
  if now s < s.power.stepAt.toNat + 10000 ∧ s.power.stepAt ≠ 0 then s
  else
    let s := { s with power := { s.power with stepAt := s.clock.now } }
    capNote (if s.power.overP || hot105 s then capLower s else if s.power.low then capRaise s else s)
def execCapStep (s : State) : Out := act (ptmDo capStep) s

/-- POWER_AVERAGE: the average of the last 1 ms. -/
def powerAverage (w : BitVec 13) (s : State) : State :=
  let cap := bits (ptmReg s Rg.ptm.PCAP) 12 0
  let s := setReg s (ptmKey + Rg.ptm.PWRIN) (w32 w.toNat)
  capNote { s with power := { s.power with overP := decide (cap < w.toNat), low := decide (100 * w.toNat < 95 * cap) } }
def execPowerAverage (watts : BitVec 13) (s : State) : Out := act (ptmDo (powerAverage watts)) s

/-! ### Temperatures (R518, R519) -/

/-- The rail of a die's self-timed logic. -/
def dieRail (d : Nat) : Option Nat :=
  match dieKind d with
  | .anvil => some d
  | .scratch => some (d - 4)
  | .base => some (4 + (d - 8) / 11)
  | _ => none

/-- Dies that share a boundary: bridges, bonds, stacked cores. -/
def neighbours : List (Nat × Nat) :=
  bridges ++ (List.range 4).map (fun d => (d, 4 + d)) ++
    (List.range 80).map (fun i => (8 + 11 * (i / 10), 9 + 11 * (i / 10) + i % 10))

def absDiff (a b : Nat) : Nat := max a b - min a b

/-- DIEMAX records the largest difference beyond 30 °C or 120 mV between neighbours. -/
def dieMax (temps : List Nat) (s : State) : State :=
  neighbours.foldl (fun s (a, b) =>
    let dt := min 255 (absDiff (temps.getD a 0) (temps.getD b 0))
    let mv (d : Nat) : Nat := match dieRail d with | some r => railMv s r | none => 720
    let dv := absDiff (mv a) (mv b)
    let old := ptmReg s Rg.ptm.DIEMAX
    if (30 < dt ∨ 120 < dv) ∧ (bits old 15 8 < dt ∨ bits old 7 0 < dv) then
      setReg s (ptmKey + Rg.ptm.DIEMAX) (w32 (min 255 dv + dt * 2 ^ 8 + a * 2 ^ 16 + b * 2 ^ 24))
    else s) s

/-- Thermal shutdown: every switched domain and every rail off; a PDREQ in progress ends, done where it was to switch a domain
    off, else refused (DEDUCED, log entry 40). -/
def thermalOff (d : Nat) (s : State) : State :=
  let s := (List.range 95).foldl (fun s d => if domOn s d then domainOff false d s else s) s
  let s := (List.range 12).foldl (fun s i => setRail s i 0) s
  let s := setReg s (ptmKey + Rg.ptm.LASTSHUT) (w32 (1 + d * 2 ^ 8))
  let s := match s.power.pd with | some (_, a) => pdDone (if a = 0 then 1 else 0) s | none => s
  { s with power := { s.power with mst := .thermal, sleep := 0, waking := 0 }, pins := { s.pins with thermtrip := true } }

/-- Whether a die exceeds TWARN (R519). -/
def hotNote (s : State) : State :=
  let hot := (List.range 104).any (fun d => decide (bits (ptmReg s Rg.ptm.TWARN) 7 0 < bits (ptmReg s (Rg.ptm.TEMP + 4 * d)) 7 0))
  { s with power := { s.power with hotDie := hot } }

/-- TEMP_SAMPLE: a temperature for each die. -/
def tempSample (temps : List Nat) (s : State) : State :=
  let s := temps.zipIdx.foldl (fun s (t, d) =>
    let t := min 255 t
    updReg s (ptmKey + Rg.ptm.TEMP + 4 * d) (fun o => w32 (t + max t (bits o 15 8) * 2 ^ 8))) s
  let s := dieMax temps s
  let hot := temps.any (fun t => decide (bits (ptmReg s Rg.ptm.TWARN) 7 0 < t))
  let hots := temps.zipIdx.filter (fun (t, _) => decide (110 < t))
  let trip := hots.find? (fun (_, d) => tget false s.power.over110 d)
  let s := { s with power := { s.power with hotDie := hot, over110 := hots.map (fun (_, d) => (d, true)) } }
  match trip with
  | some (_, d) => if s.power.mst = .thermal then s else thermalOff d s
  | none => capNote s
def execTempSample (temps : List Nat) (s : State) : Out := actIf (temps.length == 104) (ptmDo (tempSample temps)) s

/-- A FABALLOC write: refused where a die's four regions would sum above 12,500 (R521). -/
def faballoc (r : Fin 16) (v : W32) (s : State) : State :=
  let n := bits v 15 0
  let others := (List.range 4).foldl (fun a q =>
    let i := r.val / 4 * 4 + q
    if i = r.val then a else a + bits (ptmReg s (Rg.ptm.FABALLOC + 4 * i)) 15 0) 0
  if 12500 < others + n then ptmLog s 0x05 (96 + r.val / 4) (Rg.ptm.FABALLOC + 4 * r.val)
  else setReg s (ptmKey + Rg.ptm.FABALLOC + 4 * r.val) (w32 n)

end Sys2Proof.Machine
end

