-- ==== Sys2Proof/Machine/Event.lean ====
section
/-! DEFINITION. The event concentrator: its sources and their owners, sampling, routing, views and notifications
    (R531-R536), and the functions of the PCIe endpoints as it knows them (R526, R528). -/

namespace Sys2Proof

/-- A function's place among the 34. -/
def PFn.num (f : PFn) : Nat := 17 * f.e.val + f.f.val

/-- The function at a place. -/
def PFn.ofNum (n : Nat) : PFn := { e := Machine.fin 2 (n / 17), f := Machine.fin 17 (n % 17) }

namespace Machine

/-! ### Functions (R526, R528) -/

def fnReg (s : State) (f : PFn) (o : Nat) : W32 := reg s (f.key + o)
def setFn (s : State) (f : PFn) (o : Nat) (v : W32) : State := setReg s (f.key + o) v
def epReg (s : State) (e : Fin 2) (o : Nat) : W32 := reg s (Blk.key (.pcie e) + o)

/-- The partition of a function. -/
def fnPart (s : State) (f : PFn) : BitVec 4 :=
  if f.f.val = 0 then 0 else BitVec.ofNat 4 (epReg s f.e (Rg.pcie.VFPART + 4 * (f.f.val - 1))).toNat

/-- A function as initiator. -/
def fnInit (s : State) (f : PFn) : Init :=
  { die := 103, rtr := 0, part := fnPart s f, op := f.f.val == 0, pri := if f.f.val = 0 then 3 else 2 }

/-- VFs 1 to NUMVF of an endpoint are enabled. -/
def numVf (s : State) (e : Fin 2) : Nat := bits (epReg s e Rg.pcie.EPSTAT) 20 16

/-- The function is there: the PF, or an enabled VF. -/
def fnThere (s : State) (f : PFn) : Bool := decide (f.f.val ≤ numVf s f.e)

def pcieUp (s : State) (e : Fin 2) : Bool := (epReg s e Rg.pcie.EPSTAT).getLsbD 0

/-- Something leaves an endpoint toward its host. -/
def hostOut (s : State) (m : HostMsg) : State := { s with host := { s.host with out := s.host.out ++ [m] } }

/-! ### Sources (R531) -/

/-- The dies with routers, in ascending order. -/
def routerDies : List Nat := (List.range 104).filter (fun d => routers d != 0)

/-- The routers, in ascending die and number. -/
def allRouters : List (Nat × Nat) := routerDies.flatMap (fun d => (List.range (routers d)).map (fun r => (d, r)))

/-- The pages behind a source, and the block whose absence silences it. -/
def srcPages (n : Nat) : List (Blk × Nat) :=
  if n < 0x40 then
    let t : Fin 64 := fin 64 n
    (List.range 8).map (fun i => (.row t, i)) ++ (List.range 4).map (fun i => (.seq t, i)) ++ [(.vec t, 0), (.acnt t, 0)]
  else if n < 0x140 then [(.bank (fin 64 ((n - 0x40) / 4)) (fin 4 (n - 0x40)), 0)]
  else if n < 0x340 then [(.seng (fin 8 ((n - 0x140) / 64)), (n - 0x140) % 64)]
  else if n < 0x440 then [(.chan (fin 8 ((n - 0x340) / 32)) (fin 32 (n - 0x340)), 0)]
  else if n < 0x4C0 then [(.nve (fin 8 ((n - 0x440) / 16)) (fin 16 (n - 0x440)), 0)]
  else if n < 0x4C8 then [(.pvm (fin 8 (n - 0x4C0)), 0)]
  else if n < 0x508 then [(.check (fin 8 ((n - 0x4C8) / 8)) (fin 8 (n - 0x4C8)), 0)]
  else if n < 0x518 then [(.region (fin 16 (n - 0x508)), 0)]
  else if n < 0x578 then [(.port (fin 96 (n - 0x518)), 0)]
  else if n < 0x5D8 then [(.lanes (fin 96 (n - 0x578)), 0)]
  else if n < 0x5EC then
    let d := routerDies.getD (n - 0x5D8) 0
    (List.range 4).map (fun i => (.ptab d, i))
  else if n < 0x664 then
    let r := allRouters.getD (n - 0x5EC) (0, 0)
    [(.probe r.1 r.2, 0)]
  else match n with
    | 0x664 => [(.loader, 0)]
    | 0x665 | 0x666 | 0x667 | 0x668 => [(.pcheck (fin 4 (n - 0x665)), 0)]
    | 0x669 | 0x66A => [(.pcie (fin 2 (n - 0x669)), 0)]
    | 0x66B => [(.ptm, 0)]
    | 0x66C => [(.ocast, 0)]
    | 0x66D => [(.sec, 0)]
    | _ => []

/-- A page has an enabled pending event. -/
def pageHot (s : State) (p : Blk × Nat) : Bool :=
  !absent s p.1 && (evPend s p.1 p.2 &&& regN s (p.1.keyP p.2 + Rg.hdr.EVENA)) != 0

/-- The input of a source. -/
def srcIn (s : State) (n : Nat) : Bool := tget false s.conc.pulse n || (srcPages n).any (pageHot s)

/-- Sources that never assert. -/
def srcDead (n : Nat) : Bool := n == 0x66E || n == 0x66F || decide (0x6E2 ≤ n)

/-- The owner of a source. -/
def srcOwner (s : State) (n : Nat) : BitVec 4 :=
  if n < 0x664 then (match srcPages n with | (b, _) :: _ => (if opOnly b then 0 else ownerOf s b) | [] => 0)
  else if 0x670 ≤ n ∧ n < 0x680 then BitVec.ofNat 4 (n - 0x670)
  else if 0x6C0 ≤ n ∧ n < 0x6E2 then fnPart s (PFn.ofNum (n - 0x6C0))
  else 0

/-! ### Routing and views (R533) -/

def srcKey (n : Nat) : Nat := Blk.keyP .conc (1 + n / 512) + 0x400 + 4 * (n % 512)
def pendKey (w : Nat) : Nat := Blk.key .conc + Rg.evc.SRCPEND + 4 * w

def srcPend (s : State) (n : Nat) : Bool := regBit s (pendKey (n / 32)) (n % 32)

/-- The target a source is routed to. -/
def srcTarget (s : State) (n : Nat) : Option Nat :=
  let w := reg s (srcKey n)
  if w.getLsbD 16 then some (bits w 13 8) else none

/-- A source is shown to a target: to cores and PFs every one, to a VF those of its partition, doorbells to any. -/
def shownTo (s : State) (target n : Nat) : Bool :=
  decide (target < 4) || (target - 4) % 17 == 0 || decide (0x680 ≤ n ∧ n < 0x6C0) || srcOwner s n == fnPart s (PFn.ofNum (target - 4))

/-- A source is routed to a target and shown there. -/
def inView (s : State) (target n : Nat) : Bool := srcTarget s n == some target && shownTo s target n

/-- Word w of a target's view of something the sources have. -/
def viewWord (s : State) (target : Nat) (p : Nat → Bool) (w : Nat) : W32 :=
  w32 (wordOf (fun i => p (32 * w + i) && inView s target (32 * w + i)) 32)

/-- A write of ones through a view clears the pending bits it shows. -/
def viewClear (s : State) (target w : Nat) (v : W32) : State :=
  updReg s (pendKey w) (fun p => p &&& ~~~ (v &&& viewWord s target (fun _ => true) w))

/-! ### Sampling (R532) -/

/-- A source with this sense sets its pending bit. -/
def senseHit (sense : Nat) (was isNow : Bool) : Bool :=
  match sense with
  | 0 => isNow
  | 1 => !was && isNow
  | 2 => was && !isNow
  | _ => was != isNow

def newBit (T : Nat) : BitVec 38 := BitVec.ofNat 38 (2 ^ T)

/-- One source is sampled. -/
def sample1 (n : Nat) (s : State) : State :=
  let cur := srcIn s n && !srcDead n
  let was := tget false s.conc.prev n
  let w := reg s (srcKey n)
  let rise := senseHit (bits w 1 0) was cur && !srcPend s n
  let s := { s with conc := { s.conc with prev := tset false s.conc.prev n cur } }
  if !rise then s
  else
    let s := setRegBit s (pendKey (n / 32)) (n % 32) true
    match srcTarget s n with
    | some T => if shownTo s T n then { s with conc := { s.conc with new := s.conc.new ||| newBit T } } else s
    | none => s

/-- EVENT_SAMPLE: every source once; a pulse lasts one sample. -/
def eventSample (s : State) : State :=
  let s := (List.range 2048).foldl (fun s n => sample1 n s) s
  { s with conc := { s.conc with pulse := [] } }
def execEventSample (s : State) : Out := act eventSample s

/-! ### Notification (R534) -/

/-- A target is idle. -/
def targetIdle (s : State) (T : Nat) : Bool :=
  if T < 4 then (cpu s (.core (fin 4 T))).wait == .wfe else (fnReg s (PFn.ofNum (T - 4)) Rg.fn.ARMIDLE).getLsbD 0

/-- The MSI-X message of a function, or its pending bit while the vector is masked. -/
def msix (f : PFn) (s : State) : State :=
  if (fnReg s f (Rg.fn.MSIXTAB + 0xC)).getLsbD 0 then setFn s f Rg.fn.MSIXPBA 1
  else hostOut s (.msix f (BitVec.ofNat 64 ((fnReg s f Rg.fn.MSIXTAB).toNat + (fnReg s f (Rg.fn.MSIXTAB + 4)).toNat * 2 ^ 32))
    (fnReg s f (Rg.fn.MSIXTAB + 8)))

/-- A target is notified. -/
def notifyNow (T : Nat) (s : State) : State :=
  let s := bump s (Blk.key .conc + Rg.evc.NOTIFCNT)
  let s := { s with conc := { s.conc with new := s.conc.new &&& ~~~ newBit T, last := tput T s.clock.now s.conc.last } }
  if T < 4 then updCpu s (.core (fin 4 T)) (fun p => { p with sevlatch := p.sevlatch ||| w32 (2 ^ 24) })
  else
    let f := PFn.ofNum (T - 4)
    msix f (setFn s f Rg.fn.ARMIDLE 0)

/-- MODTIME µs have passed since a target was last notified, or it never was. -/
def modPassed (s : State) (T : Nat) : Bool :=
  match s.conc.last.lookup T with
  | none => true
  | some t => decide (t.toNat + 1000 * bits (reg s (Blk.key .conc + Rg.evc.MODTIME + 4 * T)) 9 0 ≤ now s)

/-- NOTIFY. -/
def notify (T : Nat) (s : State) : State :=
  if s.conc.new.getLsbD T && (targetIdle s T || modPassed s T) then notifyNow T s else s
def execNotify (target : Fin 38) (s : State) : Out := act (notify target.val) s

/-- A bit shown to a target is pending. -/
def shownPending (s : State) (T : Nat) : Bool := (List.range 2048).any (fun n => srcPend s n && inView s T n)

/-- A write of ARMIDLE. -/
def armIdle (f : PFn) (v : W32) (s : State) : State :=
  let s := setFn s f Rg.fn.ARMIDLE (v &&& 1)
  if v.getLsbD 0 && shownPending s (4 + f.num) then notifyNow (4 + f.num) s else s

/-- A write of DBSET: its doorbells are set until the next sample. -/
def dbSet (hi : Bool) (v : W32) (s : State) : State :=
  let base := 0x680 + (if hi then 32 else 0)
  (List.range 32).foldl (fun s i =>
    if v.getLsbD i then { s with conc := { s.conc with pulse := tset false s.conc.pulse (base + i) true } } else s) s

end Machine
end Sys2Proof
end

