-- ==== Sys2Proof/Machine/Host.lean ====
section
/-! DEFINITION. The PCIe endpoints: links and virtual functions (R525, R526), function registers (R528), host reads and
    posted writes (R527, R529), function-level resets, the copy ring (R530), and the JTAG port (R539). -/

namespace Sys2Proof.Machine

def epKey (e : Fin 2) : Nat := Blk.key (.pcie e)

/-- A change seen on an endpoint's page. -/
def epDo (e : Fin 2) (f : State → State) : State → State := watched [(.pcie e, 0)] f

/-- An entry of an endpoint's log (R537). -/
def epLog (s : State) (f : PFn) (code a rsn : Nat) : State :=
  logE s (epKey f.e) (w32 (code + f.f.val * 2 ^ 8)) (w32 a) (w32 (a / 2 ^ 32 % 2 ^ 16)) (w32 rsn)

/-! ### Function registers (R528) -/

/-- A function register as a read sees it. -/
def fnRead (s : State) (f : PFn) (o : Nat) : W32 :=
  let T := 4 + f.num
  match findReg fnRegs o with
  | none => 0
  | some (r, i) =>
    if r.off = Rg.fn.FNSTAT then w32 ((fnPart s f).toNat + b2n (f.f.val == 0) * 2 ^ 4)
    else if r.off = Rg.fn.EVVPEND then viewWord s T (srcPend s) i
    else if r.off = Rg.fn.EVVLIVE then viewWord s T (fun n => srcIn s n && !srcDead n) i
    else fnReg s f o

/-- A masked vector that is unmasked sends the message it held (R534). -/
def pbaSend (f : PFn) (s : State) : State :=
  if (fnReg s f Rg.fn.MSIXPBA).getLsbD 0 && !(fnReg s f (Rg.fn.MSIXTAB + 0xC)).getLsbD 0
  then msix f (setFn s f Rg.fn.MSIXPBA 0) else s

/-- CRCFG: CRSIZE is taken only while EN is clear, and only from 4 to 12. -/
def crcfgWrite (f : PFn) (v : W32) (s : State) : State :=
  let old := fnReg s f Rg.fn.CRCFG
  let n := bits v 7 4
  let size := if !old.getLsbD 0 && decide (4 ≤ n ∧ n ≤ 12) then n else bits old 7 4
  setFn s f Rg.fn.CRCFG (w32 (b2n (v.getLsbD 0) + size * 2 ^ 4))

/-- A write of a function register. -/
def fnWrite (f : PFn) (o : Nat) (v : W32) (s : State) : State :=
  match findReg fnRegs o with
  | none => s
  | some (r, i) =>
    if r.off = Rg.fn.ARMIDLE then armIdle f v s
    else if r.off = Rg.fn.CRCFG then crcfgWrite f v s
    else if r.off = Rg.fn.EVVPEND then viewClear s (4 + f.num) i v
    else if r.ty = .rw then pbaSend f (setFn s f o (v &&& w32 r.mask)) else s

/-- A command of a host to a function that is there and whose link is up. -/
def fnDo (f : PFn) (g : State → State) (s : State) : State := if pcieUp s f.e && fnThere s f then g s else s

/-! ### Requests (R527, R529) -/

/-- Where a BAR access goes: function registers, or a module address; none where it is answered Unsupported Request. -/
inductive BarAt where
  | regs (o : Nat)
  | addr (a : Nat)
  | none
  deriving DecidableEq, Repr

def apIdx (f : PFn) (k : Nat) : Nat := 64 * f.num + k

def barAt (s : State) (f : PFn) (bar : Fin 3) (off : Nat) : BarAt :=
  let pf := f.f.val == 0
  if !fnThere s f || (!pf && s.power.mst != .ready) then .none
  else match bar with
  | 0 => if off < (if pf then 0x100000 else 0x10000) then .regs off else .none
  | 1 =>
    let w := tget 0 s.host.aps (apIdx f (off / 2 ^ 32))
    if off / 2 ^ 32 < (if pf then 64 else 16) ∧ w.getLsbD 31 then .addr (bits w 15 0 * 2 ^ 32 + off % 2 ^ 32) else .none
  | _ => if off < 2 ^ 31 then .addr (2 * 2 ^ 40 + off) else .none

/-- An access of function registers is whole aligned words. -/
def fnForm (o len : Nat) : Bool := o % 4 == 0 && len % 4 == 0

/-- A read is answered Unsupported Request or Completer Abort. -/
def readFails (f : PFn) (m : HostMsg) (s : State) : State := pulse (bump (hostOut s m) (epKey f.e + Rg.pcie.INERR)) (epKey f.e) 1

/-- Every posted write of a function that came before its read is visible. -/
def postedDone (s : State) (r : HRead) : Bool :=
  !s.net.outst.any (fun o => match o.1 with | .posted f n _ => f == r.f && decide (n < r.behind) | _ => false)

/-- All responses of a read are in. -/
def readIn (r : HRead) : Bool := r.parts.all (fun p => p.2.isSome)

/-- Answer a read. -/
def answer (r : HRead) (s : State) : State :=
  let s := { s with host := { s.host with reads := s.host.reads.erase r } }
  match r.bad with
  | none => hostOut s (.completion r.f r.id (r.parts.flatMap (fun p => p.2.getD [])))
  | some c => readFails r.f (if c = Rsn.unmapped then .unsupported r.f r.id else .abort r.f r.id) s

/-- Answer every read that can be. -/
def hostSettle (s : State) : State := s.host.reads.foldl (fun s r => if readIn r && postedDone s r then answer r s else s) s

/-- How many posted writes a function has made. -/
def postedCount (s : State) (f : PFn) : Nat := tget 0 s.host.posted f.num

def addRead (s : State) (f : PFn) (id a : Nat) (parts : List (Nat × Option (List Byte))) (bad : Option (BitVec 8)) : State :=
  { s with host := { s.host with reads := s.host.reads ++
    [{ f, id, addr := BitVec.ofNat 48 a, parts, bad, behind := postedCount s f, at_ := s.clock.now }] } }

/-- HOST_READ. -/
def hostRead (f : PFn) (bar : Fin 3) (off len id : Nat) (s : State) : State :=
  let s := bump s (epKey f.e + Rg.pcie.INREQ)
  match barAt s f bar off with
  | .none => hostSettle (addRead s f id 0 [] (some Rsn.unmapped))
  | .regs o =>
    if !fnForm o len then hostSettle (addRead s f id 0 [] (some Rsn.unmapped))
    else hostSettle (addRead s f id 0 [(0, some (bytesOf ((List.range (len / 4)).map (fun i => fnRead s f (o + 4 * i)))))] none)
  | .addr a =>
    let ps := blocksOf a len
    let s := addRead s f id a ((List.range ps.length).map (fun k => (k, none))) none
    ps.zipIdx.foldl (fun s (p, k) => netSend s (.host f id k) (mkReq (fnInit s f) .read p.1 p.2 [])) s
def execHostRead (f : PFn) (bar : Fin 3) (off : BitVec 48) (len : Nat) (id : Nat) (s : State) : Out :=
  actIf (0 < len) (epDo f.e (fun s => if pcieUp s f.e then hostRead f bar off.toNat len id s else s)) s

/-- A posted write that fails is dropped and logged. -/
def postedFails (f : PFn) (a : Nat) (c : BitVec 8) (s : State) : State := epLog s f 0x01 a c.toNat

/-- The network writes of a posted write. -/
def postAll (f : PFn) : List (Nat × Nat) → List Byte → State → State
  | [], _, s => s
  | (a, n) :: t, d, s =>
    let k := postedCount s f
    let s := { s with host := { s.host with posted := tset 0 s.host.posted f.num (k + 1) } }
    postAll f t (d.drop n) (netSend s (.posted f k (BitVec.ofNat 48 a)) (mkReq (fnInit s f) .write a n (d.take n)))

/-- HOST_WRITE. -/
def hostWrite (f : PFn) (bar : Fin 3) (off : Nat) (d : List Byte) (s : State) : State :=
  let s := bump s (epKey f.e + Rg.pcie.INREQ)
  match barAt s f bar off with
  | .none => postedFails f 0 Rsn.unmapped s
  | .regs o =>
    if !fnForm o d.length then postedFails f 0 Rsn.unmapped s
    else (wordsLE d).zipIdx.foldl (fun s (w, i) => fnWrite f (o + 4 * i) w s) s
  | .addr a => postAll f (blocksOf a d.length) d s
def execHostWrite (f : PFn) (bar : Fin 3) (off : BitVec 48) (data : List Byte) (s : State) : Out :=
  actIf (!data.isEmpty) (epDo f.e (fun s => if pcieUp s f.e then hostWrite f bar off.toNat data s else s)) s

/-- A host's write of one function register, as any posted write to BAR0 (R527). -/
def bar0Write (f : PFn) (o : Nat) (v : W32) (s : State) : State :=
  if pcieUp s f.e then hostWrite f 0 o (leBytes 4 v.toNat) s else s
def execArmidleWrite (f : PFn) (v : W32) (s : State) : Out := act (epDo f.e (bar0Write f Rg.fn.ARMIDLE v)) s
def execCrheadWrite (f : PFn) (v : W32) (s : State) : Out := act (epDo f.e (bar0Write f Rg.fn.CRHEAD v)) s

/-- MSIX_VECTOR_UNMASK: the mask bit of the vector clears. -/
def unmask (f : PFn) (s : State) : State := bar0Write f (Rg.fn.MSIXTAB + 0xC) (fnReg s f (Rg.fn.MSIXTAB + 0xC) &&& ~~~ 1) s
def execMsixVectorUnmask (f : PFn) (s : State) : Out := act (epDo f.e (unmask f)) s

/-- A response to an access of a host read; one that no read waits for is discarded. -/
def readPart (f : PFn) (id k : Nat) (c : BitVec 8) (d : List Byte) (s : State) : State :=
  let upd (r : HRead) : HRead :=
    if r.f = f ∧ r.id = id then
      { r with parts := r.parts.map (fun p => if p.1 = k then (k, some d) else p),
               bad := if c = 0 then r.bad else (r.bad.or (some c)) }
    else r
  hostSettle { s with host := { s.host with reads := s.host.reads.map upd } }

/-- The responses a function awaits are discarded when they come. -/
def readsGone (p : HRead → Bool) (s : State) : State :=
  let gone := s.host.reads.filter p
  let s := { s with host := { s.host with reads := s.host.reads.filter (fun r => !p r) } }
  orphan (fun x => match x with | .host f id _ => gone.any (fun r => r.f == f && r.id == id) | _ => false) s

/-- HOST_READ_TIMEOUT: 40 ms without every response. -/
def hostTimeout (f : PFn) (id : Nat) (s : State) : State :=
  match s.host.reads.find? (fun r => r.f == f && r.id == id) with
  | none => s
  | some r =>
    if decide (now s < r.at_.toNat + 40000000) || readIn r then s
    else
      let s := readsGone (fun x => x == r) s
      let s := bump (epLog s f 0x02 r.addr.toNat 0) (epKey f.e + Rg.pcie.INTO)
      hostSettle (readFails f (.abort f id) s)
def execHostReadTimeout (f : PFn) (id : Nat) (s : State) : Out := act (epDo f.e (hostTimeout f id)) s

/-! ### Function-level reset, links, virtual functions (R525, R526, R529, R553) -/

/-- A function's registers return to reset. -/
def fnFresh (s : State) (f : PFn) : State := dropRegs s (fun k => decide (f.key ≤ k ∧ k < f.key + 2 ^ 20))

def flrNote (s : State) (f : PFn) (b : Bool) : State :=
  { s with host := { s.host with flrDone := tset false s.host.flrDone f.num b } }

/-- FUNCTION_LEVEL_RESET. -/
def flr (f : PFn) (s : State) : State := pulse (flrNote (fnFresh s f) f true) (epKey f.e) 3
def execFunctionLevelReset (f : PFn) (s : State) : Out := act (epDo f.e (fnDo f (flr f))) s

/-- The functions of an endpoint. -/
def fnsOf (e : Fin 2) : List PFn := (List.range 17).map (fun i => { e, f := fin 17 i })

def setEpstat (s : State) (e : Fin 2) (v : Nat) : State := setReg s (epKey e + Rg.pcie.EPSTAT) (w32 v)

/-- PERST_RISE: the endpoint and its functions have been reset, with the link down and no VF enabled; the clock choice is
    sampled. -/
def perst (e : Fin 2) (clksel : Bool) (s : State) : State :=
  let s := readsGone (fun r => r.f.e == e) s
  let s := (fnsOf e).foldl (fun s f => flrNote (fnFresh s f) f true) s
  let s := pulse (setEpstat s e 0) (epKey e) 3
  let bit : BitVec 2 := BitVec.ofNat 2 (2 ^ e.val)
  { s with host := { s.host with clksel := if clksel then s.host.clksel ||| bit else s.host.clksel &&& ~~~ bit } }
def execPerstRise (e : Fin 2) (clksel : Bool) (s : State) : Out := act (epDo e (perst e clksel)) s

/-- PCIE_LINK_UP: generation 1 to 6, width x1, x4, x8 or x16; an endpoint has power outside RESET. -/
def pcieTrained (e : Fin 2) (gen : BitVec 3) (width : BitVec 5) (s : State) : State :=
  if s.power.mst = .reset ∨ gen = 0 ∨ gen = 7 ∨ !(width == 1 || width == 4 || width == 8 || width == 16) then s
  else setEpstat s e (1 + gen.toNat * 2 + width.toNat * 2 ^ 4 + numVf s e * 2 ^ 16)
def execPcieLinkUp (e : Fin 2) (gen : BitVec 3) (width : BitVec 5) (s : State) : Out := act (epDo e (pcieTrained e gen width)) s

/-- PCIE_LINK_DOWN. -/
def pcieLost (e : Fin 2) (s : State) : State := setEpstat s e (numVf s e * 2 ^ 16)
def execPcieLinkDown (e : Fin 2) (s : State) : Out := act (epDo e (pcieLost e)) s

/-- VF_ENABLE_CHANGE: VFs 1 to `numvf` are enabled; one that becomes enabled or disabled starts from reset. -/
def vfEnable (e : Fin 2) (n : Fin 17) (s : State) : State :=
  if !pcieUp s e then s
  else
    let old := numVf s e
    let moved (f : PFn) : Bool := decide (f.f.val ≤ old) != decide (f.f.val ≤ n.val)
    let s := (fnsOf e).foldl (fun s f => if moved f then flrNote (fnFresh s f) f false else s) s
    setEpstat s e (bits (epReg s e Rg.pcie.EPSTAT) 8 0 + n.val * 2 ^ 16)
def execVfEnableChange (e : Fin 2) (numvf : Fin 17) (s : State) : Out := act (epDo e (vfEnable e numvf)) s

/-- A function has no request outstanding. -/
def fnQuiet (s : State) (f : PFn) : Bool :=
  !s.host.reads.any (fun r => r.f == f) && !s.net.outst.any (fun o => match o.1 with | .posted g _ _ => g == f | _ => false)

/-- A write of VFPARTn (R526). -/
def vfpart (e : Fin 2) (n : Fin 16) (v : W32) (s : State) : State :=
  let f : PFn := { e, f := fin 17 (n.val + 1) }
  let idle := tget false s.host.flrDone f.num && fnQuiet s f && !(fnReg s f Rg.fn.CRCFG).getLsbD 0
  if !fnThere s f || idle then setReg s (epKey e + Rg.pcie.VFPART + 4 * n.val) (v &&& 0xF)
  else epLog s f 0x04 (2 * 2 ^ 40 + epKey e + Rg.pcie.VFPART + 4 * n.val) 0

/-! ### The copy ring (R530) -/

def crMod (s : State) (f : PFn) : Nat := 2 ^ bits (fnReg s f Rg.fn.CRCFG) 7 4
def crTail (s : State) (f : PFn) : Nat := (fnReg s f Rg.fn.CRTAIL).toNat % crMod s f

/-- A function has a descriptor to work on. -/
def crReady (s : State) (f : PFn) : Bool :=
  pcieUp s f.e && fnThere s f && (fnReg s f Rg.fn.CRCFG).getLsbD 0 && crTail s f != (fnReg s f Rg.fn.CRHEAD).toNat % crMod s f

/-- STATUS of the descriptor in hand is written in host memory. -/
def crStatus (f : PFn) (v : Nat) (s : State) : State :=
  let base := (fnReg s f Rg.fn.CRBASE).toNat + (fnReg s f Rg.fn.CRBASEH).toNat * 2 ^ 32
  hostOut s (.write f (BitVec.ofNat 64 (base + 32 * crTail s f + 28)) (leBytes 4 v))

/-- One access of the ring to a fabric window: the design receives it; its answer is free (log entry 23). -/
def crWindow (s : State) (q : Req) (r : Fin 16) : BitVec 8 × List Byte × State :=
  let c := winCheck s q r
  let s := winArrive s .nobody q r
  if c ≠ 0 then (c, [], s)
  else if q.kind = .read then let (d, s) := drawBytes q.len s; (0, d, s) else (0, [], s)

/-- The accesses of a descriptor: reason and address of the first error, data read, state. -/
def crMove (who : Init) (kind : Kind) : List (Nat × Nat) → List Byte → List Byte → State → MemR
  | [], _, got, s => ⟨0, 0, got, s⟩
  | (a, n) :: t, d, got, s =>
    let q := mkReq who kind a n (if kind = .write then d.take n else [])
    let (c, x, s) := match winOff a with | some (r, _) => crWindow s q r | none => memNow s q
    if c ≠ 0 then ⟨c, a, got, s⟩ else crMove who kind t (d.drop n) (got ++ x) s

/-- The ring stops at the descriptor in hand, whose STATUS is v: CRERR, EN, the log and event source 2. -/
def crStop (f : PFn) (v a rsn : Nat) (s : State) : State :=
  let s := setFn s f Rg.fn.CRERR (w32 (v + crTail s f * 2 ^ 16))
  let s := setFn s f Rg.fn.CRCFG (fnReg s f Rg.fn.CRCFG &&& ~~~ 1)
  pulse (epLog s f 0x03 a rsn) (epKey f.e) 2

/-- A descriptor fails: its STATUS, and the ring stops. -/
def crFail (f : PFn) (a : Nat) (rsn : Nat) (s : State) : State :=
  let v := 2 + rsn * 2 ^ 8
  crStop f v a rsn (crStatus f v s)

/-- A descriptor is done: STATUS, then the count, then CRTAIL. A count refused stops the ring, and the STATUS written stands
    (R564). -/
def crDone (f : PFn) (desc : List Byte) (s : State) : State :=
  let w3 := wordAt desc 3
  let w5 := wordAt desc 5
  let s := bump (crStatus f 1 s) (epKey f.e + Rg.pcie.CPYBYTES) (wordAt desc 4 / 64)
  let (rsn, s) := if nbit w3 17 then cntPacket s (fnInit s f) false (fin 64 w5) (w5 / 2 ^ 8) 1 else (0, s)
  if rsn ≠ 0 then crStop f 1 (cntAddr (fin 64 w5) (w5 / 2 ^ 8)) rsn.toNat s
  else
    let s := if nbit w3 18 then { s with conc := { s.conc with pulse := tset false s.conc.pulse (0x6C0 + f.num) true } } else s
    setFn s f Rg.fn.CRTAIL (w32 ((crTail s f + 1) % crMod s f))

/-- COPY_DESCRIPTOR: the descriptor at CRTAIL with what the host answers. -/
def copyDesc (f : PFn) (desc data : List Byte) (err : Option (BitVec 8)) (s : State) : State :=
  let a := wordAt desc 2 + wordAt desc 3 % 2 ^ 16 * 2 ^ 32
  let out := nbit (wordAt desc 3) 16
  let len := wordAt desc 4
  let host := wordAt desc 0 + wordAt desc 1 * 2 ^ 32
  if !crReady s f then s
  else if !descOk desc then crFail f a 0x82 s
  else if out then
    let m := crMove (fnInit s f) .read (blocksOf a len) [] [] s
    if m.rsn ≠ 0 then crFail f m.at_ m.rsn.toNat m.st else crDone f desc (hostOut m.st (.write f (BitVec.ofNat 64 host) m.data))
  else match err with
    | some e => crFail f a e.toNat s
    | none =>
      let m := crMove (fnInit s f) .write (blocksOf a len) data [] s
      if m.rsn ≠ 0 then crFail f m.at_ m.rsn.toNat m.st else crDone f desc m.st
def execCopyDescriptor (f : PFn) (desc : List Byte) (data : List Byte) (hostErr : Option (BitVec 8)) (s : State) : Out :=
  actIf (copyWf desc data hostErr) (epDo f.e (copyDesc f desc data hostErr)) s

/-! ### JTAG (R539) -/

/-- The instruction register is loaded: in READY an instruction that would disturb the pins acts as BYPASS. -/
def jtagLoad (i : JInstr) (d : State → List Bool) (s : State) : State :=
  if !s.pins.p48 then s else { s with mgmt := { s.mgmt with jinstr := i, jdata := d s } }

/-- BYPASS, IDCODE: the registers they select. -/
def bypassReg : List Bool := [false]
def idcodeReg : List Bool := (List.range 32).map (fun i => (0x1B640A2F : Nat).testBit i)

/-- An instruction that acts only while MODSTATE is not READY. -/
def jtagPins (i : JInstr) (d : State → List Bool) (s : State) : State :=
  if s.power.mst = .ready then jtagLoad .bypass (fun _ => bypassReg) s else jtagLoad i d s

/-- n free bits: the levels of the pins. -/
def drawBits : Nat → State → List Bool × State
  | 0, s => ([], s)
  | n + 1, s =>
    let (v, s) := draw s
    let (bs, s) := drawBits n s
    (v.getLsbD 0 :: bs, s)

/-- SAMPLE/PRELOAD: the pins are sampled, their levels being no part of the model (log entry 3), and the boundary register is
    preloaded. -/
def samplePreload (scan : List Bool) (s : State) : State :=
  if !s.pins.p48 then s
  else
    let (d, s) := drawBits scan.length s
    { s with mgmt := { s.mgmt with jinstr := .sample, jdata := d, jbound := scan } }

def execBypass (s : State) : Out := act (jtagLoad .bypass (fun _ => bypassReg)) s
def execIdcode (s : State) : Out := act (jtagLoad .idcode (fun _ => idcodeReg)) s
def execSamplePreload (scan : List Bool) (s : State) : Out := act (samplePreload scan) s
def execHighz (s : State) : Out := act (jtagPins .highz (fun _ => bypassReg)) s
def execClamp (s : State) : Out := act (jtagPins .clamp (fun _ => bypassReg)) s
def execExtest (s : State) : Out := act (jtagPins .extest (fun s => s.mgmt.jbound)) s
def execExtestPulse (s : State) : Out := act (jtagPins .extestPulse (fun s => s.mgmt.jbound)) s
def execExtestTrain (s : State) : Out := act (jtagPins .extestTrain (fun s => s.mgmt.jbound)) s

/-- The instruction that acts: one loaded before READY acts as BYPASS once the module is READY. -/
def jtagActs (s : State) : JInstr :=
  match s.mgmt.jinstr with
  | .bypass => .bypass
  | .idcode => .idcode
  | .sample => .sample
  | i => if s.power.mst = .ready then .bypass else i

end Sys2Proof.Machine
end

