-- ==== Sys2Proof/Machine/RegView.lean ====
section
/-! DEFINITION. What a read of each register shows (R13, R17-R19 and the register tables): registers that only show state
    are computed from it here; every other register shows the word it stores. -/

namespace Sys2Proof.Machine

/-! ### The header (R17, R37) -/

/-- Links in use at a router (R435): its endpoint, its neighbours on the die, its bridges and bridge ports. -/
def linksAt (n : Node) : Nat :=
  let line := match dieKind n.1 with
    | .anvil => b2n (4 ≤ n.2) + b2n (n.2 < 12) + b2n (n.2 % 4 != 0) + b2n (n.2 % 4 != 3)
    | _ => b2n (n.2 != 0) + b2n (n.2 + 1 < routers n.1)
  1 + line + (bridgesAt n).length

/-- BLKCAP. -/
def blkCap (s : State) : Blk → Nat
  | .row t => b2n (regionGood s (tileRegion t)) * 3 + 12
  | .seq _ => 1
  | .acnt _ => 256
  | .bank _ g => 0x1000 + b2n (g == 0)
  | .seng _ => 0x04000800
  | .chan _ _ => 10
  | .nve _ _ | .pvm _ => 64
  | .region _ => 0x02000300
  | .probe d r => linksAt (d, r)
  | .ptab d => b2n (dieKind d == .base)
  | .port _ => 0x1000001F
  | .lanes _ => 16
  | _ => 0

/-- Word w of the error log of a page, newest entry first (R562). -/
def logWord (s : State) (page w : Nat) : W32 :=
  match (logOf s page)[w / 4]? with
  | none => 0
  | some e => match w % 4 with | 0 => e.w0 | 1 => e.w1 | 2 => e.w2 | _ => e.w3

/-- A header register. -/
def hdrView (s : State) (b : Blk) (page off i : Nat) : W32 :=
  let k := b.keyP page
  if off = Rg.hdr.BLKID then w32 (b.die + b.inst * 2 ^ 8 + b.code * 2 ^ 16)
  else if off = Rg.hdr.BLKCAP then w32 (blkCap s b)
  else if off = Rg.hdr.BLKPART then w32 (ownerOf s b).toNat
  else if off = Rg.hdr.BLKCTL then reg s (b.key + Rg.hdr.BLKCTL) &&& 0xFF00
  else if off = Rg.hdr.BLKSTAT then w32 (blkState s b + (blkSt s b).epoch.toNat * 2 ^ 8)
  else if off = Rg.hdr.EVPEND then w32 (evPend s b page)
  else if off = Rg.hdr.EVLIVE then w32 (levels s b page)
  else if off = Rg.hdr.ERRLOG then logWord s k i
  else reg s (k + off)

/-! ### Tile pages (R114-R121, R204-R210) -/

/-- ACCRECA of a record, 0 without one. -/
def accRec (a : SegAcc) (k : Nat) : Nat :=
  match a.recs.lookup k with
  | none => 0
  | some r => 1 + 2 * b2n r.int + 4 * b2n r.sat + r.rdi % 16 * 2 ^ 4 + r.first % 256 * 2 ^ 8 + r.count % 512 * 2 ^ 16

def entCode : EntK → Nat
  | .idle => 0 | .opened => 1 | .pending => 2

/-- SEGPROG of a segment: its executing command's admissions, and whether a front, which rides on token or sample 0 (R69, R73),
    is in the row. Of several commands that are executing it shows the oldest, which R114 leaves open (DESIGN CHOICE, log
    entry 63). -/
def segProg (r : Row) (i : Nat) : Nat :=
  if shapeSegs r.shape ≤ i then 0
  else
    let adm := match r.exec.find? (fun c => c.seg == i) with
      | some c => c.admitted % 2 ^ 24 + 2 ^ 24
      | none => 0
    let front := (segOf r i).items.any (fun it => it.kind == .token 0 || it.kind == .sample 0)
    adm + 2 ^ 25 * b2n front

/-- INSPDATA: an accumulator, or a word of a weight record. -/
def inspWord (s : State) (t : Fin 64) : W32 :=
  let a := reg s (Blk.keyP (.row t) 5 + 0x80)
  let lane := bits a 8 0
  let i := bits a 16 9
  if a.getLsbD 17 then (if i < 34 then w32 (leNat (((tget [] (rowOf s t).wts lane).drop (4 * i)).take 4)) else 0)
  else accVal s t lane i

def rowView (s : State) (t : Fin 64) (off i : Nat) : Option Nat :=
  let r := rowOf s t
  let segOfRec (n : Nat) : SegAcc := (segOf r (i / n)).acc
  if off = Rg.row.TSHAPE then some r.shape.toNat
  else if off = Rg.row.TMODE then some (bits (reg s (Blk.key (.row t) + off)) 1 0 + 2 ^ 8 * b2n r.compat)
  else if off = Rg.row.RAMPSTAT then some (r.level % 16 + 2 ^ 8 * b2n r.grantWait + 2 ^ 9 * b2n r.granted)
  else if off = Rg.row.CMDQSTAT then
    some (r.queue.length % 32 + 2 ^ 8 * b2n ((r.queue.head?.map (·.op)) == some .shape) + r.fabSeq.toNat * 2 ^ 16)
  else if off = Rg.row.SEGPROG then some (segProg r i)
  else if off = Rg.row.ACCRECA then some (accRec (segOfRec 4) (i % 4))
  else if off = Rg.row.ACCRECB then some (match (segOfRec 4).recs.lookup (i % 4) with | some x => x.off % 2 ^ 32 | none => 0)
  else if off = Rg.row.ACCSTATE then
    some (((List.range 16).map (fun j => entCode (entOf (segOfRec 16) (i % 16 * 16 + j)).k * 4 ^ j)).sum)
  else if off = Rg.row.ACCTYPE then some (wordOf (fun j => (entOf (segOfRec 8) (i % 8 * 32 + j)).int) 32)
  else if off = Rg.row.OPSTAT then some (b2n (portConn s t) + 2 * b2n (usesPort r false))
  else if off = Rg.row.RESSTAT then some (b2n (portConn s t) + 2 * b2n (usesPort r true))
  else if off = Rg.row.INSPDATA then some (if blkState s (.row t) = 5 then (inspWord s t).toNat else 0)
  else none

/-- Queue length and activity of a unit. -/
def unitStat (u : Unit) : Nat := u.queue.length % 16 + 2 ^ 4 * b2n u.active.isSome

/-- The counter that a waiting SEM waits for. -/
def semCnt (u : Unit) : Option Nat :=
  match u.active with
  | some c => if u.waiting && hOpc c.cmd == 1 then some (sCnt c.cmd) else none
  | none => none

def seqView (s : State) (t : Fin 64) (off : Nat) : Option Nat :=
  let x := tile s t
  let b := blkState s (.seq t)
  let old (f : SkipEnt → W32) : Nat := match x.seq.skips with | e :: _ => (f e).toNat | [] => 0
  if off = Rg.seq.SEQPC then some (if b = 2 ∨ b = 5 ∨ b = 6 then x.seq.pc.toNat % 2 ^ 17 / 4 * 4 else 0)
  else if off = Rg.seq.SEQSTAT then some (seqStat x.seq)
  else if off = Rg.seq.SEQDOOR then some 0
  else if off = Rg.seq.MOVSTAT then some (unitStat x.mover)
  else if off = Rg.seq.MPROG then some (x.mover.prog % 2 ^ 32)
  else if off = Rg.seq.SYNCSTAT then
    some (x.sync.queue.length % 16 + 2 ^ 4 * b2n (semCnt x.sync).isSome + (semCnt x.sync).getD 0 * 2 ^ 8)
  else if off = Rg.seq.STRSTAT then some (x.str.queue.length % 8)
  else if off = Rg.seq.SKIPSTAT then some x.seq.skips.length
  else if off = Rg.seq.SKIPADDR then some (old (·.addr))
  else if off = Rg.seq.SKIPHDR then some (old (·.hdr))
  else if off = Rg.seq.SKIPRSN then some (old (·.reason))
  else if off = Rg.seq.DBGDATA then some (if dbgOpen s t then (dbgGet s t).toNat else 0)
  else none

def vecView (u : Unit) (off : Nat) : Option Nat :=
  if off = Rg.vec.VSTAT then some (unitStat u + 2 ^ 8 * b2n u.compat)
  else if off = Rg.vec.VPROG then some (u.prog % 2 ^ 25)
  else none

def bankView (s : State) (t : Fin 64) (g : Fin 4) (off : Nat) : Option Nat :=
  let b := bank s t g
  if off = Rg.bank.BGSTAT then some (b2n b.wiped + 2 * b2n b.sweep + 4 * b2n (scrubs s t g))
  else if off = Rg.bank.LAPPROG then some (lapProg b)
  else if off = Rg.bank.SWEEPPROG && b.sweep then some (sweepRows s t g)
  else none

/-! ### Stack pages (R284-R286, R328-R331, R405) -/

def sengView (s : State) (k : Fin 8) (page off i : Nat) : Option Nat :=
  let held := ((engCtxs s k).map (fun e => ctxHeld e.2)).sum
  let floors := ((engCtxs s k).map (fun e => e.2.floor)).sum
  if off = Rg.seng.CTXERRSUM then some (ctxErrSum s k page)
  else if off = Rg.seng.CTXWMLIVE then some (ctxWmLive s k page)
  else if off = Rg.seng.POOLSTAT then some (1024 - held + poolBorrowed s k * 2 ^ 16)
  else if off = Rg.seng.POOLRES then some (floors + (1024 - quotaSum s k) * 2 ^ 16)
  else if off = Rg.seng.POOLWMST then some (b2n (poolWm s k) + bits (reg s (sengKey k + off)) 1 1 * 2)
  else if off = Rg.seng.PARTHELD then some (partFloors s k i + partBorrowed s k i * 2 ^ 16)
  else none

def ctxStCode : CtxSt → Nat
  | .idle => 0 | .active => 1 | .pausing => 2 | .paused => 3 | .stopping => 4 | .error => 5

/-- What a cursor waits for at a mark. -/
def atMark (c : Ctx) (y : Cursor) : Bool := ctxRuns c && y.blk.isSome && !y.met

/-- RWAIT and WWAIT. -/
def rWait (c : Ctx) : Nat := if atMark c c.rcur then 1 else if wantsBuf c then 2 else if c.rwait then 3 else 0
def wWait (s : State) (c : Ctx) : Nat := if atMark c c.wcur then 1 else if wantsData s c then 2 else if c.wwait then 3 else 0

/-- CTXWAITT: the longest of the timed waits, in µs; the waits of a block with LX set are not timed (R277). -/
def waitT (s : State) (c : Ctx) : Nat :=
  let one (y : Cursor) (x : Option (BitVec 64)) : Nat :=
    match x with | some t => if timed y then (now s - t.toNat) / 1000 else 0 | none => 0
  max (max (one c.rcur c.rcur.since) (one c.wcur c.wcur.since)) (max (one c.rcur c.bufSince) (one c.wcur c.stgSince))

/-- A cursor's descriptor: the one whose block it acts on or acted on last, until it reaches the next one. DESIGN CHOICE
    (log entry 67): the spec does not say when the address moves on. -/
def curDesc (y : Cursor) : Nat := match y.blk with | some d => d.at_.toNat | none => y.addr.toNat

def ctxView (s : State) (k : Fin 8) (x : Fin 2048) (off : Nat) : Option Nat :=
  let c := ctx s k x
  let lo (n : Nat) : Option Nat := some (n % 2 ^ 32)
  let hi (n : Nat) : Option Nat := some (n / 2 ^ 32 % 2 ^ 32)
  if off = Rg.ctx.CTXSTAT then
    some (ctxStCode c.st + 2 ^ 3 * b2n c.done + rWait c * 2 ^ 4 + wWait s c * 2 ^ 6 + ctxHeld c * 2 ^ 8 + ctxFilled c * 2 ^ 20)
  else if off = Rg.ctx.CTXRDESC then lo (curDesc c.rcur)
  else if off = Rg.ctx.CTXRDESCH then hi (curDesc c.rcur)
  else if off = Rg.ctx.CTXWDESC then lo (curDesc c.wcur)
  else if off = Rg.ctx.CTXWDESCH then hi (curDesc c.wcur)
  else if off = Rg.ctx.CTXRPOS then lo c.rpos
  else if off = Rg.ctx.CTXRPOSH then hi c.rpos
  else if off = Rg.ctx.CTXWPOS then lo c.wpos
  else if off = Rg.ctx.CTXWPOSH then hi c.wpos
  else if off = Rg.ctx.CTXRBIAS then some c.rcur.bias.toNat
  else if off = Rg.ctx.CTXWBIAS then some c.wcur.bias.toNat
  else if off = Rg.ctx.CTXWAITT then some (waitT s c)
  else none

def chanView (s : State) (k : Fin 8) (c : Fin 32) (off : Nat) : Option Nat :=
  let x := chan s k c
  if off = Rg.chan.CHSTAT then
    some (b2n x.frozen.isSome + 2 * b2n x.training + 4 * b2n (stack s k).fast + 8 * b2n (!x.inorder.isEmpty) + x.queue.length % 256 * 2 ^ 4)
  else none

def pvmView (s : State) (k : Fin 8) (off : Nat) : Option Nat :=
  if off = Rg.pvm.PVSTAT then some (b2n (stack s k).clearing.isSome)
  else if off = Rg.pvm.VALIDCNT then some ((s.pv.filter (fun e => e.1 / 2 ^ 23 == k.val)).length)
  else if off = Rg.pvm.FILLSTAT then some (stack s k).fills.length
  else if off = Rg.pvm.PVQDATA then
    let p := bits (reg s (Blk.key (.pvm k) + Rg.pvm.PVQADDR)) 22 5 * 32
    some (wordOf (fun i => pageValid s k (p + i)) 32)
  else if off = Rg.pvm.LAPPROG then
    some (((List.range 32).map (fun i => (chan s k (fin 32 i)).scrubAt)).foldl min (2 ^ 24 - 1))
  else none

def nveView (s : State) (k : Fin 8) (e : Fin 16) (off : Nat) : Option Nat :=
  let u := if isStopped s (.nve k e) then { eng s k e with active := none } else eng s k e
  if off = Rg.nve.NESTAT then some (unitStat u + 2 ^ 5 * b2n (epochDiffers s k e) + 2 ^ 8 * b2n u.compat)
  else if off = Rg.nve.NEPROG then some (u.prog % 2 ^ 25)
  else none

/-! ### Zenith, fabric, network and link pages -/

def regionView (s : State) (r : Fin 16) (off i : Nat) : Option Nat :=
  let g := region s r
  if off = Rg.region.FRSTAT then
    some (b2n g.cleared + 2 * b2n g.loaded + 4 * b2n g.setReset + 8 * b2n g.portsOn + g.pllLock.toNat * 2 ^ 4 + 2 ^ 6 * b2n g.clearing +
      2 ^ 7 * b2n g.starting + g.inits.length % 128 * 2 ^ 8 + winOut g % 128 * 2 ^ 16)
  else if off = Rg.region.FRPWRLIM then some (allocOf s r)
  else if off = Rg.region.PINUSE then some (pinUse s r)
  else if off = Rg.region.PORTCLK then some (if g.loaded then (Config.imageClocks g.frames).toNat % 2 ^ 23 &&& 0x777777 else 0)
  else if off = Rg.region.FCLKMEAS then some (if g.loaded ∧ clocksRun s r then clkMHz g i else 0)
  else none

/-- The region in hand of a load. -/
def ldrRegion (s : State) : Nat := match s.loader.entries[s.loader.cur]? with | some e => e.region.val | none => 0

/-- CFGDONE as the pin reads: low while this module drives it; else what the wired chain makes of it (log entry 3). -/
def donePin (s : State) : Nat := if doneLow s then 0 else (Config.freeWord s.frees).toNat % 2

def ccfgView (s : State) (off : Nat) : Option Nat :=
  if off = Rg.ccfg.CCSTAT then
    some (phaseCode s.loader.phase + ldrRegion s * 2 ^ 4 + 2 ^ 8 * b2n (doneLow s) + donePin s * 2 ^ 9 +
      2 ^ 10 * b2n (s.loader.retryExt && !s.loader.retryDrv))
  else if off = Rg.ccfg.CCPARTID then some 0x0B640F01
  else if off = Rg.ccfg.CCRBPROG then some (s.loader.rbRegion.val + s.loader.rbCol * 2 ^ 4)
  else none

def probeView (s : State) (d r off : Nat) : Option Nat :=
  let tr := tget [] s.net.traces (16 * d + r)
  if off = Rg.probe.PRTRSTAT then some (tr.length % 512 + 2 ^ 9 * b2n (tget false s.net.wrapped (16 * d + r)))
  else if off = Rg.probe.PRTRDATA then
    let a := reg s (Blk.key (.probe d r) + Rg.probe.PRTRADDR)
    some (match tr[bits a 7 0]? with
      | none => 0
      | some e => (match bits a 9 8 with | 0 => e.h0 | 1 => e.h1 | 2 => e.a | _ => e.t).toNat)
  else none

def ptabView (s : State) (d off i : Nat) : Option Nat :=
  let ring := tget [] s.net.lulls d
  if off = Rg.ptab.PTFLIVE then some (ptfLive s d)
  else if off = Rg.ptab.LRSTAT then some ring.length
  else if off = Rg.ptab.LRDATA then
    some (match ring with
      | [] => 0
      | l :: _ => (match i with | 0 => l.w0 | 1 => l.w1 | 2 => l.w2 | _ => l.w3).toNat)
  else none

def lsCode : LState → Nat
  | .down => 0 | .train => 1 | .step => 2 | .qualify => 3 | .up => 4 | .retrain => 5 | .failed => 6

def portView (s : State) (p : Fin 96) (off i : Nat) : Option Nat :=
  let x := port s p
  if off = Rg.port.PSTAT then
    some (lsCode x.ls + x.rate % 8 * 2 ^ 4 + 2 ^ 8 * b2n x.txMist + 2 ^ 9 * b2n x.rxMist + 2 ^ 10 * b2n x.paused.isSome +
      x.failCause.toNat * 2 ^ 12 + x.attempts % 256 * 2 ^ 16)
  else if off = Rg.port.RXWM then some (b2n (rxWm s p) + bits (ptReg s p off) 1 1 * 2)
  else if off = Rg.port.TAGSTAT then
    some ((x.tags.filter (·.2.out)).length + (x.tags.filter (·.2.held)).length * 2 ^ 16)
  else if off = Rg.port.CREDSTAT then some (credAvail x i % 4096)
  else none

def mstCode : MState → Nat
  | .reset => 0 | .boot => 1 | .init => 2 | .ready => 3 | .mismatch => 4 | .bootfail => 5 | .thermal => 6

/-- RAILV measures a voltage the spec gives no value for (log entry 3). -/
def ptmView (s : State) (off i : Nat) : Option Nat :=
  if off = Rg.ptm.MODSTAT then some (mstCode s.power.mst)
  else if off = Rg.ptm.TBASELO then some (now s % 2 ^ 32)
  else if off = Rg.ptm.PDSTAT then some (s.power.on.toNat / 2 ^ (32 * i) % 2 ^ 32)
  else if off = Rg.ptm.PDSLEEP then some (s.power.sleep.toNat / 2 ^ (32 * i) % 2 ^ 32)
  else if off = Rg.ptm.CAPSTAT then some (b2n s.power.capping + s.power.lvlcap % 16 * 2 ^ 4 + 2 ^ 8 * b2n s.power.fsrail)
  else if off = Rg.ptm.GRANTSTAT then some (s.power.grantQ.length)
  else if off = Rg.ptm.RAILV then some (bits (ptmReg s (off + 4 * i)) 9 0 + (Config.freeWord s.frees).toNat % 1024 * 2 ^ 16)
  else none

def ocastView (s : State) (off : Nat) : Option Nat :=
  if off = Rg.ocast.OCSTAT then some (b2n s.ocast.busy + 2 * b2n s.ocast.epBusy)
  else if off = Rg.ocast.EPPEND then some s.ocast.epUnits.length
  else none

/-- The aperture APSEL selects. -/
def apSel (s : State) (e : Fin 2) : Nat :=
  let a := epReg s e Rg.pcie.APSEL
  apIdx { e, f := fin 17 (bits a 4 0) } (bits a 13 8)

def concView (s : State) (off i : Nat) : Option Nat :=
  if off = Rg.evc.TSTAT then some (b2n (s.conc.new.getLsbD i) + 2 * b2n (targetIdle s i))
  else if off = Rg.evc.SRCLIVE then some (wordOf (fun j => srcIn s (32 * i + j) && !srcDead (32 * i + j)) 32)
  else if off = Rg.evc.DBSET then some (wordOf (fun j => tget false s.conc.pulse (0x680 + 32 * i + j)) 32)
  else none

/-- Word w of the selected signature slot's hash, whose first byte is its most significant. -/
def keyHash (s : State) : Nat :=
  let a := reg s (secKey + Rg.sec.KEYHSEL)
  match s.fuses.sigKeys.lookup (bits a 2 0) with
  | none => 0
  | some h =>
    let w := bits a 7 4
    if w < 12 then leNat (((leBytes 48 h.toNat).reverse.drop (4 * w)).take 4) else 0

def secView (s : State) (off : Nat) : Option Nat :=
  let f := s.fuses
  if off = Rg.sec.FPRDATA then some (fprWord f.fpr (bits (reg s (secKey + Rg.sec.FPRADDR)) 11 2 * 4)).toNat
  else if off = Rg.sec.KEYSTAT then
    some (wordOf (slotSet s false) 6 + f.sigRev.toNat * 2 ^ 8 + wordOf (slotSet s true) 3 * 2 ^ 16 + f.encRev.toNat * 2 ^ 20 + 2 ^ 31 * b2n (keyBusy s))
  else if off = Rg.sec.KEYHDATA then some (keyHash s)
  else none

/-! ### Any register -/

/-- The value of a register that shows state; none for one that shows what it stores. -/
def blkView (s : State) (b : Blk) (page off roff i : Nat) : Option Nat :=
  match b with
  | .row t => rowView s t roff i
  | .seq t => seqView s t roff
  | .vec t => vecView (tile s t).vec roff
  | .acnt _ => none
  | .bank t g => bankView s t g roff
  | .seng k =>
    if 0x400 ≤ off then ctxView s k (fin 2048 (32 * page + (off - 0x400) / 0x60)) roff else sengView s k page roff i
  | .chan k c => chanView s k c roff
  | .nve k e => nveView s k e roff
  | .pvm k => pvmView s k roff
  | .check k c => if roff = Rg.ck.CKSTAT then some (ckStat (check s (.ord k c))).toNat else none
  | .pcheck c => if roff = Rg.ck.CKSTAT then some (ckStat (check s (.priv c))).toNat else none
  | .region r => regionView s r roff i
  | .port p => portView s p roff i
  | .lanes _ => none
  | .loader => ccfgView s roff
  | .conc => concView s roff i
  | .ptm => ptmView s roff i
  | .pcie e => if roff = Rg.pcie.APDATA then some (tget 0 s.host.aps (apSel s e)).toNat else none
  | .ocast => ocastView s roff
  | .probe d r => probeView s d r roff
  | .ptab d => ptabView s d roff i
  | .sec => secView s roff

/-- What a read of a register shows. Of an ABSENT block every register but BLKID reads 0 (R6); so does an offset that holds
    none. -/
def regView (s : State) (b : Blk) (page off : Nat) : W32 :=
  if absent s b then (if off = Rg.hdr.BLKID then hdrView s b page off 0 else 0)
  else match regAt b page off with
  | none => 0
  | some (r, i) =>
    if off < 0x80 then hdrView s b page r.off i
    else if r.ty = .wo then 0
    else match blkView s b page off r.off i with
      | some v => w32 v
      | none => reg s (b.keyP page + off)

end Sys2Proof.Machine
end

