-- ==== Sys2Proof/Machine/RegAccess.lean ====
section
/-! DEFINITION. Register accesses: who may (R422), what reaches the block (R44, R417, R419, R507), what a read clears and a
    write does, register by register (R13-R18 and the register tables), and how an access is served at its target. -/

namespace Sys2Proof.Machine

/-! ### What a read changes (R13, R206, R520) -/

/-- A read of a register clears it, or moves what it shows. -/
def readEff (b : Blk) (page off : Nat) (s : State) : State :=
  if absent s b then s
  else match regAt b page off with
  | none => s
  | some (r, _) =>
    let k := b.keyP page + off
    if r.ty = .rc then setReg s k 0
    else match b with
    | .seq t => if r.off = Rg.seq.DBGDATA then dbgRead t s else s
    | .bank t g => if r.off = Rg.bank.SWEEPPROG then sweepLook t g s else s
    | .ptm =>
      if off < 0x80 then s
      else if r.off = Rg.ptm.TBASELO then setReg s (ptmKey + Rg.ptm.TBASEHI) (w32 (now s / 2 ^ 32))
      else if r.off = Rg.ptm.TEMP then updReg s k (fun w => w32 (bits w 7 0 * 257))
      else if r.off = Rg.ptm.RAILV then { s with frees := s.frees + 1 } else s
    | .loader => if r.off = Rg.ccfg.CCSTAT then { s with frees := s.frees + 1 } else s
    | _ => s

/-! ### Who may, and what reaches the block -/

/-- A context's registers (R248). -/
def ctxOff (off : Nat) : Bool := decide (0x400 ≤ off)

/-- The ownership check of a register access (R422). -/
def regMay (s : State) (who : Init) (b : Blk) (page off : Nat) (write : Bool) : Bool :=
  if isOp who then true
  else match b with
  | .ptm => !write && page == 0 && (off == Rg.ptm.MODSTAT || off == Rg.ptm.TBASELO || off == Rg.ptm.TBASEHI)
  | .seng k =>
    ctxOff off && who.part == ctxOwn s k (fin 2048 (32 * page + (off - 0x400) / 0x60)) &&
      !(write && (off - 0x400) % 0x60 == Rg.ctx.CTXOWN)
  | _ =>
    !opOnly b && ownOk who (ownerOf s b) && !(write && off == Rg.hdr.BLKPART) &&
    match b with
    | .region _ => !(write && (off == Rg.region.FRCTL || off == Rg.region.FRCMD))
    | .port _ => !(write && off == Rg.port.LOCALID)
    | _ => true

/-- What an access is answered with, 0 where it is served; none while it waits for the block's domain (R417, R419). -/
def regCheck (s : State) (who : Init) (b : Blk) (page off : Nat) (write : Bool) : Option (BitVec 8) :=
  if !regMay s who b page off write then some Rsn.partition
  else if absent s b then some Rsn.ok
  else if off < 0x80 then some (if resetting s b then Rsn.resetAbort else Rsn.ok)
  else mgmtReach s b

/-! ### Plain writes (R13, R14) -/

/-- The bits of a register that exist take the value written. -/
def putReg (s : State) (k mask : Nat) (v : W32) : State := updReg s k (fun o => (v &&& w32 mask) ||| (o &&& ~~~ w32 mask))

/-- A write of a register by its access type. -/
def plainPut (b : Blk) (page off : Nat) (r : RegRow) (v : W32) (s : State) : State :=
  let k := b.keyP page + off
  match r.ty with
  | .rw => putReg s k r.mask v
  | .rwl => if blkState s b = 5 then putReg s k r.mask v else refuseReg s b page off
  | .w1c => updReg s k (fun o => o &&& ~~~ (v &&& w32 r.mask))
  | _ => s

/-- A write that is refused unless `ok`. -/
def okPut (ok : Bool) (b : Blk) (page off : Nat) (r : RegRow) (v : W32) (s : State) : State :=
  if ok then plainPut b page off r v s else refuseReg s b page off

/-- As `okPut` for a register written only while STOPPED. -/
def lockedOk (ok : Bool) (b : Blk) (page off : Nat) (r : RegRow) (v : W32) (s : State) : State :=
  okPut (ok || blkState s b != 5) b page off r v s

/-! ### The header (R15-R18, R427, R492) -/

/-- The clean state in which a block's owner may change (R427, R483). -/
def ownClean (s : State) : Blk → Bool
  | .row t | .seq t | .vec t | .acnt t =>
    [Blk.row t, .seq t, .vec t, .acnt t].all (fun b => decide (blkState s b = 2 ∨ blkState s b = 0) && !(blkSt s b).used)
  | .bank t g => blkState s (.bank t g) == 5 && (bank s t g).wiped
  | .nve k e => blkState s (.nve k e) == 2 && !(blkSt s (.nve k e)).used
  | .check k c => !(check s (.ord k c)).busy
  | .region r => blkState s (.region r) == 2 && (region s r).cleared
  | .port p =>
    let x := port s p
    blkState s (.port p) == 5 && (x.ls == .down || x.ls == .failed) && !x.tags.any (fun e => e.2.out || e.2.held) && !rxEn s p
  | _ => false

/-- A refused owner change, in the block's log (R115, R241, R350, R427). -/
def refuseOwn (s : State) (b : Blk) (page : Nat) : State :=
  match b with
  | .row t | .seq t | .vec t | .acnt t => logE s (Blk.key (.row t)) 0x08 0 (w32 Rg.hdr.BLKPART)
  | .bank _ _ => logE s (b.keyP page) 0x06 (w32 Rg.hdr.BLKPART)
  | .region _ => logE s (b.keyP page) 0x05 (w32 Rg.hdr.BLKPART)
  | b => refuseReg s b page Rg.hdr.BLKPART

/-- What a change of owner returns to reset (R397, R483). -/
def ownFresh (b : Blk) (s : State) : State :=
  match b with
  | .check k c => updCheck (clearLogs (dropRegs s (inBlk b)) b) (.ord k c) (fun _ => check0)
  | .port p => updPort (dropBlk s b) p (fun x => { port0 with tags := x.tags, serveNext := x.serveNext })
  | _ => s

/-- A write of BLKPART. -/
def ownPut (b : Blk) (page : Nat) (v : W32) (s : State) : State :=
  let p := bits v 3 0
  if ownerFixed b then s
  else if !ownClean s b || (p != 0 && s.power.mst != .ready) then refuseOwn s b page
  else
    let was := (ownerOf s b).toNat
    let s := match b with
      | .port _ => if was = p then s else ownFresh b s
      | _ => ownFresh b s
    setReg s ((ownerHome b).key + Rg.hdr.BLKPART) (w32 p)

/-- Live bits of a page under level sense. -/
def liveLevel (s : State) (b : Blk) (page : Nat) : W32 :=
  w32 (levels s b page &&& senseIs (reg s (b.keyP page + Rg.hdr.EVSENSE)) 0)

/-- A write of a header register. -/
def hdrPut (b : Blk) (page off : Nat) (v : W32) (s : State) : State :=
  let k := b.keyP page
  if off = Rg.hdr.BLKPART then ownPut b page v s
  else if off = Rg.hdr.BLKCTL then blkctl b v s
  else if off = Rg.hdr.EVPEND then updReg s (k + off) (fun o => o &&& ~~~ (v &&& 0xFFFF &&& ~~~ liveLevel s b page))
  else if off = Rg.hdr.EVENA then setReg s (k + off) (v &&& 0xFFFF)
  else if off = Rg.hdr.EVSENSE then
    let s := setReg s (k + off) v
    updReg s (k + Rg.hdr.EVPEND) (fun o => o ||| liveLevel s b page)
  else s

/-! ### Writes of block registers with a rule of their own -/

/-- SEQDOOR: a 1 sets sequencer event 16 + n. -/
def seqDoor (t : Fin 64) (v : W32) (s : State) : State :=
  (List.range 8).foldl (fun s n => if v.getLsbD n then sev s t (16 + n) else s) s

/-- SKIPPOP. -/
def skipPop (t : Fin 64) (v : W32) (s : State) : State :=
  if v.getLsbD 0 then updCpu s (.tile t) (fun p => { p with skips := p.skips.drop 1 }) else s

/-- A QUOTA write (R262, R492). -/
def quotaPut (k : Fin 8) (p : Nat) (v : W32) (s : State) : State :=
  let n := bits v 10 0
  let off := Rg.seng.QUOTA + 4 * p
  if (p ≠ 0 ∧ s.power.mst ≠ .ready) ∨ 1024 + quotaOf s k p < quotaSum s k + n ∨ n < partFloors s k p then refuseReg s (.seng k) 0 off
  else setReg s (sengKey k + off) (w32 n)

/-- A POOLWM write; a crossing sets STICKY (R266). -/
def poolwmPut (k : Fin 8) (v : W32) (s : State) : State :=
  let t := setReg s (sengKey k + Rg.seng.POOLWM) (v &&& 0x7FF)
  if !poolWm s k && poolWm t k then setRegBit t (sengKey k + Rg.seng.POOLWMST) 1 true else t

/-- A CTXOWN write (R248, R492). -/
def ctxownPut (k : Fin 8) (x : Fin 2048) (page off : Nat) (v : W32) (s : State) : State :=
  let p := bits v 3 0
  if (ctx s k x).st ≠ .idle ∨ (p ≠ 0 ∧ s.power.mst ≠ .ready) then refuseReg s (.seng k) page off
  else if p = (ctxOwn s k x).toNat then s
  else
    let lo := ctxKey k x
    setReg (setCtx (dropRegs s (fun r => decide (lo ≤ r ∧ r < lo + 0x60))) k x ctx0) lo (w32 p)

/-- A write of a context register (R286). -/
def ctxPut (k : Fin 8) (x : Fin 2048) (page off : Nat) (r : RegRow) (v : W32) (s : State) : State :=
  let b := Blk.seng k
  let idle := (ctx s k x).st == .idle
  if r.off = Rg.ctx.CTXOWN then ctxownPut k x page off v s
  else if r.off = Rg.ctx.CTXCFG then okPut (idle && decide (1 ≤ bits v 3 0 ∧ bits v 3 0 ≤ 8)) b page off r v s
  else if r.off = Rg.ctx.CTXLIST then okPut (idle && bits v 4 0 == 0) b page off r v s
  else if r.off = Rg.ctx.CTXLISTH then okPut idle b page off r v s
  else if r.off = Rg.ctx.CTXCMD then ctxDo k x (ctxCmd k x v) s
  else plainPut b page off r v s

def sengPut (k : Fin 8) (page off : Nat) (r : RegRow) (i : Nat) (v : W32) (s : State) : State :=
  let b := Blk.seng k
  if ctxOff off then ctxPut k (fin 2048 (32 * page + (off - 0x400) / 0x60)) page off r v s
  else if r.off = Rg.seng.QUOTA then quotaPut k i v s
  else if r.off = Rg.seng.POOLWM then poolwmPut k v s
  else if r.off = Rg.seng.DEPPOLL then okPut (decide (16 ≤ bits v 12 0 ∧ bits v 12 0 ≤ 4096)) b page off r v s
  else plainPut b page off r v s

/-- FRZCTL: RESUME, else DISCARD. -/
def frzPut (k : Fin 8) (c : Fin 32) (v : W32) (s : State) : State :=
  if v.getLsbD 0 then stackDo k (frzResume k c) s else if v.getLsbD 1 then stackDo k (frzDiscard k c) s else s

def chanPut (k : Fin 8) (c : Fin 32) (off : Nat) (r : RegRow) (v : W32) (s : State) : State :=
  if r.off = Rg.chan.ERASECTL then erasectl k c v s
  else if r.off = Rg.chan.FRZCTL then frzPut k c v s
  else if r.off = Rg.chan.TRNCTL then (if v.getLsbD 0 then trnStart k c s else s)
  else plainPut (.chan k c) 0 off r v s

def pvmPut (k : Fin 8) (off : Nat) (r : RegRow) (v : W32) (s : State) : State :=
  if r.off = Rg.pvm.ILVCFG then ilvcfg k v s
  else if r.off = Rg.pvm.PVCMD then (if v.getLsbD 0 then stackDo k (pvClear k) s else s)
  else if r.off = Rg.pvm.SCRBCTL then lockedOk (decide (8 ≤ bits v 15 4)) (.pvm k) 0 off r v s
  else plainPut (.pvm k) 0 off r v s

def nvePut (k : Fin 8) (e : Fin 16) (off : Nat) (r : RegRow) (v : W32) (s : State) : State :=
  if r.off = Rg.nve.NERSIZE then lockedOk (decide (4 ≤ bits v 4 0 ∧ bits v 4 0 ≤ 16)) (.nve k e) 0 off r v s
  else if r.off = Rg.nve.NEHEAD then neheadPut k e v s
  else
    let s := plainPut (.nve k e) 0 off r v s
    if ringHeld s k e then s else updEng s k e (fun u => { u with epSince := none })

def bankPut (t : Fin 64) (g : Fin 4) (off : Nat) (r : RegRow) (v : W32) (s : State) : State :=
  if r.off = Rg.bank.SWEEPCTL then (if v.getLsbD 0 then sweepStart t g s else s)
  else if r.off = Rg.bank.ERRINJ then errinj t g v s
  else plainPut (.bank t g) 0 off r v s

def rowPut (t : Fin 64) (page off : Nat) (r : RegRow) (v : W32) (s : State) : State :=
  let n := bits v 7 0
  if r.off = Rg.row.RAMPCTL then lockedOk (decide (16 ≤ n ∧ n ≤ 128 ∧ n % 8 = 0)) (.row t) page off r v s
  else if r.off = Rg.row.RATECTL then (if v.getLsbD 0 then rateClr t s else s)
  else plainPut (.row t) page off r v s

def seqPut (t : Fin 64) (page off : Nat) (r : RegRow) (v : W32) (s : State) : State :=
  if r.off = Rg.seq.SEQDOOR then seqDoor t v s
  else if r.off = Rg.seq.SKIPPOP then skipPop t v s
  else if r.off = Rg.seq.DBGDATA then dbgWrite t v s
  else plainPut (.seq t) page off r v s

def acntPut (t : Fin 64) (off : Nat) (r : RegRow) (i : Nat) (v : W32) (s : State) : State :=
  if r.off = Rg.acnt.ACNT then acntReg true t (BitVec.ofNat 8 i) v s
  else if r.off = Rg.acnt.ACADD then acntReg false t (BitVec.ofNat 8 i) v s
  else plainPut (.acnt t) 0 off r v s

def regionPut (g : Fin 16) (off : Nat) (r : RegRow) (i : Nat) (v : W32) (s : State) : State :=
  if r.off = Rg.region.FRCMD then (if v.getLsbD 0 then frClear g s else s)
  else if r.off = Rg.region.WINTO then okPut (decide (1 ≤ bits v 9 0 ∧ bits v 9 0 ≤ 1000)) (.region g) 0 off r v s
  else if r.off = Rg.region.PRBSEL then probePut g i false v s
  else if r.off = Rg.region.PRBPIN then probePut g i true v s
  else plainPut (.region g) 0 off r v s

/-- CCCMD: the first of ABORT, START, RELDONE. -/
def ccCmd (v : W32) (s : State) : State :=
  if v.getLsbD 1 then ccAbort s else if v.getLsbD 0 then ccStart s else if v.getLsbD 2 then ccReldone s else s

def ccfgPut (off : Nat) (r : RegRow) (v : W32) (s : State) : State :=
  let idle := s.loader.phase == .idle
  if r.off = Rg.ccfg.CCCMD then ccCmd v s
  else if r.off = Rg.ccfg.CCCHAIN then okPut idle .loader 0 off r v s
  else if r.off = Rg.ccfg.CCCTL ∨ r.off = Rg.ccfg.CCSRC ∨ r.off = Rg.ccfg.CCSRCH ∨ r.off = Rg.ccfg.CCSRCLEN then
    okPut (idle || s.loader.phase == .error) .loader 0 off r v s
  else plainPut .loader 0 off r v s

/-- A check channel (R405). -/
def ckPut (c : Ck) (off : Nat) (r : RegRow) (v : W32) (s : State) : State :=
  if r.off = Rg.ck.CKCMD then (if v.getLsbD 0 then ckStart c s else s)
  else okPut (r.ty != .rw || !(check s c).busy) c.blk 0 off r v s

/-- A window would overlap an enabled one of another partition (R424). -/
def winClash (s : State) (k w part : Nat) : Bool :=
  let (b, n) := winRange s k w
  (List.range 64).any (fun j =>
    let c := reg s (winKey k j + 0xC)
    let (b', n') := winRange s k j
    j != w && c.getLsbD 4 && bits c 3 0 != part && decide (b < b' + n' ∧ b' < b + n))

/-- A write of a DRAM window's registers (R424, R440, R443, R492). -/
def winPut (k w word : Nat) (v : W32) (s : State) : State :=
  let key := winKey k w
  let d := 8 + 11 * k
  let off := 0x80 + 0x10 * w + 4 * word
  let c := reg s (key + 0xC)
  let en := c.getLsbD 4
  let no (code : Nat) : State := logE s (Blk.keyP (.ptab d) 1) (w32 code) (w32 off)
  if word = 3 then
    let p := bits v 3 0
    if (en && bits c 3 0 != p) || (p != 0 && s.power.mst != .ready) then no 0x01
    else if bits c 3 0 ≠ p ∧ !c.getLsbD 8 then no 0x02
    else if v.getLsbD 4 && !en && winClash s k w p then no 0x01
    else setReg s (key + 0xC) ((v &&& 0x7F) ||| (if v.getLsbD 4 then 0 else c &&& 0x100))
  else
    let mask : W32 := if word = 0 then 0xFFFFF000 else if word = 1 then 0x3F else 0x7FFFFFF
    let len := bits v 26 0
    if en ∨ (word = 2 ∧ (len = 0 ∨ 2 ^ 26 < len)) then no 0x01
    else
      let same := reg s (key + 4 * word) == v &&& mask
      let s := setReg s (key + 4 * word) (v &&& mask)
      if same then s else setRegBit s (key + 0xC) 8 false

def ptabPut (d page off : Nat) (r : RegRow) (i : Nat) (v : W32) (s : State) : State :=
  if r.off = Rg.ptab.LRPOP then lrPop d v s
  else if r.off = Rg.ptab.LULLLIM then okPut (decide (10 ≤ bits v 15 0)) (.ptab d) page off r v s
  else if page = 1 then winPut ((d - 8) / 11) i ((off - 0x80) % 0x10 / 4) v s
  else plainPut (.ptab d) page off r v s

/-- A PAUSECFG write: crossings of the watermark and the automatic PAUSE follow it (R472). -/
def pausecfgPut (p : Fin 96) (off : Nat) (r : RegRow) (v : W32) (s : State) : State :=
  let hi := bits v 22 16
  let t := okPut (decide (1 ≤ hi ∧ hi ≤ 64 ∧ bits v 29 24 < hi)) (.port p) 0 off r v s
  let t := if !rxWm s p && rxWm t p then pulse (setRegBit t (ptKey p + Rg.port.RXWM) 1 true) (ptKey p) 8 else t
  holdBytes p (port t p).rxHeld t

/-- RXCFG: fields other than RXEN only while RXEN is clear (R486). -/
def rxcfgOk (s : State) (p : Fin 96) (v : W32) : Bool :=
  decide (4 ≤ bits v 7 4 ∧ bits v 7 4 ≤ 12) && (!rxEn s p || (v &&& 0xFF3FF2) == (ptReg s p Rg.port.RXCFG &&& 0xFF3FF2))

def portPut (p : Fin 96) (off : Nat) (r : RegRow) (v : W32) (s : State) : State :=
  let b := Blk.port p
  if r.off = Rg.port.PAUSETX then pauseTx p v s
  else if r.off = Rg.port.PCTL then holdBytes p (port s p).rxHeld (plainPut b 0 off r v s)
  else if r.off = Rg.port.PAUSECFG then pausecfgPut p off r v s
  else if r.off = Rg.port.PTIMING then
    lockedOk (decide (16 ≤ bits v 4 0 ∧ bits v 4 0 ≤ 28 ∧ 1 ≤ bits v 15 8 ∧ 1 ≤ bits v 23 16)) b 0 off r v s
  else if r.off = Rg.port.RQTO then okPut (decide (10 ≤ bits v 15 0)) b 0 off r v s
  else if r.off = Rg.port.RXBASE ∨ r.off = Rg.port.RXBASEH then okPut (!rxEn s p) b 0 off r v s
  else if r.off = Rg.port.RXCFG then okPut (rxcfgOk s p v) b 0 off r v s
  else plainPut b 0 off r v s

/-- The range a manager's field must lie in. -/
def ptmRange (s : State) (off : Nat) (v : W32) : Bool :=
  if off = Rg.ptm.PCAP then decide (500 ≤ bits v 12 0 ∧ bits v 12 0 ≤ ordCap s.fuses.fpr)
  else if off = Rg.ptm.VMIN then decide (600 ≤ bits v 9 0 ∧ bits v 9 0 ≤ 720)
  else if off = Rg.ptm.GRANTGAP then decide (bits v 9 0 ≤ 1000)
  else if off = Rg.ptm.TWARN then decide (60 ≤ bits v 7 0 ∧ bits v 7 0 ≤ 105)
  else true

def ptmPut (off : Nat) (r : RegRow) (i : Nat) (v : W32) (s : State) : State :=
  if r.off = Rg.ptm.MODCMD then modrst v s
  else if r.off = Rg.ptm.RSTREQ then dieReset v s
  else if r.off = Rg.ptm.PDREQ then pdreq v s
  else if r.off = Rg.ptm.FABALLOC then faballoc (fin 16 i) v s
  else if ptmRange s r.off v then (if r.off = Rg.ptm.TWARN then hotNote else id) (plainPut .ptm 0 off r v s)
  else ptmLog s 0x03 0 off

def ocastPut (off : Nat) (r : RegRow) (v : W32) (s : State) : State :=
  let b := Blk.ocast
  if r.off = Rg.ocast.OCCMD then
    let s := if v.getLsbD 0 then ocSend s else s
    if v.getLsbD 1 then ocEpoch s else s
  else if r.off = Rg.ocast.EPVAL then okPut (!s.ocast.epBusy) b 0 off r v s
  else if r.off = Rg.ocast.OCLEN then okPut (!s.ocast.busy && bits v 17 0 % 64 == 0 && decide (bits v 17 0 ≤ 0x20000)) b 0 off r v s
  else okPut (r.ty != .rw || !s.ocast.busy) b 0 off r v s

def pciePut (e : Fin 2) (off : Nat) (r : RegRow) (i : Nat) (v : W32) (s : State) : State :=
  if r.off = Rg.pcie.APSEL then
    okPut (decide (bits v 4 0 ≤ 16 ∧ (bits v 4 0 = 0 ∨ bits v 13 8 < 16))) (.pcie e) 0 off r v s
  else if r.off = Rg.pcie.APDATA then
    { s with host := { s.host with aps := tset 0 s.host.aps (apSel s e) (v &&& 0x8000FFFF) } }
  else if r.off = Rg.pcie.VFPART then vfpart e (fin 16 i) v s
  else plainPut (.pcie e) 0 off r v s

def concPut (page off : Nat) (r : RegRow) (i : Nat) (v : W32) (s : State) : State :=
  if r.off = Rg.evc.DBSET then dbSet (i == 1) v s
  else if r.off = Rg.evc.MODTIME then okPut (decide (bits v 9 0 ≤ 1000)) .conc page off r v s
  else if r.off = Rg.evc.SRCCFG then okPut (decide (bits v 13 8 ≤ 37)) .conc page off r v s
  else plainPut .conc page off r v s

def secPut (off : Nat) (r : RegRow) (v : W32) (s : State) : State :=
  if r.off = Rg.sec.KEYPROG then keyProg v s
  else if r.off = Rg.sec.KEYBUF then setReg s (secKey + off) v
  else plainPut .sec 0 off r v s

/-! ### Any register -/

/-- A write of a block register. -/
def blkPut (b : Blk) (page off : Nat) (r : RegRow) (i : Nat) (v : W32) (s : State) : State :=
  match b with
  | .row t => rowPut t page off r v s
  | .seq t => seqPut t page off r v s
  | .acnt t => acntPut t off r i v s
  | .bank t g => bankPut t g off r v s
  | .seng k => sengPut k page off r i v s
  | .chan k c => chanPut k c off r v s
  | .nve k e => nvePut k e off r v s
  | .pvm k => pvmPut k off r v s
  | .check k c => ckPut (.ord k c) off r v s
  | .pcheck c => ckPut (.priv c) off r v s
  | .region g => regionPut g off r i v s
  | .port p => portPut p off r v s
  | .loader => ccfgPut off r v s
  | .conc => concPut page off r i v s
  | .ptm => ptmPut off r i v s
  | .pcie e => pciePut e off r i v s
  | .ocast => ocastPut off r v s
  | .sec => secPut off r v s
  | .ptab d => ptabPut d page off r i v s
  | .probe d n => if r.off = Rg.probe.PRCLR then prClr (d, n) v s else plainPut b page off r v s
  | .vec _ | .lanes _ => plainPut b page off r v s

/-- The pages whose levels a register write can move. -/
def putPages (b : Blk) (page : Nat) : List (Blk × Nat) :=
  match b with
  | .seng k => [(b, page), (b, 0), (.ptab (8 + 11 * k.val), 0)]
  | .probe _ _ | .ptab _ | .conc | .sec => [(b, page)]
  | b => ctlPages b

/-- The entries that a write makes in a region's log carry its requester (R362). -/
def logRequester (who : Init) (b : Blk) (f : State → State) (s : State) : State :=
  match b with
  | .region _ =>
    let n := (logOf (f (clearLog s b.key)) b.key).length
    let t := f s
    if n = 0 then t
    else { t with logs := tset [] t.logs b.key
                            ((logOf t b.key).zipIdx.map (fun e => if e.2 < n then { e.1 with w3 := reqWord who } else e.1)) }
  | _ => f s

/-- A write of a register; writes to an ABSENT page are discarded (R6), and so are those to an offset with no register. -/
def regWrite (who : Init) (b : Blk) (page off : Nat) (v : W32) (s : State) : State :=
  if absent s b then s
  else match regAt b page off with
  | none => s
  | some (r, i) =>
    watched (putPages b page)
      (logRequester who b (fun s => if off < 0x80 then hdrPut b page r.off v s else blkPut b page off r i v s)) s

/-! ### Serving an access at its target -/

/-- A register access that waits for a sleeping domain takes one of its die's sixteen places, or waits in the network. -/
def holdPkt (b : Blk) (p : Pkt) (s : State) : State :=
  let d := b.die
  let h := tget [] s.net.held d
  mgmtWake b (if h.length < 16 then { s with net := { s.net with held := tset [] s.net.held d (h ++ [p]) } }
    else { s with net := { s.net with pkts := s.net.pkts ++ [p] } })

/-- A register access at its target, its packet taken from the network: answered, then with its effect `f` on a write. -/
def regServe (p : Pkt) (b : Blk) (page : Nat) (f : State → State) (s : State) : State :=
  let q := p.req
  let off := q.addr.toNat % 0x1000
  let wr := q.kind == .write
  match regCheck s q.who b page off wr with
  | none => holdPkt b p s
  | some c =>
    if c ≠ 0 then sendResp (respErr s b.die c) p.src q (tableDie b.die) b.rtr c []
    else
      let t := sendResp s p.src q (tableDie b.die) b.rtr 0 (if wr then [] else leBytes 4 (regView s b page off).toNat)
      if wr then f t else readEff b page off t

/-- The packet of a register access that is at its target already. -/
def regPkt (s : State) (src : Src) (who : Init) (b : Blk) (a : Nat) (v : Option W32) : Pkt :=
  let q := mkReq who (if v.isSome then .write else .read) a 4 (match v with | some v => leBytes 4 v.toNat | none => [])
  let d := BitVec.ofNat 7 (tableDie b.die)
  let r := BitVec.ofNat 4 b.rtr
  { req := q, src, fromDie := who.die, fromRtr := who.rtr, dstDie := d, dstRtr := r, die := d, rtr := r, inp := 0, resp := none,
    at_ := s.clock.now }

/-- A register access as a command: `v` the value of a write, `f` what an accepted write does. One of no register page or
    not aligned has no effect (R36, R39), and counts at its initiator's die. -/
def regGate (src : Src) (who : Init) (a : Nat) (v : Option W32) (f : Blk → Nat → State → State) (s : State) : State :=
  match regBlk a with
  | none => respErr s who.die.toNat Rsn.unmapped
  | some (b, page) =>
    if a % 4 ≠ 0 then respErr s who.die.toNat Rsn.unmapped else regServe (regPkt s src who b a v) b page (f b page) s

/-- A write of a register as a command. -/
def regCmd (who : Init) (a : Nat) (v : W32) : State → State :=
  regGate .nobody who a (some v) (fun b page => regWrite who b page (a % 0x1000) v)

/-- A read of a register as a command. -/
def regLook (who : Init) (a : Nat) : State → State := regGate .nobody who a none (fun _ _ s => s)

/-- The address of a register of a block. -/
def regAddr (b : Blk) (page off : Nat) : Nat := 2 * 2 ^ 40 + b.keyP page + off

/-- A write of a block's register as a command. -/
def blkCmd (who : Init) (b : Blk) (page off : Nat) (v : W32) : State → State := regCmd who (regAddr b page off) v

end Sys2Proof.Machine
end

