-- ==== Sys2Proof/Machine/RegRows.lean ====
section
/-! DEFINITION. The commands that are one write, or one read, of a register of their own (the register tables): each goes
    through the checks of any register access (R417, R422) and has the effect its register's rule gives. -/

namespace Sys2Proof.Machine

/-! ### Block control (R13-R18, R427) -/

/-- A BLKCTL write with one request and the epoch field as it stands. -/
def blkReqCmd (b : Blk) (who : Init) (req : W32) (s : State) : State :=
  blkCmd who b 0 Rg.hdr.BLKCTL ((reg s (b.key + Rg.hdr.BLKCTL) &&& 0xFF00) ||| req) s

def execBlkctlRun (b : Blk) (who : Init) (s : State) : Out := actIf b.wf (blkReqCmd b who 1) s
def execBlkctlStop (b : Blk) (who : Init) (s : State) : Out := actIf b.wf (blkReqCmd b who 2) s
def execBlkctlStopnow (b : Blk) (who : Init) (s : State) : Out := actIf b.wf (blkReqCmd b who 4) s
def execBlkctlSoftrst (b : Blk) (who : Init) (s : State) : Out := actIf b.wf (blkReqCmd b who 8) s
def execModeEpochDirectWrite (b : Blk) (who : Init) (epoch : BitVec 8) (s : State) : Out :=
  actIf b.wf (blkCmd who b 0 Rg.hdr.BLKCTL (w32 (epoch.toNat * 2 ^ 8))) s
def execBlkpartWrite (b : Blk) (who : Init) (v : W32) (s : State) : Out := actIf b.wf (blkCmd who b 0 Rg.hdr.BLKPART v) s

/-- REGISTER_WRITE: any register. -/
def execRegisterWrite (who : Init) (a : Addr) (v : W32) (s : State) : Out := actKeys (regCmd who a.toNat v) s

/-- An increment of the RC counter at an address by its block. -/
def rcEvent (a : Nat) (inc : W32) (s : State) : State :=
  match regBlk a with
  | none => s
  | some (b, page) =>
    match regAt b page (a % 0x1000) with
    | none => s
    | some (r, _) => if r.ty = .rc ∧ live s b then bump s (b.keyP page + a % 0x1000) inc.toNat else s

/-- REGISTER_READ_CLEAR: the read, and an increment at the same moment, which shows in the next one (R16). -/
def readClear (who : Init) (a : Nat) (inc : W32) (s : State) : State :=
  let s := regLook who a s
  if inc = 0 then s else rcEvent a inc s
def execRegisterReadClear (who : Init) (a : Addr) (inc : W32) (s : State) : Out := act (readClear who a.toNat inc) s

/-! ### Tile pages (R119, R204-R206, R246) -/

def execRatectlClrmin (who : Init) (t : Fin 64) (s : State) : Out := act (blkCmd who (.row t) 3 0x88 1) s
def execSeqdoorWrite (who : Init) (t : Fin 64) (v : W32) (s : State) : Out := act (blkCmd who (.seq t) 0 Rg.seq.SEQDOOR v) s
def execSkippop (who : Init) (t : Fin 64) (v : W32) (s : State) : Out := act (blkCmd who (.seq t) 1 0x84 v) s
def execDbgdataRead (who : Init) (t : Fin 64) (s : State) : Out := act (regLook who (regAddr (.seq t) 2 0x84)) s
def execDbgdataWrite (who : Init) (t : Fin 64) (v : W32) (s : State) : Out := act (blkCmd who (.seq t) 2 0x84 v) s
def execAcntWrite (who : Init) (t : Fin 64) (c : BitVec 8) (v : W32) (s : State) : Out :=
  act (blkCmd who (.acnt t) 0 (Rg.acnt.ACNT + 4 * c.toNat) v) s
def execAcaddWrite (who : Init) (t : Fin 64) (c : BitVec 8) (v : W32) (s : State) : Out :=
  act (blkCmd who (.acnt t) 0 (Rg.acnt.ACADD + 4 * c.toNat) v) s

/-! ### Scratch bank groups (R236, R239) -/

def execErrinjWrite (who : Init) (t : Fin 64) (g : Fin 4) (v : W32) (s : State) : Out :=
  act (blkCmd who (.bank t g) 0 Rg.bank.ERRINJ v) s
def execSweepctlStart (who : Init) (t : Fin 64) (g : Fin 4) (s : State) : Out :=
  act (blkCmd who (.bank t g) 0 Rg.bank.SWEEPCTL 1) s

/-! ### Streams (R248, R250, R262) -/

/-- A write of a context's register. -/
def ctxCmdAt (who : Init) (k : Fin 8) (x : Fin 2048) (off : Nat) (v : W32) : State → State :=
  blkCmd who (.seng k) (x.val / 32) (0x400 + 0x60 * (x.val % 32) + off) v

def execCtxStart (who : Init) (k : Fin 8) (x : Fin 2048) (s : State) : Out := act (ctxCmdAt who k x Rg.ctx.CTXCMD 1) s
def execCtxStop (who : Init) (k : Fin 8) (x : Fin 2048) (s : State) : Out := act (ctxCmdAt who k x Rg.ctx.CTXCMD 2) s
def execCtxPause (who : Init) (k : Fin 8) (x : Fin 2048) (s : State) : Out := act (ctxCmdAt who k x Rg.ctx.CTXCMD 4) s
def execCtxResume (who : Init) (k : Fin 8) (x : Fin 2048) (s : State) : Out := act (ctxCmdAt who k x Rg.ctx.CTXCMD 8) s
def execCtxownWrite (who : Init) (k : Fin 8) (x : Fin 2048) (v : W32) (s : State) : Out := act (ctxCmdAt who k x Rg.ctx.CTXOWN v) s
def execQuotaWrite (who : Init) (k : Fin 8) (p : Fin 16) (v : W32) (s : State) : Out :=
  act (blkCmd who (.seng k) 0 (Rg.seng.QUOTA + 4 * p.val) v) s

/-! ### DRAM and Nimbus engines (R295, R299, R309, R313, R317, R321) -/

def execPvClear (who : Init) (k : Fin 8) (s : State) : Out := act (blkCmd who (.pvm k) 0 Rg.pvm.PVCMD 1) s
def execIlvcfgWrite (who : Init) (k : Fin 8) (v : W32) (s : State) : Out := act (blkCmd who (.pvm k) 0 Rg.pvm.ILVCFG v) s
def execErasectlWrite (who : Init) (k : Fin 8) (c : Fin 32) (v : W32) (s : State) : Out :=
  act (blkCmd who (.chan k c) 0 Rg.chan.ERASECTL v) s
def execFrzctlResume (who : Init) (k : Fin 8) (c : Fin 32) (s : State) : Out :=
  act (blkCmd who (.chan k c) 0 Rg.chan.FRZCTL 1) s
def execFrzctlDiscard (who : Init) (k : Fin 8) (c : Fin 32) (s : State) : Out :=
  act (blkCmd who (.chan k c) 0 Rg.chan.FRZCTL 2) s
def execTrnctlStart (who : Init) (k : Fin 8) (c : Fin 32) (s : State) : Out :=
  act (blkCmd who (.chan k c) 0 Rg.chan.TRNCTL 1) s
def execNeheadWrite (who : Init) (k : Fin 8) (e : Fin 16) (v : W32) (s : State) : Out :=
  act (blkCmd who (.nve k e) 0 Rg.nve.NEHEAD v) s

/-! ### Fabric, loading, keys, check channels (R349, R358, R374, R377-R383, R405) -/

def execFrClear (who : Init) (r : Fin 16) (s : State) : Out := act (blkCmd who (.region r) 0 Rg.region.FRCMD 1) s
def execProbeRouteWrite (who : Init) (r : Fin 16) (j : Fin 64) (pin : Bool) (v : W32) (s : State) : Out :=
  act (blkCmd who (.region r) 0 ((if pin then Rg.region.PRBPIN else Rg.region.PRBSEL) + 8 * j.val) v) s
def execCcStart (who : Init) (s : State) : Out := act (blkCmd who .loader 0 Rg.ccfg.CCCMD 1) s
def execCcAbort (who : Init) (s : State) : Out := act (blkCmd who .loader 0 Rg.ccfg.CCCMD 2) s
def execCcReldone (who : Init) (s : State) : Out := act (blkCmd who .loader 0 Rg.ccfg.CCCMD 4) s
def execKeyProgram (who : Init) (v : W32) (s : State) : Out :=
  actKeys (blkCmd who .sec 0 Rg.sec.KEYPROG (v &&& 0xFFFFFFEF)) s
def execKeyRevoke (who : Init) (v : W32) (s : State) : Out := actKeys (blkCmd who .sec 0 Rg.sec.KEYPROG (v ||| 0x10)) s
def execCkStart (who : Init) (c : Ck) (s : State) : Out := act (blkCmd who c.blk 0 Rg.ck.CKCMD 1) s

/-! ### Partition tables, probes, ports (R424, R437, R442, R472, R479) -/

def execPwctlWrite (who : Init) (k : Fin 8) (w : Fin 64) (word : Fin 4) (v : W32) (s : State) : Out :=
  act (blkCmd who (.ptab (8 + 11 * k.val)) 1 (0x80 + 0x10 * w.val + 4 * word.val) v) s
def execLrpop (who : Init) (die : BitVec 7) (v : W32) (s : State) : Out := actIf (Blk.ptab die.toNat).wf (blkCmd who (.ptab die.toNat) 3 0x84 v) s
def execPrclr (who : Init) (die : BitVec 7) (rtr : BitVec 4) (v : W32) (s : State) : Out :=
  actIf (Blk.probe die.toNat rtr.toNat).wf (blkCmd who (.probe die.toNat rtr.toNat) 0 Rg.probe.PRCLR v) s
def execPausetxSend (who : Init) (p : Fin 96) (v : W32) (s : State) : Out :=
  act (blkCmd who (.port p) 0 Rg.port.PAUSETX v) s
def execRxheadWrite (who : Init) (p : Fin 96) (v : W32) (s : State) : Out := act (blkCmd who (.port p) 0 Rg.port.RXHEAD v) s

/-! ### The power and thermal manager, the broadcaster (R500, R501, R506, R509, R511, R521) -/

/-- MODCMD REDISCOVER, with the board record read again and what the dies report. -/
def execRediscover (who : Init) (board : List Byte) (rep : Report) (s : State) : Out :=
  act (regGate .nobody who (regAddr .ptm 0 Rg.ptm.MODCMD) (some 1) (fun _ _ => ptmDo (rediscover 1 board rep))) s
def execModrst (who : Init) (v : W32) (s : State) : Out := act (blkCmd who .ptm 0 Rg.ptm.MODCMD v) s
def execOcSend (who : Init) (s : State) : Out := act (blkCmd who .ocast 0 Rg.ocast.OCCMD 1) s
def execOcEpoch (who : Init) (s : State) : Out := act (blkCmd who .ocast 0 Rg.ocast.OCCMD 2) s
def execDieReset (who : Init) (v : W32) (s : State) : Out := act (blkCmd who .ptm 0 Rg.ptm.RSTREQ v) s
def execPdreqOn (who : Init) (d : BitVec 7) (s : State) : Out :=
  act (blkCmd who .ptm 0 Rg.ptm.PDREQ (w32 (d.toNat + 0 * 2 ^ 8))) s
def execPdreqSleep (who : Init) (d : BitVec 7) (s : State) : Out :=
  act (blkCmd who .ptm 0 Rg.ptm.PDREQ (w32 (d.toNat + 1 * 2 ^ 8))) s
def execPdreqShut (who : Init) (d : BitVec 7) (s : State) : Out :=
  act (blkCmd who .ptm 0 Rg.ptm.PDREQ (w32 (d.toNat + 2 * 2 ^ 8))) s
def execFaballocWrite (who : Init) (r : Fin 16) (v : W32) (s : State) : Out :=
  act (blkCmd who .ptm 0 (Rg.ptm.FABALLOC + 4 * r.val) v) s

/-! ### Host side (R526, R536) -/

def execVfpartWrite (who : Init) (e : Fin 2) (n : Fin 16) (v : W32) (s : State) : Out :=
  act (blkCmd who (.pcie e) 0 (Rg.pcie.VFPART + 4 * n.val) v) s
def execDbsetWrite (who : Init) (hi : Bool) (v : W32) (s : State) : Out := act (blkCmd who .conc 5 (0x700 + 4 * b2n hi) v) s

end Sys2Proof.Machine
end

