-- ==== Sys2Proof/Machine/Access.lean ====
section
/-! DEFINITION. Requests at their targets and responses at their initiators (R408, R417), and the management commands of the
    SMBus target (R538). -/

namespace Sys2Proof.Machine

/-! ### TARGET_REQUEST_CHECK (R417) -/

/-- A register access that waits for its domain with no held place free on its die (R419). -/
def stuck (s : State) (p : Pkt) : Bool :=
  match regBlk p.req.addr.toNat with
  | some (b, page) =>
    (regCheck s p.req.who b page (p.req.addr.toNat % 0x1000) (p.req.kind == .write)).isNone &&
      decide (16 ≤ (tget [] s.net.held b.die).length)
  | none => false

/-- A request that is at its target. -/
def reqAt (s : State) (n : Node) (p : Pkt) : Bool := p.resp.isNone && arrived p && pktNode p == n && !stuck s p

/-- A request at its target, taken from the network, is checked and served. -/
def serve (p : Pkt) (s : State) : State :=
  let q := p.req
  let a := q.addr.toNat
  if inDram a then dramAccept s p.src q
  else match scrOff q.addr with
  | some o =>
    let (c, d, s) := scrRequest s q o
    sendResp s p.src q p.dstDie.toNat p.dstRtr.toNat c d
  | none =>
    match winOff a with
    | some (r, _) => winArrive s p.src q r
    | none =>
      match regBlk a with
      | some (b, page) => regServe p b page (regWrite q.who b page (a % 0x1000) (w32 (leNat q.data))) s
      | none => s

def targetCheck (n : Node) (s : State) : State :=
  if !netUp s n.1 then s
  else match s.net.pkts.find? (reqAt s n) with
  | none => s
  | some p => serve p (probeOut n 0 p { s with net := { s.net with pkts := s.net.pkts.erase p } })

def execTargetRequestCheck (die : BitVec 7) (rtr : BitVec 4) (s : State) : Out := actKeys (targetCheck (die.toNat, rtr.toNat)) s

/-! ### Responses at their initiators (R408) -/

/-- A processor awaits a response. -/
def cpuAwaits (s : State) (q : Cpu) : Bool :=
  match (cpu s q).wait with | .load _ _ _ | .store _ => true | _ => false

/-- A context awaits the response to an access. -/
def ctxAwaits (s : State) (k : Fin 8) (x : Fin 2048) (side : Side) (pos : Nat) : Bool :=
  (match side with | .read => (ctx s k x).rin | .write => (ctx s k x).win).any (fun a => a.pos == pos)

/-- A response that NETWORK_RESPONSE takes: LDX_STX_RESPONSE, STREAM_READ_DATA and STREAM_WRITE_ACK take those a processor
    or context awaits. -/
def takenHere (s : State) : Src → Bool
  | .cpu q => !cpuAwaits s q
  | .ctx k x side pos => !ctxAwaits s k x side pos
  | _ => true

/-- A reply of the SMBus target. -/
def reply (r : Option (List W32)) (s : State) : State := { s with mgmt := { s.mgmt with replies := s.mgmt.replies ++ [r] } }

/-- What a response does at its initiator; no one that awaits it: it is discarded. -/
def respond (src : Src) (c : BitVec 8) (d : List Byte) (s : State) : State :=
  match src with
  | .region r t => regDo r (fun s => fabResp s r t c) s
  | .port p key => portDo p (fun s => serveBack s p key c d) s
  | .host f id k => epDo f.e (readPart f id k c d) s
  | .posted f _ a => epDo f.e (fun s => hostSettle (if c = 0 then s else postedFails f a.toNat c s)) s
  | .mgmt => reply (some (if c = 0 then wordsLE d else [])) s
  | _ => s

def netResponse (n : Node) (s : State) : State :=
  match s.net.pkts.find? (fun p => p.resp.isSome && arrived p && pktNode p == n && takenHere s p.src) with
  | none => s
  | some p =>
    let (c, d) := p.resp.getD (0, [])
    resetSettle (respond p.src c d (takePkt p s))

def execNetworkResponse (die : BitVec 7) (rtr : BitVec 4) (s : State) : Out := act (netResponse (die.toNat, rtr.toNat)) s

/-- A response at a processor: also one whose tile is fenced or awaits a reset takes it (R421, R507). -/
def cpuDo (q : Cpu) (f : State → State) (s : State) : State :=
  match q with
  | .tile t => watched (tilePages t) (fun s => if live s (.seq t) then tileSettle t (f s) else s) s
  | .core _ => f s

/-- LDX_STX_RESPONSE. -/
def execLdxStxResponse (q : Cpu) (s : State) : Out := act (fun s => resetSettle (cpuDo q (xResp q) s)) s

/-- STREAM_READ_DATA, STREAM_WRITE_ACK and DEPENDENCE_POLL_RESPONSE; a reset that waits for the context's drain goes on. -/
def ctxResp (k : Fin 8) (x : Fin 2048) (f : State → State) (s : State) : State :=
  resetSettle (if blkOn s (.seng k) then ctxDo k x f s else s)
def execStreamReadData (k : Fin 8) (x : Fin 2048) (s : State) : Out := act (ctxResp k x (readData k x)) s
def execStreamWriteAck (k : Fin 8) (x : Fin 2048) (s : State) : Out := act (ctxResp k x (writeAck k x)) s
def execDependencePollResponse (k : Fin 8) (x : Fin 2048) (side : Side) (s : State) : Out := act (ctxResp k x (depResp k x side)) s

/-! ### MCTP over SMBus (R538) -/

/-- The ROM answers from BOOT onward; nothing answers in module reset. -/
def romAnswers (f : State → State) (s : State) : State := if s.power.mst = .reset then s else f s

/-- Firmware answers; in BOOT and BOOTFAIL the command is refused with status NOTREADY. -/
def fwAnswers (f : State → State) : State → State :=
  romAnswers (fun s => if s.power.mst = .boot ∨ s.power.mst = .bootfail then reply none s else f s)

def ptmShow (s : State) (off : Nat) : W32 := regView s .ptm 0 off

def execGetstate (s : State) : Out :=
  act (romAnswers (fun s => reply (some [ptmShow s Rg.ptm.MODSTAT, ptmShow s Rg.ptm.DISCSTAT, ptmShow s Rg.ptm.LASTSHUT]) s)) s

/-- GETTEMP reads every TEMP register. -/
def getTemp (s : State) : State :=
  let t := reply (some ((List.range 104).map (fun d => ptmShow s (Rg.ptm.TEMP + 4 * d)))) s
  (List.range 104).foldl (fun s d => readEff .ptm 0 (Rg.ptm.TEMP + 4 * d) s) t
def execGettemp (s : State) : Out := act (romAnswers getTemp) s

def execGetpwr (s : State) : Out :=
  act (romAnswers (fun s => reply (some [ptmShow s Rg.ptm.PWRIN, ptmShow s Rg.ptm.PCAP, ptmShow s Rg.ptm.CAPSTAT]) s)) s

/-- A register access by firmware for the SMBus host, as operator: answered at once, or when its domain is awake. One of no
    register answers with no value. -/
def mgmtAccess (a : Nat) (v : Option W32) (s : State) : State :=
  match regBlk a with
  | none => reply (some []) (respErr s 103 Rsn.unmapped)
  | some (b, page) =>
    let off := a % 0x1000
    if a % 4 ≠ 0 then reply (some []) (respErr s 103 Rsn.unmapped)
    else match regCheck s coreInit b page off v.isSome with
    | none => holdPkt b (regPkt s .mgmt coreInit b a v) s
    | some c =>
      if c ≠ 0 then reply (some []) (respErr s b.die c)
      else match v with
      | some v => regWrite coreInit b page off v (reply (some []) s)
      | none => readEff b page off (reply (some [regView s b page off]) s)

def execSetpcap (v : W32) (s : State) : Out := act (fwAnswers (mgmtAccess (regAddr .ptm 0 Rg.ptm.PCAP) (some v))) s
def execReadreg (a : Addr) (s : State) : Out := act (fwAnswers (mgmtAccess a.toNat none)) s
def execWritereg (a : Addr) (v : W32) (s : State) : Out := actKeys (fwAnswers (mgmtAccess a.toNat (some v))) s
def execMctpModrst (s : State) : Out := act (fwAnswers (mgmtAccess (regAddr .ptm 0 Rg.ptm.MODCMD) (some 0xD1E50002))) s

end Sys2Proof.Machine
end

