-- ==== Sys2Proof/Machine/Pins.lean ====
section
/-! DEFINITION. Supplies, reset and status pins (R546-R551, R556), and bank supplies (R549). -/

namespace Sys2Proof.Machine

/-- As `act`, for the supply rows that start and stop the timebase (R490, R547). -/
def actClock (f : State → State) (s : State) : Out := .next { f s with pending := s.pending, fuses := s.fuses }

/-- Everything but fuses is lost: what has left the module stays outside it. Arrays read as nothing had ever been written
    (log entry 1). -/
def powerLost (p : Pins) (s : State) : State :=
  { State.reset with
    fuses := s.fuses, frees := s.frees, clock := { now := 0, counting := false }, pins := { p with thermtrip := false },
    host := { host0 with out := s.host.out, clksel := s.host.clksel }, mgmt := { mgmt0 with replies := s.mgmt.replies } }

/-- P48_IN_RANGE: the timebase starts; the always-on rails rise. -/
def p48In (s : State) : State :=
  if s.pins.p48 then s
  else { s with pins := { s.pins with p48 := true }, clock := { now := 0, counting := true } }
def execP48InRange (s : State) : Out := actClock p48In s

/-- P48_LOSS. -/
def p48Out (s : State) : State := powerLost { s.pins with p48 := false, pwrgd := false } s
def execP48Loss (s : State) : Out := actClock p48Out s

/-- MRST_N has acted: with P48 in range this is a module reset. -/
def pinReset (p : Pins) (s : State) : State :=
  let s := { s with pins := p }
  if p.p48 then moduleReset s else s

/-- VSB_LOSS: below 2.9 V, or back; while P48 is in range each acts as an assertion of MRST_N. -/
def execVsbLoss (returns : Bool) (s : State) : Out := act (fun s => pinReset { s.pins with vsb := returns } s) s

/-- MRST_N_ASSERT: a low level of `ns`; one shorter than 1 µs is ignored. -/
def mrstLow (ns : Nat) (s : State) : State := if ns < 1000 then s else pinReset { s.pins with mrstLow := true } s
def execMrstNAssert (ns : Nat) (s : State) : Out := act (mrstLow ns) s

/-- Start-up begins once nothing holds the module. -/
def bootIf (s : State) : State :=
  if s.power.mst = .reset ∧ pinsRun s.pins then { s with power := { s.power with mst := .boot } } else s

/-- MRST_N_RELEASE: the straps are sampled. -/
def mrstHigh (straps : BitVec 3) (s : State) : State :=
  if s.pins.mrstLow then bootIf { s with pins := { s.pins with mrstLow := false, straps } } else s
def execMrstNRelease (straps : BitVec 3) (s : State) : Out := act (ptmDo (mrstHigh straps)) s

/-- PWRGD_RELEASE: every always-on rail is within its limits. -/
def pwrgdUp (s : State) : State :=
  if s.pins.p48 ∧ s.pins.vsb then bootIf { s with pins := { s.pins with pwrgd := true } } else s
def execPwrgdRelease (s : State) : Out := act (ptmDo pwrgdUp) s

/-- VIO_SUPPLY_CHANGE: VIO_b crosses 1.0 V. -/
def vioChange (b : Fin 16) (above : Bool) (s : State) : State :=
  let bit : BitVec 16 := BitVec.ofNat 16 (2 ^ b.val)
  { s with pins := { s.pins with vio := if above then s.pins.vio ||| bit else s.pins.vio &&& ~~~ bit } }
def execVioSupplyChange (b : Fin 16) (above : Bool) (s : State) : Out := act (vioChange b above) s

/-- SMB_ALERT_N is driven low (R551). -/
def smbAlert (s : State) : Bool :=
  s.power.hotDie || s.power.mst == .bootfail || s.power.mst == .thermal || s.power.mst == .mismatch

/-- The module's 7-bit SMBus address (R556). -/
def smbAddr (s : State) : Nat := 0x58 + s.pins.straps.toNat

end Sys2Proof.Machine
end

