-- ==== Sys2Proof/Machine/Dispatch.lean ====
section
/-! DEFINITION. The command dispatch: one arm per command of the table, each one direct call of its meaning. -/

namespace Sys2Proof.Machine

/-- The effect of a command on everything but the queue of waiting commands. -/
def exec (i : Instr) (s : State) : Host.Outcome State Fault Refusal :=
  match i with
  | .blkctlRun b who => Sys2Proof.Machine.execBlkctlRun b who s
  | .blkctlStop b who => Sys2Proof.Machine.execBlkctlStop b who s
  | .blkctlStopnow b who => Sys2Proof.Machine.execBlkctlStopnow b who s
  | .blkctlSoftrst b who => Sys2Proof.Machine.execBlkctlSoftrst b who s
  | .modeEpochDirectWrite b who epoch => Sys2Proof.Machine.execModeEpochDirectWrite b who epoch s
  | .blkpartWrite b who v => Sys2Proof.Machine.execBlkpartWrite b who v s
  | .registerWrite who a v => Sys2Proof.Machine.execRegisterWrite who a v s
  | .registerReadClear who a inc => Sys2Proof.Machine.execRegisterReadClear who a inc s
  | .blockStopped b => Sys2Proof.Machine.execBlockStopped b s
  | .pass t c => Sys2Proof.Machine.execPass t c s
  | .flush t c => Sys2Proof.Machine.execFlush t c s
  | .argx t c => Sys2Proof.Machine.execArgx t c s
  | .tap t c => Sys2Proof.Machine.execTap t c s
  | .shape t c => Sys2Proof.Machine.execShape t c s
  | .shapeApply t => Sys2Proof.Machine.execShapeApply t s
  | .rampSlot t late => Sys2Proof.Machine.execRampSlot t late s
  | .startGrant => Sys2Proof.Machine.execStartGrant s
  | .laneProcessItem t seg lane => Sys2Proof.Machine.execLaneProcessItem t seg lane s
  | .weightRecordArrival t seg lane => Sys2Proof.Machine.execWeightRecordArrival t seg lane s
  | .rowCommandComplete t seg => Sys2Proof.Machine.execRowCommandComplete t seg s
  | .rowFeedError t code seg lane a => Sys2Proof.Machine.execRowFeedError t code seg lane a s
  | .rateIntervalEnd t rate => Sys2Proof.Machine.execRateIntervalEnd t rate s
  | .ratectlClrmin who t => Sys2Proof.Machine.execRatectlClrmin who t s
  | .operandPortBeat t b => Sys2Proof.Machine.execOperandPortBeat t b s
  | .resultPortBeat t b => Sys2Proof.Machine.execResultPortBeat t b s
  | .fabricCommandBeat t b => Sys2Proof.Machine.execFabricCommandBeat t b s
  | .extensionPortDisconnect t result => Sys2Proof.Machine.execExtensionPortDisconnect t result s
  | .instructionFetch q ecc => Sys2Proof.Machine.execInstructionFetch q ecc s
  | .alu q d a b fn => Sys2Proof.Machine.execAlu q d a b fn s
  | .addi q d a imm => Sys2Proof.Machine.execAddi q d a imm s
  | .andi q d a imm => Sys2Proof.Machine.execAndi q d a imm s
  | .ori q d a imm => Sys2Proof.Machine.execOri q d a imm s
  | .xori q d a imm => Sys2Proof.Machine.execXori q d a imm s
  | .shi q d a imm => Sys2Proof.Machine.execShi q d a imm s
  | .lui q d a imm => Sys2Proof.Machine.execLui q d a imm s
  | .ldw q d a imm ecc => Sys2Proof.Machine.execLdw q d a imm ecc s
  | .stw q d a imm => Sys2Proof.Machine.execStw q d a imm s
  | .ldb q d a imm ecc => Sys2Proof.Machine.execLdb q d a imm ecc s
  | .stb q d a imm => Sys2Proof.Machine.execStb q d a imm s
  | .ldx q d a b fn => Sys2Proof.Machine.execLdx q d a b fn s
  | .stx q d a b fn => Sys2Proof.Machine.execStx q d a b fn s
  | .ldxStxResponse q => Sys2Proof.Machine.execLdxStxResponse q s
  | .ldd q d a imm => Sys2Proof.Machine.execLdd q d a imm s
  | .std q d a imm => Sys2Proof.Machine.execStd q d a imm s
  | .cmp q qd a b cond => Sys2Proof.Machine.execCmp q qd a b cond s
  | .cmpi q qd a cond imm => Sys2Proof.Machine.execCmpi q qd a cond imm s
  | .plog q qd qa qb lfn => Sys2Proof.Machine.execPlog q qd qa qb lfn s
  | .prd q d a imm => Sys2Proof.Machine.execPrd q d a imm s
  | .pwr q d a imm => Sys2Proof.Machine.execPwr q d a imm s
  | .br q p sense off => Sys2Proof.Machine.execBr q p sense off s
  | .jmp q off => Sys2Proof.Machine.execJmp q off s
  | .call q off => Sys2Proof.Machine.execCall q off s
  | .callr q d a b fn => Sys2Proof.Machine.execCallr q d a b fn s
  | .ret q off => Sys2Proof.Machine.execRet q off s
  | .texit q off => Sys2Proof.Machine.execTexit q off s
  | .trap q d a imm => Sys2Proof.Machine.execTrap q d a imm s
  | .halt q off => Sys2Proof.Machine.execHalt q off s
  | .pwrp q p a d => Sys2Proof.Machine.execPwrp q p a d s
  | .prdp q p a d => Sys2Proof.Machine.execPrdp q p a d s
  | .crr q d a imm => Sys2Proof.Machine.execCrr q d a imm s
  | .crw q d a imm => Sys2Proof.Machine.execCrw q d a imm s
  | .issue q a b ecc => Sys2Proof.Machine.execIssue q a b ecc s
  | .issuer q d a b fn ecc => Sys2Proof.Machine.execIssuer q d a b fn ecc s
  | .recbeg q a b => Sys2Proof.Machine.execRecbeg q a b s
  | .recend q off => Sys2Proof.Machine.execRecend q off s
  | .replay q a b => Sys2Proof.Machine.execReplay q a b s
  | .replayEntry t ecc => Sys2Proof.Machine.execReplayEntry t ecc s
  | .spill q off => Sys2Proof.Machine.execSpill q off s
  | .fill q off => Sys2Proof.Machine.execFill q off s
  | .wfe q off => Sys2Proof.Machine.execWfe q off s
  | .wfeWake q => Sys2Proof.Machine.execWfeWake q s
  | .evack q d a b fn arriving => Sys2Proof.Machine.execEvack q d a b fn arriving s
  | .commandDispatch t => Sys2Proof.Machine.execCommandDispatch t s
  | .seqdoorWrite who t v => Sys2Proof.Machine.execSeqdoorWrite who t v s
  | .skippop who t v => Sys2Proof.Machine.execSkippop who t v s
  | .dbgdataRead who t => Sys2Proof.Machine.execDbgdataRead who t s
  | .dbgdataWrite who t v => Sys2Proof.Machine.execDbgdataWrite who t v s
  | .vadd u c => Sys2Proof.Machine.execVadd u c s
  | .vsub u c => Sys2Proof.Machine.execVsub u c s
  | .vmul u c => Sys2Proof.Machine.execVmul u c s
  | .vmax u c => Sys2Proof.Machine.execVmax u c s
  | .vmin u c => Sys2Proof.Machine.execVmin u c s
  | .vfma u c => Sys2Proof.Machine.execVfma u c s
  | .vfn u c => Sys2Proof.Machine.execVfn u c s
  | .vcvt u c => Sys2Proof.Machine.execVcvt u c s
  | .smx1 u c => Sys2Proof.Machine.execSmx1 u c s
  | .smx2 u c => Sys2Proof.Machine.execSmx2 u c s
  | .smx3 u c => Sys2Proof.Machine.execSmx3 u c s
  | .nst1 u c => Sys2Proof.Machine.execNst1 u c s
  | .nst2 u c => Sys2Proof.Machine.execNst2 u c s
  | .vectorCommandComplete u => Sys2Proof.Machine.execVectorCommandComplete u s
  | .unitErrorResponse u write a reason => Sys2Proof.Machine.execUnitErrorResponse u write a reason s
  | .mcopy t c => Sys2Proof.Machine.execMcopy t c s
  | .mfill t c => Sys2Proof.Machine.execMfill t c s
  | .sem t c => Sys2Proof.Machine.execSem t c s
  | .semSatisfied t => Sys2Proof.Machine.execSemSatisfied t s
  | .cntadd t c => Sys2Proof.Machine.execCntadd t c s
  | .cntaddPerform t => Sys2Proof.Machine.execCntaddPerform t s
  | .cntset t c => Sys2Proof.Machine.execCntset t c s
  | .sstart t c => Sys2Proof.Machine.execSstart t c s
  | .sstop t c => Sys2Proof.Machine.execSstop t c s
  | .nop t c => Sys2Proof.Machine.execNop t c s
  | .scratchRead r => Sys2Proof.Machine.execScratchRead r s
  | .scratchWrite r => Sys2Proof.Machine.execScratchWrite r s
  | .scratchAccumulate r => Sys2Proof.Machine.execScratchAccumulate r s
  | .counterIncrement who t c v => Sys2Proof.Machine.execCounterIncrement who t c v s
  | .counterSet who t c v => Sys2Proof.Machine.execCounterSet who t c v s
  | .acntWrite who t c v => Sys2Proof.Machine.execAcntWrite who t c v s
  | .acaddWrite who t c v => Sys2Proof.Machine.execAcaddWrite who t c v s
  | .demandWriteback t g => Sys2Proof.Machine.execDemandWriteback t g s
  | .drizzleScrubRead t g bank => Sys2Proof.Machine.execDrizzleScrubRead t g bank s
  | .scrubLapLimit t g => Sys2Proof.Machine.execScrubLapLimit t g s
  | .errinjWrite who t g v => Sys2Proof.Machine.execErrinjWrite who t g v s
  | .sweepctlStart who t g => Sys2Proof.Machine.execSweepctlStart who t g s
  | .sweepComplete t g => Sys2Proof.Machine.execSweepComplete t g s
  | .ctxStart who st x => Sys2Proof.Machine.execCtxStart who st x s
  | .ctxStop who st x => Sys2Proof.Machine.execCtxStop who st x s
  | .ctxPause who st x => Sys2Proof.Machine.execCtxPause who st x s
  | .ctxResume who st x => Sys2Proof.Machine.execCtxResume who st x s
  | .ctxAccessesDrained st x => Sys2Proof.Machine.execCtxAccessesDrained st x s
  | .ctxEndReached st x => Sys2Proof.Machine.execCtxEndReached st x s
  | .ctxownWrite who st x v => Sys2Proof.Machine.execCtxownWrite who st x v s
  | .quotaWrite who st p v => Sys2Proof.Machine.execQuotaWrite who st p v s
  | .descriptorFetch st x => Sys2Proof.Machine.execDescriptorFetch st x s
  | .cursorReachDescriptor st x side => Sys2Proof.Machine.execCursorReachDescriptor st x side s
  | .dependencePoll st x side => Sys2Proof.Machine.execDependencePoll st x side s
  | .dependencePollResponse st x side => Sys2Proof.Machine.execDependencePollResponse st x side s
  | .streamReadIssue st x => Sys2Proof.Machine.execStreamReadIssue st x s
  | .bufferBorrow st => Sys2Proof.Machine.execBufferBorrow st s
  | .streamReadData st x => Sys2Proof.Machine.execStreamReadData st x s
  | .streamWriteIssue st x => Sys2Proof.Machine.execStreamWriteIssue st x s
  | .streamWriteAck st x => Sys2Proof.Machine.execStreamWriteAck st x s
  | .streamAccessError st x side a reason => Sys2Proof.Machine.execStreamAccessError st x side a reason s
  | .lullCheck => Sys2Proof.Machine.execLullCheck s
  | .dramAccessRequest r => Sys2Proof.Machine.execDramAccessRequest r s
  | .dramAccessPerform st c errs => Sys2Proof.Machine.execDramAccessPerform st c errs s
  | .fillWrite st => Sys2Proof.Machine.execFillWrite st s
  | .dramDemandWriteback st c => Sys2Proof.Machine.execDramDemandWriteback st c s
  | .refresh st c => Sys2Proof.Machine.execRefresh st c s
  | .coreTempReport st core temp => Sys2Proof.Machine.execCoreTempReport st core temp s
  | .dramScrubRead st c errs => Sys2Proof.Machine.execDramScrubRead st c errs s
  | .dramLapLimit st => Sys2Proof.Machine.execDramLapLimit st s
  | .pvClear who st => Sys2Proof.Machine.execPvClear who st s
  | .pvClearComplete st => Sys2Proof.Machine.execPvClearComplete st s
  | .ilvcfgWrite who st v => Sys2Proof.Machine.execIlvcfgWrite who st v s
  | .erasectlWrite who st c v => Sys2Proof.Machine.execErasectlWrite who st c v s
  | .caParityError st c => Sys2Proof.Machine.execCaParityError st c s
  | .frzctlResume who st c => Sys2Proof.Machine.execFrzctlResume who st c s
  | .frzctlDiscard who st c => Sys2Proof.Machine.execFrzctlDiscard who st c s
  | .trnctlStart who st c => Sys2Proof.Machine.execTrnctlStart who st c s
  | .trainingComplete st c eyes => Sys2Proof.Machine.execTrainingComplete st c eyes s
  | .neheadWrite who st e v => Sys2Proof.Machine.execNeheadWrite who st e v s
  | .neRingFetch st e => Sys2Proof.Machine.execNeRingFetch st e s
  | .nred st e c => Sys2Proof.Machine.execNred st e c s
  | .gather st e c => Sys2Proof.Machine.execGather st e c s
  | .nwait st e c => Sys2Proof.Machine.execNwait st e c s
  | .ncount st e c => Sys2Proof.Machine.execNcount st e c s
  | .neBusError st e kind a reason => Sys2Proof.Machine.execNeBusError st e kind a reason s
  | .queueWrite r k d => Sys2Proof.Machine.execQueueWrite r k d s
  | .queueRead r k => Sys2Proof.Machine.execQueueRead r k s
  | .queueReset r k => Sys2Proof.Machine.execQueueReset r k s
  | .stickyClear r k side rise err => Sys2Proof.Machine.execStickyClear r k side rise err s
  | .pllLockLoss r pll => Sys2Proof.Machine.execPllLockLoss r pll s
  | .regionStartSignal r => Sys2Proof.Machine.execRegionStartSignal r s
  | .pllsLocked r => Sys2Proof.Machine.execPllsLocked r s
  | .startupPortsOn r => Sys2Proof.Machine.execStartupPortsOn r s
  | .fabricQuiesced r => Sys2Proof.Machine.execFabricQuiesced r s
  | .frClear who r => Sys2Proof.Machine.execFrClear who r s
  | .frClearComplete r => Sys2Proof.Machine.execFrClearComplete r s
  | .windowRequest q => Sys2Proof.Machine.execWindowRequest q s
  | .windowResponse r tag data => Sys2Proof.Machine.execWindowResponse r tag data s
  | .windowTimeout r tag => Sys2Proof.Machine.execWindowTimeout r tag s
  | .fabricInitiatorRequest r kind a len data cnt sat coh pri => Sys2Proof.Machine.execFabricInitiatorRequest r kind a len data cnt sat coh pri s
  | .probeRouteWrite who r j pin v => Sys2Proof.Machine.execProbeRouteWrite who r j pin v s
  | .fabricPowerInterval r power => Sys2Proof.Machine.execFabricPowerInterval r power s
  | .ccStart who => Sys2Proof.Machine.execCcStart who s
  | .ccAbort who => Sys2Proof.Machine.execCcAbort who s
  | .ccReldone who => Sys2Proof.Machine.execCcReldone who s
  | .pass1Authentication => Sys2Proof.Machine.execPass1Authentication s
  | .devchk v => Sys2Proof.Machine.execDevchk v s
  | .options v => Sys2Proof.Machine.execOptions v s
  | .openPkt v => Sys2Proof.Machine.execOpenPkt v s
  | .setaddr v => Sys2Proof.Machine.execSetaddr v s
  | .frames fs => Sys2Proof.Machine.execFrames fs s
  | .pass2Restart => Sys2Proof.Machine.execPass2Restart s
  | .tally v => Sys2Proof.Machine.execTally v s
  | .close v => Sys2Proof.Machine.execClose v s
  | .cfgdoneStartSignal => Sys2Proof.Machine.execCfgdoneStartSignal s
  | .chainTransmit => Sys2Proof.Machine.execChainTransmit s
  | .cfgretrySample low => Sys2Proof.Machine.execCfgretrySample low s
  | .chainStreamStart sections => Sys2Proof.Machine.execChainStreamStart sections s
  | .chainStreamEnd => Sys2Proof.Machine.execChainStreamEnd s
  | .readbackColumn r ups => Sys2Proof.Machine.execReadbackColumn r ups s
  | .keyProgram who v => Sys2Proof.Machine.execKeyProgram who v s
  | .keyProgramComplete => Sys2Proof.Machine.execKeyProgramComplete s
  | .keyRevoke who v => Sys2Proof.Machine.execKeyRevoke who v s
  | .ckStart who k => Sys2Proof.Machine.execCkStart who k s
  | .checkDependencePoll k => Sys2Proof.Machine.execCheckDependencePoll k s
  | .checkScanRead k => Sys2Proof.Machine.execCheckScanRead k s
  | .checkScanComplete k => Sys2Proof.Machine.execCheckScanComplete k s
  | .checkScanError k reason => Sys2Proof.Machine.execCheckScanError k reason s
  | .routerForward die rtr => Sys2Proof.Machine.execRouterForward die rtr s
  | .targetRequestCheck die rtr => Sys2Proof.Machine.execTargetRequestCheck die rtr s
  | .networkResponse die rtr => Sys2Proof.Machine.execNetworkResponse die rtr s
  | .domainWakeDone d => Sys2Proof.Machine.execDomainWakeDone d s
  | .fenceHandshake d => Sys2Proof.Machine.execFenceHandshake d s
  | .fenceDrainTimeout d => Sys2Proof.Machine.execFenceDrainTimeout d s
  | .pwctlWrite who st w word v => Sys2Proof.Machine.execPwctlWrite who st w word v s
  | .wipedClearMessage st => Sys2Proof.Machine.execWipedClearMessage st s
  | .coherentRequest g a r => Sys2Proof.Machine.execCoherentRequest g a r s
  | .snoopInvalidate g a => Sys2Proof.Machine.execSnoopInvalidate g a s
  | .snoopShare g a => Sys2Proof.Machine.execSnoopShare g a s
  | .snoopReply g a => Sys2Proof.Machine.execSnoopReply g a s
  | .writeBack g a data => Sys2Proof.Machine.execWriteBack g a data s
  | .snoopTimeout r a => Sys2Proof.Machine.execSnoopTimeout r a s
  | .eventMessage => Sys2Proof.Machine.execEventMessage s
  | .lrpop who die v => Sys2Proof.Machine.execLrpop who die v s
  | .prclr who die rtr v => Sys2Proof.Machine.execPrclr who die rtr v s
  | .fillSet p l => Sys2Proof.Machine.execFillSet p l s
  | .align p l skew => Sys2Proof.Machine.execAlign p l skew s
  | .alignmentLoss p => Sys2Proof.Machine.execAlignmentLoss p s
  | .ack p l => Sys2Proof.Machine.execAck p l s
  | .nak p l => Sys2Proof.Machine.execNak p l s
  | .credit p l => Sys2Proof.Machine.execCredit p l s
  | .pause p l => Sys2Proof.Machine.execPause p l s
  | .eios p l => Sys2Proof.Machine.execEios p l s
  | .ts p lanes pol => Sys2Proof.Machine.execTs p lanes pol s
  | .ackCreditRepeat p => Sys2Proof.Machine.execAckCreditRepeat p s
  | .bringUpStart p => Sys2Proof.Machine.execBringUpStart p s
  | .qualifyComplete p viol disp => Sys2Proof.Machine.execQualifyComplete p viol disp s
  | .rateStepComplete p => Sys2Proof.Machine.execRateStepComplete p s
  | .bringUpTimeout p => Sys2Proof.Machine.execBringUpTimeout p s
  | .autoretryRestart p => Sys2Proof.Machine.execAutoretryRestart p s
  | .retrainTimeout p => Sys2Proof.Machine.execRetrainTimeout p s
  | .mistEntry p => Sys2Proof.Machine.execMistEntry p s
  | .mistExit p => Sys2Proof.Machine.execMistExit p s
  | .mistRelockTimeout p => Sys2Proof.Machine.execMistRelockTimeout p s
  | .frameTransmit p => Sys2Proof.Machine.execFrameTransmit p s
  | .linkReplayTimeout p => Sys2Proof.Machine.execLinkReplayTimeout p s
  | .pauseExpiry p => Sys2Proof.Machine.execPauseExpiry p s
  | .pausetxSend who p v => Sys2Proof.Machine.execPausetxSend who p v s
  | .messageFrame p f => Sys2Proof.Machine.execMessageFrame p f s
  | .readRequestFrame p f => Sys2Proof.Machine.execReadRequestFrame p f s
  | .writeRequestFrame p f => Sys2Proof.Machine.execWriteRequestFrame p f s
  | .readResponseFrame p f => Sys2Proof.Machine.execReadResponseFrame p f s
  | .writeCompletionFrame p f => Sys2Proof.Machine.execWriteCompletionFrame p f s
  | .requestAbandon p tag => Sys2Proof.Machine.execRequestAbandon p tag s
  | .tagHoldExpiry p tag => Sys2Proof.Machine.execTagHoldExpiry p tag s
  | .rxheadWrite who p v => Sys2Proof.Machine.execRxheadWrite who p v s
  | .romBoot image backup => Sys2Proof.Machine.execRomBoot image backup s
  | .discovery board rep => Sys2Proof.Machine.execDiscovery board rep s
  | .rediscover who board rep => Sys2Proof.Machine.execRediscover who board rep s
  | .modrst who v => Sys2Proof.Machine.execModrst who v s
  | .ocSend who => Sys2Proof.Machine.execOcSend who s
  | .overcastPacket t data last => Sys2Proof.Machine.execOvercastPacket t data last s
  | .broadcastComplete => Sys2Proof.Machine.execBroadcastComplete s
  | .ocEpoch who => Sys2Proof.Machine.execOcEpoch who s
  | .modeEpochApply u => Sys2Proof.Machine.execModeEpochApply u s
  | .epochTimeout => Sys2Proof.Machine.execEpochTimeout s
  | .dieReset who v => Sys2Proof.Machine.execDieReset who v s
  | .resetDrainTimeout die tile => Sys2Proof.Machine.execResetDrainTimeout die tile s
  | .pdreqOn who d => Sys2Proof.Machine.execPdreqOn who d s
  | .pdreqSleep who d => Sys2Proof.Machine.execPdreqSleep who d s
  | .pdreqShut who d => Sys2Proof.Machine.execPdreqShut who d s
  | .domainSwitchedOn d => Sys2Proof.Machine.execDomainSwitchedOn d s
  | .powerAverage watts => Sys2Proof.Machine.execPowerAverage watts s
  | .capStep => Sys2Proof.Machine.execCapStep s
  | .tempSample temps => Sys2Proof.Machine.execTempSample temps s
  | .faballocWrite who r v => Sys2Proof.Machine.execFaballocWrite who r v s
  | .timerCompare k => Sys2Proof.Machine.execTimerCompare k s
  | .hostRead f bar off len id => Sys2Proof.Machine.execHostRead f bar off len id s
  | .hostWrite f bar off data => Sys2Proof.Machine.execHostWrite f bar off data s
  | .hostReadTimeout f id => Sys2Proof.Machine.execHostReadTimeout f id s
  | .functionLevelReset f => Sys2Proof.Machine.execFunctionLevelReset f s
  | .perstRise e clksel => Sys2Proof.Machine.execPerstRise e clksel s
  | .vfpartWrite who e n v => Sys2Proof.Machine.execVfpartWrite who e n v s
  | .crheadWrite f v => Sys2Proof.Machine.execCrheadWrite f v s
  | .copyDescriptor f desc data hostErr => Sys2Proof.Machine.execCopyDescriptor f desc data hostErr s
  | .eventSample => Sys2Proof.Machine.execEventSample s
  | .notify target => Sys2Proof.Machine.execNotify target s
  | .armidleWrite f v => Sys2Proof.Machine.execArmidleWrite f v s
  | .dbsetWrite who hi v => Sys2Proof.Machine.execDbsetWrite who hi v s
  | .getstate => Sys2Proof.Machine.execGetstate s
  | .gettemp => Sys2Proof.Machine.execGettemp s
  | .getpwr => Sys2Proof.Machine.execGetpwr s
  | .setpcap v => Sys2Proof.Machine.execSetpcap v s
  | .readreg a => Sys2Proof.Machine.execReadreg a s
  | .writereg a v => Sys2Proof.Machine.execWritereg a v s
  | .mctpModrst => Sys2Proof.Machine.execMctpModrst s
  | .bypass => Sys2Proof.Machine.execBypass s
  | .idcode => Sys2Proof.Machine.execIdcode s
  | .samplePreload scan => Sys2Proof.Machine.execSamplePreload scan s
  | .highz => Sys2Proof.Machine.execHighz s
  | .clamp => Sys2Proof.Machine.execClamp s
  | .extest => Sys2Proof.Machine.execExtest s
  | .extestPulse => Sys2Proof.Machine.execExtestPulse s
  | .extestTrain => Sys2Proof.Machine.execExtestTrain s
  | .p48InRange => Sys2Proof.Machine.execP48InRange s
  | .p48Loss => Sys2Proof.Machine.execP48Loss s
  | .vsbLoss returns => Sys2Proof.Machine.execVsbLoss returns s
  | .mrstNAssert ns => Sys2Proof.Machine.execMrstNAssert ns s
  | .mrstNRelease straps => Sys2Proof.Machine.execMrstNRelease straps s
  | .pwrgdRelease => Sys2Proof.Machine.execPwrgdRelease s
  | .zenithFirmwareWatchdog => Sys2Proof.Machine.execZenithFirmwareWatchdog s
  | .imDmZeroingDone t => Sys2Proof.Machine.execImDmZeroingDone t s
  | .nwaitPoll st e => Sys2Proof.Machine.execNwaitPoll st e s
  | .autopauseRepeat p => Sys2Proof.Machine.execAutopauseRepeat p s
  | .designEventInput r n level => Sys2Proof.Machine.execDesignEventInput r n level s
  | .beatTransferToFabric t result => Sys2Proof.Machine.execBeatTransferToFabric t result s
  | .pcieLinkUp e gen width => Sys2Proof.Machine.execPcieLinkUp e gen width s
  | .pcieLinkDown e => Sys2Proof.Machine.execPcieLinkDown e s
  | .vfEnableChange e numvf => Sys2Proof.Machine.execVfEnableChange e numvf s
  | .msixVectorUnmask f => Sys2Proof.Machine.execMsixVectorUnmask f s
  | .vioSupplyChange b above => Sys2Proof.Machine.execVioSupplyChange b above s

end Sys2Proof.Machine
end

