-- ==== Sys2Proof/Safety.lean ====
section
/-! DEFINITION. What every run of the block keeps, and what a command leaves as it was, in the terms the statements
    use. -/

namespace Sys2Proof

open Machine

/-- The fused floor plan record of a later state is that of an earlier one (R52). -/
def SameRecord (s t : State) : Prop := t.fuses.fpr = s.fuses.fpr

/-- The parts of the state beside the queue of waiting commands. -/
inductive Part where
  | clock | fuses | acc | frees | regs | logs | blks | scr | scrChk | dram | pv | bootMem | tiles | cores | banks | stks
  | ctxs | chans | engs | regions | loader | checks | net | ports | power | ocast | host | conc | mgmt | pins
  deriving DecidableEq, Repr

/-- A part of a later state is that of an earlier one. -/
def Part.Same (s t : State) : Part → Prop
  | .clock => t.clock = s.clock
  | .fuses => t.fuses = s.fuses
  | .acc => t.acc = s.acc
  | .frees => t.frees = s.frees
  | .regs => t.regs = s.regs
  | .logs => t.logs = s.logs
  | .blks => t.blks = s.blks
  | .scr => t.scr = s.scr
  | .scrChk => t.scrChk = s.scrChk
  | .dram => t.dram = s.dram
  | .pv => t.pv = s.pv
  | .bootMem => t.bootMem = s.bootMem
  | .tiles => t.tiles = s.tiles
  | .cores => t.cores = s.cores
  | .banks => t.banks = s.banks
  | .stks => t.stks = s.stks
  | .ctxs => t.ctxs = s.ctxs
  | .chans => t.chans = s.chans
  | .engs => t.engs = s.engs
  | .regions => t.regions = s.regions
  | .loader => t.loader = s.loader
  | .checks => t.checks = s.checks
  | .net => t.net = s.net
  | .ports => t.ports = s.ports
  | .power => t.power = s.power
  | .ocast => t.ocast = s.ocast
  | .host => t.host = s.host
  | .conc => t.conc = s.conc
  | .mgmt => t.mgmt = s.mgmt
  | .pins => t.pins = s.pins

/-- Nothing but the listed parts has changed. -/
def KeepsBut (ps : List Part) (s t : State) : Prop := t.pending = s.pending ∧ ∀ p, p ∉ ps → Part.Same s t p

/-- No stored register has changed but those of the listed keys. -/
def RegsBut (ks : List Nat) (s t : State) : Prop := ∀ k, k ∉ ks → reg t k = reg s k

/-- No log has changed but those of the listed pages. -/
def LogsBut (ks : List Nat) (s t : State) : Prop := ∀ k, k ∉ ks → logOf t k = logOf s k

/-- The pending-event registers of pages. -/
def evKeys (ps : List (Blk × Nat)) : List Nat := ps.map (fun p => p.1.keyP p.2 + Rg.hdr.EVPEND)

/-- Nothing but the listed parts has changed and, of the stored registers, those of the listed keys and the pending events
    of the listed pages. -/
def Keeps (ps : List Part) (ks : List Nat) (evs : List (Blk × Nat)) (s t : State) : Prop :=
  KeepsBut (.regs :: ps) s t ∧ RegsBut (ks ++ evKeys evs) s t

/-- As `Keeps`, and page `pg` may have logged and counted an error. -/
def KeepsLog (ps : List Part) (ks : List Nat) (evs : List (Blk × Nat)) (pg : Nat) (s t : State) : Prop :=
  KeepsBut (.regs :: .logs :: ps) s t ∧ RegsBut ((pg + Rg.hdr.ERRCNT) :: ks ++ evKeys evs) s t ∧ LogsBut [pg] s t

/-- Block states are as before, but that a stop of a tile's row, sequencer or vector unit may have taken hold
    (R108, R199, R202). -/
def RunsKept (s t : State) : Prop := ∀ b : Blk, b.wf = true →
  blkSt t b = blkSt s b ∨ ((blkSt s b).run = .stopping ∧ blkSt t b = { blkSt s b with run := .stopped })

/-! ### Processors -/

/-- Keys of a sequencer's own registers; a management core has none. -/
def cpuKeys : Cpu → List Nat → List Nat
  | .tile t, offs => offs.map (fun o => Blk.key (.seq t) + o)
  | .core _, _ => []

/-- The pages whose event levels a change within a processor's tile latches. -/
def cpuPages : Cpu → List (Blk × Nat)
  | .tile t => tilePages t
  | .core _ => []

/-- Nothing has changed but processor `q`, the sequencer registers at the listed offsets, the events its change latches,
    and, of block states, stops that take hold. -/
def CpuFrame (q : Cpu) (offs : List Nat) (s t : State) : Prop :=
  KeepsBut [.tiles, .cores, .regs, .blks] s t ∧ (∀ r, r ≠ q → cpu t r = cpu s r) ∧
  (∀ u, { tile t u with seq := (tile s u).seq } = tile s u) ∧ RunsKept s t ∧
  RegsBut (cpuKeys q offs ++ evKeys (cpuPages q)) s t

/-- Counters of a sequencer that an instruction has raised by one (R203). -/
def Counted (q : Cpu) (offs : List Nat) (s t : State) : Prop :=
  ∀ k ∈ cpuKeys q offs, reg t k = satAdd (reg s k) 1

/-- Processor `q` has become `p`, and an instruction has retired with the PC at `a`; nothing else has changed (R163). -/
def Retired (q : Cpu) (p : Proc) (a : Nat) (s t : State) : Prop :=
  cpu t q = { p with pc := BitVec.ofNat 64 (a % 2 ^ xlen q), skipBrk := false, wait := .none } ∧
  Counted q [Rg.seq.INSTRET] s t ∧ CpuFrame q [Rg.seq.INSTRET] s t

/-- Processor `q` has taken a trap: its trap registers, the trap window, the PC at TRVEC; nothing else has changed but
    the trap counter (R173). -/
def Trapped (q : Cpu) (code trpc info : Nat) (s t : State) : Prop :=
  cpu t q = { cpu s q with
    trpc := BitVec.ofNat 64 (trpc &&& imMask q), trcode := w32 code, trinfo := BitVec.ofNat 64 (info % 2 ^ 32),
    intrap := true, pc := (cpu s q).trvec, skipBrk := false, wait := .none } ∧
  Counted q [Rg.seq.TRAPCNT] s t ∧ CpuFrame q [Rg.seq.TRAPCNT] s t

end Sys2Proof
end

