-- ==== Sys2Proof/Certificates/Slice0/Obligations.lean ====
section
/-! DEFINITION. The statements for the provers, family by family, from the numbered rules of the spec. -/

open Sys2Proof Sys2Proof.Machine

namespace Sys2Proof.Says

/-- The sixteen ALU functions on n-bit values, fn 0x0 first (R167). -/
def aluTable {n : Nat} (x y : BitVec n) : List (BitVec n) :=
  [x + y, x - y, x &&& y, x ||| y, x ^^^ y, x <<< (y.toNat % n), x >>> (y.toNat % n), x.sshiftRight (y.toNat % n),
   x * y, BitVec.ofNat n (x.toNat * y.toNat / 2 ^ n), if y = 0 then BitVec.allOnes n else x / y,
   if y = 0 then x else x % y, if x.slt y then x else y, if x.slt y then y else x, if x.ult y then x else y,
   if x.ult y then y else x]

/-- The six compare conditions on n-bit values, cond 0x0 first (R167). -/
def condTable {n : Nat} (x y : BitVec n) : List Bool :=
  [x == y, x != y, x.slt y, !x.slt y, x.ult y, !x.ult y]

/-- Register f of a processor as a word of its width. -/
def rgv (s : State) (q : Cpu) (f : RegF) : BitVec (xlen q) := BitVec.ofNat (xlen q) (rg q (cpu s q) f)

/-- The address of the next instruction. -/
def nextPc (s : State) (q : Cpu) : Nat := (cpu s q).pc.toNat + 4

end Sys2Proof.Says

open Sys2Proof.Says

/-! ### The block as a whole -/

/-- A step takes the command at the front of the queue and is exec of it on the state with the queue's rest. -/
def Obligations.StepRunsTheFrontCommand : Prop :=
  ∀ (c : Instr) (rest : List Instr) (s : State),
    step { s with pending := c :: rest } = exec c { s with pending := rest }

/-- With nothing waiting a step is a nanosecond of the timebase and of the logic of every region whose clocks run, and changes
    nothing else (the model's choice, log entry 4; the timebase itself is R490). -/
def Sys2Proof.Says.IdleStepTicksTheTimebase : Prop :=
  ∀ s : State, s.pending = [] → ∃ t, step s = .next t ∧ KeepsBut [.clock, .regions, .frees] s t ∧
    t.clock.counting = s.clock.counting ∧ t.clock.now = (if s.clock.counting then s.clock.now + 1 else s.clock.now) ∧
    (∀ r : Fin 16, s.clock.counting = true → logicRuns s r = true →
      ∃ n, region t r = logicEdge n (clockEdge r (region s r) (now s)) (region s r)) ∧
    (∀ r : Fin 16, s.clock.counting = false ∨ logicRuns s r = false → region t r = region s r)

/-- Whatever the state, a step leaves the waiting commands behind the one it takes as they are, in their order. -/
def Sys2Proof.Says.StepTakesOneCommandInOrder : Prop :=
  ∀ s t : State, step s = .next t → t.pending = s.pending.tail

/-- What only fuses hold stays: the record of R49 and the trims of R451, and no revocation of a key slot is undone. -/
def Sys2Proof.Says.FuseInv (f : Fpr) (tr : Tab W32) (sr : BitVec 6) (er : BitVec 3) (s : State) : Prop :=
  s.fuses.fpr = f ∧ s.fuses.trims = tr ∧ s.fuses.sigRev &&& sr = sr ∧ s.fuses.encRev &&& er = er

/-- Every step keeps the fused record and trims, and every revocation made so far (R49, R52, R373, R374). -/
def Obligations.FusesStayAsBlown : Prop :=
  ∀ f tr sr er (s t : State), FuseInv f tr sr er s → step s = .next t → FuseInv f tr sr er t

/-- The number of set bits of a word. -/
def Sys2Proof.Says.ones {n : Nat} (w : BitVec n) : Nat := ((List.range n).filter (fun i => w.getLsbD i)).length

/-- The fuses the module is reset with, which are the model's choice (log entry 2), hold a record whose counts are those
    of its masks (R50), no trim, and no revocation. -/
def Obligations.FusesAtReset : Prop :=
  FuseInv fpr0 [] 0 0 State.reset ∧ bits fpr0.counts 7 0 = ones fpr0.tileGood ∧
  bits fpr0.counts 15 8 = 96 - ones fpr0.portBad ∧ bits fpr0.counts 31 24 = 8

/-- Only the key commands, and an access that reaches the key registers, change the fuses (R373, R374). -/
def Sys2Proof.Says.OnlyKeyAccessesChangeFuses : Prop :=
  ∀ (c : Instr) (s t : State), exec c s = .next t → t.fuses ≠ s.fuses →
    c = .keyProgramComplete ∨ (∃ w v, c = .keyProgram w v ∨ c = .keyRevoke w v) ∨ (∃ w a v, c = .registerWrite w a v) ∨
    (∃ a v, c = .writereg a v) ∨ (∃ d r, c = .targetRequestCheck d r)

/-- Only a supply command changes the timebase while a command runs: it starts with P48 and stops without it (R490,
    R547). -/
def Sys2Proof.Says.OnlySuppliesChangeTheTimebase : Prop :=
  ∀ (c : Instr) (s t : State), exec c s = .next t → t.clock ≠ s.clock → c = .p48InRange ∨ c = .p48Loss
/-! ### The Jirun processor (R160-R196, R524) -/

/-- Registers and predicates read back what was written to them, through the window in force; g0 and q0 ignore writes;
    no register of another window changes (R165, R166, R170). -/
def Sys2Proof.Says.RegistersReadBack : Prop :=
  (∀ (q : Cpu) (p : Proc) (d r : RegF) (v : Nat), d.toNat < 24 → r.toNat < 24 →
    rg q (setRg q p d v) r = (if r = d ∧ d ≠ 0 then v % 2 ^ xlen q else rg q p r)) ∧
  (∀ (q : Cpu) (p : Proc) (d : RegF) (v w n : Nat), d.toNat < 24 → w < 8 → n < 16 → w ≠ winOf p →
    winReg (setRg q p d v) w n = winReg p w n) ∧
  (∀ (p : Proc) (d r : BitVec 6) (b : Bool), qv (setQ p d b) r = (if r = d ∧ d ≠ 0 then b else qv p r)) ∧
  (∀ (q : Cpu) (p : Proc), rg q p 0 = 0 ∧ qv p 0 = true)

/-- ALU, CMP and CMPI compute the functions and conditions of R167 on the processor's width and retire; CMP and CMPI write a
    predicate. -/
def Sys2Proof.Says.AluAndCompareFollowTheirTables : Prop :=
  ∀ (q : Cpu) (s : State) (d a b : RegF), runs s q = true → d.toNat < 24 → a.toNat < 24 → b.toNat < 24 →
    (∀ fn : BitVec 11, fn.toNat < 16 → ∃ t, exec (.alu q d a b fn) s = .next t ∧
      Retired q (setRg q (cpu s q) d ((aluTable (rgv s q a) (rgv s q b)).getD fn.toNat 0).toNat) (nextPc s q) s t) ∧
    (∀ (qd : BitVec 6) (cond : BitVec 4), cond.toNat < 6 → ∃ t, exec (.cmp q qd a b cond) s = .next t ∧
      Retired q (setQ (cpu s q) qd ((condTable (rgv s q a) (rgv s q b)).getD cond.toNat false)) (nextPc s q) s t) ∧
    (∀ (qd : BitVec 6) (cond : BitVec 4) (imm : BitVec 11), cond.toNat < 6 →
      ∃ t, exec (.cmpi q qd a cond imm) s = .next t ∧
        Retired q (setQ (cpu s q) qd ((condTable (rgv s q a) (imm.signExtend (xlen q))).getD cond.toNat false))
          (nextPc s q) s t)

/-- The shifts of SHI: left, logical right, arithmetic right by a count (R166). -/
def Sys2Proof.Says.shiTable {n : Nat} (x : BitVec n) (c : Nat) : List (BitVec n) := [x <<< c, x >>> c, x.sshiftRight c]

/-- ADDI, ANDI, ORI, XORI, SHI and LUI write their result and retire (R166, R524). -/
def Sys2Proof.Says.ImmediateInstructionsWriteTheirResult : Prop :=
  ∀ (q : Cpu) (s : State) (d a : RegF) (imm : BitVec 16), runs s q = true → d.toNat < 24 → a.toNat < 24 →
    let x := rgv s q a
    let set (v : BitVec (xlen q)) (t : State) : Prop := Retired q (setRg q (cpu s q) d v.toNat) (nextPc s q) s t
    (∃ t, exec (.addi q d a imm) s = .next t ∧ set (x + imm.signExtend _) t) ∧
    (∃ t, exec (.andi q d a imm) s = .next t ∧ set (x &&& imm.zeroExtend _) t) ∧
    (∃ t, exec (.ori q d a imm) s = .next t ∧ set (x ||| imm.zeroExtend _) t) ∧
    (∃ t, exec (.xori q d a imm) s = .next t ∧ set (x ^^^ imm.zeroExtend _) t) ∧
    (∃ t, exec (.lui q d 0 imm) s = .next t ∧ set (imm.zeroExtend _ <<< 16) t) ∧
    (∀ dir, dir < 3 → imm.toNat / xlen q = dir →
      ∃ t, exec (.shi q d a imm) s = .next t ∧ set ((shiTable x (imm.toNat % xlen q)).getD dir 0) t)

/-- PLOG, PWR, PRD, PWRP, PRDP, CRR and CRW move between predicates, parameters, control registers and registers, and
    retire; parameters are a tile's only (R166, R176, R524). -/
def Sys2Proof.Says.PredicatesParametersControlRegisters : Prop :=
  ∀ (q : Cpu) (s : State) (d a : RegF), runs s q = true → d.toNat < 24 → a.toNat < 24 →
    (∀ (qd qa qb : BitVec 6) (lfn : BitVec 2), ∃ t, exec (.plog q qd qa qb lfn) s = .next t ∧
      Retired q (setQ (cpu s q) qd
        ([qv (cpu s q) qa && qv (cpu s q) qb, qv (cpu s q) qa || qv (cpu s q) qb, qv (cpu s q) qa ^^ qv (cpu s q) qb,
          qv (cpu s q) qa && !qv (cpu s q) qb].getD lfn.toNat false)) (nextPc s q) s t) ∧
    (∀ imm : BitVec 16, imm.toNat < 2 →
      (∃ t, exec (.prd q d 0 imm) s = .next t ∧
        (∀ i, i < 32 → (rg q (cpu t q) d).testBit i =
          (d != 0 && qv (cpu s q) (BitVec.ofNat 6 (32 * imm.toNat + i)))) ∧
        Retired q (setRg q (cpu s q) d (predWord (cpu s q) (imm.toNat == 1))) (nextPc s q) s t) ∧
      (∃ t, exec (.pwr q 0 a imm) s = .next t ∧
        (∀ i, i < 64 → i ≠ 0 → qv (cpu t q) (BitVec.ofNat 6 i) =
          (if i / 32 = imm.toNat then (rg q (cpu s q) a).testBit (i % 32) else qv (cpu s q) (BitVec.ofNat 6 i))) ∧
        Retired q (setPredWord (cpu s q) (imm.toNat == 1) (rg q (cpu s q) a)) (nextPc s q) s t)) ∧
    (∀ p : BitVec 6, isTile q = true →
      (∃ t, exec (.pwrp q p a 0) s = .next t ∧
        Retired q { cpu s q with params := tset 0 (cpu s q).params p.toNat (BitVec.ofNat 64 (rg q (cpu s q) a)) }
          (nextPc s q) s t) ∧
      (∃ t, exec (.prdp q p 0 d) s = .next t ∧
        Retired q (setRg q (cpu s q) d (tget 0 (cpu s q).params p.toNat).toNat) (nextPc s q) s t)) ∧
    (∀ (imm : BitVec 16) (v : Nat), crVal s q imm.toNat = some v →
      (∃ t, exec (.crr q d 0 imm) s = .next t ∧
        Retired q (setRg q (cpu (crLatch s q imm.toNat) q) d v) (nextPc s q) s t) ∧
      (∃ t, exec (.crw q 0 a imm) s = .next t ∧
        Retired q (crPut q imm.toNat (rg q (cpu s q) a) (cpu s q)) (nextPc s q) s t))

/-- The bytes at `a` of a tile's data memory, as a number. -/
def Sys2Proof.Says.dmNum (s : State) (t : Fin 64) (a n : Nat) : Nat :=
  leNat ((List.range n).map (fun i => tget 0 (cpu s (.tile t)).dm (a + i)))

/-- A store has put the n low bytes of v at a of a sequencer's data memory, and left every other byte. -/
def Sys2Proof.Says.DmStored (q : Cpu) (a n v : Nat) (s t : State) : Prop :=
  (∀ i, i < n → tget 0 (cpu t q).dm (a + i) = BitVec.ofNat 8 (v / 256 ^ i)) ∧
  (∀ x, x < a ∨ a + n ≤ x → tget 0 (cpu t q).dm x = tget 0 (cpu s q).dm x) ∧
  ∃ dm, Retired q { cpu s q with dm := dm } (nextPc s q) s t

/-- Loads and stores of a sequencer at an aligned address in data memory: LDW and LDB write the register, STW and STB
    exactly their bytes (R166, R168). -/
def Sys2Proof.Says.SequencerLoadsAndStores : Prop :=
  ∀ (u : Fin 64) (s : State) (d a : RegF) (imm : BitVec 16), runs s (.tile u) = true → d.toNat < 24 → a.toNat < 24 →
    let q := Cpu.tile u
    let x := dmAddr q (cpu s q) a imm
    x < 0x10000 →
    (x % 4 = 0 →
      (∃ t, exec (.ldw q d a imm .good) s = .next t ∧
        Retired q (setRg q (cpu s q) d (dmNum s u x 4)) (nextPc s q) s t) ∧
      (∃ t, exec (.stw q d a imm) s = .next t ∧ DmStored q x 4 (rg q (cpu s q) d) s t)) ∧
    (∃ t, exec (.ldb q d a imm .good) s = .next t ∧
      Retired q (setRg q (cpu s q) d (dmNum s u x 1)) (nextPc s q) s t) ∧
    (∃ t, exec (.stb q d a imm) s = .next t ∧ DmStored q x 1 (rg q (cpu s q) d) s t)

/-- A management core has become `p` and an instruction has retired: beside the core only the coherent system region's
    copies, and the stacks they come from and are written back to, may have changed. -/
def Sys2Proof.Says.CoreRetired (k : Fin 4) (p : Proc) (s t : State) : Prop :=
  cpu t (.core k) = { p with pc := BitVec.ofNat 64 (nextPc s (.core k) % 2 ^ 64), skipBrk := false, wait := .none } ∧
  (∀ r, r ≠ Cpu.core k → cpu t r = cpu s r) ∧ KeepsBut [.cores, .net, .bootMem, .dram, .pv, .stks, .chans, .regs, .logs, .frees] s t

/-- A management core has stored n bytes of v at x: it reads them back, and every other byte of that line as before. -/
def Sys2Proof.Says.CoreStored (k : Fin 4) (x n v : Nat) (s t : State) : Prop :=
  (dmRead t (.core k) x n).1 = leBytes n v ∧ CoreRetired k (cpu s (.core k)) s t ∧
  ∀ y, y / 64 = x / 64 → (y < x ∨ x + n ≤ y) → (dmRead t (.core k) y 1).1 = (dmRead s (.core k) y 1).1

/-- Loads and stores of a management core in its memory, which is the coherent system region, or boot memory below
    4 MiB while the module boots; a store is kept where the line it needs comes without an error; LDD and STD are only a
    core's (R524, R425). -/
def Sys2Proof.Says.CoreLoadsAndStores : Prop :=
  ∀ (k : Fin 4) (s : State) (d a : RegF) (imm : BitVec 16) (n : Nat), runs s (.core k) = true → d.toNat < 24 →
    a.toNat < 24 →
    let q := Cpu.core k
    let x := dmAddr q (cpu s q) a imm
    x < 0x4000000 → x % n = 0 →
    let load (t : State) : Prop := CoreRetired k (setRg q (cpu s q) d (leNat (dmRead s q x n).1)) s t
    let gets := bootMap s x = true ∨ (copyOf (cohGet s coreInit k.val (x / 64) true) (x / 64) k.val).isSome = true
    let store (t : State) : Prop :=
      CoreRetired k (cpu s (.core k)) s t ∧ (gets → CoreStored k x n (rg q (cpu s q) d) s t)
    (n = 4 → (∃ t, exec (.ldw q d a imm .good) s = .next t ∧ load t) ∧ (∃ t, exec (.stw q d a imm) s = .next t ∧ store t)) ∧
    (n = 1 → (∃ t, exec (.ldb q d a imm .good) s = .next t ∧ load t) ∧ (∃ t, exec (.stb q d a imm) s = .next t ∧ store t)) ∧
    (n = 8 → (∃ t, exec (.ldd q d a imm) s = .next t ∧ load t) ∧ (∃ t, exec (.std q d a imm) s = .next t ∧ store t))

/-- A load or store traps and has no effect: ALIGN where its address is no multiple of its size, else DMRANGE beyond data memory,
    else DMERR where a load meets an uncorrectable word; a corrected word is loaded and counted (R161, R168, R173, R174). -/
def Sys2Proof.Says.LoadsAndStoresTrap : Prop :=
  ∀ (q : Cpu) (s : State) (d a : RegF) (imm : BitVec 16), runs s q = true → d.toNat < 24 → a.toNat < 24 →
    let p := cpu s q
    let x := dmAddr q p a imm
    let traps (code : Nat) (c : Instr) : Prop := ∃ t, exec c s = .next t ∧ Trapped q code p.pc.toNat x s t
    let counts (n : Nat) (t : State) : Prop :=
      (∀ u, q = .tile u → cpu t q = { setRg q p d (dmNum s u x n) with
          pc := BitVec.ofNat 64 (nextPc s q % 2 ^ 32), skipBrk := false, wait := .none } ∧
        Counted q [Rg.seq.CORRCNT, Rg.seq.INSTRET] s t ∧ CpuFrame q [Rg.seq.CORRCNT, Rg.seq.INSTRET] s t) ∧
      (∀ k, q = .core k → CoreRetired k (setRg q p d (leNat (dmRead s q x n).1)) s t)
    (p.intrap = false →
      (∀ ecc, (x % 4 ≠ 0 → traps 0x05 (.ldw q d a imm ecc)) ∧ (x % 4 = 0 → dmTop q ≤ x → traps 0x06 (.ldw q d a imm ecc)) ∧
        (dmTop q ≤ x → traps 0x06 (.ldb q d a imm ecc))) ∧
      (x % 4 ≠ 0 → traps 0x05 (.stw q d a imm)) ∧ (x % 4 = 0 → dmTop q ≤ x → traps 0x06 (.stw q d a imm)) ∧
      (dmTop q ≤ x → traps 0x06 (.stb q d a imm)) ∧
      (x < dmTop q → (x % 4 = 0 → traps 0x07 (.ldw q d a imm .uncorrectable)) ∧ traps 0x07 (.ldb q d a imm .uncorrectable)) ∧
      (isTile q = false → (x % 8 ≠ 0 → traps 0x05 (.ldd q d a imm) ∧ traps 0x05 (.std q d a imm)) ∧
        (x % 8 = 0 → dmTop q ≤ x → traps 0x06 (.ldd q d a imm) ∧ traps 0x06 (.std q d a imm)))) ∧
    (x < dmTop q →
      (x % 4 = 0 → ∃ t, exec (.ldw q d a imm .corrected) s = .next t ∧ counts 4 t) ∧
      (∃ t, exec (.ldb q d a imm .corrected) s = .next t ∧ counts 1 t))

/-- The access of LDX or STX: a tile names the address with b and a, a core with a, and moves 8 bytes where fn is 1
    (R166, R524). -/
def Sys2Proof.Says.xNames (s : State) (q : Cpu) (a b : RegF) (fn : BitVec 11) (x n : Nat) : Prop :=
  match q with
  | .tile _ => fn = 0 ∧ x = rg q (cpu s q) b % 2 ^ 16 * 2 ^ 32 + rg q (cpu s q) a ∧ n = 4
  | .core _ => b = 0 ∧ fn.toNat < 2 ∧ x = rg q (cpu s q) a % 2 ^ 48 ∧ n = 4 + 4 * fn.toNat

/-- A request has entered the network, from the processor's router to the router that serves its address. -/
def Sys2Proof.Says.Sent (q : Cpu) (r : Req) (s t : State) : Prop :=
  ∃ p : Pkt, t.net = { s.net with pkts := s.net.pkts ++ [p], outst := s.net.outst ++ [(Src.cpu q, s.clock.now)] } ∧
    p.req = r ∧ p.src = .cpu q ∧ p.resp = none ∧ p.die = r.who.die ∧ p.rtr = r.who.rtr ∧
    targetOf s r.addr.toNat = some (p.dstDie.toNat, p.dstRtr.toNat)

/-- Beside processor `q` and what the network carries, nothing has changed but events of its pages and stops that take
    hold. -/
def Sys2Proof.Says.AccessFrame (q : Cpu) (s t : State) : Prop :=
  Keeps [.tiles, .cores, .blks, .net] (cpuKeys q [Rg.seq.INSTRET]) (cpuPages q) s t ∧ (∀ r, r ≠ q → cpu t r = cpu s r) ∧
  (∀ u, { tile t u with seq := (tile s u).seq } = tile s u) ∧ RunsKept s t

/-- LDX and STX at an aligned mapped address send their access with the processor's identity and hold the instructions
    behind them; one at no mapped address is answered UNMAPPED, and a misaligned one raises ALIGN. The response ends them: a
    load writes its register, an error raises XERR with its reason (R39, R164, R168, R174). -/
def Obligations.ModuleAccessesOfProcessors : Prop :=
  (∀ (q : Cpu) (s : State) (d a b : RegF) (fn : BitVec 11) (x n : Nat), runs s q = true → d.toNat < 24 → a.toNat < 24 →
    b.toNat < 24 → xNames s q a b fn x n →
    let who := cpuInit s q
    (x % n ≠ 0 → (cpu s q).intrap = false → ∀ i ∈ [Instr.ldx q d a b fn, .stx q d a b fn], ∃ t, exec i s = .next t ∧
      Trapped q 0x05 (cpu s q).pc.toNat x s t) ∧
    (x % n = 0 →
    let lost (t : State) : Prop := ∃ p ∈ t.net.pkts, p.src = .cpu q ∧ p.resp = some (Rsn.unmapped, []) ∧ arrived p = true
    (mapped s (mkReq who .read x n []) = false → ∃ t, exec (.ldx q d a b fn) s = .next t ∧ lost t ∧
        cpu t q = { cpu s q with wait := .load d (BitVec.ofNat 48 x) (n == 8) }) ∧
    (mapped s (mkReq who .write x n (leBytes n (rg q (cpu s q) d))) = false → ∃ t, exec (.stx q d a b fn) s = .next t ∧ lost t ∧
        cpu t q = { cpu s q with wait := .store (BitVec.ofNat 48 x) }) ∧
    (mapped s (mkReq who .read x n []) = true →
      ∃ t, exec (.ldx q d a b fn) s = .next t ∧ Sent q (mkReq who .read x n []) s t ∧
        cpu t q = { cpu s q with wait := .load d (BitVec.ofNat 48 x) (n == 8) } ∧
        AccessFrame q s t) ∧
    (mapped s (mkReq who .write x n (leBytes n (rg q (cpu s q) d))) = true →
      ∃ t, exec (.stx q d a b fn) s = .next t ∧ Sent q (mkReq who .write x n (leBytes n (rg q (cpu s q) d))) s t ∧
        cpu t q = { cpu s q with wait := .store (BitVec.ofNat 48 x) } ∧
        AccessFrame q s t))) ∧
  (∀ (q : Cpu) (s s' : State) (rsn : BitVec 8) (data : List Byte), takeResp s (.cpu q) = some ((rsn, data), s') →
    (∀ u, q = .tile u → live s (.seq u) = true) → s.power.inReset = [] → (cpu s q).intrap = false →
    let failed (x : Addr) : Proc := { cpu s q with
      trpc := BitVec.ofNat 64 ((cpu s q).pc.toNat &&& imMask q), trcode := w32 (0x0A + rsn.toNat * 256),
      trinfo := BitVec.ofNat 64 (x.toNat % 2 ^ 32), intrap := true, pc := (cpu s q).trvec, skipBrk := false, wait := .none }
    (∀ d x dbl, (cpu s q).wait = .load d x dbl → ∃ t, exec (.ldxStxResponse q) s = .next t ∧ cpu t q =
      (if rsn = 0 then { setRg q (cpu s q) d (leNat data) with
          pc := BitVec.ofNat 64 (nextPc s q % 2 ^ xlen q), skipBrk := false, wait := .none }
       else failed x)) ∧
    (∀ x, (cpu s q).wait = .store x → ∃ t, exec (.ldxStxResponse q) s = .next t ∧ cpu t q =
      (if rsn = 0 then { cpu s q with pc := BitVec.ofNat 64 (nextPc s q % 2 ^ xlen q), skipBrk := false, wait := .none }
       else failed x)))

/-- The target of a branch or call: the address of the instruction plus 4 × offset (R165). -/
def Sys2Proof.Says.goTo {w : Nat} (s : State) (q : Cpu) (off : BitVec w) : Nat :=
  (BitVec.ofNat (xlen q) (cpu s q).pc.toNat + 4 * off.signExtend (xlen q)).toNat

/-- BR branches where the predicate equals NOT sense, JMP always; TRAP, TEXIT and HALT (R166, R169, R173, R174). -/
def Obligations.BranchesTrapsAndHalt : Prop :=
  ∀ (q : Cpu) (s : State), runs s q = true →
    (∀ (p : BitVec 6) (sense : Bool) (off : BitVec 19), ∃ t, exec (.br q p sense off) s = .next t ∧
      Retired q (cpu s q) (if qv (cpu s q) p = !sense then goTo s q off else nextPc s q) s t) ∧
    (∀ off : BitVec 26, ∃ t, exec (.jmp q off) s = .next t ∧ Retired q (cpu s q) (goTo s q off) s t) ∧
    (∀ imm : BitVec 16, imm.toNat < 256 → (cpu s q).intrap = false → ∃ t, exec (.trap q 0 0 imm) s = .next t ∧
      Trapped q 0x08 (nextPc s q) imm.toNat s t) ∧
    ((cpu s q).intrap = true → ∃ t, exec (.texit q 0) s = .next t ∧
      cpu t q = { cpu s q with
        intrap := false, pc := BitVec.ofNat 64 ((cpu s q).trpc.toNat % 2 ^ xlen q), skipBrk := true, wait := .none } ∧
      Counted q [Rg.seq.INSTRET] s t ∧ CpuFrame q [Rg.seq.INSTRET] s t) ∧
    (∃ t, exec (.halt q 0) s = .next t ∧ cpu t q = { cpu s q with
        live := false, pc := BitVec.ofNat 64 (nextPc s q % 2 ^ xlen q), skipBrk := false, wait := .none } ∧
      (∀ u, q = .tile u → regBit t (Blk.key (.seq u) + Rg.hdr.EVPEND) 0 = true) ∧
      Counted q [Rg.seq.INSTRET] s t ∧ CpuFrame q [Rg.seq.INSTRET] s t)

/-- CALL and CALLR take the next window and write its w15, or raise WINOVF with RES = 7; RET goes back to w15 of the window
    it stands in, which in the trap window is that one's, or raises WINUNF at RES = 1 with windows spilled, ILLEGAL with none
    (R171; that the low two bits of a target are ignored and RET in the trap window follow log entry 24). Trap conditions in
    the trap window are double faults. -/
def Sys2Proof.Says.CallsAndReturnsRotateWindows : Prop :=
  ∀ (q : Cpu) (s : State) (a : RegF) (off : BitVec 26), runs s q = true → a.toNat < 24 →
    let p := cpu s q
    (p.res ≠ 1 → ∃ t, exec (.ret q 0) s = .next t ∧
      Retired q { p with curwin := (p.curwin + 6) % 7, res := p.res - 1 }
        ((winReg p (if p.intrap then 7 else p.curwin) 15).toNat / 4 * 4) s t) ∧
    (p.intrap = false →
    let w := (p.curwin + 1) % 7
    let called := setWinReg { p with curwin := w, res := p.res + 1 } w 15 (BitVec.ofNat 64 (nextPc s q % 2 ^ xlen q))
    (p.res ≠ 7 →
      (∃ t, exec (.call q off) s = .next t ∧ Retired q called (goTo s q off) s t) ∧
      (∃ t, exec (.callr q 0 a 0 0) s = .next t ∧ Retired q called (rg q p a / 4 * 4) s t)) ∧
    (p.res = 7 →
      (∃ t, exec (.call q off) s = .next t ∧ Trapped q 0x01 p.pc.toNat 0 s t) ∧
      (∃ t, exec (.callr q 0 a 0 0) s = .next t ∧ Trapped q 0x01 p.pc.toNat 0 s t)) ∧
    (p.res = 1 → 0 < p.spilled → ∃ t, exec (.ret q 0) s = .next t ∧ Trapped q 0x02 p.pc.toNat 0 s t) ∧
    (p.res = 1 → p.spilled = 0 → ∃ t, exec (.ret q 0) s = .next t ∧
      Trapped q 0x03 p.pc.toNat (encJ 0x1C 0).toNat s t))

/-- SPILL stores the oldest resident window below SPILLPTR and FILL loads the one below it, in the trap window: 64 bytes
    of a sequencer's data memory, 128 of a core's; a FILL read that is corrected counts (R161, R172, R524). -/
def Sys2Proof.Says.SpillAndFillMoveWindows : Prop :=
  ∀ (q : Cpu) (s : State),
    let p := cpu s q
    let n := winBytes q
    let a := p.spillptr.toNat - n
    let pc := BitVec.ofNat 64 (nextPc s q % 2 ^ xlen q)
    runs s q = true → p.intrap = true →
    (p.res ≠ 1 → p.spilllim.toNat + n ≤ p.spillptr.toNat → ∃ t, exec (.spill q 0) s = .next t ∧
      cpu t q = { p with
        dm := (cpu t q).dm, spillptr := BitVec.ofNat 64 a, res := p.res - 1, spilled := p.spilled + 1, pc := pc,
        skipBrk := false, wait := .none } ∧
      (∀ u, q = .tile u →
        (∀ i, i < 16 → dmNum t u (a + 4 * i) 4 = (winReg p ((p.curwin + 7 - (p.res - 1)) % 7) i).toNat % 2 ^ 32) ∧
        (∀ x, x < a ∨ p.spillptr.toNat ≤ x → tget 0 (cpu t q).dm x = tget 0 p.dm x) ∧
        Counted q [Rg.seq.INSTRET, Rg.seq.SPILLCNT] s t ∧ CpuFrame q [Rg.seq.INSTRET, Rg.seq.SPILLCNT] s t) ∧
      (p.spillptr.toNat &&& spMask q = p.spillptr.toNat →
        (∀ k, q = .core k → bootMap s a = true ∨ ∀ i, i < n → (copyOf t ((a + i) / 64) k.val).isSome = true) → (dmRead t q a n).1 =
        (List.range 16).flatMap (fun i => leBytes (n / 16) (winReg p ((p.curwin + 7 - (p.res - 1)) % 7) i).toNat)) ∧
      ∀ k, q = .core k → (∀ r, r ≠ q → cpu t r = cpu s r) ∧
        KeepsBut [.cores, .net, .bootMem, .dram, .pv, .stks, .chans, .regs, .logs, .frees] s t) ∧
    (p.spilled ≠ 0 → p.res ≠ 7 → ∀ ecc, ecc ≠ Ecc.uncorrectable → ∃ t, exec (.fill q ⟨0, ecc⟩) s = .next t ∧
      cpu t q = { p with
        regs := (cpu t q).regs, spillptr := BitVec.ofNat 64 ((p.spillptr.toNat + n) &&& spMask q), res := p.res + 1,
        spilled := p.spilled - 1, pc := pc, skipBrk := false, wait := .none } ∧
      (∀ v i, v < 8 → i < 16 → winReg (cpu t q) v i =
        (if v = (p.curwin + 7 - p.res) % 7
         then BitVec.ofNat 64 (leNat (((dmRead s q p.spillptr.toNat n).1.drop (n / 16 * i)).take (n / 16)))
         else winReg p v i)) ∧
      (∀ u, q = .tile u →
        let ks := (if ecc = Ecc.corrected then [Rg.seq.CORRCNT] else []) ++ [Rg.seq.INSTRET, Rg.seq.FILLCNT]
        Counted q ks s t ∧ CpuFrame q ks s t) ∧
      ∀ k, q = .core k → (∀ r, r ≠ q → cpu t r = cpu s r) ∧
        KeepsBut [.cores, .net, .bootMem, .dram, .pv, .stks, .chans, .regs, .logs, .frees] s t)

/-- WFE retires when an enabled event has arrived, else waits, and WFE_WAKE looks again; EVACK clears events but those
    that arrive with it; a core's timer sets event 25 (R169, R195, R196, R524). -/
def Obligations.EventsWaitsAndTimers : Prop :=
  (∀ (q : Cpu) (s : State),
    let p := cpu s q
    let gone : Proc := { p with
      sevpend := p.sevlatch, pc := BitVec.ofNat 64 (nextPc s q % 2 ^ xlen q), skipBrk := false, wait := .none }
    (runs s q = true →
      (p.sevlatch &&& p.sevena ≠ 0 → ∃ t, exec (.wfe q 0) s = .next t ∧ cpu t q = gone ∧
        Counted q [Rg.seq.INSTRET] s t ∧ CpuFrame q [Rg.seq.INSTRET] s t) ∧
      (p.sevlatch &&& p.sevena = 0 → ∃ t, exec (.wfe q 0) s = .next t ∧ cpu t q = { p with wait := .wfe } ∧
        CpuFrame q [] s t)) ∧
    (p.wait = .wfe → p.sevlatch &&& p.sevena ≠ 0 → (∀ u, q = .tile u → issues s (.seq u) = true) →
      ∃ t, exec (.wfeWake q) s = .next t ∧ cpu t q = gone ∧ Counted q [Rg.seq.INSTRET] s t ∧
        CpuFrame q [Rg.seq.INSTRET] s t)) ∧
  (∀ (q : Cpu) (s : State) (a : RegF) (now : W32), runs s q = true → a.toNat < 24 →
    let p := cpu s q
    let m := w32 (rg q p a)
    ∃ t, exec (.evack q 0 a 0 0 now) s = .next t ∧ Retired q { p with
      sevlatch := (p.sevlatch &&& ~~~ m) ||| (now &&& sevMask q), sevpend := p.sevpend &&& ~~~ m } (nextPc s q) s t) ∧
  (∀ (k : Fin 4) (s : State),
    let p := cpu s (.core k)
    p.armed = true → p.tcmplo.toNat + p.tcmphi.toNat * 2 ^ 32 ≤ s.clock.now.toNat →
    ∃ t, exec (.timerCompare k) s = .next t ∧
      cpu t (.core k) = { p with armed := false, sevlatch := p.sevlatch ||| w32 (2 ^ 25) } ∧ CpuFrame (.core k) [] s t)

/-- Reserved register values, non-zero unused fields and undefined operations raise ILLEGAL with the instruction's word,
    on every processor; so do LDD and STD on a sequencer, and the command, record and parameter instructions on a
    core (R165, R166, R174, R524). -/
def Sys2Proof.Says.IllegalFormsTrap : Prop :=
  ∀ (q : Cpu) (s : State) (d a b : RegF) (fn : BitVec 11) (imm : BitVec 16) (x : BitVec 12) (y : BitVec 13)
    (off : BitVec 26) (qd : BitVec 6) (cond : BitVec 4) (imm11 : BitVec 11) (ecc : Ecc), runs s q = true →
    (cpu s q).intrap = false →
    let ill (c : Instr) (w : W32) : Prop := ∃ t, exec c s = .next t ∧ Trapped q 0x03 (cpu s q).pc.toNat w.toNat s t
    let r2 := 24 ≤ d.toNat ∨ 24 ≤ a.toNat
    let r3 := r2 ∨ 24 ≤ b.toNat
    (r3 ∨ 16 ≤ fn.toNat → ill (.alu q d a b fn) (encRR 0x00 d a b fn)) ∧
    (r2 → ill (.addi q d a imm) (encRI 0x01 d a imm) ∧ ill (.andi q d a imm) (encRI 0x02 d a imm) ∧
      ill (.ori q d a imm) (encRI 0x03 d a imm) ∧ ill (.xori q d a imm) (encRI 0x04 d a imm) ∧
      ill (.ldw q d a imm ecc) (encRI 0x08 d a imm) ∧ ill (.stw q d a imm) (encRI 0x09 d a imm) ∧
      ill (.ldb q d a imm ecc) (encRI 0x0A d a imm) ∧ ill (.stb q d a imm) (encRI 0x0B d a imm)) ∧
    (r2 ∨ 3 ≤ imm.toNat / xlen q → ill (.shi q d a imm) (encRI 0x05 d a imm)) ∧
    (24 ≤ d.toNat ∨ a ≠ 0 → ill (.lui q d a imm) (encRI 0x06 d a imm)) ∧
    (r3 ∨ (isTile q = true ∧ fn ≠ 0) ∨ (isTile q = false ∧ (b ≠ 0 ∨ 2 ≤ fn.toNat)) →
      ill (.ldx q d a b fn) (encRR 0x0C d a b fn) ∧ ill (.stx q d a b fn) (encRR 0x0D d a b fn)) ∧
    (r2 ∨ isTile q = true → ill (.ldd q d a imm) (encRI 0x0E d a imm) ∧ ill (.std q d a imm) (encRI 0x0F d a imm)) ∧
    (24 ≤ a.toNat ∨ 24 ≤ b.toNat ∨ 6 ≤ cond.toNat → ill (.cmp q qd a b cond) (encQC 0x10 qd a b cond)) ∧
    (24 ≤ a.toNat ∨ 6 ≤ cond.toNat → ill (.cmpi q qd a cond imm11) (encQI 0x11 qd a cond imm11)) ∧
    (24 ≤ d.toNat ∨ a ≠ 0 ∨ 2 ≤ imm.toNat → ill (.prd q d a imm) (encRI 0x13 d a imm)) ∧
    (24 ≤ a.toNat ∨ d ≠ 0 ∨ 2 ≤ imm.toNat → ill (.pwr q d a imm) (encRI 0x14 d a imm)) ∧
    (24 ≤ a.toNat ∨ d ≠ 0 ∨ b ≠ 0 ∨ fn ≠ 0 → ill (.callr q d a b fn) (encRR 0x1B d a b fn) ∧
      ∀ now, ill (.evack q d a b fn now) (encRR 0x2F d a b fn)) ∧
    (off ≠ 0 → ill (.ret q off) (encJ 0x1C off) ∧ ill (.halt q off) (encJ 0x1F off) ∧ ill (.wfe q off) (encJ 0x2E off)) ∧
    (ill (.texit q off) (encJ 0x1D off) ∧ ill (.spill q off) (encJ 0x2C off) ∧ ill (.fill q ⟨off, ecc⟩) (encJ 0x2D off)) ∧
    (d ≠ 0 ∨ a ≠ 0 ∨ 256 ≤ imm.toNat → ill (.trap q d a imm) (encRI 0x1E d a imm)) ∧
    (isTile q = false ∨ 24 ≤ a.toNat ∨ d ≠ 0 → ill (.pwrp q qd a d) (encPM 0x20 qd a d)) ∧
    (isTile q = false ∨ 24 ≤ d.toNat ∨ a ≠ 0 → ill (.prdp q qd a d) (encPM 0x21 qd a d)) ∧
    (24 ≤ d.toNat ∨ a ≠ 0 ∨ crVal s q imm.toNat = none → ill (.crr q d a imm) (encRI 0x22 d a imm)) ∧
    (24 ≤ a.toNat ∨ d ≠ 0 ∨ crVal s q imm.toNat = none → ill (.crw q d a imm) (encRI 0x23 d a imm)) ∧
    (isTile q = false ∨ y ≠ 0 → ill (.issue q x y ecc) (encCM 0x24 x y)) ∧
    (isTile q = false ∨ 24 ≤ a.toNat ∨ d ≠ 0 ∨ b ≠ 0 ∨ fn ≠ 0 ∨ rg q (cpu s q) a % 32 ≠ 0 ∨ 0x20000 ≤ rg q (cpu s q) a →
      ill (.issuer q d a b fn ecc) (encRR 0x25 d a b fn)) ∧
    (isTile q = false ∨ 2 ≤ y.toNat ∨ (cpu s q).recording = true → ill (.recbeg q x y) (encCM 0x26 x y)) ∧
    (isTile q = false ∨ y = 0 ∨ 4096 < x.toNat + y.toNat ∨ (cpu s q).recording = true →
      ill (.replay q x y) (encCM 0x27 x y)) ∧
    (isTile q = false ∨ off ≠ 0 ∨ (cpu s q).recording = false → ill (.recend q off) (encJ 0x28 off))

/-- A trap condition in the trap window is a double fault, an uncorrectable word of a FILL among them: the processor stops
    fetching; a sequencer enters FAULT with cause 1 and the two codes, and logs 0x01 (R161, R175). -/
def Sys2Proof.Says.TrapInTheTrapWindowIsADoubleFault : Prop :=
  ∀ (q : Cpu) (s : State) (imm : BitVec 16) (off : BitVec 26) (a : RegF), runs s q = true → (cpu s q).intrap = true →
    let p := cpu s q
    let df (c : Instr) (code : Nat) : Prop := ∃ t, exec c s = .next t ∧ (cpu t q) = { cpu s q with
        live := false, wait := .none } ∧
      (∀ u, q = .tile u → (blkSt t (.seq u)).run = .fault ∧
        reg t (Blk.key (.seq u) + Rg.seq.SEQFAULT) = w32 (1 + (cpu s q).trcode.toNat % 256 * 2 ^ 8 + code * 2 ^ 16) ∧
        (logOf t (Blk.key (.seq u))).head? =
          some ⟨0x01, w32 (cpu s q).pc.toNat, (cpu s q).trcode, w32 (cpu s q).trinfo.toNat⟩ ∧
        (levels t (.seq u) 0).testBit 1 = true)
    (imm.toNat < 256 → df (.trap q 0 0 imm) 0x08) ∧ df (.call q off) 0x01 ∧ df (.alu q 24 0 0 0) 0x03 ∧
    (a.toNat < 24 → df (.callr q 0 a 0 0) 0x01) ∧
    (p.res = 1 → df (.ret q 0) (if p.spilled = 0 then 0x03 else 0x02)) ∧
    (p.res = 1 ∨ p.spillptr.toNat < p.spilllim.toNat + winBytes q → df (.spill q 0) 0x01) ∧
    (p.spilled = 0 ∨ p.res = 7 → ∀ ecc, df (.fill q ⟨0, ecc⟩) 0x02) ∧
    (p.spilled ≠ 0 → p.res ≠ 7 → df (.fill q ⟨0, .uncorrectable⟩) 0x07)
/-- A command names its predicate, its sense, its reserved bits and its parameter references (R177, R178); it passes when
    the predicate differs from the sense and nothing reserved is set. -/
def Sys2Proof.Says.Passes (p : Proc) (c : Cmd) : Prop :=
  qv p (BitVec.ofNat 6 (bits c.hdr 14 9)) ≠ c.hdr.getLsbD 15

def Sys2Proof.Says.GoodHead (c : Cmd) : Prop :=
  bits c.hdr 8 6 ≠ 5 ∧ bits c.hdr 8 6 ≠ 6 ∧ c.hdr &&& 0x80800000 = 0 ∧
  ∀ i, 1 ≤ i → i ≤ 7 → c.hdr.getLsbD (23 + i) = true → bits (c.word i) 7 6 = 0

/-- A command in the FIFO made of command c: tagged with the epoch of SEQEPOCH, its parameter references resolved as the
    parameter plus the signed addend, its other words as they are (R178, R179). -/
def Sys2Proof.Says.Resolved (p : Proc) (c : Cmd) (f : FCmd) : Prop :=
  f.epoch = p.seqepoch ∧ f.seqno = p.nextSeq ∧ f.cmd.hdr = c.hdr ∧ f.cmd.src = c.src ∧
  ∀ i, 1 ≤ i → i ≤ 7 → f.cmd.word i =
    (if c.hdr.getLsbD (23 + i) then
      BitVec.ofNat 32 (tget 0 p.params (bits (c.word i) 5 0)).toNat +
        (BitVec.ofNat 24 (bits (c.word i) 31 8)).signExtend 32
     else c.word i)

/-- A sequencer has put a command made of c into its FIFO and retired; a command boundary refreshes SEVPEND (R179,
    R195). -/
def Sys2Proof.Says.Issued (u : Fin 64) (c : Cmd) (s t : State) : Prop :=
  let q := Cpu.tile u
  let p := cpu s q
  (∃ f, Resolved p c f ∧ cpu t q = { p with
    fifo := p.fifo ++ [f], nextSeq := p.nextSeq + 1, sevpend := p.sevlatch,
    pc := BitVec.ofNat 64 (nextPc s q % 2 ^ 32), skipBrk := false, wait := .none }) ∧
  Counted q [Rg.seq.INSTRET, Rg.seq.CMDISS] s t ∧ CpuFrame q [Rg.seq.INSTRET, Rg.seq.CMDISS] s t

/-- ISSUE and ISSUER with room in the FIFO put the command of the block they name into it, unless its predicate holds it
    back, which only counts; a full FIFO holds the instruction (R166, R179). -/
def Sys2Proof.Says.IssuePutsCommandsIntoTheFifo : Prop :=
  ∀ (u : Fin 64) (s : State) (a : BitVec 12) (r : RegF), runs s (.tile u) = true → r.toNat < 24 →
    let q := Cpu.tile u
    let p := cpu s q
    let c := imCmd p (32 * a.toNat)
    rg q p r = 32 * a.toNat → p.recording = false →
    (p.fifo.length < 64 → Passes p c → GoodHead c →
      (∃ t, exec (.issue q a 0 .good) s = .next t ∧ Issued u c s t) ∧
      (∃ t, exec (.issuer q 0 r 0 0 .good) s = .next t ∧ Issued u c s t)) ∧
    (p.fifo.length < 64 → ¬ Passes p c → ∃ t, exec (.issue q a 0 .good) s = .next t ∧
      cpu t q = { p with
        sevpend := p.sevlatch, pc := BitVec.ofNat 64 (nextPc s q % 2 ^ 32), skipBrk := false, wait := .none } ∧
      Counted q [Rg.seq.INSTRET, Rg.seq.CMDSKIPP] s t ∧ CpuFrame q [Rg.seq.INSTRET, Rg.seq.CMDSKIPP] s t) ∧
    (64 ≤ p.fifo.length → ∃ t, exec (.issue q a 0 .good) s = .next t ∧ cpu t q = p ∧ CpuFrame q [] s t)

/-- ISSUE while recording also writes its command to the next replay entry, as it stands in IM, and puts it into the FIFO only
    with RUN; beyond entry 4,095 it raises RECOVF. A head that names something reserved is skipped and counted. A corrected
    word counts, and an uncorrectable one stops the sequencer with cause 2 and the block's address in its log entry, whether
    ISSUE or REPLAY reads it (R161, R174, R179, R184). -/
def Sys2Proof.Says.IssueRecordsSkipsAndFails : Prop :=
  ∀ (u : Fin 64) (s : State) (a : BitVec 12),
    let q := Cpu.tile u
    let p := cpu s q
    let c := imCmd p (32 * a.toNat)
    let after (p : Proc) : Proc := { p with
      sevpend := p.sevlatch, pc := BitVec.ofNat 64 (nextPc s q % 2 ^ 32), skipBrk := false, wait := .none }
    let stops (x : W32) (t : State) : Prop := (blkSt t (.seq u)).run = .fault ∧ (cpu t q).live = false ∧
      reg t (Blk.key (.seq u) + Rg.seq.SEQFAULT) = 2 ∧ (cpu t q).fifo = p.fifo ∧
      (logOf t (Blk.key (.seq u))).head? = some ⟨0x02, x, p.trcode, w32 p.trinfo.toNat⟩
    p.fifo.length < 64 →
    (runs s q = true →
      (∃ t, exec (.issue q a 0 .uncorrectable) s = .next t ∧ stops (w32 (32 * a.toNat)) t) ∧
      (p.recording = false → Passes p c → GoodHead c → ∃ t, exec (.issue q a 0 .corrected) s = .next t ∧
        Counted q [Rg.seq.CORRCNT, Rg.seq.INSTRET, Rg.seq.CMDISS] s t ∧ ∃ f, Resolved p c f ∧ (cpu t q).fifo = p.fifo ++ [f]) ∧
      (Passes p c → ¬ GoodHead c → ∃ t, exec (.issue q a 0 .good) s = .next t ∧
        (let l := p.sevlatch ||| (if p.skips.length < 32 then 0x100 else 0x200)
         cpu t q = { after p with skips := (cpu t q).skips, sevlatch := l, sevpend := l }) ∧
        (p.skips.length < 32 → ∃ e, (cpu t q).skips = p.skips ++ [e] ∧ e.addr = w32 (32 * a.toNat) ∧ e.hdr = c.hdr) ∧
        (32 ≤ p.skips.length → (cpu t q).skips = p.skips) ∧
        Counted q [Rg.seq.INSTRET, Rg.seq.CMDSKIPL] s t) ∧
      (p.recording = true → Passes p c → GoodHead c →
        (4096 ≤ p.recNext → p.intrap = false → ∃ t, exec (.issue q a 0 .good) s = .next t ∧ Trapped q 0x09 p.pc.toNat 4096 s t) ∧
        (p.recNext < 4096 → ∃ t, exec (.issue q a 0 .good) s = .next t ∧ getEntry (cpu t q) p.recNext = c ∧
          (∀ n, n < 4096 → n ≠ p.recNext → getEntry (cpu t q) n = getEntry p n) ∧
          (cpu t q).recNext = p.recNext + 1 ∧ Counted q [Rg.seq.INSTRET] s t ∧
          (p.recRun = false → (cpu t q).fifo = p.fifo) ∧
          (p.recRun = true → ∃ f, Resolved p c f ∧ (cpu t q).fifo = p.fifo ++ [f])))) ∧
    (∀ i e, p.replay = some (i, e) → runs (setCpu s q { p with replay := none }) q = true →
      ∃ t, exec (.replayEntry u .uncorrectable) s = .next t ∧ stops (getEntry p i).src t)

/-- RECBEG and RECEND turn recording on at an entry and off; REPLAY names its entries; each of them then enters the FIFO as
    an issued command would, and the REPLAY retires with its last (R184, R185). -/
def Sys2Proof.Says.RecordingAndReplay : Prop :=
  ∀ (u : Fin 64) (s : State) (a : BitVec 12) (b : BitVec 13),
    let q := Cpu.tile u
    let p := cpu s q
    (runs s q = true →
      (b.toNat < 2 → p.recording = false → ∃ t, exec (.recbeg q a b) s = .next t ∧
        Retired q { p with recording := true, recNext := a.toNat, recRun := b.toNat == 1 } (nextPc s q) s t) ∧
      (p.recording = true → ∃ t, exec (.recend q 0) s = .next t ∧ Retired q { p with recording := false } (nextPc s q) s t) ∧
      (p.recording = false → 1 ≤ b.toNat → a.toNat + b.toNat ≤ 4096 → ∃ t, exec (.replay q a b) s = .next t ∧
        cpu t q = { p with replay := some (a.toNat, a.toNat + b.toNat) } ∧ CpuFrame q [] s t)) ∧
    (∀ i e, p.replay = some (i, e) → runs (setCpu s q { p with replay := none }) q = true → p.fifo.length < 64 →
      let c := getEntry p i
      Passes p c → GoodHead c → ∃ t, exec (.replayEntry u .good) s = .next t ∧
        Counted q [Rg.seq.CMDISS] s t ∧ CpuFrame q [Rg.seq.INSTRET, Rg.seq.CMDISS] s t ∧
        ∃ f, Resolved p c f ∧ cpu t q =
          (if i + 1 = e then { p with
            fifo := p.fifo ++ [f], nextSeq := p.nextSeq + 1, sevpend := p.sevlatch, replay := none,
            pc := BitVec.ofNat 64 (nextPc s q % 2 ^ 32), skipBrk := false, wait := .none }
           else { p with
            fifo := p.fifo ++ [f], nextSeq := p.nextSeq + 1, sevpend := p.sevlatch, replay := some (i + 1, e) }))

/-- The word that spells an instruction of processor q, from the formats and opcodes of R165 and R166, where `data` is what
    its own read of memory meets. -/
def Sys2Proof.Says.spelled (q : Cpu) (data : Ecc) (i : Instr) : Option W32 :=
  let own (x : Cpu) (w : W32) : Option W32 := if x = q then some w else none
  let met (x : Cpu) (e : Ecc) (w : W32) : Option W32 := if x = q ∧ e = data then some w else none
  match i with
  | .alu x d a b fn => own x (encRR 0x00 d a b fn)
  | .addi x d a imm => own x (encRI 0x01 d a imm)
  | .andi x d a imm => own x (encRI 0x02 d a imm)
  | .ori x d a imm => own x (encRI 0x03 d a imm)
  | .xori x d a imm => own x (encRI 0x04 d a imm)
  | .shi x d a imm => own x (encRI 0x05 d a imm)
  | .lui x d a imm => own x (encRI 0x06 d a imm)
  | .ldw x d a imm e => met x e (encRI 0x08 d a imm)
  | .stw x d a imm => own x (encRI 0x09 d a imm)
  | .ldb x d a imm e => met x e (encRI 0x0A d a imm)
  | .stb x d a imm => own x (encRI 0x0B d a imm)
  | .ldx x d a b fn => own x (encRR 0x0C d a b fn)
  | .stx x d a b fn => own x (encRR 0x0D d a b fn)
  | .ldd x d a imm => own x (encRI 0x0E d a imm)
  | .std x d a imm => own x (encRI 0x0F d a imm)
  | .cmp x qd a b cond => own x (encQC 0x10 qd a b cond)
  | .cmpi x qd a cond imm => own x (encQI 0x11 qd a cond imm)
  | .plog x qd qa qb fn => own x (encQL 0x12 qd qa qb fn)
  | .prd x d a imm => own x (encRI 0x13 d a imm)
  | .pwr x d a imm => own x (encRI 0x14 d a imm)
  | .br x p sense off => own x (encBR 0x18 p sense off)
  | .jmp x off => own x (encJ 0x19 off)
  | .call x off => own x (encJ 0x1A off)
  | .callr x d a b fn => own x (encRR 0x1B d a b fn)
  | .ret x off => own x (encJ 0x1C off)
  | .texit x off => own x (encJ 0x1D off)
  | .trap x d a imm => own x (encRI 0x1E d a imm)
  | .halt x off => own x (encJ 0x1F off)
  | .pwrp x p a d => own x (encPM 0x20 p a d)
  | .prdp x p a d => own x (encPM 0x21 p a d)
  | .crr x d a imm => own x (encRI 0x22 d a imm)
  | .crw x d a imm => own x (encRI 0x23 d a imm)
  | .issue x a b e => met x e (encCM 0x24 a b)
  | .issuer x d a b fn e => met x e (encRR 0x25 d a b fn)
  | .recbeg x a b => own x (encCM 0x26 a b)
  | .replay x a b => own x (encCM 0x27 a b)
  | .recend x off => own x (encJ 0x28 off)
  | .spill x off => own x (encJ 0x2C off)
  | .fill x op => met x op.ecc (encJ 0x2D op.off)
  | .wfe x off => own x (encJ 0x2E off)
  | .evack x d a b fn now => if now = 0 then own x (encRR 0x2F d a b fn) else none
  | _ => none

/-- Whatever word stands at the PC, a fetch that meets no uncorrectable error does what the instruction it spells does, on a
    sequencer and on a core, and raises ILLEGAL where it spells none; a corrected error is counted and has no other effect
    (R161, R163, R165, R166, R524). -/
def Sys2Proof.Says.EveryWordIsFetchedAndRun : Prop :=
  ∀ (q : Cpu) (s : State) (met data : Ecc), runs s q = true → (cpu s q).pc.toNat < imTop q → (cpu s q).brkctl = false →
    met ≠ .uncorrectable →
    ∃ s1, (met = .good → s1 = s) ∧ (met = .corrected → Counted q [Rg.seq.CORRCNT] s s1 ∧ CpuFrame q [Rg.seq.CORRCNT] s s1 ∧
        cpu s1 q = cpu s q) ∧
      let f := fetchWord s1 q
      (∀ i, spelled q data i = some f.1 → ∃ t, exec (.instructionFetch q ⟨met, data⟩) s = .next t ∧ exec i f.2 = .next t) ∧
      ((∀ i, spelled q data i ≠ some f.1) → (cpu s q).intrap = false →
        ∃ t, exec (.instructionFetch q ⟨met, data⟩) s = .next t ∧ Trapped q 0x03 (cpu s q).pc.toNat f.1.toNat f.2 t)

/-- INSTRUCTION_FETCH runs the instruction of the word at the PC: for words written out from R165's formats, what the
    fetch does is what the instruction does. A fetch beyond instruction memory raises IFETCH, one at an armed breakpoint
    BREAK, an uncorrectable word stops the sequencer with cause 2 (R161, R163, R165, R174). -/
def Sys2Proof.Says.FetchRunsTheWordAtThePc : Prop :=
  ∀ (u : Fin 64) (s : State) (data : Ecc), runs s (.tile u) = true →
    let q := Cpu.tile u
    let p := cpu s q
    let at_ (w : W32) : Prop := imWord p p.pc.toNat = w
    (p.pc.toNat < 0x20000 → p.brkctl = false →
      -- op 0x01, d 9, a 10, imm -2
      (at_ 0b000001_01001_01010_1111111111111110#32 → ∃ t, exec (.instructionFetch q ⟨.good, data⟩) s = .next t ∧
        exec (.addi q 9 10 0xFFFE) s = .next t) ∧
      -- op 0x00, d 8, a 1, b 23, fn SUB
      (at_ 0b000000_01000_00001_10111_00000000001#32 → ∃ t, exec (.instructionFetch q ⟨.good, data⟩) s = .next t ∧
        exec (.alu q 8 1 23 1) s = .next t) ∧
      -- op 0x10, qd 33, a 2, b 3, cond 4
      (at_ 0b010000_100001_00010_00011_0100_000000#32 → ∃ t, exec (.instructionFetch q ⟨.good, data⟩) s = .next t ∧
        exec (.cmp q 33 2 3 4) s = .next t) ∧
      -- op 0x18, q 5, sense 1, offset -1
      (at_ 0b011000_000101_1_1111111111111111111#32 → ∃ t, exec (.instructionFetch q ⟨.good, data⟩) s = .next t ∧
        exec (.br q 5 true (-1)) s = .next t) ∧
      -- op 0x27, A 3, B 4096
      (at_ 0b100111_000000000011_0_1000000000000#32 → ∃ t, exec (.instructionFetch q ⟨.good, data⟩) s = .next t ∧
        exec (.replay q 3 4096) s = .next t) ∧
      -- op 0x3F is no opcode
      (at_ 0xFC000000 → p.intrap = false → ∃ t, exec (.instructionFetch q ⟨.good, data⟩) s = .next t ∧
        Trapped q 0x03 p.pc.toNat 0xFC000000 s t)) ∧
    (0x20000 ≤ p.pc.toNat → p.intrap = false → ∀ ecc, ∃ t, exec (.instructionFetch q ⟨ecc, data⟩) s = .next t ∧
      Trapped q 0x04 p.pc.toNat p.pc.toNat s t) ∧
    (p.pc.toNat < 0x20000 → p.brkctl = true → p.pc = p.brkaddr → p.skipBrk = false → p.intrap = false → ∀ ecc,
      ∃ t, exec (.instructionFetch q ⟨ecc, data⟩) s = .next t ∧ Trapped q 0x0B p.pc.toNat p.pc.toNat s t) ∧
    (p.pc.toNat < 0x20000 → p.brkctl = false → ∃ t, exec (.instructionFetch q ⟨.uncorrectable, data⟩) s = .next t ∧
      (blkSt t (.seq u)).run = .fault ∧ reg t (Blk.key (.seq u) + Rg.seq.SEQFAULT) = 2 ∧ (cpu t q).live = false)

/-- A management core fetches from its memory: the word there, written out from R165's formats, is what runs (R524). -/
def Sys2Proof.Says.CoreFetchRunsTheWordInItsMemory : Prop :=
  ∀ (k : Fin 4) (s : State) (data : Ecc), runs s (.core k) = true →
    let q := Cpu.core k
    let p := cpu s q
    let f := dmRead s q p.pc.toNat 4
    p.pc.toNat < 0x4000000 → p.brkctl = false →
    -- op 0x01, d 9, a 10, imm -2
    (leNat f.1 = 0b000001_01001_01010_1111111111111110 → ∃ t, exec (.instructionFetch q ⟨.good, data⟩) s = .next t ∧
      cpu t q = { setRg q p 9 (rgv s q 10 - 2).toNat with
        pc := BitVec.ofNat 64 (nextPc s q % 2 ^ 64), skipBrk := false, wait := .none })

/-- COMMAND_DISPATCH holds the FIFO's head at a fence while a dispatched command has not completed, counting the slot, at an
    epoch its row or vector unit has not applied, and before a full unit; else the head leaves the FIFO for its unit: a unit
    that is at work queues it, and a local NOP completes, with its unit's event under EVC (R180, R181, R182, R190). NOP given
    to the unit directly completes the same way. -/
def Obligations.DispatchTakesTheHeadCommand : Prop :=
  ∀ (u : Fin 64) (s : State), issues s (.seq u) = true → (blkSt s (.seq u)).run = .going →
    let q := Cpu.tile u
    let p := cpu s q
    let ev (c : Cmd) (w : W32) : W32 := if c.hdr.getLsbD 22 then w ||| 0x80 else w
    (∀ c : Cmd, ∃ t, exec (.nop u c) s = .next t ∧ CpuFrame q [] s t ∧ cpu t q = { p with
      nextSeq := p.nextSeq + 1, outst := p.outst.filter (fun n => n != p.nextSeq), sevlatch := ev c p.sevlatch }) ∧
    (∀ f rest, p.fifo = f :: rest → p.zeroing = false →
      let n := bits f.cmd.hdr 8 6
      let gone : Proc := { p with fifo := rest, outst := p.outst ++ [f.seqno], epSince := none }
      (f.cmd.hdr.getLsbD 16 = true → p.outst ≠ [] → ∃ t, exec (.commandDispatch u) s = .next t ∧
        cpu t q = { p with epSince := none } ∧ Counted q [Rg.seq.FENCEWAIT] s t ∧ CpuFrame q [Rg.seq.FENCEWAIT] s t) ∧
      (f.cmd.hdr.getLsbD 16 = false ∨ p.outst = [] →
        (n = 7 → bits f.cmd.hdr 5 0 = 1 → ∃ t, exec (.commandDispatch u) s = .next t ∧
          CpuFrame q [] s t ∧ cpu t q = { p with
            fifo := rest, outst := p.outst.filter (fun n => n != f.seqno), epSince := none,
            sevlatch := ev f.cmd p.sevlatch }) ∧
        (n = 0 ∧ (blkSt s (.row u)).epoch ≠ f.epoch ∨ n = 1 ∧ (blkSt s (.vec u)).epoch ≠ f.epoch →
          ∃ t, exec (.commandDispatch u) s = .next t ∧
          (cpu t q).fifo = p.fifo ∧ Counted q [Rg.seq.HELDEPOCH] s t ∧ CpuFrame q [Rg.seq.HELDEPOCH] s t) ∧
        ((n = 0 → (blkSt s (.row u)).epoch = f.epoch) → (n = 1 → (blkSt s (.vec u)).epoch = f.epoch) →
          (unitRoom s u n = false → ∃ t, exec (.commandDispatch u) s = .next t ∧ cpu t q = { p with epSince := none } ∧
            Counted q [Rg.seq.QFULLWAIT] s t ∧ CpuFrame q [Rg.seq.QFULLWAIT] s t) ∧
          (unitRoom s u n = true →
            (∃ t, exec (.commandDispatch u) s = .next t ∧ (cpu t q).fifo = rest ∧ (cpu t q).epSince = none) ∧
            (n = 1 → (tile s u).vec.active.isSome = true →
              let fmt := fmtdesc s u (hFdi f.cmd)
              vecFails s (vecEnv s u fmt) f.cmd = [] → ∃ t, exec (.commandDispatch u) s = .next t ∧ cpu t q = gone ∧
                (tile t u).vec = { (tile s u).vec with queue := (tile s u).vec.queue ++ [⟨f.cmd, f.seqno, fmt, 0⟩] }) ∧
            (n = 2 → (tile s u).mover.active.isSome = true → movFails s u f.cmd = [] →
              ∃ t, exec (.commandDispatch u) s = .next t ∧ cpu t q = gone ∧
                (tile t u).mover = { (tile s u).mover with queue := (tile s u).mover.queue ++ [⟨f.cmd, f.seqno, 0, 0⟩] }) ∧
            (n = 3 → (tile s u).sync.active.isSome = true → syncFails s u f.cmd = [] →
              ∃ t, exec (.commandDispatch u) s = .next t ∧ cpu t q = gone ∧
                (tile t u).sync = { (tile s u).sync with queue := (tile s u).sync.queue ++ [⟨f.cmd, f.seqno, 0, 0⟩] }) ∧
            (n = 4 → (tile s u).str.active.isSome = true → strFails s u f.cmd = [] →
              ∃ t, exec (.commandDispatch u) s = .next t ∧ cpu t q = gone ∧
                (tile t u).str = { (tile s u).str with queue := (tile s u).str.queue ++ [⟨f.cmd, f.seqno, 0, 0⟩] })))))

/-! ### The tile row (R55-R121) -/

/-- The frame of a change within a tile's row and its sequencer's bookkeeping: no other tile, and nothing outside tiles but
    registers of the row, skips that the sequencer counts, the tile's block states, the row's log, partition faults, events
    and the grant queue. -/
def Sys2Proof.Says.RowFrame (u : Fin 64) (s t : State) : Prop :=
  (∀ k, inBlk (.row u) k = false → k ∉ [Blk.key (.seq u) + Rg.seq.CMDSKIPL, Blk.key (.seq u) + Rg.seq.SKIPDROP,
    Blk.key (.ptab (u.val / 16)) + Rg.ptab.PTFAULT] ++ evKeys (tilePages u) → reg t k = reg s k) ∧
  LogsBut [Blk.key (.row u)] s t ∧ (∀ b : Blk, b.wf = true → b ∉ tileBlks u → blkSt t b = blkSt s b) ∧
  KeepsBut [.tiles, .regs, .blks, .logs, .net, .power] s t ∧ (∀ v, v ≠ u → tile t v = tile s v) ∧
  tile t u = { tile s u with row := (tile t u).row, seq := (tile t u).seq }

/-- A row command that passes every check, given to a row with an empty queue: what the queue or the row then holds of it
    (R79, R81). -/
def Sys2Proof.Says.Taken (u : Fin 64) (op : RowOp) (code : Nat) (c : Cmd) (total : Nat) (s t : State) (x : RowCmd) : Prop :=
  let p := cpu s (.tile u)
  x.op = op ∧ x.cmd = withOp c 0 code ∧ x.seqno = p.nextSeq ∧ x.total = total ∧ x.admitted = 0 ∧
  x.fmt = fmtdesc s u (bits c.hdr 21 18) ∧
  x.rd = rdesc s u (if op = .argx then bits c.w2 7 4 else bits c.w6 3 0) ∧
  cpu t (.tile u) = { p with nextSeq := p.nextSeq + 1, outst := p.outst ++ [p.nextSeq] } ∧
  RowFrame u s t ∧ KeepsBut [.tiles, .regs, .blks] s t

/-- How many entries of a range a segment holds PENDING as commands are checked. -/
def Sys2Proof.Says.pendingIn (s : State) (u : Fin 64) (seg e n : Nat) : Nat :=
  ((List.range n).filter (fun i => (entOf (segOf (rowOf s u) seg).acc (e + i)).k == .pending)).length

/-- PASS, FLUSH, ARGX, TAP and SHAPE are checked as they are accepted: one that fails is skipped and logged with its reason
    and changes no row state; one that passes starts, with the entries of its range as its rule leaves them, a SHAPE
    waits in the queue, and a FLUSH or ARGX with nothing pending completes (R79-R81, R85, R87, R88, R90, R93). -/
def Obligations.RowCommandsAreCheckedAndTaken : Prop :=
  ∀ (u : Fin 64) (s : State) (c : Cmd), issues s (.seq u) = true → rowRoom s u = true → (rowOf s u).queue = [] →
    (rowOf s u).exec = [] → (rowOf s u).fabHeld = [] →
    let a := bits c.w1 15 8
    let n := bits c.w1 24 16
    let seg := bits c.w1 2 0
    let started (op : RowOp) (code total : Nat) (t : State) : Prop :=
      ∃ x, Taken u op code c total s t x ∧ (rowOf t u).queue = [] ∧ (rowOf t u).exec = [x]
    let skipped (i : Instr) (code : Nat) : Prop := ∀ f, worst (rowFails s u (withOp c 0 code) false) = some f →
      (cpu s (.tile u)).skips.length < 32 → ∃ t, exec i s = .next t ∧ rowOf t u = rowOf s u ∧
        (cpu t (.tile u)).skips = (cpu s (.tile u)).skips ++ [⟨c.src, (withOp c 0 code).hdr, w32 (f.1 + f.2 * 2 ^ 8)⟩] ∧
        RowFrame u s t
    let done (t : State) : Prop := (rowOf t u).queue = [] ∧ (rowOf t u).exec = [] ∧
      (cpu t (.tile u)).outst = (cpu s (.tile u)).outst.filter (fun m => m != (cpu s (.tile u)).nextSeq)
    (skipped (.pass u c) 1 ∧ skipped (.flush u c) 2 ∧ skipped (.argx u c) 3 ∧ skipped (.tap u c) 4 ∧
      skipped (.shape u c) 5) ∧
    (rowFails s u (withOp c 0 1) false = [] → bits c.w1 7 6 ≠ 2 → ∃ t, exec (.pass u c) s = .next t ∧
      started .pass 1 n t ∧ ∀ e, a ≤ e → e < a + n →
        (entOf (segOf (rowOf t u) seg).acc e).k = (if c.w1.getLsbD 4 then .pending else .opened)) ∧
    (rowFails s u (withOp c 0 1) false = [] → bits c.w1 7 6 = 2 → ∃ t, exec (.pass u c) s = .next t ∧
      ((blkSt t (.row u)).run = .fault ∨ ∃ x, (rowOf t u).exec = [x] ∧ x.op = .pass ∧ x.cmd = withOp c 0 1)) ∧
    (rowFails s u (withOp c 0 4) false = [] → ∃ t, exec (.tap u c) s = .next t ∧ started .tap 4 (bits c.w1 31 8) t) ∧
    (rowFails s u (withOp c 0 2) false = [] →
      (0 < pendingIn s u seg a n → ∃ t, exec (.flush u c) s = .next t ∧ started .flush 2 (pendingIn s u seg a n) t ∧
        ∀ e, a ≤ e → e < a + n → (entOf (segOf (rowOf t u) seg).acc e).k = .idle) ∧
      (pendingIn s u seg a n = 0 → ∃ t, exec (.flush u c) s = .next t ∧ done t)) ∧
    (rowFails s u (withOp c 0 3) false = [] →
      (0 < pendingIn s u 0 a n → ∃ t, exec (.argx u c) s = .next t ∧ started .argx 3 (pendingIn s u 0 a n) t ∧
        ∀ e, a ≤ e → e < a + n → (entOf (segOf (rowOf t u) 0).acc e).k = .idle) ∧
      (pendingIn s u 0 a n = 0 → ∃ t, exec (.argx u c) s = .next t ∧ done t)) ∧
    (rowFails s u (withOp c 0 5) false = [] → ∃ t, exec (.shape u c) s = .next t ∧
      (∃ x, Taken u .shape 5 c 0 s t x ∧ (rowOf t u).queue = [x]) ∧
      (rowOf t u).accShape = BitVec.ofNat 2 (bits c.w1 1 0) ∧ (rowOf t u).shape = (rowOf s u).shape)

/-- The row is at work: good, on, not in FAULT. -/
def Sys2Proof.Says.RowWorks (s : State) (u : Fin 64) : Prop :=
  issues s (.seq u) = true ∧ tileOn s u = true ∧ inFault s (.row u) = false

/-- LANE_PROCESS_ITEM moves the item at a lane on by one lane, or out at the last; a token, its weights at hand and its
    entry emitting nothing, leaves its group sum in the entry of that lane, alone with OPEN, else added. The weight record
    of a lane is read whole and delivered (R56, R62, R65, R70, R72). -/
def Obligations.LanesProcessItemsAndTakeWeights : Prop :=
  ∀ (u : Fin 64) (s : State) (seg : Fin 8) (lane : Fin 512), RowWorks s u →
    let r := rowOf s u
    let l := shapeL r.shape
    let g := segOf r seg
    lane.val < l →
    (∀ it, g.items.find? (fun x => x.lane == lane.val) = some it → g.items.all (fun x => x.lane != lane.val + 1) = true →
      let moved (t : State) : Prop := (segOf (rowOf t u) seg).items =
        (if lane.val + 1 < l then g.items.map (fun x => if x.lane = lane.val then { it with lane := lane.val + 1 } else x)
         else g.items.filter (fun x => x.lane != lane.val))
      (it.kind = .null → ∃ t, exec (.laneProcessItem u seg lane) s = .next t ∧ moved t ∧ RowFrame u s t) ∧
      (∀ c j, it.kind = .token j → r.exec.find? (fun c => c.id == it.cmd) = some c → c.seg = seg → c.op = .pass →
        c.cmd.w1.getLsbD 5 = true → c.emits = [] →
        let e := bits c.cmd.w1 15 8 + j
        let key := (seg.val * l + lane.val) * 256 + e
        let sum := groupOf r.compat (c.cmd.hdr.getLsbD 17) c.fmt (tget [] r.wts (seg.val * l + lane.val)) it.tok it.dec
        ∃ t, exec (.laneProcessItem u seg lane) s = .next t ∧ moved t ∧ RowFrame u s t ∧
          ∀ k, accAt (rowOf t u) k =
            (if k = key then (if c.cmd.w1.getLsbD 3 then sum
              else accAdd (rowInt c.fmt) (c.cmd.hdr.getLsbD 17) (accAt r key) sum)
             else accAt r k))) ∧
    (∀ c, wantsWeights r seg lane = some c →
      let m := memRead s (tileInit s u) (addr48 c.cmd 4 + lane.val * (8 * bits c.cmd.w5 31 16)) 136
      m.rsn = 0 → ∃ t, exec (.weightRecordArrival u seg lane) s = .next t ∧
        tget [] (segOf (rowOf t u) seg).inw (c.id * 512 + lane.val) = m.data)

/-- ROW_COMMAND_COMPLETE takes the oldest command of a segment out of the row once all of it is out, with its event under
    EVC; SHAPE_APPLY sets the held shape with every accumulator 0 and no weights (R82, R93). Nothing is queued behind. -/
def Obligations.RowCommandsCompleteAndShapesApply : Prop :=
  ∀ (u : Fin 64) (s : State), RowWorks s u → (blkSt s (.row u)).run = .going → (rowOf s u).fabHeld = [] →
    let r := rowOf s u
    let p := cpu s (.tile u)
    let out (c : RowCmd) (t : State) : Prop :=
      (cpu t (.tile u)).outst = p.outst.filter (fun n => n != c.seqno) ∧
      (c.cmd.hdr.getLsbD 22 = true → regBit t (Blk.key (.row u) + Rg.hdr.EVPEND) 0 = true ∧
        (cpu t (.tile u)).sevlatch.getLsbD (bits c.cmd.hdr 8 6) = true) ∧ RowFrame u s t
    (∀ (seg : Fin 8) c, r.queue = [] → r.exec.find? (fun c => c.seg == seg.val) = some c → c.fabric = none →
      c.admitted = c.total → (segOf r seg).items.all (fun x => x.kind == .null || x.cmd != c.id) = true →
      (segOf r seg).rows.all (fun b => b.cmd != c.id) = true → r.awaiting.all (fun p => p.cmd != c.id) = true →
      ∃ t, exec (.rowCommandComplete u seg) s = .next t ∧ out c t ∧
        (rowOf t u).exec = r.exec.filter (fun x => x.id != c.id)) ∧
    (∀ c, r.queue = [c] → r.exec = [] → c.op = .shape → c.fabric = none →
      ∃ t, exec (.shapeApply u) s = .next t ∧ out c t ∧ (rowOf t u).shape = BitVec.ofNat 2 (bits c.cmd.w1 1 0) ∧
        (rowOf t u).queue = [] ∧ (∀ k, accAt (rowOf t u) k = 0) ∧ (rowOf t u).wts = [])

/-- A row with work at level 0 asks for a start once and slips; START_GRANT serves requests in their order, GRANTGAP
    apart; above level 0 a slot adds the level to the credit; the end of a rate interval shows its rate, and the least
    (R103-R107, R106, R517). -/
def Sys2Proof.Says.RampGrantsAndRates : Prop :=
  (∀ (u : Fin 64) (s : State) (late : List (Fin 8 × Late)), RowWorks s u →
    let r := rowOf s u
    (r.level = 0 → r.granted = false → hasWork r = true → r.grantWait = false →
      ∃ t, exec (.rampSlot u late) s = .next t ∧ rowOf t u = { r with grantWait := true } ∧
        t.power.grantQ = s.power.grantQ ++ [u] ∧
        reg t (Blk.key (.row u) + Rg.row.SLIPRAMP) = satAdd (reg s (Blk.key (.row u) + Rg.row.SLIPRAMP)) 1 ∧ RowFrame u s t) ∧
    (r.level = 0 → hasWork r = false → ∃ t, exec (.rampSlot u late) s = .next t ∧ rowOf t u = r ∧ RowFrame u s t) ∧
    (r.level ≠ 0 → r.credit + r.level < 8 → r.steps + 1 ≠ rampN s u / 8 → r.queue = [] → r.fabHeld = [] →
      ∃ t, exec (.rampSlot u late) s = .next t ∧
        rowOf t u = { r with credit := r.credit + r.level, steps := r.steps + 1 } ∧ RowFrame u s t)) ∧
  (∀ (u : Fin 64) (rest : List (Fin 64)) (s : State), s.power.grantQ = u :: rest →
    (∀ x, s.power.lastGrant = some x → x.toNat + regN s (Blk.key .ptm + Rg.ptm.GRANTGAP) ≤ s.clock.now.toNat) →
    ∃ t, exec .startGrant s = .next t ∧ t.power = { s.power with grantQ := rest, lastGrant := some s.clock.now } ∧
      rowOf t u = { rowOf s u with granted := true } ∧ KeepsBut [.power, .tiles] s t) ∧
  (∀ (u : Fin 64) (rate : BitVec 16) (s : State), domOn s u.val = true →
    let k := Blk.key (.row u)
    ∃ t, exec (.rateIntervalEnd u rate) s = .next t ∧ reg t (k + Rg.row.RATECUR) = rate.setWidth 32 ∧
      (reg t (k + Rg.row.RATEMIN)).toNat = min (regN s (k + Rg.row.RATEMIN)) rate.toNat ∧ KeepsBut [.regs, .blks] s t ∧
      RegsBut ([k + Rg.row.RATECUR, k + Rg.row.RATEMIN] ++ evKeys (tilePages u)) s t)

/-- The row has entered FAULT with a log entry: its commands and items are gone (R110). -/
def Sys2Proof.Says.RowFaulted (u : Fin 64) (e : LogEnt) (s t : State) : Prop :=
  (blkSt t (.row u)).run = .fault ∧ (logOf t (Blk.key (.row u))).head? = some e ∧
  (rowOf t u).queue = [] ∧ (rowOf t u).exec = [] ∧ (rowOf t u).level = 0 ∧ (∀ i, i < 8 → (segOf (rowOf t u) i).items = []) ∧
  ∀ v, v ≠ u → tile t v = tile s v

/-- A feed error, a beat with a reserved sideband bit, and the loss of a port in use each put the row in FAULT with their
    own code; a good operand beat waits for its token, a good beat of a result returning joins the others, a fabric
    command is numbered and held while the queue is full, and a beat for the fabric leaves its queue (R96-R102, R110). -/
def Sys2Proof.Says.PortsFeedsAndRowFaults : Prop :=
  ∀ (u : Fin 64) (s : State) (b : Beat), RowWorks s u →
    let r := rowOf s u
    let k := Blk.key (.row u)
    let seg := bits b.sb 4 2
    let one (n : Nat) (t : State) : Prop := reg t (k + n) = satAdd (reg s (k + n)) 1
    (∀ (code : Fin 3) (sg : Fin 8) (lane : Fin 512) (a : Addr) c, r.exec.find? (fun c => c.seg == sg.val) = some c →
      ∃ t, exec (.rowFeedError u code sg lane a) s = .next t ∧ RowFaulted u
        ⟨w32 (code.val + 1 + sg.val * 2 ^ 8), rowSrc c, w32 a.toNat, w32 (a.toNat / 2 ^ 32 % 2 ^ 16 + lane.val * 2 ^ 16)⟩ s t) ∧
    (∀ (result : Bool) c, portConn s u = false → usesPort r result = true → portUser r result = some c →
      ∃ t, exec (.extensionPortDisconnect u result) s = .next t ∧
        RowFaulted u ⟨w32 (7 + c.seg * 2 ^ 8), rowSrc c, 0, 0⟩ s t) ∧
    (∀ result : Bool, ∃ t, exec (.beatTransferToFabric u result) s = .next t ∧ KeepsBut [.tiles] s t ∧
      (portConn s u = false → rowOf t u =
        (if result then { r with resOut := [], resWait := [] } else { r with opOut := [], opWait := [] })) ∧
      (portConn s u = true → portMoves s u = false → rowOf t u = r) ∧
      (portMoves s u = true → rowOf t u =
        (if result then { r with resOut := (bqFill (r.resOut.drop 1) r.resWait).1, resWait := (bqFill (r.resOut.drop 1) r.resWait).2 }
         else { r with opOut := (bqFill (r.opOut.drop 1) r.opWait).1, opWait := (bqFill (r.opOut.drop 1) r.opWait).2 }))) ∧
    (portMoves s u = false → (∃ t, exec (.operandPortBeat u b) s = .next t ∧ rowOf t u = r) ∧
      (∃ t, exec (.resultPortBeat u b) s = .next t ∧ rowOf t u = r)) ∧
    (portMoves s u = true → opQueued s u < 32 →
      let got (result : Bool) : Nat := ((itemBeats s u result seg).map (· + 1)).getD 0 % 2 ^ 16 * 2 ^ 16
      (bits b.sb 7 5 ≠ 0 →
        (∃ t, exec (.operandPortBeat u b) s = .next t ∧ (blkSt t (.row u)).run = .fault ∧
          reg t (k + Rg.row.PORTERR) = w32 (6 + seg * 32 + got false)) ∧
        (∃ t, exec (.resultPortBeat u b) s = .next t ∧ (blkSt t (.row u)).run = .fault ∧
          reg t (k + Rg.row.PORTERR) = w32 (6 + 16 + seg * 32 + got true))) ∧
      (bits b.sb 7 5 = 0 → seg < shapeSegs r.shape → b.sb.getLsbD 1 = false →
        (∀ c, admitting r seg = some c → c.op = .pass → bits c.cmd.w1 7 6 = 1 → opdec s u = false →
          let n := tokBeats false c.fmt
          (segBeats r seg).length < (c.total - c.admitted) * n →
          (b.sb.getLsbD 0 = true ↔ (segBeats r seg).length % n + 1 = n) →
          ∃ t, exec (.operandPortBeat u b) s = .next t ∧ rowOf t u = { r with opIn := r.opIn ++ [b] } ∧
            one Rg.row.OPBEATS t ∧ RowFrame u s t) ∧
        (∀ p, r.awaiting.find? (fun p => p.seg == seg) = some p → p.got.length / 16 + 1 ≠ p.beats → b.sb.getLsbD 0 = false →
          ∃ t, exec (.resultPortBeat u b) s = .next t ∧ one Rg.row.RESBEATS t ∧ RowFrame u s t ∧
            rowOf t u = { r with
              awaiting := r.awaiting.map (fun x => if x = p then { p with got := p.got ++ beatWords b } else x) })) ∧
      (bits b.sb 7 5 = 0 → fabMaster s u = true → 16 ≤ r.queue.length → r.fabHeld = [] → startable r [] r.queue = none →
        ∃ t c, exec (.fabricCommandBeat u b) s = .next t ∧ one Rg.row.OPBEATS t ∧ RowFrame u s t ∧
          c.words.take 8 = (beatWords b).take 8 ∧ c.src = w32 (2 ^ 31 + r.fabNext.toNat) ∧
          rowOf t u = { r with fabHeld := [(c, r.fabNext)], fabNext := r.fabNext + 1, fabSeq := r.fabNext }))

/-! ### Vector units, data mover, sync unit, stream unit, Nimbus engines (R181-R193, R220-R222, R280-R281, R320-R327) -/

/-- The vector commands that a tile's unit and a Nimbus engine share, with their opcodes (R187). -/
def Sys2Proof.Says.vecRows (u : VU) (c : Cmd) : List (Nat × Instr) :=
  [(0x01, .vadd u c), (0x02, .vsub u c), (0x03, .vmul u c), (0x04, .vmax u c), (0x05, .vmin u c), (0x06, .vfma u c),
   (0x08, .vfn u c), (0x0A, .vcvt u c), (0x10, .smx1 u c), (0x11, .smx2 u c), (0x12, .smx3 u c), (0x14, .nst1 u c),
   (0x15, .nst2 u c)]

/-- What an elementwise command writes, element by element (R187). -/
def Sys2Proof.Says.elementwise (e : VEnv) (c : Cmd) (a b d : List Fv) : List Fv :=
  let sat := hSat c
  match hOpc c with
  | 1 => List.zipWith (fadd sat) a b
  | 2 => List.zipWith (fsub sat) a b
  | 3 => List.zipWith (fmul sat) a b
  | 4 => List.zipWith fmax a b
  | 5 => List.zipWith fmin a b
  | 6 => ((a.zip b).zipIdx).map (fun p => ffma sat p.1.1 p.1.2 (d.getD p.2 fzero))
  | _ => a.map (vfnOf (vFn c) sat e.compat)

/-- What a vector command writes where: an elementwise one at D; the conversions and row passes as R187-R188 say. -/
def Sys2Proof.Says.vecWrites (e : VEnv) (c : Cmd) (got : List (List Byte)) : List (Nat × List Byte) :=
  if 1 ≤ hOpc c ∧ hOpc c ≤ 6 ∨ hOpc c = 8 then
    let v (i : Nat) : List Fv := vals (got.getD i [])
    let b := if vBscal c then List.replicate (vN c) (f32 c.w3) else (v 1).take (vN c)
    [(vD c, outVals (hSat c) (elementwise e c ((v 0).take (vN c)) b (v (if vBscal c then 1 else 2))))]
  else vecOut e c got

/-- Beside the listed parts, `t` holds what `w` does, the state its memory accesses leave; the queue, the fuses and the
    timebase are those of `s`. -/
def Sys2Proof.Says.From (ps : List Part) (s w t : State) : Prop :=
  t.pending = s.pending ∧ t.clock = s.clock ∧ t.fuses = s.fuses ∧ ∀ p, p ∉ [Part.clock, Part.fuses] ++ ps → Part.Same w t p

/-- Beside the listed parts and registers, and events of the listed pages, `t` holds what `w` does, the state that the
    memory accesses of a step from `s` leave. -/
def Sys2Proof.Says.After (ps : List Part) (ks : List Nat) (evs : List (Blk × Nat)) (s w t : State) : Prop :=
  From (.regs :: ps) s w t ∧ RegsBut (ks ++ evKeys evs) w t

/-- A change within the units of a tile: no other tile, not its row, nothing outside tiles but the registers of the listed
    keys, events of its pages and of those listed, and stops that take hold. -/
def Sys2Proof.Says.UnitFrame (u : Fin 64) (ks : List Nat) (evs : List (Blk × Nat)) (s t : State) : Prop :=
  Keeps [.tiles, .blks] ks (tilePages u ++ evs) s t ∧ RunsKept s t ∧ (∀ v, v ≠ u → tile t v = tile s v) ∧
  (tile t u).row = (tile s u).row

/-- A block of tile `u` has faulted with an entry of its page `pg`, the registers of the listed keys written: its partition's
    fault is set, and no other tile has changed. -/
def Sys2Proof.Says.UnitFaults (u : Fin 64) (ks : List Nat) (pg : Nat) (s t : State) : Prop :=
  KeepsLog [.tiles, .blks, .net] ((Blk.key (.ptab (u.val / 16)) + Rg.ptab.PTFAULT) :: ks) (tilePages u) pg s t ∧
  (∀ v, v ≠ u → tile t v = tile s v) ∧ (tile t u).row = (tile s u).row

/-- Nothing has changed but engine e of stack k, its block state, the registers of the listed keys and events of its page and
    of those listed. -/
def Sys2Proof.Says.EngOnly (k : Fin 8) (e : Fin 16) (ks : List Nat) (evs : List (Blk × Nat)) (s t : State) : Prop :=
  Keeps [.engs, .blks] ks (blkPages (.nve k e) ++ evs) s t ∧ (∀ j x, (j, x) ≠ (k, e) → eng t j x = eng s j x) ∧
  ∀ b : Blk, b.wf = true → b ≠ .nve k e → blkSt t b = blkSt s b

/-- An engine has faulted with an entry of its log: its partition's fault is set, and no other engine has changed. -/
def Sys2Proof.Says.EngFaults (k : Fin 8) (e : Fin 16) (s t : State) : Prop :=
  KeepsLog [.engs, .blks, .net] [Blk.key (.ptab (tableDie (Blk.nve k e).die)) + Rg.ptab.PTFAULT] (blkPages (.nve k e))
    (Blk.key (.nve k e)) s t ∧ ∀ j x, (j, x) ≠ (k, e) → eng t j x = eng s j x

/-- What an increment of a counter writes. -/
def Sys2Proof.Says.incKeys (u : Fin 64) (c : Nat) : List Nat :=
  [cntKey u c, Blk.key (.acnt u) + Rg.acnt.ACINC, Blk.key (.acnt u) + Rg.acnt.ACWRAP]

/-- A command of tile `u` that fails its checks is skipped and logged with its reason, and its unit is as it was (R192). -/
def Sys2Proof.Says.Skips (u : Fin 64) (i : Instr) (c : Cmd) (f : Fail) (unit : Tile → Machine.Unit) (s : State) : Prop :=
  ∃ t, exec i s = .next t ∧ unit (tile t u) = unit (tile s u) ∧
    UnitFrame u [Blk.key (.seq u) + Rg.seq.CMDSKIPL] [] s t ∧
    (cpu t (.tile u)).skips = (cpu s (.tile u)).skips ++ [⟨c.src, c.hdr, w32 (f.1 + f.2 * 2 ^ 8)⟩] ∧
    reg t (Blk.key (.seq u) + Rg.seq.CMDSKIPL) = satAdd (reg s (Blk.key (.seq u) + Rg.seq.CMDSKIPL)) 1

/-- A command given to a unit of a tile that is idle, as it stands there once started. -/
def Sys2Proof.Says.startIn (s : State) (x : XU) (u : Fin 64) (c : UCmd) : State :=
  updUnit (updUnit (giveSeq s u).2 x (fun y => { y with queue := [c] })) x
    (fun y => { y with queue := [], active := some c, prog := 0 })

/-- A vector command is checked whole as it is accepted: one that fails is skipped with its reason; one that passes reads
    its ranges, writes the values its rule gives and stays in execution until its completion (R181, R186-R188, R193). -/
def Obligations.VectorCommandsAreCheckedAndComputed : Prop :=
  ∀ (u : Fin 64) (s : State) (c : Cmd), issues s (.seq u) = true → vecRoom s u = true → (tile s u).vec.queue = [] →
    (tile s u).vec.active = none → ∀ p ∈ vecRows (.tile u) c,
    let cmd := withOp c 1 p.1
    let fmt := fmtdesc s u (hFdi cmd)
    let e := vecEnv s u fmt
    (∀ f, worst (vecFails s e cmd) = some f → (cpu s (.tile u)).skips.length < 32 → Skips u p.2 cmd f (·.vec) s) ∧
    (vecFails s e cmd = [] →
      let s1 := startIn s (.vec (.tile u)) u ⟨cmd, (cpu s (.tile u)).nextSeq, fmt, 0⟩
      let m := readAll e.who ((vRanges e cmd).filter (fun r => !r.wr)) [] s1
      m.1.rsn = 0 →
      let w := writeAll e.who (vecWrites e cmd m.2) m.1.st
      w.rsn = 0 →
      ∃ t n, exec p.2 s = .next t ∧ After [.tiles, .blks, .frees] [] (tilePages u) s w.st t ∧ n ≤ vN cmd ∧
        (tile t u).vec = { (tile w.st u).vec with prog := n })

/-- MCOPY and MFILL: checked, then the destination holds the source's bytes, transposed in the modes that transpose, or the
    word that fills it; a command that fails a check is skipped (R190, R193, R220-R222). -/
def Obligations.DataMoverCopiesAndFills : Prop :=
  ∀ (u : Fin 64) (s : State) (c : Cmd), issues s (.seq u) = true → movRoom s u = true → (tile s u).mover.queue = [] →
    (tile s u).mover.active = none →
    let who := tileInit s u
    let copy := withOp c 2 1
    let fill := withOp c 2 2
    let first (cmd : Cmd) : State := startIn s (.mover u) u ⟨cmd, (cpu s (.tile u)).nextSeq, 0, 0⟩
    let done (i : Instr) (cmd : Cmd) (w : MemR) : Prop := w.rsn = 0 → ∃ t n, exec i s = .next t ∧ n ≤ mLen cmd ∧
      After [.tiles, .blks, .frees] [] (tilePages u) s w.st t ∧ (tile t u).mover = { (tile w.st u).mover with prog := n }
    ((cpu s (.tile u)).skips.length < 32 →
      (∀ f, worst (movFails s u copy) = some f → Skips u (.mcopy u c) copy f (·.mover) s) ∧
      (∀ f, worst (movFails s u fill) = some f → Skips u (.mfill u c) fill f (·.mover) s)) ∧
    (movFails s u fill = [] →
      done (.mfill u c) fill
        (memWrite (first fill) who (mDst fill) (List.replicate (mLen fill / 4) (leBytes 4 c.w7.toNat)).flatten)) ∧
    (movFails s u copy = [] →
      let m := readRanges who (mReads copy) [] (first copy)
      let read := (chunksF 64 (mLen copy / 64 + 1) (mBlocks copy)).foldl bankConflicts m.1.st
      m.1.rsn = 0 →
      (mMode copy = 0 → done (.mcopy u c) copy (memWrite m.1.st who (mDst copy) m.2.flatten)) ∧
      (mMode copy = 1 → done (.mcopy u c) copy (memWrite read who (mDst copy) m.2.flatten)) ∧
      (2 ≤ mMode copy → done (.mcopy u c) copy
        (memWrite read who (mDst copy)
          ((chunksF 64 (m.2.length + 1) m.2).flatMap (transpose (2 ^ (mMode copy - 2)))))))

/-- A sync command that has done its work: the unit idle again, the command out, its event set under EVC. -/
def Sys2Proof.Says.SyncDone (u : Fin 64) (c : Cmd) (ks : List Nat) (evs : List (Blk × Nat)) (s t : State) : Prop :=
  (tile t u).sync = { (tile s u).sync with active := none, waiting := false } ∧ UnitFrame u ks evs s t ∧
  (c.hdr.getLsbD 22 = true → (cpu t (.tile u)).sevlatch.getLsbD (bits c.hdr 8 6) = true)

/-- SEM completes once its counter has reached its value and waits till then; CNTADD adds to a counter once every earlier
    command has completed, CNTSET sets one; a waiting command looks again when its event comes (R190). -/
def Sys2Proof.Says.SyncCommandsSetAndAwaitCounters : Prop :=
  ∀ (u : Fin 64) (s : State) (c : Cmd), issues s (.seq u) = true → syncRoom s u = true → (tile s u).sync.queue = [] →
    let x (n : Nat) : UCmd := ⟨withOp c 3 n, (cpu s (.tile u)).nextSeq, 0, 0⟩
    let v := bits c.w1 7 0
    let at_ := fin 64 (bits c.w1 5 0)
    let n := bits c.w1 15 8
    let waits (y : UCmd) (t : State) : Prop := (tile t u).sync.active = some y ∧ (tile t u).sync.waiting = true ∧
      UnitFrame u [] [] s t
    ((tile s u).sync.active = none →
      ((cpu s (.tile u)).skips.length < 32 → ∀ p ∈ [(1, Instr.sem u c), (2, .cntadd u c), (3, .cntset u c)],
        ∀ f, worst (syncFails s u (withOp c 3 p.1)) = some f → Skips u p.2 (withOp c 3 p.1) f (·.sync) s) ∧
      (syncFails s u (withOp c 3 1) = [] →
        (c.w2.toNat ≤ (cntVal s u v).toNat → ∃ t, exec (.sem u c) s = .next t ∧ SyncDone u (withOp c 3 1) [] [] s t) ∧
        ((cntVal s u v).toNat < c.w2.toNat → ∃ t, exec (.sem u c) s = .next t ∧ waits (x 1) t)) ∧
      (syncFails s u (withOp c 3 2) = [] → (∀ y ∈ (cpu s (.tile u)).outst, y < (cpu s (.tile u)).nextSeq) →
        ((cpu s (.tile u)).outst ≠ [] → ∃ t, exec (.cntadd u c) s = .next t ∧ waits (x 2) t) ∧
        ((cpu s (.tile u)).outst = [] → cntCheck s (tileInit s u) at_ = 0 → ∃ t, exec (.cntadd u c) s = .next t ∧
          SyncDone u (withOp c 3 2) (incKeys at_ n) [(.acnt at_, 0)] s t ∧ cntVal t at_ n = cntVal s at_ n + c.w2)) ∧
      (syncFails s u (withOp c 3 3) = [] → cntCheck s (tileInit s u) u = 0 → ∃ t, exec (.cntset u c) s = .next t ∧
        SyncDone u (withOp c 3 3) [cntKey u v] [] s t ∧ cntVal t u v = c.w2)) ∧
    (∀ y, (tile s u).sync.active = some y →
      (hOpc y.cmd = 1 → y.cmd.w2.toNat ≤ (cntVal s u (bits y.cmd.w1 7 0)).toNat →
        ∃ t, exec (.semSatisfied u) s = .next t ∧ SyncDone u y.cmd [] [] s t) ∧
      (hOpc y.cmd = 2 → (∀ z ∈ (cpu s (.tile u)).outst, y.seqno ≤ z) → cntCheck s (tileInit s u) (aTile y.cmd) = 0 →
        ∃ t, exec (.cntaddPerform u) s = .next t ∧ SyncDone u y.cmd (incKeys (aTile y.cmd) (aCnt y.cmd)) [(.acnt (aTile y.cmd), 0)] s t ∧
          cntVal t (aTile y.cmd) (aCnt y.cmd) = cntVal s (aTile y.cmd) (aCnt y.cmd) + y.cmd.w2))

/-- A state in which what the executing command of a unit was to write from its progress mark on is free (R191, R201). -/
def Sys2Proof.Says.undefined (u : XU) (c : UCmd) (s : State) : State :=
  match u with
  | .vec (.tile t) => vUndef s (vecEnv s t c.fmt) c.cmd (tile s t).vec.prog
  | .vec (.eng k e) => vUndef s (engEnv s k e c.fmt) c.cmd (eng s k e).prog
  | .mover t => mUndef s c.cmd (tile s t).mover.prog
  | .sync _ => s

/-- Completion of a unit's executing command: it counts where COUNT is set, leaves, and sets its event under EVC; an error
    response leaves its destinations free from the progress mark on, clears the unit and puts its block in FAULT with a log
    entry (R182, R191, R325, R564). -/
def Sys2Proof.Says.UnitsCompleteAndFail : Prop :=
  (∀ (u : Fin 64) (s : State) (c : UCmd), issues s (.seq u) = true →
    let p := cpu s (.tile u)
    let vk := Blk.key (.vec u)
    let done (ct : Fin 64) (i : Instr) (ks : List Nat) (unit : Tile → Machine.Unit) : Prop :=
      (vCount c.cmd = true → cntCheck s (tileInit s u) ct = 0) → ∃ t, exec i s = .next t ∧
        (cpu t (.tile u)).outst = p.outst.filter (fun n => n != c.seqno) ∧
        UnitFrame u ((if vCount c.cmd then incKeys ct (vCnt c.cmd) else []) ++ ks)
          (if vCount c.cmd then [(.acnt ct, 0)] else []) s t ∧
        (c.cmd.hdr.getLsbD 22 = true → (cpu t (.tile u)).sevlatch.getLsbD (bits c.cmd.hdr 8 6) = true) ∧
        (vCount c.cmd = true → cntVal t ct (vCnt c.cmd) = cntVal s ct (vCnt c.cmd) + 1) ∧
        unit (tile t u) = { unit (tile s u) with active := none, prog := 0 } ∧
        (i = .vectorCommandComplete (.vec (.tile u)) → regBit t (vk + Rg.hdr.EVPEND) 0 = true ∧
          reg t (vk + Rg.vec.VCMDCNT) = satAdd (reg s (vk + Rg.vec.VCMDCNT)) 1)
    ((tile s u).vec.active = some c → (tile s u).vec.queue = [] → done (vCountTile (vecEnv s u c.fmt) c.cmd)
      (.vectorCommandComplete (.vec (.tile u))) [vk + Rg.vec.VCMDCNT] (·.vec)) ∧
    ((tile s u).mover.active = some c → (tile s u).mover.queue = [] → done (countTile u (mDst c.cmd))
      (.vectorCommandComplete (.mover u)) [] (·.mover)) ∧
    (∀ (wr : Bool) (a : Addr) (rsn : BitVec 8), rsn ≠ 0 →
      let w3 := w32 (a.toNat / 2 ^ 32 + rsn.toNat * 2 ^ 24)
      let fails (x : XU) (w : State) (t : State) : Prop := w = undefined x c s ∧
        exec (.unitErrorResponse x wr a rsn) s = .next t
      ((tile s u).vec.active = some c → ∃ w t, fails (.vec (.tile u)) w t ∧
        (tile t u).vec = clearUnit (tile s u).vec ∧ (blkSt t (.vec u)).run = .fault ∧ UnitFaults u [] vk w t ∧
        (logOf t vk).head? = some ⟨if wr then 2 else 1, c.cmd.src, w32 a.toNat, w3⟩) ∧
      ((tile s u).mover.active = some c → ∃ w t, fails (.mover u) w t ∧
        (tile t u).mover = clearUnit (tile s u).mover ∧ (blkSt t (.seq u)).run = .fault ∧
        UnitFaults u [Blk.key (.seq u) + Rg.seq.SEQFAULT] (Blk.key (.seq u)) w t ∧
        (cpu t (.tile u)).live = false ∧ (logOf t (Blk.key (.seq u))).head? = some ⟨6, c.cmd.src, w32 a.toNat, w3⟩) ∧
      ((tile s u).sync.active = some c → ∃ w t, fails (.sync u) w t ∧
        (tile t u).sync = clearUnit (tile s u).sync ∧ (blkSt t (.seq u)).run = .fault ∧
        UnitFaults u [Blk.key (.seq u) + Rg.seq.SEQFAULT] (Blk.key (.seq u)) w t ∧
        (cpu t (.tile u)).live = false ∧ (logOf t (Blk.key (.seq u))).head? = some ⟨7, c.cmd.src, w32 a.toNat, w3⟩))) ∧
  (∀ (k : Fin 8) (e : Fin 16) (s : State) (c : UCmd), issues s (.nve k e) = true → (eng s k e).active = some c →
    isStopped s (.nve k e) = false →
    let key := Blk.key (.nve k e)
    let ct := vCtile c.cmd
    let counts := vCount c.cmd && hOpc c.cmd != 0x1B
    (hOpc c.cmd ≠ 0x1A → (eng s k e).queue = [] → (counts = true → cntCheck s (engInit s k e) ct = 0) → ∃ t,
      exec (.vectorCommandComplete (.vec (.eng k e))) s = .next t ∧
      EngOnly k e ((if counts then incKeys ct (vCnt c.cmd) else []) ++ [key + Rg.nve.NECMDCNT])
        (if counts then [(.acnt ct, 0)] else []) s t ∧
      eng t k e = { eng s k e with active := none, prog := 0, waiting := false, pollAt := 0 } ∧
      (counts = true → cntVal t ct (vCnt c.cmd) = cntVal s ct (vCnt c.cmd) + 1) ∧
      reg t (key + Rg.nve.NECMDCNT) = satAdd (reg s (key + Rg.nve.NECMDCNT)) 1 ∧
      (c.cmd.hdr.getLsbD 22 = true → regBit t (key + Rg.hdr.EVPEND) 0 = true)) ∧
    (∀ (wr : Bool) (a : Addr) (rsn : BitVec 8), rsn ≠ 0 →
      ∀ i ∈ [Instr.unitErrorResponse (.vec (.eng k e)) wr a rsn, .neBusError k e (if wr then .dest else .operand) a rsn],
      ∃ t, exec i s = .next t ∧ eng t k e = clearUnit (eng s k e) ∧ (blkSt t (.nve k e)).run = .fault ∧
        EngFaults k e (undefined (.vec (.eng k e)) c s) t ∧
        (logOf t key).head? = some ⟨if wr then 2 else 1, c.cmd.src, w32 a.toNat, w32 (a.toNat / 2 ^ 32 + rsn.toNat * 2 ^ 24)⟩))

/-- A stream unit's command has acted on context x of stack k: its tile's units, the context with the registers of the listed
    keys, its engine's log; no other tile, no other context. -/
def Sys2Proof.Says.StrFrame (u : Fin 64) (k : Fin 8) (x : Fin 2048) (ks : List Nat) (s t : State) : Prop :=
  KeepsLog [.tiles, .ctxs, .blks] (ks ++ [ctxKey k x + Rg.ctx.CTXERR, ctxKey k x + Rg.ctx.CTXBUFNS, ctxKey k x + Rg.ctx.CTXDEPNS,
    Blk.keyP (.seng k) (x.val / 32) + Rg.seng.CTXWMSTK, sengKey k + Rg.seng.POOLWMST]) (tilePages u ++ ctxPages k x) (sengKey k) s t ∧
  RunsKept s t ∧ (∀ v, v ≠ u → tile t v = tile s v) ∧ (tile t u).row = (tile s u).row ∧
  ∀ j y, ¬(j = k ∧ y = x) → ctx t j y = ctx s j y

/-- SSTART sets the list address of an IDLE context of its own partition and starts it, is counted as three errors on a
    context that is not IDLE, and completes either way; SSTOP stops a context and completes once it is IDLE; either is
    skipped where a check fails (R190, R280, R281). -/
def Obligations.StreamUnitStartsAndStopsContexts : Prop :=
  ∀ (u : Fin 64) (s : State) (c : Cmd), issues s (.seq u) = true → strRoom s u = true → (tile s u).str.queue = [] →
    (tile s u).str.active = none →
    let k := (strCtx c).1
    let x := (strCtx c).2
    let key := ctxKey k x
    ((cpu s (.tile u)).skips.length < 32 → ∀ p ∈ [(1, Instr.sstart u c), (2, .sstop u c)],
      ∀ f, worst (strFails s u (withOp c 4 p.1)) = some f → Skips u p.2 (withOp c 4 p.1) f (·.str) s) ∧
    (strFails s u (withOp c 4 1) = [] → (ctx s k x).st = .idle →
      partFloors s k (ctxOwn s k x).toNat + bits (ctxReg s k x Rg.ctx.CTXCFG) 3 0 ≤ quotaOf s k (ctxOwn s k x).toNat →
      ∃ t, exec (.sstart u c) s = .next t ∧ reg t (key + Rg.ctx.CTXLIST) = c.w2 ∧
        reg t (key + Rg.ctx.CTXLISTH) = w32 (bits c.w3 15 0) ∧
        (ctx t k x).st = (if isGoing s (.seng k) then .active else .paused) ∧
        (ctx t k x).fetchAt = addrOf c.w2 (w32 (bits c.w3 15 0)) ∧ (tile t u).str.active = none ∧
        StrFrame u k x [key + Rg.ctx.CTXLIST, key + Rg.ctx.CTXLISTH, sengKey k + Rg.seng.ADMITCNT] s t) ∧
    (strFails s u (withOp c 4 1) = [] → (ctx s k x).st ≠ .idle →
      ∃ t, exec (.sstart u c) s = .next t ∧ (ctx t k x).st = (ctx s k x).st ∧
        reg t (key + Rg.ctx.CTXLIST) = reg s (key + Rg.ctx.CTXLIST) ∧
        reg t (key + Rg.ctx.CTXLISTH) = reg s (key + Rg.ctx.CTXLISTH) ∧
        (ctxRuns (ctx s k x) = false → reg t (sengKey k + Rg.hdr.ERRCNT) = satAdd (reg s (sengKey k + Rg.hdr.ERRCNT)) 3) ∧
        (tile t u).str.active = none ∧ StrFrame u k x [] s t) ∧
    (strFails s u (withOp c 4 2) = [] →
      ((ctx s k x).st = .idle → ∃ t, exec (.sstop u c) s = .next t ∧ (tile t u).str.active = none ∧
        UnitFrame u [] [] s t) ∧
      ((ctx s k x).st = .active → ∃ t, exec (.sstop u c) s = .next t ∧ (ctx t k x).st = .stopping ∧
        (tile t u).str.active.isSome = true ∧ StrFrame u k x [] s t))

/-- An engine's commands: one that fails a check is skipped and counted; a vector command, NRED among them, writes what its
    rule gives; GATHER writes the rows its indices name; NCOUNT counts, NWAIT waits and polls (R321-R324). -/
def Obligations.EngineCommandsAreCheckedAndComputed : Prop :=
  ∀ (k : Fin 8) (e : Fin 16) (s : State) (c : Cmd), issues s (.nve k e) = true → isGoing s (.nve k e) = true →
    (eng s k e).queue = [] →
    let key := Blk.key (.nve k e)
    let i := bits (reg s (key + Rg.nve.NETAIL)) 15 0
    let cmd (op : Nat) : Cmd := { withOp c 1 op with src := w32 i }
    let fmt := reg s (key + Rg.nve.NFMT + 4 * hFdi c)
    let v := engEnv s k e fmt
    let s1 (op : Nat) : State :=
      updEng (updEng (setUsed s (.nve k e) true) k e (fun y => { y with queue := [⟨cmd op, 0, fmt, BitVec.ofNat 16 i⟩] })) k e
        (fun y => { y with queue := [], active := some ⟨cmd op, 0, fmt, BitVec.ofNat 16 i⟩, prog := 0, waiting := false })
    let counted (ks : List Nat) (evs : List (Blk × Nat)) (t : State) : Prop :=
      EngOnly k e ((key + Rg.nve.NECMDCNT) :: ks) evs s t ∧
      reg t (key + Rg.nve.NECMDCNT) = satAdd (reg s (key + Rg.nve.NECMDCNT)) 1 ∧
      eng t k e = { eng s k e with active := none, prog := 0, waiting := false, pollAt := 0 }
    let poll := BitVec.ofNat 64 (now s + bits (reg s (sengKey k + Rg.seng.DEPPOLL)) 12 0)
    ((eng s k e).active = none →
      (∀ p ∈ vecRows (.eng k e) c ++ [(0x18, .nred k e c), (0x19, .gather k e c), (0x1A, .nwait k e c), (0x1B, .ncount k e c)],
        ∀ f, worst (engFails s k e fmt (cmd p.1)) = some f → ∃ t, exec p.2 s = .next t ∧ eng t k e = eng s k e ∧
          (logOf t key).head? = some ⟨4, w32 i, w32 (f.1 + f.2 * 2 ^ 8), 0⟩ ∧
          reg t (key + Rg.nve.NESKIP) = satAdd (reg s (key + Rg.nve.NESKIP)) 1 ∧
          reg t (key + Rg.nve.NECMDCNT) = satAdd (reg s (key + Rg.nve.NECMDCNT)) 1 ∧
          KeepsLog [.blks] [key + Rg.nve.NESKIP, key + Rg.nve.NECMDCNT] (blkPages (.nve k e)) key s t ∧
          ∀ b : Blk, b.wf = true → b ≠ .nve k e → blkSt t b = blkSt s b) ∧
      (∀ p ∈ vecRows (.eng k e) c ++ [(0x18, .nred k e c)], engFails s k e fmt (cmd p.1) = [] →
        let m := readAll v.who ((vRanges v (cmd p.1)).filter (fun r => !r.wr)) [] (s1 p.1)
        m.1.rsn = 0 →
        let w := writeAll v.who (vecWrites v (cmd p.1) m.2) m.1.st
        w.rsn = 0 → ∃ t n, exec p.2 s = .next t ∧ After [.engs, .blks, .frees] [] (blkPages (.nve k e)) s w.st t ∧
          n ≤ vN c ∧ eng t k e = { eng w.st k e with prog := n }) ∧
      (engFails s k e fmt (cmd 0x19) = [] →
        let m := readAll v.who [⟨vB c, 4 * vN c, 3, false⟩] [] (s1 0x19)
        m.1.rsn = 0 →
        let g := gatherRows m.1.st v (cmd 0x19) ((wordsLE (m.2.headD [])).take (vN c)) []
        g.2.2 = none →
        let w := memWrite g.1 v.who (vD c) g.2.1
        w.rsn = 0 → ∃ t n, exec (.gather k e c) s = .next t ∧ After [.engs, .blks, .frees] [] (blkPages (.nve k e)) s w.st t ∧
          n ≤ vN c ∧ eng t k e = { eng w.st k e with prog := n }) ∧
      (engFails s k e fmt (cmd 0x1B) = [] → cntCheck s (engInit s k e) (nwTile c) = 0 →
        ∃ t, exec (.ncount k e c) s = .next t ∧
          counted (incKeys (nwTile c) (nwCnt c)) [(.acnt (nwTile c), 0)] t ∧
          cntVal t (nwTile c) (nwCnt c) = cntVal s (nwTile c) (nwCnt c) + c.w2) ∧
      (∀ x, engFails s k e fmt (cmd 0x1A) = [] → cntRead s (engInit s k e) (nwTile c) (nwCnt c) = some (0, x) →
        (c.w2 ≤ x → ∃ t, exec (.nwait k e c) s = .next t ∧ counted [] [] t) ∧
        (x < c.w2 → ∃ t, exec (.nwait k e c) s = .next t ∧ EngOnly k e [] [] s t ∧ (eng t k e).waiting = true ∧ (eng t k e).pollAt = poll ∧
          (eng t k e).active = some ⟨cmd 0x1A, 0, fmt, BitVec.ofNat 16 i⟩))) ∧
    (∀ x y, (eng s k e).active = some y → hOpc y.cmd = 0x1A → (eng s k e).pollAt.toNat ≤ now s →
      cntRead s (engInit s k e) (nwTile y.cmd) (nwCnt y.cmd) = some (0, x) →
      (y.cmd.w2 ≤ x → ∃ t, exec (.nwaitPoll k e) s = .next t ∧ counted [] [] t) ∧
      (x < y.cmd.w2 → ∃ t, exec (.nwaitPoll k e) s = .next t ∧ EngOnly k e [] [] s t ∧ (eng t k e).active = some y ∧ (eng t k e).pollAt = poll))

/-- NE_RING_FETCH takes the next command of the ring, moves NETAIL on modulo the ring's size and queues a good command behind
    the one in execution; held by an epoch it waits; an error response faults the engine (R321, R325). -/
def Sys2Proof.Says.RingFetchQueuesTheNextCommand : Prop :=
  ∀ (k : Fin 8) (e : Fin 16) (s : State), issues s (.nve k e) = true → isGoing s (.nve k e) = true →
    ringWaits s k e = true →
    let u := eng s k e
    let key := Blk.key (.nve k e)
    let i := bits (reg s (key + Rg.nve.NETAIL)) 15 0
    let a := (addrOf (reg s (key + Rg.nve.NERBASE)) (reg s (key + Rg.nve.NERBASEH))).toNat + 32 * i
    let free := updEng s k e (fun y => { y with epSince := none })
    let m := memRead free (engInit s k e) a 32
    let c : Cmd := { Cmd.ofWords (wordsLE m.data) 0 with src := w32 i }
    let fmt := reg m.st (key + Rg.nve.NFMT + 4 * hFdi c)
    (u.queue.length < 8 → ringHeld s k e = true → u.epSince = none →
      ∃ t, exec (.neRingFetch k e) s = .next t ∧ eng t k e = { u with epSince := some s.clock.now } ∧
        EngOnly k e [] [] s t) ∧
    (u.queue.length < 8 → ringHeld s k e = false → m.rsn = 0 → u.active.isSome = true → engFails m.st k e fmt c = [] →
      ∃ t, exec (.neRingFetch k e) s = .next t ∧
        reg t (key + Rg.nve.NETAIL) = w32 ((i + 1) % 2 ^ bits (reg s (key + Rg.nve.NERSIZE)) 4 0) ∧
        (blkSt t (.nve k e)).used = true ∧
        (eng t k e).queue = (eng m.st k e).queue ++ [⟨c, 0, fmt, BitVec.ofNat 16 i⟩] ∧ 
        After [.engs, .blks] [key + Rg.nve.NETAIL] (blkPages (.nve k e)) s m.st t) ∧
    (∀ (b : Addr) (rsn : BitVec 8), rsn ≠ 0 → ∃ t, exec (.neBusError k e .ring b rsn) s = .next t ∧
      eng t k e = clearUnit u ∧ (blkSt t (.nve k e)).run = .fault ∧
      EngFaults k e (match u.active with | some c => undefined (.vec (.eng k e)) c s | none => s) t ∧
      (logOf t key).head? = some ⟨3, w32 i, w32 b.toNat, w32 (b.toNat / 2 ^ 32 + rsn.toNat * 2 ^ 24)⟩)

/-! ### Registers and block control (R6, R13-R18, R169, R204-R206, R226, R417, R422, R427, R504, R511) -/

/-- A write of an initiator to a register is served by its block: it may write it, the block is there, its domain on and no
    reset requested (R417, R419, R422). -/
def Sys2Proof.Says.Reaches (who : Init) (b : Blk) (page off : Nat) (s : State) : Prop :=
  regCheck s who b page off true = some 0 ∧ absent s b = false

/-- A register write has changed registers of the listed keys only, and the events of its page. -/
def Sys2Proof.Says.PutOnly (b : Blk) (page : Nat) (ks : List Nat) (s t : State) : Prop :=
  KeepsBut [.regs] s t ∧ RegsBut (ks ++ evKeys (putPages b page)) s t

/-- As `PutOnly`, and processor `q` may have changed. -/
def Sys2Proof.Says.PutCpu (u : Fin 64) (page : Nat) (ks : List Nat) (s t : State) : Prop :=
  KeepsBut [.tiles, .regs] s t ∧ (∀ v, v ≠ u → tile t v = tile s v) ∧
  tile t u = { tile s u with seq := (tile t u).seq } ∧ RegsBut (ks ++ evKeys (putPages (.seq u) page)) s t

/-- A register write that its initiator may not make is answered PARTITION and only counted; one to an ABSENT block is
    discarded; EVENA of every page takes its 16 bits; a counter read is cleared, and holds then what is added in that
    moment (R6, R16, R418, R422). -/
def Obligations.RegisterAccessesAreChecked : Prop :=
  ∀ (b : Blk) (page off : Nat) (who : Init) (v : W32) (s : State), b.wf = true → page < b.npages → off < 0x1000 →
    off % 4 = 0 →
    let a : Addr := BitVec.ofNat 48 (regAddr b page off)
    let d := tableDie b.die
    let cnt := Blk.key (.ptab d) + Rg.ptab.RSPERR + 4
    (regMay s who b page off true = false → ∃ t, exec (.registerWrite who a v) s = .next t ∧
      KeepsBut [.regs] s t ∧ RegsBut [cnt] s t ∧ (routers d ≠ 0 → reg t cnt = satAdd (reg s cnt) 1)) ∧
    (regMay s who b page off true = true → absent s b = true → ∃ t, exec (.registerWrite who a v) s = .next t ∧
      KeepsBut [] s t) ∧
    (Reaches who b page off s → off = Rg.hdr.EVENA → ∃ t, exec (.registerWrite who a v) s = .next t ∧
      reg t (b.keyP page + off) = v &&& 0xFFFF ∧ PutOnly b page [b.keyP page + off] s t) ∧
    (∀ r i, regCheck s who b page off false = some 0 → live s b = true → regAt b page off = some (r, i) → r.ty = .rc →
      ∃ t, exec (.registerReadClear who a v) s = .next t ∧ reg t (b.keyP page + off) = v ∧ KeepsBut [.regs] s t ∧
        RegsBut [b.keyP page + off] s t)

/-- BLKCTL requests: none acts on a block that is OFF, and RUN, STOP and STOPNOW not in FAULT; STOP lets a block that is
    IDLE or RUNNING stop, STOPNOW stops it at once, RUN sets a stopped one going and starts an IDLE sequencer at SEQENTRY,
    SOFTRST returns a block to reset (R18, R44, R169, R504). -/
def Sys2Proof.Says.BlockRequestsFollowTheBlockState : Prop :=
  ∀ (b : Blk) (who : Init) (s : State), b.wf = true → Reaches who b 0 Rg.hdr.BLKCTL s →
    let st := blkState s b
    let same (t : State) : Prop := KeepsBut [.regs] s t ∧ RegsBut (evKeys (putPages b 0 ++ ctlPages b)) s t
    (∀ i ∈ [Instr.blkctlRun b who, .blkctlStop b who, .blkctlStopnow b who],
      st < 2 ∨ st = 6 → ∃ t, exec i s = .next t ∧ same t) ∧
    (st < 2 → ∃ t, exec (.blkctlSoftrst b who) s = .next t ∧ same t) ∧
    (st = 2 ∨ st = 3 →
      (match b with
       | .acnt _ | .probe _ _ | .ptab _ | .loader | .conc | .ptm | .pcie _ | .ocast | .sec =>
         ∃ t, exec (.blkctlStop b who) s = .next t ∧ same t
       | .region r => (region s r).started = true → (region s r).starting = false →
         ∃ t, exec (.blkctlStop b who) s = .next t ∧ (blkSt t b).run = .stopping
       | _ => ∃ t, exec (.blkctlStop b who) s = .next t ∧ ((blkSt t b).run = .stopping ∨ (blkSt t b).run = .stopped))) ∧
    (st = 2 ∨ st = 3 ∨ (st = 4 ∧ zeroingBlk s b = false) →
      (match b with
       | .row _ | .seq _ | .vec _ | .seng _ | .nve _ _ | .check _ _ | .pcheck _ | .port _ =>
         ∃ t, exec (.blkctlStopnow b who) s = .next t ∧ (blkSt t b).run = .stopped
       | _ => True)) ∧
    (st = 5 →
      (match b with
       | .seng _ | .chan _ _ | .check _ _ | .pcheck _ | .pvm _ =>
         ∃ t, exec (.blkctlRun b who) s = .next t ∧ (blkSt t b).run = .going
       | .bank u g => (bank s u g).sweep = false → ∃ t, exec (.blkctlRun b who) s = .next t ∧ (blkSt t b).run = .going ∧
         (bank t u g).wiped = false
       | .vec u => (tile s u).vec.queue = [] → ∃ t, exec (.blkctlRun b who) s = .next t ∧ (blkSt t b).run = .going
       | _ => True)) ∧
    (st = 2 → match b with
       | .seq u => ∃ t, exec (.blkctlRun b who) s = .next t ∧ (cpu t (.tile u)).live = true ∧
         (cpu t (.tile u)).pc.toNat = bits (reg s (b.key + Rg.seq.SEQENTRY)) 16 0 ∧ (cpu t (.tile u)).curwin = 0 ∧
         (cpu t (.tile u)).intrap = false ∧ (blkSt t b).used = true
       | _ => True) ∧
    (2 ≤ st → match b with
       | .row u | .seq u | .vec u => tileDrained s u = true → ∃ t, exec (.blkctlSoftrst b who) s = .next t ∧
         tile t u = { tile0 with vec := { unit0 with compat := (tile s u).vec.compat }, seq := { proc0 with zeroing := true } }
       | .bank u g => ∃ t, exec (.blkctlSoftrst b who) s = .next t ∧ (blkSt t b).run = .stopped ∧
         (bank t u g).wiped = false ∧ (bank t u g).sweep = false ∧ (bank t u g).wbs = []
       | .chan k c => ∃ t, exec (.blkctlSoftrst b who) s = .next t ∧ (chan t k c).frozen = none ∧ (chan t k c).failed = false
       | .check k c => ∃ t, exec (.blkctlSoftrst b who) s = .next t ∧ check t (.ord k c) = check0
       | _ => True)

/-- The epoch a block is asked for is what was written, and a tile's sequencer has its event 10; the owner of a block that
    is clean changes, that of another, or one fixed, does not; a stopping block at rest is STOPPED (R422, R427, R504, R511). -/
def Sys2Proof.Says.EpochsOwnersAndStopsTakeHold : Prop :=
  ∀ (b : Blk) (who : Init) (e : BitVec 8) (v : W32) (s : State), b.wf = true →
    (Reaches who b 0 Rg.hdr.BLKCTL s → ∃ t, exec (.modeEpochDirectWrite b who e) s = .next t ∧
      bits (reg t (b.key + Rg.hdr.BLKCTL)) 15 8 = e.toNat ∧
      Keeps [.tiles] [b.key + Rg.hdr.BLKCTL] (putPages b 0 ++ ctlPages b) s t ∧
      (∀ u, tile t u = { tile s u with seq := { (tile s u).seq with sevlatch := (tile t u).seq.sevlatch } }) ∧
      (∀ u, b = .row u ∨ b = .vec u → tileOn s u = true → reqEpoch s b ≠ e →
        (cpu t (.tile u)).sevlatch.getLsbD 10 = true)) ∧
    (Reaches who b 0 Rg.hdr.BLKPART s →
      (ownerFixed b = true → ∃ t, exec (.blkpartWrite b who v) s = .next t ∧ KeepsBut [.regs] s t ∧
        RegsBut (evKeys (putPages b 0)) s t) ∧
      (ownerFixed b = false → ownClean s b = true → bits v 3 0 = 0 ∨ s.power.mst = .ready →
        ∃ t, exec (.blkpartWrite b who v) s = .next t ∧ ownerOf t b = BitVec.ofNat 4 (bits v 3 0) ∧
          (match b with
           | .check _ _ | .port _ => True
           | _ => Keeps [] [(ownerHome b).key + Rg.hdr.BLKPART] (putPages b 0) s t)) ∧
      (ownerFixed b = false → ownClean s b = false ∨ (bits v 3 0 ≠ 0 ∧ s.power.mst ≠ .ready) →
        ∃ t, exec (.blkpartWrite b who v) s = .next t ∧ ownerOf t b = ownerOf s b ∧
          KeepsLog [] [] (putPages b 0) (ownerHome b).key s t)) ∧
    ((blkSt s b).run = .stopping → blkOn s b = true → ∃ t, exec (.blockStopped b) s = .next t ∧
      (match b with
       | .vec u => (tile s u).vec.active = none → (blkSt t b).run = .stopped
       | .nve k x => (eng s k x).active = none → (blkSt t b).run = .stopped
       | .chan k c => (chan s k c).queue = [] → (blkSt t b).run = .stopped
       | .pvm k => stackIdle s k = true → (blkSt t b).run = .stopped
       | .check _ _ | .pcheck _ => (blkSt t b).run = .stopped
       | _ => True))

/-- The registers of a tile that have a rule of their own: RATECTL clears the least rate; SEQDOOR sets sequencer events;
    SKIPPOP drops the oldest skip; DBGDATA reaches what DBGADDR selects and moves it on; ACNT sets and ACADD adds to a
    counter; zeroing ends (R119, R162, R204-R206, R226, R246). -/
def Obligations.TileRegistersAct : Prop :=
  ∀ (u : Fin 64) (who : Init) (v : W32) (s : State),
    let p := cpu s (.tile u)
    let q := Blk.key (.seq u)
    let da := reg s (q + Rg.seq.DBGADDR)
    let i := bits da 19 0
    let moved (t : State) : Prop := reg t (q + Rg.seq.DBGADDR) =
      (if regBit s (q + Rg.seq.DBGCTL) 0 then
        w32 (bits da 31 28 * 2 ^ 28 + (i + if bits da 31 28 < 2 then 4 else 1) % 2 ^ 20) else da)
    (Reaches who (.row u) 3 0x88 s → ∃ t, exec (.ratectlClrmin who u) s = .next t ∧
      reg t (Blk.key (.row u) + Rg.row.RATEMIN) = 0xFFFF ∧ PutOnly (.row u) 3 [Blk.key (.row u) + Rg.row.RATEMIN] s t) ∧
    (Reaches who (.seq u) 0 Rg.seq.SEQDOOR s → ∃ t, exec (.seqdoorWrite who u v) s = .next t ∧
      cpu t (.tile u) = { p with sevlatch := p.sevlatch ||| ((v &&& 0xFF) <<< 16) } ∧ PutCpu u 0 [] s t) ∧
    (Reaches who (.seq u) 1 0x84 s → ∃ t, exec (.skippop who u v) s = .next t ∧
      cpu t (.tile u) = { p with skips := if v.getLsbD 0 then p.skips.drop 1 else p.skips } ∧ PutCpu u 1 [] s t) ∧
    (Reaches who (.seq u) 2 0x84 s →
      (dbgOpen s u = true → ∃ t, exec (.dbgdataWrite who u v) s = .next t ∧ moved t ∧
        PutCpu u 2 [q + Rg.seq.DBGADDR] s t ∧
        (bits da 31 28 = 0 → i < 0x20000 →
          cpu t (.tile u) = { p with im := putBytes p.im (i / 4 * 4) (leBytes 4 v.toNat) }) ∧
        (bits da 31 28 = 1 → i < 0x10000 →
          cpu t (.tile u) = { p with dm := putBytes p.dm (i / 4 * 4) (leBytes 4 v.toNat) }) ∧
        (bits da 31 28 = 2 → cpu t (.tile u) =
          { p with regs := if i = 0 ∨ 136 ≤ i then p.regs else tset 0 p.regs i (BitVec.ofNat 64 v.toNat) }) ∧
        (bits da 31 28 = 4 → cpu t (.tile u) =
          { p with params := if i < 64 then tset 0 p.params i (BitVec.ofNat 64 v.toNat) else p.params })) ∧
      (dbgOpen s u = false → ∃ t, exec (.dbgdataWrite who u v) s = .next t ∧ cpu t (.tile u) = p ∧
        (logOf t (Blk.keyP (.seq u) 2)).head? = some ⟨4, w32 p.pc.toNat, p.trcode, w32 p.trinfo.toNat⟩)) ∧
    (regCheck s who (.seq u) 2 0x84 false = some 0 → absent s (.seq u) = false → dbgOpen s u = true →
      ∃ t, exec (.dbgdataRead who u) s = .next t ∧ moved t ∧ KeepsBut [.regs] s t ∧ RegsBut [q + Rg.seq.DBGADDR] s t) ∧
    (tileOn s u = true → ∃ t, exec (.imDmZeroingDone u) s = .next t ∧ cpu t (.tile u) = { p with zeroing := false } ∧
      Keeps [.tiles] [] (tilePages u) s t ∧ (∀ v, v ≠ u → tile t v = tile s v) ∧
      tile t u = { tile s u with seq := (tile t u).seq }) ∧
    (∀ c : BitVec 8,
      (Reaches who (.acnt u) 0 (Rg.acnt.ACNT + 4 * c.toNat) s → ∃ t, exec (.acntWrite who u c v) s = .next t ∧
        cntVal t u c.toNat = v ∧ PutOnly (.acnt u) 0 [cntKey u c.toNat] s t) ∧
      (Reaches who (.acnt u) 0 (Rg.acnt.ACADD + 4 * c.toNat) s → ∃ t, exec (.acaddWrite who u c v) s = .next t ∧
        cntVal t u c.toNat = cntVal s u c.toNat + v ∧
        PutOnly (.acnt u) 0 [cntKey u c.toNat, Blk.key (.acnt u) + Rg.acnt.ACINC, Blk.key (.acnt u) + Rg.acnt.ACWRAP] s t))

/-- NEHEAD takes an index within the ring; one beyond it is refused and logged (R331). -/
def Sys2Proof.Says.NeheadTakesAnIndexOfTheRing : Prop :=
  ∀ (k : Fin 8) (e : Fin 16) (who : Init) (v : W32) (s : State), Reaches who (.nve k e) 0 Rg.nve.NEHEAD s →
    let key := Blk.key (.nve k e)
    let i := bits v 15 0
    let n := 2 ^ bits (reg s (key + Rg.nve.NERSIZE)) 4 0
    (i < n → ∃ t, exec (.neheadWrite who k e v) s = .next t ∧ reg t (key + Rg.nve.NEHEAD) = w32 i ∧
      PutOnly (.nve k e) 0 [key + Rg.nve.NEHEAD] s t) ∧
    (n ≤ i → ∃ t, exec (.neheadWrite who k e v) s = .next t ∧ reg t (key + Rg.nve.NEHEAD) = reg s (key + Rg.nve.NEHEAD) ∧
      (logOf t key).head? = some ⟨6, 0, w32 Rg.nve.NEHEAD, 0⟩ ∧
      KeepsLog [] [] (putPages (.nve k e) 0) key s t)

/-! ### Scratch memory and arrival counters (R213, R223, R225-R240, R244-R246) -/

/-- No bank group has changed but group g of tile u. -/
def Sys2Proof.Says.BanksBut (u : Fin 64) (g : Fin 4) (s t : State) : Prop := ∀ v h, (v, h) ≠ (u, g) → bank t v h = bank s v h

/-- What a good access to scratch leaves: nothing but stored words, their check bits, its group with ACCCNT, and the counter
    that it counts. -/
def Sys2Proof.Says.ScrFrame (r : Req) (o : Nat) (s t : State) : Prop :=
  Keeps [.scr, .scrChk, .banks] ((grpKey o + Rg.bank.ACCCNT) ::
      (match r.cnt with | some i => incKeys (scrTile o) i.toNat | none => []))
    (match r.cnt with | some _ => [(.acnt (scrTile o), 0)] | none => []) s t ∧
  BanksBut (scrTile o) (scrGroup o) s t

/-- Every word of scratch in [lo, hi) is stored with matching check bits. -/
def Sys2Proof.Says.Sound (s : State) (lo hi : Nat) : Prop := ∀ w, lo ≤ w → w < hi → scrSyn s w = 0

/-- A scratch access that passes its checks: a write leaves its bytes, an accumulate the FP32 sums, and neither any other
    byte; a read no byte; each is counted. One that fails changes no byte and counts its reason; an access that carries a
    counter index counts it when it is visible (R213, R223, R227, R228, R231, R244). -/
def Sys2Proof.Says.ScratchAccessesReadWriteAccumulate : Prop :=
  ∀ (r : Req) (o : Nat) (s : State), r.wf = true → scrOff r.addr = some o →
    let word : Instr := match r.kind with | .write => .scratchWrite r | .accum => .scratchAccumulate r | _ => .scratchRead r
    r.kind = .read ∨ r.kind = .write ∨ r.kind = .accum →
    let k := grpKey o
    let e := reg s (k + Rg.bank.ERRINJ)
    (scrCheck s r o ≠ 0 → ∃ t, exec word s = .next t ∧
      KeepsLog [] [Blk.key (.ptab (tableDie (if scrCheck s r o = Rsn.unmapped then r.who.die.toNat else (scrTile o).val / 16))) +
        Rg.ptab.RSPERR + 4 * ((scrCheck s r o).toNat - 1)] [] k s t ∧
      (scrCheck s r o ≠ Rsn.stopped → ∀ b, logOf t b = logOf s b)) ∧
    (scrCheck s r o = 0 → Sound s (o / 8) ((o + r.len + 7) / 8) → e.getLsbD 17 = false →
      ∃ t, exec word s = .next t ∧ ScrFrame r o s t ∧
        reg t (k + Rg.bank.ACCCNT) = satAdd (reg s (k + Rg.bank.ACCCNT)) 1 ∧
        (∀ i, r.cnt = some i → cntVal t (scrTile o) i.toNat = cntVal s (scrTile o) i.toNat + 1) ∧
        (∀ a, a < o ∨ o + r.len ≤ a → scrByte t a = scrByte s a) ∧
        scrBytes t o r.len = (match r.kind with
          | .write => r.data
          | .accum => accBytes r.sat (scrBytes s o r.len) r.data
          | _ => scrBytes s o r.len) ∧
        Sound t (o / 8) ((o + r.len + 7) / 8))

/-- A counter packet of an initiator that may: an increment adds modulo 2^32 and records a wrap, a set replaces; nothing
    else changes. One that may not only counts its reason (R226, R228, R230). -/
def Sys2Proof.Says.CountersIncrementAndSet : Prop :=
  ∀ (who : Init) (u : Fin 64) (c : BitVec 8) (v : W32) (s : State),
    let k := Blk.key (.acnt u)
    let own := [cntKey u c.toNat, k + Rg.acnt.ACINC, k + Rg.acnt.ACWRAP, k + Rg.hdr.EVPEND]
    (cntCheck s who u = 0 →
      (∃ t, exec (.counterIncrement who u c v) s = .next t ∧ cntVal t u c.toNat = cntVal s u c.toNat + v ∧
        reg t (k + Rg.acnt.ACINC) = satAdd (reg s (k + Rg.acnt.ACINC)) 1 ∧
        (2 ^ 32 ≤ (cntVal s u c.toNat).toNat + v.toNat →
          reg t (k + Rg.acnt.ACWRAP) = c.setWidth 32 ∧ regBit t (k + Rg.hdr.EVPEND) 4 = true) ∧
        KeepsBut [.regs] s t ∧ RegsBut own s t) ∧
      (∃ t, exec (.counterSet who u c v) s = .next t ∧ cntVal t u c.toNat = v ∧ KeepsBut [.regs] s t ∧
        RegsBut [cntKey u c.toNat, k + Rg.hdr.EVPEND] s t)) ∧
    (cntCheck s who u ≠ 0 → ∀ i ∈ [Instr.counterIncrement who u c v, .counterSet who u c v],
      ∃ t, exec i s = .next t ∧ KeepsBut [.regs] s t ∧
        RegsBut [Blk.key (.ptab (u.val / 16)) + Rg.ptab.RSPERR + 4 * ((cntCheck s who u).toNat - 1)] s t)

/-- Corrected words are written back in order; the scrubber corrects, counts and passes on word by word, and a lap over
    LAPLIM is marked; ERRINJ is armed with positions that exist; a sweep starts in a STOPPED group alone and leaves every
    word of it zero, with WIPED set (R232-R236, R239). -/
def Obligations.ScrubbingInjectionAndSweeps : Prop :=
  ∀ (u : Fin 64) (g : Fin 4) (s : State),
    let b := Blk.bank u g
    let k := b.key
    let x := bank s u g
    (∀ w rest, x.wbs = w :: rest → ∃ t, exec (.demandWriteback u g) s = .next t ∧ (bank t u g).wbs = rest ∧
      KeepsBut [.scr, .scrChk, .banks] s t ∧ BanksBut u g s t ∧ (∀ p, synOf (scrSyn s w) = .at_ p → p < 72 → scrSyn t w = 0) ∧
      ∀ v, v ≠ w → scrSyn t v = scrSyn s v) ∧
    (∀ i : Fin 16, scrubs s u g = true →
      let row := tget 0 x.lapRows i.val
      let base := u.val * 2 ^ 27 + g.val * 2 ^ 25 + row * 2 ^ 10 + i.val * 2 ^ 6
      row < 32767 → Sound s (base / 8) (base / 8 + 8) → ∃ t, exec (.drizzleScrubRead u g i) s = .next t ∧
        tget 0 (bank t u g).lapRows i.val = row + 1 ∧ Keeps [.banks] [] [(b, 0)] s t ∧ BanksBut u g s t ∧
        ∀ j, j ≠ i.val → tget 0 (bank t u g).lapRows j = tget 0 x.lapRows j) ∧
    (live s b = true → isGoing s b = true →
      let late := decide (x.lapFrom.toNat + (reg s (k + Rg.bank.LAPLIM)).toNat < now s)
      ∃ t, exec (.scrubLapLimit u g) s = .next t ∧ bank t u g = { x with lapOver := x.lapOver || late } ∧
      (late = true → (levels t b 0).testBit 2 = true) ∧ Keeps [.banks] [] [(b, 0)] s t ∧ BanksBut u g s t) ∧
    (∀ (who : Init) (v : W32), Reaches who b 0 Rg.bank.ERRINJ s →
      let bad := v.getLsbD 17 && (71 < bits v 6 0 || (v.getLsbD 16 && 71 < bits v 14 8))
      (bad = false → ∃ t, exec (.errinjWrite who u g v) s = .next t ∧
        reg t (k + Rg.bank.ERRINJ) = v &&& 0x37F7F ∧ PutOnly b 0 [k + Rg.bank.ERRINJ] s t) ∧
      (bad = true → ∃ t, exec (.errinjWrite who u g v) s = .next t ∧
        reg t (k + Rg.bank.ERRINJ) = reg s (k + Rg.bank.ERRINJ) ∧ (logOf t k).head? = some ⟨8, w32 Rg.bank.ERRINJ, 0, 0⟩ ∧
        KeepsLog [] [] (putPages b 0) k s t)) ∧
    (∀ who : Init, Reaches who b 0 Rg.bank.SWEEPCTL s →
      (isStopped s b = true → x.sweep = false → ∃ t, exec (.sweepctlStart who u g) s = .next t ∧
        bank t u g = { x with sweep := true, sweepFrom := s.clock.now } ∧ reg t (k + Rg.bank.SWEEPPROG) = 0 ∧
        Keeps [.banks] [k + Rg.bank.SWEEPPROG] (putPages b 0) s t ∧ BanksBut u g s t) ∧
      (isStopped s b = false ∨ x.sweep = true → ∃ t, exec (.sweepctlStart who u g) s = .next t ∧ bank t u g = x ∧
        (logOf t k).head? = some ⟨5, w32 Rg.bank.SWEEPCTL, 0, 0⟩ ∧
        KeepsLog [] [] (putPages b 0) k s t)) ∧
    (x.sweep = true → ∃ t, exec (.sweepComplete u g) s = .next t ∧ (bank t u g).wiped = true ∧
      (bank t u g).sweep = false ∧ reg t (k + Rg.bank.SWEEPPROG) = 32768 ∧ regBit t (k + Rg.hdr.EVPEND) 3 = true ∧
      (∀ o, o / 2 ^ 25 = 4 * u.val + g.val → scrByte t o = 0 ∧ scrSyn t (o / 8) = 0) ∧
      (∀ o, o / 2 ^ 25 ≠ 4 * u.val + g.val → scrByte t o = scrByte s o) ∧ 
      Keeps [.scr, .scrChk, .banks] [k + Rg.bank.SWEEPPROG] [(b, 0)] s t ∧ BanksBut u g s t)

/-- What every command keeps of memory's form: a table of stored bytes in canonical form stays so under every store. -/
def Sys2Proof.Says.MemOk (s : State) : Prop :=
  Memory.wf s.scr = true ∧ Memory.wf s.scrChk = true

/-- Scratch keeps its one canonical form, addresses rising and no entry that reads as an unlisted one, under every access,
    write-back, scrub and sweep; it has it at reset. -/
def Obligations.ScratchKeepsItsCanonicalForm : Prop :=
  MemOk State.reset ∧
  ∀ (r : Req) (u : Fin 64) (g : Fin 4) (i : Fin 16) (s t : State), MemOk s →
    (∀ c ∈ [Instr.scratchRead r, .scratchWrite r, .scratchAccumulate r, .demandWriteback u g, .drizzleScrubRead u g i,
        .sweepComplete u g], exec c s = .next t → MemOk t)

/-! ### Streams (R247-R288) -/

/-- What every change of a context may bring with it: its error, its waits, the marks of its page and of the pool. -/
def Sys2Proof.Says.ctxKeys (k : Fin 8) (x : Fin 2048) : List Nat :=
  [ctxKey k x + Rg.ctx.CTXERR, ctxKey k x + Rg.ctx.CTXBUFNS, ctxKey k x + Rg.ctx.CTXDEPNS,
   Blk.keyP (.seng k) (x.val / 32) + Rg.seng.CTXWMSTK, sengKey k + Rg.seng.POOLWMST]

/-- No other context has changed. -/
def Sys2Proof.Says.CtxsBut (k : Fin 8) (x : Fin 2048) (s t : State) : Prop :=
  ∀ j y, ¬(j = k ∧ y = x) → ctx t j y = ctx s j y

/-- Nothing but one context has changed, its engine's log and stop, and registers: those above and those of the listed
    keys. -/
def Sys2Proof.Says.CtxOnly (k : Fin 8) (x : Fin 2048) (ks : List Nat) (s t : State) : Prop :=
  KeepsLog [.ctxs, .blks] (ks ++ ctxKeys k x) (ctxPages k x) (sengKey k) s t ∧ CtxsBut k x s t ∧
  ∀ b : Blk, b.wf = true → b ≠ .seng k → blkSt t b = blkSt s b

/-- A context that gives up its buffers and its work is in state `st`: no buffer held, no data, no block, no error (R250). -/
def Sys2Proof.Says.Released (st : CtxSt) (c : Ctx) : Prop :=
  c.st = st ∧ c.floor = 0 ∧ c.bslots = [] ∧ c.staged = [] ∧ c.rin = [] ∧ c.win = [] ∧ c.blks = [] ∧ c.fetched = [] ∧ c.bad = none

/-- A write of a context's register is served. -/
def Sys2Proof.Says.CtxReached (who : Init) (k : Fin 8) (x : Fin 2048) (off : Nat) (s : State) : Prop :=
  Reaches who (.seng k) (x.val / 32) (0x400 + 0x60 * (x.val % 32) + off) s

/-- START admits an IDLE context whose floor its quota holds, and is refused and logged otherwise; STOP, PAUSE and RESUME
    move a context between its states; CTXOWN and QUOTA change where their rules allow (R248-R250, R262, R263, R283). -/
def Sys2Proof.Says.ContextRequests : Prop :=
  ∀ (who : Init) (k : Fin 8) (x : Fin 2048) (s : State),
    let c := ctx s k x
    let own := (ctxOwn s k x).toNat
    let e := sengKey k
    let logged (t : State) (code : Nat) : Prop :=
      (⟨w32 (code + x.val * 2 ^ 8), 0, 0, w32 (own * 2 ^ 16)⟩ : LogEnt) ∈ logOf t e
    let goes (i : Instr) (st : CtxSt) : Prop := ∃ t, exec i s = .next t ∧ (ctx t k x).st = st ∧ CtxOnly k x [] s t
    (CtxReached who k x Rg.ctx.CTXCMD s →
      (c.st ≠ .idle → ∃ t, exec (.ctxStart who k x) s = .next t ∧ (ctx t k x).st = c.st ∧ logged t 7 ∧ CtxOnly k x [] s t) ∧
      (c.st = .idle →
        let fl := bits (ctxReg s k x Rg.ctx.CTXCFG) 3 0
        (quotaOf s k own < partFloors s k own + fl → ∃ t, exec (.ctxStart who k x) s = .next t ∧
          (ctx t k x).st = .idle ∧ logged t 6 ∧ reg t (e + Rg.seng.REFUSECNT) = satAdd (reg s (e + Rg.seng.REFUSECNT)) 1 ∧
          regBit t (e + Rg.hdr.EVPEND) 5 = true ∧ CtxOnly k x [e + Rg.seng.REFUSECNT] s t) ∧
        (partFloors s k own + fl ≤ quotaOf s k own → ∃ t, exec (.ctxStart who k x) s = .next t ∧
          (ctx t k x).st = (if isGoing s (.seng k) then .active else .paused) ∧ (ctx t k x).floor = fl ∧
          (ctx t k x).fetchAt = addrOf (ctxReg s k x Rg.ctx.CTXLIST) (ctxReg s k x Rg.ctx.CTXLISTH) ∧
          reg t (e + Rg.seng.ADMITCNT) = satAdd (reg s (e + Rg.seng.ADMITCNT)) 1 ∧ CtxOnly k x [e + Rg.seng.ADMITCNT] s t)) ∧
      (c.st = .active ∨ c.st = .pausing ∨ c.st = .paused → goes (.ctxStop who k x) .stopping) ∧
      (c.st = .error → ∃ t, exec (.ctxStop who k x) s = .next t ∧ Released .idle (ctx t k x) ∧ CtxOnly k x [] s t) ∧
      (c.st = .idle ∨ c.st = .stopping → goes (.ctxStop who k x) c.st) ∧
      goes (.ctxPause who k x) (if c.st = .active then .pausing else c.st) ∧
      goes (.ctxResume who k x) (if c.st = .pausing ∨ c.st = .paused then .active else c.st)) ∧
    (∀ v : W32, CtxReached who k x Rg.ctx.CTXOWN s →
      let p := bits v 3 0
      let ok := c.st = .idle ∧ (p = 0 ∨ s.power.mst = .ready)
      (ok → p ≠ own → ∃ t, exec (.ctxownWrite who k x v) s = .next t ∧ (ctxOwn t k x).toNat = p ∧ ctx t k x = ctx0 ∧
        CtxOnly k x ((List.range 0x60).map (ctxKey k x + ·)) s t) ∧
      (¬ ok → ∃ t, exec (.ctxownWrite who k x v) s = .next t ∧ ctxOwn t k x = ctxOwn s k x ∧
        KeepsLog [] [] (ctxPages k x) e s t)) ∧
    (∀ (p : Fin 16) (v : W32), Reaches who (.seng k) 0 (Rg.seng.QUOTA + 4 * p.val) s →
      let n := bits v 10 0
      let no := (p.val ≠ 0 ∧ s.power.mst ≠ .ready) ∨ 1024 + quotaOf s k p < quotaSum s k + n ∨ n < partFloors s k p
      (¬ no → ∃ t, exec (.quotaWrite who k p v) s = .next t ∧ quotaOf t k p = n ∧
        PutOnly (.seng k) 0 [e + Rg.seng.QUOTA + 4 * p.val] s t) ∧
      (no → ∃ t, exec (.quotaWrite who k p v) s = .next t ∧ quotaOf t k p = quotaOf s k p ∧ KeepsLog [] [] (putPages (.seng k) 0) e s t))

/-- A context whose accesses have all come back leaves STOPPING for IDLE and PAUSING for PAUSED, or goes to ERROR; at END of
    both cursors with nothing left it is IDLE and done, with its CTXDONE bit (R250, R257, R261). -/
def Sys2Proof.Says.ContextsDrainAndEnd : Prop :=
  ∀ (k : Fin 8) (x : Fin 2048) (s : State), blkOn s (.seng k) = true → (∀ u, (tile s u).str.active = none) →
    let c := ctx s k x
    let page := Blk.keyP (.seng k) (x.val / 32)
    (drained c = true →
      (c.st = .stopping → ∃ t, exec (.ctxAccessesDrained k x) s = .next t ∧ Released .idle (ctx t k x) ∧ CtxOnly k x [] s t) ∧
      (c.st = .pausing → c.bad = none → ∃ t, exec (.ctxAccessesDrained k x) s = .next t ∧ (ctx t k x).st = .paused ∧
        (ctx t k x).staged = c.staged ∧ (ctx t k x).floor = c.floor ∧ CtxOnly k x [] s t) ∧
      (c.st = .active ∨ c.st = .pausing → c.bad.isSome = true →
        ∃ t, exec (.ctxAccessesDrained k x) s = .next t ∧ Released .error (ctx t k x) ∧ CtxOnly k x [] s t)) ∧
    (ctxRuns c = true → c.rcur.atEnd = true → c.wcur.atEnd = true → drained c = true → c.blks = [] → c.staged = [] →
      ∃ t, exec (.ctxEndReached k x) s = .next t ∧ Released .idle (ctx t k x) ∧ (ctx t k x).done = true ∧
        regBit t (page + Rg.seng.CTXDONE) (x.val % 32) = true ∧ regBit t (page + Rg.hdr.EVPEND) 0 = true ∧
        CtxOnly k x [page + Rg.seng.CTXDONE] s t)

/-- A context fetches its descriptors in order ahead of its cursors; a cursor passes LINK, the other side's blocks and END,
    takes its own blocks, and waits at a mark, polling its counter, until the counter has reached the value it waits for
    (R251-R257). -/
def Obligations.ListsCursorsAndMarks : Prop :=
  ∀ (k : Fin 8) (x : Fin 2048) (side : Side) (s : State), issues s (.seng k) = true →
    let c := ctx s k x
    let y := curOf c side
    let moved (w t : State) : Prop := From [.ctxs, .regs, .logs, .blks] s w t ∧ CtxsBut k x s t
    ctxRuns c = true →
    (let n := c.fbase + c.fetched.length
     let a := c.fetchAt.toNat
     let m := memRead s (ctxInit s k x) a 32
     let d : Desc := ⟨c.fetchAt, wordsLE m.data⟩
     c.fetchStop = false → n ≤ min (curAt c.rcur) (curAt c.wcur) + 16 →
       (m.rsn = 0 → ∃ t, exec (.descriptorFetch k x) s = .next t ∧ (ctx t k x).fetched = c.fetched ++ [d] ∧
         (ctx t k x).fetchAt = BitVec.ofNat 48 (if dLink d && !dBad d then dBase d else a + 32) ∧
         (ctx t k x).fetchStop = (dBad d || dEnd d || dMarked d) ∧ moved m.st t) ∧
       (m.rsn ≠ 0 → ∃ t, exec (.descriptorFetch k x) s = .next t ∧ (ctx t k x).bad = some n ∧
         reg t (ctxKey k x + Rg.ctx.CTXERR) = 3 ∧ moved m.st t)) ∧
    (∀ d, y.atEnd = false → curFree y = true → c.fetched[y.pos - c.fbase]? = some d →
      (dBad d = true → ∃ t, exec (.cursorReachDescriptor k x side) s = .next t ∧ (ctx t k x).bad = some y.pos ∧
        reg t (ctxKey k x + Rg.ctx.CTXERR) = 4 ∧ CtxOnly k x [] s t) ∧
      (dBad d = false → ∃ t, exec (.cursorReachDescriptor k x side) s = .next t ∧ CtxOnly k x [] s t ∧
        let z := curOf (ctx t k x) side
        (dEnd d = true → z.atEnd = true ∧ z.pos = y.pos ∧ z.blk = none) ∧
        (dEnd d = false → z.atEnd = false ∧ z.pos = y.pos + 1 ∧ z.issued = 0 ∧
          z.addr = BitVec.ofNat 48 (if dLink d then dBase d else d.at_.toNat + 32) ∧
          z.bias = (if dLink d then y.bias + dVal d else y.bias) ∧
          z.blk = (if dLink d = false ∧ dSide d = side then some d else none) ∧
          (dLink d = false → dSide d = side → z.met = !dDep d ∧
            (ctx t k x).blks = c.blks ++ [⟨y.pos, d, dTotal d, side⟩])))) ∧
    (y.blk.isSome = true → y.met = false → y.polling = false → y.pollAt.toNat ≤ now s →
      ∃ t, exec (.dependencePoll k x side) s = .next t ∧ (curOf (ctx t k x) side).polling = true ∧
        CtxOnly k x [sengKey k + Rg.seng.POLLCNT] s t ∧
        reg t (sengKey k + Rg.seng.POLLCNT) = satAdd (reg s (sengKey k + Rg.seng.POLLCNT)) 1) ∧
    (∀ d v, s.power.inReset = [] → y.polling = true → y.blk = some d → cntRead s (ctxInit s k x) (dDtile d) (dDcnt d) = some (0, v) →
      ∃ t, exec (.dependencePollResponse k x side) s = .next t ∧ CtxOnly k x [] s t ∧
        (curOf (ctx t k x) side).polling = false ∧
        (markVal y d ≤ v → (curOf (ctx t k x) side).met = true) ∧
        (v < markVal y d → (curOf (ctx t k x) side).met = y.met ∧ (curOf (ctx t k x) side).pollAt =
          BitVec.ofNat 64 (now s + bits (reg s (sengKey k + Rg.seng.DEPPOLL)) 12 0)))

/-- A context has had its turn to issue: as `CtxOnly`, and its stack remembers from whom its round robin goes on. -/
def Sys2Proof.Says.TurnOnly (k : Fin 8) (x : Fin 2048) (s t : State) : Prop :=
  KeepsLog [.ctxs, .blks, .stks] (ctxKeys k x) (ctxPages k x) (sengKey k) s t ∧ CtxsBut k x s t ∧
  (∀ b : Blk, b.wf = true → b ≠ .seng k → blkSt t b = blkSt s b) ∧ (∀ j, j ≠ k → stack t j = stack s j) ∧
  stack t k = { stack s k with turns := tset 0 (stack s k).turns (turnKey s k x) (x.val + 1) }

/-- Data moves in order: in its context's turn the read side asks for the next piece where it holds a buffer and the write
    side sends what is staged; what comes is staged, and what is visible counts; a refused access fails its block; the
    borrower next in turn gets a buffer (R258-R264, R268). Stated for blocks of plain memory. -/
def Obligations.StreamsMoveData : Prop :=
  ∀ (k : Fin 8) (x : Fin 2048) (s : State), issues s (.seng k) = true →
    let c := ctx s k x
    let who := ctxInit s k x
    let moved (w t : State) : Prop := From [.ctxs, .regs, .logs, .blks] s w t ∧ CtxsBut k x s t
    ctxRuns c = true →
    (∀ d, curWork c.rcur = some d → dEndpt d = 0 →
      let p := readPiece s c d
      isWinAddr p.1 = false → slotOk c (nextSlot c) = true →
      (ctxTurn s k x = true → ∃ t, exec (.streamReadIssue k x) s = .next t ∧ TurnOnly k x s t ∧
        (ctx t k x).rcur.issued = c.rcur.issued + p.2 ∧
        (ctx t k x).rin = c.rin ++ [⟨BitVec.ofNat 48 p.1, p.2, [], false, false, curBlk c.rcur, ctxNext c, none, none⟩]) ∧
      (ctxTurn s k x = false → ∃ t, exec (.streamReadIssue k x) s = .next t ∧ CtxOnly k x [] s t ∧
        (ctx t k x).rcur.issued = c.rcur.issued ∧ (ctx t k x).rin = c.rin)) ∧
    (∀ a rest, s.power.inReset = [] → c.rin = a :: rest → a.via = none → isWinAddr a.addr.toNat = false →
      let m := memNow s (mkReq who .read a.addr.toNat a.len [] a.sat)
      (m.1 = 0 → ∃ t, exec (.streamReadData k x) s = .next t ∧ (ctx t k x).rin = rest ∧
        (ctx t k x).staged = c.staged ++ m.2.1 ∧ (ctx t k x).rpos = c.rpos + a.len ∧ moved m.2.2 t) ∧
      (m.1 ≠ 0 → ∃ t, exec (.streamReadData k x) s = .next t ∧ (ctx t k x).rin = rest ∧ (ctx t k x).staged = c.staged ∧
        (ctx t k x).bad = some a.blk ∧ moved m.2.2 t)) ∧
    (∀ d, curWork c.wcur = some d → dEndpt d = 0 →
      let p := nextPiece s d c.wcur.issued
      isWinAddr p.1 = false →
      (p.2 ≤ c.staged.length → ctxTurn s k x = true → ∃ t, exec (.streamWriteIssue k x) s = .next t ∧ TurnOnly k x s t ∧
        (ctx t k x).staged = c.staged.drop p.2 ∧ (ctx t k x).wcur.issued = c.wcur.issued + p.2 ∧
        ((ctx t k x).win.map (·.data)) = c.win.map (·.data) ++ [c.staged.take p.2]) ∧
      (ctxTurn s k x = false → ∃ t, exec (.streamWriteIssue k x) s = .next t ∧ CtxOnly k x [] s t ∧
        (ctx t k x).staged = c.staged ∧ (ctx t k x).win = c.win)) ∧
    (∀ a rest, s.power.inReset = [] → c.win = a :: rest → a.via = none → isWinAddr a.addr.toNat = false →
      let m := memNow s (mkReq who (if a.accum then .accum else .write) a.addr.toNat a.len a.data a.sat)
      (m.1 = 0 → ∃ t, exec (.streamWriteAck k x) s = .next t ∧ (ctx t k x).win = rest ∧
        (ctx t k x).wpos = c.wpos + a.len ∧ moved m.2.2 t) ∧
      (m.1 ≠ 0 → ∃ t, exec (.streamWriteAck k x) s = .next t ∧ (ctx t k x).win = rest ∧ (ctx t k x).bad = some a.blk ∧
        moved m.2.2 t)) ∧
    (∀ (a : Addr) (rsn : BitVec 8), rsn ≠ 0 →
      (∀ r rest, c.rin = r :: rest → ∃ t, exec (.streamAccessError k x .read a rsn) s = .next t ∧
        (ctx t k x).rin = rest ∧ (ctx t k x).bad = some r.blk ∧ reg t (ctxKey k x + Rg.ctx.CTXERR) = 1 ∧ CtxOnly k x [] s t) ∧
      (∀ r rest, c.win = r :: rest → ∃ t, exec (.streamAccessError k x .write a rsn) s = .next t ∧
        (ctx t k x).win = rest ∧ (ctx t k x).bad = some r.blk ∧ reg t (ctxKey k x + Rg.ctx.CTXERR) = 2 ∧ CtxOnly k x [] s t)) ∧
    (borrower s k = some x.val → ∃ t, exec (.bufferBorrow k) s = .next t ∧
      (ctx t k x).bslots.length = c.bslots.length + 1 ∧ (stack t k).lastBorrow = x.val + 1 ∧
      KeepsLog [.stks, .ctxs, .blks] (ctxKeys k x) (ctxPages k x) (sengKey k) s t ∧ CtxsBut k x s t ∧
      (∀ j, j ≠ k → stack t j = stack s j) ∧ ∀ b : Blk, b.wf = true → b ≠ .seng k → blkSt t b = blkSt s b)

/-! ### Stratus memory (R289-R319, R328-R330, R424) -/

/-- No other channel has changed. -/
def Sys2Proof.Says.ChansBut (k : Fin 8) (c : Fin 32) (s t : State) : Prop :=
  ∀ j d, ¬(j = k ∧ d = c) → chan t j d = chan s j d

/-- No other stack has changed. -/
def Sys2Proof.Says.StacksBut (k : Fin 8) (s t : State) : Prop := ∀ j, j ≠ k → stack t j = stack s j

/-- The key of the count of an error response of reason `r` on a die (R439). -/
def Sys2Proof.Says.rspKey (die : Nat) (r : BitVec 8) : Nat :=
  Blk.key (.ptab (tableDie die)) + Rg.ptab.RSPERR + 4 * (r.toNat - 1)

/-- The keys of the control registers of a stack's windows. -/
def Sys2Proof.Says.winKeys (k : Fin 8) : List Nat := (List.range 64).map (fun w => winKey k.val w + 0xC)

/-- The keys that a freeze of a channel writes (R313). -/
def Sys2Proof.Says.frzKeys (k : Fin 8) (c : Fin 32) : List Nat :=
  let key := Blk.key (.chan k c)
  [key + Rg.chan.FRZCAUSE, key + Rg.chan.FRZSYN, key + Rg.chan.FRZADDR, key + Rg.chan.FRZADDRH,
   Blk.key (.ptab (8 + 11 * k.val)) + Rg.ptab.PTFAULT] ++ (List.range 8).map (fun i => key + Rg.chan.FRZCMD + 4 * i)

/-- The keys that training of a channel writes (R316). -/
def Sys2Proof.Says.trnKeys (k : Fin 8) (c : Fin 32) : List Nat :=
  let key := Blk.key (.chan k c)
  (key + Rg.chan.TRNSTAT) :: (List.range 10).flatMap (fun i => [key + Rg.chan.TRNRD + 4 * i, key + Rg.chan.TRNWR + 4 * i])

/-- DRAM requests: one outside the space, or refused, is only counted, and logged by a frozen channel; one whose channel is full,
    or a first write with no fill entry free, waits at its die; a read of an invalid page is answered without its channel;
    others join their channel's queue, the first write of a page making it valid with a fill entry and its block whole
    (R297, R301, R307, R308, R313, R417). -/
def Sys2Proof.Says.DramRequestsAreCheckedAndQueued : Prop :=
  ∀ (r : Req) (s : State), r.wf = true →
    let a := r.addr.toNat
    let k := (dramMap s a).1
    let l := (dramMap s a).2
    let c := locChan l
    let x := chan s k c
    let page := locPage l
    let whole := List.replicate (l % 64) 0 ++ r.data ++ List.replicate (64 - l % 64 - r.data.length) 0
    let run (t : State) : Prop := exec (.dramAccessRequest r) s = .next t
    (inDram a = false → ∃ t, run t ∧ Keeps [] [rspKey r.who.die.toNat Rsn.unmapped] [] s t) ∧
    (inDram a = true → dramCheck s r ≠ 0 → ∃ t, run t ∧
      KeepsLog [] [rspKey r.who.die.toNat Rsn.unmapped, rspKey (8 + 11 * k.val) (dramCheck s r)] [] (Blk.key (.chan k c)) s t ∧
      (dramCheck s r ≠ Rsn.frozen → t.logs = s.logs)) ∧
    (∀ f, inDram a = true → dramCheck s r = 0 → mustWait s k r l = some f → ∃ t, run t ∧
      (stack t k).waits = (stack s k).waits ++ [⟨r, .nobody, s.clock.now, f⟩] ∧ Keeps [.stks] [] [] s t ∧ StacksBut k s t) ∧
    (inDram a = true → dramCheck s r = 0 → mustWait s k r l = none → inSys a = false → fillOf s k page = none →
      (r.kind = .read →
        (pageValid s k page = false → ∃ t, run t ∧ KeepsBut [] s t) ∧
        (pageValid s k page = true → ∃ t, run t ∧ (chan t k c).queue = x.queue ++ [⟨r, .nobody, l, s.clock.now, false, false⟩] ∧
          Keeps [.chans] [Blk.key (.chan k c) + Rg.chan.INORDCNT] [] s t ∧ ChansBut k c s t)) ∧
      (r.kind = .write →
        (pageValid s k page = true → ∃ t, run t ∧
          (chan t k c).queue = x.queue ++ [⟨r, .nobody, l, s.clock.now, !partBeat l r.len, false⟩] ∧
          Keeps [.chans, .net] (winKeys k) [] s t ∧ ChansBut k c s t) ∧
        (pageValid s k page = false → ∃ t, run t ∧ pageValid t k page = true ∧
          (∀ m, m ≠ pvKey k page → tget false t.pv m = tget false s.pv m) ∧
          (chan t k c).queue = x.queue ++ [⟨{ r with len := 64, data := whole }, .nobody, l / 64 * 64, s.clock.now, true, false⟩] ∧
          (stack t k).fills = (stack s k).fills ++ [⟨page, BitVec.ofNat 64 (2 ^ locBlk l), r.who.part⟩] ∧
          Keeps [.chans, .net, .pv, .stks] (winKeys k) [(.pvm k, 0)] s t ∧ ChansBut k c s t ∧ StacksBut k s t)))

/-- A channel performs what waits, in a slot that lets it: a write of whole beats stores its bytes and no other, with check
    symbols that make each beat a codeword; a read counts; an uncorrectable burst is logged and counted, or freezes the
    channel. A corrected block is written back in an idle burst. A frozen channel keeps what it holds until RESUME or
    DISCARD. Stated where no request waits at the die for what this frees (R292, R300-R303, R312, R313). -/
def Sys2Proof.Says.ChannelsPerformAndFreeze : Prop :=
  ∀ (k : Fin 8) (c : Fin 32) (s : State),
    let x := chan s k c
    let key := Blk.key (.chan k c)
    let one (n : Nat) (t : State) : Prop := reg t (key + n) = satAdd (reg s (key + n)) 1
    let evs := chanPages k c
    let unc := rspKey (8 + 11 * k.val) Rsn.uncorr
    (stack s k).waits = [] →
    (∀ q errs, x.queue = [q] → chanFault s k c = false → x.training = false → locChan q.loc = c → slotTakes s k x q = true →
      (q.req.kind = .write → partBeat q.loc q.req.len = false → q.req.data.length = q.req.len → q.loc + q.req.len ≤ 2 ^ 35 →
        ∃ t, exec (.dramAccessPerform k c errs) s = .next t ∧ (chan t k c).queue = [] ∧
          (if q.fill then reg t (key + Rg.chan.WRCNT) = reg s (key + Rg.chan.WRCNT) else one Rg.chan.WRCNT t) ∧
          dramBytes t k q.loc q.req.len = q.req.data ∧
          (∀ i, q.loc ≤ 8 * i → 8 * i < q.loc + q.req.len → syn0 (beatSyms t k (8 * i)) = 0 ∧ syn1 (beatSyms t k (8 * i)) = 0) ∧
          (errs = [] → ∀ m, m < 2 ^ 38 → m < k.val * 2 ^ 35 + q.loc ∨ k.val * 2 ^ 35 + q.loc + q.req.len ≤ m →
            tget 0 t.dram m = tget 0 s.dram m) ∧
          Keeps [.chans, .dram, .net] [key + Rg.chan.WRCNT] evs s t ∧ ChansBut k c s t) ∧
      (q.req.kind = .read → errs = [] → (∀ b ∈ decAt s k q.loc, b.st = 0) →
        ∃ t, exec (.dramAccessPerform k c errs) s = .next t ∧ (chan t k c).queue = [] ∧
        one Rg.chan.RDCNT t ∧ Keeps [.chans, .net] [key + Rg.chan.RDCNT] evs s t ∧ ChansBut k c s t) ∧
      (∀ b, q.req.kind = .read → firstBad (decAt (upsetBlk s k q.loc errs) k q.loc) = some b →
        (regBit s (key + Rg.chan.CHCTL) 2 = false → ∃ t, exec (.dramAccessPerform k c errs) s = .next t ∧
          (chan t k c).queue = [] ∧ one Rg.chan.UNCCNT t ∧
          KeepsLog [.chans, .net, .dram] [key + Rg.chan.RDCNT, key + Rg.chan.UNCCNT, unc] evs key s t ∧ ChansBut k c s t ∧
          ((logOf t key).head?.map (·.w0)) = some 0xF01) ∧
        (regBit s (key + Rg.chan.CHCTL) 2 = true → ∃ t, exec (.dramAccessPerform k c errs) s = .next t ∧
          (chan t k c).frozen = some .uncorrectable ∧ (chan t k c).queue = [q] ∧
          KeepsLog [.chans, .net, .frees, .dram] (frzKeys k c) evs key s t ∧ ChansBut k c s t ∧
          ((logOf t key).head?.map (·.w0)) = some 0xF06))) ∧
    (chanFault s k c = false → ∃ t, exec (.caParityError k c) s = .next t ∧ (chan t k c).frozen = some .parity ∧
      KeepsLog [.chans, .net, .frees] (frzKeys k c) evs key s t ∧ ChansBut k c s t ∧ ((logOf t key).head?.map (·.w0)) = some 0xF05) ∧
    (∀ l rest, x.wbs = l :: rest → x.queue = [] → chanFault s k c = false → x.training = false →
      let bs := decBlk s k (eraseOf s k c) l
      ∃ t, exec (.dramDemandWriteback k c) s = .next t ∧ (chan t k c).wbs = rest ∧ (chan t k c).queue = [] ∧
        (firstBad bs = none → l % 64 = 0 → l + 64 ≤ 2 ^ 35 → dramBytes t k l 64 = blkData bs) ∧
        (firstBad bs ≠ none → t.dram = s.dram) ∧ KeepsBut [.chans, .dram] s t ∧ ChansBut k c s t) ∧
    (∃ t, exec (.refresh k c) s = .next t ∧ (chan t k c).refNext = (x.refNext % 32 + 1) % 32 ∧
      (chan t k c).queue = x.queue ∧ Keeps [.chans] [key + Rg.chan.REFPOST] [] s t ∧ ChansBut k c s t) ∧
    (∀ who, Reaches who (.chan k c) 0 Rg.chan.FRZCTL s →
      (x.frozen.isSome = true → ∃ t, exec (.frzctlDiscard who k c) s = .next t ∧ (chan t k c).frozen = none ∧
        (chan t k c).queue = [] ∧ Keeps [.chans, .net] [rspKey (8 + 11 * k.val) Rsn.frozen] evs s t ∧ ChansBut k c s t) ∧
      (x.frozen = none → ∀ i ∈ [Instr.frzctlDiscard who k c, .frzctlResume who k c], exec i s = .next s) ∧
      (x.frozen = some .parity → x.queue = [] → ∃ t, exec (.frzctlResume who k c) s = .next t ∧
        chan t k c = { x with frozen := none } ∧ Keeps [.chans] [] evs s t ∧ ChansBut k c s t) ∧
      (∀ q, x.frozen = some .uncorrectable → x.queue = [q] → ∃ t, exec (.frzctlResume who k c) s = .next t ∧
        (chan t k c).frozen = none ∧ (chan t k c).queue = [] ∧ one Rg.chan.UNCCNT t ∧ ChansBut k c s t ∧
        KeepsLog [.chans, .net] [key + Rg.chan.RDCNT, key + Rg.chan.RMWCNT, key + Rg.chan.UNCCNT, unc] evs key s t))

/-- The page-valid manager: a fill write of zeros into the lowest unfilled block joins its channel's queue; CLEAR makes the pages of its range invalid
    at once and its completion sets WIPED for the disabled windows it covered; ILVCFG changes only on stack 0 with every
    manager STOPPED and no page valid, and is then the same on all eight (R299, R308-R310, R424). -/
def Obligations.PagesFillAndClear : Prop :=
  ∀ (k : Fin 8) (who : Init) (s : State),
    let b := Blk.pvm k
    let y := stack s k
    y.waits = [] →
    (∀ e rest n, y.fills = e :: rest → fillNext e = some n → (∀ f ∈ rest, f.page ≠ e.page) →
      let l := e.page * 2 ^ 12 + n * 64
      chanOpen s k l = true → ∃ t, exec (.fillWrite k) s = .next t ∧
        (chan t k (locChan l)).queue = (chan s k (locChan l)).queue ++ [⟨fillReq s k e l, .nobody, l, s.clock.now, true, true⟩] ∧
        (stack t k).fills = (if e.mask ||| BitVec.ofNat 64 (2 ^ n) = BitVec.allOnes 64 then rest
          else { e with mask := e.mask ||| BitVec.ofNat 64 (2 ^ n) } :: rest) ∧
        Keeps [.chans, .stks] [b.key + Rg.pvm.FILLCNT] (blkPages b) s t ∧ StacksBut k s t ∧ ChansBut k (locChan l) s t) ∧
    (Reaches who b 0 Rg.pvm.PVCMD s →
      let r := clrRange s k
      let hit (page : Nat) : Prop := r.1 ≤ dramUnmap s k (page * 2 ^ 12) ∧ dramUnmap s k (page * 2 ^ 12) < r.1 + r.2
      (y.clearing = none → r.2 ≠ 0 → r.1 + r.2 ≤ 2 ^ 38 → ∃ t, exec (.pvClear who k) s = .next t ∧
        (stack t k).clearing = some r ∧
        (∀ page, page < 2 ^ 23 → (hit page → pageValid t k page = false) ∧
          (¬ hit page → pageValid t k page = pageValid s k page) ∧ ∀ j, j ≠ k → pageValid t j page = pageValid s j page) ∧
        Keeps [.pv, .stks] [] (putPages b 0) s t ∧ StacksBut k s t) ∧
      (y.clearing.isSome = true ∨ r.2 = 0 ∨ 2 ^ 38 < r.1 + r.2 →
        ∃ t, exec (.pvClear who k) s = .next t ∧ KeepsLog [] [] (putPages b 0) b.key s t ∧
          (logOf t b.key).head?.map (·.w0) = some (if y.clearing.isSome then 4 else 2))) ∧
    (∀ r, y.clearing = some r → ∃ t, exec (.pvClearComplete k) s = .next t ∧ (stack t k).clearing = none ∧
      regBit t (b.key + Rg.hdr.EVPEND) 0 = true ∧ Keeps [.stks] (winKeys k) [(b, 0)] s t ∧ StacksBut k s t ∧
      ∀ w, w < 64 →
        let g := winRange s k.val w
        let e := reg s (winKey k.val w + 0xC)
        reg t (winKey k.val w + 0xC) =
          (if e.getLsbD 4 = false ∧ 0 < g.2 ∧ r.1 ≤ g.1 ∧ g.1 + g.2 ≤ r.1 + r.2 then e ||| 0x100 else e)) ∧
    (∀ v : W32, Reaches who b 0 Rg.pvm.ILVCFG s →
      let ok := k = 0 ∧ (∀ j : Fin 8, isStopped s (.pvm j) = true) ∧ s.pv = [] ∧ 1 ≤ bits v 5 0 ∧ bits v 5 0 ≤ 32
      (ok → ∃ t, exec (.ilvcfgWrite who k v) s = .next t ∧ ilvGib t = bits v 5 0 ∧
        (∀ j : Fin 8, reg t (Blk.key (.pvm j) + Rg.pvm.ILVCFG) = w32 (bits v 5 0)) ∧
        PutOnly b 0 ((List.range 8).map (fun j => Blk.key (.pvm (fin 8 j)) + Rg.pvm.ILVCFG)) s t) ∧
      (¬ ok → ∃ t, exec (.ilvcfgWrite who k v) s = .next t ∧ ilvGib t = ilvGib s ∧
        KeepsLog [] [] (putPages b 0) b.key s t))

/-- Temperatures set and clear the fast refresh; a lap is reported late only beyond LAPLIM; ERASECTL names the record's failed
    core from the start and takes a core that exists; training starts where it may, a channel without a failing lane leaves
    FAULT for STOPPED, and one with a single failing core erases it (R4, R296, R306, R315-R319). -/
def Obligations.CoresTrainingAndScrubbing : Prop :=
  ∀ (k : Fin 8) (c : Fin 32) (who : Init) (s : State),
    let key := Blk.key (.chan k c)
    let x := chan s k c
    (∀ (core : Fin 10) (temp : Nat), ∃ t, exec (.coreTempReport k core temp) s = .next t ∧
      (stack t k).hot.getLsbD core = decide (83 ≤ temp) ∧ (85 < temp → (stack t k).fast = true) ∧
      ((stack t k).hot = 0 → temp ≤ 85 → (stack t k).fast = false) ∧
      Keeps [.stks] [] ((List.range 32).map (fun c => (.chan k (fin 32 c), 0))) s t ∧ StacksBut k s t) ∧
    (∀ f, s.regs = [] → coreFailed s k = some f → f < 10 → eraseOf s k c = some f) ∧
    (∃ t, exec (.dramLapLimit k) s = .next t ∧
      stack t k = (if dramLapLate s k then { stack s k with lapOver := true } else stack s k) ∧
      Keeps [.stks] [] (blkPages (.pvm k)) s t ∧ StacksBut k s t) ∧
    (∀ i, regBit s (Blk.key (.pvm k) + Rg.pvm.SCRBCTL) 0 = true → isGoing s (.pvm k) = true → x.queue = [] →
      chanFault s k c = false → x.training = false → x.scrubAt < 2 ^ 24 →
      x.scrubLast.toNat + bits (reg s (Blk.key (.pvm k) + Rg.pvm.SCRBCTL)) 15 4 ≤ now s →
      nextScrub s k c x.scrubAt = some i → i + 1 < 2 ^ 24 → (∀ b ∈ decAt s k (i * 2 ^ 11 + c.val * 2 ^ 6), b.st = 0) →
      ∃ t, exec (.dramScrubRead k c []) s = .next t ∧ (chan t k c).scrubAt = i + 1 ∧ (chan t k c).scrubLast = s.clock.now ∧
        (chan t k c).wbs = x.wbs ∧
        Keeps [.chans] [] (blkPages (.pvm k)) s t ∧ ChansBut k c s t) ∧
    (∀ v : W32, Reaches who (.chan k c) 0 Rg.chan.ERASECTL s →
      (v.getLsbD 4 = false ∨ bits v 3 0 ≤ 9 → ∃ t, exec (.erasectlWrite who k c v) s = .next t ∧
        eraseOf t k c = (if v.getLsbD 4 then some (bits v 3 0) else none) ∧
        PutOnly (.chan k c) 0 [key + Rg.chan.ERASECTL] s t) ∧
      (v.getLsbD 4 = true → 9 < bits v 3 0 → ∃ t, exec (.erasectlWrite who k c v) s = .next t ∧
        eraseOf t k c = eraseOf s k c ∧ (logOf t key).head? = some ⟨0xF08, w32 Rg.chan.ERASECTL, 0, 0⟩ ∧
        KeepsLog [] [] (chanPages k c) key s t)) ∧
    (Reaches who (.chan k c) 0 Rg.chan.TRNCTL s →
      let may := s.power.mst = .boot ∨ s.power.mst = .init ∨ isStopped s (.chan k c) = true ∨ x.frozen.isSome = true
      (may → ∃ t, exec (.trnctlStart who k c) s = .next t ∧ chan t k c = { x with training := true } ∧
        Keeps [.chans] [] (chanPages k c) s t ∧ ChansBut k c s t) ∧
      (¬ may → ∃ t, exec (.trnctlStart who k c) s = .next t ∧ KeepsLog [] [] (chanPages k c) key s t ∧
        (logOf t key).head? = some ⟨0xF08, w32 Rg.chan.TRNCTL, 0, 0⟩)) ∧
    (∀ eyes : List Eye, eyes.length = 10 → x.training = true → (stack s k).waits = [] →
      let weak (e : Eye) : Prop := eyeW e.rl e.rr < 16 ∨ eyeW e.wl e.wr < 16
      ((∀ e ∈ eyes, ¬ weak e) → ∃ t, exec (.trainingComplete k c eyes) s = .next t ∧ (chan t k c).training = false ∧
        chanFault t k c = false ∧ (chanFault s k c = true → isStopped t (.chan k c) = true) ∧
        (chan t k c).queue = x.queue ∧ reg t (key + Rg.chan.TRNSTAT) = 3 ∧ regBit t (key + Rg.hdr.EVPEND) 4 = true ∧
        Keeps [.chans, .blks] (trnKeys k c) (chanPages k c) s t ∧ ChansBut k c s t) ∧
      (∀ i : Fin 10, (∀ j : Fin 10, weak (eyes.getD j.val ⟨0, 0, 0, 0⟩) ↔ j = i) → (reg s (key + Rg.chan.ERASECTL)).getLsbD 4 = false →
        ∃ t, exec (.trainingComplete k c eyes) s = .next t ∧ (chan t k c).training = false ∧
          reg t (key + Rg.chan.ERASECTL) = w32 (i.val + 0x30) ∧ ((logOf t key).head?.map (·.w0)) = some (w32 (7 + i.val * 2 ^ 8)) ∧
          KeepsLog [.chans, .frees] ((key + Rg.chan.ERASECTL) :: trnKeys k c) (chanPages k c) key s t ∧ ChansBut k c s t))

/-! ### Programmable fabric (R332-R363) -/

/-- No other region has changed. -/
def Sys2Proof.Says.RegionsBut (r : Fin 16) (s t : State) : Prop := ∀ j, j ≠ r → region t j = region s j

/-- No other block's state has changed. -/
def Sys2Proof.Says.BlksBut (b : Blk) (s t : State) : Prop := ∀ d : Blk, d.wf = true → d ≠ b → blkSt t d = blkSt s d

/-- The keys of every probe route's source. -/
def Sys2Proof.Says.prbKeys : List Nat :=
  (List.range 16).flatMap (fun i => (List.range 64).map (fun j => frKey (fin 16 i) + Rg.region.PRBSEL + 8 * j))

/-- What a region's fault leaves: its block state, its entry, the partition fault of its die and the routes that end. -/
def Sys2Proof.Says.RegionFaults (r : Fin 16) (ks : List Nat) (s t : State) : Prop :=
  KeepsLog [.regions, .blks, .net] (ks ++ [Blk.key (.ptab (Blk.region r).die) + Rg.ptab.PTFAULT] ++ prbKeys) (regPages r) (frKey r) s t ∧
  RegionsBut r s t ∧ BlksBut (.region r) s t

/-- A block memory's queue: a write joins its end unless it is FULL, which sets OVF; a read takes its front unless it is
    EMPTY, which sets UNF; both sides of a synchronous one see each change at once; reset empties it and keeps its output and
    the memory's words; the sticky flags are cleared but for what happens at that edge (R335-R340). -/
def Sys2Proof.Says.QueuesWriteReadAndReset : Prop :=
  ∀ (r : Fin 16) (k : Fin 512) (s : State), queueWorks s r k.val = true →
    let q := queueOf (region s r) k.val
    let at_ (t : State) : Queue := queueOf (region t r) k.val
    let only (t : State) : Prop := KeepsBut [.regions, .frees] s t ∧ (∀ j, j ≠ r → region t j = region s j) ∧
      { region t r with queues := (region s r).queues } = region s r
    (q.async = false →
      (∀ d : BitVec 72, ∃ t, exec (.queueWrite r k d) s = .next t ∧ only t ∧ (at_ t).out = q.out ∧
        (q.depth ≤ q.items.length → (at_ t).items = q.items ∧ (at_ t).ovf = true) ∧
        (q.items.length < q.depth → (at_ t).items = q.items ++ [cut q.width d] ∧ (at_ t).ovf = q.ovf ∧ memWord (region t r) k.val (at_ t) q.wptr = cut q.width d ∧
          (at_ t).rdSeen = q.items.length + 1 ∧ (at_ t).wrSeen = q.items.length + 1)) ∧
      (∃ t, exec (.queueRead r k) s = .next t ∧ only t ∧ (at_ t).items = q.items.drop 1 ∧
        (q.items = [] → (at_ t).unf = true ∧ (at_ t).out = q.out) ∧
        (∀ d rest, q.items = d :: rest → (at_ t).unf = q.unf ∧ (at_ t).out = d ∧ (at_ t).rdSeen = rest.length ∧
          (at_ t).wrSeen = rest.length))) ∧
    (q.async = true →
      (∀ d : BitVec 72, q.wrSeen = q.items.length → q.items.length < q.depth → ∃ t, exec (.queueWrite r k d) s = .next t ∧
        only t ∧ (at_ t).items = q.items ++ [cut q.width d] ∧ (at_ t).rdSeen = q.rdSeen) ∧
      (∀ d rest, q.items = d :: rest → q.rdSeen = q.items.length → ∃ t, exec (.queueRead r k) s = .next t ∧ only t ∧
        (at_ t).items = rest ∧ (at_ t).out = d ∧ (at_ t).wrSeen = q.wrSeen)) ∧
    (∃ t, exec (.queueReset r k) s = .next t ∧ only t ∧ (at_ t).items = [] ∧ (at_ t).out = q.out ∧ (at_ t).ovf = false ∧
      (at_ t).unf = false ∧ (at_ t).depth = q.depth ∧ (at_ t).words = q.words ∧ (at_ t).wptr = 0) ∧
    (∀ rise err : Bool,
      (∃ t, exec (.stickyClear r k .read rise err) s = .next t ∧ at_ t = { q with aemptyX := rise, unf := err } ∧ only t) ∧
      (∃ t, exec (.stickyClear r k .write rise err) s = .next t ∧ at_ t = { q with afullX := rise, ovf := err } ∧ only t))

/-- Windows: a request that is refused only counts; another is delivered under a free tag; its answer goes to who asked and
    frees the tag, and after WINTO without one TIMEOUT goes instead and the tag stays reserved; an initiator request takes
    a tag of its own (R353-R355). -/
def Sys2Proof.Says.WindowsAndInitiatorRequests : Prop :=
  ∀ (r : Fin 16) (s : State),
    let g := region s r
    let k := frKey r
    let die := (Blk.region r).die
    let one (n : Nat) (t : State) : Prop := reg t (k + n) = satAdd (reg s (k + n)) 1
    let answer (w : WinReq) (c : BitVec 8) (d : List Byte) (t : State) : Prop :=
      w.src ≠ .nobody → ∃ p, t.net.pkts = s.net.pkts ++ [p] ∧ p.src = w.src ∧ p.req = w.req ∧ p.resp = some (c, d) ∧
        p.dstDie = w.req.who.die ∧ p.dstRtr = w.req.who.rtr
    (∀ (q : Req) (o : Nat), q.wf = true → winOff q.addr.toNat = some (r, o) →
      (winCheck s q r ≠ 0 → ∃ t, exec (.windowRequest q) s = .next t ∧
        Keeps [] [rspKey q.who.die.toNat Rsn.unmapped, rspKey die (winCheck s q r)] [] s t) ∧
      (winCheck s q r = 0 → (∀ w ∈ g.wins, w.given = true) → ∀ n, n < 64 → (∀ w ∈ g.wins, w.tag ≠ n) →
        (∀ m, m < n → ∃ w ∈ g.wins, w.tag = m) →
        ∃ t, exec (.windowRequest q) s = .next t ∧ one Rg.region.WINREQ t ∧
          (region t r).wins = g.wins ++ [⟨n, q, BitVec.ofNat 64 (2 ^ q.len - 1), .nobody, true, false, s.clock.now⟩] ∧ Keeps [.regions] [k + Rg.region.WINREQ] [] s t ∧
          RegionsBut r s t)) ∧
    (∀ (tag : Fin 64) (w : WinReq), winTag g tag.val = some w → (∀ x ∈ g.wins, x.given = true) → w.expired = false →
      (∀ d, clocksRun s r = true → ∃ t, exec (.windowResponse r tag d) s = .next t ∧ (region t r).wins = g.wins.erase w ∧
        Keeps [.regions, .net] [] (regPages r) s t ∧ RegionsBut r s t ∧
        answer w 0 (if w.req.kind = .read then (d ++ List.replicate (w.req.len - d.length) 0).take w.req.len else []) t) ∧
      (live s (.region r) = true → w.at_.toNat + winTo s r ≤ now s → ∃ t, exec (.windowTimeout r tag) s = .next t ∧
        one Rg.region.WINTOCNT t ∧ answer w Rsn.timeout [] t ∧
        (region t r).wins = g.wins.map (fun x => if x = w then { x with expired := true } else x) ∧
        ((logOf t k).head?.map (·.w0)) = some 3 ∧ RegionsBut r s t ∧
        KeepsLog [.regions, .net] [k + Rg.region.WINTOCNT, rspKey die Rsn.timeout] (regPages r) k s t)) ∧
    (∀ (kind : Kind) (a : Addr) (len : Nat) (d : List Byte) (cnt : Option (BitVec 8)) (sat coh : Bool) (pri : BitVec 2),
      wellFormed (.fabricInitiatorRequest r kind a len d cnt sat coh pri) = true → clocksRun s r = true →
      issues s (.region r) = true → isGoing s (.region r) = true → g.portsOn = true → g.inits.length < 64 → 4 ≤ len → len ≤ 64 →
      ∃ t n, exec (.fabricInitiatorRequest r kind a len d cnt sat coh pri) s = .next t ∧ one Rg.region.INITREQ t ∧
        (region t r).inits = g.inits ++ [n] ∧ n ∉ g.inits ∧ n < 64 ∧ RegionsBut r s t ∧
        Keeps [.regions, .net] [k + Rg.region.INITREQ, rspKey die Rsn.unmapped] (regPages r) s t)

/-- A region's life: start-up on the controller's signal, set-reset released once its PLLs lock, RUNNING with its ports on;
    a lock lost while it runs is a FAULT; a stopping region that is quiet is STOPPED; CLEAR, taken when IDLE or STOPPED,
    leaves every bit of its configuration zero (R341-R349, R384). -/
def Obligations.RegionsStartStopAndClear : Prop :=
  ∀ (r : Fin 16) (s : State), live s (.region r) = true →
    let g := region s r
    let b := Blk.region r
    let k := frKey r
    let st := blkState s b
    let only (t : State) : Prop := Keeps [.regions] [] (regPages r) s t ∧ RegionsBut r s t
    (g.due = true → ∃ t, exec (.regionStartSignal r) s = .next t ∧ (region t r).starting = true ∧ (region t r).due = false ∧
      (region t r).released = false ∧ only t) ∧
    (g.due = false → exec (.regionStartSignal r) s = .next s) ∧
    (g.starting = true → g.released = false → ∃ t, exec (.pllsLocked r) s = .next t ∧ (region t r).setReset = false ∧
      (region t r).released = true ∧ (region t r).pllLock = g.pllUsed ∧ (∀ i, i < 512 → let q := queueOf (region t r) i
        q.items = [] ∧ q.width * q.depth = 36864 ∧ 1 ≤ q.aemark ∧ q.aemark < q.depth ∧ 1 ≤ q.afmark ∧ q.afmark < q.depth) ∧
      only t) ∧
    (g.starting = true → g.released = true → g.stopReq = none → ∃ t, exec (.startupPortsOn r) s = .next t ∧
      (region t r).started = true ∧ (region t r).portsOn = true ∧ (region t r).starting = false ∧
      (blkSt t b).run = .going ∧ regBit t (k + Rg.hdr.EVPEND) 3 = true ∧
      Keeps [.regions, .blks, .loader] [] (regPages r) s t ∧ RegionsBut r s t ∧ BlksBut b s t) ∧
    (∀ i : Fin 2, g.pllLock.getLsbD i.val = true →
      (st = 3 ∨ st = 4 ∨ st = 5 → ∃ t, exec (.pllLockLoss r i) s = .next t ∧ (blkSt t b).run = .fault ∧
        (region t r).pllLock.getLsbD i.val = false ∧ (logOf t k).head? = some ⟨1, 0, 0, 0⟩ ∧
        RegionFaults r [] s t) ∧
      (st = 2 → ∃ t, exec (.pllLockLoss r i) s = .next t ∧ (region t r).pllLock.getLsbD i.val = false ∧
        only t)) ∧
    ((blkSt s b).run = .stopping → g.inits = [] → (∀ w ∈ g.wins, w.expired = true) →
      ∃ t, exec (.fabricQuiesced r) s = .next t ∧ (blkSt t b).run = .stopped ∧
        Keeps [.blks] [] (regPages r) s t ∧ BlksBut b s t) ∧
    (∀ who, Reaches who b 0 Rg.region.FRCMD s →
      (st = 2 ∨ st = 5 → inLoad s r = false → ∃ t, exec (.frClear who r) s = .next t ∧ (region t r).clearing = true ∧
        (region t r).setReset = true ∧ (region t r).portsOn = false ∧
        (∀ n, flop (region t r) n = (flopCfg g n).init) ∧ (∀ j, j < 512 → (queueOf (region t r) j).items = []) ∧
        (s.loader.rbRegion = r → t.loader.rbCol = 0) ∧
        Keeps [.regions, .frees, .loader] prbKeys (putPages b 0) s t ∧ RegionsBut r s t) ∧
      (¬ (st = 2 ∨ st = 5) → ∃ t, exec (.frClear who r) s = .next t ∧ KeepsLog [] [] (putPages b 0) k s t ∧
        (logOf t k).head? = some ⟨7, w32 Rg.region.FRCMD, 0, reqWord who⟩)) ∧
    (g.clearing = true → ∃ t, exec (.frClearComplete r) s = .next t ∧
      region t r = { region0 with cleared := true, overPower := g.overPower, ports := g.ports } ∧ (blkSt t b).run = .going ∧
      regBit t (k + Rg.hdr.EVPEND) 2 = true ∧ RegionsBut r s t ∧ BlksBut b s t ∧
      Keeps [.regions, .net, .blks] ([rspKey b.die Rsn.stopped, ldrKey + Rg.ccfg.RGSTAT + 0x20 * r.val] ++
        (List.range 0x10).map (k + 0xC0 + ·) ++ (List.range 0x200).map (k + 0x100 + ·) ++ prbKeys) (regPages r) s t)

/-- The pins of a bank: high impedance with no pull while its region's domain is off or its supply absent; a routed probe
    drives its flip-flop's level with fast slew and no pull; a started design's pins have the image's settings; any other pin
    is high impedance with its weak pull-down (R344, R345, R356, R357, R549). -/
def Sys2Proof.Says.PinsFollowTheirRegion : Prop :=
  ∀ (s : State) (b : Fin 16) (p : Fin 12),
    let g := region s b
    let dead := blkOn s (.region b) = false ∨ s.pins.vio.getLsbD b.val = false
    let routed := ∃ e ∈ routes s, e.2.2 = (b.val, p.val)
    let used := g.started = true ∧ g.setReset = false ∧ nbit (pinUse s b) p.val = true
    (dead → pinState s b p = ⟨none, .none, false⟩) ∧
    (¬ dead → ∀ (r : Fin 16) (j : Fin 64), (prbSel s r j.val).getLsbD 31 = true → bits (prbPin s r j.val) 3 0 = b.val →
      bits (prbPin s r j.val) 11 8 = p.val → (∀ e ∈ routes s, e.2.2 = (b.val, p.val) → (e.1, e.2.1) = (r.val, j.val)) →
      pinState s b p = ⟨some (probeLevel s r j.val), .none, true⟩) ∧
    (¬ dead → ¬ routed →
      (used → let c := Config.imagePin g.frames p.val
        (pinState s b p).pull = c.pull ∧ (pinState s b p).fast = c.fast ∧ ((pinState s b p).drive.isSome = c.output)) ∧
      (¬ used → pinState s b p = ⟨none, .down, false⟩))

/-- Probe routes take an output and a pin that are free; the second interval above 110% of a region's allocation is a FAULT;
    an event input has the level of the design (R357-R360, R363). -/
def Sys2Proof.Says.RoutesPowerAndEvents : Prop :=
  ∀ (r : Fin 16) (s : State), live s (.region r) = true →
    let k := frKey r
    (∀ (who : Init) (j : Fin 64) (pin : Bool) (v : W32),
      let off := (if pin then Rg.region.PRBPIN else Rg.region.PRBSEL) + 8 * j.val
      let sel := if pin then prbSel s r j.val else v
      let tgt := if pin then v else prbPin s r j.val
      Reaches who (.region r) 0 off s →
      (sel.getLsbD 31 = false → ∃ t, exec (.probeRouteWrite who r j pin v) s = .next t ∧
        reg t (k + off) = v &&& (if pin then 0xF0F else 0x801FFFFF) ∧
        PutOnly (.region r) 0 [k + off] s t) ∧
      (sel.getLsbD 31 = true → (bits tgt 11 8 > 11 ∨ nbit (pinUse s (fin 16 (bits tgt 3 0))) (bits tgt 11 8) = true) →
        ∃ t, exec (.probeRouteWrite who r j pin v) s = .next t ∧ reg t (k + off) = reg s (k + off) ∧
          (logOf t k).head? = some ⟨6, w32 off, 0, reqWord who⟩ ∧ KeepsLog [] [] (putPages (.region r) 0) k s t)) ∧
    (∀ p : BitVec 16,
      let high := decide (11 * regN s (Blk.key .ptm + Rg.ptm.FABALLOC + 4 * r.val) < 100 * p.toNat)
      ∃ t, exec (.fabricPowerInterval r p) s = .next t ∧ (region t r).overPower = high ∧
        (reg t (k + Rg.region.FRPWR)).toNat = p.toNat ∧
        (high = true → (region s r).overPower = true → inFault s (.region r) = false → (blkSt t (.region r)).run = .fault) ∧
        (high = false ∨ (region s r).overPower = false →
          Keeps [.regions] [k + Rg.region.FRPWR] (regPages r) s t ∧ RegionsBut r s t) ∧
        RegionFaults r [k + Rg.region.FRPWR] s t) ∧
    (∀ (n : Fin 4) (lv : Bool), clocksRun s r = true → ∃ t, exec (.designEventInput r n lv) s = .next t ∧
      (region t r).events.getLsbD n.val = lv ∧
      (∀ m, m ≠ n.val → (region t r).events.getLsbD m = (region s r).events.getLsbD m) ∧
      Keeps [.regions] [] (regPages r) s t ∧ RegionsBut r s t)

/-! ### The network, fences and coherence (R407-R443) -/

/-- What a router's probe counts as a packet leaves by a link (R436). -/
def Sys2Proof.Says.linkKeys (n : Node) (l : Nat) : List Nat :=
  let k := probeKey n
  [k + Rg.probe.PRLNKPKT + 8 * l, k + Rg.probe.PRLNKBYTE + 8 * l, k + Rg.probe.PRFPKT, k + Rg.probe.PRFBYTES]

/-- What the probe at an initiator counts as a response comes (R436). -/
def Sys2Proof.Says.respKeys (who : Init) : List Nat :=
  let k := probeKey (who.die.toNat, who.rtr.toNat)
  [k + Rg.probe.PRREQ, k + Rg.probe.PRRDBYTES, k + Rg.probe.PRWRBYTES] ++ (List.range 16).map (fun i => k + Rg.probe.PRHIST + 4 * i)

/-- What goes next at an output: where one has waited 2 µs there, it came no later than any other that waits; else none
    that waits there has a higher priority (R411). -/
def Sys2Proof.Says.GoesFirst (t : Nat) (x : Wtg) (l : List Wtg) : Prop :=
  (∀ y ∈ l, aged t y = true → x.since ≤ y.since) ∧ ((∀ y ∈ l, aged t y = false) → ∀ y ∈ l, y.pri ≤ x.pri)

/-- A router sends on, in one slot, the packet and the snoop that goes first at each output on each virtual network, each one
    hop along its route and to no other place, and no other moves; a request at its target leaves the network as it is
    served, a write of it with its effect; a response that no one awaits leaves it with none, one for a fabric region frees
    its tag (R408, R409, R411, R414, R417). -/
def Obligations.PacketsTravelAndAreServed : Prop :=
  ∀ (die : BitVec 7) (rtr : BitVec 4) (s : State),
    let n : Node := (die.toNat, rtr.toNat)
    let evs := [(Blk.probe n.1 n.2, 0)]
    let ps := goes s n
    let qs := goesSnoop s n
    (∃ t, exec (.routerForward die rtr) s = .next t ∧
      t.net.pkts = s.net.pkts.map (fun x => if ps.contains x then sentOn s n x else x) ∧
      t.net.snoops = s.net.snoops.map (fun x => if qs.contains x then snoopOn s n x else x) ∧
      Keeps [.net] (ps.flatMap (fun p => linkKeys n (pktHop n p).2) ++ qs.flatMap (fun q => linkKeys n (snoopHop s n q).2)) evs s t) ∧
    (∀ p ∈ ps, p ∈ waitingAt s n ∧ pktNode p = n ∧ hopUp s n (pktHop n p) = true ∧ GoesFirst (now s) (pktWtg p)
      (((waitingAt s n).filter (fun q => (pktHop n q).2 == (pktHop n p).2 && pktVn q == pktVn p)).map pktWtg)) ∧
    (∀ p, waitingAt s n = [p] → hopUp s n (pktHop n p) = true → ps = [p]) ∧
    (∀ q, s.net.snoops = [q] → snoopNode q = n → snoopHere s q = false → hopUp s n (snoopHop s n q) = true → qs = [q]) ∧
    (∀ p o, s.net.pkts.find? (reqAt s n) = some p → netUp s n.1 = true → scrOff p.req.addr = some o →
      inDram p.req.addr.toNat = false → scrCheck s p.req o = 0 → p.req.kind = .write → p.req.cnt = none →
      p.req.data.length = p.req.len → Sound s (o / 8) ((o + p.req.len + 7) / 8) →
      (reg s (grpKey o + Rg.bank.ERRINJ)).getLsbD 17 = false → ∃ t, exec (.targetRequestCheck die rtr) s = .next t ∧
        scrBytes t o p.req.len = p.req.data ∧ (∀ a, a < o ∨ o + p.req.len ≤ a → scrByte t a = scrByte s a) ∧
        Keeps [.net, .scr, .scrChk, .banks] (linkKeys n 0 ++ [grpKey o + Rg.bank.ACCCNT]) evs s t ∧
        (p.src = .nobody → t.net.pkts = s.net.pkts.erase p) ∧
        (p.src ≠ .nobody → ∃ q, t.net.pkts = s.net.pkts.erase p ++ [q] ∧ q.src = p.src ∧ q.resp = some (0, []))) ∧
    (s.net.pkts.find? (reqAt s n) = none → ∃ t, exec (.targetRequestCheck die rtr) s = .next t ∧ KeepsBut [] s t) ∧
    (∀ p c d, s.net.pkts.find? (fun p => p.resp.isSome && arrived p && pktNode p == n && takenHere s p.src) = some p →
      p.resp = some (c, d) → s.power.inReset = [] →
      (p.src = .nobody → ∃ t, exec (.networkResponse die rtr) s = .next t ∧ t.net.pkts = s.net.pkts.erase p ∧
        Keeps [.net] (linkKeys n 0 ++ respKeys p.req.who) evs s t) ∧
      (∀ r i, p.src = .region r i → (region s r).inits.contains i = true →
        ∃ t, exec (.networkResponse die rtr) s = .next t ∧ t.net.pkts = s.net.pkts.erase p ∧
          (region t r).inits = (region s r).inits.erase i ∧ RegionsBut r s t ∧
          Keeps [.net, .regions] (linkKeys n 0 ++ respKeys p.req.who ++ [frKey r + Rg.region.INITERR]) (evs ++ regPages r) s t))

/-- A domain woken by a waiting access comes on, its packets going on to it; a fence whose domain has drained switches it
    off, one that has waited past the lull limits is given up, logged and reported with result 2 (R44, R419, R421, R509,
    R510). -/
def Sys2Proof.Says.DomainsWakeFenceAndTimeOut : Prop :=
  ∀ (d : Fin 95) (s : State),
    let stat (r : Nat) (t : State) : Prop := reg t (ptmKey + Rg.ptm.PDREQSTAT) = w32 (2 * r) ∧
      regBit t (ptmKey + Rg.hdr.EVPEND) 0 = true ∧ t.power.pd = none
    (s.power.waking.getLsbD d.val = true → s.power.pd = none → ∃ t, exec (.domainWakeDone d) s = .next t ∧
      domOn t d.val = true ∧ domFenced t d.val = false ∧ t.power.waking.getLsbD d.val = false ∧
      ∀ p ∈ s.net.held.flatMap (fun e => e.2.filter (inDomain d.val)), ∃ q ∈ t.net.pkts, q.req = p.req) ∧
    (s.power.waking.getLsbD d.val = false → exec (.domainWakeDone d) s = .next s) ∧
    (∀ a, fencing s d.val = some a →
      (domDrained s d.val = true → ∃ t, exec (.fenceHandshake d) s = .next t ∧ stat 0 t ∧ domOn t d.val = false ∧
        domFenced t d.val = false ∧ t.power.sleep.getLsbD d.val = (a == 1)) ∧
      (domDrained s d.val = false → exec (.fenceHandshake d) s = .next s) ∧
      (let lim := ((domBlks d.val).map (fun b => lullLimit s b.die (ownerOf s b))).foldl max 0
       domDrained s d.val = false → (tget 0 s.power.drainFrom d.val).toNat + lim ≤ now s →
       ∃ t, exec (.fenceDrainTimeout d) s = .next t ∧ stat 2 t ∧
         (logOf t ptmKey).head? = some ⟨w32 (2 + d.val * 2 ^ 8), 0, 0, 0⟩ ∧ 
         KeepsLog [.power] [ptmKey + Rg.ptm.PDREQSTAT] [(.ptm, 0)] ptmKey s t))

/-- The request of an agent for a line (R425). -/
def Sys2Proof.Says.cohReq (s : State) (g : Agent) (a : Addr) (r : CohReq) : Req :=
  let own := r == CohReq.own
  let q := mkReq (agentInit s g) (if own then .write else .read) (a.toNat / 64 * 64) 64 (if own then List.replicate 64 0 else [])
  { q with coh := true }

/-- An agent's copy of a line: asked for by no other, it comes exclusive with the bytes of memory; a snoop takes or shares it
    and the reply carries what was modified home; a write-back stores it and lets it go; where the line's stack refuses the
    access nothing is granted or let go; an agent that does not answer loses its copy (R311, R425). -/
def Obligations.CopiesAreGrantedSnoopedAndReturned : Prop :=
  ∀ (g : Agent) (a : Addr) (s : State), inSys a.toNat = true →
    let line := sysLine a.toNat
    let i := agentIdx g
    (∀ r, agentUp s g = true → copyOf s line i = none → holders s line = [] → s.net.snoops = [] → s.net.cohs = [] →
      dramCheck s (cohReq s g a r) = 0 →
      let m := lineAcc s (agentInit s g) line .read []
      (m.1 = 0 → ∃ t, exec (.coherentRequest g a r) s = .next t ∧ copyOf t line i = some .exclusive ∧
        copyData t line i = (m.2.1 ++ List.replicate 64 0).take 64 ∧ From [.net] s m.2.2 t) ∧
      (m.1 ≠ 0 → ∃ t, exec (.coherentRequest g a r) s = .next t ∧ copyOf t line i = none ∧ From [.net] s m.2.2 t)) ∧
    (∀ q, snoopOf s g line = some q → q.seen = false → snoopHere s q = true → agentUp s g = true →
      let d := if copyOf s line i = some .modified then some (copyData s line i) else none
      let seen : Snoop := { q with seen := true, data := d, inp := 0, came := s.clock.now }
      (q.share = false → ∃ t, exec (.snoopInvalidate g a) s = .next t ∧ copyOf t line i = none ∧ seen ∈ t.net.snoops ∧
        t.dram = s.dram ∧ KeepsBut [.net] s t) ∧
      (q.share = true → ∃ t, exec (.snoopShare g a) s = .next t ∧ seen ∈ t.net.snoops ∧ KeepsBut [.net] s t ∧
        copyOf t line i = (copyOf s line i).map (fun _ => .shared))) ∧
    (∀ q, s.net.snoops = [q] → q.agent = g → q.line = line → q.seen = true → snoopHere s q = true → s.net.cohs = [] →
      (q.data = none → ∃ t, exec (.snoopReply g a) s = .next t ∧ t.net.snoops = [] ∧ KeepsBut [.net] s t) ∧
      (∀ d, q.data = some d →
        let w := putLine s line d
        (w.1 = true → ∃ t, exec (.snoopReply g a) s = .next t ∧ t.net.snoops = [] ∧ From [.net] s w.2 t) ∧
        (w.1 = false → ∃ t, exec (.snoopReply g a) s = .next t ∧ From [] s w.2 t))) ∧
    (∀ d : List Byte, d.length = 64 →
      (copyOf s line i = some .modified ∨ copyOf s line i = some .exclusive →
        let w := putLine s line d
        (w.1 = true → ∃ t, exec (.writeBack g a d) s = .next t ∧ copyOf t line i = none ∧ From [.net] s w.2 t) ∧
        (w.1 = false → ∃ t, exec (.writeBack g a d) s = .next t ∧ From [] s w.2 t)) ∧
      (¬ (copyOf s line i = some .modified ∨ copyOf s line i = some .exclusive) →
        ∃ t, exec (.writeBack g a d) s = .next t ∧ KeepsBut [] s t)) ∧
    (∀ r q, g = .region r → s.net.snoops = [q] → q.agent = g → q.line = line → s.net.cohs = [] →
      agentUp s g = false ∨ q.at_.toNat + 10000 ≤ now s → ∃ t, exec (.snoopTimeout r a) s = .next t ∧
        copyOf t line i = none ∧ t.net.snoops = [] ∧
        KeepsLog [.net, .frees] [] [] (Blk.key (.pvm (dramMap s a.toNat).1)) s t)

/-- Windows change only while they may; messages between dies clear WIPED and drive the fault source of a partition; lull
    reports and probe counts go where they are dropped; a wait beyond its limit is reported once, with a partition fault
    (R278, R424, R432, R434, R437, R442). -/
def Sys2Proof.Says.TablesMessagesAndLullReports : Prop :=
  (∀ (who : Init) (k : Fin 8) (w : Fin 64) (v : W32) (s : State),
    let key := winKey k.val w.val
    let c := reg s (key + 0xC)
    let p := bits v 3 0
    let off (i : Nat) : Nat := 0x80 + 0x10 * w.val + 4 * i
    let b := Blk.ptab (8 + 11 * k.val)
    (Reaches who (.ptab (8 + 11 * k.val)) 1 (off 3) s →
      (c.getLsbD 4 = true → bits c 3 0 ≠ p → ∃ t, exec (.pwctlWrite who k w 3 v) s = .next t ∧
        reg t (key + 0xC) = c ∧ KeepsLog [] [] [(b, 1)] (b.keyP 1) s t) ∧
      (c.getLsbD 4 = false → p ≠ bits c 3 0 → c.getLsbD 8 = false → p = 0 ∨ s.power.mst = .ready →
        ∃ t, exec (.pwctlWrite who k w 3 v) s = .next t ∧ reg t (key + 0xC) = c ∧
          (logOf t (Blk.keyP (.ptab (8 + 11 * k.val)) 1)).head? = some ⟨2, w32 (off 3), 0, 0⟩ ∧
          KeepsLog [] [] [(b, 1)] (b.keyP 1) s t) ∧
      (c.getLsbD 4 = false → c.getLsbD 8 = true ∨ p = bits c 3 0 → p = 0 ∨ s.power.mst = .ready → winClash s k.val w.val p = false →
        ∃ t, exec (.pwctlWrite who k w 3 v) s = .next t ∧
          reg t (key + 0xC) = ((v &&& 0x7F) ||| (if v.getLsbD 4 then 0 else c &&& 0x100)) ∧
          PutOnly b 1 [key + 0xC] s t)) ∧
    (Reaches who (.ptab (8 + 11 * k.val)) 1 (off 0) s → c.getLsbD 4 = false → ∃ t,
      exec (.pwctlWrite who k w 0 v) s = .next t ∧ reg t key = v &&& 0xFFFFF000 ∧
      (reg s key ≠ v &&& 0xFFFFF000 → regBit t (key + 0xC) 8 = false) ∧
      PutOnly b 1 [key, key + 0xC] s t)) ∧
  (∀ (k : Fin 8) (a n : Nat) rest (s : State), tget [] s.net.wipes k.val = (a, n) :: rest →
    ∃ t, exec (.wipedClearMessage k) s = .next t ∧ tget [] t.net.wipes k.val = rest ∧ Keeps [.net] (winKeys k) [] s t ∧
      ∀ w, w < 64 →
        let g := winRange s k.val w
        let e := reg s (winKey k.val w + 0xC)
        reg t (winKey k.val w + 0xC) = (if e.getLsbD 4 = false ∧ overlaps g.1 g.2 a n = true then e &&& ~~~ 0x100 else e)) ∧
  (∀ (p : Nat) rest (s : State), s.net.events = p :: rest → ∃ t, exec .eventMessage s = .next t ∧ t.net.events = rest ∧
    tget false t.conc.pulse (0x670 + p) = true ∧ KeepsBut [.net, .conc] s t) ∧
  (∀ (who : Init) (die : BitVec 7) (rtr : BitVec 4) (v : W32) (s : State),
    ((Blk.ptab die.toNat).wf = true → Reaches who (.ptab die.toNat) 3 0x84 s → ∃ t, exec (.lrpop who die v) s = .next t ∧
      tget [] t.net.lulls die.toNat =
        (if v.getLsbD 0 then (tget [] s.net.lulls die.toNat).drop 1 else tget [] s.net.lulls die.toNat) ∧
      Keeps [.net] [] [(.ptab die.toNat, 3)] s t) ∧
    ((Blk.probe die.toNat rtr.toNat).wf = true → Reaches who (.probe die.toNat rtr.toNat) 0 Rg.probe.PRCLR s →
      v.getLsbD 0 = true → ∃ t, exec (.prclr who die rtr v) s = .next t ∧
        reg t (Blk.key (.probe die.toNat rtr.toNat) + Rg.probe.PRREQ) = 0 ∧
        tget [] t.net.traces (16 * die.toNat + rtr.toNat) = [] ∧
        (let k := probeKey (die.toNat, rtr.toNat)
         Keeps [.net] ([k + Rg.probe.PRFPKT, k + Rg.probe.PRFBYTES] ++
           (List.range (Rg.probe.PRLNKPKT + 0x40 - Rg.probe.PRREQ)).map (k + Rg.probe.PRREQ + ·))
           [(.probe die.toNat rtr.toNat, 0)] s t))) ∧
  (∀ (u : Fin 64) (c : UCmd) (s : State), s.tiles.map (·.1) = [u.val] → s.ctxs = [] → s.engs = [] → s.checks = [] → s.chans = [] →
    s.net.waits = [] → (tile s u).seq.epSince = none → (tile s u).sync.active = some c → (tile s u).sync.waiting = true →
    hOpc c.cmd = 1 → (tget [] s.net.lulls (u.val / 16)).length < 8 →
    let late := (tile s u).sync.since.toNat + lullLimit s (u.val / 16) (tileOwner s u) < now s
    let r : Lull := ⟨w32 (2 + u.val % 16 * 2 ^ 8), w32 ((tileOwner s u).toNat + u.val * 2 ^ 8 + sCnt c.cmd * 2 ^ 16), c.cmd.w2,
      cntVal s u (sCnt c.cmd)⟩
    (late → ∃ t, exec .lullCheck s = .next t ∧ tget [] t.net.lulls (u.val / 16) = tget [] s.net.lulls (u.val / 16) ++ [r] ∧
      regBit t (Blk.key (.ptab (u.val / 16)) + Rg.ptab.PTFAULT) (tileOwner s u).toNat = true ∧
      t.net.events = s.net.events ++ [(tileOwner s u).toNat] ∧ t.net.waits.length = 1 ∧
      Keeps [.net] [Blk.key (.ptab (u.val / 16)) + Rg.ptab.PTFAULT] [(.ptab (u.val / 16), 0)] s t) ∧
    (¬ late → ∃ t, exec .lullCheck s = .next t ∧ KeepsBut [] s t))

/-! ### Configuration loading, readback, keys, check channels (R364-R406) -/

/-- The controller's own page of events. -/
abbrev Sys2Proof.Says.ldrEv : List (Blk × Nat) := [(.loader, 0)]

/-- A load has ended in error: the entry logged, PHASE ERROR, the regions of the set still waiting for their start kept
    unloaded in set-reset (R380). -/
def Sys2Proof.Says.LoadFails (w t : State) (code rgn : Nat) (w1 : W32) (rsn : BitVec 8) : Prop :=
  t.loader = { w.loader with phase := .error } ∧ logOf t ldrKey = logOf (ldrLog w code rgn w1 rsn) ldrKey ∧
  (∀ r ∈ loadSet w, (region t r).setReset = true ∧ (region t r).loaded = false) ∧
  (∀ r, r ∉ loadSet w → region t r = region w r) ∧ KeepsLog [.loader, .regions] [] ldrEv ldrKey w t

/-- A load of the section at an address: PHASE AUTH, its regions uncleared, unloaded and in set-reset, or, where one cannot
    take a load, error 0x06, CLEARED and VALID of its regions cleared (R377, R394). -/
def Sys2Proof.Says.LoadBegins (w : State) (a : Nat) (t : State) : Prop :=
  let m := memRead w zenithInit a 0x800
  let es := secEntries m.data
  m.rsn = 0 →
    ((∀ e ∈ es, loadable m.st e.region = true) → t.loader.phase = .auth ∧ t.loader.entries = es ∧
      t.loader.secAt = BitVec.ofNat 48 a ∧ reg t (ldrKey + Rg.ccfg.CCLOADSET) = w32 (setBits es) ∧
      (∀ e ∈ es, (region t e.region).cleared = false ∧ (region t e.region).loaded = false ∧ (region t e.region).setReset = true) ∧
      (∀ q, (∀ e ∈ es, e.region ≠ q) → region t q = region w q) ∧
      Keeps [.loader, .regions, .frees] ([ldrKey + Rg.ccfg.CCLOADSET, ldrKey + Rg.ccfg.CCATTEMPT] ++
        es.map (fun e => ldrKey + Rg.ccfg.RGSTAT + 0x20 * e.region.val))
        (blkPages .loader ++ es.flatMap (fun e => regPages e.region)) m.st t) ∧
    (∀ e ∈ es, loadable m.st e.region = false → t.loader.phase = .error ∧
      ∀ d ∈ es, (region t d.region).cleared = false ∧ regBit t (ldrKey + Rg.ccfg.RGSTAT + 0x20 * d.region.val) 0 = false)

/-- CCCMD: START in PHASE IDLE receives, transmits or reads the section at CCSRC; ABORT ends what is under way and releases
    CFGDONE, RELDONE only the latter (R377, R382, R383, R386, R387). -/
def Sys2Proof.Says.LoaderTakesItsCommands : Prop :=
  ∀ (who : Init) (s : State), Reaches who .loader 0 Rg.ccfg.CCCMD s →
    let s1 : State := { s with loader := { s.loader with doneDrv := if doneSync s then true else s.loader.doneDrv } }
    let stream := (ccReg s Rg.ccfg.CCSRCH).getLsbD 16
    let head := ccChained s && (ccReg s Rg.ccfg.CCCHAIN).getLsbD 4
    (s.loader.phase ≠ .idle → exec (.ccStart who) s = .next s) ∧
    (s.loader.phase = .idle →
      (stream = true → ∃ t, exec (.ccStart who) s = .next t ∧ t.loader.phase = .receive ∧
        Keeps [.loader] [] (blkPages .loader) s t) ∧
      (stream = false → head = true → ∃ t, exec (.ccStart who) s = .next t ∧ t.loader.phase = .transmit ∧
        Keeps [.loader] [] (blkPages .loader) s t) ∧
      (stream = false → head = false → ∃ t, exec (.ccStart who) s = .next t ∧ LoadBegins s1 (ccSrc s) t)) ∧
    (s.loader.phase = .idle → exec (.ccAbort who) s = .next s) ∧
    (s.loader.phase ≠ .idle → ∃ t, exec (.ccAbort who) s = .next t ∧ t.loader.phase = .idle ∧ t.loader.doneDrv = false ∧
      t.loader.chainOut = s.loader.chainOut ++ (if head then [.stop] else []) ∧
      logOf t ldrKey = logOf (ldrLog s 0x0D 0 0 0) ldrKey ∧
      (∀ r ∈ loadSet s, (region t r).setReset = true ∧ (region t r).loaded = false) ∧
      (∀ r, r ∉ loadSet s → region t r = region s r) ∧ KeepsLog [.loader, .regions] [] (blkPages .loader) ldrKey s t) ∧
    (∃ t, exec (.ccReldone who) s = .next t ∧ Keeps [.loader] [] (blkPages .loader) s t ∧
      t.loader = { s.loader with doneDrv := false, doneSince := s.clock.now })

/-- Pass 1 checks the header, the keys and signature, every body's digest and tag, and the CRC, each failure with its own
    error; a section that passes is loaded, PHASE LOAD (R365, R366, R375, R380). -/
def Sys2Proof.Says.PassOneAuthenticatesTheSection : Prop :=
  ∀ s : State, s.loader.phase = .auth →
    let a := s.loader.secAt.toNat
    let m := memRead s zenithInit a 0x800
    let es := secEntries m.data
    let key := if encrypted m.data then encKey s (secEnc m.data) else none
    let b := bodiesBad key es.zipIdx m.st
    let n := secLen m.data
    let m2 := memRead b.2 zenithInit a n
    let x := exec .pass1Authentication s
    (m.rsn ≠ 0 → ∃ t, x = .next t ∧ LoadFails m.st t 0x08 0 (w32 (m.at_ - a)) m.rsn) ∧
    (m.rsn = 0 →
      (∀ o, headerBad (ccPos s) m.data = some o → ∃ t, x = .next t ∧ LoadFails m.st t 0x01 0 (w32 o) 0) ∧
      (headerBad (ccPos s) m.data = none →
        (keysBad s m.data ≠ 0 → ∃ t, x = .next t ∧ LoadFails m.st t 0x02 0 (w32 (keysBad s m.data)) 0) ∧
        (keysBad s m.data = 0 →
          (∀ w, b.1 = some w → ∃ t, x = .next t ∧ After [] [] ldrEv s w t) ∧
          (b.1 = none → m2.rsn = 0 →
            (leAt m2.data (n - 4) 4 ≠ crcOf crc32c (m2.data.take (n - 4)) → ∃ t, x = .next t ∧
              LoadFails m2.st t 0x01 0 (w32 (n - 4)) 0) ∧
            (leAt m2.data (n - 4) 4 = crcOf crc32c (m2.data.take (n - 4)) → ∃ t, x = .next t ∧ t.loader.phase = .load ∧
              t.loader.entries = es ∧ t.loader.cur = 0 ∧ t.loader.order = 0 ∧ reg t (ldrKey + Rg.ccfg.CCATTEMPT) = 1 ∧
              After [.loader] [ldrKey + Rg.ccfg.CCATTEMPT, ldrKey + Rg.ccfg.CCFRAMES] ldrEv s m2.st t)))))

/-- The frames of a FRAMES packet, each with the address it goes to (R368, R370). -/
def Sys2Proof.Says.framesAt : W32 → List Frame → List (W32 × Frame)
  | _, [] => []
  | a, f :: fs => (a, f) :: framesAt (faNext a) fs

/-- A frame that is in range and reads back as its check word says (R371). -/
def Sys2Proof.Says.goodFrame (p : W32 × Frame) : Prop := faRange p.1 = true ∧ frameCheck p.1 p.2.back = p.2.check.toNat

/-- The header and the data words of the packet that a row is (R367, R368). -/
def Sys2Proof.Says.pktOf : Instr → Option (Nat × List W32)
  | .devchk v => some (0xA5100001, [v])
  | .options v => some (0xA5200001, [v])
  | .openPkt v => some (0xA5300001, [v])
  | .setaddr v => some (0xA5400001, [v])
  | .frames fs => some (0xA5500000 + fs.length, fs.flatMap (fun f => f.data ++ [f.check]))
  | .tally v => some (0xA5600001, [v])
  | .close v => some (0xA5700001, [v])
  | _ => none

/-- A load is in a body, and what its memory has next beside the packet of row `i` is `x`, the read leaving `w`. -/
def Sys2Proof.Says.InBody (i : Instr) (e : RegEntry) (x : NextPkt) (s w : State) : Prop :=
  curEntry s = some e ∧ s.loader.phase = .load ∧ s.loader.restart = false ∧ wellFormed i = true ∧
  ∃ h ws, pktOf i = some (h, ws) ∧ bodyNext e h ws s = (x, w)

/-- The packets of a body act in PHASE LOAD as its memory holds them, decrypted: a row whose packet is not next does nothing;
    a header that is none, a body that ends early and a read that fails end the load; DEVCHK, OPTIONS, OPEN in order with
    their values, SETADDR an address of the entry's region, FRAMES each frame stored at its address, counted and checked,
    TALLY the count; any else a format error; a frame that reads back wrong starts the body again (R367-R372, R376, R379). -/
def Sys2Proof.Says.PacketsDeliverTheFrames : Prop :=
  (∀ (e : RegEntry) (s : State), curEntry s = some e → s.loader.phase = .load →
    (s.loader.restart = true →
      (∀ i p, pktOf i = some p → wellFormed i = true → exec i s = .next s) ∧
      ∃ t, exec .pass2Restart s = .next t ∧ t.loader = bodyFresh s.loader ∧ reg t (ldrKey + Rg.ccfg.CCFRAMES) = 0 ∧
        Keeps [.loader] [ldrKey + Rg.ccfg.CCFRAMES] ldrEv s t) ∧
    (s.loader.restart = false → exec .pass2Restart s = .next s)) ∧
  ∀ (i : Instr) (e : RegEntry) (s w : State),
    let r := e.region
    (∀ o, InBody i e (.bad o) s w → ∃ t, exec i s = .next t ∧ LoadFails w t 0x01 r.val (w32 (e.offset + o)) 0) ∧
    (∀ a rsn, InBody i e (.bus a rsn) s w → ∃ t, exec i s = .next t ∧
      LoadFails w t 0x08 r.val (w32 (a - w.loader.secAt.toNat)) rsn) ∧
    (InBody i e .other s w → exec i s = .next s) ∧
    (∀ o n, InBody i e (.fits o n) s w →
      let u : State := { w with loader := { w.loader with pos := n } }
      let l := u.loader
      let fails (w1 : W32) : Prop := ∃ t, exec i s = .next t ∧ LoadFails u t 0x01 r.val w1 0
      let takes (l' : Loader) : Prop := ∃ t, exec i s = .next t ∧ t.loader = l' ∧ After [.loader] [] ldrEv s u t
      (∀ v : W32, ∀ p ∈ [(0, Instr.devchk v, v == 0x0B640F01), (1, .options v, decide (v.toNat < 4)),
          (2, .openPkt v, v.toNat == r.val)], i = p.2.1 →
        (l.order = p.1 → p.2.2 = true →
          takes { l with order := p.1 + 1, opts := if p.1 = 1 then BitVec.ofNat 2 v.toNat else l.opts }) ∧
        (¬ (l.order = p.1 ∧ p.2.2 = true) → fails (w32 (e.offset + o)))) ∧
      (∀ v : W32,
        (i = .setaddr v → (l.order = 3 ∧ faOk (ccPos u) r v = true → takes { l with addr := v, addrSet := true }) ∧
          (¬ (l.order = 3 ∧ faOk (ccPos u) r v = true) → fails v)) ∧
        (i = .tally v → (l.order = 3 ∧ v.toNat = l.nframes → takes l) ∧ (¬ (l.order = 3 ∧ v.toNat = l.nframes) → fails l.addr))) ∧
      (∀ fs : List Frame, i = .frames fs →
        let ps := framesAt l.addr fs
        (¬ (l.order = 3 ∧ l.addrSet = true) → fails l.addr) ∧
        (l.order = 3 → l.addrSet = true →
          ((∀ p ∈ ps, goodFrame p) → ∃ t, exec i s = .next t ∧ t.loader.nframes = l.nframes + fs.length ∧ t.loader.pos = n ∧
            (region t r).frames = ps.foldl (fun g p => tset [] g (faNum p.1) p.2.data) (region u r).frames ∧
            t.loader.seen = ps.foldl (fun g p => tset false g (faNum p.1) true) l.seen ∧
            reg t (ldrKey + Rg.ccfg.CCFRAMES) = w32 ((l.nframes + fs.length) % 2 ^ 17) ∧
            { region t r with frames := (region u r).frames } = region u r ∧ RegionsBut r u t ∧
            After [.loader, .regions] [ldrKey + Rg.ccfg.CCFRAMES] ldrEv s u t) ∧
          (∀ pre f post a, fs = pre ++ f :: post → (∀ p ∈ framesAt l.addr pre, goodFrame p) →
            (framesAt l.addr (pre ++ [f])).getLast? = some (a, f) → faRange a = true → frameCheck a f.back ≠ f.check.toNat →
            ∃ t, exec i s = .next t ∧ t.loader.restart = true ∧ t.loader.attempt = l.attempt + 1 ∧
              t.loader.nframes = l.nframes + pre.length ∧ (logOf t ldrKey).head?.map (·.w1) = some a ∧
              reg t (ldrKey + Rg.ccfg.CCRETRY) = satAdd (reg u (ldrKey + Rg.ccfg.CCRETRY)) 1 ∧
              RegionsBut r u t ∧ KeepsLog [.loader, .regions] [ldrKey + Rg.ccfg.CCFRAMES, ldrKey + Rg.ccfg.CCATTEMPT,
                ldrKey + Rg.ccfg.CCRETRY] ldrEv ldrKey u t))))

/-- CLOSE: every frame exactly once, no word of the body left and the stored body's digest as its entry says record the region
    as loaded with its golden signature, and the next body follows, or, after the last, CFGDONE is released, or without
    DONESYNC the start signal given; with DONESYNC the start signal comes once the line has been high for 1 µs (R372, R376,
    R377, R383, R384, R389). -/
def Sys2Proof.Says.ClosingABodyLoadsTheRegion : Prop :=
  (∀ (e : RegEntry) (v : W32) (s w : State) (o n : Nat), InBody (.close v) e (.fits o n) s w →
    let r := e.region
    let u : State := { w with loader := { w.loader with pos := n } }
    let l := u.loader
    let m := readBody u e
    let whole := l.order = 3 ∧ v.toNat = 66048 ∧ l.nframes = 66048 ∧ l.seen.length = 66048
    let k := ldrKey + 0x20 * r.val
    let body := m.st.loader.secAt.toNat + e.offset
    (¬ whole → ∃ t, exec (.close v) s = .next t ∧ LoadFails u t 0x01 r.val l.addr 0) ∧
    (whole → n ≠ e.length → ∃ t, exec (.close v) s = .next t ∧ LoadFails u t 0x01 r.val (w32 (e.offset + n)) 0) ∧
    (whole → n = e.length → m.rsn ≠ 0 → ∃ t, exec (.close v) s = .next t ∧
      LoadFails m.st t 0x08 r.val (w32 (m.at_ - l.secAt.toNat)) m.rsn) ∧
    (whole → n = e.length → m.rsn = 0 → sha384 m.data ≠ e.digest → ∃ t, exec (.close v) s = .next t ∧
      LoadFails m.st t 0x03 r.val (w32 e.offset) 0) ∧
    (whole → n = e.length → m.rsn = 0 → sha384 m.data = e.digest → ∃ t, exec (.close v) s = .next t ∧
      (region t r).loaded = true ∧ regBit t (k + Rg.ccfg.RGSTAT) 0 = true ∧
      reg t (k + Rg.ccfg.RGGOLD) = goldOf m.st r ∧ reg t (k + Rg.ccfg.RGIMG) = w32 body ∧
      t.loader.cur = m.st.loader.cur + 1 ∧ t.loader.entries = m.st.loader.entries ∧
      (t.loader.cur < t.loader.entries.length → t.loader.phase = m.st.loader.phase ∧ t.loader.order = 0 ∧ t.loader.nframes = 0) ∧
      (t.loader.entries.length ≤ t.loader.cur → doneSync m.st = true → t.loader.phase = .waitdone ∧ t.loader.doneDrv = false) ∧
      (t.loader.entries.length ≤ t.loader.cur → doneSync m.st = false → t.loader.phase = .startup ∧
        ∀ q ∈ loadSet m.st, (region t q).due = true) ∧
      After [.loader, .regions] [k + Rg.ccfg.RGSTAT, k + Rg.ccfg.RGGOLD, k + Rg.ccfg.RGIMG, k + Rg.ccfg.RGIMGH,
        ldrKey + Rg.ccfg.CCLOADSET, ldrKey + Rg.ccfg.CCATTEMPT, ldrKey + Rg.ccfg.CCFRAMES] (regPages r ++ ldrEv) s m.st t)) ∧
  (∀ s : State,
    let ready := s.loader.phase = .waitdone ∧ (doneSync s = false ∨ (doneLow s = false ∧ s.loader.doneSince.toNat + 1000 ≤ now s))
    (ready → ∃ t, exec .cfgdoneStartSignal s = .next t ∧ t.loader = { s.loader with phase := .startup } ∧
      (∀ q ∈ loadSet s, region t q = { region s q with due := true }) ∧ (∀ q, q ∉ loadSet s → region t q = region s q) ∧
      Keeps [.loader, .regions] [] ldrEv s t) ∧
    (¬ ready → exec .cfgdoneStartSignal s = .next s))

/-- The head of a chain sends every section but its own between the stream's markers, and again where CFGRETRY is low 10 µs
    after the end marker, else loads its own; the others pass on the markers and the sections that are not theirs, or count
    these at the tail, store their own, and at the end marker load it, or drive CFGRETRY where its CRC was wrong, which the
    next start marker releases (R385-R388). -/
def Obligations.ChainsPassSectionsOn : Prop :=
  ∀ s : State,
    let a := ccSrc s
    let n := (ccReg s Rg.ccfg.CCSRCLEN).toNat
    let mine (d : List Byte) : Prop := chposOf d = ccPos s
    let read (w : State) := chainSections a (a + n) (n / 2048 + 1) w
    let sent (w : State) (secs : List (Nat × List Byte × List Byte)) (z : State) (i : Instr) : Prop := read w = (some secs, (read w).2) →
      z = (read w).2.2.2 → ∃ t, exec i s = .next t ∧ After [.loader] [] ldrEv s z t ∧ t.loader = { z.loader with
        chainOut := z.loader.chainOut ++ [.start] ++ (secs.filter (fun e => chposOf e.2.1 != ccPos z)).flatMap (fun e =>
          .sect e.2.1 :: if e.2.2 = [] then [] else [.fill e.2.2]) ++ [.stop],
        sentAt := z.clock.now, recvd := some true }
    let hi : State := { s with loader := { s.loader with retryExt := true } }
    let lo : State := bump { s with loader := { s.loader with retryExt := false } } (ldrKey + Rg.ccfg.CCCHRES)
    let tail := (ccReg s Rg.ccfg.CCCHAIN).getLsbD 5
    let fresh (pre : List (List Byte)) : State :=
      { s with loader := { s.loader with recvd := none, retryDrv := false,
                                         chainOut := s.loader.chainOut ++ if tail then [] else .start :: pre.map .sect } }
    let ended : State := { s with loader := { s.loader with chainOut := s.loader.chainOut ++ if ccChained s && !tail then [.stop] else [] } }
    (s.loader.phase = .transmit → ∀ secs z, sent s secs z .chainTransmit) ∧
    (s.loader.phase = .transmit → s.loader.recvd.isSome = true → s.loader.sentAt.toNat + 10000 ≤ now s →
      (∀ secs z, sent lo secs z (.cfgretrySample true)) ∧
      (∀ secs z p d, read hi = (some secs, (read hi).2) → z = (read hi).2.2.2 →
        secs.find? (fun e => chposOf e.2.1 == ccPos z) = some (p, d) →
        ∃ t, exec (.cfgretrySample false) s = .next t ∧ LoadBegins z p t)) ∧
    (s.loader.phase ≠ .receive → ∀ secs, ∃ t, exec (.chainStreamStart secs) s = .next t ∧
      t.loader = { s.loader with retryDrv := false } ∧ Keeps [.loader] [] ldrEv s t) ∧
    (s.loader.phase = .receive → ccChained s = true →
      (∀ secs, (∀ d ∈ secs, ¬ mine d) → ∃ t, exec (.chainStreamStart secs) s = .next t ∧
        Keeps [.loader] (if tail then [ldrKey + Rg.ccfg.CCCHDROP] else []) ldrEv s t ∧
        (tail = false → t.loader = (fresh secs).loader) ∧
        (tail = true → t.loader = (fresh []).loader ∧
          reg t (ldrKey + Rg.ccfg.CCCHDROP) = satAdd (reg s (ldrKey + Rg.ccfg.CCCHDROP)) secs.length)) ∧
      (∀ pre d, (∀ x ∈ pre, ¬ mine x) → mine d → tail = false → d.length ≤ n →
        let m := memWrite (fresh pre) zenithInit a d
        let ok := decide (4 ≤ d.length) && leAt d (d.length - 4) 4 == crcOf crc32c (d.take (d.length - 4))
        m.rsn = 0 → ∃ t, exec (.chainStreamStart (pre ++ [d])) s = .next t ∧ After [.loader] [] ldrEv s m.st t ∧
          t.loader = { m.st.loader with recvd := some ok })) ∧
    (s.loader.phase = .receive →
      (s.loader.recvd = some true → ∃ t, exec .chainStreamEnd s = .next t ∧
        LoadBegins { ended with loader := { ended.loader with recvd := none } } a t) ∧
      (s.loader.recvd = some false → ∃ t, exec .chainStreamEnd s = .next t ∧
        t.loader = { ended.loader with recvd := none, retryDrv := true } ∧
        reg t (ldrKey + Rg.ccfg.CCCHRES) = satAdd (reg s (ldrKey + Rg.ccfg.CCCHRES)) 1 ∧
        (logOf t ldrKey).head?.map (fun e => bits e.w0 7 0) = some 7 ∧
        KeepsLog [.loader] [ldrKey + Rg.ccfg.CCCHRES] ldrEv ldrKey s t) ∧
      (s.loader.recvd = none → ∃ t, exec .chainStreamEnd s = .next t ∧ t.loader = ended.loader ∧ Keeps [.loader] [] ldrEv s t))

/-- Readback takes the columns of its regions in order; one whose signature differs is an upset: repaired from the image in
    MODE 2, or logged with its column; else logged and counted; where the region asks for it and is not STOPPED, it stops at once and is left until its next lap (R390-R392). -/
def Sys2Proof.Says.ReadbackFindsUpsets : Prop :=
  ∀ (r : Fin 16) (ups : List Upset) (s : State),
    let c := if s.loader.rbRegion = r then s.loader.rbCol else 0
    let k := ldrKey + 0x20 * r.val
    let w := strike r c ups s
    let same (x : State) : Prop := colSigOf x r c = tget 0 s.loader.colSig (384 * r.val + c)
    let stops := regBit s (k + Rg.ccfg.RGRBCTL) 2 || regBit s (k + Rg.ccfg.RGSTAT) 6
    let fix := decide (rgMode s r = 2) && regBit s (k + Rg.ccfg.RGSTAT) 5
    let moved (t : State) : Prop :=
      (c + 1 < 384 → t.loader.rbRegion = r ∧ t.loader.rbCol = c + 1) ∧
      (c + 1 = 384 → t.loader.rbRegion.val = (r.val + 1) % 16 ∧ t.loader.rbCol = 0)
    (rbNext s ≠ some r → exec (.readbackColumn r ups) s = .next s) ∧
    (rbNext s = some r → c < 384 →
      (same w → ∃ t, exec (.readbackColumn r ups) s = .next t ∧ moved t ∧
        Keeps [.loader, .regions] [k + Rg.ccfg.RGLAP] ldrEv s t ∧ RegionsBut r s t ∧ region t r = region w r) ∧
      (¬ same w → fix = false → ∃ t, exec (.readbackColumn r ups) s = .next t ∧
        reg t (k + Rg.ccfg.RGUPSET) = satAdd (reg s (k + Rg.ccfg.RGUPSET)) 1 ∧
        (logOf t ldrKey).head?.map (·.w1) = some ((faOf (ccPos s) r (160 * c) &&& 0xFFFFFF00) ||| 0xFF) ∧
        (stops = false ∨ isStopped s (.region r) = true → moved t ∧ region t r = region w r ∧ RegionsBut r s t ∧
          KeepsLog [.loader, .regions] [k + Rg.ccfg.RGUPSET, k + Rg.ccfg.RGLAP] ldrEv ldrKey s t) ∧
        (stops = true → isStopped s (.region r) = false → (region s r).started = true → (region s r).starting = false →
          (blkSt t (.region r)).run = .stopped ∧ t.loader.rbRegion.val = (r.val + 1) % 16 ∧ t.loader.rbCol = 0)) ∧
      (¬ same w → fix = true →
        let y := repairCol r c (List.range 160) w
        let repaired := y.1 = true ∧ colSigOf y.2 r c = tget 0 y.2.loader.colSig (384 * r.val + c)
        regBit y.2 (k + Rg.ccfg.RGRBCTL) 2 = false → regBit s (k + Rg.ccfg.RGSTAT) 6 = false →
        ∃ t, exec (.readbackColumn r ups) s = .next t ∧ moved t ∧ (region t r).frames = (region y.2 r).frames ∧
          (repaired → After [.loader] [k + Rg.ccfg.RGLAP] ldrEv s y.2 t) ∧
          (¬ repaired → After [.loader, .logs] [k + Rg.ccfg.RGUPSET, k + Rg.ccfg.RGLAP, ldrKey + Rg.hdr.ERRCNT] ldrEv s y.2 t ∧
            LogsBut [ldrKey] y.2 t ∧ (logOf t ldrKey).head?.map (·.w1) = some ((faOf (ccPos s) r (160 * c) &&& 0xFFFFFF00) ||| 0xFF))))

/-- KEYPROG: with CONFIRM an empty operator slot is programmed with the staged key, for good, and KEYBUF reads zero; REVOKE
    revokes a slot; anything else is only counted (R373, R374). -/
def Obligations.KeySlotsAreProgrammedAndRevoked : Prop :=
  ∀ (who : Init) (v : W32) (s : State),
    let k := Blk.key .sec
    let enc := v.getLsbD 0
    let slot := bits v 3 1
    let p := reg s (k + Rg.sec.KEYPROG)
    let free := keyBusy s = false ∧ slotSet s enc slot = false
    let op := if enc then 1 ≤ slot ∧ slot ≤ 2 else 2 ≤ slot ∧ slot ≤ 5
    let counted (t : State) : Prop := PutOnly .sec 0 [k + Rg.hdr.ERRCNT] s t ∧ reg t (k + Rg.hdr.ERRCNT) = satAdd (reg s (k + Rg.hdr.ERRCNT)) 1
    (Reaches who .sec 0 Rg.sec.KEYPROG s →
      (bits v 31 16 = 0x6B59 → free → op → ∃ t, exec (.keyProgram who v) s = .next t ∧
        PutOnly .sec 0 [k + Rg.sec.KEYPROG] s t ∧
        reg t (k + Rg.sec.KEYPROG) = v &&& 0xFFFF000F) ∧
      (¬ (bits v 31 16 = 0x6B59 ∧ free ∧ op) → ∃ t, exec (.keyProgram who v) s = .next t ∧ counted t) ∧
      (slot < (if enc then 3 else 6) → ∃ t, exec (.keyRevoke who v) s = .next t ∧
        Keeps [.fuses] [] (putPages .sec 0) s t ∧
        (if enc then t.fuses = { s.fuses with encRev := s.fuses.encRev ||| BitVec.ofNat 3 (2 ^ slot) }
         else t.fuses = { s.fuses with sigRev := s.fuses.sigRev ||| BitVec.ofNat 6 (2 ^ slot) })) ∧
      ((if enc then 3 else 6) ≤ slot → ∃ t, exec (.keyRevoke who v) s = .next t ∧ counted t)) ∧
    (p = 0 → ∃ t, exec .keyProgramComplete s = .next t ∧ KeepsBut [] s t) ∧
    (p ≠ 0 → slotSet s (p.getLsbD 0) (bits p 3 1) = false → ∃ t, exec .keyProgramComplete s = .next t ∧
      Keeps [.fuses] ((k + Rg.sec.KEYPROG) :: (List.range 48).map (k + Rg.sec.KEYBUF + ·)) [] s t ∧ reg t (k + Rg.sec.KEYPROG) = 0 ∧ (∀ i, i < 12 → reg t (k + Rg.sec.KEYBUF + 4 * i) = 0) ∧
      (if p.getLsbD 0 then
        t.fuses = { s.fuses with encKeys := t.fuses.encKeys } ∧
        (t.fuses.encKeys.find? (fun e => e.1 == bits p 3 1)).map (·.2) = some (BitVec.ofNat 256 (leNat (keyBuf s 8)))
       else
        t.fuses = { s.fuses with sigKeys := t.fuses.sigKeys } ∧
        (t.fuses.sigKeys.find? (fun e => e.1 == bits p 3 1)).map (·.2) = some (BitVec.ofNat 384 (beNat (keyBuf s 12)))))

/-- No other check channel has changed. -/
def Sys2Proof.Says.ChecksBut (c : Ck) (s t : State) : Prop := ∀ d, d ≠ c → check t d = check s d

/-- A change within a check channel and the listed registers. -/
def Sys2Proof.Says.CkOnly (c : Ck) (ks : List Nat) (s t : State) : Prop :=
  Keeps [.checks] ks (blkPages c.blk) s t ∧ ChecksBut c s t

/-- A scan that ends in error: CKSTAT says so, the entry holds the scan's start and its status, event 2 (R402). -/
def Sys2Proof.Says.ScanFails (c : Ck) (rsn : BitVec 8) (ks : List Nat) (w t : State) : Prop :=
  KeepsLog [.checks] ks (blkPages c.blk) c.blk.key w t ∧ ChecksBut c w t ∧
  check t c = { check w c with busy := false, waitDep := false, err := true, reason := rsn } ∧
  (logOf t c.blk.key).head? = some ⟨1, w32 (ckStartA w c), ckStat (check t c), 0⟩ ∧
  regBit t (c.blk.key + Rg.hdr.EVPEND) 2 = true

/-- START of a check channel that is not busy clears its status and begins a scan, after the dependence where it has one, or
    ends at once with reason 1 where its configuration is invalid; polls wait for the counter; each read feeds 64 bytes into
    the CRC; at the end the result is compared and counted, a match counts at its counter; a read answered with an error ends
    the scan (R397-R403). -/
def Sys2Proof.Says.CheckChannelsScanAndCompare : Prop :=
  ∀ (c : Ck) (s : State),
    let x := check s c
    let k := c.blk.key
    let runs := issues s c.blk = true ∧ x.busy = true ∧ isGoing s c.blk = true
    let clear : Check := { x with fin := false, isMatch := false, err := false, reason := 0 }
    (∀ who, Reaches who c.blk 0 Rg.ck.CKCMD s →
      (x.busy = true → exec (.ckStart who c) s = .next s) ∧
      (x.busy = false → ckValid s c = false → ∃ t, exec (.ckStart who c) s = .next t ∧
        check t c = { clear with busy := false, waitDep := false, err := true, reason := 1 } ∧
        KeepsLog [.checks] [] (blkPages c.blk) k s t ∧ ChecksBut c s t ∧
        (logOf t k).head? = some ⟨1, w32 (ckStartA s c), ckStat (check t c), 0⟩) ∧
      (∀ p, x.busy = false → ckCrc s c = some p → ckValid s c = true → ∃ t, exec (.ckStart who c) s = .next t ∧
        CkOnly c [k + Rg.ck.CKPROG] s t ∧
        reg t (k + Rg.ck.CKPROG) = 0 ∧
        check t c = { clear with busy := true, waitDep := ckBit s c 12 && !isPriv c, crc := BitVec.ofNat 64 p.init, pos := 0,
                                 pollAt := s.clock.now, since := s.clock.now })) ∧
    (runs → x.waitDep = true → x.pollAt.toNat ≤ now s →
      let w := ckReg s c Rg.ck.CKDEP
      (∀ v, cntRead s (ckInit s c) (ckTile w) (ckCnt w) = some (0, v) →
        ∃ t, exec (.checkDependencePoll c) s = .next t ∧ CkOnly c [] s t ∧
          check t c = (if ckReg s c Rg.ck.CKDVAL ≤ v then { x with waitDep := false }
            else { x with pollAt := BitVec.ofNat 64 (now s + ckPoll s c) })) ∧
      (∀ rsn v, rsn ≠ 0 → cntRead s (ckInit s c) (ckTile w) (ckCnt w) = some (rsn, v) →
        ∃ t, exec (.checkDependencePoll c) s = .next t ∧ ScanFails c rsn [rspKey ((ckTile w).val / 16) rsn] s t)) ∧
    (∀ p, runs → x.waitDep = false → ckCrc s c = some p →
      let m := memRead s (ckInit s c) (ckStartA s c + 64 * x.pos) 64
      let v := crcEnd p x.crc.toNat
      let res := [k + Rg.ck.CKRES, k + Rg.ck.CKRESH, k + Rg.ck.CKSCANS]
      let hit := !ckBit s c 14 || ck64 s c Rg.ck.CKEXP % 2 ^ p.w == v
      (64 * x.pos < ckLen s c → m.rsn = 0 → ∃ t, exec (.checkScanRead c) s = .next t ∧
        After [.checks] [k + Rg.ck.CKPROG] (blkPages c.blk) s m.st t ∧ ChecksBut c s t ∧
        check t c = { check m.st c with crc := BitVec.ofNat 64 (ckFeed s c p x.crc.toNat (64 * x.pos) m.data), pos := x.pos + 1 } ∧
        reg t (k + Rg.ck.CKPROG) = w32 (x.pos + 1)) ∧
      (64 * x.pos < ckLen s c → m.rsn ≠ 0 → ∃ t, exec (.checkScanRead c) s = .next t ∧ ScanFails c m.rsn [] m.st t) ∧
      (ckLen s c ≤ 64 * x.pos → ∃ t, exec (.checkScanComplete c) s = .next t ∧
        reg t (k + Rg.ck.CKRES) = w32 v ∧ reg t (k + Rg.ck.CKRESH) = w32 (v / 2 ^ 32) ∧
        reg t (k + Rg.ck.CKSCANS) = satAdd (reg s (k + Rg.ck.CKSCANS)) 1 ∧ regBit t (k + Rg.hdr.EVPEND) 0 = true ∧
        (check t c).busy = false ∧ (check t c).fin = true ∧ (check t c).isMatch = hit ∧
        (hit = false → reg t (k + Rg.ck.CKMISS) = satAdd (reg s (k + Rg.ck.CKMISS)) 1 ∧
          regBit t (k + Rg.hdr.EVPEND) 1 = true ∧ CkOnly c ((k + Rg.ck.CKMISS) :: res) s t) ∧
        (hit = true → ckBit s c 13 = false ∨ isPriv c = true → CkOnly c res s t) ∧
        (hit = true → ckBit s c 13 = true → isPriv c = false →
          let w := ckReg s c Rg.ck.CKCNTX
          let u := ckTile w
          let a := Blk.key (.acnt u)
          (cntCheck s (ckInit s c) u ≠ 0 → (check t c).err = true ∧ (check t c).reason = cntCheck s (ckInit s c) u ∧ ChecksBut c s t ∧
            (logOf t k).head? = some ⟨1, w32 (ckStartA s c), ckStat (check t c), 0⟩ ∧ regBit t (k + Rg.hdr.EVPEND) 2 = true) ∧
          (cntCheck s (ckInit s c) u = 0 → cntVal t u (ckCnt w) = cntVal s u (ckCnt w) + 1 ∧ ChecksBut c s t ∧
            Keeps [.checks] (res ++ [cntKey u (ckCnt w), a + Rg.acnt.ACINC, a + Rg.acnt.ACWRAP])
              (blkPages c.blk ++ [(.acnt u, 0)]) s t)))) ∧
    (∀ rsn, issues s c.blk = true → rsn ≠ 0 → x.busy = true → x.waitDep = false →
      ∃ t, exec (.checkScanError c rsn) s = .next t ∧ ScanFails c rsn [] s t)

/-! ### The Chagus link (R444-R489) -/

/-- Nothing but a port, the registers of the listed keys and the events of the port and its lane group has changed. -/
def Sys2Proof.Says.PortOnly (p : Fin 96) (ks : List Nat) (s t : State) : Prop :=
  Keeps [.ports] ks (portPages p) s t ∧ ∀ q, q ≠ p → port t q = port s q

/-- As `PortOnly`, with one entry of the port's log. -/
def Sys2Proof.Says.PortLogs (p : Fin 96) (ks : List Nat) (s t : State) : Prop :=
  KeepsLog [.ports] ks (portPages p) (ptKey p) s t ∧ ∀ q, q ≠ p → port t q = port s q

/-- A command has no effect. -/
def Sys2Proof.Says.Still (i : Instr) (s : State) : Prop := exec i s = .next s

/-- The keys of the equalization a lane group applies. -/
def Sys2Proof.Says.eqKeys (p : Fin 96) : List Nat := (List.range 16).map (fun l => lgKey p + Rg.lgrp.EQEFF + 4 * l)

/-- The keys of the error counters of lanes. -/
def Sys2Proof.Says.laneKeys (p : Fin 96) (viol disp : List (Fin 16)) : List Nat :=
  viol.map (fun l => lgKey p + Rg.lgrp.CVCNT + 8 * l.val) ++ disp.map (fun l => lgKey p + Rg.lgrp.DISPCNT + 8 * l.val)

/-- The ordered sets that a port in UP sends, or, in Mist, keeps for its exit (R461). -/
def Sys2Proof.Says.Emits (x y : Port) (l : List LOut) : Prop :=
  if x.txMist then y.due = x.due ++ l ∧ y.out = x.out else y.out = x.out ++ l ∧ y.due = x.due

/-- The port retrains: counted, event 1 (R459). -/
def Sys2Proof.Says.Retrains (p : Fin 96) (s t : State) : Prop :=
  (port t p).ls = .retrain ∧ (port t p).selfPass = false ∧ (port t p).peerPass = false ∧ (port t p).rxMist = false ∧
  (port t p).txMist = false ∧
  (port t p).startAt = s.clock.now ∧ (port t p).qualAt = s.clock.now ∧ PortLogs p [ptKey p + Rg.port.RETRAINS] s t ∧
  (logOf t (ptKey p)).head? = some ⟨w32 (3 + (port s p).rate * 2 ^ 8), 0, 0, 0⟩ ∧
  reg t (ptKey p + Rg.port.RETRAINS) = satAdd (reg s (ptKey p + Rg.port.RETRAINS)) 1 ∧
  regBit t (ptKey p + Rg.hdr.EVPEND) 1 = true

/-- A bring-up attempt begins at rate 0 (R453, R455). -/
def Sys2Proof.Says.Trains (p : Fin 96) (s t : State) : Prop :=
  let x := port s p
  port t p = { x with ls := .train, rate := 0, target := 0, settled := false, selfPass := false, peerPass := false,
                      startAt := s.clock.now, retryAt := none, attempts := min 255 (x.attempts + 1) } ∧
  (∀ l, l < 16 → reg t (lgKey p + Rg.lgrp.EQEFF + 4 * l) = eqEff s p l 0) ∧
  reg t (lgKey p + Rg.lgrp.LGSTAT) = 0 ∧ PortOnly p ((lgKey p + Rg.lgrp.LGSTAT) :: eqKeys p) s t

/-- A bring-up attempt fails with a cause: another follows after 1 ms with AUTORETRY, up to three failures in a row (R455). -/
def Sys2Proof.Says.AttemptFails (p : Fin 96) (cause : Nat) (s t : State) : Prop :=
  let x := port s p
  let again := regBit s (ptKey p + Rg.port.PCTL) 5 && decide (x.fails + 1 < 3)
  (port t p).fails = x.fails + 1 ∧ (port t p).failCause = BitVec.ofNat 4 cause ∧
  (port t p).ls = (if again then .down else .failed) ∧
  (port t p).retryAt = (if again then some (BitVec.ofNat 64 (now s + 1000000)) else none) ∧
  (logOf t (ptKey p)).head? = some ⟨w32 (1 + x.rate * 2 ^ 8 + cause * 2 ^ 12), 0, 0, 0⟩

/-- The ordered sets: one not equal on all lanes, or of no meaning, is discarded and counted; FILL does nothing; ALIGN aligns;
    ACK frees the replay buffer up to its frame, NAK sends again from its frame on, CREDIT, PAUSE and EIOS act in UP
    (R447-R449, R460, R467-R471). -/
def Obligations.OrderedSetsAct : Prop :=
  ∀ (p : Fin 96) (w : BitVec 24) (s : State), live s (.port p) = true →
    let x := port s p
    let k := ptKey p
    let all : OsLanes := List.replicate 16 w
    let q := seqOf w
    let bad (i : Instr) : Prop := ∃ t, exec i s = .next t ∧ Keeps [] [k + Rg.port.OSERR] [] s t ∧
      reg t (k + Rg.port.OSERR) = (if linkRuns x then satAdd (reg s (k + Rg.port.OSERR)) 1 else reg s (k + Rg.port.OSERR))
    (w = 0x505050 → Still (.fillSet p all) s) ∧
    (w ≠ 0x505050 → bad (.fillSet p all)) ∧
    (∀ l : OsLanes, l.length = 16 → (∃ v ∈ l, v ≠ l.headD 0) →
      ∀ i ∈ [Instr.fillSet p l, .ack p l, .nak p l, .credit p l, .pause p l, .eios p l], bad i) ∧
    (∀ (l : OsLanes) (skew : BitVec 7), l.length = 16 →
      let good := (List.range 16).map (fun i => BitVec.ofNat 24 (i + (255 - i) * 2 ^ 8))
      (l ≠ good → bad (.align p l skew)) ∧
      (linkRuns x = true → l = good → skew.toNat ≤ 64 → ∃ t, exec (.align p l skew) s = .next t ∧
        PortOnly p [lgKey p + Rg.lgrp.LGSKEW] s t ∧
        port t p = { x with rxMist := false } ∧ reg t (lgKey p + Rg.lgrp.LGSKEW) = w32 skew.toNat)) ∧
    (x.ls ≠ .up → ∀ i ∈ [Instr.ack p all, .nak p all, .credit p all, .pause p all, .eios p all, .alignmentLoss p,
      .mistRelockTimeout p, .linkReplayTimeout p], Still i s) ∧
    (x.ls = .up →
      (∀ pre f post, x.replay = pre ++ f :: post → f.seq = q → (∀ g ∈ pre, g.seq ≠ q) → ∃ t, exec (.ack p all) s = .next t ∧
        port t p = { x with replay := post, replays := 0, ackAt := s.clock.now, idleAt := s.clock.now } ∧
        Keeps [.ports, .ctxs] [] (portPages p) s t ∧ ((∀ g ∈ pre ++ [f], g.typ ≠ 0) → PortOnly p [] s t) ∧
        (∀ j y side pos, pre = [] → f.typ = 0 → f.src = .ctx j y side pos → t.ctxs = (portBack s j y side pos 0 []).ctxs)) ∧
      ((∀ g ∈ x.replay, g.seq ≠ q) → Still (.ack p all) s ∧ Still (.nak p all) s) ∧
      ((∃ g ∈ x.replay, g.seq = q) →
        (x.replays < 3 → ∃ t, exec (.nak p all) s = .next t ∧ PortOnly p [] s t ∧ port t p = { x with
          replay := x.replay.map (fun f => if (f.seq - q).toNat < 0x8000 then { f with sent := false } else f),
          replays := x.replays + 1, ackAt := s.clock.now }) ∧
        (3 ≤ x.replays → ∃ t, exec (.nak p all) s = .next t ∧ Retrains p s t)) ∧
      (osSym w 1 < 3 → ∃ t, exec (.credit p all) s = .next t ∧ PortOnly p [] s t ∧ port t p = { x with
        peerFreed := tset 0 x.peerFreed (osSym w 1) (BitVec.ofNat 16 (osSym w 2 * 256 + osSym w 3)) }) ∧
      (3 ≤ osSym w 1 → bad (.credit p all)) ∧
      (let again := ∃ u, x.lastPause = some (q, u) ∧ 4 * (now s - u.toNat) ≤ 8 * symQ x.rate
       let none_ := again ∨ (q = 0 ∧ x.paused = none)
       let from_ := match x.paused with | some (a, _) => a | none => s.clock.now
       (none_ → Still (.pause p all) s) ∧
       (¬ none_ → ∃ t, exec (.pause p all) s = .next t ∧
         PortOnly p (if q = 0 then [k + Rg.port.PAUSERX, k + Rg.port.PAUSENS] else [k + Rg.port.PAUSERX]) s t ∧
         reg t (k + Rg.port.PAUSERX) = satAdd (reg s (k + Rg.port.PAUSERX)) 1 ∧
         (q ≠ 0 → port t p = { x with lastPause := some (q, s.clock.now),
                                      paused := some (from_, BitVec.ofNat 64 (now s + q.toNat * quantum x)) }) ∧
         (∀ a b, q = 0 → x.paused = some (a, b) → port t p = { x with lastPause := some (q, s.clock.now), paused := none } ∧
           reg t (k + Rg.port.PAUSENS) = satAdd (reg s (k + Rg.port.PAUSENS)) (min (now s) b.toNat - a.toNat)))) ∧
      (∃ t, exec (.eios p all) s = .next t ∧ port t p = { x with rxMist := true } ∧ PortOnly p [] s t) ∧
      (∃ t, exec (.alignmentLoss p) s = .next t ∧ Retrains p s t) ∧
      (x.rxMist = true → ∃ t, exec (.mistRelockTimeout p) s = .next t ∧ Retrains p s t) ∧
      (x.rxMist = false → Still (.mistRelockTimeout p) s) ∧
      (let late := x.replay ≠ [] ∧ x.ackAt.toNat + replayTo s p ≤ now s
       (¬ late → Still (.linkReplayTimeout p) s) ∧
       (late → x.replays < 3 → ∃ t, exec (.linkReplayTimeout p) s = .next t ∧ PortOnly p [] s t ∧ port t p = { x with
         replay := x.replay.map (fun f => { f with sent := false }), replays := x.replays + 1, ackAt := s.clock.now }) ∧
       (late → 3 ≤ x.replays → ∃ t, exec (.linkReplayTimeout p) s = .next t ∧ Retrains p s t)))

/-- A training sequence that its sums and its equality on the lanes accept (R453). -/
def Sys2Proof.Says.TsValid (lanes : List (List Byte)) : Prop :=
  (∀ l ∈ lanes, tsSum l = true) ∧
  ∀ l ∈ lanes, ∀ i, i < 15 → i = 0 ∨ i = 2 ∨ tsSym l i = tsSym (lanes.headD []) i

/-- Bring-up: it starts where port and lane group run, ends in failure 1 ms before another where no peer answers, takes the
    highest rate both offer, qualifies each rate, steps up one at a time and back where one fails, and comes up with the
    peer's credits when both are ready; retraining returns to UP or fails (R450-R459). -/
def Obligations.BringUpFollowsItsStates : Prop :=
  ∀ (p : Fin 96) (s : State), live s (.port p) = true →
    let x := port s p
    let fails (i : Instr) (cause : Nat) (ks : List Nat) : Prop := ∃ t, exec i s = .next t ∧ AttemptFails p cause s t ∧
      PortLogs p ks s t ∧ (port t p).rate = x.rate ∧ (port t p).tags = x.tags
    let stepsBack (i : Instr) (ks : List Nat) : Prop := ∃ t, exec i s = .next t ∧
      port t p = { x with ls := .step, settled := true } ∧ PortLogs p ks s t ∧
      (logOf t (ptKey p)).head? = some ⟨w32 (2 + x.rate * 2 ^ 8), 0, 0, 0⟩
    (mayTrain s p = true → x.ls = .down → x.retryAt = none → ∃ t, exec (.bringUpStart p) s = .next t ∧ Trains p s t) ∧
    (¬ (mayTrain s p = true ∧ x.ls = .down ∧ x.retryAt = none) → Still (.bringUpStart p) s) ∧
    (∀ u, x.retryAt = some u →
      (u.toNat ≤ now s → mayTrain s p = true → ∃ t, exec (.autoretryRestart p) s = .next t ∧ Trains p s t) ∧
      (now s < u.toNat → Still (.autoretryRestart p) s)) ∧
    (x.ls = .train → x.startAt.toNat + 100000000 ≤ now s → fails (.bringUpTimeout p) 1 []) ∧
    (x.ls ≠ .train ∨ now s < x.startAt.toNat + 100000000 → Still (.bringUpTimeout p) s) ∧
    (x.ls = .retrain → x.startAt.toNat + 100000 ≤ now s → ∃ t, exec (.retrainTimeout p) s = .next t ∧
      AttemptFails p 5 s t ∧ (port t p).replay = [] ∧ (port t p).rxHeld = 0 ∧
      KeepsLog [.ports, .ctxs] [ptKey p + Rg.port.PAUSENS, ptKey p + Rg.port.ABANDON] (portPages p) (ptKey p) s t ∧
      ∀ q, q ≠ p → port t q = port s q) ∧
    (x.ls ≠ .retrain ∨ now s < x.startAt.toNat + 100000 → Still (.retrainTimeout p) s) ∧
    (x.ls ≠ .step → Still (.rateStepComplete p) s) ∧
    (x.ls = .step →
      let r := if x.settled then x.rate - 1 else x.rate + 1
      ∃ t, exec (.rateStepComplete p) s = .next t ∧ PortOnly p (eqKeys p) s t ∧
        port t p = { x with rate := r, ls := .qualify, qualAt := s.clock.now, selfPass := false, peerPass := false } ∧
        ∀ l, l < 16 → reg t (lgKey p + Rg.lgrp.EQEFF + 4 * l) = eqEff s p l r) ∧
    (∀ viol disp : List (Fin 16),
      let q := Instr.qualifyComplete p viol disp
      (viol ≠ [] ∨ disp ≠ [] →
        (x.ls = .qualify → x.rate = 0 ∨ x.settled = true → fails q 3 (laneKeys p viol disp)) ∧
        (x.ls = .qualify → ¬ (x.rate = 0 ∨ x.settled = true) → stepsBack q (laneKeys p viol disp)) ∧
        (x.ls = .retrain → ∃ t, exec q s = .next t ∧ port t p = { x with qualAt := s.clock.now } ∧
          PortOnly p (laneKeys p viol disp) s t)) ∧
      (linkRuns x = true → x.ls ≠ .qualify → x.ls ≠ .retrain → ∃ t, exec q s = .next t ∧
        Keeps [] (laneKeys p viol disp) (portPages p) s t) ∧
      (viol = [] → disp = [] → x.ls = .qualify ∨ x.ls = .retrain →
        let n := 2 ^ (if x.ls = .retrain then qualLog s p - 4 else qualLog s p)
        (now s < x.qualAt.toNat + symNs x.rate n → Still q s) ∧
        (x.qualAt.toNat + symNs x.rate n ≤ now s → ∃ t, exec q s = .next t ∧ PortOnly p [] s t ∧ (port t p).selfPass = true ∧
          (port t p).ls = (if x.peerPass = false then x.ls else if x.ls = .retrain then .up
            else if x.rate < x.target ∧ x.settled = false then .step else .qualify)))) ∧
    (∀ (lanes : List (List Byte)) (pol : BitVec 16), wellFormed (.ts p lanes pol) = true → linkRuns x = true →
      let l0 := lanes.headD []
      let i := Instr.ts p lanes pol
      let order := ∀ n, n < 16 → tsSym (lanes.getD n []) 2 = n
      let both := tsSym l0 3 % 32 &&& ownRates s p
      let flag (n : Nat) := nbit (tsSym l0 5) n
      let heard := [lgKey p + Rg.lgrp.LGSTAT, ptKey p + Rg.port.PEERID]
      (¬ TsValid lanes → x.ls ≠ .qualify → ∃ t, exec i s = .next t ∧ Keeps [] [ptKey p + Rg.port.OSERR] [] s t ∧
        reg t (ptKey p + Rg.port.OSERR) = satAdd (reg s (ptKey p + Rg.port.OSERR)) 1) ∧
      (TsValid lanes → ¬ order → x.ls = .train ∨ x.ls = .qualify ∨ x.ls = .step → fails i 2 []) ∧
      (TsValid lanes → order →
        (x.ls = .train → both = 0 → fails i 4 heard) ∧
        (x.ls = .train → both ≠ 0 → ∃ t, exec i s = .next t ∧ PortOnly p heard s t ∧ port t p = { x with
            target := Nat.log2 both, ls := .qualify, qualAt := s.clock.now, selfPass := false, peerPass := false } ∧
          reg t (ptKey p + Rg.port.PEERID) =
            w32 (tsSym l0 6 * 256 + tsSym l0 7 + tsSym l0 8 % 128 * 2 ^ 16 + tsSym l0 3 % 32 * 2 ^ 24) ∧
          reg t (lgKey p + Rg.lgrp.LGSTAT) = w32 (0xFFFF + pol.toNat * 2 ^ 16)) ∧
        (x.ls = .qualify → tsSym l0 4 % 8 = x.rate →
          (flag 1 = true → x.rate = 0 ∨ x.settled = true → fails i 3 []) ∧
          (flag 1 = true → ¬ (x.rate = 0 ∨ x.settled = true) → stepsBack i []) ∧
          (flag 1 = false → flag 0 = true → x.selfPass = false → ∃ t, exec i s = .next t ∧
            port t p = { x with peerPass := true } ∧ PortOnly p [] s t) ∧
          (flag 1 = false → flag 0 = true → flag 2 = true → x.selfPass = true → x.rate = x.target ∨ x.settled = true →
            ∃ t, exec i s = .next t ∧ PortOnly p [] s t ∧ (port t p).ls = .up ∧ (port t p).txSeq = 0 ∧ (port t p).rxSeq = 0 ∧
              (port t p).replay = [] ∧ (port t p).fails = 0 ∧
              ∀ v, v < 3 → tget 0 (port t p).adv v = tsSym l0 (9 + 2 * v) * 256 + tsSym l0 (10 + 2 * v))) ∧
        (x.ls = .retrain → flag 0 = true → ∃ t, exec i s = .next t ∧ PortOnly p [] s t ∧ (port t p).peerPass = true ∧
          (port t p).ls = (if x.selfPass then .up else .retrain) ∧
          (x.selfPass = true → (port t p).out = x.out ++ x.due ∧ (port t p).due = [])) ∧
        (x.ls = .up → flag 3 = true → ∃ t, exec i s = .next t ∧ Retrains p s t)))

/-- Sending in UP: frames to be resent first, then a new one its credits cover, in sequence, kept until acknowledged;
    nothing in Mist or a pause; Mist is entered when idle and left when something is due; pauses end and are counted, PAUSE
    goes out twice; requests are abandoned at their limit and their tags held, then freed (R460-R462, R464, R468-R472,
    R475, R476). -/
def Sys2Proof.Says.PortsSendPauseAndAbandon : Prop :=
  ∀ (p : Fin 96) (s : State), live s (.port p) = true →
    let x := port s p
    let k := ptKey p
    let w := ptReg s p Rg.port.PAUSECFG
    (x.ls ≠ .up → ∀ i ∈ [Instr.frameTransmit p, .mistEntry p, .mistExit p, .ackCreditRepeat p, .autopauseRepeat p], Still i s) ∧
    (x.ls = .up →
      (x.txMist = true ∨ x.paused ≠ none → Still (.frameTransmit p) s) ∧
      (x.txMist = false → x.paused = none →
        (∀ f, x.replay.find? (fun f => !f.sent) = some f → ∃ t, exec (.frameTransmit p) s = .next t ∧
          PortOnly p [k + Rg.port.REPLAYS] s t ∧ (port t p).out = x.out ++ [.frame { f with sent := true }] ∧
          (port t p).replay = x.replay.map (fun h => if h = f then { f with sent := true } else h) ∧
          (port t p).txq = x.txq ∧ (port t p).txSeq = x.txSeq ∧
          reg t (k + Rg.port.REPLAYS) = satAdd (reg s (k + Rg.port.REPLAYS)) 1) ∧
        ((∀ f ∈ x.replay, f.sent = true) →
          (nextFrame x [] x.txq = none → Still (.frameTransmit p) s) ∧
          (∀ f, nextFrame x [] x.txq = some f →
            let g := { f with seq := x.txSeq, sent := true }
            ∃ t, exec (.frameTransmit p) s = .next t ∧ PortOnly p [k + Rg.port.TXFRAMES, k + Rg.port.TXBYTES] s t ∧
              (port t p).out = x.out ++ [.frame g] ∧
              (port t p).replay = x.replay ++ [g] ∧ (port t p).txq = x.txq.erase f ∧ (port t p).txSeq = x.txSeq + 1 ∧
              tget 0 (port t p).spent (vcOf f.typ) = (tget 0 x.spent (vcOf f.typ) + frameCred f) % 65536 ∧
              reg t (k + Rg.port.TXFRAMES) = satAdd (reg s (k + Rg.port.TXFRAMES)) 1 ∧
              reg t (k + Rg.port.TXBYTES) = satAdd (reg s (k + Rg.port.TXBYTES)) (frameCred f)))) ∧
      (let idle := regBit s (k + Rg.port.PCTL) 4 = true ∧ x.txMist = false ∧ x.txq = [] ∧ x.replay = [] ∧
         x.idleAt.toNat + mistIdle s p ≤ now s
       (idle → ∃ t, exec (.mistEntry p) s = .next t ∧ PortOnly p [] s t ∧
         port t p = { x with txMist := true, mistAt := s.clock.now, out := x.out ++ [.eios] }) ∧
       (¬ idle → Still (.mistEntry p) s)) ∧
      (let leave := x.txMist = true ∧ (x.due ≠ [] ∨ x.txq ≠ []) ∧ x.mistAt.toNat + symNs x.rate 128 ≤ now s
       (leave → ∃ t, exec (.mistExit p) s = .next t ∧ PortOnly p [] s t ∧
         port t p = { x with txMist := false, idleAt := s.clock.now, out := x.out ++ [.burst, .align] ++ x.due, due := [] }) ∧
       (¬ leave → Still (.mistExit p) s)) ∧
      (x.txMist = true → Still (.ackCreditRepeat p) s) ∧
      (x.txMist = false → ∃ t, exec (.ackCreditRepeat p) s = .next t ∧ PortOnly p [] s t ∧ port t p = { x with out := x.out ++
        [.ack (x.rxSeq - 1), .credit 0 (tget 0 x.freed 0), .credit 1 (tget 0 x.freed 1), .credit 2 (tget 0 x.freed 2)] }) ∧
      (∀ u, x.autoAt = some u →
        let again := regBit s (k + Rg.port.PCTL) 7 = true ∧ 4096 * bits w 22 16 ≤ x.rxHeld ∧
          u.toNat + bits w 15 0 * quantum x / 2 ≤ now s
        (again → ∃ t, exec (.autopauseRepeat p) s = .next t ∧ PortOnly p [] s t ∧ (port t p).autoAt = some s.clock.now ∧
          Emits x (port t p) [.pause (BitVec.ofNat 16 w.toNat), .pause (BitVec.ofNat 16 w.toNat)]) ∧
        (¬ again → Still (.autopauseRepeat p) s))) ∧
    (∀ a b, x.paused = some (a, b) →
      (b.toNat ≤ now s → ∃ t, exec (.pauseExpiry p) s = .next t ∧ PortOnly p [k + Rg.port.PAUSENS] s t ∧
        port t p = { x with paused := none } ∧
        reg t (k + Rg.port.PAUSENS) = satAdd (reg s (k + Rg.port.PAUSENS)) (b.toNat - a.toNat)) ∧
      (now s < b.toNat → Still (.pauseExpiry p) s)) ∧
    (∀ (who : Init) (v : W32),
      (Reaches who (.port p) 0 Rg.port.PAUSETX s →
        (x.ls = .up → v.getLsbD 16 = true → ∃ t, exec (.pausetxSend who p v) s = .next t ∧ PortOnly p [] s t ∧
          Emits x (port t p) [.pause (BitVec.ofNat 16 v.toNat), .pause (BitVec.ofNat 16 v.toNat)]) ∧
        (x.ls ≠ .up ∨ v.getLsbD 16 = false → Still (.pausetxSend who p v) s)) ∧
      (Reaches who (.port p) 0 Rg.port.RXHEAD s → ∃ t, exec (.rxheadWrite who p v) s = .next t ∧
        bits (reg t (k + Rg.port.RXHEAD)) 11 0 = bits v 11 0 ∧ PutOnly (.port p) 0 [k + Rg.port.RXHEAD] s t)) ∧
    (∀ tag : BitVec 12,
      let g := tget tag0 x.tags tag.toNat
      let due := g.at_.toNat + 1000 * g.rqto ≤ now s
      (g.out = true → due → ∃ t, exec (.requestAbandon p tag) s = .next t ∧
        KeepsLog [.ports, .ctxs] [k + Rg.port.ABANDON] (portPages p) k s t ∧ (∀ q, q ≠ p → port t q = port s q) ∧
        tget tag0 (port t p).tags tag.toNat =
          { g with out := false, held := true, at_ := s.clock.now, epoch := g.epoch + 1, src := .nobody } ∧
        reg t (k + Rg.port.ABANDON) = satAdd (reg s (k + Rg.port.ABANDON)) 1 ∧ regBit t (k + Rg.hdr.EVPEND) 5 = true ∧
        (∀ j y side pos, g.src = .ctx j y side pos → t.ctxs = (portBack s j y side pos Rsn.stopped []).ctxs)) ∧
      (¬ (g.out = true ∧ due) → Still (.requestAbandon p tag) s) ∧
      (g.held = true → due → ∃ t, exec (.tagHoldExpiry p tag) s = .next t ∧ PortOnly p [] s t ∧
        tget tag0 (port t p).tags tag.toNat = { tag0 with epoch := g.epoch }) ∧
      (¬ (g.held = true ∧ due) → Still (.tagHoldExpiry p tag) s))

/-- The state in which an accepted frame is acted on: its sequence number taken and acknowledged, its bytes counted (R466). -/
def Sys2Proof.Says.taken (p : Fin 96) (f : LFrame) (s : State) : State :=
  let x := port s p
  bump (emit p [.ack x.rxSeq] (updPort s p (fun x => { x with rxSeq := x.rxSeq + 1, nakFor := none })))
    (ptKey p + Rg.port.RXBYTES) ((32 + f.pay.length + 63) / 64)

/-- A frame in UP: a wrong CRC or a gap asks for the frame expected, a repeat is counted, a bad header logged; a message
    fills buffers of the ring, is cut short or dropped where it has none; a request is served on the network in 64-byte
    accesses or answered with a reason; a response completes its tag or is stale (R464-R467, R473-R482). -/
def Sys2Proof.Says.FramesAreCheckedAndServed : Prop :=
  ∀ (p : Fin 96) (f : LFrame) (s : State), live s (.port p) = true → f.wf = true →
    let x := port s p
    let k := ptKey p
    let rows := [Instr.messageFrame p f, .readRequestFrame p f, .writeRequestFrame p f, .readResponseFrame p f,
      .writeCompletionFrame p f]
    let w0 := leNat (f.hdr.take 4)
    let w1 := leNat ((f.hdr.drop 4).take 4)
    let typ := w0 / 2 ^ 16 % 16
    let len := w1 % 2 ^ 12
    let seq := BitVec.ofNat 16 (leNat (f.hdr.take 2))
    let d := (seq - x.rxSeq).toNat
    let units := (32 + f.pay.length + 63) / 64
    let crc := crcOf crc32c (f.hdr ++ f.pay) = f.crc.toNat
    let asked := ∃ u, x.nakFor = some (x.rxSeq, u) ∧ now s < u.toNat + replayTo s p
    let naks (ks : List Nat) (t : State) : Prop := PortOnly p ks s t ∧ (asked → port t p = x) ∧
      (¬ asked → Emits x (port t p) [.nak x.rxSeq] ∧ (port t p).nakFor = some (x.rxSeq, s.clock.now) ∧
        (port t p).rxSeq = x.rxSeq)
    (x.ls ≠ .up → ∀ i ∈ rows, Still i s) ∧
    (x.ls = .up →
      (¬ crc → ∀ i ∈ rows, ∃ t, exec i s = .next t ∧ naks [k + Rg.port.CRCERR] t ∧
        reg t (k + Rg.port.CRCERR) = satAdd (reg s (k + Rg.port.CRCERR)) 1) ∧
      (crc → 0x8000 ≤ d → ∀ i ∈ rows, ∃ t, exec i s = .next t ∧ Keeps [] [k + Rg.port.DUPCNT] [] s t ∧
        reg t (k + Rg.port.DUPCNT) = satAdd (reg s (k + Rg.port.DUPCNT)) 1) ∧
      (crc → 0 < d → d < 0x8000 → ∀ i ∈ rows, ∃ t, exec i s = .next t ∧ naks [] t) ∧
      (crc → d = 0 →
        (badHeader f.hdr f.pay = true → ∀ i ∈ rows, ∃ t, exec i s = .next t ∧ (port t p).rxSeq = x.rxSeq + 1 ∧
          reg t (k + Rg.port.BADHDR) = satAdd (reg s (k + Rg.port.BADHDR)) 1 ∧
          (logOf t k).head?.map (fun e => bits e.w0 7 0) = some 8 ∧ PortLogs p [k + Rg.port.RXBYTES, k + Rg.port.BADHDR] s t) ∧
        (badHeader f.hdr f.pay = false →
          (typ = 0 →
            let v := freeCred p 2 units (taken p f s)
            let b := fillBufs p 16 (rxTail v p % rxSize v p) 16
              (leBytes 4 len ++ leBytes 4 (leNat (f.hdr.take 2)) ++ (f.hdr.drop 8).take 4 ++ leBytes 4 0 ++ f.pay.take len) v
            let z := returnBufs p len false true b.1 b.2.2
            let n (o : Nat) (u t : State) : Prop := reg t (k + o) = satAdd (reg u (k + o)) 1
            (isStopped s (.port p) = true → ∃ t, exec (.messageFrame p f) s = .next t ∧ n Rg.port.RXSTOPDROP s t ∧
              PortOnly p [k + Rg.port.RXBYTES, k + Rg.port.RXSTOPDROP] s t) ∧
            (isStopped s (.port p) = false → rxEn s p = false → ∃ t, exec (.messageFrame p f) s = .next t ∧
              n Rg.port.RXNOBUF s t ∧ regBit t (k + Rg.hdr.EVPEND) 3 = true ∧
              PortOnly p [k + Rg.port.RXBYTES, k + Rg.port.RXNOBUF] s t) ∧
            (isStopped s (.port p) = false → rxEn s p = true →
              (b.1 = [] → ∃ t, exec (.messageFrame p f) s = .next t ∧ n Rg.port.RXNOBUF b.2.2 t ∧
                regBit t (k + Rg.hdr.EVPEND) 3 = true) ∧
              (b.1 ≠ [] → b.2.1 = false → ∃ t, exec (.messageFrame p f) s = .next t ∧
                n Rg.port.RXTRUNC (returnBufs p len true true b.1 b.2.2).2 t ∧ regBit t (k + Rg.hdr.EVPEND) 3 = true) ∧
              (b.1 ≠ [] → b.2.1 = true → z.1 = true → ∃ t, exec (.messageFrame p f) s = .next t ∧
                n Rg.port.RXFRAMES z.2 t ∧ regBit t (k + Rg.hdr.EVPEND) 2 = true ∧
                (regBit z.2 (k + Rg.port.RXCFG) 1 = false → From [.regs] s z.2 t ∧
                  RegsBut ((k + Rg.port.RXFRAMES) :: evKeys (portPages p)) z.2 t)))) ∧
          (typ = 1 ∨ typ = 2 →
            let i := if typ = 1 then Instr.readRequestFrame p f else .writeRequestFrame p f
            let a := leNat ((f.hdr.drop 8).take 4) + leNat ((f.hdr.drop 12).take 2) * 2 ^ 32
            let tag := BitVec.ofNat 12 (w1 / 2 ^ 16)
            let ep := BitVec.ofNat 2 (w1 / 2 ^ 28)
            let rw := regBit s (k + Rg.port.PCTL) 6
            let refused (r : BitVec 8) : Prop := ∃ t, exec i s = .next t ∧
              PortOnly p [k + Rg.port.RXBYTES] s t ∧ (port t p).txq = x.txq ++
              [{ frame0 with typ := if typ = 1 then 3 else 4, tag := tag, epoch := ep, word2 := w32 r.toNat }]
            (rw = false → refused Rsn.partition) ∧
            (rw = true → isStopped s (.port p) = true → refused Rsn.stopped) ∧
            (rw = true → isStopped s (.port p) = false → issues s (.port p) = true → (∀ y ∈ x.serves, y.issued = true) →
              x.serves.length < 256 → ∃ t, exec i s = .next t ∧ Keeps [.ports, .net] [k + Rg.port.RXBYTES, k + Rg.port.RXWM,
                  Blk.key (.ptab (100 + p.val / 32)) + Rg.ptab.RSPERR] (portPages p) s t ∧ (∃ y ∈ (port t p).serves, y.key = x.serveNext ∧
                  y.issued = true ∧ y.left = len / 64 ∧ y.tag = tag ∧ y.epoch = ep ∧ y.addr = a ∧ y.read = (typ == 1)) ∧
                ∀ j, j < len / 64 → ∃ q ∈ t.net.pkts, q.src = .port p (x.serveNext * 64 + j) ∧ q.req.len = 64 ∧
                  q.req.addr = BitVec.ofNat 48 (a + 64 * j) ∧ q.req.kind = (if typ = 1 then .read else .write) ∧
                  (typ = 2 → q.req.data = (((f.pay.take len).drop (64 * j)).take 64)))) ∧
          (typ = 3 ∨ typ = 4 →
            let i := if typ = 3 then Instr.readResponseFrame p f else .writeCompletionFrame p f
            let j := w1 / 2 ^ 16 % 2 ^ 12
            let g := tget tag0 x.tags j
            let mine := g.out = true ∧ g.epoch = BitVec.ofNat 2 (w1 / 2 ^ 28)
            (mine → ∃ t, exec i s = .next t ∧ tget tag0 (port t p).tags j = { tag0 with epoch := g.epoch } ∧
              Keeps [.ports, .ctxs] [k + Rg.port.RXBYTES] (portPages p) s t ∧ (∀ q, q ≠ p → port t q = port s q) ∧ ∀ c y side pos, g.src = .ctx c y side pos → t.ctxs =
                (portBack s c y side pos (BitVec.ofNat 8 (leNat ((f.hdr.drop 8).take 1))) (f.pay.take len)).ctxs) ∧
            (¬ mine → ∃ t, exec i s = .next t ∧ PortOnly p [k + Rg.port.RXBYTES, k + Rg.port.STALECNT] s t ∧
              (port t p).tags = x.tags ∧
              reg t (k + Rg.port.STALECNT) = satAdd (reg s (k + Rg.port.STALECNT)) 1)))))

/-! ### Start-up, resets, the broadcaster, epochs, domains, power, supplies (R40-R53, R490-R523, R546-R556) -/

/-- The module has been reset, with pins `p`: only fuses, the timebase, the arrays, LASTSHUT and what has left the module
    stay, and it enters BOOT where its pins let it (R490, R493, R506). -/
def Sys2Proof.Says.ModuleReset (p : Pins) (s t : State) : Prop :=
  t.pending = s.pending ∧ t.fuses = s.fuses ∧ t.clock = s.clock ∧ t.pins = { p with thermtrip := false } ∧
  t.power = { power0 with mst := if pinsRun p then .boot else .reset } ∧
  t.acc = acc0 ∧ t.logs = [] ∧ t.blks = [] ∧ t.pv = [] ∧ t.bootMem = [] ∧ t.tiles = [] ∧ t.cores = [] ∧ t.banks = [] ∧
  t.stks = [] ∧ t.ctxs = [] ∧ t.chans = [] ∧ t.engs = [] ∧ t.regions = [] ∧ t.loader = loader0 ∧ t.checks = [] ∧ t.net = net0 ∧
  t.ports = [] ∧ t.ocast = ocast0 ∧ t.conc = conc0 ∧ t.dram = s.dram ∧ t.mgmt = s.mgmt ∧ t.host.out = s.host.out ∧
  ((∀ e ∈ s.banks, e.2.sweep = false) → t.scr = s.scr ∧ t.scrChk = s.scrChk) ∧
  reg t (ptmKey + Rg.ptm.LASTSHUT) = reg s (ptmKey + Rg.ptm.LASTSHUT) ∧
  ∀ k, k ≠ ptmKey + Rg.ptm.LASTSHUT →
    (∀ e ∈ s.banks, e.2.sweep = true → k ≠ Blk.key (.bank (fin 64 (e.1 / 4)) (fin 4 e.1)) + Rg.bank.SWEEPPROG) → k ∉ evKeys [(.ptm, 0), (.ptab 103, 0)] → reg t k = reg State.reset k

/-- Discovery has compared: DISCSTAT and DISCDIE hold the verdict, what an authentic board record accepts is bad from then on,
    bad domains are off, and MODSTATE follows (R498-R500). -/
def Sys2Proof.Says.Compared (board : List Byte) (rep : Report) (w t : State) : Prop :=
  let ok := boardOk w board
  let a := if ok then boardAcc board else acc0
  let ds := disagreements w a (if ok then some board else none) rep
  let st := wordOf (fun i => (i == 0 && !fprOk w.fuses.fpr) || (i == 1 && !ok) || ds.any (fun d => d.1 == i)) 10
  reg t (ptmKey + Rg.ptm.DISCSTAT) = w32 st ∧ t.acc = a ∧ t.power.mst = (if st = 0 then .ready else .mismatch) ∧
  reg t (ptmKey + Rg.ptm.DISCDIE) = (match ds with | (_, d, i) :: _ => w32 (d + i * 2 ^ 8) | [] => 0) ∧
  ∀ d, d < 95 → domOn t d = (domOn w d && !domBad { w with acc := a } d)

/-- The ROM starts the four cores at ENTRY of the first of two images that it authenticates, else the module is in BOOTFAIL;
    discovery and REDISCOVER compare the dies with the records; MODRST with its key and the firmware watchdog reset the
    module (R493-R500, R506). -/
def Sys2Proof.Says.StartUpBootsAndCompares : Prop :=
  ∀ s : State,
    (∀ image backup : List Byte,
      let a := romImage s image s.bootMem
      let b := romImage s backup a.2
      let up (img : List Byte) (m : Tab Byte) : Prop := ∃ t, exec (.romBoot image backup) s = .next t ∧ t.power.mst = .init ∧
        t.bootMem = m ∧ Keeps [.cores, .bootMem, .power] [] [(.ptm, 0)] s t ∧
        ∀ k : Fin 4, cpu t (.core k) = { proc0 with pc := BitVec.ofNat 64 (leAt img 0xC 4), live := true }
      (s.power.mst ≠ .boot → Still (.romBoot image backup) s) ∧
      (s.power.mst = .boot →
        (a.1 = true → up image a.2) ∧
        (a.1 = false → b.1 = true → up backup b.2) ∧
        (a.1 = false → b.1 = false → ∃ t, exec (.romBoot image backup) s = .next t ∧ t.power.mst = .bootfail ∧
          t.bootMem = b.2 ∧ Keeps [.bootMem, .power] [] [(.ptm, 0)] s t))) ∧
    (∀ (board : List Byte) (rep : Report),
      (s.power.mst ≠ .init → Still (.discovery board rep) s) ∧
      (s.power.mst = .init → ∃ t, exec (.discovery board rep) s = .next t ∧
        Compared board rep (memWrite s coreInit sysBase (fprBytes s.fuses.fpr)).st t ∧
        ∀ line i, i < 4 → copyOf t line i = none) ∧
      (∀ who, Reaches who .ptm 0 Rg.ptm.MODCMD s →
        (s.power.mst = .ready ∨ s.power.mst = .mismatch → ∃ t, exec (.rediscover who board rep) s = .next t ∧
          Compared board rep s t ∧ ((∀ d, d < 95 → domOn s d = true → domBad t d = false) →
            Keeps [.acc, .power] [ptmKey + Rg.ptm.DISCSTAT, ptmKey + Rg.ptm.DISCDIE] [(.ptm, 0)] s t)) ∧
        (¬ (s.power.mst = .ready ∨ s.power.mst = .mismatch) → Still (.rediscover who board rep) s))) ∧
    (∀ (who : Init) (v : W32), Reaches who .ptm 0 Rg.ptm.MODCMD s →
      let go := v.getLsbD 1 = true ∧ bits v 31 16 = 0xD1E5
      (go → ∃ t, exec (.modrst who v) s = .next t ∧ ModuleReset s.pins s t) ∧ (¬ go → Still (.modrst who v) s)) ∧
    (s.power.mst ≠ .reset → s.power.mst ≠ .boot → s.power.mst ≠ .bootfail → ∃ t, exec .zenithFirmwareWatchdog s = .next t ∧ ModuleReset s.pins s t) ∧
    (s.power.mst = .reset ∨ s.power.mst = .boot ∨ s.power.mst = .bootfail → Still .zenithFirmwareWatchdog s)

/-- The supplies and reset pins: P48 starts and, lost, stops everything but the fuses; VSB and MRST_N reset the module, a
    pulse on MRST_N below 1 µs excepted; released, and with every rail good, start-up begins; a bank supply is noted
    (R490, R546-R550, R556). -/
def Sys2Proof.Says.SuppliesAndResetPins : Prop :=
  ∀ s : State,
    let boots (q : Pins) (t : State) : Prop := t.pins = q ∧ Keeps [.pins, .power] [] [(.ptm, 0)] s t ∧
      t.power = { s.power with mst := if s.power.mst = .reset ∧ pinsRun q = true then .boot else s.power.mst }
    let resets (i : Instr) (q : Pins) : Prop :=
      (q.p48 = true → ∃ t, exec i s = .next t ∧ ModuleReset q s t) ∧
      (q.p48 = false → ∃ t, exec i s = .next t ∧ t.pins = q ∧ KeepsBut [.pins] s t)
    (s.pins.p48 = true → Still .p48InRange s) ∧
    (s.pins.p48 = false → ∃ t, exec .p48InRange s = .next t ∧ t.pins = { s.pins with p48 := true } ∧
      t.clock = { now := 0, counting := true } ∧ KeepsBut [.pins, .clock] s t) ∧
    (∃ t, exec .p48Loss s = .next t ∧ t.pending = s.pending ∧ t.fuses = s.fuses ∧ t.clock = { now := 0, counting := false } ∧
      t.pins.p48 = false ∧ t.pins.pwrgd = false ∧ t.power = power0 ∧ t.regs = [] ∧ t.logs = [] ∧ t.tiles = [] ∧ t.scr = [] ∧
      t.dram = [] ∧ t.pv = [] ∧ t.bootMem = [] ∧ t.regions = [] ∧ t.net = net0) ∧
    (∀ back : Bool, resets (.vsbLoss back) { s.pins with vsb := back }) ∧
    (∀ ns : Nat, (ns < 1000 → Still (.mrstNAssert ns) s) ∧ (1000 ≤ ns → resets (.mrstNAssert ns) { s.pins with mrstLow := true })) ∧
    (∀ straps : BitVec 3,
      (s.pins.mrstLow = false → Still (.mrstNRelease straps) s) ∧
      (s.pins.mrstLow = true → ∃ t, exec (.mrstNRelease straps) s = .next t ∧
        boots { s.pins with mrstLow := false, straps := straps } t)) ∧
    (s.pins.p48 = true → s.pins.vsb = true → ∃ t, exec .pwrgdRelease s = .next t ∧ boots { s.pins with pwrgd := true } t) ∧
    (s.pins.p48 = false ∨ s.pins.vsb = false → Still .pwrgdRelease s) ∧
    (∀ (b : Fin 16) (above : Bool), ∃ t, exec (.vioSupplyChange b above) s = .next t ∧ KeepsBut [.pins] s t ∧
      t.pins = { s.pins with vio := t.pins.vio } ∧ t.pins.vio.getLsbD b.val = above ∧
      ∀ i, i < 16 → i ≠ b.val → t.pins.vio.getLsbD i = s.pins.vio.getLsbD i)

/-- The broadcaster reads its source and sends packets that tiles of its mask take into IM or DM, or fail; complete, the
    failing tiles are recorded and logged, every tile of the mask where the source could not be read. EPOCH asks every unit for an epoch, each applies it with its mode at its idle
    boundary, and after 1 ms those that have not are stopped (R501-R503, R511-R513). -/
def Obligations.BroadcastsAndEpochs : Prop :=
  ∀ s : State,
    let k := Blk.key .ocast
    let ev := ocReg s Rg.ocast.EPVAL
    let e := BitVec.ofNat 8 ev.toNat
    let refused (i : Instr) (code : W32) : Prop := ∃ t, exec i s = .next t ∧ KeepsLog [] [] (putPages .ocast 0) k s t ∧
      (logOf t k).head? = some ⟨code, 0, 0, 0⟩
    (∀ who, Reaches who .ocast 0 Rg.ocast.OCCMD s →
      (s.ocast.busy = true → refused (.ocSend who) 1) ∧
      (s.ocast.busy = false →
        let m := memRead s zenithInit (addrOf (ocReg s Rg.ocast.OCSRC &&& 0xFFFFFFC0) (ocReg s Rg.ocast.OCSRCH)).toNat (ocLen s)
        ∃ t, exec (.ocSend who) s = .next t ∧ t.ocast.busy = true ∧ t.ocast.data = m.data ∧ t.ocast.srcErr = (m.rsn != 0) ∧
          reg t (k + Rg.ocast.OCFAIL) = 0 ∧ reg t (k + Rg.ocast.OCFAIL + 4) = 0 ∧ After [.ocast] [k + Rg.ocast.OCFAIL, k + Rg.ocast.OCFAIL + 4] (putPages .ocast 0) s m.st t ∧
          ∀ u ∈ ocTiles m.st, (recvOf t u).failed = !ocTakes m.st u) ∧
      (s.ocast.epBusy = true → refused (.ocEpoch who) 1) ∧
      (s.ocast.epBusy = false → bits ev 7 0 = bits (ocReg s Rg.ocast.EPAPPLIED) 7 0 → refused (.ocEpoch who) 5) ∧
      (s.ocast.epBusy = false → bits ev 7 0 ≠ bits (ocReg s Rg.ocast.EPAPPLIED) 7 0 → ∃ t, exec (.ocEpoch who) s = .next t ∧
        Keeps [.ocast, .tiles] ((k + Rg.ocast.EPAPPLIED) :: (modeUnits s).map (fun u => u.blk.key + Rg.hdr.BLKCTL)) (putPages .ocast 0) s t ∧
        t.ocast.epUnits = modeUnits s ∧
        (∀ u ∈ modeUnits s, reqEpoch t u.blk = e) ∧
        (∀ u : Fin 64, tileOn s u = true → (cpu t (.tile u)).sevlatch.getLsbD 10 = true) ∧
        (modeUnits s ≠ [] → t.ocast.epBusy = true ∧ t.ocast.epAt = s.clock.now) ∧
        (modeUnits s = [] → t.ocast.epBusy = false ∧ reg t (k + Rg.ocast.EPAPPLIED) = ev &&& 0x1FF))) ∧
    (∀ (u : Fin 64) (d : List Byte) (last : Option W32),
      let x := recvOf s u
      let p := cpu s (.tile u)
      let at_ := ocOff s + x.pos
      let open_ := s.ocast.busy = true ∧ s.ocast.srcErr = false ∧ u ∈ ocTiles s ∧ x.fin = false ∧ x.failed = false
      (¬ open_ → Still (.overcastPacket u d last) s) ∧
      (open_ → ocTakes s u = false → ∃ t, exec (.overcastPacket u d last) s = .next t ∧ KeepsBut [.ocast] s t ∧
        recvOf t u = { x with failed := true }) ∧
      (open_ → ocTakes s u = true → ∃ t, exec (.overcastPacket u d last) s = .next t ∧ KeepsBut [.ocast, .tiles] s t ∧
        cpu t (.tile u) = (if ocDm s then { p with dm := putBytes p.dm at_ (d.take (0x10000 - at_)) }
          else { p with im := putBytes p.im at_ (d.take (0x20000 - at_)) }) ∧
        (recvOf t u).pos = x.pos + d.length ∧ (recvOf t u).fin = last.isSome ∧
        (recvOf t u).crc = w32 (crcFeed crc32c x.crc.toNat d))) ∧
    (let whole := s.ocast.busy = true ∧
       (s.ocast.srcErr = true ∨ ∀ u ∈ ocTiles s, (recvOf s u).fin = true ∨ (recvOf s u).failed = true ∨ ocTakes s u = false)
     (¬ whole → Still .broadcastComplete s) ∧
     (whole → ∃ t, exec .broadcastComplete s = .next t ∧ t.ocast.busy = false ∧ regBit t (k + Rg.hdr.EVPEND) 0 = true ∧
       reg t (k + Rg.ocast.OCCRC) = w32 (crcOf crc32c s.ocast.data) ∧
       (∀ u ∈ ocTiles s, ocFailed s u = true → regBit t (k + Rg.ocast.OCFAIL + 4 * (u.val / 32)) (u.val % 32) = true) ∧
       (s.ocast.srcErr = true → (logOf t k).head? = some ⟨2, 0, 0, 0⟩ ∧
         ∀ u ∈ ocTiles s, regBit t (k + Rg.ocast.OCFAIL + 4 * (u.val / 32)) (u.val % 32) = true) ∧
       KeepsLog [.ocast, .tiles, .frees] [k + Rg.ocast.OCCRC, k + Rg.ocast.OCFAIL, k + Rg.ocast.OCFAIL + 4] [(.ocast, 0)] k s t ∧
       (∀ u, tile t u = { tile s u with seq := { (tile s u).seq with im := (tile t u).seq.im, dm := (tile t u).seq.dm } } ∧
         (u ∉ ocTiles s ∨ ocFailed s u = false → tile t u = tile s u)) ∧
       ((∀ u ∈ ocTiles s, ocFailed s u = false) → s.ocast.srcErr = false → Keeps [.ocast] [k + Rg.ocast.OCCRC] [(.ocast, 0)] s t))) ∧
    (∀ u : ModeUnit,
      let r := reqEpoch s u.blk
      let applies := live s u.blk = true ∧ r ≠ (blkSt s u.blk).epoch ∧ idleBoundary s u = true
      let compat (t : State) : Bool := match u with
        | .row v => (tile t v).row.compat
        | .vec v => (tile t v).vec.compat
        | .nve j x => (eng t j x).compat
      (¬ applies → Still (.modeEpochApply u) s) ∧
      (applies → ∃ t, exec (.modeEpochApply u) s = .next t ∧ (blkSt t u.blk).epoch = r ∧ compat t = modeWord s ∧
        Keeps [.tiles, .engs, .blks, .ocast] [u.blk.key + Rg.hdr.BLKCTL, k + Rg.ocast.EPAPPLIED] ((.ocast, 0) :: blkPages u.blk) s t ∧
        blkSt t u.blk = { blkSt s u.blk with epoch := r } ∧ (∀ b : Blk, b.wf = true → b ≠ u.blk → blkSt t b = blkSt s b) ∧
        (s.ocast.epBusy = true → r.toNat = bits ev 7 0 → t.ocast.epUnits = s.ocast.epUnits.filter (· != u)) ∧
        (s.ocast.epBusy = false → t.ocast = s.ocast))) ∧
    (let late := s.ocast.epBusy = true ∧ s.ocast.epAt.toNat + 1000000 ≤ now s
     (¬ late → Still .epochTimeout s) ∧
     (∀ u, late → s.ocast.epUnits = [u] → ∃ t, exec .epochTimeout s = .next t ∧ t.ocast.epUnits = [] ∧ t.ocast.epBusy = false ∧
       (blkSt t u.blk).epoch = e ∧ reg t (k + Rg.ocast.EPAPPLIED) = ev &&& 0x1FF ∧
       reg t (k + Rg.ocast.EPFAIL) = w32 (u.blk.die + u.blk.code * 2 ^ 16 + u.blk.inst * 2 ^ 24) ∧
       (logOf t k).head?.map (·.w0) = some 4))

/-- A block of a die, or a tile, after its reset has asserted. -/
def Sys2Proof.Says.TileIsFresh (u : Fin 64) (s t : State) : Prop :=
  tile t u = { tile0 with vec := { unit0 with compat := (tile s u).vec.compat }, seq := { proc0 with zeroing := true } }

/-- RSTREQ resets a die once its blocks have drained, or after 1 ms; every partition with a block there has a fault. PDREQ
    refuses what R43 and R45 forbid, switches a domain on, or fences it to switch it off (R43-R45, R506-R510). -/
def Obligations.DiesAndDomainsAreResetAndSwitched : Prop :=
  ∀ s : State,
    let pk := ptmKey + Rg.ptm.PDREQSTAT
    (∀ (who : Init) (v : W32), Reaches who .ptm 0 Rg.ptm.RSTREQ s →
      let d := bits v 6 0
      let none_ := dieKind d = .none ∨ dieKind d = .zenith ∨ dieKind d = .core
      let faults (t : State) : Prop := ∀ p ∈ dieOwners s d, regBit t (Blk.key (.ptab (tableDie d)) + Rg.ptab.PTFAULT) p.toNat = true
      (v.getLsbD 8 = false → Still (.dieReset who v) s) ∧
      (v.getLsbD 8 = true → none_ → ∃ t, exec (.dieReset who v) s = .next t ∧ KeepsLog [] [] (putPages .ptm 0) ptmKey s t ∧
        (logOf t ptmKey).head? = some ⟨w32 (3 + d * 2 ^ 8), w32 Rg.ptm.RSTREQ, 0, 0⟩) ∧
      (v.getLsbD 8 = true → ¬ none_ → resetting s ((dieBlks d).headD .ptm) = false →
        (dieDrained s d = false → ∃ t, exec (.dieReset who v) s = .next t ∧ (d, s.clock.now) ∈ t.power.inReset ∧ faults t ∧
          Keeps [.power, .net] [Blk.key (.ptab (tableDie d)) + Rg.ptab.PTFAULT] ((.ptab (tableDie d), 0) :: putPages .ptm 0) s t) ∧
        (dieDrained s d = true → ∃ t, exec (.dieReset who v) s = .next t ∧ faults t ∧
          (t.power.inReset.any (fun e => e.1 == d)) = false ∧
          ∀ u : Fin 64, d = u.val / 16 → live s (.row u) = true → TileIsFresh u s t))) ∧
    (∀ (die : BitVec 7) (u : Option (Fin 64)) (a : BitVec 64),
      let key := match u with | some u => 128 + u.val | none => die.toNat
      let d := match u with | some u => u.val / 16 | none => die.toNat
      s.power.inReset.find? (fun e => e.1 == key) = some (key, a) →
      (now s < a.toNat + 1000000 → Still (.resetDrainTimeout die u) s) ∧
      (a.toNat + 1000000 ≤ now s → ∃ t, exec (.resetDrainTimeout die u) s = .next t ∧
        (t.power.inReset.any (fun e => e.1 == key)) = false ∧
        (logOf t ptmKey).head? = some ⟨w32 (2 + d * 2 ^ 8), 0, 0, 0⟩ ∧
        ∀ v, u = some v → TileIsFresh v s t)) ∧
    (∀ (who : Init) (d : BitVec 7), Reaches who .ptm 0 Rg.ptm.PDREQ s →
      let n := d.toNat
      let busy := pdBusy s = true ∨ 94 < n
      let ends (t : State) (r : W32) : Prop := t.power.pd = none ∧ reg t pk = r ∧ regBit t (ptmKey + Rg.hdr.EVPEND) 0 = true
      (busy → ∀ i ∈ [Instr.pdreqOn who d, .pdreqSleep who d, .pdreqShut who d], ∃ t, exec i s = .next t ∧
        KeepsLog [] [] (putPages .ptm 0) ptmKey s t ∧ (logOf t ptmKey).head? = some ⟨w32 (3 + n * 2 ^ 8), w32 Rg.ptm.PDREQ, 0, 0⟩) ∧
      (¬ busy →
        (∀ p ∈ [(Instr.pdreqOn who d, 0), (.pdreqSleep who d, 1), (.pdreqShut who d, 2)], pdForbids s n (p.2 == 0) = true →
          ∃ t, exec p.1 s = .next t ∧ ends t 2 ∧ KeepsLog [.power] [pk] (putPages .ptm 0) ptmKey s t ∧ domOn t n = domOn s n ∧
            (logOf t ptmKey).head? = some ⟨w32 (1 + n * 2 ^ 8), w32 (n + p.2 * 2 ^ 8), 0, 0⟩) ∧
        (pdForbids s n true = false →
          (domOn s n = true → ∃ t, exec (.pdreqOn who d) s = .next t ∧ ends t 0 ∧ t.power.on = s.power.on ∧
            Keeps [.power] [pk] (putPages .ptm 0) s t) ∧
          (domOn s n = false → ∃ t, exec (.pdreqOn who d) s = .next t ∧ t.power.pd = some (n, 0) ∧ reg t pk = 1 ∧
            t.power.waking.getLsbD n = true ∧ Keeps [.power] [pk] (putPages .ptm 0) s t)) ∧
        (pdForbids s n false = false → ∀ p ∈ [(Instr.pdreqSleep who d, 1), (.pdreqShut who d, 2)],
          (domOn s n = true → ∃ t, exec p.1 s = .next t ∧ t.power.pd = some (n, p.2) ∧ reg t pk = 1 ∧
            domFenced t n = true ∧ domOn t n = true ∧ Keeps [.power] [pk] (putPages .ptm 0) s t) ∧
          (domOn s n = false → s.power.waking.getLsbD n = false → ∃ t, exec p.1 s = .next t ∧ ends t 0 ∧
            t.power.sleep.getLsbD n = (p.2 == 1) ∧ t.power.on = s.power.on ∧ Keeps [.power] [pk] (putPages .ptm 0) s t)))) ∧
    (∀ d : Fin 95,
      let waits := s.power.waking.getLsbD d.val = true ∧ s.power.pd = some (d.val, 0)
      (¬ waits → Still (.domainSwitchedOn d) s) ∧
      (waits → ∃ t, exec (.domainSwitchedOn d) s = .next t ∧ domOn t d.val = true ∧ domFenced t d.val = false ∧
        t.power.waking.getLsbD d.val = false ∧ t.power.pd = none ∧ reg t pk = 0))

/-- FABALLOC is refused beyond a die's allocation; the average sets CAPPING; a step, at most one in 10 µs, lowers the rails
    of no fixed-share partition first, then the level, then the other rails, and is undone in reverse; temperatures are
    recorded, and a die beyond 110 °C twice shuts the module down (R514-R521). -/
def Obligations.PowerIsCappedAndTemperaturesAct : Prop :=
  ∀ s : State,
    let isCap (t : State) : Bool := t.power.overP || hot105 t || decide (t.power.lvlcap < 8) ||
      (List.range 12).any (fun i => decide (railMv t i < 720))
    let rail (t : State) (i : Nat) : W32 := reg t (ptmKey + Rg.ptm.RAILV + 4 * i)
    (∀ (who : Init) (r : Fin 16) (v : W32), Reaches who .ptm 0 (Rg.ptm.FABALLOC + 4 * r.val) s →
      let fk (i : Nat) := ptmKey + Rg.ptm.FABALLOC + 4 * i
      let sum := ((((List.range 4).map (fun q => r.val / 4 * 4 + q)).filter (· != r.val)).map (fun i => bits (reg s (fk i)) 15 0)).sum
      (12500 < sum + bits v 15 0 → ∃ t, exec (.faballocWrite who r v) s = .next t ∧ reg t (fk r.val) = reg s (fk r.val) ∧
        KeepsLog [] [] (putPages .ptm 0) ptmKey s t ∧
        (logOf t ptmKey).head? = some ⟨w32 (5 + (96 + r.val / 4) * 2 ^ 8), w32 (Rg.ptm.FABALLOC + 4 * r.val), 0, 0⟩) ∧
      (sum + bits v 15 0 ≤ 12500 → ∃ t, exec (.faballocWrite who r v) s = .next t ∧ reg t (fk r.val) = w32 (bits v 15 0) ∧
        Keeps [] [fk r.val] (putPages .ptm 0) s t)) ∧
    (∀ w : BitVec 13, ∃ t, exec (.powerAverage w) s = .next t ∧ Keeps [.power] [ptmKey + Rg.ptm.PWRIN] [(.ptm, 0)] s t ∧
      reg t (ptmKey + Rg.ptm.PWRIN) = w32 w.toNat ∧ t.power.overP = decide (bits (ptmReg s Rg.ptm.PCAP) 12 0 < w.toNat) ∧
      t.power.low = decide (100 * w.toNat < 95 * bits (ptmReg s Rg.ptm.PCAP) 12 0) ∧ t.power.capping = isCap t) ∧
    (let soon := s.power.stepAt ≠ 0 ∧ now s < s.power.stepAt.toNat + 10000
     let down := s.power.overP || hot105 s
     let above (f : Bool) := (rails s f).filter (fun i => decide (vminOf s < railMv s i))
     let below (l : List Nat) := l.filter (fun i => decide (railMv s i < 720))
     let done (t : State) : Prop := t.power.stepAt = s.clock.now ∧ t.power.capping = isCap t
     let stepped (t : State) : Prop := done t ∧ Keeps [.power] [] [(.ptm, 0)] s t
     let rk := (List.range 12).map (fun i => ptmKey + Rg.ptm.RAILV + 4 * i)
     let moves (t : State) (l : List Nat) (f : Nat → Nat) : Prop := done t ∧ KeepsLog [.power] rk [(.ptm, 0)] ptmKey s t ∧
       t.power.lvlcap = s.power.lvlcap ∧
       ∀ i, i < 12 → rail t i = (if i ∈ l then w32 (f (railMv s i)) else rail s i)
     (soon → Still .capStep s) ∧
     (¬ soon → ∃ t, exec .capStep s = .next t ∧
       (down = true → above false ≠ [] → moves t (above false) (fun v => max (vminOf s) (v - 5)) ∧ t.logs = s.logs) ∧
       (down = true → above false = [] → 1 < s.power.lvlcap → stepped t ∧ t.power.lvlcap = s.power.lvlcap - 1) ∧
       (down = true → above false = [] → s.power.lvlcap ≤ 1 → above true ≠ [] →
         moves t (above true) (fun v => max (vminOf s) (v - 5)) ∧ t.power.fsrail = true ∧
         (s.power.fsrail = true → t.logs = s.logs) ∧
         (s.power.fsrail = false → regBit t (ptmKey + Rg.hdr.EVPEND) 3 = true ∧ (logOf t ptmKey).head?.map (·.w0) = some 6)) ∧
       (down = false → s.power.low = true → s.power.fsrail = true → moves t (below (rails s true)) (fun v => min 720 (v + 5)) ∧
         t.logs = s.logs) ∧
       (down = false → s.power.low = true → s.power.fsrail = false → s.power.lvlcap < 8 →
         stepped t ∧ t.power.lvlcap = s.power.lvlcap + 1) ∧
       (down = false → s.power.low = true → s.power.fsrail = false → 8 ≤ s.power.lvlcap →
         moves t (below (List.range 12)) (fun v => min 720 (v + 5)) ∧ t.logs = s.logs) ∧
       (down = false → s.power.low = false → stepped t ∧ t.power.lvlcap = s.power.lvlcap))) ∧
    (∀ temps : List Nat, temps.length = 104 →
      let tk (d : Nat) := ptmKey + Rg.ptm.TEMP + 4 * d
      let trips (d : Nat) : Prop := d < 104 ∧ 110 < temps.getD d 0 ∧ tget false s.power.over110 d = true
      ((∀ d, ¬ trips d) → ∃ t, exec (.tempSample temps) s = .next t ∧ Keeps [.power] ((ptmKey + Rg.ptm.DIEMAX) :: (List.range 104).map tk) [(.ptm, 0)] s t ∧
        (∀ d, d < 104 → let n := min 255 (temps.getD d 0); reg t (tk d) = w32 (n + max n (bits (reg s (tk d)) 15 8) * 2 ^ 8)) ∧
        t.power.hotDie = temps.any (fun x => decide (bits (ptmReg s Rg.ptm.TWARN) 7 0 < x)) ∧
        (∀ d, d < 104 → tget false t.power.over110 d = decide (110 < temps.getD d 0)) ∧ t.power.capping = isCap t) ∧
      (∀ d, trips d → (∀ e, e < d → ¬ trips e) → s.power.mst ≠ .thermal → ∃ t, exec (.tempSample temps) s = .next t ∧
        t.power.mst = .thermal ∧ t.pins = { s.pins with thermtrip := true } ∧
        reg t (ptmKey + Rg.ptm.LASTSHUT) = w32 (1 + d * 2 ^ 8) ∧ (∀ i, i < 95 → domOn t i = false) ∧
        (∀ i, i < 12 → rail t i = 0) ∧ t.power.pd = none ∧
        (s.power.pd ≠ none → regBit t (ptmKey + Rg.ptm.PDREQSTAT) 0 = false)))

/-! ### Host, copy ring, events, SMBus, JTAG (R525-R541) -/

/-- A function's registers are at reset (R529). -/
def Sys2Proof.Says.FnReset (f : PFn) (t : State) : Prop := ∀ o, o < 2 ^ 20 → fnReg t f o = reg State.reset (f.key + o)

/-- Where an access to no place counts at the endpoints' die. -/
def Sys2Proof.Says.errKey (rsn : BitVec 8) : Nat := Blk.key (.ptab (tableDie 103)) + Rg.ptab.RSPERR + 4 * (rsn.toNat - 1)

/-- What answering host reads may count, and show, at the two endpoints. -/
def Sys2Proof.Says.inerrKeys : List Nat := [epKey 0 + Rg.pcie.INERR, epKey 1 + Rg.pcie.INERR]
def Sys2Proof.Says.epPages : List (Blk × Nat) := [(.pcie 0, 0), (.pcie 1, 0)]

/-- No stored register has changed but those of some functions, the listed keys and events of the listed pages. -/
def Sys2Proof.Says.FnRegsBut (fs : PFn → Prop) (ks : List Nat) (evs : List (Blk × Nat)) (s t : State) : Prop :=
  ∀ k, k ∉ ks ++ evKeys evs → (∀ f, fs f → ¬ (f.key ≤ k ∧ k < f.key + 2 ^ 20)) → reg t k = reg s k

/-- Host reads are answered by the network, by function registers, or Unsupported Request; posted writes likewise, one that
    fails is logged; a read unanswered for 40 ms is aborted (R527-R529, R537). -/
def Sys2Proof.Says.HostAccessesAreServed : Prop :=
  ∀ (f : PFn) (bar : Fin 3) (off : BitVec 48) (s : State),
    let k := epKey f.e
    let w := bump s (k + Rg.pcie.INREQ)
    let at_ := barAt w f bar off.toNat
    let quiet := s.net.outst.any (fun o => match o.1 with | .posted g _ _ => g == f | _ => false) = false
    (∀ (len id : Nat), 0 < len →
      let x := exec (.hostRead f bar off len id) s
      (pcieUp s f.e = false → Still (.hostRead f bar off len id) s) ∧
      (pcieUp s f.e = true →
        (at_ = .none → quiet → ∃ t, x = .next t ∧ .unsupported f id ∈ t.host.out ∧
          Keeps [.host] ((k + Rg.pcie.INREQ) :: inerrKeys) epPages s t) ∧
        (∀ o, at_ = .regs o → fnForm o len = true → quiet → ∃ t, x = .next t ∧
          Keeps [.host] ((k + Rg.pcie.INREQ) :: inerrKeys) epPages s t ∧
          .completion f id (bytesOf ((List.range (len / 4)).map (fun i => fnRead w f (o + 4 * i)))) ∈ t.host.out) ∧
        (∀ a, at_ = .addr a → ∃ t, x = .next t ∧ Keeps [.host, .net] [k + Rg.pcie.INREQ, errKey Rsn.unmapped] [(.pcie f.e, 0)] s t ∧
          (∃ r ∈ t.host.reads, r.f = f ∧ r.id = id ∧ r.parts.length = (blocksOf a len).length) ∧
          ∀ p ∈ (blocksOf a len).zipIdx, ∃ q ∈ t.net.pkts, q.src = .host f id p.2 ∧ q.req.kind = .read ∧
            q.req.addr = BitVec.ofNat 48 p.1.1 ∧ q.req.len = p.1.2))) ∧
    (∀ d : List Byte, d ≠ [] →
      let x := exec (.hostWrite f bar off d) s
      let failed : Prop := ∃ t, x = .next t ∧ (logOf t k).head? = some ⟨w32 (1 + f.f.val * 2 ^ 8), 0, 0, w32 Rsn.unmapped.toNat⟩ ∧
        KeepsLog [] [k + Rg.pcie.INREQ] [(.pcie f.e, 0)] k s t
      (pcieUp s f.e = false → Still (.hostWrite f bar off d) s) ∧
      (pcieUp s f.e = true →
        (at_ = .none → failed) ∧
        (∀ o, at_ = .regs o → fnForm o d.length = false → failed) ∧
        (∀ o, at_ = .regs o → fnForm o d.length = true →
          let z := (wordsLE d).zipIdx.foldl (fun y e => fnWrite f (o + 4 * e.2) e.1 y) w
          ∃ t, x = .next t ∧ After [] [] [(.pcie f.e, 0)] s z t) ∧
        (∀ a, at_ = .addr a → ∃ t, x = .next t ∧ Keeps [.host, .net] [k + Rg.pcie.INREQ, errKey Rsn.unmapped] [(.pcie f.e, 0)] s t ∧
          postedCount t f = postedCount s f + (blocksOf a d.length).length ∧
          ∀ p, (blocksOf a d.length).head? = some p → ∃ q ∈ t.net.pkts, q.req.kind = .write ∧
            q.src = .posted f (postedCount s f) (BitVec.ofNat 48 p.1) ∧ q.req.data = d.take p.2))) ∧
    (∀ id : Nat,
      (∀ r, s.host.reads.find? (fun r => r.f == f && r.id == id) = some r → r.at_.toNat + 40000000 ≤ now s → readIn r = false →
        ∃ t, exec (.hostReadTimeout f id) s = .next t ∧ .abort f id ∈ t.host.out ∧ r ∉ t.host.reads ∧
          reg t (k + Rg.pcie.INTO) = satAdd (reg s (k + Rg.pcie.INTO)) 1 ∧ regBit t (k + Rg.hdr.EVPEND) 1 = true ∧
          KeepsLog [.host, .net, .chans] ((k + Rg.pcie.INTO) :: inerrKeys) epPages k s t ∧
          (logOf t k).head?.map (·.w0) = some (w32 (2 + f.f.val * 2 ^ 8))) ∧
      (∀ r, s.host.reads.find? (fun r => r.f == f && r.id == id) = some r → now s < r.at_.toNat + 40000000 ∨ readIn r = true →
        Still (.hostReadTimeout f id) s) ∧
      ((∀ r ∈ s.host.reads, ¬ (r.f = f ∧ r.id = id)) → Still (.hostReadTimeout f id) s))

/-- The PCIe link, its virtual functions and their resets; VFPART changes only for a function that is reset and quiet
    (R525, R526, R529, R553). -/
def Sys2Proof.Says.LinksAndFunctions : Prop :=
  ∀ (e : Fin 2) (s : State),
    let k := epKey e
    let stat (t : State) := reg t (k + Rg.pcie.EPSTAT)
    (∀ (gen : BitVec 3) (width : BitVec 5),
      let ok := s.power.mst ≠ .reset ∧ gen ≠ 0 ∧ gen ≠ 7 ∧ (width = 1 ∨ width = 4 ∨ width = 8 ∨ width = 16)
      (ok → ∃ t, exec (.pcieLinkUp e gen width) s = .next t ∧ Keeps [] [k + Rg.pcie.EPSTAT] [(.pcie e, 0)] s t ∧
        stat t = w32 (1 + gen.toNat * 2 + width.toNat * 2 ^ 4 + numVf s e * 2 ^ 16)) ∧
      (¬ ok → Still (.pcieLinkUp e gen width) s)) ∧
    (∃ t, exec (.pcieLinkDown e) s = .next t ∧ stat t = w32 (numVf s e * 2 ^ 16) ∧ Keeps [] [k + Rg.pcie.EPSTAT] [(.pcie e, 0)] s t) ∧
    (∀ n : Fin 17,
      (pcieUp s e = false → Still (.vfEnableChange e n) s) ∧
      (pcieUp s e = true → ∃ t, exec (.vfEnableChange e n) s = .next t ∧ numVf t e = n.val ∧ KeepsBut [.host, .regs] s t ∧
        FnRegsBut (fun f => f.e = e) [k + Rg.pcie.EPSTAT] [(.pcie e, 0)] s t ∧ stat t = w32 (bits (stat s) 8 0 + n.val * 2 ^ 16) ∧
        ∀ f : PFn, f.e = e →
          (decide (f.f.val ≤ numVf s e) ≠ decide (f.f.val ≤ n.val) → FnReset f t ∧ tget false t.host.flrDone f.num = false) ∧
          (decide (f.f.val ≤ numVf s e) = decide (f.f.val ≤ n.val) → ∀ o, o < 2 ^ 20 → fnReg t f o = fnReg s f o))) ∧
    (∀ clk : Bool, ∃ t, exec (.perstRise e clk) s = .next t ∧ stat t = 0 ∧ t.host.clksel.getLsbD e.val = clk ∧
      (∀ r ∈ t.host.reads, r.f.e ≠ e) ∧ regBit t (k + Rg.hdr.EVPEND) 3 = true ∧ KeepsBut [.host, .net, .chans, .regs] s t ∧
      FnRegsBut (fun f => f.e = e) [k + Rg.pcie.EPSTAT] [(.pcie e, 0)] s t ∧
      ∀ f : PFn, f.e = e → FnReset f t ∧ tget false t.host.flrDone f.num = true) ∧
    (∀ f : PFn, f.e = e →
      (pcieUp s e = true → fnThere s f = true → ∃ t, exec (.functionLevelReset f) s = .next t ∧ FnReset f t ∧
        tget false t.host.flrDone f.num = true ∧ regBit t (k + Rg.hdr.EVPEND) 3 = true ∧ KeepsBut [.host, .regs] s t ∧
        FnRegsBut (fun g => g = f) [] [(.pcie e, 0)] s t) ∧
      (¬ (pcieUp s e = true ∧ fnThere s f = true) → Still (.functionLevelReset f) s)) ∧
    (∀ (who : Init) (n : Fin 16) (v : W32), Reaches who (.pcie e) 0 (Rg.pcie.VFPART + 4 * n.val) s →
      let f : PFn := { e, f := fin 17 (n.val + 1) }
      let idle := tget false s.host.flrDone f.num = true ∧ fnQuiet s f = true ∧ regBit s (f.key + Rg.fn.CRCFG) 0 = false
      let vk := k + Rg.pcie.VFPART + 4 * n.val
      (fnThere s f = false ∨ idle → ∃ t, exec (.vfpartWrite who e n v) s = .next t ∧ reg t vk = v &&& 0xF ∧
        Keeps [] [vk] (putPages (.pcie e) 0) s t) ∧
      (fnThere s f = true → ¬ idle → ∃ t, exec (.vfpartWrite who e n v) s = .next t ∧ reg t vk = reg s vk ∧
        (logOf t k).head? = some ⟨w32 (4 + f.f.val * 2 ^ 8), w32 vk, 0x200, 0⟩ ∧ KeepsLog [] [] (putPages (.pcie e) 0) k s t))

/-- A function is notified: its message sent, or held while the vector is masked (R534). -/
def Sys2Proof.Says.FnNotified (f : PFn) (evs : List (Blk × Nat)) (s t : State) : Prop :=
  let nk := Blk.key .conc + Rg.evc.NOTIFCNT
  reg t nk = satAdd (reg s nk) 1 ∧ t.conc.new.getLsbD (4 + f.num) = false ∧ fnReg t f Rg.fn.ARMIDLE = 0 ∧
  Keeps [.conc, .host] [nk, f.key + Rg.fn.ARMIDLE, f.key + Rg.fn.MSIXPBA] evs s t ∧
  t.host = { s.host with out := t.host.out } ∧ t.conc = { s.conc with new := t.conc.new, last := t.conc.last } ∧
  (regBit s (f.key + (Rg.fn.MSIXTAB + 0xC)) 0 = true → fnReg t f Rg.fn.MSIXPBA = 1 ∧ t.host.out = s.host.out) ∧
  (regBit s (f.key + (Rg.fn.MSIXTAB + 0xC)) 0 = false → t.host.out = s.host.out ++ [.msix f
    (BitVec.ofNat 64 ((fnReg s f Rg.fn.MSIXTAB).toNat + (fnReg s f (Rg.fn.MSIXTAB + 4)).toNat * 2 ^ 32))
    (fnReg s f (Rg.fn.MSIXTAB + 8))])

/-- The copy ring: a descriptor in turn moves its bytes between host and module and then writes its STATUS, counts and moves
    CRTAIL on; one that is invalid, meets an error or whose count is refused stops the ring with its reason. CRHEAD, ARMIDLE and the vector mask take
    what is written, a pending notification going out at once (R528, R530, R534, R564). -/
def Obligations.CopyRingAndFunctionRegisters : Prop :=
  ∀ (f : PFn) (s : State),
    let k := epKey f.e
    let serves := fnThere s f = true ∧ (f.f.val = 0 ∨ s.power.mst = .ready)
    let w := bump s (k + Rg.pcie.INREQ)
    let evs := [(Blk.pcie f.e, 0)]
    let status (w : State) (v : Nat) : HostMsg := .write f (BitVec.ofNat 64 ((fnReg w f Rg.fn.CRBASE).toNat +
      (fnReg w f Rg.fn.CRBASEH).toNat * 2 ^ 32 + 32 * crTail w f + 28)) (leBytes 4 v)
    let fails (i : Instr) (a rsn : Nat) (w : State) : Prop := ∃ t, exec i s = .next t ∧
      t.host.out = w.host.out ++ [status w (2 + rsn * 2 ^ 8)] ∧ regBit t (f.key + Rg.fn.CRCFG) 0 = false ∧
      fnReg t f Rg.fn.CRERR = w32 (2 + rsn * 2 ^ 8 + crTail w f * 2 ^ 16) ∧ regBit t (k + Rg.hdr.EVPEND) 2 = true ∧
      After [.host, .logs] [f.key + Rg.fn.CRERR, f.key + Rg.fn.CRCFG, k + Rg.hdr.ERRCNT] [(.pcie f.e, 0)] s w t ∧ LogsBut [k] w t ∧
      (logOf t k).head? = some ⟨w32 (3 + f.f.val * 2 ^ 8), w32 a, w32 (a / 2 ^ 32 % 2 ^ 16), w32 rsn⟩
    (∀ v : W32,
      let rows := [Instr.crheadWrite f v, .armidleWrite f v, .msixVectorUnmask f]
      let hot := v.getLsbD 0 = true ∧ shownPending (setFn s f Rg.fn.ARMIDLE (v &&& 1)) (4 + f.num) = true
      (pcieUp s f.e = false → ∀ i ∈ rows, Still i s) ∧
      (pcieUp s f.e = true → ¬ serves → ∀ i ∈ rows, ∃ t, exec i s = .next t ∧ KeepsLog [] [k + Rg.pcie.INREQ] evs k s t ∧
        (logOf t k).head? = some ⟨w32 (1 + f.f.val * 2 ^ 8), 0, 0, w32 Rsn.unmapped.toNat⟩) ∧
      (pcieUp s f.e = true → serves →
        (∃ t, exec (.crheadWrite f v) s = .next t ∧ fnReg t f Rg.fn.CRHEAD = v &&& 0xFFF ∧
          Keeps [.host] [f.key + Rg.fn.CRHEAD, f.key + Rg.fn.MSIXPBA, k + Rg.pcie.INREQ] evs s t) ∧
        (hot → ∃ t, exec (.armidleWrite f v) s = .next t ∧ FnNotified f evs w t) ∧
        (¬ hot → ∃ t, exec (.armidleWrite f v) s = .next t ∧ fnReg t f Rg.fn.ARMIDLE = v &&& 1 ∧
            Keeps [] [f.key + Rg.fn.ARMIDLE, k + Rg.pcie.INREQ] evs s t) ∧
        (∃ t, exec (.msixVectorUnmask f) s = .next t ∧ regBit t (f.key + (Rg.fn.MSIXTAB + 0xC)) 0 = false ∧
          Keeps [.host] [f.key + (Rg.fn.MSIXTAB + 0xC), f.key + Rg.fn.MSIXPBA, k + Rg.pcie.INREQ] evs s t ∧
          (regBit s (f.key + Rg.fn.MSIXPBA) 0 = false → t.host = s.host ∧ fnReg t f Rg.fn.MSIXPBA = fnReg s f Rg.fn.MSIXPBA) ∧
          (regBit s (f.key + Rg.fn.MSIXPBA) 0 = true → fnReg t f Rg.fn.MSIXPBA = 0 ∧ t.host.out.length = s.host.out.length + 1)))) ∧
    (∀ (desc data : List Byte) (err : Option (BitVec 8)), copyWf desc data err = true →
      let i := Instr.copyDescriptor f desc data err
      let w3 := wordAt desc 3
      let a := wordAt desc 2 + w3 % 2 ^ 16 * 2 ^ 32
      let len := wordAt desc 4
      let out := nbit w3 16
      let m := crMove (fnInit s f) (if out then .read else .write) (blocksOf a len) (if out then [] else data) [] s
      let host : HostMsg := .write f (BitVec.ofNat 64 (wordAt desc 0 + wordAt desc 1 * 2 ^ 32)) m.data
      (crReady s f = false → Still i s) ∧
      (crReady s f = true →
        (descOk desc = false → fails i a 0x82 s) ∧
        (∀ e, descOk desc = true → out = false → err = some e → fails i a e.toNat s) ∧
        (descOk desc = true → out = true ∨ err = none →
          (m.rsn ≠ 0 → fails i m.at_ m.rsn.toNat m.st) ∧
          let ct := fin 64 (wordAt desc 5)
          let refused := cntCheck m.st (fnInit m.st f) ct
          (m.rsn = 0 → nbit w3 17 = true → refused ≠ 0 → ∃ t, exec i s = .next t ∧
            t.host.out = m.st.host.out ++ (if out then [host] else []) ++ [status m.st 1] ∧
            regBit t (f.key + Rg.fn.CRCFG) 0 = false ∧ fnReg t f Rg.fn.CRERR = w32 (1 + crTail m.st f * 2 ^ 16) ∧
            fnReg t f Rg.fn.CRTAIL = fnReg m.st f Rg.fn.CRTAIL ∧ regBit t (k + Rg.hdr.EVPEND) 2 = true ∧
            ((logOf t k).head?.map (·.w0)) = some (w32 (3 + f.f.val * 2 ^ 8))) ∧
          (m.rsn = 0 → (nbit w3 17 = true → refused = 0) → ∃ t, exec i s = .next t ∧
            (nbit w3 17 = true → cntVal t ct (wordAt desc 5 / 2 ^ 8) = cntVal m.st ct (wordAt desc 5 / 2 ^ 8) + 1) ∧
            t.host.out = m.st.host.out ++ (if out then [host] else []) ++ [status m.st 1] ∧
            fnReg t f Rg.fn.CRTAIL = w32 ((crTail m.st f + 1) % crMod m.st f) ∧
            reg t (k + Rg.pcie.CPYBYTES) = satAdd (reg m.st (k + Rg.pcie.CPYBYTES)) (len / 64) ∧
            (nbit w3 18 = true → tget false t.conc.pulse (0x6C0 + f.num) = true) ∧
            (nbit w3 18 = false → t.conc = m.st.conc) ∧
            (nbit w3 17 = false → After [.host, .conc] [k + Rg.pcie.CPYBYTES, f.key + Rg.fn.CRTAIL] [(.pcie f.e, 0)] s m.st t)))))

/-- EVENT_SAMPLE takes every source once, sets the pending bits its sense asks for and the NEW bit of the target a risen
    source is shown to; NOTIFY notifies a target with a NEW bit that is idle or due; DBSET rings doorbells (R531-R536). -/
def Obligations.EventsAreSampledAndNotified : Prop :=
  ∀ s : State,
    let cur (n : Nat) : Bool := srcIn s n && !srcDead n
    let hit (n : Nat) : Bool := senseHit (bits (reg s (srcKey n)) 1 0) (tget false s.conc.prev n) (cur n)
    (∃ t, exec .eventSample s = .next t ∧ Keeps [.conc] ((List.range 64).map pendKey) [] s t ∧ t.conc.pulse = [] ∧
      (∀ n, n < 2048 → tget false t.conc.prev n = cur n ∧ srcPend t n = (srcPend s n || hit n)) ∧
      ∀ T, T < 38 → (t.conc.new.getLsbD T = true ↔ (s.conc.new.getLsbD T = true ∨
        ∃ n, n < 2048 ∧ hit n = true ∧ srcPend s n = false ∧ inView s T n = true))) ∧
    (∀ T : Fin 38,
      let due := s.conc.new.getLsbD T.val = true ∧ (targetIdle s T.val = true ∨ modPassed s T.val = true)
      (¬ due → Still (.notify T) s) ∧
      (due → ∃ t, exec (.notify T) s = .next t ∧ t.conc.new.getLsbD T.val = false ∧
        t.conc.last.lookup T.val = some s.clock.now ∧
        (∀ c : Fin 4, T.val = c.val → (cpu t (.core c)).sevlatch.getLsbD 24 = true ∧ 
          Keeps [.conc, .cores] [Blk.key .conc + Rg.evc.NOTIFCNT] [] s t ∧ ∀ q, q ≠ .core c → cpu t q = cpu s q) ∧
        (∀ f : PFn, T.val = 4 + f.num → FnNotified f [] s t))) ∧
    (∀ (who : Init) (hi : Bool) (v : W32), Reaches who .conc 5 (0x700 + 4 * b2n hi) s →
      ∃ t, exec (.dbsetWrite who hi v) s = .next t ∧ Keeps [.conc] [] (putPages .conc 5) s t ∧ ∀ i, i < 32 →
        tget false t.conc.pulse (0x680 + 32 * b2n hi + i) =
          (v.getLsbD i || tget false s.conc.pulse (0x680 + 32 * b2n hi + i)))

/-- The SMBus target: nothing answers in reset; GETSTATE, GETTEMP and GETPWR report from BOOT on, the rest NOTREADY till the
    firmware runs, which reads and writes registers as operator; GETTEMP starts the maxima again (R538, R520). -/
def Sys2Proof.Says.ManagementCommandsAnswer : Prop :=
  ∀ s : State,
    let show_ (o : Nat) := regView s .ptm 0 o
    let early := s.power.mst = .boot ∨ s.power.mst = .bootfail
    let said (r : Option (List W32)) (t : State) : Prop := t.mgmt = { s.mgmt with replies := s.mgmt.replies ++ [r] }
    let replied : State := { s with mgmt := { s.mgmt with replies := s.mgmt.replies ++ [some []] } }
    (s.power.mst = .reset → ∀ (a : Addr) (v : W32), ∀ i ∈ [Instr.getstate, .gettemp, .getpwr, .setpcap v, .readreg a,
      .writereg a v, .mctpModrst], Still i s) ∧
    (s.power.mst ≠ .reset →
      (∃ t, exec .getstate s = .next t ∧ said (some [show_ Rg.ptm.MODSTAT, show_ Rg.ptm.DISCSTAT, show_ Rg.ptm.LASTSHUT]) t ∧
        KeepsBut [.mgmt] s t) ∧
      (∃ t, exec .getpwr s = .next t ∧ said (some [show_ Rg.ptm.PWRIN, show_ Rg.ptm.PCAP, show_ Rg.ptm.CAPSTAT]) t ∧
        KeepsBut [.mgmt] s t) ∧
      (∃ t, exec .gettemp s = .next t ∧ said (some ((List.range 104).map (fun d => show_ (Rg.ptm.TEMP + 4 * d)))) t ∧
        Keeps [.mgmt] ((List.range 104).map (fun d => ptmKey + Rg.ptm.TEMP + 4 * d)) [] s t ∧ ∀ d, d < 104 → reg t (ptmKey + Rg.ptm.TEMP + 4 * d) =
          w32 (bits (reg s (ptmKey + Rg.ptm.TEMP + 4 * d)) 7 0 * 257)) ∧
      (early → ∀ (a : Addr) (v : W32), ∀ i ∈ [Instr.setpcap v, .readreg a, .writereg a v, .mctpModrst],
        ∃ t, exec i s = .next t ∧ said none t ∧ KeepsBut [.mgmt] s t) ∧
      (¬ early →
        (∀ v : W32, Reaches coreInit .ptm 0 Rg.ptm.PCAP s →
          let ok := 500 ≤ bits v 12 0 ∧ bits v 12 0 ≤ ordCap s.fuses.fpr
          (ok → ∃ t, exec (.setpcap v) s = .next t ∧ said (some []) t ∧ bits (reg t (ptmKey + Rg.ptm.PCAP)) 12 0 = bits v 12 0 ∧
            Keeps [.mgmt] [ptmKey + Rg.ptm.PCAP] (putPages .ptm 0) s t) ∧
          (¬ ok → ∃ t, exec (.setpcap v) s = .next t ∧ said (some []) t ∧ KeepsLog [.mgmt] [] (putPages .ptm 0) ptmKey s t ∧
            (logOf t ptmKey).head? = some ⟨3, w32 Rg.ptm.PCAP, 0, 0⟩)) ∧
        (Reaches coreInit .ptm 0 Rg.ptm.MODCMD s → ∃ t, exec .mctpModrst s = .next t ∧ ModuleReset s.pins replied t) ∧
        (∀ (a : Addr) (v : W32), regBlk a.toNat = none →
          (∃ t, exec (.readreg a) s = .next t ∧ said (some []) t ∧ Keeps [.mgmt] [errKey Rsn.unmapped] [] s t) ∧
          (∃ t, exec (.writereg a v) s = .next t ∧ said (some []) t ∧ Keeps [.mgmt] [errKey Rsn.unmapped] [] s t)) ∧
        (∀ (a : Addr) (v : W32) (b : Blk) (page : Nat), regBlk a.toNat = some (b, page) → a.toNat % 4 = 0 →
          let off := a.toNat % 0x1000
          (regCheck s coreInit b page off false = some 0 → ∃ t, exec (.readreg a) s = .next t ∧
            said (some [regView s b page off]) t) ∧
          (Reaches coreInit b page off s → off = Rg.hdr.EVENA → ∃ t, exec (.writereg a v) s = .next t ∧ said (some []) t ∧
            reg t (b.keyP page + off) = v &&& 0xFFFF ∧
            Keeps [.mgmt] [b.keyP page + off] (putPages b page) s t) ∧
          (Reaches coreInit b page off s →
            exec (.writereg a v) s = actKeys (fun w => regWrite coreInit b page off v (reply (some []) w)) s))))

/-- The JTAG port: each instruction selects its register; those that would disturb the pins act as BYPASS in READY;
    SAMPLE/PRELOAD loads the boundary register, which the EXTEST instructions drive (R539). -/
def Sys2Proof.Says.JtagInstructionsSelectRegisters : Prop :=
  ∀ (s : State) (scan : List Bool),
    let m := s.mgmt
    let loads (i : Instr) (j : JInstr) (d : List Bool) : Prop := ∃ t, exec i s = .next t ∧ KeepsBut [.mgmt] s t ∧
      t.mgmt = { m with jinstr := j, jdata := d }
    let pins := [(Instr.highz, JInstr.highz, [false]), (.clamp, .clamp, [false]), (.extest, .extest, m.jbound),
      (.extestPulse, .extestPulse, m.jbound), (.extestTrain, .extestTrain, m.jbound)]
    (s.pins.p48 = false → ∀ i ∈ [Instr.bypass, .idcode, .samplePreload scan, .highz, .clamp, .extest, .extestPulse,
      .extestTrain], Still i s) ∧
    (s.pins.p48 = true →
      loads .bypass .bypass [false] ∧
      loads .idcode .idcode ((List.range 32).map (fun i => (0x1B640A2F : W32).getLsbD i)) ∧
      (∃ t, exec (.samplePreload scan) s = .next t ∧ KeepsBut [.mgmt, .frees] s t ∧ t.mgmt.jinstr = .sample ∧
        t.mgmt.jbound = scan ∧ t.mgmt.jdata.length = scan.length) ∧
      (s.power.mst = .ready → ∀ p ∈ pins, loads p.1 .bypass [false]) ∧
      (s.power.mst ≠ .ready → ∀ p ∈ pins, loads p.1 p.2.1 p.2.2))

/-! ### Statements of several parts -/

/-- With commands waiting a step takes one and leaves the rest in order; with none it ticks (log entry 4). -/
def Obligations.QueueOrderAndIdleStep : Prop :=
  StepTakesOneCommandInOrder ∧ IdleStepTicksTheTimebase

/-- Fuses change only by the key commands and registers, the timebase only with its supply (R373, R374, R490, R547).
-/
def Obligations.OnlyTheirCommandsChangeFusesAndTimebase : Prop :=
  OnlyKeyAccessesChangeFuses ∧ OnlySuppliesChangeTheTimebase

/-- The ALU, compare, shift, constant and immediate instructions (R166, R167, R524). -/
def Obligations.AluCompareAndImmediates : Prop :=
  AluAndCompareFollowTheirTables ∧ ImmediateInstructionsWriteTheirResult

/-- What an instruction writes to a register, predicate, parameter or control register reads back (R165, R166, R170,
R176, R524). -/
def Obligations.RegistersAndControlRegisters : Prop :=
  RegistersReadBack ∧ PredicatesParametersControlRegisters

/-- Loads and stores of the sequencers and of the cores in their own memories, and where they trap (R161, R166, R168, R173, R174, R425, R524). -/
def Obligations.LoadsAndStores : Prop :=
  SequencerLoadsAndStores ∧ CoreLoadsAndStores ∧ LoadsAndStoresTrap

/-- Calls and returns, and the moves of windows to and from memory (R171, R172, R524). -/
def Obligations.WindowsRotateSpillAndFill : Prop :=
  CallsAndReturnsRotateWindows ∧ SpillAndFillMoveWindows

/-- Forms that trap, and traps taken in the trap window (R165, R166, R174, R175, R524). -/
def Obligations.IllegalFormsAndDoubleFaults : Prop :=
  IllegalFormsTrap ∧ TrapInTheTrapWindowIsADoubleFault

/-- A processor runs the instruction its fetched word spells (R161, R163, R165, R174, R524). -/
def Obligations.FetchRunsTheWord : Prop :=
  EveryWordIsFetchedAndRun ∧ FetchRunsTheWordAtThePc ∧ CoreFetchRunsTheWordInItsMemory

/-- ISSUE into the dispatch FIFO, and recording and replaying (R161, R166, R179, R184, R185). -/
def Obligations.IssueAndReplay : Prop :=
  IssuePutsCommandsIntoTheFifo ∧ IssueRecordsSkipsAndFails ∧ RecordingAndReplay

/-- The command ring of a Nimbus engine: fetching its entries and writing its head (R321, R325, R331). -/
def Obligations.RingFetchAndHead : Prop :=
  RingFetchQueuesTheNextCommand ∧ NeheadTakesAnIndexOfTheRing

/-- Accesses of the scratch and of its semaphore counters (R213, R223, R226 to R228, R230, R231, R244). -/
def Obligations.ScratchAccessesAndCounters : Prop :=
  ScratchAccessesReadWriteAccumulate ∧ CountersIncrementAndSet

/-- The ramp of the row rate, the ports of the row and its faults (R96 to R107, R110, R517). -/
def Obligations.RampPortsAndFeeds : Prop :=
  RampGrantsAndRates ∧ PortsFeedsAndRowFaults

/-- Context requests, draining and ending (R248 to R250, R257, R261 to R263, R283). -/
def Obligations.ContextsRunFromStartToEnd : Prop :=
  ContextRequests ∧ ContextsDrainAndEnd

/-- Block requests, epochs, owners and stops (R18, R44, R169, R422, R427, R504, R511). -/
def Obligations.BlocksFollowTheirRequests : Prop :=
  BlockRequestsFollowTheBlockState ∧ EpochsOwnersAndStopsTakeHold

/-- The commands of a loader and its first pass over a section (R365, R366, R375, R377, R380, R382, R383, R386, R387).
-/
def Obligations.LoaderAndPassOne : Prop :=
  LoaderTakesItsCommands ∧ PassOneAuthenticatesTheSection

/-- The second pass: packets, frames and the loading of the region (R367 to R372, R376, R377, R379, R383, R384, R389).
-/
def Obligations.PassTwoLoadsTheRegion : Prop :=
  PacketsDeliverTheFrames ∧ ClosingABodyLoadsTheRegion

/-- Readback of the frames, and the check channels (R390 to R392, R397 to R403). -/
def Obligations.ReadbackAndCheckChannels : Prop :=
  ReadbackFindsUpsets ∧ CheckChannelsScanAndCompare

/-- The queues of the fabric, its windows and its initiators' requests (R335 to R340, R353 to R355). -/
def Obligations.FabricQueuesAndWindows : Prop :=
  QueuesWriteReadAndReset ∧ WindowsAndInitiatorRequests

/-- Requests of a DRAM channel: checks, queueing, performing and freezing (R297, R300 to R302, R307, R308, R312, R313,
R417). -/
def Obligations.DramChannels : Prop :=
  DramRequestsAreCheckedAndQueued ∧ ChannelsPerformAndFreeze

/-- The synchronization commands, and how units complete and fail (R182, R190, R191, R325). -/
def Obligations.SyncAndUnitCompletion : Prop :=
  SyncCommandsSetAndAwaitCounters ∧ UnitsCompleteAndFail

/-- Accesses of a host, its links and its functions (R525 to R529, R537, R553). -/
def Obligations.HostAccessesAndLinks : Prop :=
  HostAccessesAreServed ∧ LinksAndFunctions

/-- The management commands and the JTAG instructions (R520, R538, R539). -/
def Obligations.ManagementAndJtag : Prop :=
  ManagementCommandsAnswer ∧ JtagInstructionsSelectRegisters

/-- The ports of the Chagus link and the frames they serve (R460 to R462, R464 to R482). -/
def Obligations.ChagusPortsAndFrames : Prop :=
  PortsSendPauseAndAbandon ∧ FramesAreCheckedAndServed

/-- Start-up, the supplies and the reset pins (R490, R493 to R500, R506, R546 to R550, R556). -/
def Obligations.StartUpAndSupplies : Prop :=
  StartUpBootsAndCompares ∧ SuppliesAndResetPins

/-- Domains that wake and are fenced, time-outs, tables, messages and reports (R44, R278, R419, R421, R424, R432,
R434, R437, R442, R509, R510). -/
def Obligations.DomainsTablesAndMessages : Prop :=
  DomainsWakeFenceAndTimeOut ∧ TablesMessagesAndLullReports

/-- Probe routes, a region's power, its event inputs, and the pins of its bank (R344, R345, R356-R360, R363, R549). -/
def Obligations.RoutesPowerAndDesignEvents : Prop :=
  RoutesPowerAndEvents ∧ PinsFollowTheirRegion
end

