-- ==== Sys2Proof/Laws/State.lean ====
section
/-! SUPPORT. What each update of the state leaves as it was: one lemma per field per update. -/

namespace Sys2Proof.Machine

@[simp] theorem setReg_pending (s : State) (k : Nat) (v : W32) : (setReg s k v).pending = s.pending := (rfl)
@[simp] theorem setReg_clock (s : State) (k : Nat) (v : W32) : (setReg s k v).clock = s.clock := (rfl)
@[simp] theorem setReg_fuses (s : State) (k : Nat) (v : W32) : (setReg s k v).fuses = s.fuses := (rfl)
@[simp] theorem setReg_acc (s : State) (k : Nat) (v : W32) : (setReg s k v).acc = s.acc := (rfl)
@[simp] theorem setReg_frees (s : State) (k : Nat) (v : W32) : (setReg s k v).frees = s.frees := (rfl)
@[simp] theorem setReg_logs (s : State) (k : Nat) (v : W32) : (setReg s k v).logs = s.logs := (rfl)
@[simp] theorem setReg_blks (s : State) (k : Nat) (v : W32) : (setReg s k v).blks = s.blks := (rfl)
@[simp] theorem setReg_scr (s : State) (k : Nat) (v : W32) : (setReg s k v).scr = s.scr := (rfl)
@[simp] theorem setReg_scrChk (s : State) (k : Nat) (v : W32) : (setReg s k v).scrChk = s.scrChk := (rfl)
@[simp] theorem setReg_dram (s : State) (k : Nat) (v : W32) : (setReg s k v).dram = s.dram := (rfl)
@[simp] theorem setReg_pv (s : State) (k : Nat) (v : W32) : (setReg s k v).pv = s.pv := (rfl)
@[simp] theorem setReg_bootMem (s : State) (k : Nat) (v : W32) : (setReg s k v).bootMem = s.bootMem := (rfl)
@[simp] theorem setReg_tiles (s : State) (k : Nat) (v : W32) : (setReg s k v).tiles = s.tiles := (rfl)
@[simp] theorem setReg_cores (s : State) (k : Nat) (v : W32) : (setReg s k v).cores = s.cores := (rfl)
@[simp] theorem setReg_banks (s : State) (k : Nat) (v : W32) : (setReg s k v).banks = s.banks := (rfl)
@[simp] theorem setReg_stks (s : State) (k : Nat) (v : W32) : (setReg s k v).stks = s.stks := (rfl)
@[simp] theorem setReg_ctxs (s : State) (k : Nat) (v : W32) : (setReg s k v).ctxs = s.ctxs := (rfl)
@[simp] theorem setReg_chans (s : State) (k : Nat) (v : W32) : (setReg s k v).chans = s.chans := (rfl)
@[simp] theorem setReg_engs (s : State) (k : Nat) (v : W32) : (setReg s k v).engs = s.engs := (rfl)
@[simp] theorem setReg_regions (s : State) (k : Nat) (v : W32) : (setReg s k v).regions = s.regions := (rfl)
@[simp] theorem setReg_loader (s : State) (k : Nat) (v : W32) : (setReg s k v).loader = s.loader := (rfl)
@[simp] theorem setReg_checks (s : State) (k : Nat) (v : W32) : (setReg s k v).checks = s.checks := (rfl)
@[simp] theorem setReg_net (s : State) (k : Nat) (v : W32) : (setReg s k v).net = s.net := (rfl)
@[simp] theorem setReg_ports (s : State) (k : Nat) (v : W32) : (setReg s k v).ports = s.ports := (rfl)
@[simp] theorem setReg_power (s : State) (k : Nat) (v : W32) : (setReg s k v).power = s.power := (rfl)
@[simp] theorem setReg_ocast (s : State) (k : Nat) (v : W32) : (setReg s k v).ocast = s.ocast := (rfl)
@[simp] theorem setReg_host (s : State) (k : Nat) (v : W32) : (setReg s k v).host = s.host := (rfl)
@[simp] theorem setReg_conc (s : State) (k : Nat) (v : W32) : (setReg s k v).conc = s.conc := (rfl)
@[simp] theorem setReg_mgmt (s : State) (k : Nat) (v : W32) : (setReg s k v).mgmt = s.mgmt := (rfl)
@[simp] theorem setReg_pins (s : State) (k : Nat) (v : W32) : (setReg s k v).pins = s.pins := (rfl)

@[simp] theorem updReg_pending (s : State) (k : Nat) (f : W32 → W32) : (updReg s k f).pending = s.pending := (rfl)
@[simp] theorem updReg_clock (s : State) (k : Nat) (f : W32 → W32) : (updReg s k f).clock = s.clock := (rfl)
@[simp] theorem updReg_fuses (s : State) (k : Nat) (f : W32 → W32) : (updReg s k f).fuses = s.fuses := (rfl)
@[simp] theorem updReg_acc (s : State) (k : Nat) (f : W32 → W32) : (updReg s k f).acc = s.acc := (rfl)
@[simp] theorem updReg_frees (s : State) (k : Nat) (f : W32 → W32) : (updReg s k f).frees = s.frees := (rfl)
@[simp] theorem updReg_logs (s : State) (k : Nat) (f : W32 → W32) : (updReg s k f).logs = s.logs := (rfl)
@[simp] theorem updReg_blks (s : State) (k : Nat) (f : W32 → W32) : (updReg s k f).blks = s.blks := (rfl)
@[simp] theorem updReg_scr (s : State) (k : Nat) (f : W32 → W32) : (updReg s k f).scr = s.scr := (rfl)
@[simp] theorem updReg_scrChk (s : State) (k : Nat) (f : W32 → W32) : (updReg s k f).scrChk = s.scrChk := (rfl)
@[simp] theorem updReg_dram (s : State) (k : Nat) (f : W32 → W32) : (updReg s k f).dram = s.dram := (rfl)
@[simp] theorem updReg_pv (s : State) (k : Nat) (f : W32 → W32) : (updReg s k f).pv = s.pv := (rfl)
@[simp] theorem updReg_bootMem (s : State) (k : Nat) (f : W32 → W32) : (updReg s k f).bootMem = s.bootMem := (rfl)
@[simp] theorem updReg_tiles (s : State) (k : Nat) (f : W32 → W32) : (updReg s k f).tiles = s.tiles := (rfl)
@[simp] theorem updReg_cores (s : State) (k : Nat) (f : W32 → W32) : (updReg s k f).cores = s.cores := (rfl)
@[simp] theorem updReg_banks (s : State) (k : Nat) (f : W32 → W32) : (updReg s k f).banks = s.banks := (rfl)
@[simp] theorem updReg_stks (s : State) (k : Nat) (f : W32 → W32) : (updReg s k f).stks = s.stks := (rfl)
@[simp] theorem updReg_ctxs (s : State) (k : Nat) (f : W32 → W32) : (updReg s k f).ctxs = s.ctxs := (rfl)
@[simp] theorem updReg_chans (s : State) (k : Nat) (f : W32 → W32) : (updReg s k f).chans = s.chans := (rfl)
@[simp] theorem updReg_engs (s : State) (k : Nat) (f : W32 → W32) : (updReg s k f).engs = s.engs := (rfl)
@[simp] theorem updReg_regions (s : State) (k : Nat) (f : W32 → W32) : (updReg s k f).regions = s.regions := (rfl)
@[simp] theorem updReg_loader (s : State) (k : Nat) (f : W32 → W32) : (updReg s k f).loader = s.loader := (rfl)
@[simp] theorem updReg_checks (s : State) (k : Nat) (f : W32 → W32) : (updReg s k f).checks = s.checks := (rfl)
@[simp] theorem updReg_net (s : State) (k : Nat) (f : W32 → W32) : (updReg s k f).net = s.net := (rfl)
@[simp] theorem updReg_ports (s : State) (k : Nat) (f : W32 → W32) : (updReg s k f).ports = s.ports := (rfl)
@[simp] theorem updReg_power (s : State) (k : Nat) (f : W32 → W32) : (updReg s k f).power = s.power := (rfl)
@[simp] theorem updReg_ocast (s : State) (k : Nat) (f : W32 → W32) : (updReg s k f).ocast = s.ocast := (rfl)
@[simp] theorem updReg_host (s : State) (k : Nat) (f : W32 → W32) : (updReg s k f).host = s.host := (rfl)
@[simp] theorem updReg_conc (s : State) (k : Nat) (f : W32 → W32) : (updReg s k f).conc = s.conc := (rfl)
@[simp] theorem updReg_mgmt (s : State) (k : Nat) (f : W32 → W32) : (updReg s k f).mgmt = s.mgmt := (rfl)
@[simp] theorem updReg_pins (s : State) (k : Nat) (f : W32 → W32) : (updReg s k f).pins = s.pins := (rfl)

@[simp] theorem setRegBit_pending (s : State) (k i : Nat) (b : Bool) : (setRegBit s k i b).pending = s.pending := (rfl)
@[simp] theorem setRegBit_clock (s : State) (k i : Nat) (b : Bool) : (setRegBit s k i b).clock = s.clock := (rfl)
@[simp] theorem setRegBit_fuses (s : State) (k i : Nat) (b : Bool) : (setRegBit s k i b).fuses = s.fuses := (rfl)
@[simp] theorem setRegBit_acc (s : State) (k i : Nat) (b : Bool) : (setRegBit s k i b).acc = s.acc := (rfl)
@[simp] theorem setRegBit_frees (s : State) (k i : Nat) (b : Bool) : (setRegBit s k i b).frees = s.frees := (rfl)
@[simp] theorem setRegBit_logs (s : State) (k i : Nat) (b : Bool) : (setRegBit s k i b).logs = s.logs := (rfl)
@[simp] theorem setRegBit_blks (s : State) (k i : Nat) (b : Bool) : (setRegBit s k i b).blks = s.blks := (rfl)
@[simp] theorem setRegBit_scr (s : State) (k i : Nat) (b : Bool) : (setRegBit s k i b).scr = s.scr := (rfl)
@[simp] theorem setRegBit_scrChk (s : State) (k i : Nat) (b : Bool) : (setRegBit s k i b).scrChk = s.scrChk := (rfl)
@[simp] theorem setRegBit_dram (s : State) (k i : Nat) (b : Bool) : (setRegBit s k i b).dram = s.dram := (rfl)
@[simp] theorem setRegBit_pv (s : State) (k i : Nat) (b : Bool) : (setRegBit s k i b).pv = s.pv := (rfl)
@[simp] theorem setRegBit_bootMem (s : State) (k i : Nat) (b : Bool) : (setRegBit s k i b).bootMem = s.bootMem := (rfl)
@[simp] theorem setRegBit_tiles (s : State) (k i : Nat) (b : Bool) : (setRegBit s k i b).tiles = s.tiles := (rfl)
@[simp] theorem setRegBit_cores (s : State) (k i : Nat) (b : Bool) : (setRegBit s k i b).cores = s.cores := (rfl)
@[simp] theorem setRegBit_banks (s : State) (k i : Nat) (b : Bool) : (setRegBit s k i b).banks = s.banks := (rfl)
@[simp] theorem setRegBit_stks (s : State) (k i : Nat) (b : Bool) : (setRegBit s k i b).stks = s.stks := (rfl)
@[simp] theorem setRegBit_ctxs (s : State) (k i : Nat) (b : Bool) : (setRegBit s k i b).ctxs = s.ctxs := (rfl)
@[simp] theorem setRegBit_chans (s : State) (k i : Nat) (b : Bool) : (setRegBit s k i b).chans = s.chans := (rfl)
@[simp] theorem setRegBit_engs (s : State) (k i : Nat) (b : Bool) : (setRegBit s k i b).engs = s.engs := (rfl)
@[simp] theorem setRegBit_regions (s : State) (k i : Nat) (b : Bool) : (setRegBit s k i b).regions = s.regions := (rfl)
@[simp] theorem setRegBit_loader (s : State) (k i : Nat) (b : Bool) : (setRegBit s k i b).loader = s.loader := (rfl)
@[simp] theorem setRegBit_checks (s : State) (k i : Nat) (b : Bool) : (setRegBit s k i b).checks = s.checks := (rfl)
@[simp] theorem setRegBit_net (s : State) (k i : Nat) (b : Bool) : (setRegBit s k i b).net = s.net := (rfl)
@[simp] theorem setRegBit_ports (s : State) (k i : Nat) (b : Bool) : (setRegBit s k i b).ports = s.ports := (rfl)
@[simp] theorem setRegBit_power (s : State) (k i : Nat) (b : Bool) : (setRegBit s k i b).power = s.power := (rfl)
@[simp] theorem setRegBit_ocast (s : State) (k i : Nat) (b : Bool) : (setRegBit s k i b).ocast = s.ocast := (rfl)
@[simp] theorem setRegBit_host (s : State) (k i : Nat) (b : Bool) : (setRegBit s k i b).host = s.host := (rfl)
@[simp] theorem setRegBit_conc (s : State) (k i : Nat) (b : Bool) : (setRegBit s k i b).conc = s.conc := (rfl)
@[simp] theorem setRegBit_mgmt (s : State) (k i : Nat) (b : Bool) : (setRegBit s k i b).mgmt = s.mgmt := (rfl)
@[simp] theorem setRegBit_pins (s : State) (k i : Nat) (b : Bool) : (setRegBit s k i b).pins = s.pins := (rfl)

@[simp] theorem dropRegs_pending (s : State) (p : Nat → Bool) : (dropRegs s p).pending = s.pending := (rfl)
@[simp] theorem dropRegs_clock (s : State) (p : Nat → Bool) : (dropRegs s p).clock = s.clock := (rfl)
@[simp] theorem dropRegs_fuses (s : State) (p : Nat → Bool) : (dropRegs s p).fuses = s.fuses := (rfl)
@[simp] theorem dropRegs_acc (s : State) (p : Nat → Bool) : (dropRegs s p).acc = s.acc := (rfl)
@[simp] theorem dropRegs_frees (s : State) (p : Nat → Bool) : (dropRegs s p).frees = s.frees := (rfl)
@[simp] theorem dropRegs_logs (s : State) (p : Nat → Bool) : (dropRegs s p).logs = s.logs := (rfl)
@[simp] theorem dropRegs_blks (s : State) (p : Nat → Bool) : (dropRegs s p).blks = s.blks := (rfl)
@[simp] theorem dropRegs_scr (s : State) (p : Nat → Bool) : (dropRegs s p).scr = s.scr := (rfl)
@[simp] theorem dropRegs_scrChk (s : State) (p : Nat → Bool) : (dropRegs s p).scrChk = s.scrChk := (rfl)
@[simp] theorem dropRegs_dram (s : State) (p : Nat → Bool) : (dropRegs s p).dram = s.dram := (rfl)
@[simp] theorem dropRegs_pv (s : State) (p : Nat → Bool) : (dropRegs s p).pv = s.pv := (rfl)
@[simp] theorem dropRegs_bootMem (s : State) (p : Nat → Bool) : (dropRegs s p).bootMem = s.bootMem := (rfl)
@[simp] theorem dropRegs_tiles (s : State) (p : Nat → Bool) : (dropRegs s p).tiles = s.tiles := (rfl)
@[simp] theorem dropRegs_cores (s : State) (p : Nat → Bool) : (dropRegs s p).cores = s.cores := (rfl)
@[simp] theorem dropRegs_banks (s : State) (p : Nat → Bool) : (dropRegs s p).banks = s.banks := (rfl)
@[simp] theorem dropRegs_stks (s : State) (p : Nat → Bool) : (dropRegs s p).stks = s.stks := (rfl)
@[simp] theorem dropRegs_ctxs (s : State) (p : Nat → Bool) : (dropRegs s p).ctxs = s.ctxs := (rfl)
@[simp] theorem dropRegs_chans (s : State) (p : Nat → Bool) : (dropRegs s p).chans = s.chans := (rfl)
@[simp] theorem dropRegs_engs (s : State) (p : Nat → Bool) : (dropRegs s p).engs = s.engs := (rfl)
@[simp] theorem dropRegs_regions (s : State) (p : Nat → Bool) : (dropRegs s p).regions = s.regions := (rfl)
@[simp] theorem dropRegs_loader (s : State) (p : Nat → Bool) : (dropRegs s p).loader = s.loader := (rfl)
@[simp] theorem dropRegs_checks (s : State) (p : Nat → Bool) : (dropRegs s p).checks = s.checks := (rfl)
@[simp] theorem dropRegs_net (s : State) (p : Nat → Bool) : (dropRegs s p).net = s.net := (rfl)
@[simp] theorem dropRegs_ports (s : State) (p : Nat → Bool) : (dropRegs s p).ports = s.ports := (rfl)
@[simp] theorem dropRegs_power (s : State) (p : Nat → Bool) : (dropRegs s p).power = s.power := (rfl)
@[simp] theorem dropRegs_ocast (s : State) (p : Nat → Bool) : (dropRegs s p).ocast = s.ocast := (rfl)
@[simp] theorem dropRegs_host (s : State) (p : Nat → Bool) : (dropRegs s p).host = s.host := (rfl)
@[simp] theorem dropRegs_conc (s : State) (p : Nat → Bool) : (dropRegs s p).conc = s.conc := (rfl)
@[simp] theorem dropRegs_mgmt (s : State) (p : Nat → Bool) : (dropRegs s p).mgmt = s.mgmt := (rfl)
@[simp] theorem dropRegs_pins (s : State) (p : Nat → Bool) : (dropRegs s p).pins = s.pins := (rfl)

@[simp] theorem bump_pending (s : State) (k n : Nat) : (bump s k n).pending = s.pending := (rfl)
@[simp] theorem bump_clock (s : State) (k n : Nat) : (bump s k n).clock = s.clock := (rfl)
@[simp] theorem bump_fuses (s : State) (k n : Nat) : (bump s k n).fuses = s.fuses := (rfl)
@[simp] theorem bump_acc (s : State) (k n : Nat) : (bump s k n).acc = s.acc := (rfl)
@[simp] theorem bump_frees (s : State) (k n : Nat) : (bump s k n).frees = s.frees := (rfl)
@[simp] theorem bump_logs (s : State) (k n : Nat) : (bump s k n).logs = s.logs := (rfl)
@[simp] theorem bump_blks (s : State) (k n : Nat) : (bump s k n).blks = s.blks := (rfl)
@[simp] theorem bump_scr (s : State) (k n : Nat) : (bump s k n).scr = s.scr := (rfl)
@[simp] theorem bump_scrChk (s : State) (k n : Nat) : (bump s k n).scrChk = s.scrChk := (rfl)
@[simp] theorem bump_dram (s : State) (k n : Nat) : (bump s k n).dram = s.dram := (rfl)
@[simp] theorem bump_pv (s : State) (k n : Nat) : (bump s k n).pv = s.pv := (rfl)
@[simp] theorem bump_bootMem (s : State) (k n : Nat) : (bump s k n).bootMem = s.bootMem := (rfl)
@[simp] theorem bump_tiles (s : State) (k n : Nat) : (bump s k n).tiles = s.tiles := (rfl)
@[simp] theorem bump_cores (s : State) (k n : Nat) : (bump s k n).cores = s.cores := (rfl)
@[simp] theorem bump_banks (s : State) (k n : Nat) : (bump s k n).banks = s.banks := (rfl)
@[simp] theorem bump_stks (s : State) (k n : Nat) : (bump s k n).stks = s.stks := (rfl)
@[simp] theorem bump_ctxs (s : State) (k n : Nat) : (bump s k n).ctxs = s.ctxs := (rfl)
@[simp] theorem bump_chans (s : State) (k n : Nat) : (bump s k n).chans = s.chans := (rfl)
@[simp] theorem bump_engs (s : State) (k n : Nat) : (bump s k n).engs = s.engs := (rfl)
@[simp] theorem bump_regions (s : State) (k n : Nat) : (bump s k n).regions = s.regions := (rfl)
@[simp] theorem bump_loader (s : State) (k n : Nat) : (bump s k n).loader = s.loader := (rfl)
@[simp] theorem bump_checks (s : State) (k n : Nat) : (bump s k n).checks = s.checks := (rfl)
@[simp] theorem bump_net (s : State) (k n : Nat) : (bump s k n).net = s.net := (rfl)
@[simp] theorem bump_ports (s : State) (k n : Nat) : (bump s k n).ports = s.ports := (rfl)
@[simp] theorem bump_power (s : State) (k n : Nat) : (bump s k n).power = s.power := (rfl)
@[simp] theorem bump_ocast (s : State) (k n : Nat) : (bump s k n).ocast = s.ocast := (rfl)
@[simp] theorem bump_host (s : State) (k n : Nat) : (bump s k n).host = s.host := (rfl)
@[simp] theorem bump_conc (s : State) (k n : Nat) : (bump s k n).conc = s.conc := (rfl)
@[simp] theorem bump_mgmt (s : State) (k n : Nat) : (bump s k n).mgmt = s.mgmt := (rfl)
@[simp] theorem bump_pins (s : State) (k n : Nat) : (bump s k n).pins = s.pins := (rfl)

@[simp] theorem errOnly_pending (s : State) (k : Nat) : (errOnly s k).pending = s.pending := (rfl)
@[simp] theorem errOnly_clock (s : State) (k : Nat) : (errOnly s k).clock = s.clock := (rfl)
@[simp] theorem errOnly_fuses (s : State) (k : Nat) : (errOnly s k).fuses = s.fuses := (rfl)
@[simp] theorem errOnly_acc (s : State) (k : Nat) : (errOnly s k).acc = s.acc := (rfl)
@[simp] theorem errOnly_frees (s : State) (k : Nat) : (errOnly s k).frees = s.frees := (rfl)
@[simp] theorem errOnly_logs (s : State) (k : Nat) : (errOnly s k).logs = s.logs := (rfl)
@[simp] theorem errOnly_blks (s : State) (k : Nat) : (errOnly s k).blks = s.blks := (rfl)
@[simp] theorem errOnly_scr (s : State) (k : Nat) : (errOnly s k).scr = s.scr := (rfl)
@[simp] theorem errOnly_scrChk (s : State) (k : Nat) : (errOnly s k).scrChk = s.scrChk := (rfl)
@[simp] theorem errOnly_dram (s : State) (k : Nat) : (errOnly s k).dram = s.dram := (rfl)
@[simp] theorem errOnly_pv (s : State) (k : Nat) : (errOnly s k).pv = s.pv := (rfl)
@[simp] theorem errOnly_bootMem (s : State) (k : Nat) : (errOnly s k).bootMem = s.bootMem := (rfl)
@[simp] theorem errOnly_tiles (s : State) (k : Nat) : (errOnly s k).tiles = s.tiles := (rfl)
@[simp] theorem errOnly_cores (s : State) (k : Nat) : (errOnly s k).cores = s.cores := (rfl)
@[simp] theorem errOnly_banks (s : State) (k : Nat) : (errOnly s k).banks = s.banks := (rfl)
@[simp] theorem errOnly_stks (s : State) (k : Nat) : (errOnly s k).stks = s.stks := (rfl)
@[simp] theorem errOnly_ctxs (s : State) (k : Nat) : (errOnly s k).ctxs = s.ctxs := (rfl)
@[simp] theorem errOnly_chans (s : State) (k : Nat) : (errOnly s k).chans = s.chans := (rfl)
@[simp] theorem errOnly_engs (s : State) (k : Nat) : (errOnly s k).engs = s.engs := (rfl)
@[simp] theorem errOnly_regions (s : State) (k : Nat) : (errOnly s k).regions = s.regions := (rfl)
@[simp] theorem errOnly_loader (s : State) (k : Nat) : (errOnly s k).loader = s.loader := (rfl)
@[simp] theorem errOnly_checks (s : State) (k : Nat) : (errOnly s k).checks = s.checks := (rfl)
@[simp] theorem errOnly_net (s : State) (k : Nat) : (errOnly s k).net = s.net := (rfl)
@[simp] theorem errOnly_ports (s : State) (k : Nat) : (errOnly s k).ports = s.ports := (rfl)
@[simp] theorem errOnly_power (s : State) (k : Nat) : (errOnly s k).power = s.power := (rfl)
@[simp] theorem errOnly_ocast (s : State) (k : Nat) : (errOnly s k).ocast = s.ocast := (rfl)
@[simp] theorem errOnly_host (s : State) (k : Nat) : (errOnly s k).host = s.host := (rfl)
@[simp] theorem errOnly_conc (s : State) (k : Nat) : (errOnly s k).conc = s.conc := (rfl)
@[simp] theorem errOnly_mgmt (s : State) (k : Nat) : (errOnly s k).mgmt = s.mgmt := (rfl)
@[simp] theorem errOnly_pins (s : State) (k : Nat) : (errOnly s k).pins = s.pins := (rfl)

@[simp] theorem pulse_pending (s : State) (k n : Nat) : (pulse s k n).pending = s.pending := (rfl)
@[simp] theorem pulse_clock (s : State) (k n : Nat) : (pulse s k n).clock = s.clock := (rfl)
@[simp] theorem pulse_fuses (s : State) (k n : Nat) : (pulse s k n).fuses = s.fuses := (rfl)
@[simp] theorem pulse_acc (s : State) (k n : Nat) : (pulse s k n).acc = s.acc := (rfl)
@[simp] theorem pulse_frees (s : State) (k n : Nat) : (pulse s k n).frees = s.frees := (rfl)
@[simp] theorem pulse_logs (s : State) (k n : Nat) : (pulse s k n).logs = s.logs := (rfl)
@[simp] theorem pulse_blks (s : State) (k n : Nat) : (pulse s k n).blks = s.blks := (rfl)
@[simp] theorem pulse_scr (s : State) (k n : Nat) : (pulse s k n).scr = s.scr := (rfl)
@[simp] theorem pulse_scrChk (s : State) (k n : Nat) : (pulse s k n).scrChk = s.scrChk := (rfl)
@[simp] theorem pulse_dram (s : State) (k n : Nat) : (pulse s k n).dram = s.dram := (rfl)
@[simp] theorem pulse_pv (s : State) (k n : Nat) : (pulse s k n).pv = s.pv := (rfl)
@[simp] theorem pulse_bootMem (s : State) (k n : Nat) : (pulse s k n).bootMem = s.bootMem := (rfl)
@[simp] theorem pulse_tiles (s : State) (k n : Nat) : (pulse s k n).tiles = s.tiles := (rfl)
@[simp] theorem pulse_cores (s : State) (k n : Nat) : (pulse s k n).cores = s.cores := (rfl)
@[simp] theorem pulse_banks (s : State) (k n : Nat) : (pulse s k n).banks = s.banks := (rfl)
@[simp] theorem pulse_stks (s : State) (k n : Nat) : (pulse s k n).stks = s.stks := (rfl)
@[simp] theorem pulse_ctxs (s : State) (k n : Nat) : (pulse s k n).ctxs = s.ctxs := (rfl)
@[simp] theorem pulse_chans (s : State) (k n : Nat) : (pulse s k n).chans = s.chans := (rfl)
@[simp] theorem pulse_engs (s : State) (k n : Nat) : (pulse s k n).engs = s.engs := (rfl)
@[simp] theorem pulse_regions (s : State) (k n : Nat) : (pulse s k n).regions = s.regions := (rfl)
@[simp] theorem pulse_loader (s : State) (k n : Nat) : (pulse s k n).loader = s.loader := (rfl)
@[simp] theorem pulse_checks (s : State) (k n : Nat) : (pulse s k n).checks = s.checks := (rfl)
@[simp] theorem pulse_net (s : State) (k n : Nat) : (pulse s k n).net = s.net := (rfl)
@[simp] theorem pulse_ports (s : State) (k n : Nat) : (pulse s k n).ports = s.ports := (rfl)
@[simp] theorem pulse_power (s : State) (k n : Nat) : (pulse s k n).power = s.power := (rfl)
@[simp] theorem pulse_ocast (s : State) (k n : Nat) : (pulse s k n).ocast = s.ocast := (rfl)
@[simp] theorem pulse_host (s : State) (k n : Nat) : (pulse s k n).host = s.host := (rfl)
@[simp] theorem pulse_conc (s : State) (k n : Nat) : (pulse s k n).conc = s.conc := (rfl)
@[simp] theorem pulse_mgmt (s : State) (k n : Nat) : (pulse s k n).mgmt = s.mgmt := (rfl)
@[simp] theorem pulse_pins (s : State) (k n : Nat) : (pulse s k n).pins = s.pins := (rfl)

@[simp] theorem logE_pending (s : State) (k : Nat) (a b c d : W32) : (logE s k a b c d).pending = s.pending := (rfl)
@[simp] theorem logE_clock (s : State) (k : Nat) (a b c d : W32) : (logE s k a b c d).clock = s.clock := (rfl)
@[simp] theorem logE_fuses (s : State) (k : Nat) (a b c d : W32) : (logE s k a b c d).fuses = s.fuses := (rfl)
@[simp] theorem logE_acc (s : State) (k : Nat) (a b c d : W32) : (logE s k a b c d).acc = s.acc := (rfl)
@[simp] theorem logE_frees (s : State) (k : Nat) (a b c d : W32) : (logE s k a b c d).frees = s.frees := (rfl)
@[simp] theorem logE_blks (s : State) (k : Nat) (a b c d : W32) : (logE s k a b c d).blks = s.blks := (rfl)
@[simp] theorem logE_scr (s : State) (k : Nat) (a b c d : W32) : (logE s k a b c d).scr = s.scr := (rfl)
@[simp] theorem logE_scrChk (s : State) (k : Nat) (a b c d : W32) : (logE s k a b c d).scrChk = s.scrChk := (rfl)
@[simp] theorem logE_dram (s : State) (k : Nat) (a b c d : W32) : (logE s k a b c d).dram = s.dram := (rfl)
@[simp] theorem logE_pv (s : State) (k : Nat) (a b c d : W32) : (logE s k a b c d).pv = s.pv := (rfl)
@[simp] theorem logE_bootMem (s : State) (k : Nat) (a b c d : W32) : (logE s k a b c d).bootMem = s.bootMem := (rfl)
@[simp] theorem logE_tiles (s : State) (k : Nat) (a b c d : W32) : (logE s k a b c d).tiles = s.tiles := (rfl)
@[simp] theorem logE_cores (s : State) (k : Nat) (a b c d : W32) : (logE s k a b c d).cores = s.cores := (rfl)
@[simp] theorem logE_banks (s : State) (k : Nat) (a b c d : W32) : (logE s k a b c d).banks = s.banks := (rfl)
@[simp] theorem logE_stks (s : State) (k : Nat) (a b c d : W32) : (logE s k a b c d).stks = s.stks := (rfl)
@[simp] theorem logE_ctxs (s : State) (k : Nat) (a b c d : W32) : (logE s k a b c d).ctxs = s.ctxs := (rfl)
@[simp] theorem logE_chans (s : State) (k : Nat) (a b c d : W32) : (logE s k a b c d).chans = s.chans := (rfl)
@[simp] theorem logE_engs (s : State) (k : Nat) (a b c d : W32) : (logE s k a b c d).engs = s.engs := (rfl)
@[simp] theorem logE_regions (s : State) (k : Nat) (a b c d : W32) : (logE s k a b c d).regions = s.regions := (rfl)
@[simp] theorem logE_loader (s : State) (k : Nat) (a b c d : W32) : (logE s k a b c d).loader = s.loader := (rfl)
@[simp] theorem logE_checks (s : State) (k : Nat) (a b c d : W32) : (logE s k a b c d).checks = s.checks := (rfl)
@[simp] theorem logE_net (s : State) (k : Nat) (a b c d : W32) : (logE s k a b c d).net = s.net := (rfl)
@[simp] theorem logE_ports (s : State) (k : Nat) (a b c d : W32) : (logE s k a b c d).ports = s.ports := (rfl)
@[simp] theorem logE_power (s : State) (k : Nat) (a b c d : W32) : (logE s k a b c d).power = s.power := (rfl)
@[simp] theorem logE_ocast (s : State) (k : Nat) (a b c d : W32) : (logE s k a b c d).ocast = s.ocast := (rfl)
@[simp] theorem logE_host (s : State) (k : Nat) (a b c d : W32) : (logE s k a b c d).host = s.host := (rfl)
@[simp] theorem logE_conc (s : State) (k : Nat) (a b c d : W32) : (logE s k a b c d).conc = s.conc := (rfl)
@[simp] theorem logE_mgmt (s : State) (k : Nat) (a b c d : W32) : (logE s k a b c d).mgmt = s.mgmt := (rfl)
@[simp] theorem logE_pins (s : State) (k : Nat) (a b c d : W32) : (logE s k a b c d).pins = s.pins := (rfl)

@[simp] theorem clearLog_pending (s : State) (k : Nat) : (clearLog s k).pending = s.pending := (rfl)
@[simp] theorem clearLog_clock (s : State) (k : Nat) : (clearLog s k).clock = s.clock := (rfl)
@[simp] theorem clearLog_fuses (s : State) (k : Nat) : (clearLog s k).fuses = s.fuses := (rfl)
@[simp] theorem clearLog_acc (s : State) (k : Nat) : (clearLog s k).acc = s.acc := (rfl)
@[simp] theorem clearLog_frees (s : State) (k : Nat) : (clearLog s k).frees = s.frees := (rfl)
@[simp] theorem clearLog_regs (s : State) (k : Nat) : (clearLog s k).regs = s.regs := (rfl)
@[simp] theorem clearLog_blks (s : State) (k : Nat) : (clearLog s k).blks = s.blks := (rfl)
@[simp] theorem clearLog_scr (s : State) (k : Nat) : (clearLog s k).scr = s.scr := (rfl)
@[simp] theorem clearLog_scrChk (s : State) (k : Nat) : (clearLog s k).scrChk = s.scrChk := (rfl)
@[simp] theorem clearLog_dram (s : State) (k : Nat) : (clearLog s k).dram = s.dram := (rfl)
@[simp] theorem clearLog_pv (s : State) (k : Nat) : (clearLog s k).pv = s.pv := (rfl)
@[simp] theorem clearLog_bootMem (s : State) (k : Nat) : (clearLog s k).bootMem = s.bootMem := (rfl)
@[simp] theorem clearLog_tiles (s : State) (k : Nat) : (clearLog s k).tiles = s.tiles := (rfl)
@[simp] theorem clearLog_cores (s : State) (k : Nat) : (clearLog s k).cores = s.cores := (rfl)
@[simp] theorem clearLog_banks (s : State) (k : Nat) : (clearLog s k).banks = s.banks := (rfl)
@[simp] theorem clearLog_stks (s : State) (k : Nat) : (clearLog s k).stks = s.stks := (rfl)
@[simp] theorem clearLog_ctxs (s : State) (k : Nat) : (clearLog s k).ctxs = s.ctxs := (rfl)
@[simp] theorem clearLog_chans (s : State) (k : Nat) : (clearLog s k).chans = s.chans := (rfl)
@[simp] theorem clearLog_engs (s : State) (k : Nat) : (clearLog s k).engs = s.engs := (rfl)
@[simp] theorem clearLog_regions (s : State) (k : Nat) : (clearLog s k).regions = s.regions := (rfl)
@[simp] theorem clearLog_loader (s : State) (k : Nat) : (clearLog s k).loader = s.loader := (rfl)
@[simp] theorem clearLog_checks (s : State) (k : Nat) : (clearLog s k).checks = s.checks := (rfl)
@[simp] theorem clearLog_net (s : State) (k : Nat) : (clearLog s k).net = s.net := (rfl)
@[simp] theorem clearLog_ports (s : State) (k : Nat) : (clearLog s k).ports = s.ports := (rfl)
@[simp] theorem clearLog_power (s : State) (k : Nat) : (clearLog s k).power = s.power := (rfl)
@[simp] theorem clearLog_ocast (s : State) (k : Nat) : (clearLog s k).ocast = s.ocast := (rfl)
@[simp] theorem clearLog_host (s : State) (k : Nat) : (clearLog s k).host = s.host := (rfl)
@[simp] theorem clearLog_conc (s : State) (k : Nat) : (clearLog s k).conc = s.conc := (rfl)
@[simp] theorem clearLog_mgmt (s : State) (k : Nat) : (clearLog s k).mgmt = s.mgmt := (rfl)
@[simp] theorem clearLog_pins (s : State) (k : Nat) : (clearLog s k).pins = s.pins := (rfl)

@[simp] theorem setBlkSt_pending (s : State) (b : Blk) (v : BlkSt) : (setBlkSt s b v).pending = s.pending := (rfl)
@[simp] theorem setBlkSt_clock (s : State) (b : Blk) (v : BlkSt) : (setBlkSt s b v).clock = s.clock := (rfl)
@[simp] theorem setBlkSt_fuses (s : State) (b : Blk) (v : BlkSt) : (setBlkSt s b v).fuses = s.fuses := (rfl)
@[simp] theorem setBlkSt_acc (s : State) (b : Blk) (v : BlkSt) : (setBlkSt s b v).acc = s.acc := (rfl)
@[simp] theorem setBlkSt_frees (s : State) (b : Blk) (v : BlkSt) : (setBlkSt s b v).frees = s.frees := (rfl)
@[simp] theorem setBlkSt_regs (s : State) (b : Blk) (v : BlkSt) : (setBlkSt s b v).regs = s.regs := (rfl)
@[simp] theorem setBlkSt_logs (s : State) (b : Blk) (v : BlkSt) : (setBlkSt s b v).logs = s.logs := (rfl)
@[simp] theorem setBlkSt_scr (s : State) (b : Blk) (v : BlkSt) : (setBlkSt s b v).scr = s.scr := (rfl)
@[simp] theorem setBlkSt_scrChk (s : State) (b : Blk) (v : BlkSt) : (setBlkSt s b v).scrChk = s.scrChk := (rfl)
@[simp] theorem setBlkSt_dram (s : State) (b : Blk) (v : BlkSt) : (setBlkSt s b v).dram = s.dram := (rfl)
@[simp] theorem setBlkSt_pv (s : State) (b : Blk) (v : BlkSt) : (setBlkSt s b v).pv = s.pv := (rfl)
@[simp] theorem setBlkSt_bootMem (s : State) (b : Blk) (v : BlkSt) : (setBlkSt s b v).bootMem = s.bootMem := (rfl)
@[simp] theorem setBlkSt_tiles (s : State) (b : Blk) (v : BlkSt) : (setBlkSt s b v).tiles = s.tiles := (rfl)
@[simp] theorem setBlkSt_cores (s : State) (b : Blk) (v : BlkSt) : (setBlkSt s b v).cores = s.cores := (rfl)
@[simp] theorem setBlkSt_banks (s : State) (b : Blk) (v : BlkSt) : (setBlkSt s b v).banks = s.banks := (rfl)
@[simp] theorem setBlkSt_stks (s : State) (b : Blk) (v : BlkSt) : (setBlkSt s b v).stks = s.stks := (rfl)
@[simp] theorem setBlkSt_ctxs (s : State) (b : Blk) (v : BlkSt) : (setBlkSt s b v).ctxs = s.ctxs := (rfl)
@[simp] theorem setBlkSt_chans (s : State) (b : Blk) (v : BlkSt) : (setBlkSt s b v).chans = s.chans := (rfl)
@[simp] theorem setBlkSt_engs (s : State) (b : Blk) (v : BlkSt) : (setBlkSt s b v).engs = s.engs := (rfl)
@[simp] theorem setBlkSt_regions (s : State) (b : Blk) (v : BlkSt) : (setBlkSt s b v).regions = s.regions := (rfl)
@[simp] theorem setBlkSt_loader (s : State) (b : Blk) (v : BlkSt) : (setBlkSt s b v).loader = s.loader := (rfl)
@[simp] theorem setBlkSt_checks (s : State) (b : Blk) (v : BlkSt) : (setBlkSt s b v).checks = s.checks := (rfl)
@[simp] theorem setBlkSt_net (s : State) (b : Blk) (v : BlkSt) : (setBlkSt s b v).net = s.net := (rfl)
@[simp] theorem setBlkSt_ports (s : State) (b : Blk) (v : BlkSt) : (setBlkSt s b v).ports = s.ports := (rfl)
@[simp] theorem setBlkSt_power (s : State) (b : Blk) (v : BlkSt) : (setBlkSt s b v).power = s.power := (rfl)
@[simp] theorem setBlkSt_ocast (s : State) (b : Blk) (v : BlkSt) : (setBlkSt s b v).ocast = s.ocast := (rfl)
@[simp] theorem setBlkSt_host (s : State) (b : Blk) (v : BlkSt) : (setBlkSt s b v).host = s.host := (rfl)
@[simp] theorem setBlkSt_conc (s : State) (b : Blk) (v : BlkSt) : (setBlkSt s b v).conc = s.conc := (rfl)
@[simp] theorem setBlkSt_mgmt (s : State) (b : Blk) (v : BlkSt) : (setBlkSt s b v).mgmt = s.mgmt := (rfl)
@[simp] theorem setBlkSt_pins (s : State) (b : Blk) (v : BlkSt) : (setBlkSt s b v).pins = s.pins := (rfl)

@[simp] theorem setRun_pending (s : State) (b : Blk) (v : Run) : (setRun s b v).pending = s.pending := (rfl)
@[simp] theorem setRun_clock (s : State) (b : Blk) (v : Run) : (setRun s b v).clock = s.clock := (rfl)
@[simp] theorem setRun_fuses (s : State) (b : Blk) (v : Run) : (setRun s b v).fuses = s.fuses := (rfl)
@[simp] theorem setRun_acc (s : State) (b : Blk) (v : Run) : (setRun s b v).acc = s.acc := (rfl)
@[simp] theorem setRun_frees (s : State) (b : Blk) (v : Run) : (setRun s b v).frees = s.frees := (rfl)
@[simp] theorem setRun_regs (s : State) (b : Blk) (v : Run) : (setRun s b v).regs = s.regs := (rfl)
@[simp] theorem setRun_logs (s : State) (b : Blk) (v : Run) : (setRun s b v).logs = s.logs := (rfl)
@[simp] theorem setRun_scr (s : State) (b : Blk) (v : Run) : (setRun s b v).scr = s.scr := (rfl)
@[simp] theorem setRun_scrChk (s : State) (b : Blk) (v : Run) : (setRun s b v).scrChk = s.scrChk := (rfl)
@[simp] theorem setRun_dram (s : State) (b : Blk) (v : Run) : (setRun s b v).dram = s.dram := (rfl)
@[simp] theorem setRun_pv (s : State) (b : Blk) (v : Run) : (setRun s b v).pv = s.pv := (rfl)
@[simp] theorem setRun_bootMem (s : State) (b : Blk) (v : Run) : (setRun s b v).bootMem = s.bootMem := (rfl)
@[simp] theorem setRun_tiles (s : State) (b : Blk) (v : Run) : (setRun s b v).tiles = s.tiles := (rfl)
@[simp] theorem setRun_cores (s : State) (b : Blk) (v : Run) : (setRun s b v).cores = s.cores := (rfl)
@[simp] theorem setRun_banks (s : State) (b : Blk) (v : Run) : (setRun s b v).banks = s.banks := (rfl)
@[simp] theorem setRun_stks (s : State) (b : Blk) (v : Run) : (setRun s b v).stks = s.stks := (rfl)
@[simp] theorem setRun_ctxs (s : State) (b : Blk) (v : Run) : (setRun s b v).ctxs = s.ctxs := (rfl)
@[simp] theorem setRun_chans (s : State) (b : Blk) (v : Run) : (setRun s b v).chans = s.chans := (rfl)
@[simp] theorem setRun_engs (s : State) (b : Blk) (v : Run) : (setRun s b v).engs = s.engs := (rfl)
@[simp] theorem setRun_regions (s : State) (b : Blk) (v : Run) : (setRun s b v).regions = s.regions := (rfl)
@[simp] theorem setRun_loader (s : State) (b : Blk) (v : Run) : (setRun s b v).loader = s.loader := (rfl)
@[simp] theorem setRun_checks (s : State) (b : Blk) (v : Run) : (setRun s b v).checks = s.checks := (rfl)
@[simp] theorem setRun_net (s : State) (b : Blk) (v : Run) : (setRun s b v).net = s.net := (rfl)
@[simp] theorem setRun_ports (s : State) (b : Blk) (v : Run) : (setRun s b v).ports = s.ports := (rfl)
@[simp] theorem setRun_power (s : State) (b : Blk) (v : Run) : (setRun s b v).power = s.power := (rfl)
@[simp] theorem setRun_ocast (s : State) (b : Blk) (v : Run) : (setRun s b v).ocast = s.ocast := (rfl)
@[simp] theorem setRun_host (s : State) (b : Blk) (v : Run) : (setRun s b v).host = s.host := (rfl)
@[simp] theorem setRun_conc (s : State) (b : Blk) (v : Run) : (setRun s b v).conc = s.conc := (rfl)
@[simp] theorem setRun_mgmt (s : State) (b : Blk) (v : Run) : (setRun s b v).mgmt = s.mgmt := (rfl)
@[simp] theorem setRun_pins (s : State) (b : Blk) (v : Run) : (setRun s b v).pins = s.pins := (rfl)

@[simp] theorem setUsed_pending (s : State) (b : Blk) (v : Bool) : (setUsed s b v).pending = s.pending := (rfl)
@[simp] theorem setUsed_clock (s : State) (b : Blk) (v : Bool) : (setUsed s b v).clock = s.clock := (rfl)
@[simp] theorem setUsed_fuses (s : State) (b : Blk) (v : Bool) : (setUsed s b v).fuses = s.fuses := (rfl)
@[simp] theorem setUsed_acc (s : State) (b : Blk) (v : Bool) : (setUsed s b v).acc = s.acc := (rfl)
@[simp] theorem setUsed_frees (s : State) (b : Blk) (v : Bool) : (setUsed s b v).frees = s.frees := (rfl)
@[simp] theorem setUsed_regs (s : State) (b : Blk) (v : Bool) : (setUsed s b v).regs = s.regs := (rfl)
@[simp] theorem setUsed_logs (s : State) (b : Blk) (v : Bool) : (setUsed s b v).logs = s.logs := (rfl)
@[simp] theorem setUsed_scr (s : State) (b : Blk) (v : Bool) : (setUsed s b v).scr = s.scr := (rfl)
@[simp] theorem setUsed_scrChk (s : State) (b : Blk) (v : Bool) : (setUsed s b v).scrChk = s.scrChk := (rfl)
@[simp] theorem setUsed_dram (s : State) (b : Blk) (v : Bool) : (setUsed s b v).dram = s.dram := (rfl)
@[simp] theorem setUsed_pv (s : State) (b : Blk) (v : Bool) : (setUsed s b v).pv = s.pv := (rfl)
@[simp] theorem setUsed_bootMem (s : State) (b : Blk) (v : Bool) : (setUsed s b v).bootMem = s.bootMem := (rfl)
@[simp] theorem setUsed_tiles (s : State) (b : Blk) (v : Bool) : (setUsed s b v).tiles = s.tiles := (rfl)
@[simp] theorem setUsed_cores (s : State) (b : Blk) (v : Bool) : (setUsed s b v).cores = s.cores := (rfl)
@[simp] theorem setUsed_banks (s : State) (b : Blk) (v : Bool) : (setUsed s b v).banks = s.banks := (rfl)
@[simp] theorem setUsed_stks (s : State) (b : Blk) (v : Bool) : (setUsed s b v).stks = s.stks := (rfl)
@[simp] theorem setUsed_ctxs (s : State) (b : Blk) (v : Bool) : (setUsed s b v).ctxs = s.ctxs := (rfl)
@[simp] theorem setUsed_chans (s : State) (b : Blk) (v : Bool) : (setUsed s b v).chans = s.chans := (rfl)
@[simp] theorem setUsed_engs (s : State) (b : Blk) (v : Bool) : (setUsed s b v).engs = s.engs := (rfl)
@[simp] theorem setUsed_regions (s : State) (b : Blk) (v : Bool) : (setUsed s b v).regions = s.regions := (rfl)
@[simp] theorem setUsed_loader (s : State) (b : Blk) (v : Bool) : (setUsed s b v).loader = s.loader := (rfl)
@[simp] theorem setUsed_checks (s : State) (b : Blk) (v : Bool) : (setUsed s b v).checks = s.checks := (rfl)
@[simp] theorem setUsed_net (s : State) (b : Blk) (v : Bool) : (setUsed s b v).net = s.net := (rfl)
@[simp] theorem setUsed_ports (s : State) (b : Blk) (v : Bool) : (setUsed s b v).ports = s.ports := (rfl)
@[simp] theorem setUsed_power (s : State) (b : Blk) (v : Bool) : (setUsed s b v).power = s.power := (rfl)
@[simp] theorem setUsed_ocast (s : State) (b : Blk) (v : Bool) : (setUsed s b v).ocast = s.ocast := (rfl)
@[simp] theorem setUsed_host (s : State) (b : Blk) (v : Bool) : (setUsed s b v).host = s.host := (rfl)
@[simp] theorem setUsed_conc (s : State) (b : Blk) (v : Bool) : (setUsed s b v).conc = s.conc := (rfl)
@[simp] theorem setUsed_mgmt (s : State) (b : Blk) (v : Bool) : (setUsed s b v).mgmt = s.mgmt := (rfl)
@[simp] theorem setUsed_pins (s : State) (b : Blk) (v : Bool) : (setUsed s b v).pins = s.pins := (rfl)

@[simp] theorem setEpoch_pending (s : State) (b : Blk) (v : BitVec 8) : (setEpoch s b v).pending = s.pending := (rfl)
@[simp] theorem setEpoch_clock (s : State) (b : Blk) (v : BitVec 8) : (setEpoch s b v).clock = s.clock := (rfl)
@[simp] theorem setEpoch_fuses (s : State) (b : Blk) (v : BitVec 8) : (setEpoch s b v).fuses = s.fuses := (rfl)
@[simp] theorem setEpoch_acc (s : State) (b : Blk) (v : BitVec 8) : (setEpoch s b v).acc = s.acc := (rfl)
@[simp] theorem setEpoch_frees (s : State) (b : Blk) (v : BitVec 8) : (setEpoch s b v).frees = s.frees := (rfl)
@[simp] theorem setEpoch_regs (s : State) (b : Blk) (v : BitVec 8) : (setEpoch s b v).regs = s.regs := (rfl)
@[simp] theorem setEpoch_logs (s : State) (b : Blk) (v : BitVec 8) : (setEpoch s b v).logs = s.logs := (rfl)
@[simp] theorem setEpoch_scr (s : State) (b : Blk) (v : BitVec 8) : (setEpoch s b v).scr = s.scr := (rfl)
@[simp] theorem setEpoch_scrChk (s : State) (b : Blk) (v : BitVec 8) : (setEpoch s b v).scrChk = s.scrChk := (rfl)
@[simp] theorem setEpoch_dram (s : State) (b : Blk) (v : BitVec 8) : (setEpoch s b v).dram = s.dram := (rfl)
@[simp] theorem setEpoch_pv (s : State) (b : Blk) (v : BitVec 8) : (setEpoch s b v).pv = s.pv := (rfl)
@[simp] theorem setEpoch_bootMem (s : State) (b : Blk) (v : BitVec 8) : (setEpoch s b v).bootMem = s.bootMem := (rfl)
@[simp] theorem setEpoch_tiles (s : State) (b : Blk) (v : BitVec 8) : (setEpoch s b v).tiles = s.tiles := (rfl)
@[simp] theorem setEpoch_cores (s : State) (b : Blk) (v : BitVec 8) : (setEpoch s b v).cores = s.cores := (rfl)
@[simp] theorem setEpoch_banks (s : State) (b : Blk) (v : BitVec 8) : (setEpoch s b v).banks = s.banks := (rfl)
@[simp] theorem setEpoch_stks (s : State) (b : Blk) (v : BitVec 8) : (setEpoch s b v).stks = s.stks := (rfl)
@[simp] theorem setEpoch_ctxs (s : State) (b : Blk) (v : BitVec 8) : (setEpoch s b v).ctxs = s.ctxs := (rfl)
@[simp] theorem setEpoch_chans (s : State) (b : Blk) (v : BitVec 8) : (setEpoch s b v).chans = s.chans := (rfl)
@[simp] theorem setEpoch_engs (s : State) (b : Blk) (v : BitVec 8) : (setEpoch s b v).engs = s.engs := (rfl)
@[simp] theorem setEpoch_regions (s : State) (b : Blk) (v : BitVec 8) : (setEpoch s b v).regions = s.regions := (rfl)
@[simp] theorem setEpoch_loader (s : State) (b : Blk) (v : BitVec 8) : (setEpoch s b v).loader = s.loader := (rfl)
@[simp] theorem setEpoch_checks (s : State) (b : Blk) (v : BitVec 8) : (setEpoch s b v).checks = s.checks := (rfl)
@[simp] theorem setEpoch_net (s : State) (b : Blk) (v : BitVec 8) : (setEpoch s b v).net = s.net := (rfl)
@[simp] theorem setEpoch_ports (s : State) (b : Blk) (v : BitVec 8) : (setEpoch s b v).ports = s.ports := (rfl)
@[simp] theorem setEpoch_power (s : State) (b : Blk) (v : BitVec 8) : (setEpoch s b v).power = s.power := (rfl)
@[simp] theorem setEpoch_ocast (s : State) (b : Blk) (v : BitVec 8) : (setEpoch s b v).ocast = s.ocast := (rfl)
@[simp] theorem setEpoch_host (s : State) (b : Blk) (v : BitVec 8) : (setEpoch s b v).host = s.host := (rfl)
@[simp] theorem setEpoch_conc (s : State) (b : Blk) (v : BitVec 8) : (setEpoch s b v).conc = s.conc := (rfl)
@[simp] theorem setEpoch_mgmt (s : State) (b : Blk) (v : BitVec 8) : (setEpoch s b v).mgmt = s.mgmt := (rfl)
@[simp] theorem setEpoch_pins (s : State) (b : Blk) (v : BitVec 8) : (setEpoch s b v).pins = s.pins := (rfl)

@[simp] theorem setTile_pending (s : State) (t : Fin 64) (v : Tile) : (setTile s t v).pending = s.pending := (rfl)
@[simp] theorem setTile_clock (s : State) (t : Fin 64) (v : Tile) : (setTile s t v).clock = s.clock := (rfl)
@[simp] theorem setTile_fuses (s : State) (t : Fin 64) (v : Tile) : (setTile s t v).fuses = s.fuses := (rfl)
@[simp] theorem setTile_acc (s : State) (t : Fin 64) (v : Tile) : (setTile s t v).acc = s.acc := (rfl)
@[simp] theorem setTile_frees (s : State) (t : Fin 64) (v : Tile) : (setTile s t v).frees = s.frees := (rfl)
@[simp] theorem setTile_regs (s : State) (t : Fin 64) (v : Tile) : (setTile s t v).regs = s.regs := (rfl)
@[simp] theorem setTile_logs (s : State) (t : Fin 64) (v : Tile) : (setTile s t v).logs = s.logs := (rfl)
@[simp] theorem setTile_blks (s : State) (t : Fin 64) (v : Tile) : (setTile s t v).blks = s.blks := (rfl)
@[simp] theorem setTile_scr (s : State) (t : Fin 64) (v : Tile) : (setTile s t v).scr = s.scr := (rfl)
@[simp] theorem setTile_scrChk (s : State) (t : Fin 64) (v : Tile) : (setTile s t v).scrChk = s.scrChk := (rfl)
@[simp] theorem setTile_dram (s : State) (t : Fin 64) (v : Tile) : (setTile s t v).dram = s.dram := (rfl)
@[simp] theorem setTile_pv (s : State) (t : Fin 64) (v : Tile) : (setTile s t v).pv = s.pv := (rfl)
@[simp] theorem setTile_bootMem (s : State) (t : Fin 64) (v : Tile) : (setTile s t v).bootMem = s.bootMem := (rfl)
@[simp] theorem setTile_cores (s : State) (t : Fin 64) (v : Tile) : (setTile s t v).cores = s.cores := (rfl)
@[simp] theorem setTile_banks (s : State) (t : Fin 64) (v : Tile) : (setTile s t v).banks = s.banks := (rfl)
@[simp] theorem setTile_stks (s : State) (t : Fin 64) (v : Tile) : (setTile s t v).stks = s.stks := (rfl)
@[simp] theorem setTile_ctxs (s : State) (t : Fin 64) (v : Tile) : (setTile s t v).ctxs = s.ctxs := (rfl)
@[simp] theorem setTile_chans (s : State) (t : Fin 64) (v : Tile) : (setTile s t v).chans = s.chans := (rfl)
@[simp] theorem setTile_engs (s : State) (t : Fin 64) (v : Tile) : (setTile s t v).engs = s.engs := (rfl)
@[simp] theorem setTile_regions (s : State) (t : Fin 64) (v : Tile) : (setTile s t v).regions = s.regions := (rfl)
@[simp] theorem setTile_loader (s : State) (t : Fin 64) (v : Tile) : (setTile s t v).loader = s.loader := (rfl)
@[simp] theorem setTile_checks (s : State) (t : Fin 64) (v : Tile) : (setTile s t v).checks = s.checks := (rfl)
@[simp] theorem setTile_net (s : State) (t : Fin 64) (v : Tile) : (setTile s t v).net = s.net := (rfl)
@[simp] theorem setTile_ports (s : State) (t : Fin 64) (v : Tile) : (setTile s t v).ports = s.ports := (rfl)
@[simp] theorem setTile_power (s : State) (t : Fin 64) (v : Tile) : (setTile s t v).power = s.power := (rfl)
@[simp] theorem setTile_ocast (s : State) (t : Fin 64) (v : Tile) : (setTile s t v).ocast = s.ocast := (rfl)
@[simp] theorem setTile_host (s : State) (t : Fin 64) (v : Tile) : (setTile s t v).host = s.host := (rfl)
@[simp] theorem setTile_conc (s : State) (t : Fin 64) (v : Tile) : (setTile s t v).conc = s.conc := (rfl)
@[simp] theorem setTile_mgmt (s : State) (t : Fin 64) (v : Tile) : (setTile s t v).mgmt = s.mgmt := (rfl)
@[simp] theorem setTile_pins (s : State) (t : Fin 64) (v : Tile) : (setTile s t v).pins = s.pins := (rfl)

@[simp] theorem updTile_pending (s : State) (t : Fin 64) (f : Tile → Tile) : (updTile s t f).pending = s.pending := (rfl)
@[simp] theorem updTile_clock (s : State) (t : Fin 64) (f : Tile → Tile) : (updTile s t f).clock = s.clock := (rfl)
@[simp] theorem updTile_fuses (s : State) (t : Fin 64) (f : Tile → Tile) : (updTile s t f).fuses = s.fuses := (rfl)
@[simp] theorem updTile_acc (s : State) (t : Fin 64) (f : Tile → Tile) : (updTile s t f).acc = s.acc := (rfl)
@[simp] theorem updTile_frees (s : State) (t : Fin 64) (f : Tile → Tile) : (updTile s t f).frees = s.frees := (rfl)
@[simp] theorem updTile_regs (s : State) (t : Fin 64) (f : Tile → Tile) : (updTile s t f).regs = s.regs := (rfl)
@[simp] theorem updTile_logs (s : State) (t : Fin 64) (f : Tile → Tile) : (updTile s t f).logs = s.logs := (rfl)
@[simp] theorem updTile_blks (s : State) (t : Fin 64) (f : Tile → Tile) : (updTile s t f).blks = s.blks := (rfl)
@[simp] theorem updTile_scr (s : State) (t : Fin 64) (f : Tile → Tile) : (updTile s t f).scr = s.scr := (rfl)
@[simp] theorem updTile_scrChk (s : State) (t : Fin 64) (f : Tile → Tile) : (updTile s t f).scrChk = s.scrChk := (rfl)
@[simp] theorem updTile_dram (s : State) (t : Fin 64) (f : Tile → Tile) : (updTile s t f).dram = s.dram := (rfl)
@[simp] theorem updTile_pv (s : State) (t : Fin 64) (f : Tile → Tile) : (updTile s t f).pv = s.pv := (rfl)
@[simp] theorem updTile_bootMem (s : State) (t : Fin 64) (f : Tile → Tile) : (updTile s t f).bootMem = s.bootMem := (rfl)
@[simp] theorem updTile_cores (s : State) (t : Fin 64) (f : Tile → Tile) : (updTile s t f).cores = s.cores := (rfl)
@[simp] theorem updTile_banks (s : State) (t : Fin 64) (f : Tile → Tile) : (updTile s t f).banks = s.banks := (rfl)
@[simp] theorem updTile_stks (s : State) (t : Fin 64) (f : Tile → Tile) : (updTile s t f).stks = s.stks := (rfl)
@[simp] theorem updTile_ctxs (s : State) (t : Fin 64) (f : Tile → Tile) : (updTile s t f).ctxs = s.ctxs := (rfl)
@[simp] theorem updTile_chans (s : State) (t : Fin 64) (f : Tile → Tile) : (updTile s t f).chans = s.chans := (rfl)
@[simp] theorem updTile_engs (s : State) (t : Fin 64) (f : Tile → Tile) : (updTile s t f).engs = s.engs := (rfl)
@[simp] theorem updTile_regions (s : State) (t : Fin 64) (f : Tile → Tile) : (updTile s t f).regions = s.regions := (rfl)
@[simp] theorem updTile_loader (s : State) (t : Fin 64) (f : Tile → Tile) : (updTile s t f).loader = s.loader := (rfl)
@[simp] theorem updTile_checks (s : State) (t : Fin 64) (f : Tile → Tile) : (updTile s t f).checks = s.checks := (rfl)
@[simp] theorem updTile_net (s : State) (t : Fin 64) (f : Tile → Tile) : (updTile s t f).net = s.net := (rfl)
@[simp] theorem updTile_ports (s : State) (t : Fin 64) (f : Tile → Tile) : (updTile s t f).ports = s.ports := (rfl)
@[simp] theorem updTile_power (s : State) (t : Fin 64) (f : Tile → Tile) : (updTile s t f).power = s.power := (rfl)
@[simp] theorem updTile_ocast (s : State) (t : Fin 64) (f : Tile → Tile) : (updTile s t f).ocast = s.ocast := (rfl)
@[simp] theorem updTile_host (s : State) (t : Fin 64) (f : Tile → Tile) : (updTile s t f).host = s.host := (rfl)
@[simp] theorem updTile_conc (s : State) (t : Fin 64) (f : Tile → Tile) : (updTile s t f).conc = s.conc := (rfl)
@[simp] theorem updTile_mgmt (s : State) (t : Fin 64) (f : Tile → Tile) : (updTile s t f).mgmt = s.mgmt := (rfl)
@[simp] theorem updTile_pins (s : State) (t : Fin 64) (f : Tile → Tile) : (updTile s t f).pins = s.pins := (rfl)

@[simp] theorem updRow_pending (s : State) (t : Fin 64) (f : Row → Row) : (updRow s t f).pending = s.pending := (rfl)
@[simp] theorem updRow_clock (s : State) (t : Fin 64) (f : Row → Row) : (updRow s t f).clock = s.clock := (rfl)
@[simp] theorem updRow_fuses (s : State) (t : Fin 64) (f : Row → Row) : (updRow s t f).fuses = s.fuses := (rfl)
@[simp] theorem updRow_acc (s : State) (t : Fin 64) (f : Row → Row) : (updRow s t f).acc = s.acc := (rfl)
@[simp] theorem updRow_frees (s : State) (t : Fin 64) (f : Row → Row) : (updRow s t f).frees = s.frees := (rfl)
@[simp] theorem updRow_regs (s : State) (t : Fin 64) (f : Row → Row) : (updRow s t f).regs = s.regs := (rfl)
@[simp] theorem updRow_logs (s : State) (t : Fin 64) (f : Row → Row) : (updRow s t f).logs = s.logs := (rfl)
@[simp] theorem updRow_blks (s : State) (t : Fin 64) (f : Row → Row) : (updRow s t f).blks = s.blks := (rfl)
@[simp] theorem updRow_scr (s : State) (t : Fin 64) (f : Row → Row) : (updRow s t f).scr = s.scr := (rfl)
@[simp] theorem updRow_scrChk (s : State) (t : Fin 64) (f : Row → Row) : (updRow s t f).scrChk = s.scrChk := (rfl)
@[simp] theorem updRow_dram (s : State) (t : Fin 64) (f : Row → Row) : (updRow s t f).dram = s.dram := (rfl)
@[simp] theorem updRow_pv (s : State) (t : Fin 64) (f : Row → Row) : (updRow s t f).pv = s.pv := (rfl)
@[simp] theorem updRow_bootMem (s : State) (t : Fin 64) (f : Row → Row) : (updRow s t f).bootMem = s.bootMem := (rfl)
@[simp] theorem updRow_cores (s : State) (t : Fin 64) (f : Row → Row) : (updRow s t f).cores = s.cores := (rfl)
@[simp] theorem updRow_banks (s : State) (t : Fin 64) (f : Row → Row) : (updRow s t f).banks = s.banks := (rfl)
@[simp] theorem updRow_stks (s : State) (t : Fin 64) (f : Row → Row) : (updRow s t f).stks = s.stks := (rfl)
@[simp] theorem updRow_ctxs (s : State) (t : Fin 64) (f : Row → Row) : (updRow s t f).ctxs = s.ctxs := (rfl)
@[simp] theorem updRow_chans (s : State) (t : Fin 64) (f : Row → Row) : (updRow s t f).chans = s.chans := (rfl)
@[simp] theorem updRow_engs (s : State) (t : Fin 64) (f : Row → Row) : (updRow s t f).engs = s.engs := (rfl)
@[simp] theorem updRow_regions (s : State) (t : Fin 64) (f : Row → Row) : (updRow s t f).regions = s.regions := (rfl)
@[simp] theorem updRow_loader (s : State) (t : Fin 64) (f : Row → Row) : (updRow s t f).loader = s.loader := (rfl)
@[simp] theorem updRow_checks (s : State) (t : Fin 64) (f : Row → Row) : (updRow s t f).checks = s.checks := (rfl)
@[simp] theorem updRow_net (s : State) (t : Fin 64) (f : Row → Row) : (updRow s t f).net = s.net := (rfl)
@[simp] theorem updRow_ports (s : State) (t : Fin 64) (f : Row → Row) : (updRow s t f).ports = s.ports := (rfl)
@[simp] theorem updRow_power (s : State) (t : Fin 64) (f : Row → Row) : (updRow s t f).power = s.power := (rfl)
@[simp] theorem updRow_ocast (s : State) (t : Fin 64) (f : Row → Row) : (updRow s t f).ocast = s.ocast := (rfl)
@[simp] theorem updRow_host (s : State) (t : Fin 64) (f : Row → Row) : (updRow s t f).host = s.host := (rfl)
@[simp] theorem updRow_conc (s : State) (t : Fin 64) (f : Row → Row) : (updRow s t f).conc = s.conc := (rfl)
@[simp] theorem updRow_mgmt (s : State) (t : Fin 64) (f : Row → Row) : (updRow s t f).mgmt = s.mgmt := (rfl)
@[simp] theorem updRow_pins (s : State) (t : Fin 64) (f : Row → Row) : (updRow s t f).pins = s.pins := (rfl)

@[simp] theorem setCpu_pending (s : State) (q : Cpu) (p : Proc) : (setCpu s q p).pending = s.pending := by cases q <;> rfl
@[simp] theorem setCpu_clock (s : State) (q : Cpu) (p : Proc) : (setCpu s q p).clock = s.clock := by cases q <;> rfl
@[simp] theorem setCpu_fuses (s : State) (q : Cpu) (p : Proc) : (setCpu s q p).fuses = s.fuses := by cases q <;> rfl
@[simp] theorem setCpu_acc (s : State) (q : Cpu) (p : Proc) : (setCpu s q p).acc = s.acc := by cases q <;> rfl
@[simp] theorem setCpu_frees (s : State) (q : Cpu) (p : Proc) : (setCpu s q p).frees = s.frees := by cases q <;> rfl
@[simp] theorem setCpu_regs (s : State) (q : Cpu) (p : Proc) : (setCpu s q p).regs = s.regs := by cases q <;> rfl
@[simp] theorem setCpu_logs (s : State) (q : Cpu) (p : Proc) : (setCpu s q p).logs = s.logs := by cases q <;> rfl
@[simp] theorem setCpu_blks (s : State) (q : Cpu) (p : Proc) : (setCpu s q p).blks = s.blks := by cases q <;> rfl
@[simp] theorem setCpu_scr (s : State) (q : Cpu) (p : Proc) : (setCpu s q p).scr = s.scr := by cases q <;> rfl
@[simp] theorem setCpu_scrChk (s : State) (q : Cpu) (p : Proc) : (setCpu s q p).scrChk = s.scrChk := by cases q <;> rfl
@[simp] theorem setCpu_dram (s : State) (q : Cpu) (p : Proc) : (setCpu s q p).dram = s.dram := by cases q <;> rfl
@[simp] theorem setCpu_pv (s : State) (q : Cpu) (p : Proc) : (setCpu s q p).pv = s.pv := by cases q <;> rfl
@[simp] theorem setCpu_bootMem (s : State) (q : Cpu) (p : Proc) : (setCpu s q p).bootMem = s.bootMem := by cases q <;> rfl
@[simp] theorem setCpu_banks (s : State) (q : Cpu) (p : Proc) : (setCpu s q p).banks = s.banks := by cases q <;> rfl
@[simp] theorem setCpu_stks (s : State) (q : Cpu) (p : Proc) : (setCpu s q p).stks = s.stks := by cases q <;> rfl
@[simp] theorem setCpu_ctxs (s : State) (q : Cpu) (p : Proc) : (setCpu s q p).ctxs = s.ctxs := by cases q <;> rfl
@[simp] theorem setCpu_chans (s : State) (q : Cpu) (p : Proc) : (setCpu s q p).chans = s.chans := by cases q <;> rfl
@[simp] theorem setCpu_engs (s : State) (q : Cpu) (p : Proc) : (setCpu s q p).engs = s.engs := by cases q <;> rfl
@[simp] theorem setCpu_regions (s : State) (q : Cpu) (p : Proc) : (setCpu s q p).regions = s.regions := by cases q <;> rfl
@[simp] theorem setCpu_loader (s : State) (q : Cpu) (p : Proc) : (setCpu s q p).loader = s.loader := by cases q <;> rfl
@[simp] theorem setCpu_checks (s : State) (q : Cpu) (p : Proc) : (setCpu s q p).checks = s.checks := by cases q <;> rfl
@[simp] theorem setCpu_net (s : State) (q : Cpu) (p : Proc) : (setCpu s q p).net = s.net := by cases q <;> rfl
@[simp] theorem setCpu_ports (s : State) (q : Cpu) (p : Proc) : (setCpu s q p).ports = s.ports := by cases q <;> rfl
@[simp] theorem setCpu_power (s : State) (q : Cpu) (p : Proc) : (setCpu s q p).power = s.power := by cases q <;> rfl
@[simp] theorem setCpu_ocast (s : State) (q : Cpu) (p : Proc) : (setCpu s q p).ocast = s.ocast := by cases q <;> rfl
@[simp] theorem setCpu_host (s : State) (q : Cpu) (p : Proc) : (setCpu s q p).host = s.host := by cases q <;> rfl
@[simp] theorem setCpu_conc (s : State) (q : Cpu) (p : Proc) : (setCpu s q p).conc = s.conc := by cases q <;> rfl
@[simp] theorem setCpu_mgmt (s : State) (q : Cpu) (p : Proc) : (setCpu s q p).mgmt = s.mgmt := by cases q <;> rfl
@[simp] theorem setCpu_pins (s : State) (q : Cpu) (p : Proc) : (setCpu s q p).pins = s.pins := by cases q <;> rfl

@[simp] theorem updCpu_pending (s : State) (q : Cpu) (f : Proc → Proc) : (updCpu s q f).pending = s.pending := by cases q <;> rfl
@[simp] theorem updCpu_clock (s : State) (q : Cpu) (f : Proc → Proc) : (updCpu s q f).clock = s.clock := by cases q <;> rfl
@[simp] theorem updCpu_fuses (s : State) (q : Cpu) (f : Proc → Proc) : (updCpu s q f).fuses = s.fuses := by cases q <;> rfl
@[simp] theorem updCpu_acc (s : State) (q : Cpu) (f : Proc → Proc) : (updCpu s q f).acc = s.acc := by cases q <;> rfl
@[simp] theorem updCpu_frees (s : State) (q : Cpu) (f : Proc → Proc) : (updCpu s q f).frees = s.frees := by cases q <;> rfl
@[simp] theorem updCpu_regs (s : State) (q : Cpu) (f : Proc → Proc) : (updCpu s q f).regs = s.regs := by cases q <;> rfl
@[simp] theorem updCpu_logs (s : State) (q : Cpu) (f : Proc → Proc) : (updCpu s q f).logs = s.logs := by cases q <;> rfl
@[simp] theorem updCpu_blks (s : State) (q : Cpu) (f : Proc → Proc) : (updCpu s q f).blks = s.blks := by cases q <;> rfl
@[simp] theorem updCpu_scr (s : State) (q : Cpu) (f : Proc → Proc) : (updCpu s q f).scr = s.scr := by cases q <;> rfl
@[simp] theorem updCpu_scrChk (s : State) (q : Cpu) (f : Proc → Proc) : (updCpu s q f).scrChk = s.scrChk := by cases q <;> rfl
@[simp] theorem updCpu_dram (s : State) (q : Cpu) (f : Proc → Proc) : (updCpu s q f).dram = s.dram := by cases q <;> rfl
@[simp] theorem updCpu_pv (s : State) (q : Cpu) (f : Proc → Proc) : (updCpu s q f).pv = s.pv := by cases q <;> rfl
@[simp] theorem updCpu_bootMem (s : State) (q : Cpu) (f : Proc → Proc) : (updCpu s q f).bootMem = s.bootMem := by cases q <;> rfl
@[simp] theorem updCpu_banks (s : State) (q : Cpu) (f : Proc → Proc) : (updCpu s q f).banks = s.banks := by cases q <;> rfl
@[simp] theorem updCpu_stks (s : State) (q : Cpu) (f : Proc → Proc) : (updCpu s q f).stks = s.stks := by cases q <;> rfl
@[simp] theorem updCpu_ctxs (s : State) (q : Cpu) (f : Proc → Proc) : (updCpu s q f).ctxs = s.ctxs := by cases q <;> rfl
@[simp] theorem updCpu_chans (s : State) (q : Cpu) (f : Proc → Proc) : (updCpu s q f).chans = s.chans := by cases q <;> rfl
@[simp] theorem updCpu_engs (s : State) (q : Cpu) (f : Proc → Proc) : (updCpu s q f).engs = s.engs := by cases q <;> rfl
@[simp] theorem updCpu_regions (s : State) (q : Cpu) (f : Proc → Proc) : (updCpu s q f).regions = s.regions := by cases q <;> rfl
@[simp] theorem updCpu_loader (s : State) (q : Cpu) (f : Proc → Proc) : (updCpu s q f).loader = s.loader := by cases q <;> rfl
@[simp] theorem updCpu_checks (s : State) (q : Cpu) (f : Proc → Proc) : (updCpu s q f).checks = s.checks := by cases q <;> rfl
@[simp] theorem updCpu_net (s : State) (q : Cpu) (f : Proc → Proc) : (updCpu s q f).net = s.net := by cases q <;> rfl
@[simp] theorem updCpu_ports (s : State) (q : Cpu) (f : Proc → Proc) : (updCpu s q f).ports = s.ports := by cases q <;> rfl
@[simp] theorem updCpu_power (s : State) (q : Cpu) (f : Proc → Proc) : (updCpu s q f).power = s.power := by cases q <;> rfl
@[simp] theorem updCpu_ocast (s : State) (q : Cpu) (f : Proc → Proc) : (updCpu s q f).ocast = s.ocast := by cases q <;> rfl
@[simp] theorem updCpu_host (s : State) (q : Cpu) (f : Proc → Proc) : (updCpu s q f).host = s.host := by cases q <;> rfl
@[simp] theorem updCpu_conc (s : State) (q : Cpu) (f : Proc → Proc) : (updCpu s q f).conc = s.conc := by cases q <;> rfl
@[simp] theorem updCpu_mgmt (s : State) (q : Cpu) (f : Proc → Proc) : (updCpu s q f).mgmt = s.mgmt := by cases q <;> rfl
@[simp] theorem updCpu_pins (s : State) (q : Cpu) (f : Proc → Proc) : (updCpu s q f).pins = s.pins := by cases q <;> rfl

@[simp] theorem updBank_pending (s : State) (t : Fin 64) (g : Fin 4) (f : Bank → Bank) : (updBank s t g f).pending = s.pending := (rfl)
@[simp] theorem updBank_clock (s : State) (t : Fin 64) (g : Fin 4) (f : Bank → Bank) : (updBank s t g f).clock = s.clock := (rfl)
@[simp] theorem updBank_fuses (s : State) (t : Fin 64) (g : Fin 4) (f : Bank → Bank) : (updBank s t g f).fuses = s.fuses := (rfl)
@[simp] theorem updBank_acc (s : State) (t : Fin 64) (g : Fin 4) (f : Bank → Bank) : (updBank s t g f).acc = s.acc := (rfl)
@[simp] theorem updBank_frees (s : State) (t : Fin 64) (g : Fin 4) (f : Bank → Bank) : (updBank s t g f).frees = s.frees := (rfl)
@[simp] theorem updBank_regs (s : State) (t : Fin 64) (g : Fin 4) (f : Bank → Bank) : (updBank s t g f).regs = s.regs := (rfl)
@[simp] theorem updBank_logs (s : State) (t : Fin 64) (g : Fin 4) (f : Bank → Bank) : (updBank s t g f).logs = s.logs := (rfl)
@[simp] theorem updBank_blks (s : State) (t : Fin 64) (g : Fin 4) (f : Bank → Bank) : (updBank s t g f).blks = s.blks := (rfl)
@[simp] theorem updBank_scr (s : State) (t : Fin 64) (g : Fin 4) (f : Bank → Bank) : (updBank s t g f).scr = s.scr := (rfl)
@[simp] theorem updBank_scrChk (s : State) (t : Fin 64) (g : Fin 4) (f : Bank → Bank) : (updBank s t g f).scrChk = s.scrChk := (rfl)
@[simp] theorem updBank_dram (s : State) (t : Fin 64) (g : Fin 4) (f : Bank → Bank) : (updBank s t g f).dram = s.dram := (rfl)
@[simp] theorem updBank_pv (s : State) (t : Fin 64) (g : Fin 4) (f : Bank → Bank) : (updBank s t g f).pv = s.pv := (rfl)
@[simp] theorem updBank_bootMem (s : State) (t : Fin 64) (g : Fin 4) (f : Bank → Bank) : (updBank s t g f).bootMem = s.bootMem := (rfl)
@[simp] theorem updBank_tiles (s : State) (t : Fin 64) (g : Fin 4) (f : Bank → Bank) : (updBank s t g f).tiles = s.tiles := (rfl)
@[simp] theorem updBank_cores (s : State) (t : Fin 64) (g : Fin 4) (f : Bank → Bank) : (updBank s t g f).cores = s.cores := (rfl)
@[simp] theorem updBank_stks (s : State) (t : Fin 64) (g : Fin 4) (f : Bank → Bank) : (updBank s t g f).stks = s.stks := (rfl)
@[simp] theorem updBank_ctxs (s : State) (t : Fin 64) (g : Fin 4) (f : Bank → Bank) : (updBank s t g f).ctxs = s.ctxs := (rfl)
@[simp] theorem updBank_chans (s : State) (t : Fin 64) (g : Fin 4) (f : Bank → Bank) : (updBank s t g f).chans = s.chans := (rfl)
@[simp] theorem updBank_engs (s : State) (t : Fin 64) (g : Fin 4) (f : Bank → Bank) : (updBank s t g f).engs = s.engs := (rfl)
@[simp] theorem updBank_regions (s : State) (t : Fin 64) (g : Fin 4) (f : Bank → Bank) : (updBank s t g f).regions = s.regions := (rfl)
@[simp] theorem updBank_loader (s : State) (t : Fin 64) (g : Fin 4) (f : Bank → Bank) : (updBank s t g f).loader = s.loader := (rfl)
@[simp] theorem updBank_checks (s : State) (t : Fin 64) (g : Fin 4) (f : Bank → Bank) : (updBank s t g f).checks = s.checks := (rfl)
@[simp] theorem updBank_net (s : State) (t : Fin 64) (g : Fin 4) (f : Bank → Bank) : (updBank s t g f).net = s.net := (rfl)
@[simp] theorem updBank_ports (s : State) (t : Fin 64) (g : Fin 4) (f : Bank → Bank) : (updBank s t g f).ports = s.ports := (rfl)
@[simp] theorem updBank_power (s : State) (t : Fin 64) (g : Fin 4) (f : Bank → Bank) : (updBank s t g f).power = s.power := (rfl)
@[simp] theorem updBank_ocast (s : State) (t : Fin 64) (g : Fin 4) (f : Bank → Bank) : (updBank s t g f).ocast = s.ocast := (rfl)
@[simp] theorem updBank_host (s : State) (t : Fin 64) (g : Fin 4) (f : Bank → Bank) : (updBank s t g f).host = s.host := (rfl)
@[simp] theorem updBank_conc (s : State) (t : Fin 64) (g : Fin 4) (f : Bank → Bank) : (updBank s t g f).conc = s.conc := (rfl)
@[simp] theorem updBank_mgmt (s : State) (t : Fin 64) (g : Fin 4) (f : Bank → Bank) : (updBank s t g f).mgmt = s.mgmt := (rfl)
@[simp] theorem updBank_pins (s : State) (t : Fin 64) (g : Fin 4) (f : Bank → Bank) : (updBank s t g f).pins = s.pins := (rfl)

@[simp] theorem updStack_pending (s : State) (k : Fin 8) (f : Stack → Stack) : (updStack s k f).pending = s.pending := (rfl)
@[simp] theorem updStack_clock (s : State) (k : Fin 8) (f : Stack → Stack) : (updStack s k f).clock = s.clock := (rfl)
@[simp] theorem updStack_fuses (s : State) (k : Fin 8) (f : Stack → Stack) : (updStack s k f).fuses = s.fuses := (rfl)
@[simp] theorem updStack_acc (s : State) (k : Fin 8) (f : Stack → Stack) : (updStack s k f).acc = s.acc := (rfl)
@[simp] theorem updStack_frees (s : State) (k : Fin 8) (f : Stack → Stack) : (updStack s k f).frees = s.frees := (rfl)
@[simp] theorem updStack_regs (s : State) (k : Fin 8) (f : Stack → Stack) : (updStack s k f).regs = s.regs := (rfl)
@[simp] theorem updStack_logs (s : State) (k : Fin 8) (f : Stack → Stack) : (updStack s k f).logs = s.logs := (rfl)
@[simp] theorem updStack_blks (s : State) (k : Fin 8) (f : Stack → Stack) : (updStack s k f).blks = s.blks := (rfl)
@[simp] theorem updStack_scr (s : State) (k : Fin 8) (f : Stack → Stack) : (updStack s k f).scr = s.scr := (rfl)
@[simp] theorem updStack_scrChk (s : State) (k : Fin 8) (f : Stack → Stack) : (updStack s k f).scrChk = s.scrChk := (rfl)
@[simp] theorem updStack_dram (s : State) (k : Fin 8) (f : Stack → Stack) : (updStack s k f).dram = s.dram := (rfl)
@[simp] theorem updStack_pv (s : State) (k : Fin 8) (f : Stack → Stack) : (updStack s k f).pv = s.pv := (rfl)
@[simp] theorem updStack_bootMem (s : State) (k : Fin 8) (f : Stack → Stack) : (updStack s k f).bootMem = s.bootMem := (rfl)
@[simp] theorem updStack_tiles (s : State) (k : Fin 8) (f : Stack → Stack) : (updStack s k f).tiles = s.tiles := (rfl)
@[simp] theorem updStack_cores (s : State) (k : Fin 8) (f : Stack → Stack) : (updStack s k f).cores = s.cores := (rfl)
@[simp] theorem updStack_banks (s : State) (k : Fin 8) (f : Stack → Stack) : (updStack s k f).banks = s.banks := (rfl)
@[simp] theorem updStack_ctxs (s : State) (k : Fin 8) (f : Stack → Stack) : (updStack s k f).ctxs = s.ctxs := (rfl)
@[simp] theorem updStack_chans (s : State) (k : Fin 8) (f : Stack → Stack) : (updStack s k f).chans = s.chans := (rfl)
@[simp] theorem updStack_engs (s : State) (k : Fin 8) (f : Stack → Stack) : (updStack s k f).engs = s.engs := (rfl)
@[simp] theorem updStack_regions (s : State) (k : Fin 8) (f : Stack → Stack) : (updStack s k f).regions = s.regions := (rfl)
@[simp] theorem updStack_loader (s : State) (k : Fin 8) (f : Stack → Stack) : (updStack s k f).loader = s.loader := (rfl)
@[simp] theorem updStack_checks (s : State) (k : Fin 8) (f : Stack → Stack) : (updStack s k f).checks = s.checks := (rfl)
@[simp] theorem updStack_net (s : State) (k : Fin 8) (f : Stack → Stack) : (updStack s k f).net = s.net := (rfl)
@[simp] theorem updStack_ports (s : State) (k : Fin 8) (f : Stack → Stack) : (updStack s k f).ports = s.ports := (rfl)
@[simp] theorem updStack_power (s : State) (k : Fin 8) (f : Stack → Stack) : (updStack s k f).power = s.power := (rfl)
@[simp] theorem updStack_ocast (s : State) (k : Fin 8) (f : Stack → Stack) : (updStack s k f).ocast = s.ocast := (rfl)
@[simp] theorem updStack_host (s : State) (k : Fin 8) (f : Stack → Stack) : (updStack s k f).host = s.host := (rfl)
@[simp] theorem updStack_conc (s : State) (k : Fin 8) (f : Stack → Stack) : (updStack s k f).conc = s.conc := (rfl)
@[simp] theorem updStack_mgmt (s : State) (k : Fin 8) (f : Stack → Stack) : (updStack s k f).mgmt = s.mgmt := (rfl)
@[simp] theorem updStack_pins (s : State) (k : Fin 8) (f : Stack → Stack) : (updStack s k f).pins = s.pins := (rfl)

@[simp] theorem setCtx_pending (s : State) (k : Fin 8) (x : Fin 2048) (c : Ctx) : (setCtx s k x c).pending = s.pending := (rfl)
@[simp] theorem setCtx_clock (s : State) (k : Fin 8) (x : Fin 2048) (c : Ctx) : (setCtx s k x c).clock = s.clock := (rfl)
@[simp] theorem setCtx_fuses (s : State) (k : Fin 8) (x : Fin 2048) (c : Ctx) : (setCtx s k x c).fuses = s.fuses := (rfl)
@[simp] theorem setCtx_acc (s : State) (k : Fin 8) (x : Fin 2048) (c : Ctx) : (setCtx s k x c).acc = s.acc := (rfl)
@[simp] theorem setCtx_frees (s : State) (k : Fin 8) (x : Fin 2048) (c : Ctx) : (setCtx s k x c).frees = s.frees := (rfl)
@[simp] theorem setCtx_regs (s : State) (k : Fin 8) (x : Fin 2048) (c : Ctx) : (setCtx s k x c).regs = s.regs := (rfl)
@[simp] theorem setCtx_logs (s : State) (k : Fin 8) (x : Fin 2048) (c : Ctx) : (setCtx s k x c).logs = s.logs := (rfl)
@[simp] theorem setCtx_blks (s : State) (k : Fin 8) (x : Fin 2048) (c : Ctx) : (setCtx s k x c).blks = s.blks := (rfl)
@[simp] theorem setCtx_scr (s : State) (k : Fin 8) (x : Fin 2048) (c : Ctx) : (setCtx s k x c).scr = s.scr := (rfl)
@[simp] theorem setCtx_scrChk (s : State) (k : Fin 8) (x : Fin 2048) (c : Ctx) : (setCtx s k x c).scrChk = s.scrChk := (rfl)
@[simp] theorem setCtx_dram (s : State) (k : Fin 8) (x : Fin 2048) (c : Ctx) : (setCtx s k x c).dram = s.dram := (rfl)
@[simp] theorem setCtx_pv (s : State) (k : Fin 8) (x : Fin 2048) (c : Ctx) : (setCtx s k x c).pv = s.pv := (rfl)
@[simp] theorem setCtx_bootMem (s : State) (k : Fin 8) (x : Fin 2048) (c : Ctx) : (setCtx s k x c).bootMem = s.bootMem := (rfl)
@[simp] theorem setCtx_tiles (s : State) (k : Fin 8) (x : Fin 2048) (c : Ctx) : (setCtx s k x c).tiles = s.tiles := (rfl)
@[simp] theorem setCtx_cores (s : State) (k : Fin 8) (x : Fin 2048) (c : Ctx) : (setCtx s k x c).cores = s.cores := (rfl)
@[simp] theorem setCtx_banks (s : State) (k : Fin 8) (x : Fin 2048) (c : Ctx) : (setCtx s k x c).banks = s.banks := (rfl)
@[simp] theorem setCtx_stks (s : State) (k : Fin 8) (x : Fin 2048) (c : Ctx) : (setCtx s k x c).stks = s.stks := (rfl)
@[simp] theorem setCtx_chans (s : State) (k : Fin 8) (x : Fin 2048) (c : Ctx) : (setCtx s k x c).chans = s.chans := (rfl)
@[simp] theorem setCtx_engs (s : State) (k : Fin 8) (x : Fin 2048) (c : Ctx) : (setCtx s k x c).engs = s.engs := (rfl)
@[simp] theorem setCtx_regions (s : State) (k : Fin 8) (x : Fin 2048) (c : Ctx) : (setCtx s k x c).regions = s.regions := (rfl)
@[simp] theorem setCtx_loader (s : State) (k : Fin 8) (x : Fin 2048) (c : Ctx) : (setCtx s k x c).loader = s.loader := (rfl)
@[simp] theorem setCtx_checks (s : State) (k : Fin 8) (x : Fin 2048) (c : Ctx) : (setCtx s k x c).checks = s.checks := (rfl)
@[simp] theorem setCtx_net (s : State) (k : Fin 8) (x : Fin 2048) (c : Ctx) : (setCtx s k x c).net = s.net := (rfl)
@[simp] theorem setCtx_ports (s : State) (k : Fin 8) (x : Fin 2048) (c : Ctx) : (setCtx s k x c).ports = s.ports := (rfl)
@[simp] theorem setCtx_power (s : State) (k : Fin 8) (x : Fin 2048) (c : Ctx) : (setCtx s k x c).power = s.power := (rfl)
@[simp] theorem setCtx_ocast (s : State) (k : Fin 8) (x : Fin 2048) (c : Ctx) : (setCtx s k x c).ocast = s.ocast := (rfl)
@[simp] theorem setCtx_host (s : State) (k : Fin 8) (x : Fin 2048) (c : Ctx) : (setCtx s k x c).host = s.host := (rfl)
@[simp] theorem setCtx_conc (s : State) (k : Fin 8) (x : Fin 2048) (c : Ctx) : (setCtx s k x c).conc = s.conc := (rfl)
@[simp] theorem setCtx_mgmt (s : State) (k : Fin 8) (x : Fin 2048) (c : Ctx) : (setCtx s k x c).mgmt = s.mgmt := (rfl)
@[simp] theorem setCtx_pins (s : State) (k : Fin 8) (x : Fin 2048) (c : Ctx) : (setCtx s k x c).pins = s.pins := (rfl)

@[simp] theorem updCtx_pending (s : State) (k : Fin 8) (x : Fin 2048) (f : Ctx → Ctx) : (updCtx s k x f).pending = s.pending := (rfl)
@[simp] theorem updCtx_clock (s : State) (k : Fin 8) (x : Fin 2048) (f : Ctx → Ctx) : (updCtx s k x f).clock = s.clock := (rfl)
@[simp] theorem updCtx_fuses (s : State) (k : Fin 8) (x : Fin 2048) (f : Ctx → Ctx) : (updCtx s k x f).fuses = s.fuses := (rfl)
@[simp] theorem updCtx_acc (s : State) (k : Fin 8) (x : Fin 2048) (f : Ctx → Ctx) : (updCtx s k x f).acc = s.acc := (rfl)
@[simp] theorem updCtx_frees (s : State) (k : Fin 8) (x : Fin 2048) (f : Ctx → Ctx) : (updCtx s k x f).frees = s.frees := (rfl)
@[simp] theorem updCtx_regs (s : State) (k : Fin 8) (x : Fin 2048) (f : Ctx → Ctx) : (updCtx s k x f).regs = s.regs := (rfl)
@[simp] theorem updCtx_logs (s : State) (k : Fin 8) (x : Fin 2048) (f : Ctx → Ctx) : (updCtx s k x f).logs = s.logs := (rfl)
@[simp] theorem updCtx_blks (s : State) (k : Fin 8) (x : Fin 2048) (f : Ctx → Ctx) : (updCtx s k x f).blks = s.blks := (rfl)
@[simp] theorem updCtx_scr (s : State) (k : Fin 8) (x : Fin 2048) (f : Ctx → Ctx) : (updCtx s k x f).scr = s.scr := (rfl)
@[simp] theorem updCtx_scrChk (s : State) (k : Fin 8) (x : Fin 2048) (f : Ctx → Ctx) : (updCtx s k x f).scrChk = s.scrChk := (rfl)
@[simp] theorem updCtx_dram (s : State) (k : Fin 8) (x : Fin 2048) (f : Ctx → Ctx) : (updCtx s k x f).dram = s.dram := (rfl)
@[simp] theorem updCtx_pv (s : State) (k : Fin 8) (x : Fin 2048) (f : Ctx → Ctx) : (updCtx s k x f).pv = s.pv := (rfl)
@[simp] theorem updCtx_bootMem (s : State) (k : Fin 8) (x : Fin 2048) (f : Ctx → Ctx) : (updCtx s k x f).bootMem = s.bootMem := (rfl)
@[simp] theorem updCtx_tiles (s : State) (k : Fin 8) (x : Fin 2048) (f : Ctx → Ctx) : (updCtx s k x f).tiles = s.tiles := (rfl)
@[simp] theorem updCtx_cores (s : State) (k : Fin 8) (x : Fin 2048) (f : Ctx → Ctx) : (updCtx s k x f).cores = s.cores := (rfl)
@[simp] theorem updCtx_banks (s : State) (k : Fin 8) (x : Fin 2048) (f : Ctx → Ctx) : (updCtx s k x f).banks = s.banks := (rfl)
@[simp] theorem updCtx_stks (s : State) (k : Fin 8) (x : Fin 2048) (f : Ctx → Ctx) : (updCtx s k x f).stks = s.stks := (rfl)
@[simp] theorem updCtx_chans (s : State) (k : Fin 8) (x : Fin 2048) (f : Ctx → Ctx) : (updCtx s k x f).chans = s.chans := (rfl)
@[simp] theorem updCtx_engs (s : State) (k : Fin 8) (x : Fin 2048) (f : Ctx → Ctx) : (updCtx s k x f).engs = s.engs := (rfl)
@[simp] theorem updCtx_regions (s : State) (k : Fin 8) (x : Fin 2048) (f : Ctx → Ctx) : (updCtx s k x f).regions = s.regions := (rfl)
@[simp] theorem updCtx_loader (s : State) (k : Fin 8) (x : Fin 2048) (f : Ctx → Ctx) : (updCtx s k x f).loader = s.loader := (rfl)
@[simp] theorem updCtx_checks (s : State) (k : Fin 8) (x : Fin 2048) (f : Ctx → Ctx) : (updCtx s k x f).checks = s.checks := (rfl)
@[simp] theorem updCtx_net (s : State) (k : Fin 8) (x : Fin 2048) (f : Ctx → Ctx) : (updCtx s k x f).net = s.net := (rfl)
@[simp] theorem updCtx_ports (s : State) (k : Fin 8) (x : Fin 2048) (f : Ctx → Ctx) : (updCtx s k x f).ports = s.ports := (rfl)
@[simp] theorem updCtx_power (s : State) (k : Fin 8) (x : Fin 2048) (f : Ctx → Ctx) : (updCtx s k x f).power = s.power := (rfl)
@[simp] theorem updCtx_ocast (s : State) (k : Fin 8) (x : Fin 2048) (f : Ctx → Ctx) : (updCtx s k x f).ocast = s.ocast := (rfl)
@[simp] theorem updCtx_host (s : State) (k : Fin 8) (x : Fin 2048) (f : Ctx → Ctx) : (updCtx s k x f).host = s.host := (rfl)
@[simp] theorem updCtx_conc (s : State) (k : Fin 8) (x : Fin 2048) (f : Ctx → Ctx) : (updCtx s k x f).conc = s.conc := (rfl)
@[simp] theorem updCtx_mgmt (s : State) (k : Fin 8) (x : Fin 2048) (f : Ctx → Ctx) : (updCtx s k x f).mgmt = s.mgmt := (rfl)
@[simp] theorem updCtx_pins (s : State) (k : Fin 8) (x : Fin 2048) (f : Ctx → Ctx) : (updCtx s k x f).pins = s.pins := (rfl)

@[simp] theorem updChan_pending (s : State) (k : Fin 8) (c : Fin 32) (f : Chan → Chan) : (updChan s k c f).pending = s.pending := (rfl)
@[simp] theorem updChan_clock (s : State) (k : Fin 8) (c : Fin 32) (f : Chan → Chan) : (updChan s k c f).clock = s.clock := (rfl)
@[simp] theorem updChan_fuses (s : State) (k : Fin 8) (c : Fin 32) (f : Chan → Chan) : (updChan s k c f).fuses = s.fuses := (rfl)
@[simp] theorem updChan_acc (s : State) (k : Fin 8) (c : Fin 32) (f : Chan → Chan) : (updChan s k c f).acc = s.acc := (rfl)
@[simp] theorem updChan_frees (s : State) (k : Fin 8) (c : Fin 32) (f : Chan → Chan) : (updChan s k c f).frees = s.frees := (rfl)
@[simp] theorem updChan_regs (s : State) (k : Fin 8) (c : Fin 32) (f : Chan → Chan) : (updChan s k c f).regs = s.regs := (rfl)
@[simp] theorem updChan_logs (s : State) (k : Fin 8) (c : Fin 32) (f : Chan → Chan) : (updChan s k c f).logs = s.logs := (rfl)
@[simp] theorem updChan_blks (s : State) (k : Fin 8) (c : Fin 32) (f : Chan → Chan) : (updChan s k c f).blks = s.blks := (rfl)
@[simp] theorem updChan_scr (s : State) (k : Fin 8) (c : Fin 32) (f : Chan → Chan) : (updChan s k c f).scr = s.scr := (rfl)
@[simp] theorem updChan_scrChk (s : State) (k : Fin 8) (c : Fin 32) (f : Chan → Chan) : (updChan s k c f).scrChk = s.scrChk := (rfl)
@[simp] theorem updChan_dram (s : State) (k : Fin 8) (c : Fin 32) (f : Chan → Chan) : (updChan s k c f).dram = s.dram := (rfl)
@[simp] theorem updChan_pv (s : State) (k : Fin 8) (c : Fin 32) (f : Chan → Chan) : (updChan s k c f).pv = s.pv := (rfl)
@[simp] theorem updChan_bootMem (s : State) (k : Fin 8) (c : Fin 32) (f : Chan → Chan) : (updChan s k c f).bootMem = s.bootMem := (rfl)
@[simp] theorem updChan_tiles (s : State) (k : Fin 8) (c : Fin 32) (f : Chan → Chan) : (updChan s k c f).tiles = s.tiles := (rfl)
@[simp] theorem updChan_cores (s : State) (k : Fin 8) (c : Fin 32) (f : Chan → Chan) : (updChan s k c f).cores = s.cores := (rfl)
@[simp] theorem updChan_banks (s : State) (k : Fin 8) (c : Fin 32) (f : Chan → Chan) : (updChan s k c f).banks = s.banks := (rfl)
@[simp] theorem updChan_stks (s : State) (k : Fin 8) (c : Fin 32) (f : Chan → Chan) : (updChan s k c f).stks = s.stks := (rfl)
@[simp] theorem updChan_ctxs (s : State) (k : Fin 8) (c : Fin 32) (f : Chan → Chan) : (updChan s k c f).ctxs = s.ctxs := (rfl)
@[simp] theorem updChan_engs (s : State) (k : Fin 8) (c : Fin 32) (f : Chan → Chan) : (updChan s k c f).engs = s.engs := (rfl)
@[simp] theorem updChan_regions (s : State) (k : Fin 8) (c : Fin 32) (f : Chan → Chan) : (updChan s k c f).regions = s.regions := (rfl)
@[simp] theorem updChan_loader (s : State) (k : Fin 8) (c : Fin 32) (f : Chan → Chan) : (updChan s k c f).loader = s.loader := (rfl)
@[simp] theorem updChan_checks (s : State) (k : Fin 8) (c : Fin 32) (f : Chan → Chan) : (updChan s k c f).checks = s.checks := (rfl)
@[simp] theorem updChan_net (s : State) (k : Fin 8) (c : Fin 32) (f : Chan → Chan) : (updChan s k c f).net = s.net := (rfl)
@[simp] theorem updChan_ports (s : State) (k : Fin 8) (c : Fin 32) (f : Chan → Chan) : (updChan s k c f).ports = s.ports := (rfl)
@[simp] theorem updChan_power (s : State) (k : Fin 8) (c : Fin 32) (f : Chan → Chan) : (updChan s k c f).power = s.power := (rfl)
@[simp] theorem updChan_ocast (s : State) (k : Fin 8) (c : Fin 32) (f : Chan → Chan) : (updChan s k c f).ocast = s.ocast := (rfl)
@[simp] theorem updChan_host (s : State) (k : Fin 8) (c : Fin 32) (f : Chan → Chan) : (updChan s k c f).host = s.host := (rfl)
@[simp] theorem updChan_conc (s : State) (k : Fin 8) (c : Fin 32) (f : Chan → Chan) : (updChan s k c f).conc = s.conc := (rfl)
@[simp] theorem updChan_mgmt (s : State) (k : Fin 8) (c : Fin 32) (f : Chan → Chan) : (updChan s k c f).mgmt = s.mgmt := (rfl)
@[simp] theorem updChan_pins (s : State) (k : Fin 8) (c : Fin 32) (f : Chan → Chan) : (updChan s k c f).pins = s.pins := (rfl)

@[simp] theorem updEng_pending (s : State) (k : Fin 8) (e : Fin 16) (f : Unit → Unit) : (updEng s k e f).pending = s.pending := (rfl)
@[simp] theorem updEng_clock (s : State) (k : Fin 8) (e : Fin 16) (f : Unit → Unit) : (updEng s k e f).clock = s.clock := (rfl)
@[simp] theorem updEng_fuses (s : State) (k : Fin 8) (e : Fin 16) (f : Unit → Unit) : (updEng s k e f).fuses = s.fuses := (rfl)
@[simp] theorem updEng_acc (s : State) (k : Fin 8) (e : Fin 16) (f : Unit → Unit) : (updEng s k e f).acc = s.acc := (rfl)
@[simp] theorem updEng_frees (s : State) (k : Fin 8) (e : Fin 16) (f : Unit → Unit) : (updEng s k e f).frees = s.frees := (rfl)
@[simp] theorem updEng_regs (s : State) (k : Fin 8) (e : Fin 16) (f : Unit → Unit) : (updEng s k e f).regs = s.regs := (rfl)
@[simp] theorem updEng_logs (s : State) (k : Fin 8) (e : Fin 16) (f : Unit → Unit) : (updEng s k e f).logs = s.logs := (rfl)
@[simp] theorem updEng_blks (s : State) (k : Fin 8) (e : Fin 16) (f : Unit → Unit) : (updEng s k e f).blks = s.blks := (rfl)
@[simp] theorem updEng_scr (s : State) (k : Fin 8) (e : Fin 16) (f : Unit → Unit) : (updEng s k e f).scr = s.scr := (rfl)
@[simp] theorem updEng_scrChk (s : State) (k : Fin 8) (e : Fin 16) (f : Unit → Unit) : (updEng s k e f).scrChk = s.scrChk := (rfl)
@[simp] theorem updEng_dram (s : State) (k : Fin 8) (e : Fin 16) (f : Unit → Unit) : (updEng s k e f).dram = s.dram := (rfl)
@[simp] theorem updEng_pv (s : State) (k : Fin 8) (e : Fin 16) (f : Unit → Unit) : (updEng s k e f).pv = s.pv := (rfl)
@[simp] theorem updEng_bootMem (s : State) (k : Fin 8) (e : Fin 16) (f : Unit → Unit) : (updEng s k e f).bootMem = s.bootMem := (rfl)
@[simp] theorem updEng_tiles (s : State) (k : Fin 8) (e : Fin 16) (f : Unit → Unit) : (updEng s k e f).tiles = s.tiles := (rfl)
@[simp] theorem updEng_cores (s : State) (k : Fin 8) (e : Fin 16) (f : Unit → Unit) : (updEng s k e f).cores = s.cores := (rfl)
@[simp] theorem updEng_banks (s : State) (k : Fin 8) (e : Fin 16) (f : Unit → Unit) : (updEng s k e f).banks = s.banks := (rfl)
@[simp] theorem updEng_stks (s : State) (k : Fin 8) (e : Fin 16) (f : Unit → Unit) : (updEng s k e f).stks = s.stks := (rfl)
@[simp] theorem updEng_ctxs (s : State) (k : Fin 8) (e : Fin 16) (f : Unit → Unit) : (updEng s k e f).ctxs = s.ctxs := (rfl)
@[simp] theorem updEng_chans (s : State) (k : Fin 8) (e : Fin 16) (f : Unit → Unit) : (updEng s k e f).chans = s.chans := (rfl)
@[simp] theorem updEng_regions (s : State) (k : Fin 8) (e : Fin 16) (f : Unit → Unit) : (updEng s k e f).regions = s.regions := (rfl)
@[simp] theorem updEng_loader (s : State) (k : Fin 8) (e : Fin 16) (f : Unit → Unit) : (updEng s k e f).loader = s.loader := (rfl)
@[simp] theorem updEng_checks (s : State) (k : Fin 8) (e : Fin 16) (f : Unit → Unit) : (updEng s k e f).checks = s.checks := (rfl)
@[simp] theorem updEng_net (s : State) (k : Fin 8) (e : Fin 16) (f : Unit → Unit) : (updEng s k e f).net = s.net := (rfl)
@[simp] theorem updEng_ports (s : State) (k : Fin 8) (e : Fin 16) (f : Unit → Unit) : (updEng s k e f).ports = s.ports := (rfl)
@[simp] theorem updEng_power (s : State) (k : Fin 8) (e : Fin 16) (f : Unit → Unit) : (updEng s k e f).power = s.power := (rfl)
@[simp] theorem updEng_ocast (s : State) (k : Fin 8) (e : Fin 16) (f : Unit → Unit) : (updEng s k e f).ocast = s.ocast := (rfl)
@[simp] theorem updEng_host (s : State) (k : Fin 8) (e : Fin 16) (f : Unit → Unit) : (updEng s k e f).host = s.host := (rfl)
@[simp] theorem updEng_conc (s : State) (k : Fin 8) (e : Fin 16) (f : Unit → Unit) : (updEng s k e f).conc = s.conc := (rfl)
@[simp] theorem updEng_mgmt (s : State) (k : Fin 8) (e : Fin 16) (f : Unit → Unit) : (updEng s k e f).mgmt = s.mgmt := (rfl)
@[simp] theorem updEng_pins (s : State) (k : Fin 8) (e : Fin 16) (f : Unit → Unit) : (updEng s k e f).pins = s.pins := (rfl)

@[simp] theorem updRegion_pending (s : State) (r : Fin 16) (f : Region → Region) : (updRegion s r f).pending = s.pending := (rfl)
@[simp] theorem updRegion_clock (s : State) (r : Fin 16) (f : Region → Region) : (updRegion s r f).clock = s.clock := (rfl)
@[simp] theorem updRegion_fuses (s : State) (r : Fin 16) (f : Region → Region) : (updRegion s r f).fuses = s.fuses := (rfl)
@[simp] theorem updRegion_acc (s : State) (r : Fin 16) (f : Region → Region) : (updRegion s r f).acc = s.acc := (rfl)
@[simp] theorem updRegion_frees (s : State) (r : Fin 16) (f : Region → Region) : (updRegion s r f).frees = s.frees := (rfl)
@[simp] theorem updRegion_regs (s : State) (r : Fin 16) (f : Region → Region) : (updRegion s r f).regs = s.regs := (rfl)
@[simp] theorem updRegion_logs (s : State) (r : Fin 16) (f : Region → Region) : (updRegion s r f).logs = s.logs := (rfl)
@[simp] theorem updRegion_blks (s : State) (r : Fin 16) (f : Region → Region) : (updRegion s r f).blks = s.blks := (rfl)
@[simp] theorem updRegion_scr (s : State) (r : Fin 16) (f : Region → Region) : (updRegion s r f).scr = s.scr := (rfl)
@[simp] theorem updRegion_scrChk (s : State) (r : Fin 16) (f : Region → Region) : (updRegion s r f).scrChk = s.scrChk := (rfl)
@[simp] theorem updRegion_dram (s : State) (r : Fin 16) (f : Region → Region) : (updRegion s r f).dram = s.dram := (rfl)
@[simp] theorem updRegion_pv (s : State) (r : Fin 16) (f : Region → Region) : (updRegion s r f).pv = s.pv := (rfl)
@[simp] theorem updRegion_bootMem (s : State) (r : Fin 16) (f : Region → Region) : (updRegion s r f).bootMem = s.bootMem := (rfl)
@[simp] theorem updRegion_tiles (s : State) (r : Fin 16) (f : Region → Region) : (updRegion s r f).tiles = s.tiles := (rfl)
@[simp] theorem updRegion_cores (s : State) (r : Fin 16) (f : Region → Region) : (updRegion s r f).cores = s.cores := (rfl)
@[simp] theorem updRegion_banks (s : State) (r : Fin 16) (f : Region → Region) : (updRegion s r f).banks = s.banks := (rfl)
@[simp] theorem updRegion_stks (s : State) (r : Fin 16) (f : Region → Region) : (updRegion s r f).stks = s.stks := (rfl)
@[simp] theorem updRegion_ctxs (s : State) (r : Fin 16) (f : Region → Region) : (updRegion s r f).ctxs = s.ctxs := (rfl)
@[simp] theorem updRegion_chans (s : State) (r : Fin 16) (f : Region → Region) : (updRegion s r f).chans = s.chans := (rfl)
@[simp] theorem updRegion_engs (s : State) (r : Fin 16) (f : Region → Region) : (updRegion s r f).engs = s.engs := (rfl)
@[simp] theorem updRegion_loader (s : State) (r : Fin 16) (f : Region → Region) : (updRegion s r f).loader = s.loader := (rfl)
@[simp] theorem updRegion_checks (s : State) (r : Fin 16) (f : Region → Region) : (updRegion s r f).checks = s.checks := (rfl)
@[simp] theorem updRegion_net (s : State) (r : Fin 16) (f : Region → Region) : (updRegion s r f).net = s.net := (rfl)
@[simp] theorem updRegion_ports (s : State) (r : Fin 16) (f : Region → Region) : (updRegion s r f).ports = s.ports := (rfl)
@[simp] theorem updRegion_power (s : State) (r : Fin 16) (f : Region → Region) : (updRegion s r f).power = s.power := (rfl)
@[simp] theorem updRegion_ocast (s : State) (r : Fin 16) (f : Region → Region) : (updRegion s r f).ocast = s.ocast := (rfl)
@[simp] theorem updRegion_host (s : State) (r : Fin 16) (f : Region → Region) : (updRegion s r f).host = s.host := (rfl)
@[simp] theorem updRegion_conc (s : State) (r : Fin 16) (f : Region → Region) : (updRegion s r f).conc = s.conc := (rfl)
@[simp] theorem updRegion_mgmt (s : State) (r : Fin 16) (f : Region → Region) : (updRegion s r f).mgmt = s.mgmt := (rfl)
@[simp] theorem updRegion_pins (s : State) (r : Fin 16) (f : Region → Region) : (updRegion s r f).pins = s.pins := (rfl)

@[simp] theorem updPort_pending (s : State) (p : Fin 96) (f : Port → Port) : (updPort s p f).pending = s.pending := (rfl)
@[simp] theorem updPort_clock (s : State) (p : Fin 96) (f : Port → Port) : (updPort s p f).clock = s.clock := (rfl)
@[simp] theorem updPort_fuses (s : State) (p : Fin 96) (f : Port → Port) : (updPort s p f).fuses = s.fuses := (rfl)
@[simp] theorem updPort_acc (s : State) (p : Fin 96) (f : Port → Port) : (updPort s p f).acc = s.acc := (rfl)
@[simp] theorem updPort_frees (s : State) (p : Fin 96) (f : Port → Port) : (updPort s p f).frees = s.frees := (rfl)
@[simp] theorem updPort_regs (s : State) (p : Fin 96) (f : Port → Port) : (updPort s p f).regs = s.regs := (rfl)
@[simp] theorem updPort_logs (s : State) (p : Fin 96) (f : Port → Port) : (updPort s p f).logs = s.logs := (rfl)
@[simp] theorem updPort_blks (s : State) (p : Fin 96) (f : Port → Port) : (updPort s p f).blks = s.blks := (rfl)
@[simp] theorem updPort_scr (s : State) (p : Fin 96) (f : Port → Port) : (updPort s p f).scr = s.scr := (rfl)
@[simp] theorem updPort_scrChk (s : State) (p : Fin 96) (f : Port → Port) : (updPort s p f).scrChk = s.scrChk := (rfl)
@[simp] theorem updPort_dram (s : State) (p : Fin 96) (f : Port → Port) : (updPort s p f).dram = s.dram := (rfl)
@[simp] theorem updPort_pv (s : State) (p : Fin 96) (f : Port → Port) : (updPort s p f).pv = s.pv := (rfl)
@[simp] theorem updPort_bootMem (s : State) (p : Fin 96) (f : Port → Port) : (updPort s p f).bootMem = s.bootMem := (rfl)
@[simp] theorem updPort_tiles (s : State) (p : Fin 96) (f : Port → Port) : (updPort s p f).tiles = s.tiles := (rfl)
@[simp] theorem updPort_cores (s : State) (p : Fin 96) (f : Port → Port) : (updPort s p f).cores = s.cores := (rfl)
@[simp] theorem updPort_banks (s : State) (p : Fin 96) (f : Port → Port) : (updPort s p f).banks = s.banks := (rfl)
@[simp] theorem updPort_stks (s : State) (p : Fin 96) (f : Port → Port) : (updPort s p f).stks = s.stks := (rfl)
@[simp] theorem updPort_ctxs (s : State) (p : Fin 96) (f : Port → Port) : (updPort s p f).ctxs = s.ctxs := (rfl)
@[simp] theorem updPort_chans (s : State) (p : Fin 96) (f : Port → Port) : (updPort s p f).chans = s.chans := (rfl)
@[simp] theorem updPort_engs (s : State) (p : Fin 96) (f : Port → Port) : (updPort s p f).engs = s.engs := (rfl)
@[simp] theorem updPort_regions (s : State) (p : Fin 96) (f : Port → Port) : (updPort s p f).regions = s.regions := (rfl)
@[simp] theorem updPort_loader (s : State) (p : Fin 96) (f : Port → Port) : (updPort s p f).loader = s.loader := (rfl)
@[simp] theorem updPort_checks (s : State) (p : Fin 96) (f : Port → Port) : (updPort s p f).checks = s.checks := (rfl)
@[simp] theorem updPort_net (s : State) (p : Fin 96) (f : Port → Port) : (updPort s p f).net = s.net := (rfl)
@[simp] theorem updPort_power (s : State) (p : Fin 96) (f : Port → Port) : (updPort s p f).power = s.power := (rfl)
@[simp] theorem updPort_ocast (s : State) (p : Fin 96) (f : Port → Port) : (updPort s p f).ocast = s.ocast := (rfl)
@[simp] theorem updPort_host (s : State) (p : Fin 96) (f : Port → Port) : (updPort s p f).host = s.host := (rfl)
@[simp] theorem updPort_conc (s : State) (p : Fin 96) (f : Port → Port) : (updPort s p f).conc = s.conc := (rfl)
@[simp] theorem updPort_mgmt (s : State) (p : Fin 96) (f : Port → Port) : (updPort s p f).mgmt = s.mgmt := (rfl)
@[simp] theorem updPort_pins (s : State) (p : Fin 96) (f : Port → Port) : (updPort s p f).pins = s.pins := (rfl)

@[simp] theorem updCheck_pending (s : State) (k : Ck) (f : Check → Check) : (updCheck s k f).pending = s.pending := (rfl)
@[simp] theorem updCheck_clock (s : State) (k : Ck) (f : Check → Check) : (updCheck s k f).clock = s.clock := (rfl)
@[simp] theorem updCheck_fuses (s : State) (k : Ck) (f : Check → Check) : (updCheck s k f).fuses = s.fuses := (rfl)
@[simp] theorem updCheck_acc (s : State) (k : Ck) (f : Check → Check) : (updCheck s k f).acc = s.acc := (rfl)
@[simp] theorem updCheck_frees (s : State) (k : Ck) (f : Check → Check) : (updCheck s k f).frees = s.frees := (rfl)
@[simp] theorem updCheck_regs (s : State) (k : Ck) (f : Check → Check) : (updCheck s k f).regs = s.regs := (rfl)
@[simp] theorem updCheck_logs (s : State) (k : Ck) (f : Check → Check) : (updCheck s k f).logs = s.logs := (rfl)
@[simp] theorem updCheck_blks (s : State) (k : Ck) (f : Check → Check) : (updCheck s k f).blks = s.blks := (rfl)
@[simp] theorem updCheck_scr (s : State) (k : Ck) (f : Check → Check) : (updCheck s k f).scr = s.scr := (rfl)
@[simp] theorem updCheck_scrChk (s : State) (k : Ck) (f : Check → Check) : (updCheck s k f).scrChk = s.scrChk := (rfl)
@[simp] theorem updCheck_dram (s : State) (k : Ck) (f : Check → Check) : (updCheck s k f).dram = s.dram := (rfl)
@[simp] theorem updCheck_pv (s : State) (k : Ck) (f : Check → Check) : (updCheck s k f).pv = s.pv := (rfl)
@[simp] theorem updCheck_bootMem (s : State) (k : Ck) (f : Check → Check) : (updCheck s k f).bootMem = s.bootMem := (rfl)
@[simp] theorem updCheck_tiles (s : State) (k : Ck) (f : Check → Check) : (updCheck s k f).tiles = s.tiles := (rfl)
@[simp] theorem updCheck_cores (s : State) (k : Ck) (f : Check → Check) : (updCheck s k f).cores = s.cores := (rfl)
@[simp] theorem updCheck_banks (s : State) (k : Ck) (f : Check → Check) : (updCheck s k f).banks = s.banks := (rfl)
@[simp] theorem updCheck_stks (s : State) (k : Ck) (f : Check → Check) : (updCheck s k f).stks = s.stks := (rfl)
@[simp] theorem updCheck_ctxs (s : State) (k : Ck) (f : Check → Check) : (updCheck s k f).ctxs = s.ctxs := (rfl)
@[simp] theorem updCheck_chans (s : State) (k : Ck) (f : Check → Check) : (updCheck s k f).chans = s.chans := (rfl)
@[simp] theorem updCheck_engs (s : State) (k : Ck) (f : Check → Check) : (updCheck s k f).engs = s.engs := (rfl)
@[simp] theorem updCheck_regions (s : State) (k : Ck) (f : Check → Check) : (updCheck s k f).regions = s.regions := (rfl)
@[simp] theorem updCheck_loader (s : State) (k : Ck) (f : Check → Check) : (updCheck s k f).loader = s.loader := (rfl)
@[simp] theorem updCheck_net (s : State) (k : Ck) (f : Check → Check) : (updCheck s k f).net = s.net := (rfl)
@[simp] theorem updCheck_ports (s : State) (k : Ck) (f : Check → Check) : (updCheck s k f).ports = s.ports := (rfl)
@[simp] theorem updCheck_power (s : State) (k : Ck) (f : Check → Check) : (updCheck s k f).power = s.power := (rfl)
@[simp] theorem updCheck_ocast (s : State) (k : Ck) (f : Check → Check) : (updCheck s k f).ocast = s.ocast := (rfl)
@[simp] theorem updCheck_host (s : State) (k : Ck) (f : Check → Check) : (updCheck s k f).host = s.host := (rfl)
@[simp] theorem updCheck_conc (s : State) (k : Ck) (f : Check → Check) : (updCheck s k f).conc = s.conc := (rfl)
@[simp] theorem updCheck_mgmt (s : State) (k : Ck) (f : Check → Check) : (updCheck s k f).mgmt = s.mgmt := (rfl)
@[simp] theorem updCheck_pins (s : State) (k : Ck) (f : Check → Check) : (updCheck s k f).pins = s.pins := (rfl)

@[simp] theorem partFault_pending (s : State) (d : Nat) (p : BitVec 4) : (partFault s d p).pending = s.pending := by simp [partFault]
@[simp] theorem partFault_clock (s : State) (d : Nat) (p : BitVec 4) : (partFault s d p).clock = s.clock := by simp [partFault]
@[simp] theorem partFault_fuses (s : State) (d : Nat) (p : BitVec 4) : (partFault s d p).fuses = s.fuses := by simp [partFault]
@[simp] theorem partFault_acc (s : State) (d : Nat) (p : BitVec 4) : (partFault s d p).acc = s.acc := by simp [partFault]
@[simp] theorem partFault_frees (s : State) (d : Nat) (p : BitVec 4) : (partFault s d p).frees = s.frees := by simp [partFault]
@[simp] theorem partFault_logs (s : State) (d : Nat) (p : BitVec 4) : (partFault s d p).logs = s.logs := by simp [partFault]
@[simp] theorem partFault_blks (s : State) (d : Nat) (p : BitVec 4) : (partFault s d p).blks = s.blks := by simp [partFault]
@[simp] theorem partFault_scr (s : State) (d : Nat) (p : BitVec 4) : (partFault s d p).scr = s.scr := by simp [partFault]
@[simp] theorem partFault_scrChk (s : State) (d : Nat) (p : BitVec 4) : (partFault s d p).scrChk = s.scrChk := by simp [partFault]
@[simp] theorem partFault_dram (s : State) (d : Nat) (p : BitVec 4) : (partFault s d p).dram = s.dram := by simp [partFault]
@[simp] theorem partFault_pv (s : State) (d : Nat) (p : BitVec 4) : (partFault s d p).pv = s.pv := by simp [partFault]
@[simp] theorem partFault_bootMem (s : State) (d : Nat) (p : BitVec 4) : (partFault s d p).bootMem = s.bootMem := by simp [partFault]
@[simp] theorem partFault_tiles (s : State) (d : Nat) (p : BitVec 4) : (partFault s d p).tiles = s.tiles := by simp [partFault]
@[simp] theorem partFault_cores (s : State) (d : Nat) (p : BitVec 4) : (partFault s d p).cores = s.cores := by simp [partFault]
@[simp] theorem partFault_banks (s : State) (d : Nat) (p : BitVec 4) : (partFault s d p).banks = s.banks := by simp [partFault]
@[simp] theorem partFault_stks (s : State) (d : Nat) (p : BitVec 4) : (partFault s d p).stks = s.stks := by simp [partFault]
@[simp] theorem partFault_ctxs (s : State) (d : Nat) (p : BitVec 4) : (partFault s d p).ctxs = s.ctxs := by simp [partFault]
@[simp] theorem partFault_chans (s : State) (d : Nat) (p : BitVec 4) : (partFault s d p).chans = s.chans := by simp [partFault]
@[simp] theorem partFault_engs (s : State) (d : Nat) (p : BitVec 4) : (partFault s d p).engs = s.engs := by simp [partFault]
@[simp] theorem partFault_regions (s : State) (d : Nat) (p : BitVec 4) : (partFault s d p).regions = s.regions := by simp [partFault]
@[simp] theorem partFault_loader (s : State) (d : Nat) (p : BitVec 4) : (partFault s d p).loader = s.loader := by simp [partFault]
@[simp] theorem partFault_checks (s : State) (d : Nat) (p : BitVec 4) : (partFault s d p).checks = s.checks := by simp [partFault]
@[simp] theorem partFault_ports (s : State) (d : Nat) (p : BitVec 4) : (partFault s d p).ports = s.ports := by simp [partFault]
@[simp] theorem partFault_power (s : State) (d : Nat) (p : BitVec 4) : (partFault s d p).power = s.power := by simp [partFault]
@[simp] theorem partFault_ocast (s : State) (d : Nat) (p : BitVec 4) : (partFault s d p).ocast = s.ocast := by simp [partFault]
@[simp] theorem partFault_host (s : State) (d : Nat) (p : BitVec 4) : (partFault s d p).host = s.host := by simp [partFault]
@[simp] theorem partFault_conc (s : State) (d : Nat) (p : BitVec 4) : (partFault s d p).conc = s.conc := by simp [partFault]
@[simp] theorem partFault_mgmt (s : State) (d : Nat) (p : BitVec 4) : (partFault s d p).mgmt = s.mgmt := by simp [partFault]
@[simp] theorem partFault_pins (s : State) (d : Nat) (p : BitVec 4) : (partFault s d p).pins = s.pins := by simp [partFault]

@[simp] theorem faultBlk_pending (s : State) (b : Blk) : (faultBlk s b).pending = s.pending := by simp [faultBlk]
@[simp] theorem faultBlk_clock (s : State) (b : Blk) : (faultBlk s b).clock = s.clock := by simp [faultBlk]
@[simp] theorem faultBlk_fuses (s : State) (b : Blk) : (faultBlk s b).fuses = s.fuses := by simp [faultBlk]
@[simp] theorem faultBlk_acc (s : State) (b : Blk) : (faultBlk s b).acc = s.acc := by simp [faultBlk]
@[simp] theorem faultBlk_frees (s : State) (b : Blk) : (faultBlk s b).frees = s.frees := by simp [faultBlk]
@[simp] theorem faultBlk_logs (s : State) (b : Blk) : (faultBlk s b).logs = s.logs := by simp [faultBlk]
@[simp] theorem faultBlk_scr (s : State) (b : Blk) : (faultBlk s b).scr = s.scr := by simp [faultBlk]
@[simp] theorem faultBlk_scrChk (s : State) (b : Blk) : (faultBlk s b).scrChk = s.scrChk := by simp [faultBlk]
@[simp] theorem faultBlk_dram (s : State) (b : Blk) : (faultBlk s b).dram = s.dram := by simp [faultBlk]
@[simp] theorem faultBlk_pv (s : State) (b : Blk) : (faultBlk s b).pv = s.pv := by simp [faultBlk]
@[simp] theorem faultBlk_bootMem (s : State) (b : Blk) : (faultBlk s b).bootMem = s.bootMem := by simp [faultBlk]
@[simp] theorem faultBlk_tiles (s : State) (b : Blk) : (faultBlk s b).tiles = s.tiles := by simp [faultBlk]
@[simp] theorem faultBlk_cores (s : State) (b : Blk) : (faultBlk s b).cores = s.cores := by simp [faultBlk]
@[simp] theorem faultBlk_banks (s : State) (b : Blk) : (faultBlk s b).banks = s.banks := by simp [faultBlk]
@[simp] theorem faultBlk_stks (s : State) (b : Blk) : (faultBlk s b).stks = s.stks := by simp [faultBlk]
@[simp] theorem faultBlk_ctxs (s : State) (b : Blk) : (faultBlk s b).ctxs = s.ctxs := by simp [faultBlk]
@[simp] theorem faultBlk_chans (s : State) (b : Blk) : (faultBlk s b).chans = s.chans := by simp [faultBlk]
@[simp] theorem faultBlk_engs (s : State) (b : Blk) : (faultBlk s b).engs = s.engs := by simp [faultBlk]
@[simp] theorem faultBlk_regions (s : State) (b : Blk) : (faultBlk s b).regions = s.regions := by simp [faultBlk]
@[simp] theorem faultBlk_loader (s : State) (b : Blk) : (faultBlk s b).loader = s.loader := by simp [faultBlk]
@[simp] theorem faultBlk_checks (s : State) (b : Blk) : (faultBlk s b).checks = s.checks := by simp [faultBlk]
@[simp] theorem faultBlk_ports (s : State) (b : Blk) : (faultBlk s b).ports = s.ports := by simp [faultBlk]
@[simp] theorem faultBlk_power (s : State) (b : Blk) : (faultBlk s b).power = s.power := by simp [faultBlk]
@[simp] theorem faultBlk_ocast (s : State) (b : Blk) : (faultBlk s b).ocast = s.ocast := by simp [faultBlk]
@[simp] theorem faultBlk_host (s : State) (b : Blk) : (faultBlk s b).host = s.host := by simp [faultBlk]
@[simp] theorem faultBlk_conc (s : State) (b : Blk) : (faultBlk s b).conc = s.conc := by simp [faultBlk]
@[simp] theorem faultBlk_mgmt (s : State) (b : Blk) : (faultBlk s b).mgmt = s.mgmt := by simp [faultBlk]
@[simp] theorem faultBlk_pins (s : State) (b : Blk) : (faultBlk s b).pins = s.pins := by simp [faultBlk]

end Sys2Proof.Machine
end

