-- ==== Sys2Proof/Laws/Tab.lean ====
section
/-! SUPPORT. Sparse tables: a read after a write to the same key gives the value, a write leaves every other key alone,
    whatever the table; and every operation keeps the canonical form. -/

namespace Sys2Proof.Machine

variable {α : Type}

theorem tgetD_tins (d : Nat → α) (t : Tab α) (k : Nat) (v : α) (i : Nat) :
    tgetD d (tins t k v) i = if i = k then v else tgetD d t i := by
  induction t with
  | nil => simp only [tins, tgetD]
  | cons e t ih =>
    obtain ⟨k', w⟩ := e
    simp only [tins]
    split
    · simp only [tgetD]
    · split
      · subst_vars; simp only [tgetD]; split <;> simp_all
      · simp only [tgetD, ih]
        by_cases h : i = k'
        · simp_all; intro h; simp_all
        · simp [h]

theorem tgetD_tdrop (d : Nat → α) (p : Nat → Bool) (t : Tab α) (i : Nat) :
    tgetD d (tdrop p t) i = if p i then d i else tgetD d t i := by
  induction t with
  | nil => simp [tdrop, tgetD]
  | cons e t ih =>
    obtain ⟨k', w⟩ := e
    simp only [tdrop, List.filter_cons] at ih ⊢
    by_cases hp : p k'
    · simp only [hp, Bool.not_true, Bool.false_eq_true, if_false, ih, tgetD]
      by_cases h : i = k'
      · subst h; simp [hp]
      · simp [h]
    · simp only [hp, Bool.not_false, if_true, tgetD, ih]
      by_cases h : i = k'
      · subst h; simp [hp]
      · simp [h]

/-- A write reads back at its key and nowhere else. -/
theorem tgetD_tsetD [DecidableEq α] (d : Nat → α) (t : Tab α) (k : Nat) (v : α) (i : Nat) :
    tgetD d (tsetD d t k v) i = if i = k then v else tgetD d t i := by
  unfold tsetD
  split
  · rw [tgetD_tdrop]
    by_cases h : i = k
    · subst h; simp_all
    · simp [h]
  · exact tgetD_tins d t k v i

theorem tget_tset [DecidableEq α] (d : α) (t : Tab α) (k : Nat) (v : α) (i : Nat) :
    tget d (tset d t k v) i = if i = k then v else tget d t i := tgetD_tsetD _ t k v i

@[simp] theorem tget_tset_same [DecidableEq α] (d : α) (t : Tab α) (k : Nat) (v : α) :
    tget d (tset d t k v) k = v := by simp [tget_tset]

theorem tget_tset_ne [DecidableEq α] (d : α) (t : Tab α) {k i : Nat} (v : α) (h : i ≠ k) :
    tget d (tset d t k v) i = tget d t i := by simp [tget_tset, h]

theorem tget_tupd [DecidableEq α] (d : α) (t : Tab α) (k : Nat) (f : α → α) (i : Nat) :
    tget d (tupd d t k f) i = if i = k then f (tget d t k) else tget d t i := tget_tset d t k _ i

@[simp] theorem tget_tupd_same [DecidableEq α] (d : α) (t : Tab α) (k : Nat) (f : α → α) :
    tget d (tupd d t k f) k = f (tget d t k) := by simp [tget_tupd]

theorem tget_tupd_ne [DecidableEq α] (d : α) (t : Tab α) {k i : Nat} (f : α → α) (h : i ≠ k) :
    tget d (tupd d t k f) i = tget d t i := by simp [tget_tupd, h]

theorem tget_tdrop (d : α) (p : Nat → Bool) (t : Tab α) (i : Nat) :
    tget d (tdrop p t) i = if p i then d else tget d t i := tgetD_tdrop _ p t i

@[simp] theorem tget_nil (d : α) (i : Nat) : tget d [] i = d := rfl

/-! ### The canonical form -/

theorem tabAbove_cons [DecidableEq α] (d : Nat → α) (lo : Option Nat) (k : Nat) (v : α) (t : Tab α) :
    tabAbove d lo ((k, v) :: t) = true ↔ (∀ l, lo = some l → l < k) ∧ v ≠ d k ∧ tabAbove d (some k) t = true := by
  cases lo <;> simp [tabAbove, and_assoc]

theorem tabAbove_weaken [DecidableEq α] (d : Nat → α) {lo : Option Nat} {k : Nat} (t : Tab α)
    (hlo : ∀ l, lo = some l → l ≤ k) (h : tabAbove d (some k) t) : tabAbove d lo t := by
  cases t with
  | nil => rfl
  | cons e t =>
    rw [tabAbove_cons] at h ⊢
    exact ⟨fun l hl => Nat.lt_of_le_of_lt (hlo l hl) (h.1 k rfl), h.2⟩

theorem tabAbove_tdrop [DecidableEq α] (d : Nat → α) (p : Nat → Bool) (t : Tab α) (lo : Option Nat)
    (h : tabAbove d lo t) : tabAbove d lo (tdrop p t) := by
  induction t generalizing lo with
  | nil => rfl
  | cons e t ih =>
    obtain ⟨k', w⟩ := e
    rw [tabAbove_cons] at h
    simp only [tdrop, List.filter_cons] at ih ⊢
    split
    · rw [tabAbove_cons]; exact ⟨h.1, h.2.1, ih _ h.2.2⟩
    · exact tabAbove_weaken d _ (fun l hl => Nat.le_of_lt (h.1 l hl)) (ih _ h.2.2)

theorem tabAbove_tins [DecidableEq α] (d : Nat → α) (t : Tab α) (k : Nat) (v : α) (hv : v ≠ d k) (lo : Option Nat)
    (hlo : ∀ l, lo = some l → l < k) (h : tabAbove d lo t) : tabAbove d lo (tins t k v) := by
  induction t generalizing lo with
  | nil => simp only [tins, tabAbove_cons]; exact ⟨hlo, hv, rfl⟩
  | cons e t ih =>
    obtain ⟨k', w⟩ := e
    rw [tabAbove_cons] at h
    simp only [tins]
    split
    · rw [tabAbove_cons, tabAbove_cons]
      exact ⟨hlo, hv, fun l hl => by cases hl; assumption, h.2⟩
    · split
      · subst_vars; rw [tabAbove_cons]; exact ⟨hlo, hv, h.2.2⟩
      · rw [tabAbove_cons]
        exact ⟨h.1, h.2.1, ih _ (fun l hl => by cases hl; omega) h.2.2⟩

/-- A write keeps the canonical form. -/
theorem tabWf_tsetD [DecidableEq α] (d : Nat → α) (t : Tab α) (k : Nat) (v : α) (h : tabWf d t) :
    tabWf d (tsetD d t k v) := by
  unfold tsetD
  split
  · exact tabAbove_tdrop d _ t none h
  · rename_i hv; exact tabAbove_tins d t k v hv none (by simp) h

theorem tabWf_tset [DecidableEq α] (d : α) (t : Tab α) (k : Nat) (v : α) (h : tabWf (fun _ => d) t) :
    tabWf (fun _ => d) (tset d t k v) := tabWf_tsetD _ t k v h

theorem tabWf_tupd [DecidableEq α] (d : α) (t : Tab α) (k : Nat) (f : α → α) (h : tabWf (fun _ => d) t) :
    tabWf (fun _ => d) (tupd d t k f) := tabWf_tset d t k _ h

/-- Dropping keys keeps the canonical form. -/
theorem tabWf_tdrop [DecidableEq α] (d : Nat → α) (p : Nat → Bool) (t : Tab α) (h : tabWf d t) :
    tabWf d (tdrop p t) := tabAbove_tdrop d p t none h

end Sys2Proof.Machine
end

