-- ==== Sys2Proof/Laws/Parts.lean ====
section
/-! SUPPORT. Reading a part of the state after it, or another part, is written. -/

namespace Sys2Proof.Machine

/-! ### Tiles, processors -/

theorem tile_setTile (s : State) (t u : Fin 64) (v : Tile) : tile (setTile s t v) u = if u = t then v else tile s u := by
  simp only [tile, setTile, tget_tset, Fin.ext_iff]

@[simp] theorem tile_setTile_same (s : State) (t : Fin 64) (v : Tile) : tile (setTile s t v) t = v := by
  simp [tile_setTile]

theorem tile_updTile (s : State) (t u : Fin 64) (f : Tile → Tile) :
    tile (updTile s t f) u = if u = t then f (tile s t) else tile s u := tile_setTile s t u _

@[simp] theorem tile_updTile_same (s : State) (t : Fin 64) (f : Tile → Tile) : tile (updTile s t f) t = f (tile s t) := by
  simp [tile_updTile]

theorem tile_updRow (s : State) (t u : Fin 64) (f : Row → Row) :
    tile (updRow s t f) u = if u = t then { tile s t with row := f (tile s t).row } else tile s u := tile_updTile s t u _

@[simp] theorem tile_updRow_same (s : State) (t : Fin 64) (f : Row → Row) :
    tile (updRow s t f) t = { tile s t with row := f (tile s t).row } := by simp [tile_updRow]

theorem cpu_setCpu (s : State) (q r : Cpu) (p : Proc) : cpu (setCpu s q p) r = if r = q then p else cpu s r := by
  cases q with
  | core k => cases r <;> simp [setCpu, cpu, tget_tset, tile, Fin.ext_iff]
  | tile t =>
    cases r with
    | core k => simp [setCpu, cpu]
    | tile u => by_cases h : u = t <;> simp [setCpu, cpu, tile_updTile, h]

@[simp] theorem cpu_setCpu_same (s : State) (q : Cpu) (p : Proc) : cpu (setCpu s q p) q = p := by simp [cpu_setCpu]

theorem cpu_updCpu (s : State) (q r : Cpu) (f : Proc → Proc) :
    cpu (updCpu s q f) r = if r = q then f (cpu s q) else cpu s r := cpu_setCpu s q r _

@[simp] theorem cpu_updCpu_same (s : State) (q : Cpu) (f : Proc → Proc) : cpu (updCpu s q f) q = f (cpu s q) := by
  simp [cpu_updCpu]

/-- What a processor's change leaves of a tile: everything but its sequencer. -/
theorem tile_setCpu (s : State) (q : Cpu) (p : Proc) (t : Fin 64) :
    tile (setCpu s q p) t = { tile s t with seq := cpu (setCpu s q p) (.tile t) } := by
  cases q with
  | core k => rfl
  | tile u => by_cases h : t = u <;> simp [setCpu, cpu, tile_updTile, h]

/-! ### Stored registers and logs -/

/-- A stored register after a register write. -/
theorem reg_setReg (s : State) (k : Nat) (v : W32) (i : Nat) : reg (setReg s k v) i = if i = k then v else reg s i :=
  tgetD_tsetD _ _ _ _ _

@[simp] theorem reg_setReg_same (s : State) (k : Nat) (v : W32) : reg (setReg s k v) k = v := by simp [reg_setReg]

theorem reg_setReg_ne (s : State) {k i : Nat} (v : W32) (h : i ≠ k) : reg (setReg s k v) i = reg s i := by
  simp [reg_setReg, h]

theorem reg_updReg (s : State) (k : Nat) (f : W32 → W32) (i : Nat) :
    reg (updReg s k f) i = if i = k then f (reg s k) else reg s i := reg_setReg s k _ i

theorem reg_bump (s : State) (k n i : Nat) : reg (bump s k n) i = if i = k then satAdd (reg s k) n else reg s i :=
  reg_setReg s k _ i

theorem reg_setRegBit (s : State) (k n : Nat) (b : Bool) (i : Nat) :
    reg (setRegBit s k n b) i = if i = k then setBit (reg s k) n b else reg s i := reg_setReg s k _ i

theorem reg_pulse (s : State) (k n i : Nat) :
    reg (pulse s k n) i = if i = k + Rg.hdr.EVPEND then setBit (reg s (k + Rg.hdr.EVPEND)) n true else reg s i :=
  reg_setRegBit s _ n true i

/-- A stored register depends on the stored registers and the fuses only. -/
theorem reg_congr {s t : State} (hr : t.regs = s.regs) (hf : t.fuses = s.fuses) (k : Nat) : reg t k = reg s k := by
  unfold reg; rw [hr, hf]

theorem reg_logE (s : State) (k : Nat) (a b c d : W32) (i : Nat) :
    reg (logE s k a b c d) i = if i = k + Rg.hdr.ERRCNT then satAdd (reg s (k + Rg.hdr.ERRCNT)) 1 else reg s i :=
  reg_bump _ _ 1 i

theorem logOf_logE (s : State) (k : Nat) (a b c d : W32) (i : Nat) :
    logOf (logE s k a b c d) i =
      if i = k then ({ w0 := a, w1 := b, w2 := c, w3 := d } :: logOf s k).take 4 else logOf s i :=
by
  have h : (logE s k a b c d).logs = tset [] s.logs k (({ w0 := a, w1 := b, w2 := c, w3 := d } :: logOf s k).take 4) := rfl
  simp only [logOf, h, tget_tset]

/-! ### Block states -/

theorem blkOfKey_pageKey (d n : Nat) (h : n < 2 ^ 12) : blkOfKey (pageKey d n) = blkAt d n := by
  unfold blkOfKey pageKey
  congr 1 <;> omega

theorem blkAt_row : ∀ (t : Fin 64), blkAt (Blk.die (.row t)) (Blk.page (.row t)) = some ((.row t), 0) := by decide
theorem blkAt_seq : ∀ (t : Fin 64), blkAt (Blk.die (.seq t)) (Blk.page (.seq t)) = some ((.seq t), 0) := by decide
theorem blkAt_vec : ∀ (t : Fin 64), blkAt (Blk.die (.vec t)) (Blk.page (.vec t)) = some ((.vec t), 0) := by decide
theorem blkAt_acnt : ∀ (t : Fin 64), blkAt (Blk.die (.acnt t)) (Blk.page (.acnt t)) = some ((.acnt t), 0) := by decide
theorem blkAt_bank : ∀ (t : Fin 64) (g : Fin 4), blkAt (Blk.die (.bank t g)) (Blk.page (.bank t g)) = some ((.bank t g), 0) := by decide
theorem blkAt_seng : ∀ (k : Fin 8), blkAt (Blk.die (.seng k)) (Blk.page (.seng k)) = some ((.seng k), 0) := by decide
theorem blkAt_chan : ∀ (k : Fin 8) (c : Fin 32), blkAt (Blk.die (.chan k c)) (Blk.page (.chan k c)) = some ((.chan k c), 0) := by decide
theorem blkAt_nve : ∀ (k : Fin 8) (e : Fin 16), blkAt (Blk.die (.nve k e)) (Blk.page (.nve k e)) = some ((.nve k e), 0) := by decide
theorem blkAt_pvm : ∀ (k : Fin 8), blkAt (Blk.die (.pvm k)) (Blk.page (.pvm k)) = some ((.pvm k), 0) := by decide
theorem blkAt_check : ∀ (k : Fin 8) (c : Fin 8), blkAt (Blk.die (.check k c)) (Blk.page (.check k c)) = some ((.check k c), 0) := by decide
theorem blkAt_region : ∀ (r : Fin 16), blkAt (Blk.die (.region r)) (Blk.page (.region r)) = some ((.region r), 0) := by decide
theorem blkAt_port : ∀ (p : Fin 96), blkAt (Blk.die (.port p)) (Blk.page (.port p)) = some ((.port p), 0) := by decide
theorem blkAt_lanes : ∀ (p : Fin 96), blkAt (Blk.die (.lanes p)) (Blk.page (.lanes p)) = some ((.lanes p), 0) := by decide
theorem blkAt_loader : blkAt (Blk.die .loader) (Blk.page .loader) = some (.loader, 0) := by decide
theorem blkAt_pcheck : ∀ (k : Fin 4), blkAt (Blk.die (.pcheck k)) (Blk.page (.pcheck k)) = some ((.pcheck k), 0) := by decide
theorem blkAt_conc : blkAt (Blk.die .conc) (Blk.page .conc) = some (.conc, 0) := by decide
theorem blkAt_ptm : blkAt (Blk.die .ptm) (Blk.page .ptm) = some (.ptm, 0) := by decide
theorem blkAt_pcie : ∀ (e : Fin 2), blkAt (Blk.die (.pcie e)) (Blk.page (.pcie e)) = some ((.pcie e), 0) := by decide
theorem blkAt_ocast : blkAt (Blk.die .ocast) (Blk.page .ocast) = some (.ocast, 0) := by decide
theorem blkAt_sec : blkAt (Blk.die .sec) (Blk.page .sec) = some (.sec, 0) := by decide
theorem blkAt_probe : ∀ (d : Fin 104) (r : Fin 16), (Blk.probe d r).wf = true →
    blkAt d r = some (.probe d r, 0) := by decide
theorem blkAt_ptab : ∀ d : Fin 104, (Blk.ptab d).wf = true → blkAt d 0x10 = some (.ptab d, 0) := by decide

theorem dieRouters_bound (d : Nat) : dieRouters d ≤ 16 ∧ (dieRouters d ≠ 0 → d < 104) := by
  unfold dieRouters; repeat' split
  all_goals omega

/-- The pages of dies are 4 KB apart: a page number has 12 bits. -/
theorem Blk_page_lt (b : Blk) (h : b.wf = true) : b.page < 2 ^ 12 := by
  cases b with
  | probe d r =>
    have := dieRouters_bound d
    simp only [Blk.wf, decide_eq_true_eq] at h
    simp only [Blk.page]; omega
  | _ => simp only [Blk.page] <;> omega

/-- The key of a block of the floor plan names it. -/
theorem blkOfKey_key (b : Blk) (h : b.wf = true) : blkOfKey b.key = some (b, 0) := by
  rw [Blk.key, blkOfKey_pageKey _ _ (Blk_page_lt b h)]
  cases b with
  | probe d r =>
    have hb := dieRouters_bound d
    have h' := h
    simp only [Blk.wf, decide_eq_true_eq] at h'
    exact blkAt_probe ⟨d, hb.2 (by omega)⟩ ⟨r, by omega⟩ h
  | ptab d =>
    have hb := dieRouters_bound d
    have h' := h
    simp only [Blk.wf, bne_iff_ne, ne_eq] at h'
    exact blkAt_ptab ⟨d, hb.2 h'⟩ h
  | row t => exact blkAt_row t
  | seq t => exact blkAt_seq t
  | vec t => exact blkAt_vec t
  | acnt t => exact blkAt_acnt t
  | bank t g => exact blkAt_bank t g
  | seng k => exact blkAt_seng k
  | chan k c => exact blkAt_chan k c
  | nve k e => exact blkAt_nve k e
  | pvm k => exact blkAt_pvm k
  | check k c => exact blkAt_check k c
  | region r => exact blkAt_region r
  | port p => exact blkAt_port p
  | lanes p => exact blkAt_lanes p
  | loader => exact blkAt_loader
  | pcheck k => exact blkAt_pcheck k
  | conc => exact blkAt_conc
  | ptm => exact blkAt_ptm
  | pcie e => exact blkAt_pcie e
  | ocast => exact blkAt_ocast
  | sec => exact blkAt_sec

theorem Blk_key_inj {a b : Blk} (ha : a.wf = true) (hb : b.wf = true) : a.key = b.key ↔ a = b := by
  constructor
  · intro h
    have h1 := blkOfKey_key a ha
    rw [h, blkOfKey_key b hb] at h1
    simpa using h1.symm
  · rintro rfl; rfl

theorem blkSt_setBlkSt {a b : Blk} (s : State) (ha : a.wf = true) (hb : b.wf = true) (v : BlkSt) :
    blkSt (setBlkSt s b v) a = if a = b then v else blkSt s a := by
  simp only [blkSt, setBlkSt, tgetD_tsetD, Blk_key_inj ha hb]

@[simp] theorem blkSt_setBlkSt_same (s : State) (b : Blk) (v : BlkSt) : blkSt (setBlkSt s b v) b = v := by
  simp [blkSt, setBlkSt, tgetD_tsetD]

theorem blkSt_setRun {a b : Blk} (s : State) (ha : a.wf = true) (hb : b.wf = true) (v : Run) :
    blkSt (setRun s b v) a = if a = b then { blkSt s b with run := v } else blkSt s a := blkSt_setBlkSt s ha hb _

theorem blkSt_setEpoch {a b : Blk} (s : State) (ha : a.wf = true) (hb : b.wf = true) (v : BitVec 8) :
    blkSt (setEpoch s b v) a = if a = b then { blkSt s b with epoch := v } else blkSt s a := blkSt_setBlkSt s ha hb _

/-! ### The other parts -/

theorem bank_updBank (s : State) (t u : Fin 64) (g h : Fin 4) (f : Bank → Bank) :
    bank (updBank s t g f) u h = if u = t ∧ h = g then f (bank s t g) else bank s u h := by
  simp only [bank, updBank, tget_tupd, Fin.ext_iff]
  have : 4 * u.val + h.val = 4 * t.val + g.val ↔ u.val = t.val ∧ h.val = g.val := by omega
  simp only [this]

theorem stack_updStack (s : State) (k j : Fin 8) (f : Stack → Stack) :
    stack (updStack s k f) j = if j = k then f (stack s k) else stack s j := by
  simp only [stack, updStack, tget_tupd, Fin.ext_iff]

theorem ctx_setCtx (s : State) (k j : Fin 8) (x y : Fin 2048) (c : Ctx) :
    ctx (setCtx s k x c) j y = if j = k ∧ y = x then c else ctx s j y := by
  simp only [ctx, setCtx, tget_tset, Fin.ext_iff]
  have : 2048 * j.val + y.val = 2048 * k.val + x.val ↔ j.val = k.val ∧ y.val = x.val := by omega
  simp only [this]

theorem ctx_updCtx (s : State) (k j : Fin 8) (x y : Fin 2048) (f : Ctx → Ctx) :
    ctx (updCtx s k x f) j y = if j = k ∧ y = x then f (ctx s k x) else ctx s j y := ctx_setCtx s k j x y _

theorem chan_updChan (s : State) (k j : Fin 8) (c e : Fin 32) (f : Chan → Chan) :
    chan (updChan s k c f) j e = if j = k ∧ e = c then f (chan s k c) else chan s j e := by
  simp only [chan, updChan, tget_tupd, Fin.ext_iff]
  have : 32 * j.val + e.val = 32 * k.val + c.val ↔ j.val = k.val ∧ e.val = c.val := by omega
  simp only [this]

theorem eng_updEng (s : State) (k j : Fin 8) (c e : Fin 16) (f : Unit → Unit) :
    eng (updEng s k c f) j e = if j = k ∧ e = c then f (eng s k c) else eng s j e := by
  simp only [eng, updEng, tget_tupd, Fin.ext_iff]
  have : 16 * j.val + e.val = 16 * k.val + c.val ↔ j.val = k.val ∧ e.val = c.val := by omega
  simp only [this]

theorem region_updRegion (s : State) (r q : Fin 16) (f : Region → Region) :
    region (updRegion s r f) q = if q = r then f (region s r) else region s q := by
  simp only [region, updRegion, tget_tupd, Fin.ext_iff]

theorem port_updPort (s : State) (r q : Fin 96) (f : Port → Port) :
    port (updPort s r f) q = if q = r then f (port s r) else port s q := by
  simp only [port, updPort, tget_tupd, Fin.ext_iff]

theorem Ck_idx_inj (a b : Ck) : a.idx = b.idx ↔ a = b := by
  cases a <;> cases b <;> simp [Ck.idx, Fin.ext_iff] <;> omega

theorem check_updCheck (s : State) (a b : Ck) (f : Check → Check) :
    check (updCheck s b f) a = if a = b then f (check s b) else check s a := by
  simp only [check, updCheck, tget_tupd, Ck_idx_inj]

end Sys2Proof.Machine
end

