-- ==== Sys2Proof/Laws/Act.lean ====
section
/-! SUPPORT. The shared forms of meanings: what `act` keeps, and that latching events changes registers only, settling
    the stops of a tile block states only. -/

namespace Sys2Proof.Machine

theorem settle1_eq (b : State) (p : Blk × Nat) (s : State) :
    settle1 b p s = { s with regs := (settle1 b p s).regs } := by
  unfold settle1
  dsimp only
  split <;> rfl

theorem settle_eq (b : State) (ps : List (Blk × Nat)) (s : State) :
    settle b ps s = { s with regs := (settle b ps s).regs } := by
  induction ps generalizing s with
  | nil => rfl
  | cons p t ih => simp only [settle]; rw [ih, settle1_eq]

@[simp] theorem settle_pending (b : State) (ps : List (Blk × Nat)) (s : State) : (settle b ps s).pending = s.pending := by rw [settle_eq]
@[simp] theorem settle_clock (b : State) (ps : List (Blk × Nat)) (s : State) : (settle b ps s).clock = s.clock := by rw [settle_eq]
@[simp] theorem settle_fuses (b : State) (ps : List (Blk × Nat)) (s : State) : (settle b ps s).fuses = s.fuses := by rw [settle_eq]
@[simp] theorem settle_acc (b : State) (ps : List (Blk × Nat)) (s : State) : (settle b ps s).acc = s.acc := by rw [settle_eq]
@[simp] theorem settle_frees (b : State) (ps : List (Blk × Nat)) (s : State) : (settle b ps s).frees = s.frees := by rw [settle_eq]
@[simp] theorem settle_logs (b : State) (ps : List (Blk × Nat)) (s : State) : (settle b ps s).logs = s.logs := by rw [settle_eq]
@[simp] theorem settle_blks (b : State) (ps : List (Blk × Nat)) (s : State) : (settle b ps s).blks = s.blks := by rw [settle_eq]
@[simp] theorem settle_scr (b : State) (ps : List (Blk × Nat)) (s : State) : (settle b ps s).scr = s.scr := by rw [settle_eq]
@[simp] theorem settle_scrChk (b : State) (ps : List (Blk × Nat)) (s : State) : (settle b ps s).scrChk = s.scrChk := by rw [settle_eq]
@[simp] theorem settle_dram (b : State) (ps : List (Blk × Nat)) (s : State) : (settle b ps s).dram = s.dram := by rw [settle_eq]
@[simp] theorem settle_pv (b : State) (ps : List (Blk × Nat)) (s : State) : (settle b ps s).pv = s.pv := by rw [settle_eq]
@[simp] theorem settle_bootMem (b : State) (ps : List (Blk × Nat)) (s : State) : (settle b ps s).bootMem = s.bootMem := by rw [settle_eq]
@[simp] theorem settle_tiles (b : State) (ps : List (Blk × Nat)) (s : State) : (settle b ps s).tiles = s.tiles := by rw [settle_eq]
@[simp] theorem settle_cores (b : State) (ps : List (Blk × Nat)) (s : State) : (settle b ps s).cores = s.cores := by rw [settle_eq]
@[simp] theorem settle_banks (b : State) (ps : List (Blk × Nat)) (s : State) : (settle b ps s).banks = s.banks := by rw [settle_eq]
@[simp] theorem settle_stks (b : State) (ps : List (Blk × Nat)) (s : State) : (settle b ps s).stks = s.stks := by rw [settle_eq]
@[simp] theorem settle_ctxs (b : State) (ps : List (Blk × Nat)) (s : State) : (settle b ps s).ctxs = s.ctxs := by rw [settle_eq]
@[simp] theorem settle_chans (b : State) (ps : List (Blk × Nat)) (s : State) : (settle b ps s).chans = s.chans := by rw [settle_eq]
@[simp] theorem settle_engs (b : State) (ps : List (Blk × Nat)) (s : State) : (settle b ps s).engs = s.engs := by rw [settle_eq]
@[simp] theorem settle_regions (b : State) (ps : List (Blk × Nat)) (s : State) : (settle b ps s).regions = s.regions := by rw [settle_eq]
@[simp] theorem settle_loader (b : State) (ps : List (Blk × Nat)) (s : State) : (settle b ps s).loader = s.loader := by rw [settle_eq]
@[simp] theorem settle_checks (b : State) (ps : List (Blk × Nat)) (s : State) : (settle b ps s).checks = s.checks := by rw [settle_eq]
@[simp] theorem settle_net (b : State) (ps : List (Blk × Nat)) (s : State) : (settle b ps s).net = s.net := by rw [settle_eq]
@[simp] theorem settle_ports (b : State) (ps : List (Blk × Nat)) (s : State) : (settle b ps s).ports = s.ports := by rw [settle_eq]
@[simp] theorem settle_power (b : State) (ps : List (Blk × Nat)) (s : State) : (settle b ps s).power = s.power := by rw [settle_eq]
@[simp] theorem settle_ocast (b : State) (ps : List (Blk × Nat)) (s : State) : (settle b ps s).ocast = s.ocast := by rw [settle_eq]
@[simp] theorem settle_host (b : State) (ps : List (Blk × Nat)) (s : State) : (settle b ps s).host = s.host := by rw [settle_eq]
@[simp] theorem settle_conc (b : State) (ps : List (Blk × Nat)) (s : State) : (settle b ps s).conc = s.conc := by rw [settle_eq]
@[simp] theorem settle_mgmt (b : State) (ps : List (Blk × Nat)) (s : State) : (settle b ps s).mgmt = s.mgmt := by rw [settle_eq]
@[simp] theorem settle_pins (b : State) (ps : List (Blk × Nat)) (s : State) : (settle b ps s).pins = s.pins := by rw [settle_eq]

/-- Latching the events of pages changes no register but their EVPEND. -/
theorem reg_settle (b : State) (ps : List (Blk × Nat)) (s : State) (k : Nat)
    (h : k ∉ ps.map (fun p => p.1.keyP p.2 + Rg.hdr.EVPEND)) : reg (settle b ps s) k = reg s k := by
  induction ps generalizing s with
  | nil => rfl
  | cons p t ih =>
    simp only [List.map_cons, List.mem_cons, not_or] at h
    simp only [settle]
    rw [ih _ h.2]
    unfold settle1
    dsimp only
    split
    · rfl
    · exact reg_setReg_ne _ _ h.1

@[simp] theorem watched_pending (ps : List (Blk × Nat)) (f : State → State) (s : State) : (watched ps f s).pending = (f s).pending := settle_pending _ _ _
@[simp] theorem watched_clock (ps : List (Blk × Nat)) (f : State → State) (s : State) : (watched ps f s).clock = (f s).clock := settle_clock _ _ _
@[simp] theorem watched_fuses (ps : List (Blk × Nat)) (f : State → State) (s : State) : (watched ps f s).fuses = (f s).fuses := settle_fuses _ _ _
@[simp] theorem watched_acc (ps : List (Blk × Nat)) (f : State → State) (s : State) : (watched ps f s).acc = (f s).acc := settle_acc _ _ _
@[simp] theorem watched_frees (ps : List (Blk × Nat)) (f : State → State) (s : State) : (watched ps f s).frees = (f s).frees := settle_frees _ _ _
@[simp] theorem watched_logs (ps : List (Blk × Nat)) (f : State → State) (s : State) : (watched ps f s).logs = (f s).logs := settle_logs _ _ _
@[simp] theorem watched_blks (ps : List (Blk × Nat)) (f : State → State) (s : State) : (watched ps f s).blks = (f s).blks := settle_blks _ _ _
@[simp] theorem watched_scr (ps : List (Blk × Nat)) (f : State → State) (s : State) : (watched ps f s).scr = (f s).scr := settle_scr _ _ _
@[simp] theorem watched_scrChk (ps : List (Blk × Nat)) (f : State → State) (s : State) : (watched ps f s).scrChk = (f s).scrChk := settle_scrChk _ _ _
@[simp] theorem watched_dram (ps : List (Blk × Nat)) (f : State → State) (s : State) : (watched ps f s).dram = (f s).dram := settle_dram _ _ _
@[simp] theorem watched_pv (ps : List (Blk × Nat)) (f : State → State) (s : State) : (watched ps f s).pv = (f s).pv := settle_pv _ _ _
@[simp] theorem watched_bootMem (ps : List (Blk × Nat)) (f : State → State) (s : State) : (watched ps f s).bootMem = (f s).bootMem := settle_bootMem _ _ _
@[simp] theorem watched_tiles (ps : List (Blk × Nat)) (f : State → State) (s : State) : (watched ps f s).tiles = (f s).tiles := settle_tiles _ _ _
@[simp] theorem watched_cores (ps : List (Blk × Nat)) (f : State → State) (s : State) : (watched ps f s).cores = (f s).cores := settle_cores _ _ _
@[simp] theorem watched_banks (ps : List (Blk × Nat)) (f : State → State) (s : State) : (watched ps f s).banks = (f s).banks := settle_banks _ _ _
@[simp] theorem watched_stks (ps : List (Blk × Nat)) (f : State → State) (s : State) : (watched ps f s).stks = (f s).stks := settle_stks _ _ _
@[simp] theorem watched_ctxs (ps : List (Blk × Nat)) (f : State → State) (s : State) : (watched ps f s).ctxs = (f s).ctxs := settle_ctxs _ _ _
@[simp] theorem watched_chans (ps : List (Blk × Nat)) (f : State → State) (s : State) : (watched ps f s).chans = (f s).chans := settle_chans _ _ _
@[simp] theorem watched_engs (ps : List (Blk × Nat)) (f : State → State) (s : State) : (watched ps f s).engs = (f s).engs := settle_engs _ _ _
@[simp] theorem watched_regions (ps : List (Blk × Nat)) (f : State → State) (s : State) : (watched ps f s).regions = (f s).regions := settle_regions _ _ _
@[simp] theorem watched_loader (ps : List (Blk × Nat)) (f : State → State) (s : State) : (watched ps f s).loader = (f s).loader := settle_loader _ _ _
@[simp] theorem watched_checks (ps : List (Blk × Nat)) (f : State → State) (s : State) : (watched ps f s).checks = (f s).checks := settle_checks _ _ _
@[simp] theorem watched_net (ps : List (Blk × Nat)) (f : State → State) (s : State) : (watched ps f s).net = (f s).net := settle_net _ _ _
@[simp] theorem watched_ports (ps : List (Blk × Nat)) (f : State → State) (s : State) : (watched ps f s).ports = (f s).ports := settle_ports _ _ _
@[simp] theorem watched_power (ps : List (Blk × Nat)) (f : State → State) (s : State) : (watched ps f s).power = (f s).power := settle_power _ _ _
@[simp] theorem watched_ocast (ps : List (Blk × Nat)) (f : State → State) (s : State) : (watched ps f s).ocast = (f s).ocast := settle_ocast _ _ _
@[simp] theorem watched_host (ps : List (Blk × Nat)) (f : State → State) (s : State) : (watched ps f s).host = (f s).host := settle_host _ _ _
@[simp] theorem watched_conc (ps : List (Blk × Nat)) (f : State → State) (s : State) : (watched ps f s).conc = (f s).conc := settle_conc _ _ _
@[simp] theorem watched_mgmt (ps : List (Blk × Nat)) (f : State → State) (s : State) : (watched ps f s).mgmt = (f s).mgmt := settle_mgmt _ _ _
@[simp] theorem watched_pins (ps : List (Blk × Nat)) (f : State → State) (s : State) : (watched ps f s).pins = (f s).pins := settle_pins _ _ _

theorem reg_watched (ps : List (Blk × Nat)) (f : State → State) (s : State) (k : Nat)
    (h : k ∉ ps.map (fun p => p.1.keyP p.2 + Rg.hdr.EVPEND)) : reg (watched ps f s) k = reg (f s) k :=
  reg_settle _ _ _ _ h

theorem rowSettle_eq (u : Fin 64) (s : State) : rowSettle u s = { s with blks := (rowSettle u s).blks } := by
  unfold rowSettle
  try dsimp only
  split <;> rfl

theorem vecSettle_eq (u : Fin 64) (s : State) : vecSettle u s = { s with blks := (vecSettle u s).blks } := by
  unfold vecSettle
  try dsimp only
  split <;> rfl

theorem seqSettle_eq (u : Fin 64) (s : State) : seqSettle u s = { s with blks := (seqSettle u s).blks } := by
  unfold seqSettle
  try dsimp only
  split <;> rfl

theorem tileSettle_eq (u : Fin 64) (s : State) : tileSettle u s = { s with blks := (tileSettle u s).blks } := by
  unfold tileSettle
  rw [seqSettle_eq, vecSettle_eq, rowSettle_eq]

@[simp] theorem tileSettle_pending (u : Fin 64) (s : State) : (tileSettle u s).pending = s.pending := by rw [tileSettle_eq]
@[simp] theorem tileSettle_clock (u : Fin 64) (s : State) : (tileSettle u s).clock = s.clock := by rw [tileSettle_eq]
@[simp] theorem tileSettle_fuses (u : Fin 64) (s : State) : (tileSettle u s).fuses = s.fuses := by rw [tileSettle_eq]
@[simp] theorem tileSettle_acc (u : Fin 64) (s : State) : (tileSettle u s).acc = s.acc := by rw [tileSettle_eq]
@[simp] theorem tileSettle_frees (u : Fin 64) (s : State) : (tileSettle u s).frees = s.frees := by rw [tileSettle_eq]
@[simp] theorem tileSettle_regs (u : Fin 64) (s : State) : (tileSettle u s).regs = s.regs := by rw [tileSettle_eq]
@[simp] theorem tileSettle_logs (u : Fin 64) (s : State) : (tileSettle u s).logs = s.logs := by rw [tileSettle_eq]
@[simp] theorem tileSettle_scr (u : Fin 64) (s : State) : (tileSettle u s).scr = s.scr := by rw [tileSettle_eq]
@[simp] theorem tileSettle_scrChk (u : Fin 64) (s : State) : (tileSettle u s).scrChk = s.scrChk := by rw [tileSettle_eq]
@[simp] theorem tileSettle_dram (u : Fin 64) (s : State) : (tileSettle u s).dram = s.dram := by rw [tileSettle_eq]
@[simp] theorem tileSettle_pv (u : Fin 64) (s : State) : (tileSettle u s).pv = s.pv := by rw [tileSettle_eq]
@[simp] theorem tileSettle_bootMem (u : Fin 64) (s : State) : (tileSettle u s).bootMem = s.bootMem := by rw [tileSettle_eq]
@[simp] theorem tileSettle_tiles (u : Fin 64) (s : State) : (tileSettle u s).tiles = s.tiles := by rw [tileSettle_eq]
@[simp] theorem tileSettle_cores (u : Fin 64) (s : State) : (tileSettle u s).cores = s.cores := by rw [tileSettle_eq]
@[simp] theorem tileSettle_banks (u : Fin 64) (s : State) : (tileSettle u s).banks = s.banks := by rw [tileSettle_eq]
@[simp] theorem tileSettle_stks (u : Fin 64) (s : State) : (tileSettle u s).stks = s.stks := by rw [tileSettle_eq]
@[simp] theorem tileSettle_ctxs (u : Fin 64) (s : State) : (tileSettle u s).ctxs = s.ctxs := by rw [tileSettle_eq]
@[simp] theorem tileSettle_chans (u : Fin 64) (s : State) : (tileSettle u s).chans = s.chans := by rw [tileSettle_eq]
@[simp] theorem tileSettle_engs (u : Fin 64) (s : State) : (tileSettle u s).engs = s.engs := by rw [tileSettle_eq]
@[simp] theorem tileSettle_regions (u : Fin 64) (s : State) : (tileSettle u s).regions = s.regions := by rw [tileSettle_eq]
@[simp] theorem tileSettle_loader (u : Fin 64) (s : State) : (tileSettle u s).loader = s.loader := by rw [tileSettle_eq]
@[simp] theorem tileSettle_checks (u : Fin 64) (s : State) : (tileSettle u s).checks = s.checks := by rw [tileSettle_eq]
@[simp] theorem tileSettle_net (u : Fin 64) (s : State) : (tileSettle u s).net = s.net := by rw [tileSettle_eq]
@[simp] theorem tileSettle_ports (u : Fin 64) (s : State) : (tileSettle u s).ports = s.ports := by rw [tileSettle_eq]
@[simp] theorem tileSettle_power (u : Fin 64) (s : State) : (tileSettle u s).power = s.power := by rw [tileSettle_eq]
@[simp] theorem tileSettle_ocast (u : Fin 64) (s : State) : (tileSettle u s).ocast = s.ocast := by rw [tileSettle_eq]
@[simp] theorem tileSettle_host (u : Fin 64) (s : State) : (tileSettle u s).host = s.host := by rw [tileSettle_eq]
@[simp] theorem tileSettle_conc (u : Fin 64) (s : State) : (tileSettle u s).conc = s.conc := by rw [tileSettle_eq]
@[simp] theorem tileSettle_mgmt (u : Fin 64) (s : State) : (tileSettle u s).mgmt = s.mgmt := by rw [tileSettle_eq]
@[simp] theorem tileSettle_pins (u : Fin 64) (s : State) : (tileSettle u s).pins = s.pins := by rw [tileSettle_eq]

theorem blkSt_congr {s t : State} (h : t.blks = s.blks) (b : Blk) : blkSt t b = blkSt s b := by unfold blkSt; rw [h]

/-- A block state that a stop has taken hold of, or one as it was. -/
def StopHeld (s t : State) (b : Blk) : Prop :=
  blkSt t b = blkSt s b ∨ ((blkSt s b).run = .stopping ∧ blkSt t b = { blkSt s b with run := .stopped })

theorem stopHeld_trans {s t u : State} {b : Blk} (h1 : StopHeld s t b) (h2 : StopHeld t u b) : StopHeld s u b := by
  rcases h1 with h1 | ⟨h1, h1'⟩
  · rcases h2 with h2 | ⟨h2, h2'⟩
    · exact .inl (h2.trans h1)
    · rw [h1] at h2 h2'; exact .inr ⟨h2, h2'⟩
  · rcases h2 with h2 | ⟨h2, h2'⟩
    · exact .inr ⟨h1, h2.trans h1'⟩
    · rw [h1'] at h2; cases h2

theorem stopHeld_setRun (s : State) {a b : Blk} (ha : a.wf = true) (hb : b.wf = true)
    (h : (blkSt s b).run = .stopping) : StopHeld s (setRun s b .stopped) a := by
  unfold StopHeld
  rw [blkSt_setRun s ha hb]
  split
  · subst_vars; exact .inr ⟨h, rfl⟩
  · exact .inl rfl

theorem stopHeld_refl (s : State) (b : Blk) : StopHeld s s b := .inl rfl

/-- Stops of a tile take hold, and nothing else becomes of a block state. -/
theorem stopHeld_tileSettle (u : Fin 64) (s : State) {b : Blk} (hb : b.wf = true) : StopHeld s (tileSettle u s) b := by
  unfold tileSettle
  have h1 : StopHeld s (rowSettle u s) b := by
    unfold rowSettle; dsimp only; split
    · exact stopHeld_setRun s hb rfl (by rename_i h; exact h.1)
    · exact stopHeld_refl s b
  have h2 : ∀ s, StopHeld s (vecSettle u s) b := by
    intro s; unfold vecSettle; split
    · exact stopHeld_setRun s hb rfl (by rename_i h; exact h.1)
    · exact stopHeld_refl s b
  have h3 : ∀ s, StopHeld s (seqSettle u s) b := by
    intro s; unfold seqSettle; dsimp only; split
    · exact stopHeld_setRun s hb rfl (by rename_i h; exact h.1)
    · exact stopHeld_refl s b
  exact stopHeld_trans (stopHeld_trans h1 (h2 _)) (h3 _)

end Sys2Proof.Machine
end

