-- ==== Sys2Proof/Laws/Forms.lean ====
section
/-! SUPPORT. What the shared forms of meanings answer: a command is a next state, in which the queue, the fuses and the
    timebase are as before, and what latching events and settling stops may add is named. -/

namespace Sys2Proof.Machine

/-- The result of a change as `act` answers it. -/
def actTo (f : State → State) (s : State) : State := { f s with pending := s.pending, fuses := s.fuses, clock := s.clock }

theorem act_next (f : State → State) (s : State) : act f s = .next (actTo f s) := rfl

theorem KeepsBut.of_all {ps : List Part} {s t : State} (hp : t.pending = s.pending)
    (h : ∀ p, p ∉ ps → Part.Same s t p) : KeepsBut ps s t := ⟨hp, h⟩

theorem keepsBut_refl (ps : List Part) (s : State) : KeepsBut ps s s := ⟨rfl, fun p _ => by cases p <;> rfl⟩

theorem keepsBut_mono {ps qs : List Part} {s t : State} (h : KeepsBut ps s t) (hs : ∀ p ∈ ps, p ∈ qs) :
    KeepsBut qs s t := ⟨h.1, fun p hp => h.2 p (fun hq => hp (hs p hq))⟩

theorem keepsBut_trans {ps : List Part} {s t u : State} (h1 : KeepsBut ps s t) (h2 : KeepsBut ps t u) :
    KeepsBut ps s u := by
  refine ⟨h2.1.trans h1.1, fun p hp => ?_⟩
  have a := h1.2 p hp
  have b := h2.2 p hp
  cases p <;> exact b.trans a

/-- A change that leaves the fuses alone changes a register as `act` shows it. -/
theorem reg_actTo (f : State → State) (s : State) (h : (f s).fuses = s.fuses) (k : Nat) :
    reg (actTo f s) k = reg (f s) k := by unfold actTo reg; rw [h]

theorem reg_of (s t : State) (hr : t.regs = s.regs) (hf : t.fuses = s.fuses) (k : Nat) : reg t k = reg s k :=
  reg_congr hr hf k

/-- Latching events: nothing but EVPEND of the listed pages. -/
theorem keepsBut_watched (ps : List (Blk × Nat)) (f : State → State) (s : State) :
    KeepsBut [.regs] (f s) (watched ps f s) :=
  ⟨by simp, fun p hp => by cases p <;> simp_all [Part.Same]⟩

theorem regsBut_watched (ps : List (Blk × Nat)) (f : State → State) (s : State) :
    RegsBut (evKeys ps) (f s) (watched ps f s) := fun k hk => reg_watched ps f s k hk

theorem keepsBut_tileSettle (u : Fin 64) (s : State) : KeepsBut [.blks] s (tileSettle u s) :=
  ⟨by simp, fun p hp => by cases p <;> simp_all [Part.Same]⟩

theorem cpuAct_core (k : Fin 4) (f : State → State) (s : State) : cpuAct (.core k) f s = .next (actTo f s) := rfl

/-- The result of a change within a tile. -/
def tileTo (u : Fin 64) (f : State → State) (s : State) : State :=
  actTo (watched (tilePages u) (fun s => if issues s (.seq u) then tileSettle u (f s) else s)) s

theorem tileAct_next (u : Fin 64) (f : State → State) (s : State) : tileAct u f s = .next (tileTo u f s) := rfl

theorem cpuAct_tile (u : Fin 64) (f : State → State) (s : State) : cpuAct (.tile u) f s = .next (tileTo u f s) := rfl

/-- The result of a change that a processor makes. -/
def cpuTo : Cpu → (State → State) → State → State
  | .tile u, f, s => tileTo u f s
  | .core _, f, s => actTo f s

theorem cpuAct_next (q : Cpu) (f : State → State) (s : State) : cpuAct q f s = .next (cpuTo q f s) := by cases q <;> rfl

/-- A processor's change keeps what the change keeps; its tile's event levels are latched and stops take hold. -/
theorem cpuTo_keeps (q : Cpu) (f : State → State) (s : State) (hi : ∀ u, q = .tile u → issues s (.seq u) = true)
    (hp : (f s).pending = s.pending) (hf : (f s).fuses = s.fuses) (hc : (f s).clock = s.clock) :
    KeepsBut [.regs, .blks] (f s) (cpuTo q f s) ∧ (∀ b : Blk, b.wf = true → StopHeld (f s) (cpuTo q f s) b) ∧
    RegsBut (evKeys (cpuPages q)) (f s) (cpuTo q f s) := by
  cases q with
  | core k =>
    have h : cpuTo (.core k) f s = f s := by
      simp only [cpuTo, actTo, ← hp, ← hf, ← hc]
    rw [h]
    exact ⟨keepsBut_refl _ _, fun b _ => stopHeld_refl _ b, fun k _ => rfl⟩
  | tile u =>
    have hu := hi u rfl
    have h : cpuTo (.tile u) f s =
        watched (tilePages u) (fun s => if issues s (.seq u) then tileSettle u (f s) else s) s := by
      simp only [cpuTo, tileTo, actTo]
      generalize hw : watched (tilePages u) (fun s => if issues s (.seq u) then tileSettle u (f s) else s) s = w
      have h1 : w.pending = s.pending := by rw [← hw]; simp [hu, hp]
      have h2 : w.fuses = s.fuses := by rw [← hw]; simp [hu, hf]
      have h3 : w.clock = s.clock := by rw [← hw]; simp [hu, hc]
      rw [← h1, ← h2, ← h3]
    rw [h]
    have e : (fun s => if issues s (.seq u) then tileSettle u (f s) else s) s = tileSettle u (f s) := by simp [hu]
    have kw := keepsBut_watched (tilePages u) (fun s => if issues s (.seq u) then tileSettle u (f s) else s) s
    have rw' := regsBut_watched (tilePages u) (fun s => if issues s (.seq u) then tileSettle u (f s) else s) s
    simp only [e] at kw rw'
    refine ⟨keepsBut_trans (keepsBut_mono (keepsBut_tileSettle u (f s)) (by simp)) (keepsBut_mono kw (by simp)), ?_, ?_⟩
    · intro b hb
      have := stopHeld_tileSettle u (f s) hb
      have hb2 := kw.2 .blks (by simp)
      unfold StopHeld at this ⊢
      rw [blkSt_congr hb2]; exact this
    · intro k hk
      have h1 := rw' k hk
      rw [h1]
      exact reg_congr (by simp) (by simp) k

end Sys2Proof.Machine
end

