-- ==== Sys2Proof/Laws/Cpu.lean ====
section
/-! SUPPORT. What an instruction of a processor comes to: it sets its processor and retires, traps, or waits, and its tile's
    events and stops are all that is latched beside. -/

namespace Sys2Proof.Machine

theorem seqCnt_core (k : Fin 4) (o : Nat) (s : State) : seqCnt (.core k) o s = s := rfl
theorem seqCnt_tile (u : Fin 64) (o : Nat) (s : State) : seqCnt (.tile u) o s = bump s (Blk.key (.seq u) + o) := rfl

theorem runs_issues {s : State} {u : Fin 64} (h : runs s (.tile u) = true) : issues s (.seq u) = true := by
  simp only [runs, Bool.and_eq_true] at h; exact h.1.1.2

theorem setCpu_keeps (s : State) (q : Cpu) (p : Proc) : KeepsBut [.tiles, .cores] s (setCpu s q p) :=
  ⟨by simp, fun x hx => by cases x <;> simp_all [Part.Same]⟩

theorem bump_keeps (s : State) (k n : Nat) : KeepsBut [.regs] s (bump s k n) :=
  ⟨by simp, fun x hx => by cases x <;> simp_all [Part.Same]⟩

theorem seqCnt_keeps (q : Cpu) (o : Nat) (s : State) : KeepsBut [.regs] s (seqCnt q o s) := by
  cases q with
  | core k => exact keepsBut_refl _ _
  | tile u => exact bump_keeps _ _ _

theorem cpu_congr {s t : State} (h1 : t.tiles = s.tiles) (h2 : t.cores = s.cores) (r : Cpu) : cpu t r = cpu s r := by
  cases r <;> simp [cpu, tile, h1, h2]

theorem tile_congr {s t : State} (h1 : t.tiles = s.tiles) (u : Fin 64) : tile t u = tile s u := by
  simp [tile, h1]

theorem cpu_seqCnt (q : Cpu) (o : Nat) (s : State) (r : Cpu) : cpu (seqCnt q o s) r = cpu s r :=
  cpu_congr ((seqCnt_keeps q o s).2 .tiles (by simp)) ((seqCnt_keeps q o s).2 .cores (by simp)) r

/-- The frame of a processor's change from what the change itself keeps. -/
theorem frameOf {q : Cpu} {offs : List Nat} {s : State} {f : State → State} (hr : ∀ u, q = .tile u → issues s (.seq u) = true)
    (hk : KeepsBut [.tiles, .cores, .regs] s (f s)) (hcpu : ∀ r, r ≠ q → cpu (f s) r = cpu s r)
    (htile : ∀ u, { tile (f s) u with seq := (tile s u).seq } = tile s u)
    (hregs : RegsBut (cpuKeys q offs) s (f s)) :
    ∃ t, cpuAct q f s = .next t ∧ CpuFrame q offs s t ∧ cpu t q = cpu (f s) q ∧
      (∀ k, k ∉ evKeys (cpuPages q) → reg t k = reg (f s) k) := by
  refine ⟨_, cpuAct_next q f s, ?_⟩
  obtain ⟨h1, h2, h3⟩ := cpuTo_keeps q f s hr hk.1 (hk.2 .fuses (by simp)) (hk.2 .clock (by simp))
  have ht : (cpuTo q f s).tiles = (f s).tiles := h1.2 .tiles (by simp)
  have hc : (cpuTo q f s).cores = (f s).cores := h1.2 .cores (by simp)
  refine ⟨⟨?_, ?_, ?_, ?_, ?_⟩, cpu_congr ht hc q, h3⟩
  · exact keepsBut_trans (keepsBut_mono hk (by simp)) (keepsBut_mono h1 (by simp))
  · intro r hr'; rw [cpu_congr ht hc, hcpu r hr']
  · intro u; rw [tile_congr ht]; exact htile u
  · intro b hb
    have := h2 b hb
    unfold StopHeld at this
    rw [blkSt_congr (hk.2 .blks (by simp))] at this
    exact this
  · intro k hk'
    simp only [List.mem_append, not_or] at hk'
    rw [h3 k hk'.2, hregs k hk'.1]

theorem tileSame_setCpu (s : State) (q : Cpu) (p : Proc) (u : Fin 64) :
    { tile (setCpu s q p) u with seq := (tile s u).seq } = tile s u := by rw [tile_setCpu]

theorem evKeys_mod (q : Cpu) (k : Nat) (h : k ∈ evKeys (cpuPages q)) : k % 4096 = 0x20 := by
  simp only [evKeys, List.mem_map] at h
  obtain ⟨p, -, rfl⟩ := h
  simp only [Blk.keyP, pageKey]
  show (_ + 32) % 4096 = 32
  omega

theorem cpuKeys_mod {q : Cpu} {offs : List Nat} {k : Nat} (h : k ∈ cpuKeys q offs) : ∃ o ∈ offs, k % 4096 = o % 4096 := by
  cases q with
  | core _ => simp [cpuKeys] at h
  | tile u =>
    simp only [cpuKeys, List.mem_map] at h
    obtain ⟨o, ho, rfl⟩ := h
    refine ⟨o, ho, ?_⟩
    simp only [Blk.key, pageKey]; omega

theorem reg_seqCnt (q : Cpu) (o : Nat) (s : State) (k : Nat) : reg (seqCnt q o s) k =
    if k ∈ cpuKeys q [o] then satAdd (reg s k) 1 else reg s k := by
  cases q with
  | core _ => simp [seqCnt, cpuKeys]
  | tile u => simp only [seqCnt, cpuKeys, reg_bump, List.map_cons, List.map_nil, List.mem_singleton]; split <;> simp_all

theorem reg_setCpu (s : State) (q : Cpu) (p : Proc) (k : Nat) : reg (setCpu s q p) k = reg s k :=
  reg_congr (by simp) (by simp) k

/-- A state in which processor `q` has become `p` and nothing else has changed. -/
def IsSet (q : Cpu) (p : Proc) (s x : State) : Prop :=
  KeepsBut [.tiles, .cores] s x ∧ cpu x q = p ∧ (∀ r, r ≠ q → cpu x r = cpu s r) ∧
  ∀ u, { tile x u with seq := (tile s u).seq } = tile s u

theorem isSet_refl (q : Cpu) (s : State) : IsSet q (cpu s q) s s :=
  ⟨keepsBut_refl _ _, rfl, fun _ _ => rfl, fun _ => rfl⟩

theorem isSet_setCpu {q : Cpu} {p p' : Proc} {s x : State} (h : IsSet q p s x) : IsSet q p' s (setCpu x q p') := by
  refine ⟨keepsBut_trans h.1 (setCpu_keeps x q p'), by simp, fun r hr => ?_, fun u => ?_⟩
  · rw [cpu_setCpu, if_neg hr, h.2.2.1 r hr]
  · have h1 := h.2.2.2 u
    rw [tile_setCpu]
    exact h1

theorem isSet_updCpu {q : Cpu} {p : Proc} {s x : State} (f : Proc → Proc) (h : IsSet q p s x) :
    IsSet q (f p) s (updCpu x q f) := by
  have := isSet_setCpu (p' := f (cpu x q)) h
  rw [h.2.1] at this
  simpa only [updCpu, h.2.1] using this

theorem isSet_reg {q : Cpu} {p : Proc} {s x : State} (h : IsSet q p s x) (k : Nat) : reg x k = reg s k :=
  reg_congr (h.1.2 .regs (by simp)) (h.1.2 .fuses (by simp)) k

/-- A change that sets a processor and counts. -/
theorem cpuSetCount {q : Cpu} {s x : State} {f : State → State} {p : Proc} {o : Nat}
    (hr : ∀ u, q = .tile u → issues s (.seq u) = true) (ho : o % 4096 ≠ 0x20) (hx : IsSet q p s x) (h : f s = seqCnt q o x) :
    ∃ t, cpuAct q f s = .next t ∧ cpu t q = p ∧ Counted q [o] s t ∧ CpuFrame q [o] s t := by
  obtain ⟨t, h1, h2, h3, h4⟩ := frameOf (offs := [o]) (f := f) hr
    (by rw [h]; exact keepsBut_trans (keepsBut_mono hx.1 (by simp)) (keepsBut_mono (seqCnt_keeps q o _) (by simp)))
    (by intro r hr'; rw [h, cpu_seqCnt, hx.2.2.1 r hr'])
    (by intro u; rw [h, tile_congr ((seqCnt_keeps q o _).2 .tiles (by simp))]; exact hx.2.2.2 u)
    (by intro k hk; rw [h, reg_seqCnt, if_neg hk, isSet_reg hx])
  refine ⟨t, h1, ?_, ?_, h2⟩
  · rw [h3, h, cpu_seqCnt]; exact hx.2.1
  · intro k hk
    have : k ∉ evKeys (cpuPages q) := by
      intro he
      have e1 := evKeys_mod q k he
      obtain ⟨o', ho', e2⟩ := cpuKeys_mod hk
      simp only [List.mem_singleton] at ho'; subst ho'; omega
    rw [h4 k this, h, reg_seqCnt, if_pos hk, isSet_reg hx]

/-- A change that sets a processor and nothing else. -/
theorem cpuSetOnly {q : Cpu} {s : State} {f : State → State} {p : Proc}
    (hr : ∀ u, q = .tile u → issues s (.seq u) = true) (hx : IsSet q p s (f s)) :
    ∃ t, cpuAct q f s = .next t ∧ cpu t q = p ∧ CpuFrame q [] s t := by
  obtain ⟨t, h1, h2, h3, -⟩ := frameOf (offs := []) (f := f) hr (keepsBut_mono hx.1 (by simp)) hx.2.2.1 hx.2.2.2
    (fun k _ => isSet_reg hx k)
  exact ⟨t, h1, h3.trans hx.2.1, h2⟩

/-- An instruction that sets its processor and retires at a word. -/
theorem retiresAt {q : Cpu} {s x : State} {f : State → State} {p : Proc} {a : Nat} (hr : runs s q = true)
    (hx : IsSet q p s x) (h : f s = retireAt q a x) : ∃ t, cpuAct q f s = .next t ∧ Retired q p a s t := by
  refine (cpuSetCount (o := Rg.seq.INSTRET) (fun u hu => runs_issues (hu ▸ hr)) (by decide) (isSet_updCpu _ hx)
    (h.trans rfl)).imp fun t ht => ⟨ht.1, ht.2.1, ht.2.2⟩

/-- An instruction that sets its processor and retires at the next word. -/
theorem retires {q : Cpu} {s x : State} {f : State → State} {p : Proc} (hr : runs s q = true)
    (hx : IsSet q p s x) (h : f s = retire q x) : ∃ t, cpuAct q f s = .next t ∧ Retired q p (p.pc.toNat + 4) s t := by
  refine (cpuSetCount (o := Rg.seq.INSTRET) (fun u hu => runs_issues (hu ▸ hr)) (by decide) (isSet_updCpu _ hx)
    (h.trans rfl)).imp fun t ht => ⟨ht.1, ht.2.1, ht.2.2⟩

@[simp] theorem setRg_pc (q : Cpu) (p : Proc) (d : RegF) (v : Nat) : (setRg q p d v).pc = p.pc := by
  unfold setRg; split <;> rfl

/-- An instruction that writes d and retires. -/
theorem retiresSet {q : Cpu} {s : State} {f : State → State} {d : RegF} {v : Nat} (hr : runs s q = true)
    (h : f s = retireSet q d v s) :
    ∃ t, cpuAct q f s = .next t ∧ Retired q (setRg q (cpu s q) d v) ((cpu s q).pc.toNat + 4) s t := by
  have := retires (f := f) hr (isSet_updCpu (fun p => setRg q p d v) (isSet_refl q s)) h
  simpa using this

/-- A trap outside the trap window. -/
theorem traps {q : Cpu} {s : State} {f : State → State} {code trpc info : Nat} (hr : runs s q = true)
    (hn : (cpu s q).intrap = false) (h : f s = trap q code trpc info s) :
    ∃ t, cpuAct q f s = .next t ∧ Trapped q code trpc info s t := by
  have hx := isSet_updCpu (fun p : Proc => { p with
    trpc := BitVec.ofNat 64 (trpc &&& imMask q), trcode := w32 (code + (0 : BitVec 8).toNat * 256),
    trinfo := BitVec.ofNat 64 (info % 2 ^ 32),
    intrap := true, pc := p.trvec, skipBrk := false, wait := .none }) (isSet_refl q s)
  exact (cpuSetCount (f := f) (o := Rg.seq.TRAPCNT) (fun u hu => runs_issues (hu ▸ hr)) (by decide) hx
    (by rw [h]; simp only [trap, hn, Bool.false_eq_true, if_false])).imp fun t ht => ⟨ht.1, ht.2.1, ht.2.2⟩

/-- What the shared form of an instruction does while its processor takes one. -/
theorem instr_ok {q : Cpu} {regs : List RegF} {ok : Bool} {word : W32} {f : State → State} {s : State}
    (hr : runs s q = true) (ho : ok = true) (hg : regs.any (fun r => decide (24 ≤ r.toNat)) = false) :
    instr q regs ok word f s = f s := by
  simp only [instr, hr, ho, hg]; rfl

theorem instr_bad {q : Cpu} {regs : List RegF} {ok : Bool} {word : W32} {f : State → State} {s : State}
    (hr : runs s q = true) (hb : ok = false ∨ regs.any (fun r => decide (24 ≤ r.toNat)) = true) :
    instr q regs ok word f s = trapHere q Tr.illegal word.toNat s := by
  simp only [instr, hr]
  rcases hb with h | h <;> simp [h]

end Sys2Proof.Machine
end

