-- ==== Sys2Proof/Laws/Mem.lean ====
section
/-! SUPPORT. Stored bytes: a read after a store gives the stored byte and every other byte as before, and every operation
    that stores bytes keeps the one canonical form. -/

namespace Sys2Proof.Machine

/-! ### Scratch -/

theorem scrByte_putScrBytes (s : State) (o : Nat) (d : List Byte) (a : Nat) :
    scrByte (putScrBytes s o d) a = if o ≤ a ∧ a < o + d.length then d.getD (a - o) 0 else scrByte s a := by
  induction d generalizing s o with
  | nil => simp only [putScrBytes, List.length_nil, Nat.add_zero]; rw [if_neg (by omega)]
  | cons b t ih =>
    rw [putScrBytes, ih]
    simp only [scrByte, List.length_cons]
    rw [tget_tset]
    by_cases h1 : a = o
    · subst h1; rw [if_neg (by omega), if_pos rfl, if_pos (by omega), Nat.sub_self]; rfl
    · by_cases h2 : o + 1 ≤ a ∧ a < o + 1 + t.length
      · rw [if_pos h2, if_pos (by omega), show a - o = (a - (o + 1)) + 1 by omega, List.getD_cons_succ]
      · rw [if_neg h2, if_neg h1, if_neg (by omega)]

@[simp] theorem scrChk_putScrBytes (s : State) (o : Nat) (d : List Byte) : (putScrBytes s o d).scrChk = s.scrChk := by
  induction d generalizing s o with
  | nil => rfl
  | cons b t ih => rw [putScrBytes, ih]

theorem scrWf_putScrBytes (s : State) (o : Nat) (d : List Byte) (h : Memory.wf s.scr) :
    Memory.wf (putScrBytes s o d).scr := by
  induction d generalizing s o with
  | nil => exact h
  | cons b t ih => exact ih _ _ (tabWf_tset _ _ _ _ h)

theorem scrChkWf_setScrSyn (s : State) (w v : Nat) (h : Memory.wf s.scrChk) : Memory.wf (setScrSyn s w v).scrChk :=
  tabWf_tset _ _ _ _ h

theorem scrWf_flipPos (s : State) (w p : Nat) (h : Memory.wf s.scr) : Memory.wf (flipPos s w p).scr := by
  unfold flipPos; split
  · exact tabWf_tset _ _ _ _ h
  · exact h

theorem scrChkWf_flipPos (s : State) (w p : Nat) (h : Memory.wf s.scrChk) : Memory.wf (flipPos s w p).scrChk := by
  unfold flipPos; split <;> exact tabWf_tset _ _ _ _ h

theorem memWf_zeroRows (s : State) (t : Fin 64) (g : Fin 4) (n : Nat) (h : Memory.wf s.scr) (h' : Memory.wf s.scrChk) :
    Memory.wf (zeroRows s t g n).scr ∧ Memory.wf (zeroRows s t g n).scrChk :=
  by simp only [zeroRows]; exact ⟨tabWf_tdrop _ _ _ h, tabWf_tdrop _ _ _ h'⟩

/-! ### DRAM -/

theorem dramByte_putSyms (s : State) (k : Fin 8) (l : Nat) (d : List Byte) (a : Nat) :
    dramByte (putSyms s k l d) k a = if l ≤ a ∧ a < l + d.length then d.getD (a - l) 0 else dramByte s k a := by
  induction d generalizing s l with
  | nil => simp only [putSyms, List.length_nil, Nat.add_zero]; rw [if_neg (by omega)]
  | cons b t ih =>
    rw [putSyms, ih]
    simp only [dramByte, List.length_cons]
    rw [tget_tset]
    by_cases h1 : a = l
    · subst h1; rw [if_neg (by omega), if_pos rfl, if_pos (by omega), Nat.sub_self]; rfl
    · by_cases h2 : l + 1 ≤ a ∧ a < l + 1 + t.length
      · rw [if_pos h2, if_pos (by omega), show a - l = (a - (l + 1)) + 1 by omega, List.getD_cons_succ]
      · rw [if_neg h2, if_neg (fun h => h1 (Nat.add_left_cancel h)), if_neg (by omega)]

/-- Check symbols stand beyond the data: a data byte is as before. -/
theorem dramByte_putChecks (k : Fin 8) (b n : Nat) (s : State) (a : Nat) (h : a < 2 ^ 35) :
    dramByte (putChecks k b n s) k a = dramByte s k a := by
  induction n generalizing b s with
  | zero => rfl
  | succ n ih =>
    rw [putChecks, ih]
    have hk := k.isLt
    simp only [dramByte, chkKey, tget_tset]
    rw [if_neg (by omega), if_neg (by omega)]

theorem dramByte_putDram (s : State) (k : Fin 8) (l : Nat) (d : List Byte) (a : Nat) (h : a < 2 ^ 35) :
    dramByte (putDram s k l d) k a = if l ≤ a ∧ a < l + d.length then d.getD (a - l) 0 else dramByte s k a := by
  rw [putDram, dramByte_putChecks _ _ _ _ _ h, dramByte_putSyms]

theorem dramWf_putSyms (s : State) (k : Fin 8) (l : Nat) (d : List Byte) (h : Memory.wf s.dram) :
    Memory.wf (putSyms s k l d).dram := by
  induction d generalizing s l with
  | nil => exact h
  | cons b t ih => exact ih _ _ (tabWf_tset _ _ _ _ h)

theorem dramWf_putChecks (k : Fin 8) (b n : Nat) (s : State) (h : Memory.wf s.dram) :
    Memory.wf (putChecks k b n s).dram := by
  induction n generalizing b s with
  | zero => exact h
  | succ n ih => exact ih _ _ (tabWf_tset _ _ _ _ (tabWf_tset _ _ _ _ h))

theorem dramWf_putDram (s : State) (k : Fin 8) (l : Nat) (d : List Byte) (h : Memory.wf s.dram) :
    Memory.wf (putDram s k l d).dram := dramWf_putChecks _ _ _ _ (dramWf_putSyms _ _ _ _ h)

theorem dramWf_upsetBlk (s : State) (k : Fin 8) (l : Nat) (e : List SymErr) (h : Memory.wf s.dram) :
    Memory.wf (upsetBlk s k l e).dram := by
  unfold upsetBlk
  induction e generalizing s with
  | nil => exact h
  | cons x t ih => exact ih _ (tabWf_tset _ _ _ _ h)

/-- The constant is the inverse of α^8 + α^9. -/
theorem gfInv89_inv : gfMul gfInv89 (gfPow 1 8 ^^^ gfPow 1 9) = 1 := by decide

/-! ### Memories of processors -/

theorem memWf_foldPut (a : Nat) (d : List (Byte × Nat)) (t : Tab Byte) (h : Memory.wf t) :
    Memory.wf (d.foldl (fun t (b, i) => tset 0 t (a + i) b) t) := by
  induction d generalizing t with
  | nil => exact h
  | cons e d ih => exact ih _ (tabWf_tset _ _ _ _ h)

theorem memWf_putBytes (t : Tab Byte) (a : Nat) (d : List Byte) (h : Memory.wf t) : Memory.wf (putBytes t a d) :=
  memWf_foldPut a _ t h

theorem memWf_bytesFrom (d : List Byte) (n : Nat) (lo : Option Nat) (hlo : ∀ l, lo = some l → l < n) :
    tabAbove (fun _ => (0 : Byte)) lo ((d.zipIdx n).filterMap (fun (b, i) => if b = 0 then none else some (i, b))) := by
  induction d generalizing n lo with
  | nil => rfl
  | cons b d ih =>
    simp only [List.zipIdx_cons, List.filterMap_cons]
    by_cases hb : b = 0
    · simp only [hb, if_true]; exact ih (n + 1) lo (fun l h => Nat.lt_succ_of_lt (hlo l h))
    · simp only [hb, if_false]; rw [tabAbove_cons]
      exact ⟨hlo, hb, ih (n + 1) (some n) (fun l h => by cases h; omega)⟩

theorem memWf_bytesTab (d : List Byte) : Memory.wf (bytesTab d) := memWf_bytesFrom d 0 none (by simp)

/-! ### Ranges read from scratch -/

theorem tget_bytesFrom (d : List Byte) (n k : Nat) :
    tget 0 ((d.zipIdx n).filterMap (fun (b, i) => if b = 0 then none else some (i, b))) k =
      if n ≤ k then d.getD (k - n) 0 else 0 := by
  induction d generalizing n with
  | nil => simp
  | cons b d ih =>
    simp only [List.zipIdx_cons, List.filterMap_cons]
    have hs : n < k → k - n = (k - (n + 1)) + 1 := by omega
    by_cases hb : b = 0
    · simp only [hb, if_true]; rw [ih]
      rcases Nat.lt_trichotomy n k with h | h | h
      · rw [if_pos (by omega), if_pos (by omega), hs h, List.getD_cons_succ]
      · subst h; rw [if_neg (by omega), if_pos (Nat.le_refl _), Nat.sub_self]; rfl
      · rw [if_neg (by omega), if_neg (by omega)]
    · simp only [hb, if_false]
      show (if k = n then b else tget 0 _ k) = _
      rw [ih]
      rcases Nat.lt_trichotomy n k with h | h | h
      · rw [if_neg (by omega), if_pos (by omega), if_pos (by omega), hs h, List.getD_cons_succ]
      · subst h; rw [if_pos rfl, if_pos (Nat.le_refl _), Nat.sub_self]; rfl
      · rw [if_neg (by omega), if_neg (by omega), if_neg (by omega)]

theorem tget_bytesTab (d : List Byte) (k : Nat) : tget 0 (bytesTab d) k = d.getD k 0 := by
  have h := tget_bytesFrom d 0 k
  simpa [bytesTab] using h

/-- Bytes [o, o + n) of a list, 0 past its end. -/
theorem scrBytes_bytesTab (s : State) (d : List Byte) (o n : Nat) (h : s.scr = bytesTab d) :
    scrBytes s o n = (List.range n).map (fun i => d.getD (o + i) 0) := by
  rw [scrBytes, List.map_inj_left]
  intro i _
  rw [scrByte, h, tget_bytesTab]

theorem synOf_scrSyn_nil (s : State) (w : Nat) (h : s.scrChk = []) : synOf (scrSyn s w) = .good := by
  simp [scrSyn, h, synOf]

theorem foldl_fixed {α : Type} (f : State → α → State) (l : List α) (s : State) (h : ∀ x, f s x = s) : l.foldl f s = s := by
  induction l with
  | nil => rfl
  | cons x l ih => rw [List.foldl_cons, h, ih]

theorem respErr_ok (s : State) (die : Nat) : respErr s die 0 = s := by rw [respErr, if_pos (Or.inl rfl)]

/-- What a read without check-bit errors performs. -/
theorem scrPerform_read (s : State) (r : Req) (o : Nat) (hk : r.kind = .read) (hs : s.scrChk = []) :
    scrPerform s r o = (0, scrBytes s o r.len, bump s (grpKey o + Rg.bank.ACCCNT)) := by
  have hf : (touchedReads r o).find? (fun w => synOf (scrSyn s w) == .unc) = none := by
    simp [synOf_scrSyn_nil s _ hs]
  have hb : (bump s (grpKey o + Rg.bank.ACCCNT)).scrChk = [] := by rw [bump_scrChk, hs]
  have hr : ∀ w : Nat, corrected1 (Kind.read == .read) r.who (bump s (grpKey o + Rg.bank.ACCCNT)) w =
      bump s (grpKey o + Rg.bank.ACCCNT) := fun w => by simp only [corrected1, synOf_scrSyn_nil _ w hb]
  have hx : readFixed (bump s (grpKey o + Rg.bank.ACCCNT)) o r.len = scrBytes s o r.len := by
    simp only [readFixed]
    rw [foldl_fixed _ _ _ (fun w => by simp only [fixWord, synOf_scrSyn_nil _ _ hb])]
    simp only [scrBytes, scrByte, bump_scr]
  simp only [scrPerform, hf, hk]
  rw [foldl_fixed _ _ _ hr, hx]

/-- A read of scratch without check-bit errors that is answered without an error returns the bytes stored. -/
theorem scrRequest_read (s : State) (r : Req) (o : Nat) (hk : r.kind = .read) (hn : r.cnt = none) (hs : s.scrChk = [])
    (h : (scrRequest s r o).1 = 0) :
    (scrRequest s r o).2.1 = scrBytes s o r.len ∧ (scrRequest s r o).2.2.scr = s.scr ∧ (scrRequest s r o).2.2.scrChk = [] := by
  have hq : (scrAccess s r o).1 = 0 := h
  have ha : scrAccess s r o = (0, scrBytes s o r.len, bump s (grpKey o + Rg.bank.ACCCNT)) := by
    have e := scrPerform_read s r o hk hs
    revert hq
    simp only [scrAccess, hn]
    by_cases h1 : scrCheck s r o = Rsn.stopped
    · rw [if_pos h1]; intro h; exact absurd (h1.symm.trans h) (by decide)
    · rw [if_neg h1]
      by_cases h2 : scrCheck s r o = 0
      · rw [if_neg (by simp [h2]), e]; intro _; rfl
      · rw [if_pos (by simpa using h2)]; intro h; exact absurd h h2
  simp only [scrRequest, ha]
  refine ⟨trivial, ?_, ?_⟩
  · rw [if_neg (by decide), respErr_ok, bump_scr]
  · rw [if_neg (by decide), respErr_ok, bump_scrChk, hs]

theorem readPieces_scr (who : Init) (ps : List (Nat × Nat)) (acc : List Byte) (s : State) (f : Nat → Nat) (hs : s.scrChk = [])
    (hp : ∀ p ∈ ps, scrOff (BitVec.ofNat 48 p.1) = some (f p.1)) (h : (readPieces who ps acc s).rsn = 0) :
    (readPieces who ps acc s).data = acc ++ ps.flatMap (fun p => scrBytes s (f p.1) p.2) ∧
      (readPieces who ps acc s).st.scr = s.scr ∧ (readPieces who ps acc s).st.scrChk = [] := by
  induction ps generalizing acc s with
  | nil => simp [readPieces, hs]
  | cons p t ih =>
    obtain ⟨a, n⟩ := p
    have ho : scrOff (mkReq who .read a n []).addr = some (f a) := hp (a, n) (List.mem_cons_self ..)
    have hm : memNow s (mkReq who .read a n []) = scrRequest s (mkReq who .read a n []) (f a) := by simp [memNow, ho]
    by_cases hc : (scrRequest s (mkReq who .read a n []) (f a)).1 = 0
    · obtain ⟨e1, e2, e3⟩ := scrRequest_read s (mkReq who .read a n []) (f a) rfl rfl hs hc
      have hstep : readPieces who ((a, n) :: t) acc s = readPieces who t (acc ++ scrBytes s (f a) n)
          (scrRequest s (mkReq who .read a n []) (f a)).2.2 := by
        rw [readPieces, hm]; simp only [hc, ne_eq, not_true_eq_false, if_false]; rw [e1]; rfl
      rw [hstep] at h ⊢
      obtain ⟨i1, i2, i3⟩ := ih _ _ e3 (fun q hq => hp q (List.mem_cons_of_mem _ hq)) h
      refine ⟨?_, by rw [i2, e2], i3⟩
      rw [i1, List.flatMap_cons, List.append_assoc]
      simp only [scrBytes, scrByte, e2]
    · exfalso; rw [readPieces, hm] at h; simp only [ne_eq, hc, not_false_eq_true, if_true] at h

theorem scrOff_space (a : Nat) (h : 2 ^ 40 ≤ a) (h' : a < 2 ^ 40 + 2 ^ 33) :
    scrOff (BitVec.ofNat 48 a) = some (a - 2 ^ 40) := by
  have e : (BitVec.ofNat 48 a).toNat = a := by rw [BitVec.toNat_ofNat]; omega
  rw [scrOff, e, if_pos]
  refine ⟨?_, by omega⟩
  simp only [space, e]
  omega

theorem scrBytes_append (s : State) (o m n : Nat) : scrBytes s o (m + n) = scrBytes s o m ++ scrBytes s (o + m) n := by
  simp only [scrBytes, List.range_add, List.map_append, List.map_map, Function.comp_def, Nat.add_assoc]

/-- The pieces of a range are in it and their bytes, in order, are its bytes. -/
theorem pieces_scr (s : State) (f a n : Nat) (ha : 2 ^ 40 ≤ a) (hf : n = 0 ∨ n + a % 64 ≤ 64 * f) :
    (∀ p ∈ pieces f a n, a ≤ p.1 ∧ p.1 < a + n) ∧
      (pieces f a n).flatMap (fun p => scrBytes s (p.1 - 2 ^ 40) p.2) = scrBytes s (a - 2 ^ 40) n := by
  induction f generalizing a n with
  | zero =>
    have : n = 0 := by omega
    subst this; simp [pieces, scrBytes]
  | succ f ih =>
    cases n with
    | zero => simp [pieces, scrBytes]
    | succ n =>
      have hm : min (n + 1) (64 - a % 64) ≤ n + 1 := Nat.min_le_left _ _
      have hp : 0 < min (n + 1) (64 - a % 64) := by omega
      obtain ⟨i1, i2⟩ := ih (a + min (n + 1) (64 - a % 64)) (n + 1 - min (n + 1) (64 - a % 64)) (by omega) (by
        rcases Nat.le_total (n + 1) (64 - a % 64) with h | h
        · exact .inl (by rw [Nat.min_eq_left h, Nat.sub_self])
        · right; rw [Nat.min_eq_right h]; omega)
      rw [pieces.eq_3 _ _ _ (by omega)]
      generalize min (n + 1) (64 - a % 64) = m at *
      constructor
      · intro p hq
        rcases List.mem_cons.1 hq with rfl | hq
        · exact ⟨Nat.le_refl _, Nat.lt_add_of_pos_right (Nat.succ_pos _)⟩
        · have := i1 p hq; omega
      · rw [List.flatMap_cons, i2]
        simp only
        rw [show a + m - 2 ^ 40 = a - 2 ^ 40 + m by omega, ← scrBytes_append, Nat.add_sub_cancel' hm]

/-- A range of scratch without check-bit errors that reads without an error response reads the bytes stored. -/
theorem memRead_scr (s : State) (who : Init) (a n : Nat) (hs : s.scrChk = []) (ha : 2 ^ 40 ≤ a) (hn : a + n ≤ 2 ^ 40 + 2 ^ 33)
    (h : (memRead s who a n).rsn = 0) :
    (memRead s who a n).data = scrBytes s (a - 2 ^ 40) n ∧ (memRead s who a n).st.scr = s.scr ∧
      (memRead s who a n).st.scrChk = [] := by
  obtain ⟨p1, p2⟩ := pieces_scr s (n / 64 + 2) a n ha (.inr (by omega))
  have r := readPieces_scr who (blocksOf a n) [] s (fun a => a - 2 ^ 40) hs
    (fun p hp => scrOff_space p.1 (Nat.le_trans ha (p1 p hp).1) (by have := (p1 p hp).2; omega)) h
  refine ⟨?_, r.2⟩
  rw [← p2]; exact r.1

theorem memWf_reset : Memory.wf State.reset.scr ∧ Memory.wf State.reset.scrChk ∧ Memory.wf State.reset.dram ∧
    Memory.wf State.reset.bootMem := by decide

end Sys2Proof.Machine
end

