-- ==== Sys2Proof/Tests/Slice0.lean ====
section
/-! SUPPORT. Tests: ill-formed operands are refused, and for every statement with hypotheses a state and operands that meet
    them. -/

open Sys2Proof Sys2Proof.Machine Sys2Proof.Says

namespace Sys2Proof.Tests

set_option Elab.async false

/-- The module in READY with every domain on. -/
def up : State :=
  { State.reset with
    power := { power0 with mst := .ready, on := BitVec.allOnes 95 }, pins := { pins0 with mrstLow := false } }

/-- The module in BOOT or INIT, domains off. -/
def inMst (m : MState) : State := { up with power := { up.power with mst := m } }

/-- With a register written. -/
def wreg (k v : Nat) (s : State) : State := setReg s k (w32 v)

/-- The operator. -/
def op : Init := coreInit

/-- A processor of tile 0 that runs. -/
def cpuOn (f : Proc → Proc) : State := setCpu up (.tile 0) (f { proc0 with live := true })

/-- Core 0 that runs. -/
def coreOn (f : Proc → Proc) : State := setCpu up (.core 0) (f { proc0 with live := true })


/-- A bank group in service. -/
def bankOn (s : State) : State := setBlkSt s (.bank 0 0) { run := .going, epoch := 0, used := false }

/-- What a command leaves. -/
def after (i : Instr) (s : State) : State := match exec i s with | .next t => t | _ => s

/-! ### Operands (WellFormed): each check refuses an operand list that breaks it, and takes one that does not -/

def frame (n : Nat) : Frame := ⟨List.replicate n 0, 0, List.replicate n 0⟩
def lframe (n m : Nat) : LFrame := ⟨List.replicate n 0, List.replicate m 0, 0⟩
def rq (kind : Kind) (a len : Nat) (d : List Byte) : Req := mkReq op kind a len d

theorem test_wellFormed_blocks :
    wellFormed (.blkctlRun (.probe 4 0) op) = false ∧ wellFormed (.blkctlStop (.ptab 9) op) = false ∧
    wellFormed (.lrpop op 4 0) = false ∧ wellFormed (.prclr op 3 15 0) = true ∧ wellFormed (.prclr op 8 4 0) = false ∧
    wellFormed (.blkctlRun (.probe 103 1) op) = true := by decide +kernel

theorem test_wellFormed_data :
    wellFormed (.scratchWrite (rq .write 0 2 [0])) = false ∧ wellFormed (.scratchWrite (rq .read 0 2 [])) = false ∧
    wellFormed (.scratchRead (rq .read 0 2 [0])) = false ∧ wellFormed (.scratchAccumulate (rq .accum 0 4 [0, 0, 0])) = false ∧
    wellFormed (.dramAccessRequest (rq .write 0 1 [])) = false ∧ wellFormed (.windowRequest (rq .read 0 1 [0])) = false ∧
    wellFormed (.scratchWrite (rq .write 0 2 [0, 1])) = true ∧
    wellFormed (.fabricInitiatorRequest 0 .write 0 4 [0] none false false 0) = false ∧
    wellFormed (.hostWrite ⟨0, 0⟩ 0 0 []) = false ∧ wellFormed (.hostRead ⟨0, 0⟩ 0 0 0 0) = false := by decide +kernel

theorem test_wellFormed_frames :
    wellFormed (.trainingComplete 0 0 []) = false ∧ wellFormed (.frames [frame 127]) = false ∧
    wellFormed (.frames [frame 128]) = true ∧ wellFormed (.writeBack (.core 0) 0 [0]) = false ∧
    wellFormed (.fillSet 0 [0]) = false ∧ wellFormed (.ts 0 (List.replicate 16 [0]) 0) = false ∧
    wellFormed (.messageFrame 0 (lframe 16 15)) = false ∧ wellFormed (.messageFrame 0 (lframe 15 16)) = false ∧
    wellFormed (.messageFrame 0 (lframe 16 16)) = true ∧ wellFormed (.tempSample [0]) = false ∧
    wellFormed (.copyDescriptor ⟨0, 0⟩ [0] [] none) = false := by decide +kernel

/-! ### The block as a whole -/

theorem witness_IdleStepTicksTheTimebase : State.reset.pending = [] ∧ State.reset.clock.counting = true ∧
    logicRuns State.reset 0 = false ∧
    (let s := updRegion up 0 (fun g => { g with started := true, setReset := false }); s.pending = [] ∧ logicRuns s 0 = true) := by
  decide +kernel

theorem witness_StepTakesOneCommandInOrder :
    step { up with pending := [.shapeApply 0, .refresh 0 0] } = .next (after (.shapeApply 0) { up with pending := [.refresh 0 0] }) := rfl

theorem witness_FusesStayAsBlown :
    FuseInv fpr0 [] 0 0 State.reset ∧ step State.reset = .next (tick State.reset) := ⟨⟨rfl, rfl, by decide, by decide⟩, rfl⟩

theorem witness_OnlyKeyAccessesChangeFuses :
    exec (.keyRevoke op 0x12) up = .next (after (.keyRevoke op 0x12) up) ∧
    (after (.keyRevoke op 0x12) up).fuses ≠ up.fuses := ⟨rfl, by decide +kernel⟩

theorem witness_OnlySuppliesChangeTheTimebase :
    exec .p48Loss up = .next (after .p48Loss up) ∧ (after .p48Loss up).clock ≠ up.clock := ⟨rfl, by decide +kernel⟩

/-! ### The Jirun processor -/

/-- A sequencer that runs, with registers a1 to a4 of its window, and a core. -/
def regs4 (v : List Nat) (s : State) (q : Cpu) : State :=
  setCpu s q ((v.zipIdx).foldl (fun p (x, i) => setRg q p (BitVec.ofNat 5 (i + 1)) x) (cpu s q))

theorem witness_RegistersReadBack :
    (23 : RegF).toNat < 24 ∧ (0 : RegF).toNat < 24 ∧ 7 ≠ winOf { proc0 with curwin := 6 } ∧ 15 < 16 := by decide +kernel

theorem witness_AluCompareAndImmediates :
    runs (cpuOn id) (.tile 0) = true ∧ runs (coreOn id) (.core 0) = true ∧ (23 : RegF).toNat < 24 ∧
    (15 : BitVec 11).toNat < 16 ∧ (5 : BitVec 4).toNat < 6 ∧
    (0 < 3 ∧ (31 : BitVec 16).toNat / xlen (.tile 0) = 0) ∧ (95 : BitVec 16).toNat / xlen (.tile 0) = 2 ∧
    (191 : BitVec 16).toNat / xlen (.core 0) = 2 := by decide +kernel

theorem witness_PredicatesParametersControlRegisters :
    runs (cpuOn id) (.tile 0) = true ∧ (1 : BitVec 16).toNat < 2 ∧ isTile (.tile 0) = true ∧
    crVal (cpuOn id) (.tile 0) (0 : BitVec 16).toNat = some (seqStat (cpu (cpuOn id) (.tile 0))) := by decide +kernel

theorem witness_LoadsAndStores :
    (let s := regs4 [0xFFFC] (cpuOn id) (.tile 0)
     runs s (.tile 0) = true ∧ dmAddr (.tile 0) (cpu s (.tile 0)) 1 0 = 0xFFFC ∧ 0xFFFC < 0x10000 ∧ 0xFFFC % 4 = 0) ∧
    (let s := regs4 [0x3FFFFF8] (coreOn id) (.core 0)
     runs s (.core 0) = true ∧ dmAddr (.core 0) (cpu s (.core 0)) 1 0 = 0x3FFFFF8 ∧ 0x3FFFFF8 < 0x4000000 ∧
     0x3FFFFF8 % 8 = 0 ∧ 0x3FFFFF8 % 4 = 0 ∧ 0x3FFFFF8 % 1 = 0) := by decide +kernel

theorem witness_LoadsAndStoresTrap :
    (∀ a ∈ [0x201, 0x10000, 0xFFFC], let s := regs4 [a] (cpuOn id) (.tile 0)
      runs s (.tile 0) = true ∧ (cpu s (.tile 0)).intrap = false ∧ dmAddr (.tile 0) (cpu s (.tile 0)) 1 0 = a) ∧
    (∀ a ∈ [0x204, 0x4000000, 0x3FFFFFC], let s := regs4 [a] (coreOn id) (.core 0)
      runs s (.core 0) = true ∧ (cpu s (.core 0)).intrap = false ∧ dmAddr (.core 0) (cpu s (.core 0)) 1 0 = a) ∧
    0x201 % 4 ≠ 0 ∧ 0x204 % 8 ≠ 0 ∧ 0x4000000 % 8 = 0 ∧ dmTop (.tile 0) ≤ 0x10000 ∧ 0xFFFC < dmTop (.tile 0) ∧
    dmTop (.core 0) ≤ 0x4000000 ∧ 0x3FFFFFC < dmTop (.core 0) ∧ isTile (.core 0) = false := by decide +kernel

/-- A response that has arrived at a processor which waits for it. -/
def answered (rsn : BitVec 8) (w : Wait) : State :=
  let s := setCpu up (.tile 0) { proc0 with live := true, wait := w }
  respHere s (.cpu (.tile 0)) (mkReq (tileInit s 0) .read (2 ^ 40) 4 []) rsn [1, 2, 3, 4]

theorem witness_ModuleAccessesOfProcessors :
    (let s := regs4 [0, 0x100] (cpuOn id) (.tile 0)
     xNames s (.tile 0) 1 2 0 0x10000000000 4 ∧ mapped s (mkReq (cpuInit s (.tile 0)) .read 0x10000000000 4 []) = true ∧
     mapped s (mkReq (cpuInit s (.tile 0)) .write 0x10000000000 4 (leBytes 4 (rg (.tile 0) (cpu s (.tile 0)) 1))) = true) ∧
    (let s := regs4 [0x8] (coreOn id) (.core 0)
     xNames s (.core 0) 1 0 1 8 8 ∧ mapped s (mkReq (cpuInit s (.core 0)) .read 8 8 []) = true) ∧
    (let s := regs4 [2, 0xFFFC, 0xFFFF] (cpuOn id) (.tile 0)
     xNames s (.tile 0) 1 3 0 0xFFFF00000002 4 ∧ 0xFFFF00000002 % 4 ≠ 0 ∧ (cpu s (.tile 0)).intrap = false ∧
     xNames s (.tile 0) 2 3 0 0xFFFF0000FFFC 4 ∧ mapped s (mkReq (cpuInit s (.tile 0)) .read 0xFFFF0000FFFC 4 []) = false ∧
     mapped s (mkReq (cpuInit s (.tile 0)) .write 0xFFFF0000FFFC 4 (leBytes 4 (rg (.tile 0) (cpu s (.tile 0)) 1))) = false) ∧
    (∀ r ∈ [0, 3], (takeResp (answered (BitVec.ofNat 8 r) (.load 1 0 false)) (.cpu (.tile 0))).map (·.1) =
      some (BitVec.ofNat 8 r, [1, 2, 3, 4])) ∧
    (∀ r ∈ [0, 7], (takeResp (answered (BitVec.ofNat 8 r) (.store 0)) (.cpu (.tile 0))).map (·.1) =
      some (BitVec.ofNat 8 r, [1, 2, 3, 4])) ∧
    live (answered 0 (.store 0)) (.seq 0) = true ∧ (answered 0 (.store 0)).power.inReset = [] ∧
    (cpu (answered 0 (.store 0)) (.tile 0)).intrap = false := by simp only [xNames]; decide +kernel

theorem witness_BranchesTrapsAndHalt :
    runs (cpuOn id) (.tile 0) = true ∧ (255 : BitVec 16).toNat < 256 ∧ (cpu (cpuOn id) (.tile 0)).intrap = false ∧
    (let s := cpuOn (fun p => { p with intrap := true })
     runs s (.tile 0) = true ∧ (cpu s (.tile 0)).intrap = true) := by decide +kernel

theorem witness_CallsAndReturnsRotateWindows :
    (∀ r ∈ [1, 6, 7], ∀ n ∈ [0, 1], let s := cpuOn (fun p => { p with res := r, spilled := n })
      runs s (.tile 0) = true ∧ (cpu s (.tile 0)).intrap = false ∧ (cpu s (.tile 0)).res = r ∧ (cpu s (.tile 0)).spilled = n) ∧
    (let s := cpuOn (fun p => { p with res := 2, intrap := true })
     runs s (.tile 0) = true ∧ (cpu s (.tile 0)).intrap = true ∧ (cpu s (.tile 0)).res ≠ 1) ∧ (23 : RegF).toNat < 24 := by
  decide +kernel

theorem witness_SpillAndFillMoveWindows :
    (let s := cpuOn (fun p => { p with intrap := true, res := 6, spilled := 1, spillptr := 64, spilllim := 0 })
     let p := cpu s (.tile 0)
     runs s (.tile 0) = true ∧ p.intrap = true ∧ p.res ≠ 1 ∧ p.spilllim.toNat + winBytes (.tile 0) ≤ p.spillptr.toNat ∧
     p.spilled ≠ 0 ∧ p.res ≠ 7) := by decide +kernel

theorem witness_EventsWaitsAndTimers :
    (let s := cpuOn (fun p => { p with sevlatch := 1, sevena := 1 })
     runs s (.tile 0) = true ∧ (cpu s (.tile 0)).sevlatch &&& (cpu s (.tile 0)).sevena ≠ 0) ∧
    (runs (cpuOn id) (.tile 0) = true ∧ (cpu (cpuOn id) (.tile 0)).sevlatch &&& (cpu (cpuOn id) (.tile 0)).sevena = 0) ∧
    (let s := cpuOn (fun p => { p with sevlatch := 1, sevena := 1, wait := .wfe })
     (cpu s (.tile 0)).wait = .wfe ∧ (cpu s (.tile 0)).sevlatch &&& (cpu s (.tile 0)).sevena ≠ 0 ∧ issues s (.seq 0) = true) ∧
    (let s := coreOn (fun p => { p with armed := true })
     (cpu s (.core 0)).armed = true ∧
     (cpu s (.core 0)).tcmplo.toNat + (cpu s (.core 0)).tcmphi.toNat * 2 ^ 32 ≤ s.clock.now.toNat) := by decide +kernel

theorem witness_IllegalFormsTrap :
    (runs (cpuOn id) (.tile 0) = true ∧ (cpu (cpuOn id) (.tile 0)).intrap = false) ∧
    (runs (coreOn id) (.core 0) = true ∧ (cpu (coreOn id) (.core 0)).intrap = false) ∧
    24 ≤ (24 : RegF).toNat ∧ 16 ≤ (16 : BitVec 11).toNat ∧ 3 ≤ (96 : BitVec 16).toNat / xlen (.tile 0) ∧
    6 ≤ (6 : BitVec 4).toNat ∧ 4096 < (1 : BitVec 12).toNat + (4096 : BitVec 13).toNat ∧
    crVal (cpuOn id) (.tile 0) 0xFFFF = none ∧
    (let s := cpuOn (fun p => { p with recording := true })
     runs s (.tile 0) = true ∧ (cpu s (.tile 0)).recording = true) := by decide +kernel

theorem witness_TrapInTheTrapWindowIsADoubleFault :
    (let s := cpuOn (fun p => { p with intrap := true, res := 1, spilled := 0 })
     runs s (.tile 0) = true ∧ (cpu s (.tile 0)).intrap = true ∧ (cpu s (.tile 0)).res = 1 ∧ (cpu s (.tile 0)).spilled = 0) ∧
    (let s := cpuOn (fun p => { p with intrap := true, res := 2, spilled := 1, spillptr := 0x40, spilllim := 0x40 })
     let p := cpu s (.tile 0)
     runs s (.tile 0) = true ∧ p.intrap = true ∧ p.spillptr.toNat < p.spilllim.toNat + winBytes (.tile 0) ∧
     p.spilled ≠ 0 ∧ p.res ≠ 7) ∧
    (let s := cpuOn (fun p => { p with intrap := true, res := 7, spilled := 1 })
     runs s (.tile 0) = true ∧ (cpu s (.tile 0)).intrap = true ∧ (cpu s (.tile 0)).res = 7 ∧ (cpu s (.tile 0)).spilled ≠ 0) ∧
    (255 : BitVec 16).toNat < 256 ∧ (23 : RegF).toNat < 24 := by
  decide +kernel

/-! ### Issue, record, fetch, dispatch -/

def cmd0 : Cmd := { hdr := 0, w1 := 0, w2 := 0, w3 := 0, w4 := 0, w5 := 0, w6 := 0, w7 := 0, src := 0 }

/-- A command head that names nothing reserved, as a check. -/
def headOk (c : Cmd) : Bool :=
  bits c.hdr 8 6 != 5 && bits c.hdr 8 6 != 6 && c.hdr &&& 0x80800000 == 0 &&
  (List.range 8).all (fun i => !(c.hdr.getLsbD (23 + i)) || bits (c.word i) 7 6 == 0)

theorem goodHead (c : Cmd) (h : headOk c = true) : GoodHead c := by
  simp only [headOk, Bool.and_eq_true, bne_iff_ne, beq_iff_eq, List.all_eq_true, List.mem_range, Bool.or_eq_true,
    Bool.not_eq_true'] at h
  exact ⟨h.1.1.1, h.1.1.2, h.1.2, fun i _ hi hr => (h.2 i (by omega)).resolve_left (by simp [hr])⟩

theorem passes (p : Proc) (c : Cmd) : Passes p c ↔ qv p (BitVec.ofNat 6 (bits c.hdr 14 9)) ≠ c.hdr.getLsbD 15 := Iff.rfl

/-- Instruction memory with a word at an address. -/
def im4 (a w : Nat) : Tab Byte := putBytes [] a (leBytes 4 w)

theorem witness_IssuePutsCommandsIntoTheFifo :
    (let s := cpuOn id
     let p := cpu s (.tile 0)
     runs s (.tile 0) = true ∧ rg (.tile 0) p 0 = 32 * (0 : BitVec 12).toNat ∧ p.recording = false ∧ p.fifo.length < 64 ∧
     Passes p (imCmd p 0) ∧ GoodHead (imCmd p 0)) ∧
    (let s := cpuOn (fun p => { p with im := im4 0 0x8000 })
     let p := cpu s (.tile 0)
     runs s (.tile 0) = true ∧ ¬ Passes p (imCmd p 0)) ∧
    (let s := cpuOn (fun p => { p with fifo := List.replicate 64 ⟨cmd0, 0, 0⟩ })
     runs s (.tile 0) = true ∧ 64 ≤ (cpu s (.tile 0)).fifo.length) :=
  ⟨⟨by decide +kernel, by decide +kernel, by decide +kernel, by decide +kernel, (passes _ _).2 (by decide +kernel),
    goodHead _ (by decide +kernel)⟩,
   ⟨by decide +kernel, fun h => (by decide +kernel : ¬ _) ((passes _ _).1 h)⟩, by decide +kernel⟩

theorem witness_IssueRecordsSkipsAndFails :
    (∀ n ∈ [0, 4095, 4096], ∀ b ∈ [true, false],
      let s := cpuOn (fun p => { p with recording := true, recNext := n, recRun := b })
      let p := cpu s (.tile 0)
      runs s (.tile 0) = true ∧ p.recording = true ∧ p.recNext = n ∧ p.recRun = b ∧ p.intrap = false ∧ p.fifo.length < 64) ∧
    (∀ n ∈ [31, 32], let s := cpuOn (fun p => { p with im := im4 0 0x140, skips := List.replicate n ⟨0, 0, 0⟩ })
      runs s (.tile 0) = true ∧ (cpu s (.tile 0)).skips.length = n ∧ (cpu s (.tile 0)).fifo.length < 64) ∧
    (let p := cpu (cpuOn (fun p => { p with im := im4 0 0x140 })) (.tile 0)
     Passes p (imCmd p 0) ∧ ¬ GoodHead (imCmd p 0)) ∧
    (let p := cpu (cpuOn id) (.tile 0)
     p.recording = false ∧ Passes p (imCmd p 0) ∧ GoodHead (imCmd p 0)) :=
  ⟨by decide +kernel, by decide +kernel,
   ⟨(passes _ _).2 (by decide +kernel), fun h => (by decide +kernel : ¬ _) h.1⟩,
   by decide +kernel, (passes _ _).2 (by decide +kernel), goodHead _ (by decide +kernel)⟩

/-- A sequencer that replays entry 3. -/
def replaying (e : Nat) : State := cpuOn (fun p => { p with replay := some (3, e) })

theorem witness_RecordingAndReplay :
    (runs (cpuOn id) (.tile 0) = true ∧ (cpu (cpuOn id) (.tile 0)).recording = false ∧ (1 : BitVec 13).toNat < 2 ∧
     (4095 : BitVec 12).toNat + (1 : BitVec 13).toNat ≤ 4096) ∧
    (let s := cpuOn (fun p => { p with recording := true })
     runs s (.tile 0) = true ∧ (cpu s (.tile 0)).recording = true) ∧
    (∀ e ∈ [4, 5],
      let p := cpu (replaying e) (.tile 0)
      p.replay = some (3, e) ∧ runs (setCpu (replaying e) (.tile 0) { p with replay := none }) (.tile 0) = true ∧
      p.fifo.length < 64) ∧
    Passes (cpu (replaying 4) (.tile 0)) (getEntry (cpu (replaying 4) (.tile 0)) 3) ∧
    GoodHead (getEntry (cpu (replaying 4) (.tile 0)) 3) :=
  ⟨by decide +kernel, by decide +kernel, by decide +kernel, (passes _ _).2 (by decide +kernel), goodHead _ (by decide +kernel)⟩

theorem witness_FetchRunsTheWord :
    (∀ w ∈ [0b000001_01001_01010_1111111111111110, 0b000000_01000_00001_10111_00000000001,
        0b010000_100001_00010_00011_0100_000000, 0b011000_000101_1_1111111111111111111,
        0b100111_000000000011_0_1000000000000, 0xFC000000],
      let s := cpuOn (fun p => { p with pc := 0x1FFFC, im := im4 0x1FFFC w })
      let p := cpu s (.tile 0)
      runs s (.tile 0) = true ∧ p.pc.toNat < 0x20000 ∧ p.brkctl = false ∧ p.intrap = false ∧ imWord p p.pc.toNat = w32 w) ∧
    (let s := cpuOn (fun p => { p with pc := 0x20000 })
     runs s (.tile 0) = true ∧ 0x20000 ≤ (cpu s (.tile 0)).pc.toNat ∧ (cpu s (.tile 0)).intrap = false) ∧
    (let s := cpuOn (fun p => { p with brkctl := true })
     let p := cpu s (.tile 0)
     runs s (.tile 0) = true ∧ p.brkctl = true ∧ p.pc = p.brkaddr ∧ p.skipBrk = false ∧ p.intrap = false) ∧
    (let s := { coreOn id with
       bootMem := im4 0 0b000001_01001_01010_1111111111111110, power := { up.power with mst := .boot } }
     runs s (.core 0) = true ∧ (cpu s (.core 0)).brkctl = false ∧
     leNat (dmRead s (.core 0) 0 4).1 = 0b000001_01001_01010_1111111111111110) := by decide +kernel

/-- A sequencer whose FIFO holds a command. -/
def fifoOf (hdr : Nat) (f : Proc → Proc) : State :=
  cpuOn (fun p => f { p with fifo := [⟨{ cmd0 with hdr := w32 hdr }, 0, 0⟩] })

/-- The word that spells an instruction, and one that spells none. -/
theorem witness_EveryWordIsFetchedAndRun :
    (let s := cpuOn (fun p => { p with im := im4 0 0b001000_01001_01010_1111111111111110 })
     runs s (.tile 0) = true ∧ (cpu s (.tile 0)).pc.toNat < imTop (.tile 0) ∧ (cpu s (.tile 0)).brkctl = false ∧
     spelled (.tile 0) .corrected (.ldw (.tile 0) 9 10 0xFFFE .corrected) = some (fetchWord s (.tile 0)).1) ∧
    (let s := cpuOn (fun p => { p with im := im4 0 0xFC000000 })
     runs s (.tile 0) = true ∧ (cpu s (.tile 0)).intrap = false ∧ (fetchWord s (.tile 0)).1 = 0xFC000000) := by decide +kernel

/-- A unit of tile 0 at work on a command. -/
def atWork (x : XU) (s : State) : State := updUnit s x (fun y => { y with active := some ⟨cmd0, 0, 0, 0⟩ })

/-- The FIFO's head goes to a unit at work: opcode NOT checked wrong. -/
theorem witness_DispatchQueues :
    (∀ p ∈ [(0x41, XU.vec (.tile 0)), (0x82, .mover 0), (0xC1, .sync 0)],
      let s := atWork p.2 (fifoOf p.1 id)
      issues s (.seq 0) = true ∧ (blkSt s (.seq 0)).run = .going ∧ (cpu s (.tile 0)).zeroing = false ∧
      (cpu s (.tile 0)).fifo.all (fun f => unitRoom s 0 (bits f.cmd.hdr 8 6) && !f.cmd.hdr.getLsbD 16) = true) ∧
    (cpu (fifoOf 0xC1 id) (.tile 0)).fifo.all (fun f => (syncFails (atWork (.sync 0) (fifoOf 0xC1 id)) 0 f.cmd).isEmpty) = true ∧
    (let s := updUnit (fifoOf 0xC1 id) (.sync 0) (fun y => { y with queue := List.replicate 8 ⟨cmd0, 0, 0, 0⟩ })
     unitRoom s 0 3 = false) ∧
    (let c : Cmd := { cmd0 with hdr := 0x41, w2 := 0x100, w3 := 0x800, w4 := 0x100, w5 := 0x400, w6 := 0x100, w7 := 127 }
     let s := atWork (.vec (.tile 0)) (bankOn (cpuOn (fun p => { p with fifo := [⟨c, 0, 0⟩] })))
     unitRoom s 0 1 = true ∧ vecFails s (vecEnv s 0 (fmtdesc s 0 0)) c = [] ∧ (blkSt s (.vec 0)).epoch = 0) ∧
    (let c : Cmd := { cmd0 with hdr := 0x82, w4 := 0x100, w5 := 64 }
     movFails (atWork (.mover 0) (bankOn (cpuOn id))) 0 c = []) ∧
    (let c : Cmd := { cmd0 with hdr := 0x102 }
     strFails (updTile up 0 (fun y => { y with str := { y.str with active := some ⟨cmd0, 0, 0, 0⟩ } })) 0 c = []) := by decide +kernel

theorem witness_DispatchTakesTheHeadCommand :
    (∀ s ∈ [fifoOf 0x10000 (fun p => { p with outst := [3] }), fifoOf 0x1C1 id, fifoOf 0 (fun p => { p with fifo := [⟨cmd0, 1, 0⟩] })],
      issues s (.seq 0) = true ∧ (blkSt s (.seq 0)).run = .going ∧ (cpu s (.tile 0)).zeroing = false ∧
      (cpu s (.tile 0)).fifo.length = 1) ∧
    (let f := (cpu (fifoOf 0x10000 (fun p => { p with outst := [3] })) (.tile 0)).fifo.map (·.cmd.hdr.getLsbD 16)
     f = [true]) ∧
    (let s := fifoOf 0x1C1 id
     (cpu s (.tile 0)).fifo.map (fun f => (bits f.cmd.hdr 8 6, bits f.cmd.hdr 5 0)) = [(7, 1)]) ∧
    (let s := fifoOf 0 (fun p => { p with fifo := [⟨cmd0, 1, 0⟩] })
     (cpu s (.tile 0)).fifo.all (fun f => bits f.cmd.hdr 8 6 == 0 && (blkSt s (.row 0)).epoch != f.epoch) = true) := by
  decide +kernel

/-! ### The tile row -/

/-- Results of the row go to scratch. -/
def rowUp : State := wreg (Blk.key (.row 0) + Rg.row.RDBASEH) 0x100 up

def passCmd (w1 : Nat) : Cmd := { cmd0 with w1 := w32 w1, w3 := 0x100, w5 := 0x100 }

def pend : SegAcc := { ents := [(0, ⟨.pending, false, 0⟩)], recs := [(0, rec0)], loaded := none }

/-- Entry 0 of segment 0 pending. -/
def pendUp : State := updRow rowUp 0 (fun r => updSeg r 0 (fun g => { g with acc := pend }))

/-- A region whose ports are connected to its tiles. -/
def ported (s : State) : State := updRegion s 0 (fun g => { g with loaded := true, portsOn := true, started := true })

/-- A row with nothing in it. -/
def freshRow (s : State) : Prop :=
  issues s (.seq 0) = true ∧ rowRoom s 0 = true ∧ (rowOf s 0).queue = [] ∧ (rowOf s 0).exec = [] ∧ (rowOf s 0).fabHeld = []

theorem witness_RowCommandsAreCheckedAndTaken :
    (freshRow rowUp ∧ worst (rowFails rowUp 0 (withOp cmd0 0 1) false) = some (5, 4) ∧
      worst (rowFails rowUp 0 (withOp cmd0 0 2) false) = some (8, 1) ∧
      worst (rowFails rowUp 0 (withOp cmd0 0 3) false) = some (8, 1) ∧
      worst (rowFails rowUp 0 (withOp cmd0 0 4) false) = some (5, 4) ∧
      worst (rowFails rowUp 0 (withOp { cmd0 with w1 := 4 } 0 5) false) = some (3, 1) ∧
      (cpu rowUp (.tile 0)).skips.length < 32) ∧
    (rowFails rowUp 0 (withOp (passCmd 0x100018) 0 1) false = [] ∧ bits (passCmd 0x100018).w1 7 6 ≠ 2) ∧
    (freshRow (ported rowUp) ∧ rowFails (ported rowUp) 0 (withOp (passCmd 0x100098) 0 1) false = [] ∧
      bits (passCmd 0x100098).w1 7 6 = 2) ∧
    (let s := updRow rowUp 0 (fun r => { r with accShape := 2 })
     freshRow s ∧ rowFails s 0 (withOp (passCmd 0x8000) 0 4) false = []) ∧
    (freshRow pendUp ∧ rowFails pendUp 0 (withOp (passCmd 0x10000) 0 2) false = [] ∧ pendingIn pendUp 0 0 0 1 = 1) ∧
    (rowFails rowUp 0 (withOp (passCmd 0x1000000) 0 2) false = [] ∧ pendingIn rowUp 0 0 0 256 = 0) ∧
    (rowFails pendUp 0 (withOp { passCmd 0x10000 with w3 := 0 } 0 3) false = []) ∧
    (rowFails rowUp 0 (withOp { passCmd 0x10000 with w3 := 0 } 0 3) false = [] ∧ pendingIn rowUp 0 0 0 1 = 0) ∧
    rowFails rowUp 0 (withOp { cmd0 with w1 := 3 } 0 5) false = [] := by simp only [freshRow]; decide +kernel

/-- A row with a pass in execution and an item at a lane. -/
def rowWith (x : RowCmd) (its : List Item) (f : Row → Row) : State :=
  updRow rowUp 0 (fun r => f (updSeg { r with exec := [x] } x.seg (fun g => { g with items := its })))

def passX (w1 : Nat) : RowCmd :=
  { id := 0, op := .pass, seg := 0, cmd := passCmd w1, fabric := none, seqno := 0, fmt := 0, rd := rdesc up 0 0, emits := [],
    total := 16, admitted := 16, started := true, outs := 0 }

def item (k : ItemK) (lane : Nat) : Item := { kind := k, cmd := 0, lane, tok := [], dec := [], best := 0, bestLane := 0 }

/-- The premise of the row statements. -/
theorem rowWorks (s : State) : RowWorks s 0 ↔ (issues s (.seq 0) = true ∧ tileOn s 0 = true ∧ inFault s (.row 0) = false) := Iff.rfl

theorem witness_LanesProcessItemsAndTakeWeights :
    (∀ lane ∈ [0, 511], ∀ k ∈ [ItemK.null, .token 0], let s := rowWith (passX 0x100028) [item k lane] id
      RowWorks s 0 ∧ lane < shapeL (rowOf s 0).shape ∧
      ((segOf (rowOf s 0) 0).items.find? (fun x => x.lane == lane)) = some (item k lane) ∧
      (segOf (rowOf s 0) 0).items.all (fun x => x.lane != lane + 1) = true ∧
      ((rowOf s 0).exec.find? (fun c => c.id == 0)) = some (passX 0x100028) ∧ (passX 0x100028).cmd.w1.getLsbD 5 = true) ∧
    (let x := { passX 0x100008 with admitted := 0 }
     let s := bankOn (rowWith x [] id)
     RowWorks s 0 ∧ wantsWeights (rowOf s 0) 0 0 = some x ∧ (memRead s (tileInit s 0) (addr48 x.cmd 4 + 0) 136).rsn = 0) := by
  simp only [rowWorks]; decide +kernel

theorem witness_RowCommandsCompleteAndShapesApply :
    (let s := rowWith (passX 0x100028) [] id
     let r := rowOf s 0
     RowWorks s 0 ∧ (blkSt s (.row 0)).run = .going ∧ r.fabHeld = [] ∧ r.queue = [] ∧
     r.exec.find? (fun c => c.seg == (0 : Fin 8).val) = some (passX 0x100028) ∧
     (segOf r 0).items.all (fun x => x.kind == .null || x.cmd != 0) = true ∧ (segOf r 0).rows.all (fun b => b.cmd != 0) = true ∧
     r.awaiting.all (fun p => p.cmd != 0) = true) ∧
    (let x := { passX 3 with op := .shape }
     let s := updRow rowUp 0 (fun r => { r with queue := [x] })
     RowWorks s 0 ∧ (rowOf s 0).queue = [x] ∧ (rowOf s 0).exec = [] ∧ x.fabric = none) := by
  simp only [rowWorks]; decide +kernel

theorem witness_RampGrantsAndRates :
    (let s := rowWith { passX 0x100028 with admitted := 0 } [] id
     RowWorks s 0 ∧ (rowOf s 0).level = 0 ∧ (rowOf s 0).granted = false ∧ hasWork (rowOf s 0) = true ∧
     (rowOf s 0).grantWait = false) ∧
    (RowWorks rowUp 0 ∧ (rowOf rowUp 0).level = 0 ∧ hasWork (rowOf rowUp 0) = false) ∧
    (let s := updRow rowUp 0 (fun r => { r with level := 1 })
     let r := rowOf s 0
     RowWorks s 0 ∧ r.level ≠ 0 ∧ r.credit + r.level < 8 ∧ r.steps + 1 ≠ rampN s 0 / 8 ∧ r.queue = [] ∧ r.fabHeld = []) ∧
    (let s := { up with power := { up.power with grantQ := [0], lastGrant := none } }
     s.power.grantQ = [(0 : Fin 64)] ∧ s.power.lastGrant = none) := by simp only [rowWorks]; decide +kernel

def beat (sb : BitVec 8) : Beat := { data := 0, sb }

theorem witness_PortsFeedsAndRowFaults :
    (let s := rowWith (passX 0x100028) [] id
     RowWorks s 0 ∧ (rowOf s 0).exec.find? (fun c => c.seg == (0 : Fin 8).val) = some (passX 0x100028)) ∧
    (let x := passX 0x100068
     let s := rowWith x [] id
     portConn s 0 = false ∧ usesPort (rowOf s 0) false = true ∧ portUser (rowOf s 0) false = some x) ∧
    (portMoves (ported rowUp) 0 = true ∧ opQueued (ported rowUp) 0 = 0 ∧ RowWorks (ported rowUp) 0 ∧ bits (beat 0x20).sb 7 5 ≠ 0) ∧
    (portConn (setRun (ported rowUp) (.region 0) .stopped) 0 = true ∧ portMoves (setRun (ported rowUp) (.region 0) .stopped) 0 = false) ∧
    (let x := { passX 0x100068 with admitted := 0 }
     let s := ported (rowWith x [] id)
     let r := rowOf s 0
     RowWorks s 0 ∧ portMoves s 0 = true ∧ opQueued s 0 = 0 ∧ bits (beat 0).sb 7 5 = 0 ∧ bits (beat 0).sb 4 2 < shapeSegs r.shape ∧
     (beat 0).sb.getLsbD 1 = false ∧ admitting r 0 = some x ∧ bits x.cmd.w1 7 6 = 1 ∧ opdec s 0 = false ∧
     (segBeats r 0).length < (x.total - x.admitted) * tokBeats false x.fmt ∧
     ((beat 0).sb.getLsbD 0 = true ↔ (segBeats r 0).length % tokBeats false x.fmt + 1 = tokBeats false x.fmt)) ∧
    (let w : PortOut := { cmd := 0, seg := 0, beats := 2, got := [], addr := 0, rd := rdesc up 0 0, sat := false, int := false, count := false }
     let s := ported (updRow rowUp 0 (fun r => { r with awaiting := [w] }))
     RowWorks s 0 ∧ portMoves s 0 = true ∧ (rowOf s 0).awaiting.find? (fun p => p.seg == 0) = some w ∧
     w.got.length / 16 + 1 ≠ w.beats ∧ (beat 0).sb.getLsbD 0 = false) ∧
    (let s := ported (wreg (Blk.key (.row 0) + Rg.row.TMODE) 1 (updRow rowUp 0 (fun r =>
       { r with queue := List.replicate 16 (passX 0), exec := [{ passX 0 with admitted := 3 }] })))
     RowWorks s 0 ∧ portMoves s 0 = true ∧ fabMaster s 0 = true ∧ 16 ≤ (rowOf s 0).queue.length ∧ opQueued s 0 = 0 ∧
     (rowOf s 0).fabHeld = [] ∧ startable (rowOf s 0) [] (rowOf s 0).queue = none) := by simp only [rowWorks]; decide +kernel

/-! ### Units of a tile and engines -/

/-- A vector command on scratch. -/
def vcmd : Cmd := { cmd0 with w2 := 0x100, w3 := 0x800, w4 := 0x100, w5 := 0x400, w6 := 0x100, w7 := 127 }

/-- As `vcmd`, with row length 64 of a GATHER. -/
def gcmd : Cmd := { vcmd with w2 := 0x10100, w7 := 0 }

/-- Scratch of tile 0 in service. -/
def scrUp : State := bankOn up

/-- As `scrUp`, with a format that VCVT takes. -/
def cvtUp : State := wreg (Blk.key (.row 0) + Rg.row.FMTDESC) 0x0A (wreg (Blk.key (.nve 0 0) + Rg.nve.NFMT) 0x0A scrUp)

/-- The premise of a vector command that is computed. -/
def vecRuns (s : State) (u : Fin 64) (c : Cmd) (n : Nat) : Bool :=
  let cmd := withOp c 1 n
  let fmt := fmtdesc s u (hFdi cmd)
  let e := vecEnv s u fmt
  let s1 := startIn s (.vec (.tile u)) u ⟨cmd, (cpu s (.tile u)).nextSeq, fmt, 0⟩
  let m := readAll e.who ((vRanges e cmd).filter (fun r => !r.wr)) [] s1
  (vecFails s e cmd).isEmpty && m.1.rsn == 0 && (writeAll e.who (vecWrites e cmd m.2) m.1.st).rsn == 0

/-- The unit is idle. -/
def idleUnit (u : Machine.Unit) : Bool := u.queue.isEmpty && u.active.isNone

theorem witness_VectorCommandsAreCheckedAndComputed :
    (issues scrUp (.seq 0) = true ∧ vecRoom scrUp 0 = true ∧ idleUnit (tile scrUp 0).vec = true ∧
     (cpu scrUp (.tile 0)).skips.length < 32) ∧
    (∀ p ∈ vecRows (.tile 0) cmd0, (worst (vecFails scrUp (vecEnv scrUp 0 0) (withOp { vcmd with w7 := 0x40000000 } 1 p.1))).isSome = true) ∧
    (∀ p ∈ vecRows (.tile 0) cmd0, vecFails cvtUp (vecEnv cvtUp 0 (fmtdesc cvtUp 0 0)) (withOp { vcmd with w7 := 0x30000000 } 1 p.1) = []) ∧
    vecRuns cvtUp 0 { vcmd with w7 := 0x30000000 } 0x01 = true ∧ vecRuns cvtUp 0 { vcmd with w7 := 0x30000000 } 0x0A = true ∧
    vecRuns cvtUp 0 { vcmd with w7 := 0x30000000 } 0x10 = true := by decide +kernel

/-- An MCOPY or MFILL within the scratch of tile 0. -/
def mcmd (mode len : Nat) (w7 : W32) : Cmd :=
  { cmd0 with w2 := 0x100, w3 := 0x8000, w4 := 0x100, w5 := w32 len, w6 := w32 mode, w7 := w7 }

def copyRuns (s : State) (c : Cmd) : Bool :=
  let cmd := withOp c 2 1
  let m := readRanges (tileInit s 0) (mReads cmd) [] (startIn s (.mover 0) 0 ⟨cmd, (cpu s (.tile 0)).nextSeq, 0, 0⟩)
  (movFails s 0 cmd).isEmpty && m.1.rsn == 0 &&
  (if mMode cmd ≤ 1 then (memWrite (movConflicts cmd m.1.st) (tileInit s 0) (mDst cmd) m.2.flatten).rsn == 0
   else (memWrite ((chunksF 64 (mLen cmd / 64 + 1) (mBlocks cmd)).foldl bankConflicts m.1.st) (tileInit s 0) (mDst cmd)
     ((chunksF 64 (m.2.length + 1) m.2).flatMap (transpose (2 ^ (mMode cmd - 2))))).rsn == 0)

theorem witness_DataMoverCopiesAndFills :
    (issues scrUp (.seq 0) = true ∧ movRoom scrUp 0 = true ∧ idleUnit (tile scrUp 0).mover = true ∧
     (cpu scrUp (.tile 0)).skips.length < 32) ∧
    (∀ n ∈ [1, 2], (worst (movFails scrUp 0 (withOp (mcmd 0x10 64 0) 2 n))).isSome = true) ∧
    copyRuns scrUp (mcmd 0 64 0) = true ∧ copyRuns scrUp (mcmd 1 64 0x1) = true ∧ copyRuns scrUp (mcmd 2 4096 1) = true ∧
    (movFails scrUp 0 (withOp (mcmd 0 64 5) 2 2) = [] ∧
     (memWrite scrUp (tileInit scrUp 0) (2 ^ 40 + 0x8000) (List.replicate 64 0)).rsn = 0) := by decide +kernel

def withSync (c : Cmd) (n : Nat) (s : State) : State :=
  updUnit s (.sync 0) (fun y => { y with active := some ⟨withOp c 3 n, 0, 0, 0⟩, waiting := true })

theorem witness_SyncCommandsSetAndAwaitCounters :
    (issues up (.seq 0) = true ∧ syncRoom up 0 = true ∧ idleUnit (tile up 0).sync = true ∧
     (∀ n ∈ [1, 2, 3], (worst (syncFails up 0 (withOp { cmd0 with w1 := 0x10000 } 3 n))).isSome = true ∧
        syncFails up 0 (withOp cmd0 3 n) = []) ∧
     (cmd0.w2.toNat ≤ (cntVal up 0 0).toNat) ∧ ((cntVal up 0 0).toNat < ({ cmd0 with w2 := 1 } : Cmd).w2.toNat) ∧
     (cpu up (.tile 0)).outst = [] ∧ cntCheck up (tileInit up 0) 0 = 0) ∧
    (let s := setCpu up (.tile 0) { proc0 with outst := [0], nextSeq := 1 }
     (∀ y ∈ (cpu s (.tile 0)).outst, y < (cpu s (.tile 0)).nextSeq) ∧ (cpu s (.tile 0)).outst ≠ []) ∧
    (∀ n ∈ [1, 2], let s := withSync cmd0 n up
     issues s (.seq 0) = true ∧ (tile s 0).sync.queue = [] ∧
     (tile s 0).sync.active.map (fun y => (hOpc y.cmd, y.seqno)) = some (n, 0)) := by decide +kernel

def running : UCmd := ⟨cmd0, 0, 0, 0⟩

theorem witness_UnitsCompleteAndFail :
    (∀ x ∈ [XU.vec (.tile 0), .mover 0, .sync 0], let s := updUnit up x (fun y => { y with active := some running })
      issues s (.seq 0) = true) ∧
    (tile (updUnit up (.vec (.tile 0)) (fun y => { y with active := some running })) 0).vec.active = some running ∧
    (tile (updUnit up (.mover 0) (fun y => { y with active := some running })) 0).mover.active = some running ∧
    (tile (updUnit up (.sync 0) (fun y => { y with active := some running })) 0).sync.active = some running ∧
    (1 : BitVec 8) ≠ 0 ∧
    (let c : Cmd := { cmd0 with w2 := 0x100, w4 := 0x100, w6 := 0x1000100 }
     vCount c = true ∧ cntCheck up (tileInit up 0) (countTile 0 (mDst c)) = 0 ∧
     cntCheck up (tileInit up 0) (vCountTile (vecEnv up 0 0) c) = 0 ∧ cntCheck up (engInit up 0 0) (vCtile c) = 0) ∧
    (let s := updEng up 0 0 (fun y => { y with active := some running })
     issues s (.nve 0 0) = true ∧ isStopped s (.nve 0 0) = false ∧ (eng s 0 0).active = some running ∧ hOpc running.cmd ≠ 0x1A ∧ (eng s 0 0).queue = []) := by
  decide +kernel

theorem witness_StreamUnitStartsAndStopsContexts :
    (issues up (.seq 0) = true ∧ strRoom up 0 = true ∧ idleUnit (tile up 0).str = true ∧ (cpu up (.tile 0)).skips.length < 32 ∧
     (∀ n ∈ [1, 2], (worst (strFails up 0 (withOp { cmd0 with w1 := 0x4000 } 4 n))).isSome = true ∧
       strFails up 0 (withOp cmd0 4 n) = []) ∧
     (ctx up (strCtx cmd0).1 (strCtx cmd0).2).st = .idle) ∧
    (let k := (strCtx cmd0).1
     let x := (strCtx cmd0).2
     partFloors up k (ctxOwn up k x).toNat + bits (ctxReg up k x Rg.ctx.CTXCFG) 3 0 ≤ quotaOf up k (ctxOwn up k x).toNat) ∧
    (let s := updCtx up (strCtx cmd0).1 (strCtx cmd0).2 (fun c => { c with st := .active })
     strFails s 0 (withOp cmd0 4 2) = [] ∧ strFails s 0 (withOp cmd0 4 1) = [] ∧
     ctxRuns (ctx (updCtx s (strCtx cmd0).1 (strCtx cmd0).2 (fun c => { c with st := .paused })) (strCtx cmd0).1 (strCtx cmd0).2) = false ∧
     (ctx s (strCtx cmd0).1 (strCtx cmd0).2).st = .active) := by decide +kernel

/-- The premises of an engine's command that is computed. -/
def engRuns (s : State) (c : Cmd) (n : Nat) : Bool :=
  let fmt := reg s (Blk.key (.nve 0 0) + Rg.nve.NFMT + 4 * hFdi c)
  let v := engEnv s 0 0 fmt
  let cmd : Cmd := { withOp c 1 n with src := w32 0 }
  let m := readAll v.who ((vRanges v cmd).filter (fun r => !r.wr)) [] s
  (engFails s 0 0 fmt cmd).isEmpty && m.1.rsn == 0 && (writeAll v.who (vecWrites v cmd m.2) m.1.st).rsn == 0

theorem witness_EngineCommandsAreCheckedAndComputed :
    (issues scrUp (.nve 0 0) = true ∧ isGoing scrUp (.nve 0 0) = true ∧ (eng scrUp 0 0).queue = [] ∧
     (eng scrUp 0 0).active = none ∧ bits (reg scrUp (Blk.key (.nve 0 0) + Rg.nve.NETAIL)) 15 0 = 0) ∧
    (∀ n ∈ [0x01, 0x15, 0x18, 0x19, 0x1A, 0x1B],
      (worst (engFails scrUp 0 0 0 { withOp { vcmd with w1 := 0x40, w7 := 0x40000000 } 1 n with src := w32 0 })).isSome = true) ∧
    engRuns scrUp { vcmd with w7 := 0x30000000 } 0x01 = true ∧
    engRuns scrUp { vcmd with w7 := 0x30000000 } 0x18 = true ∧
    (let v := engEnv scrUp 0 0 0
     let cmd : Cmd := { withOp gcmd 1 0x19 with src := w32 0 }
     let m := readAll v.who [⟨vB gcmd, 4 * vN gcmd, 3, false⟩] [] scrUp
     let g := gatherRows m.1.st v cmd ((wordsLE (m.2.headD [])).take (vN gcmd)) []
     engFails scrUp 0 0 0 cmd = [] ∧ m.1.rsn = 0 ∧ g.2.2 = none ∧
     (memWrite g.1 v.who (vD gcmd) g.2.1).rsn = 0) ∧
    (∀ n ∈ [0x1A, 0x1B], engFails scrUp 0 0 0 { withOp cmd0 1 n with src := w32 0 } = []) ∧
    cntCheck scrUp (engInit scrUp 0 0) 0 = 0 ∧ cntRead scrUp (engInit scrUp 0 0) 0 0 = some (0, 0) ∧
    cmd0.w2 ≤ 0 ∧ (0 : W32) < ({ cmd0 with w2 := 1 } : Cmd).w2 ∧
    (let s := updEng scrUp 0 0 (fun y => { y with active := some ⟨withOp cmd0 1 0x1A, 0, 0, 0⟩, waiting := true })
     (eng s 0 0).active.map (fun y => hOpc y.cmd) = some 0x1A ∧ (eng s 0 0).pollAt.toNat ≤ now s) := by decide +kernel

/-- An engine whose ring of two commands lies in scratch, with one to fetch. -/
def ringUp : State :=
  let k := Blk.key (.nve 0 0)
  wreg (k + Rg.nve.NERBASEH) 0x100 (wreg (k + Rg.nve.NERSIZE) 1 (wreg (k + Rg.nve.NEHEAD) 1 scrUp))

theorem witness_RingFetchQueuesTheNextCommand :
    (issues ringUp (.nve 0 0) = true ∧ isGoing ringUp (.nve 0 0) = true ∧ ringWaits ringUp 0 0 = true ∧
     (eng ringUp 0 0).queue.length < 8) ∧
    (let s := wreg (Blk.key (.nve 0 0) + Rg.nve.NEEPOCH) 1 ringUp
     ringWaits s 0 0 = true ∧ ringHeld s 0 0 = true ∧ (eng s 0 0).epSince = none) ∧
    (let s := updEng { ringUp with scr := putBytes [] 0 (leBytes 4 0x5A ++ List.replicate 28 0) } 0 0 (fun y => { y with active := some running })
     let m := memRead (updEng s 0 0 (fun y => { y with epSince := none })) (engInit s 0 0) (2 ^ 40) 32
     let c : Cmd := { Cmd.ofWords (wordsLE m.data) 0 with src := w32 0 }
     ringWaits s 0 0 = true ∧ ringHeld s 0 0 = false ∧ m.rsn = 0 ∧ (eng s 0 0).active.isSome = true ∧
     engFails m.st 0 0 (reg m.st (Blk.key (.nve 0 0) + Rg.nve.NFMT)) c = []) := by decide +kernel

/-! ### Registers and block control -/

/-- A user of partition 1. -/
def user : Init := { coreInit with part := 1, op := false }

/-- The premise `Reaches`, as a check. -/
def reaches (who : Init) (b : Blk) (page off : Nat) (s : State) : Bool :=
  regCheck s who b page off true == some 0 && !absent s b

theorem reaches_iff (who : Init) (b : Blk) (page off : Nat) (s : State) : reaches who b page off s = true ↔ Reaches who b page off s := by
  simp [reaches, Reaches]

/-- Tile 0 bad. -/
def badTile : State := { up with fuses := { up.fuses with fpr := { fpr0 with tileGood := BitVec.ofNat 64 (2 ^ 64 - 2) } } }

theorem witness_RegisterAccessesAreChecked :
    ((Blk.row 0).wf = true ∧ 0 < (Blk.row 0).npages ∧ Rg.hdr.EVENA < 0x1000 ∧ Rg.hdr.EVENA % 4 = 0) ∧
    regMay up user (.row 0) 0 Rg.hdr.EVENA true = false ∧
    (regMay badTile op (.row 0) 0 Rg.hdr.EVENA true = true ∧ absent badTile (.row 0) = true) ∧
    reaches op (.row 0) 0 Rg.hdr.EVENA up = true ∧
    (regCheck up op (.row 0) 3 0x90 false = some 0 ∧ live up (.row 0) = true ∧
     (regAt (.row 0) 3 0x90).map (fun p => p.1.ty) = some .rc) := by decide +kernel

/-- A block in a state. -/
def blkIn (b : Blk) (r : Run) (s : State) : State := setBlkSt s b { run := r, epoch := 0, used := false }

/-- No domain on. -/
def off : State := { up with power := { up.power with on := 0 } }

theorem witness_BlockRequestsFollowTheBlockState :
    (∀ b ∈ [Blk.row 0, .seq 0, .vec 0, .bank 0 0, .chan 0 0, .check 0 0, .region 0, .nve 0 0, .seng 0, .pcheck 0, .pvm 0, .port 0],
      b.wf = true ∧ reaches op b 0 Rg.hdr.BLKCTL up = true ∧
      (reaches op b 0 Rg.hdr.BLKCTL (blkIn b .stopped up) = true ∧ blkState (blkIn b .stopped up) b = 5)) ∧
    (reaches op (.row 0) 0 Rg.hdr.BLKCTL off = true ∧ blkState off (.row 0) = 1) ∧
    (let s := blkIn (.row 0) .fault up
     reaches op (.row 0) 0 Rg.hdr.BLKCTL s = true ∧ blkState s (.row 0) = 6) ∧
    (∀ b ∈ [Blk.row 0, .seq 0, .vec 0, .acnt 0, .nve 0 0, .chan 0 0], blkState up b = 2) ∧
    (let s := updRegion up 0 (fun g => { g with started := true })
     (blkState s (.region 0) = 2 ∨ blkState s (.region 0) = 3) ∧ (region s 0).started = true ∧ (region s 0).starting = false ∧
     reaches op (.region 0) 0 Rg.hdr.BLKCTL s = true) ∧
    (let s := blkIn (.row 0) .stopping up
     blkState s (.row 0) = 4 ∧ zeroingBlk s (.row 0) = false ∧ reaches op (.row 0) 0 Rg.hdr.BLKCTL s = true) ∧
    ((bank (blkIn (.bank 0 0) .stopped up) 0 0).sweep = false ∧ (tile (blkIn (.vec 0) .stopped up) 0).vec.queue = []) ∧
    tileDrained up 0 = true := by decide +kernel

theorem witness_EpochsOwnersAndStopsTakeHold :
    (reaches op (.row 0) 0 Rg.hdr.BLKCTL up = true ∧ tileOn up 0 = true ∧ reqEpoch up (.row 0) ≠ 1) ∧
    (∃ b, ownerFixed b = true ∧ reaches op b 0 Rg.hdr.BLKPART up = true) ∧
    (reaches op (.row 0) 0 Rg.hdr.BLKPART up = true ∧ ownerFixed (.row 0) = false ∧ ownClean up (.row 0) = true ∧
     up.power.mst = .ready) ∧
    (let s := inMst .init
     reaches op (.row 0) 0 Rg.hdr.BLKPART s = true ∧ bits (1 : W32) 3 0 ≠ 0 ∧ s.power.mst ≠ .ready) ∧
    (∀ b ∈ [Blk.vec 0, .nve 0 0, .chan 0 0, .pvm 0, .check 0 0, .pcheck 0], let s := blkIn b .stopping up
      (blkSt s b).run = .stopping ∧ blkOn s b = true) ∧
    (tile up 0).vec.active = none ∧ (eng up 0 0).active = none ∧ (chan up 0 0).queue = [] ∧
    stackIdle (blkIn (.pvm 0) .stopping up) 0 = true :=
  ⟨by decide +kernel, ⟨.ptm, by decide +kernel⟩, by decide +kernel, by decide +kernel, by decide +kernel, by decide +kernel,
   by decide +kernel, by decide +kernel, by decide +kernel⟩

theorem witness_TileRegistersAct :
    (∀ p ∈ [(Blk.row 0, 3, 0x88), (.seq 0, 0, Rg.seq.SEQDOOR), (.seq 0, 1, 0x84), (.seq 0, 2, 0x84),
        (.acnt 0, 0, Rg.acnt.ACNT + 4 * 255), (.acnt 0, 0, Rg.acnt.ACADD + 4 * 255)], reaches op p.1 p.2.1 p.2.2 up = true) ∧
    (let s := wreg (Blk.key (.seq 0) + Rg.seq.DBGCTL) 2 (blkIn (.seq 0) .stopped up)
     reaches op (.seq 0) 2 0x84 s = true ∧ dbgOpen s 0 = true ∧ regCheck s op (.seq 0) 2 0x84 false = some 0 ∧
     bits (reg s (Blk.key (.seq 0) + Rg.seq.DBGADDR)) 31 28 = 0 ∧ bits (reg s (Blk.key (.seq 0) + Rg.seq.DBGADDR)) 19 0 < 0x20000) ∧
    (∀ n ∈ [1, 2, 4], let s := wreg (Blk.key (.seq 0) + Rg.seq.DBGADDR) (n * 2 ^ 28) (blkIn (.seq 0) .stopped up)
     dbgOpen s 0 = true ∧ bits (reg s (Blk.key (.seq 0) + Rg.seq.DBGADDR)) 31 28 = n) ∧
    (dbgOpen (blkIn (.seq 0) .stopping up) 0 = false ∧ reaches op (.seq 0) 2 0x84 (blkIn (.seq 0) .stopping up) = true) ∧
    tileOn up 0 = true := by decide +kernel

theorem witness_NeheadTakesAnIndexOfTheRing :
    (let s := wreg (Blk.key (.nve 0 0) + Rg.nve.NERSIZE) 4 up
     reaches op (.nve 0 0) 0 Rg.nve.NEHEAD s = true ∧
     2 ^ bits (reg s (Blk.key (.nve 0 0) + Rg.nve.NERSIZE)) 4 0 = 16 ∧ bits (15 : W32) 15 0 < 16 ∧ 16 ≤ bits (16 : W32) 15 0) := by
  decide +kernel

/-! ### Scratch, streams, DRAM -/

theorem soundUp (s : State) (h : s.scrChk = []) (lo hi : Nat) : Sound s lo hi := by
  intro w _ _; simp only [scrSyn, h]; rfl

theorem witness_ScratchAccessesAndCounters :
    ((rq .write (2 ^ 40) 4 [0, 0, 0, 0]).wf = true ∧ scrOff (rq .write (2 ^ 40) 4 [0, 0, 0, 0]).addr = some 0 ∧
     (∀ r ∈ [rq .write (2 ^ 40) 4 [0, 0, 0, 0], rq .read (2 ^ 40 + 60) 4 [], rq .accum (2 ^ 40) 4 [0, 0, 0, 0]],
       scrCheck scrUp r 0 = 0) ∧
     scrCheck up (rq .read (2 ^ 40) 4 []) 0 ≠ 0 ∧ (reg scrUp (grpKey 0 + Rg.bank.ERRINJ)).getLsbD 17 = false) ∧
    Sound scrUp (0 / 8) ((0 + 4 + 7) / 8) ∧
    (cntCheck up op 0 = 0 ∧ cntCheck up user 0 ≠ 0 ∧ cntCheck off op 0 ≠ 0 ∧
     2 ^ 32 ≤ (cntVal (wreg (cntKey 0 0) 0xFFFFFFFF up) 0 0).toNat + (1 : W32).toNat) :=
  ⟨by decide +kernel, soundUp _ rfl _ _, by decide +kernel⟩

theorem witness_ScrubbingInjectionAndSweeps :
    (let s := flipPos (updBank up 0 0 (fun b => { b with wbs := [0] })) 0 71
     (bank s 0 0).wbs = [0] ∧ synOf (scrSyn s 0) = .at_ 71) ∧
    scrubs (wreg (Blk.key (.bank 0 0) + Rg.bank.BGCTL) 1 scrUp) 0 0 = true ∧ Sound scrUp 0 8 ∧
    (live scrUp (.bank 0 0) = true ∧ isGoing scrUp (.bank 0 0) = true) ∧
    (reaches op (.bank 0 0) 0 Rg.bank.ERRINJ up = true ∧ reaches op (.bank 0 0) 0 Rg.bank.SWEEPCTL up = true ∧
     isStopped up (.bank 0 0) = true ∧ (bank up 0 0).sweep = false ∧ isStopped scrUp (.bank 0 0) = false) ∧
    (bank (updBank up 0 0 (fun b => { b with sweep := true })) 0 0).sweep = true :=
  ⟨by decide +kernel, by decide +kernel, soundUp _ rfl _ _, by decide +kernel, by decide +kernel, by decide +kernel⟩

theorem witness_ScratchKeepsItsCanonicalForm :
    MemOk up ∧ exec (.scratchWrite (rq .write (2 ^ 40) 4 [1, 0, 0, 0])) scrUp =
      .next (after (.scratchWrite (rq .write (2 ^ 40) 4 [1, 0, 0, 0])) scrUp) := ⟨⟨by decide, by decide⟩, rfl⟩

/-- Context 0 of base die 0 in a state. -/
def ctxIn (f : Ctx → Ctx) : State := updCtx up 0 0 f

/-- The premise `CtxReached`, as a check. -/
def ctxReaches (off : Nat) (s : State) : Bool := reaches op (.seng 0) 0 (0x400 + off) s

theorem witness_ContextRequests :
    (∀ st ∈ [CtxSt.idle, .active, .pausing, .paused, .stopping, .error], let s := ctxIn (fun c => { c with st })
      ctxReaches Rg.ctx.CTXCMD s = true ∧ (ctx s 0 0).st = st) ∧
    partFloors up 0 (ctxOwn up 0 0).toNat + bits (ctxReg up 0 0 Rg.ctx.CTXCFG) 3 0 ≤ quotaOf up 0 (ctxOwn up 0 0).toNat ∧
    (let s := wreg (sengKey 0 + Rg.seng.QUOTA) 1 up
     quotaOf s 0 (ctxOwn s 0 0).toNat < partFloors s 0 (ctxOwn s 0 0).toNat + bits (ctxReg s 0 0 Rg.ctx.CTXCFG) 3 0 ∧
     ctxReaches Rg.ctx.CTXCMD s = true) ∧
    (ctxReaches Rg.ctx.CTXOWN up = true ∧ bits (1 : W32) 3 0 ≠ (ctxOwn up 0 0).toNat ∧ up.power.mst = .ready) ∧
    (ctxReaches Rg.ctx.CTXOWN (ctxIn (fun c => { c with st := .active })) = true) ∧
    (reaches op (.seng 0) 0 (Rg.seng.QUOTA + 4 * 15) up = true ∧ quotaSum up 0 + 960 ≤ 1024 + quotaOf up 0 15 ∧
     partFloors up 0 15 ≤ 960 ∧ 1024 + quotaOf up 0 15 < quotaSum up 0 + 961) := by decide +kernel

theorem witness_ContextsDrainAndEnd :
    (∀ p ∈ [(CtxSt.stopping, none), (.pausing, none), (.pausing, some 0), (.active, some 0)],
      let s := ctxIn (fun c => { c with st := p.1, bad := p.2 })
      blkOn s (.seng 0) = true ∧ s.tiles = [] ∧ drained (ctx s 0 0) = true ∧ (ctx s 0 0).st = p.1 ∧ (ctx s 0 0).bad = p.2) ∧
    (let s := ctxIn (fun c => { c with st := .active, rcur := { cursor0 with atEnd := true }, wcur := { cursor0 with atEnd := true } })
     let c := ctx s 0 0
     ctxRuns c = true ∧ c.rcur.atEnd = true ∧ c.wcur.atEnd = true ∧ drained c = true ∧ c.blks = [] ∧ c.staged = []) := by
  decide +kernel

/-- A block of 64 bytes of scratch, read (side 0) or written (side 1), with a mark (dep 1). -/
def desc (side dep : Nat) : Desc :=
  { at_ := 0, words := [0, w32 (0x100 + side * 2 ^ 16), 64, 64, 1, w32 (dep * 2 ^ 16), 0, 0] }

/-- Context 0 at work. -/
def ctxOn (f : Ctx → Ctx) : State := updCtx scrUp 0 0 (fun c => f { c with st := .active, floor := 1, fetchAt := 2 ^ 40 })

theorem witness_ListsCursorsAndMarks :
    (let s := ctxOn id
     let c := ctx s 0 0
     issues s (.seng 0) = true ∧ ctxRuns c = true ∧ c.fetchStop = false ∧
     c.fbase + c.fetched.length ≤ min (curAt c.rcur) (curAt c.wcur) + 16 ∧ (memRead s (ctxInit s 0 0) c.fetchAt.toNat 32).rsn = 0) ∧
    (let s := updCtx up 0 0 (fun c => { c with st := .active, fetchAt := 2 ^ 40 })
     issues s (.seng 0) = true ∧ ctxRuns (ctx s 0 0) = true ∧ (memRead s (ctxInit s 0 0) (2 ^ 40) 32).rsn ≠ 0) ∧
    (∀ d ∈ [desc 0 0, desc 1 0, { at_ := 0, words := [0, 0x400000] }, { at_ := 0, words := [0, 0x800000] }],
      let s := ctxOn (fun c => { c with fetched := [d] })
      let y := (ctx s 0 0).rcur
      y.atEnd = false ∧ curFree y = true ∧ ((ctx s 0 0).fetched[y.pos - (ctx s 0 0).fbase]?) = some d ∧ dBad d = false) ∧
    dBad { at_ := 0, words := [0, 0x2000000] } = true ∧
    (dEnd { at_ := 0, words := [0, 0x400000] } = true ∧ dLink { at_ := 0, words := [0, 0x800000] } = true ∧
     dSide (desc 0 0) = .read ∧ dSide (desc 1 0) = .write) ∧
    (let s := ctxOn (fun c => { c with rcur := { cursor0 with blk := some (desc 0 1) } })
     let y := (ctx s 0 0).rcur
     y.blk.isSome = true ∧ y.met = false ∧ y.polling = false ∧ y.pollAt.toNat ≤ now s) ∧
    (let s := ctxOn (fun c => { c with rcur := { cursor0 with blk := some (desc 0 1), polling := true } })
     let y := (ctx s 0 0).rcur
     s.power.inReset = [] ∧ y.polling = true ∧ y.blk = some (desc 0 1) ∧
     cntRead s (ctxInit s 0 0) (dDtile (desc 0 1)) (dDcnt (desc 0 1)) = some (0, 0) ∧ markVal y (desc 0 1) ≤ 0) ∧
    (let d : Desc := { desc 0 1 with words := [0, 0x100, 64, 64, 1, 0x10000, 1, 0] }
     (0 : W32) < markVal cursor0 d) := by decide +kernel

def acc (n : Nat) : CAcc := ⟨2 ^ 40, n, List.replicate n 0, false, false, 0, 0, none, none⟩

theorem witness_StreamsMoveData :
    (let s := ctxOn (fun c => { c with rcur := { cursor0 with blk := some (desc 0 0), met := true } })
     let c := ctx s 0 0
     issues s (.seng 0) = true ∧ ctxRuns c = true ∧ curWork c.rcur = some (desc 0 0) ∧ dEndpt (desc 0 0) = 0 ∧
     isWinAddr (readPiece s c (desc 0 0)).1 = false ∧ slotOk c (nextSlot c) = true ∧ ctxTurn s 0 0 = true ∧
     ctxTurn (wreg (Blk.key (.ptab 8) + Rg.ptab.PTMODE) 1 s) 0 0 = false) ∧
    (let s := ctxOn (fun c => { c with rin := [acc 64], win := [acc 64] })
     s.power.inReset = [] ∧ (ctx s 0 0).rin = [acc 64] ∧ (acc 64).via = none ∧ isWinAddr (acc 64).addr.toNat = false ∧
     (memNow s (mkReq (ctxInit s 0 0) .read (2 ^ 40) 64 [])).1 = 0 ∧
     (memNow s (mkReq (ctxInit s 0 0) .write (2 ^ 40) 64 (acc 64).data)).1 = 0) ∧
    ((memNow up (mkReq (ctxInit up 0 0) .read (2 ^ 40) 64 [])).1 ≠ 0) ∧
    (let s := ctxOn (fun c => { c with wcur := { cursor0 with blk := some (desc 1 0), met := true }, staged := List.replicate 64 0 })
     let c := ctx s 0 0
     ctxTurn s 0 0 = true ∧ ctxTurn (wreg (Blk.key (.ptab 8) + Rg.ptab.PTMODE) 1 s) 0 0 = false ∧
     curWork c.wcur = some (desc 1 0) ∧ dEndpt (desc 1 0) = 0 ∧ (nextPiece s (desc 1 0) 0).2 ≤ c.staged.length) ∧
    (let s := wreg (sengKey 0 + Rg.seng.BORROWMAX) 1 (updCtx scrUp 0 0 (fun c => { c with
       st := .active, rcur := { cursor0 with blk := some (desc 0 0), met := true } }))
     issues s (.seng 0) = true ∧ ctxRuns (ctx s 0 0) = true ∧ borrower s 0 = some 0) := by decide +kernel

/-! ### DRAM -/

/-- Page 0 of stack 0 valid. -/
def pageUp : State := { up with pv := [(pvKey 0 0, true)] }

def rd0 : Req := rq .read 0 64 []
def wr0 : Req := rq .write 0 64 (List.replicate 64 1)

theorem witness_DramRequestsAreCheckedAndQueued :
    (inDram (rq .read (2 ^ 40) 4 []).addr.toNat = false ∧ (rq .read (2 ^ 40) 4 []).wf = true) ∧
    (rd0.wf = true ∧ wr0.wf = true ∧ inDram rd0.addr.toNat = true ∧ dramCheck up rd0 = 0 ∧ dramCheck up wr0 = 0 ∧
     inSys rd0.addr.toNat = false ∧ dramMap up 0 = (0, 0) ∧ fillOf up 0 (locPage 0) = none ∧ pageValid up 0 0 = false ∧
     pageValid pageUp 0 0 = true ∧ dramCheck pageUp rd0 = 0 ∧ mustWait up 0 rd0 0 = none ∧ mustWait up 0 wr0 0 = none ∧
     mustWait pageUp 0 rd0 0 = none ∧ mustWait pageUp 0 wr0 0 = none) ∧
    (let s := updChan pageUp 0 0 (fun x => { x with queue := List.replicate 128 ⟨rd0, .nobody, 0, 0, false, false⟩ })
     dramCheck s rd0 = 0 ∧ mustWait s 0 rd0 0 = some false) ∧
    (let s := updStack up 0 (fun x => { x with fills := (List.range 64).map (fun i => ⟨i + 1, 0, 0⟩) })
     dramCheck s wr0 = 0 ∧ mustWait s 0 wr0 0 = some true) ∧
    dramCheck up (rq .read 2 4 []) ≠ 0 ∧ dramCheck up { rd0 with who := user } ≠ 0 := by decide +kernel

/-- Channel 0 holds a request. -/
def chanWith (r : Req) (f : Chan → Chan) : State := updChan pageUp 0 0 (fun x => f { x with queue := [⟨r, .nobody, 0, 0, false, false⟩] })

theorem witness_ChannelsPerformAndFreeze :
    (∀ r ∈ [rd0, wr0], let s := chanWith r id
      (chan s 0 0).queue = [⟨r, .nobody, 0, 0, false, false⟩] ∧ chanFault s 0 0 = false ∧ (chan s 0 0).training = false ∧ locChan 0 = 0 ∧
      partBeat 0 r.len = false ∧ slotTakes s 0 (chan s 0 0) ⟨r, .nobody, 0, 0, false, false⟩ = true) ∧
    (let s := updChan pageUp 0 0 (fun x => { x with wbs := [64] })
     (chan s 0 0).wbs = [64] ∧ (chan s 0 0).queue = [] ∧ firstBad (decBlk s 0 (eraseOf s 0 0) 64) = none ∧
     firstBad (decBlk (upsetBlk s 0 64 [⟨0, 0, 1⟩, ⟨0, 1, 1⟩]) 0 (eraseOf s 0 0) 64) ≠ none) ∧
    wr0.data.length = wr0.len ∧
    (firstBad (decAt (upsetBlk (chanWith rd0 id) 0 0 [⟨0, 0, 1⟩, ⟨0, 1, 1⟩]) 0 0)).isSome = true ∧
    (∀ b ∈ decAt (chanWith rd0 id) 0 0, b.st = 0) ∧ (stack (chanWith rd0 id) 0).waits = [] ∧
    regBit (wreg (Blk.key (.chan 0 0) + Rg.chan.CHCTL) 4 (chanWith rd0 id)) (Blk.key (.chan 0 0) + Rg.chan.CHCTL) 2 = true ∧
    regBit (chanWith rd0 id) (Blk.key (.chan 0 0) + Rg.chan.CHCTL) 2 = false ∧
    (∀ f ∈ [Frz.parity, .uncorrectable], let s := chanWith rd0 (fun x => { x with frozen := some f })
      reaches op (.chan 0 0) 0 Rg.chan.FRZCTL s = true ∧ (chan s 0 0).frozen = some f ∧
      (chan s 0 0).queue = [⟨rd0, .nobody, 0, 0, false, false⟩]) ∧
    (let s := updChan up 0 0 (fun x => { x with frozen := some .parity })
     reaches op (.chan 0 0) 0 Rg.chan.FRZCTL s = true ∧ (chan s 0 0).queue = [] ∧ (chan up 0 0).frozen = none) := by
  decide +kernel

theorem witness_PagesFillAndClear :
    (let e : FillEnt := ⟨0, BitVec.ofNat 64 (2 ^ 63 - 1), 0⟩
     let s := updStack up 0 (fun x => { x with fills := [e] })
     (stack s 0).fills = [e] ∧ (stack s 0).waits = [] ∧ fillNext e = some 63 ∧ chanOpen s 0 (63 * 64) = true ∧
     fillNext ⟨0, 0, 0⟩ = some 0 ∧ chanOpen s 0 0 = true) ∧
    (let s := wreg (Blk.key (.pvm 0) + Rg.pvm.PVCLRLEN) 0x4000000 up
     reaches op (.pvm 0) 0 Rg.pvm.PVCMD s = true ∧ (stack s 0).clearing = none ∧ (clrRange s 0).2 ≠ 0 ∧
     (clrRange s 0).1 + (clrRange s 0).2 ≤ 2 ^ 38) ∧
    (reaches op (.pvm 0) 0 Rg.pvm.PVCMD up = true ∧ (clrRange up 0).2 = 0) ∧
    (let s := updStack (wreg (winKey 0 0 + 4) 0x1 up) 0 (fun x => { x with clearing := some (0, 2 ^ 38) })
     (stack s 0).clearing = some (0, 2 ^ 38) ∧ (reg s (winKey 0 0 + 0xC)).getLsbD 4 = false) ∧
    reaches op (.pvm 0) 0 Rg.pvm.ILVCFG up = true ∧
    (let s := (List.range 8).foldl (fun s k => blkIn (.pvm (fin 8 k)) .stopped s) up
     (∀ j : Fin 8, isStopped s (.pvm j) = true) ∧ s.pv = [] ∧ 1 ≤ bits (32 : W32) 5 0 ∧ bits (32 : W32) 5 0 ≤ 32 ∧
     reaches op (.pvm 0) 0 Rg.pvm.ILVCFG s = true) := by decide +kernel

def goodEye : Eye := ⟨0, 15, 0, 15⟩

theorem witness_CoresTrainingAndScrubbing :
    (let s := { wreg (Blk.key (.pvm 0) + Rg.pvm.SCRBCTL) 1 pageUp with clock := { now := 100000000, counting := true } }
     let x := chan s 0 0
     regBit s (Blk.key (.pvm 0) + Rg.pvm.SCRBCTL) 0 = true ∧ isGoing s (.pvm 0) = true ∧ x.queue = [] ∧
     chanFault s 0 0 = false ∧ x.training = false ∧ x.scrubAt < 2 ^ 24 ∧
     x.scrubLast.toNat + bits (reg s (Blk.key (.pvm 0) + Rg.pvm.SCRBCTL)) 15 4 ≤ now s ∧ nextScrub s 0 0 x.scrubAt = some 0 ∧
     (∀ b ∈ decAt s 0 0, b.st = 0)) ∧
    (let s := { State.reset with fuses := { State.reset.fuses with fpr := { State.reset.fuses.fpr with dramFail := 0x83 } } }
     s.regs = [] ∧ coreFailed s 0 = some 3 ∧ eraseOf s 0 0 = some 3) ∧
    (dramLapLate up 0 = false ∧
     dramLapLate { up with clock := { now := 5000000001, counting := true } } 0 = true) ∧
    (reaches op (.chan 0 0) 0 Rg.chan.ERASECTL up = true ∧ bits (0x19 : W32) 3 0 ≤ 9 ∧ 9 < bits (0x1A : W32) 3 0) ∧
    (reaches op (.chan 0 0) 0 Rg.chan.TRNCTL up = true ∧ isStopped up (.chan 0 0) = false ∧
     isStopped (blkIn (.chan 0 0) .stopped up) (.chan 0 0) = true) ∧
    (let s := updChan up 0 0 (fun x => { x with training := true })
     (chan s 0 0).training = true ∧ (stack s 0).waits = [] ∧
     chanFault (updChan s 0 0 (fun x => { x with frozen := some .parity })) 0 0 = true ∧ (List.replicate 10 goodEye).length = 10 ∧ ¬ (eyeW goodEye.rl goodEye.rr < 16) ∧
     eyeW 0 0 < 16 ∧ (reg s (Blk.key (.chan 0 0) + Rg.chan.ERASECTL)).getLsbD 4 = false) := by decide +kernel

/-! ### Fabric -/

/-- Region 0 running. -/
def fabUp (f : Region → Region) : State :=
  updRegion up 0 (fun g => f { g with started := true, loaded := true, setReset := false, portsOn := true })

/-- Region 0 running with a queue at memory 0. -/
def qUp (q : Queue) : State := fabUp (fun g => { g with queues := tset queue0 g.queues 0 q })

theorem witness_QueuesWriteReadAndReset :
    (∀ q ∈ [queue0, { queue0 with items := List.replicate 512 7 }, { queue0 with items := [7], rdSeen := 1, wrSeen := 1 },
        { queue0 with async := true, items := [7], rdSeen := 1, wrSeen := 1 }],
      queueWorks (qUp q) 0 0 = true ∧ queueOf (region (qUp q) 0) 0 = q) := by decide +kernel

/-- A window access to region 0. -/
def winRq : Req := rq .read (3 * 2 ^ 40) 4 []
def winIn (given : Bool) : WinReq := ⟨0, winRq, 15, .cpu (.core 0), given, false, 0⟩

theorem witness_WindowsAndInitiatorRequests :
    (winRq.wf = true ∧ winOff winRq.addr.toNat = some (0, 0) ∧ winCheck (fabUp id) winRq 0 = 0 ∧ winCheck up winRq 0 ≠ 0 ∧
     (∀ w ∈ (region (fabUp id) 0).wins, w.given = true)) ∧
    (let s := fabUp (fun g => { g with wins := [winIn true] })
     winTag (region s 0) 0 = some (winIn true) ∧ (∀ x ∈ (region s 0).wins, x.given = true) ∧ (winIn true).expired = false ∧
     (winIn true).src ≠ .nobody ∧ clocksRun s 0 = true ∧ winCheck s winRq 0 = 0 ∧ (∀ w ∈ (region s 0).wins, w.tag ≠ 1) ∧
     (∀ m, m < 1 → ∃ w ∈ (region s 0).wins, w.tag = m)) ∧
    (let s := { fabUp (fun g => { g with wins := [winIn true] }) with clock := { now := 2000000, counting := true } }
     live s (.region 0) = true ∧ (winIn true).at_.toNat + winTo s 0 ≤ now s) ∧
    (let s := fabUp id
     wellFormed (.fabricInitiatorRequest 0 .write 0 4 [0, 0, 0, 0] none false false 0) = true ∧ clocksRun s 0 = true ∧
     issues s (.region 0) = true ∧ isGoing s (.region 0) = true ∧ (region s 0).portsOn = true ∧ (region s 0).inits.length < 64) := by
  decide +kernel

theorem witness_RegionsStartStopAndClear :
    (∀ f ∈ [fun g : Region => { g with due := true }, fun g => { g with starting := true },
        fun g => { g with starting := true, released := true }, fun g => { g with clearing := true }],
      live (updRegion up 0 f) (.region 0) = true) ∧
    (let g := region (updRegion up 0 (fun g => { g with starting := true, released := true })) 0
     g.starting = true ∧ g.released = true ∧ g.stopReq = none) ∧
    (let s := fabUp (fun g => { g with pllLock := 3 })
     live s (.region 0) = true ∧ (region s 0).pllLock.getLsbD 1 = true ∧ blkState s (.region 0) = 3) ∧
    (let s := updRegion up 0 (fun g => { g with pllLock := 3 })
     (region s 0).pllLock.getLsbD 0 = true ∧ blkState s (.region 0) = 2) ∧
    (let s := blkIn (.region 0) .stopping (fabUp (fun g => { g with wins := [{ winIn true with expired := true }] }))
     (blkSt s (.region 0)).run = .stopping ∧ (region s 0).inits = [] ∧ (∀ w ∈ (region s 0).wins, w.expired = true)) ∧
    (reaches op (.region 0) 0 Rg.region.FRCMD up = true ∧ blkState up (.region 0) = 2 ∧ inLoad up 0 = false) ∧
    (reaches op (.region 0) 0 Rg.region.FRCMD (fabUp id) = true ∧ blkState (fabUp id) (.region 0) = 3) := by decide +kernel

/-- Pin 0 of bank 0: off, without supply, driven by a probe, used by no design, used by a started one if the image says so. -/
theorem witness_PinsFollowTheirRegion :
    blkOn { up with power := { up.power with on := 0 } } (.region 0) = false ∧ blkOn up (.region 0) = true ∧
    ({ up with pins := { up.pins with vio := 0 } }).pins.vio.getLsbD 0 = false ∧ up.pins.vio.getLsbD 0 = true ∧ routes up = [] ∧
    (let s := wreg (frKey 0 + Rg.region.PRBSEL) 0x80000000 (fabUp id)
     (prbSel s 0 0).getLsbD 31 = true ∧ bits (prbPin s 0 0) 3 0 = 0 ∧ bits (prbPin s 0 0) 11 8 = 0 ∧ routes s = [(0, 0, 0, 0)]) ∧
    ((region (fabUp id) 0).started = true ∧ (region (fabUp id) 0).setReset = false ∧
     pinUse (fabUp id) 0 = (Config.imagePins []).toNat) ∧ (region up 0).started = false := by
  refine ⟨by decide +kernel, by decide +kernel, by decide +kernel, by decide +kernel, by decide +kernel, by decide +kernel, ⟨by decide +kernel, by decide +kernel, rfl⟩, by decide +kernel⟩

theorem witness_RoutesPowerAndEvents :
    (live (fabUp id) (.region 0) = true ∧ clocksRun (fabUp id) 0 = true ∧
     reaches op (.region 0) 0 (Rg.region.PRBSEL + 8 * 63) (fabUp id) = true ∧
     reaches op (.region 0) 0 (Rg.region.PRBPIN + 8 * 63) (fabUp id) = true ∧
     (0 : W32).getLsbD 31 = false) ∧
    (let s := wreg (frKey 0 + Rg.region.PRBSEL) 0x80000000 (fabUp id)
     (prbSel s 0 0).getLsbD 31 = true ∧ bits (0xC00 : W32) 11 8 > 11 ∧ reaches op (.region 0) 0 Rg.region.PRBPIN s = true) ∧
    (let s := fabUp (fun g => { g with overPower := true })
     decide (11 * regN s (Blk.key .ptm + Rg.ptm.FABALLOC + 4 * 0) < 100 * 65535) = true ∧ (region s 0).overPower = true ∧
     inFault s (.region 0) = false) := by decide +kernel

/-! ### Network -/

/-- A packet from die 0 router 0 to router 5 of it. -/
def pkt (die rtr : Nat) (r : Req) (src : Src) (resp : Option (BitVec 8 × List Byte)) : Pkt :=
  { req := r, src, fromDie := 0, fromRtr := 0, dstDie := 0, dstRtr := 0, die := BitVec.ofNat 7 die,
    rtr := BitVec.ofNat 4 rtr, inp := 0, resp, at_ := 0 }

def netWith (ps : List Pkt) (s : State) : State := { s with net := { s.net with pkts := ps } }

def wr4 : Req := rq .write (2 ^ 40) 4 [1, 2, 3, 4]

theorem witness_PacketsTravelAndAreServed :
    (let p := pkt 0 5 wr4 .nobody none
     let s := netWith [p] scrUp
     waitingAt s (0, 5) = [p] ∧ hopUp s (0, 5) (pktHop (0, 5) p) = true ∧ goes s (0, 5) = [p]) ∧
    (∀ src ∈ [Src.nobody, .cpu (.core 0)],
      let p := pkt 0 0 wr4 src none
      let s := netWith [p] scrUp
      s.net.pkts.find? (reqAt s (0, 0)) = some p ∧ netUp s 0 = true ∧ scrOff p.req.addr = some 0 ∧
      inDram p.req.addr.toNat = false ∧ scrCheck s p.req 0 = 0 ∧ p.req.kind = .write ∧ p.req.cnt = none ∧
      p.req.data.length = p.req.len ∧ s.scrChk = [] ∧ (reg s (grpKey 0 + Rg.bank.ERRINJ)).getLsbD 17 = false) ∧
    (∀ src ∈ [Src.nobody, .region 0 7],
      let p := pkt 0 0 wr4 src (some (0, []))
      let s := netWith [p] (fabUp (fun g => { g with inits := [7] }))
      s.net.pkts.find? (fun p => p.resp.isSome && arrived p && pktNode p == (0, 0) && takenHere s p.src) = some p ∧
      p.resp = some (0, []) ∧ s.power.inReset = [] ∧ (region s 0).inits.contains 7 = true) := by decide +kernel

/-- With power fields. -/
def pw (f : Power → Power) (s : State) : State := { s with power := f s.power }

def later (s : State) : State := { s with clock := { now := 100000000000, counting := true } }

theorem witness_DomainsWakeFenceAndTimeOut :
    (let s := pw (fun p => { p with waking := 1 }) off
     s.power.waking.getLsbD 0 = true ∧ s.power.pd = none ∧ off.power.waking.getLsbD 0 = false) ∧
    (let s := pw (fun p => { p with pd := some (0, 1), fenced := 1 }) up
     fencing s 0 = some 1 ∧ domDrained s 0 = true) ∧
    (let s := later (pw (fun p => { p with pd := some (0, 2), fenced := 1 }) (setCpu up (.tile 0) { proc0 with wait := .store 0 }))
     fencing s 0 = some 2 ∧ domDrained s 0 = false ∧
     (tget 0 s.power.drainFrom 0).toNat + ((domBlks 0).map (fun b => lullLimit s b.die (ownerOf s b))).foldl max 0 ≤ now s) := by
  decide +kernel

def line0 : Addr := BitVec.ofNat 48 sysBase

/-- A copy of line 0 with agent i. -/
def held (i : Nat) (m : Mesi) (s : State) : State := setCopy s 0 i m (List.replicate 64 1)
def snoop (share seen : Bool) (data : Option (List Byte)) (g : Agent) : Snoop :=
  let n := if seen then homeNode up 0 else agentNode g
  ⟨0, g, share, seen, data, 0, BitVec.ofNat 7 n.1, BitVec.ofNat 4 n.2, 0, 0⟩
def snooped (q : Snoop) (s : State) : State := { s with net := { s.net with snoops := [q] } }

theorem witness_CopiesAreGrantedSnoopedAndReturned :
    (inSys line0.toNat = true ∧ sysLine line0.toNat = 0 ∧ agentUp up (.core 0) = true ∧ copyOf up 0 0 = none ∧ holders up 0 = [] ∧
     up.net.snoops = [] ∧ up.net.cohs = []) ∧
    (dramCheck up (cohReq up (.core 0) line0 .share) = 0 ∧ dramCheck up (cohReq up (.core 0) line0 .own) = 0 ∧
     (lineAcc up (agentInit up (.core 0)) 0 .read []).1 = 0) ∧
    (let m := dramMap up line0.toNat
     let s := upsetBlk { up with pv := [(pvKey m.1 (locPage m.2), true)] } m.1 m.2 [⟨0, 0, 1⟩, ⟨0, 1, 1⟩]
     dramCheck s (cohReq s (.core 0) line0 .share) = 0 ∧ (lineAcc s (agentInit s (.core 0)) 0 .read []).1 ≠ 0) ∧
    ((putLine up 0 (List.replicate 64 1)).1 = true ∧
     (putLine (blkIn (.pvm (dramMap up line0.toNat).1) .stopped up) 0 (List.replicate 64 1)).1 = false) ∧
    (∀ sh ∈ [true, false], let s := snooped (snoop sh false none (.core 0)) (held 0 .modified up)
      snoopOf s (.core 0) 0 = some (snoop sh false none (.core 0)) ∧ agentUp s (.core 0) = true) ∧
    (∀ d ∈ [none, some (List.replicate 64 1)], let q := snoop false true d (.core 0)
      (snooped q up).net.snoops = [q] ∧ q.seen = true ∧ (snooped q up).net.cohs = []) ∧
    (copyOf (held 0 .modified up) 0 0 = some .modified ∧ (List.replicate 64 (0 : Byte)).length = 64 ∧
     ¬ (copyOf (held 0 .shared up) 0 0 = some .modified ∨ copyOf (held 0 .shared up) 0 0 = some .exclusive)) ∧
    (let q := snoop true false none (.region 0)
     let s := later (snooped q up)
     s.net.snoops = [q] ∧ agentUp s (.region 0) = false ∧ q.at_.toNat + 10000 ≤ now s) := by decide +kernel

def syncWait : UCmd := ⟨withOp { cmd0 with w2 := 1 } 3 1, 0, 0, 0⟩

theorem witness_TablesMessagesAndLullReports :
    (reaches op (.ptab 8) 1 (0x80 + 0x10 * 63 + 12) up = true ∧ reaches op (.ptab 8) 1 (0x80 + 0x10 * 63) up = true ∧
     (reg up (winKey 0 63 + 0xC)).getLsbD 4 = false ∧ (reg up (winKey 0 63 + 0xC)).getLsbD 8 = false ∧
     bits (1 : W32) 3 0 ≠ bits (reg up (winKey 0 63 + 0xC)) 3 0 ∧ up.power.mst = .ready ∧ winClash up 0 63 0 = false) ∧
    ((reg (wreg (winKey 0 63 + 0xC) 0x10 up) (winKey 0 63 + 0xC)).getLsbD 4 = true ∧
     (reg (wreg (winKey 0 63 + 0xC) 0x100 up) (winKey 0 63 + 0xC)).getLsbD 8 = true) ∧
    (let s := { up with net := { up.net with wipes := [(0, [(0, 64)])], events := [15] } }
     tget [] s.net.wipes 0 = (0, 64) :: [] ∧ s.net.events = 15 :: []) ∧
    ((Blk.ptab 103).wf = true ∧ reaches op (.ptab 103) 3 0x84 up = true ∧ (Blk.probe 103 1).wf = true ∧
     reaches op (.probe 103 1) 0 Rg.probe.PRCLR up = true ∧ (1 : W32).getLsbD 0 = true) ∧
    (let s := updUnit up (.sync 0) (fun y => { y with active := some syncWait, waiting := true })
     s.tiles.map (·.1) = [0] ∧ s.ctxs = [] ∧ s.engs = [] ∧ s.checks = [] ∧ s.chans = [] ∧ s.net.waits = [] ∧
     (tile s 0).seq.epSince = none ∧ (tile s 0).sync.active = some syncWait ∧ (tile s 0).sync.waiting = true ∧
     hOpc syncWait.cmd = 1 ∧ (tget [] s.net.lulls 0).length < 8 ∧
     (tile s 0).sync.since.toNat + lullLimit s 0 (tileOwner s 0) < now (later s) ∧
     ¬ ((tile s 0).sync.since.toNat + lullLimit s 0 (tileOwner s 0) < now s)) := by decide +kernel

/-- At one output the higher priority goes first, and a packet that has waited 2 µs before it. -/
theorem test_priorityAndAge :
    (let a : Pkt := pkt 0 5 { wr4 with who := { op with pri := 1, rtr := 3 } } .nobody none
     let b : Pkt := { pkt 0 5 wr4 .nobody none with at_ := 100 }
     let s := { netWith [a, b] scrUp with clock := { now := 1999, counting := true } }
     goes s (0, 5) = [b] ∧ goes { s with clock := { now := 2000, counting := true } } (0, 5) = [a]) := by decide +kernel

/-- A snoop on its way from line 0's home. -/
theorem witness_PacketsTravelAndAreServed_snoop :
    let q : Snoop := { snoop true false none (.core 0) with die := BitVec.ofNat 7 (homeNode up 0).1, rtr := 0 }
    let s := snooped q up
    s.net.snoops = [q] ∧ snoopNode q = homeNode up 0 ∧ snoopHere s q = false ∧
    hopUp s (homeNode up 0) (snoopHop s (homeNode up 0) q) = true ∧
    snoopHere up (snoop true false none (.core 0)) = true ∧ snoopHere up (snoop true true none (.core 0)) = true := by
  decide +kernel

/-! ### Configuration loading -/

def zeros (n : Nat) : List Byte := List.replicate n 0

/-- A module in a loading phase. -/
def ldr (f : Loader → Loader) (s : State) : State := { s with loader := f s.loader }

/-- The empty body's digest. -/
def sha0 : Nat := 0x38b060a751ac96384cd9327eb1b1e36a21fdb71114be07434c0cc7bf63f6e1da274edebfe76f65fbd51ad2f14898b95b

/-- The header of a plain section for position 0 that sets region 0 from a body of n bytes, signed with private key 1 and
    nonce 2 (signature value sig). -/
def secHdr (n sig : Nat) : List Byte :=
  leBytes 4 0x46425342 ++ [1, 0, 0, 1] ++ leBytes 4 (0x804 + n) ++ [2, 0xFF, 0, 0] ++
  beBytes 48 0xaa87ca22be8b05378eb1c71ef320ad746e1d3b628ba79b9859f741e082542a385502f25dbf55296c3a545e3872760ab7 ++
  beBytes 48 0x3617de4a96262c6f5d9e98bf9292dc29f8f41dbd289a147ce9da3113b5f0b8c00a60b1ce1d7e819d7a431d7c90ea0e5f ++
  zeros 20 ++ leBytes 4 0x800 ++ leBytes 4 n ++ zeros 36 ++ beBytes 48 sha0 ++
  (zeros 360 ++ zeros 360 ++ zeros 360 ++ zeros 360) ++
  (beBytes 48 0x8d999057ba3d2d969260045c55b97f089025959a6f434d651d207d19fb96e9e4fe0e86ebe0e64f85b96a9c75295df61 ++
   beBytes 48 sig ++ zeros 288)

/-- The section with an empty body, and one whose body does not fit its digest. -/
def hdrA : List Byte := secHdr 0 0xadc480b29f23a14a279174529b8c2320c5258efdcc61829a4838e34e83032b2a90b2f8aa2ee2a53f663d1c8ba912c64c
def hdrB : List Byte := secHdr 4 0xb4aa401fe6037e7011f83f1d57da9cb7d5fc9a7d202c8d3c5020a91587d614ebb3cf781ffc26fde9d889e2350842746f

/-- A section in scratch, the public key's digest in slot 2, and the controller at pass 1 of it. -/
def secUp (keyed : Bool) (d : List Byte) : State :=
  { ldr (fun l => { l with phase := .auth, secAt := BitVec.ofNat 48 (2 ^ 40) }) scrUp with
    scr := bytesTab d
    fuses := { scrUp.fuses with sigKeys := if keyed then [(2, BitVec.ofNat 384 0xa19d4db171b582eb8052b0cfe555e17894aa22d1c8a9770950697dd8f796d2fa4bf0a56ad80006b7ea08e1191f814b65)] else [] } }

def secMem (s : State) : MemR := memRead s zenithInit s.loader.secAt.toNat 0x800

theorem range_getD (d e : List Byte) : (List.range d.length).map (fun i => (d ++ e).getD i 0) = d := by
  apply List.ext_getElem
  · simp
  · intro i h1 h2; simp [List.getElem?_append_left h2, h2]

/-- Bytes from the start of scratch as they are read. -/
theorem read_start (s : State) (d e : List Byte) (n : Nat) (hn : d.length = n) (hm : n ≤ 2 ^ 33) (hs : s.scr = bytesTab (d ++ e))
    (hc : s.scrChk = []) (h : (memRead s zenithInit (2 ^ 40) n).rsn = 0) : (memRead s zenithInit (2 ^ 40) n).data = d := by
  have m := memRead_scr s zenithInit (2 ^ 40) n hc (Nat.le_refl _) (by omega) h
  rw [m.1, Nat.sub_self, scrBytes_bytesTab s (d ++ e) 0 n hs, ← hn]
  simpa using range_getD d e

theorem secMem_data (k : Bool) (d e : List Byte) (hd : d.length = 0x800) (h : (secMem (secUp k (d ++ e))).rsn = 0) :
    (secMem (secUp k (d ++ e))).data = d :=
  read_start (secUp k (d ++ e)) d e 0x800 hd (by decide) rfl rfl h

def crcA : List Byte := leBytes 4 0x1e6c564d

theorem hdrA_length : hdrA.length = 0x800 := by decide +kernel
theorem hdrB_length : hdrB.length = 0x800 := by decide +kernel

theorem secMem_ok : ∀ k : Bool, ∀ e ∈ [crcA, zeros 4], (secMem (secUp k (hdrA ++ e))).rsn = 0 := by decide +kernel

theorem secMemB_ok : (secMem (secUp true (hdrB ++ zeros 8))).rsn = 0 := by decide +kernel


/-- As `crcFeed`, with the register a numeral after each byte. -/
def feedNum : Nat → List Byte → Nat
  | x, [] => x
  | x, b :: t => match crcByte crc32c x b with
    | 0 => feedNum 0 t
    | n + 1 => feedNum (n + 1) t

theorem feedNum_eq (x : Nat) (d : List Byte) : feedNum x d = crcFeed crc32c x d := by
  induction d generalizing x with
  | nil => rfl
  | cons b t ih =>
    rw [feedNum, crcFeed, List.foldl_cons]
    split <;> rename_i h <;> rw [ih, h] <;> rfl

theorem crc_hdrA : crcOf crc32c hdrA = 0x1e6c564d := by
  rw [crcOf, ← feedNum_eq]; decide +kernel

theorem bodies_nil (e : RegEntry) (i : Nat) (s : State) (hl : e.length = 0) (hd : sha384 [] = e.digest) :
    bodiesBad none [(e, i)] s = (none, s) := by
  have hm : readBody s e = ⟨0, 0, [], s⟩ := by rw [readBody, hl]; rfl
  simp [bodiesBad, hm, hd]

/-- Pass 1 of the section with an empty body, its CRC word c. -/
theorem secA_bodies (c : List Byte) (hc : c ∈ [crcA, zeros 4]) :
    let s := secUp true (hdrA ++ c)
    bodiesBad none (secEntries (secMem s).data).zipIdx (secMem s).st = (none, (secMem s).st) := by
  intro s
  have hd : (secMem s).data = hdrA := secMem_data true hdrA c hdrA_length (secMem_ok true c hc)
  rw [hd, show (secEntries hdrA).zipIdx = [(regEntry hdrA 0, 0)] by decide +kernel]
  exact bodies_nil _ _ _ (by decide +kernel) (by decide +kernel)

theorem secA_read : ∀ c ∈ [crcA, zeros 4], (let s := secUp true (hdrA ++ c)
    (memRead (secMem s).st zenithInit (2 ^ 40) 0x804).rsn = 0 ∧ c.length = 4) := by decide +kernel

theorem secA_whole (c : List Byte) (hc : c ∈ [crcA, zeros 4]) : let s := secUp true (hdrA ++ c)
    (memRead (secMem s).st zenithInit (2 ^ 40) 0x804).data = hdrA ++ c := by
  intro s
  have m := memRead_scr s zenithInit (2 ^ 40) 0x800 rfl (Nat.le_refl _) (by decide) (secMem_ok true c hc)
  refine read_start (secMem s).st (hdrA ++ c) [] 0x804 ?_ (by decide) ?_ m.2.2 (secA_read c hc).1
  · rw [List.length_append, hdrA_length, (secA_read c hc).2]
  · rw [List.append_nil]; exact m.2.1

theorem secA_keys : ∀ c ∈ [crcA, zeros 4], headerBad (ccPos (secUp true (hdrA ++ c))) hdrA = none ∧
    keysBad (secUp true (hdrA ++ c)) hdrA = 0 := by decide +kernel

theorem secA_pass (c : List Byte) (hc : c ∈ [crcA, zeros 4]) :
    let s := secUp true (hdrA ++ c)
    let m := secMem s
    s.loader.phase = .auth ∧ m.rsn = 0 ∧ headerBad (ccPos s) m.data = none ∧ keysBad s m.data = 0 ∧ encrypted m.data = false ∧
    (bodiesBad none (secEntries m.data).zipIdx m.st).1 = none ∧ secLen m.data = 0x804 ∧
    (let m2 := memRead (bodiesBad none (secEntries m.data).zipIdx m.st).2 zenithInit (2 ^ 40) 0x804
     m2.rsn = 0 ∧ leAt m2.data 0x800 4 = leNat c ∧ crcOf crc32c (m2.data.take 0x800) = 0x1e6c564d) := by
  intro s m
  have hd : m.data = hdrA := secMem_data true hdrA c hdrA_length (secMem_ok true c hc)
  have hb := secA_bodies c hc
  simp only at hb
  refine ⟨rfl, secMem_ok true c hc, ?_, ?_, ?_, by rw [hb], ?_, ?_⟩
  · rw [hd]; exact (secA_keys c hc).1
  · rw [hd]; exact (secA_keys c hc).2
  · rw [hd]; decide +kernel
  · rw [hd]; decide +kernel
  · have w := secA_whole c hc
    simp only at w
    rw [hb]
    refine ⟨(secA_read c hc).1, ?_, ?_⟩
    · rw [w]; simp [leAt, hdrA_length, List.take_of_length_le, (secA_read c hc).2]
    · rw [w, List.take_append_of_le_length (Nat.le_of_eq hdrA_length.symm), List.take_of_length_le (Nat.le_of_eq hdrA_length)]; exact crc_hdrA

theorem secB_bodies : headerBad (ccPos (secUp true (hdrB ++ zeros 8))) hdrB = none ∧
    keysBad (secUp true (hdrB ++ zeros 8)) hdrB = 0 ∧ encrypted hdrB = false ∧
    (bodiesBad none (secEntries hdrB).zipIdx (secMem (secUp true (hdrB ++ zeros 8))).st).1.isSome = true := by decide +kernel

/-- A controller at pass 1 of what stands at the start of scratch. -/
def authAt (a : Nat) (s : State) : State := ldr (fun l => { l with phase := .auth, secAt := BitVec.ofNat 48 a }) s

theorem secA_unkeyed : headerBad (ccPos (secUp false (hdrA ++ crcA))) hdrA = none ∧
    keysBad (secUp false (hdrA ++ crcA)) hdrA = 0xC := by decide +kernel

theorem witness_PassOneAuthenticatesTheSection :
    (let s := authAt (2 ^ 40) off
     s.loader.phase = .auth ∧ (secMem s).rsn ≠ 0) ∧
    (let s := authAt (2 ^ 40) scrUp
     s.loader.phase = .auth ∧ (secMem s).rsn = 0 ∧ headerBad (ccPos s) (secMem s).data = some 0) ∧
    (let s := secUp false (hdrA ++ crcA)
     s.loader.phase = .auth ∧ (secMem s).rsn = 0 ∧ headerBad (ccPos s) (secMem s).data = none ∧ keysBad s (secMem s).data ≠ 0) ∧
    (let s := secUp true (hdrB ++ zeros 8)
     s.loader.phase = .auth ∧ (secMem s).rsn = 0 ∧ headerBad (ccPos s) (secMem s).data = none ∧ keysBad s (secMem s).data = 0 ∧
     encrypted (secMem s).data = false ∧ (bodiesBad none (secEntries (secMem s).data).zipIdx (secMem s).st).1.isSome = true) ∧
    (∀ c ∈ [crcA, zeros 4],
     let s := secUp true (hdrA ++ c)
     let m := secMem s
     s.loader.phase = .auth ∧ m.rsn = 0 ∧ headerBad (ccPos s) m.data = none ∧ keysBad s m.data = 0 ∧ encrypted m.data = false ∧
     (bodiesBad none (secEntries m.data).zipIdx m.st).1 = none ∧ secLen m.data = 0x804 ∧
     (let m2 := memRead (bodiesBad none (secEntries m.data).zipIdx m.st).2 zenithInit (2 ^ 40) 0x804
      m2.rsn = 0 ∧ leAt m2.data 0x800 4 = leNat c ∧ crcOf crc32c (m2.data.take 0x800) = 0x1e6c564d)) ∧
    leNat crcA = 0x1e6c564d ∧ leNat (zeros 4) ≠ 0x1e6c564d := by
  have ha : (secMem (secUp false (hdrA ++ crcA))).data = hdrA :=
    secMem_data false hdrA crcA hdrA_length (secMem_ok false crcA (by simp))
  have hb : (secMem (secUp true (hdrB ++ zeros 8))).data = hdrB := secMem_data true hdrB (zeros 8) hdrB_length secMemB_ok
  refine ⟨by decide +kernel, by decide +kernel, ⟨rfl, secMem_ok false crcA (by simp), ?_, ?_⟩, ⟨rfl, secMemB_ok, ?_, ?_, ?_, ?_⟩,
    secA_pass, by decide +kernel, by decide +kernel⟩
  · rw [ha]; exact secA_unkeyed.1
  · rw [ha, secA_unkeyed.2]; decide
  · rw [hb]; exact secB_bodies.1
  · rw [hb]; exact secB_bodies.2.1
  · rw [hb]; exact secB_bodies.2.2.1
  · rw [hb]; exact secB_bodies.2.2.2

theorem witness_LoaderTakesItsCommands :
    (∀ p ∈ [Phase.idle, .auth], let s := ldr (fun l => { l with phase := p }) scrUp
      reaches op .loader 0 Rg.ccfg.CCCMD s = true) ∧
    (scrUp.loader.phase = .idle ∧ (ccReg scrUp Rg.ccfg.CCSRCH).getLsbD 16 = false ∧ ccChained scrUp = false) ∧
    (ccReg (wreg (ldrKey + Rg.ccfg.CCSRCH) 0x10000 scrUp) Rg.ccfg.CCSRCH).getLsbD 16 = true ∧
    (let s := wreg (ldrKey + Rg.ccfg.CCCHAIN) 0x50 scrUp
     ccChained s = true ∧ (ccReg s Rg.ccfg.CCCHAIN).getLsbD 4 = true ∧ (ccReg s Rg.ccfg.CCSRCH).getLsbD 16 = false) := by
  decide +kernel

/-- A section that sets region 0 stands at the start of scratch and CCSRC points to it. -/
def srcUp (s : State) : State := wreg (ldrKey + Rg.ccfg.CCSRCH) 0x100 { s with scr := bytesTab (hdrA.take 0x200) }

theorem witness_LoadBegins :
    (let s := srcUp scrUp
     let m := memRead s zenithInit (ccSrc s) 0x800
     ccSrc s = 2 ^ 40 ∧ m.rsn = 0 ∧ (secEntries m.data).map (·.region) = [0] ∧ loadable m.st 0 = true) ∧
    (let s := srcUp (updRegion scrUp 0 (fun g => { g with started := true }))
     let m := memRead s zenithInit (ccSrc s) 0x800
     m.rsn = 0 ∧ loadable m.st 0 = false) := by decide +kernel

/-- A load of region 0 in PHASE LOAD. -/
def loading (f : Loader → Loader) (s : State) : State :=
  ldr (fun l => f { l with phase := .load, entries := [regEntry (hdrA.take 0x200) 0], secAt := BitVec.ofNat 48 (2 ^ 40) }) s

def frame1 (back : W32) : Frame := ⟨List.replicate 128 0, 0xb84e1c9b, back :: List.replicate 127 0⟩

theorem frame1_check : ∀ b ∈ [0, 1], frameCheck 0 (frame1 (w32 b)).back = [0xb84e1c9b, 0x5219d63].getD b 0 := by
  simp only [frameCheck, crcOf, ← feedNum_eq]; decide +kernel

/-- Region 0's entry with a body of words, and a load that is in it, the body at the start of scratch. -/
def bodyEnt (n : Nat) : RegEntry := { region := 0, offset := 0x800, length := n, iv := 0, tag := 0, digest := BitVec.ofNat 384 0xa8cc9f3846f3c9ebb2a650d656e37096c5e678cad7503733dca1b85e780a2c59cf6ba1ba04f9ceb1bed1f4cae59d843a }
def body (ws : List W32) (f : Loader → Loader) (s : State) : State :=
  { ldr (fun l => f { l with phase := .load, secAt := 0xFFFFFFF800, entries := [bodyEnt (4 * ws.length)] }) s with
    scr := bytesTab (bytesOf ws) }

/-- The premises of `InBody` but the answer, and the answer. -/
def inBody (i : Instr) (ws : List W32) (f : Loader → Loader) (s : State) : Option NextPkt :=
  let b := body ws f s
  match curEntry b, Says.pktOf i with
  | some e, some p =>
    if b.loader.phase = .load ∧ b.loader.restart = false ∧ wellFormed i = true then some (bodyNext e p.1 p.2 b).1 else none
  | _, _ => none

def frameWords (b : W32) : List W32 := 0xA5500001 :: (frame1 b).data ++ [(frame1 b).check]

/-- Each leading row in its place, with its value and another. -/
theorem witness_PacketsDeliverTheFrames_lead :
    [0x0B640F01, 3].map (fun v => inBody (.devchk v) [0xA5100001, v] id scrUp) = List.replicate 2 (some (.fits 0 8)) ∧
    [3, 4].map (fun v => inBody (.options v) [0xA5200001, v] (fun l => { l with order := 1 }) scrUp) = List.replicate 2 (some (.fits 0 8)) ∧
    [0, 1].map (fun v => inBody (.openPkt v) [0xA5300001, v] (fun l => { l with order := 2 }) scrUp) = List.replicate 2 (some (.fits 0 8)) ∧
    inBody (.devchk 0) [0] id scrUp = some (.bad 0) ∧ inBody (.devchk 0) [] id scrUp = some (.bad 0) ∧
    inBody (.tally 0) [0, 0xA6600001, 0] (fun l => { l with order := 3 }) scrUp = some (.bad 4) ∧
    inBody (.devchk 0) [0xA5200001, 0] id scrUp = some .other ∧
    (inBody (.devchk 0) [0xA5100001, 0] id off).map (fun x => match x with | .bus _ r => r != 0 | _ => false) = some true ∧
    (let s := loading (fun l => { l with restart := true }) scrUp
     (curEntry s).isSome = true ∧ s.loader.phase = .load ∧ s.loader.restart = true) := by decide +kernel

/-- No-operations stand before SETADDR and TALLY; a frame whose words the body holds, read back well or not. -/
theorem witness_PacketsDeliverTheFrames :
    [0, 0x10000000].map (fun v => inBody (.setaddr v) [0, 0xA5400001, v] (fun l => { l with order := 3 }) scrUp) =
      List.replicate 2 (some (.fits 4 12)) ∧
    [0, 1].map (fun v => inBody (.tally v) [0xA5600001, v] (fun l => { l with order := 3 }) scrUp) = List.replicate 2 (some (.fits 0 8)) ∧
    [0, 1].map (fun b => inBody (.frames [frame1 b]) (frameWords b) (fun l => { l with order := 3, addrSet := true }) scrUp) =
      List.replicate 2 (some (.fits 0 520)) ∧
    inBody (.frames [frame1 0]) (frameWords 0) (fun l => { l with order := 3 }) scrUp = some (.fits 0 520) ∧
    (let s := body [0xA5400001, 0] (fun l => { l with order := 3, addrSet := true }) scrUp
     faOk (ccPos s) 0 0 = true ∧ s.loader.addr = 0 ∧ s.loader.nframes = 0 ∧ faRange 0 = true ∧
     frameCheck 0 (frame1 0).back = (frame1 0).check.toNat ∧ frameCheck 0 (frame1 1).back ≠ (frame1 1).check.toNat ∧
     Says.framesAt 0 [frame1 1] = [(0, frame1 1)]) := by
  have h0 : frameCheck 0 (frame1 0).back = 0xb84e1c9b := frame1_check 0 (by simp)
  have h1 : frameCheck 0 (frame1 1).back = 0x5219d63 := frame1_check 1 (by simp)
  refine ⟨by decide +kernel, by decide +kernel, by decide +kernel, by decide +kernel, ?_⟩
  rw [h0, h1]; decide +kernel

/-- Every frame of the body delivered once, and its words from the last packet on. -/
def closing (ws : List W32) (s : State) : State :=
  body ws (fun l => { l with order := 3, nframes := 66048, seen := List.replicate 66048 (0, true) }) s

theorem closing_seen (ws : List W32) (s : State) : (closing ws s).loader.seen.length = 66048 := List.length_replicate

def closeWords : List W32 := [0xA5700001, 66048]

/-- The controller behind the CLOSE packet. -/
def closed (ws : List W32) (s : State) : State := let w := (bodyNext (bodyEnt (4 * ws.length)) 0xA5700001 [66048] (closing ws s)).2
  { w with loader := { w.loader with pos := 8 } }

theorem witness_ClosingABodyLoadsTheRegion :
    [0, 66048].map (fun v => inBody (.close v) [0xA5700001, v] (fun l => { l with order := 2 }) scrUp) = List.replicate 2 (some (.fits 0 8)) ∧
    (∀ ws : List W32, let s := closing ws scrUp
     (66048 : W32).toNat = 66048 ∧ curEntry s = some (bodyEnt (4 * ws.length)) ∧ s.loader.phase = .load ∧
     s.loader.restart = false ∧ s.loader.order = 3 ∧ s.loader.nframes = 66048 ∧ s.loader.seen.length = 66048) ∧
    [closeWords, closeWords ++ [0]].map (fun ws =>
      (bodyNext (bodyEnt (4 * ws.length)) 0xA5700001 [66048] (closing ws scrUp)).1) = List.replicate 2 (.fits 0 8) ∧
    (let m := readBody (closed closeWords scrUp) (bodyEnt 8)
     m.rsn = 0 ∧ sha384 m.data = (bodyEnt 8).digest ∧ sha384 m.data ≠ 0) ∧
    (readBody (closing closeWords off) (bodyEnt 8)).rsn ≠ 0 ∧
    (doneSync (wreg (ldrKey + Rg.ccfg.CCCTL) 0 scrUp) = false ∧ doneSync scrUp = true) ∧
    (let s := later (ldr (fun l => { l with phase := .waitdone, doneDrv := false }) up)
     s.loader.phase = .waitdone ∧ doneSync s = true ∧ doneLow s = false ∧ s.loader.doneSince.toNat + 1000 ≤ now s) := by
  refine ⟨by decide +kernel, ?_, by decide +kernel, by decide +kernel, by decide +kernel, by decide +kernel, by decide +kernel⟩
  intro ws
  refine ⟨by decide, ?_, rfl, rfl, rfl, rfl, closing_seen ..⟩
  rfl


/-- A chained module whose stream stands at the start of scratch. -/
def chained (chain : Nat) (p : Phase) (r : Option Bool) : State :=
  later (ldr (fun l => { l with phase := p, recvd := r })
    (wreg (ldrKey + Rg.ccfg.CCSRCLEN) 0x1000 (wreg (ldrKey + Rg.ccfg.CCCHAIN) chain (srcUp scrUp))))

def mineOf (n : Nat) : List Byte := zeros 6 ++ [BitVec.ofNat 8 n, 0]

theorem witness_ChainsPassSectionsOn :
    (let s := chained 0x50 .transmit (some true)
     let n := (ccReg s Rg.ccfg.CCSRCLEN).toNat
     let c := (chainSections (ccSrc s) (ccSrc s + n) (n / 2048 + 1) s).1
     s.loader.phase = .transmit ∧ s.loader.recvd.isSome = true ∧ s.loader.sentAt.toNat + 10000 ≤ now s ∧
     (c.map (fun l => l.map (fun e => (e.1, chposOf e.2.1)))) = some [(2 ^ 40, 0)] ∧ ccPos s = 0) ∧
    (∀ ch ∈ [0x41, 0x61], let s := chained ch .receive none
     s.loader.phase = .receive ∧ ccChained s = true ∧ chposOf (mineOf 0) ≠ ccPos s) ∧
    (let s := chained 0x41 .receive none
     let d := mineOf 1
     let w : State := { s with loader := { s.loader with recvd := none, retryDrv := false, chainOut := [.start, .sect (mineOf 0)] } }
     chposOf d = ccPos s ∧ (ccReg s Rg.ccfg.CCCHAIN).getLsbD 5 = false ∧ d.length ≤ (ccReg s Rg.ccfg.CCSRCLEN).toNat ∧
     (memWrite w zenithInit (ccSrc s) d).rsn = 0) ∧
    up.loader.phase ≠ .receive ∧
    (∀ r ∈ [some true, some false, none], let s := chained 0x41 .receive r
     s.loader.phase = .receive ∧ s.loader.recvd = r) := by decide +kernel

/-- Region 0 started, with readback in a mode. -/
def rbUp (mode stat : Nat) (sig : W32) : State :=
  let s := updRegion up 0 (fun g => { g with started := true, loaded := true })
  let s := wreg (ldrKey + Rg.ccfg.CCCTL) 2 (wreg (ldrKey + Rg.ccfg.RGRBCTL) mode (wreg (ldrKey + Rg.ccfg.RGSTAT) stat s))
  ldr (fun l => { l with colSig := tset 0 l.colSig 0 sig }) s

theorem rbUp_sig : ∀ m ∈ [1, 2, 5], colSigOf (rbUp m (if m = 2 then 0x21 else 1) 0) 0 0 = 0xFB234C61 := by
  simp only [colSigOf, crcOf, ← feedNum_eq]; decide +kernel

/-- Frame 0 of region 0 cannot be read from its image, which lies in scratch that is off. -/
theorem witness_ReadbackFindsUpsets :
    rbNext (rbUp 0 1 0) ≠ some 0 ∧
    (let s := rbUp 1 1 0xFB234C61
     rbNext s = some 0 ∧ s.loader.rbRegion = 0 ∧ s.loader.rbCol = 0 ∧ tget 0 s.loader.colSig 0 = 0xFB234C61) ∧
    (let s := rbUp 5 1 0
     rbNext s = some 0 ∧ regBit s (ldrKey + Rg.ccfg.RGRBCTL) 2 = true ∧ (region s 0).started = true ∧ (region s 0).starting = false ∧
     tget 0 s.loader.colSig 0 = 0) ∧
    (let s := rbUp 2 0x21 0
     let y := repairCol 0 0 (List.range 160) (strike 0 0 [] s)
     rbNext s = some 0 ∧ rgMode s 0 = 2 ∧ regBit s (ldrKey + Rg.ccfg.RGSTAT) 5 = true ∧ y.1 = false ∧
     regBit y.2 (ldrKey + Rg.ccfg.RGRBCTL) 2 = false ∧ regBit s (ldrKey + Rg.ccfg.RGSTAT) 6 = false ∧ tget 0 s.loader.colSig 0 = 0) ∧
    (∀ m ∈ [1, 2, 5], colSigOf (strike 0 0 [] (rbUp m (if m = 2 then 0x21 else 1) 0)) 0 0 = 0xFB234C61) := by
  refine ⟨by decide +kernel, by decide +kernel, by decide +kernel, by decide +kernel, rbUp_sig⟩

theorem witness_KeySlotsAreProgrammedAndRevoked :
    (reaches op .sec 0 Rg.sec.KEYPROG up = true ∧ keyBusy up = false ∧
     (let v : W32 := 0x6B590004
      bits v 31 16 = 0x6B59 ∧ slotSet up (v.getLsbD 0) (bits v 3 1) = false ∧ v.getLsbD 0 = false ∧ bits v 3 1 = 2) ∧
     (let v : W32 := 0x6B590003
      bits v 31 16 = 0x6B59 ∧ slotSet up (v.getLsbD 0) (bits v 3 1) = false ∧ v.getLsbD 0 = true ∧ bits v 3 1 = 1) ∧
     bits (0 : W32) 31 16 ≠ 0x6B59 ∧ bits (0x1A : W32) 3 1 = 5 ∧ bits (0x1C : W32) 3 1 = 6 ∧ bits (0x15 : W32) 3 1 = 2 ∧
     bits (0x17 : W32) 3 1 = 3) ∧
    reg up (Blk.key .sec + Rg.sec.KEYPROG) = 0 ∧
    (∀ v ∈ [0x6B590004, 0x6B590003], let s := wreg (Blk.key .sec + Rg.sec.KEYPROG) v up
     let p := reg s (Blk.key .sec + Rg.sec.KEYPROG)
     p ≠ 0 ∧ slotSet s (p.getLsbD 0) (bits p 3 1) = false) := by decide +kernel

/-- Check channel 0 of die 0 over one block of scratch. -/
def ckUp (cfg : Nat) (f : Check → Check) : State :=
  let k := (Ck.ord 0 0).blk.key
  updCheck (wreg (k + Rg.ck.CKCFG) cfg (wreg (k + Rg.ck.CKSTARTH) 0x100 (wreg (k + Rg.ck.CKLEN) 64 scrUp))) (.ord 0 0) f

theorem witness_CheckChannelsScanAndCompare :
    (let c := Ck.ord 0 0
     reaches op c.blk 0 Rg.ck.CKCMD (ckUp 0 id) = true ∧ (check (ckUp 0 id) c).busy = false ∧ ckValid (ckUp 0 id) c = true ∧
     (ckCrc (ckUp 0 id) c).isSome = true ∧ ckValid (ckUp 7 id) c = false ∧
     (let s := ckUp 0 (fun x => { x with busy := true })
      issues s c.blk = true ∧ (check s c).busy = true ∧ isGoing s c.blk = true ∧ (check s c).waitDep = false ∧
      64 * (check s c).pos < ckLen s c ∧ (memRead s (ckInit s c) (ckStartA s c) 64).rsn = 0) ∧
     (let s := setBlkSt (ckUp 0 (fun x => { x with busy := true })) (.bank 0 0) { run := .stopped, epoch := 0, used := false }
      issues s c.blk = true ∧ (check s c).busy = true ∧ isGoing s c.blk = true ∧ (check s c).waitDep = false ∧
      (memRead s (ckInit s c) (ckStartA s c) 64).rsn ≠ 0) ∧
     (let s := ckUp 0x4000 (fun x => { x with busy := true, pos := 1 })
      (ckLen s c ≤ 64 * (check s c).pos) ∧ ckBit s c 14 = true ∧ isGoing s c.blk = true ∧ ck64 s c Rg.ck.CKEXP = 0 ∧
      crcEnd crc32c (check s c).crc.toNat ≠ 0) ∧
     (let s := ckUp 0x2000 (fun x => { x with busy := true, pos := 1 })
      ckLen s c ≤ 64 * (check s c).pos ∧ ckBit s c 14 = false ∧ isGoing s c.blk = true ∧ ckBit s c 13 = true ∧ isPriv c = false ∧
      cntCheck s (ckInit s c) (ckTile (ckReg s c Rg.ck.CKCNTX)) = 0) ∧
     (∀ v ∈ [0, 1], let s := wreg (c.blk.key + Rg.ck.CKDVAL) v (ckUp 0x1000 (fun x => { x with busy := true, waitDep := true }))
      let w := ckReg s c Rg.ck.CKDEP
      (check s c).waitDep = true ∧ (check s c).pollAt.toNat ≤ now s ∧ isGoing s c.blk = true ∧ issues s c.blk = true ∧
      cntRead s (ckInit s c) (ckTile w) (ckCnt w) = some (0, 0)) ∧
     (let s := wreg (Blk.key (.row 0) + Rg.hdr.BLKPART) 1 (ckUp 0x1000 (fun x => { x with busy := true, waitDep := true }))
      let w := ckReg s c Rg.ck.CKDEP
      (check s c).waitDep = true ∧ issues s c.blk = true ∧ isGoing s c.blk = true ∧
      (cntRead s (ckInit s c) (ckTile w) (ckCnt w)).map (fun p => decide (p.1 ≠ 0)) = some true) ∧
     (4 : BitVec 8) ≠ 0) := by decide +kernel

/-! ### The link -/

/-- Port 0 and its lane group in service, at 100 s. -/
def ptUp (f : Port → Port) : State := updPort (later (setUsed (blkIn (.port 0) .going (blkIn (.lanes 0) .going up)) (.port 0) true)) 0 f

/-- The link up. -/
def upPt (f : Port → Port) : State := ptUp (fun x => f { x with ls := .up })

def tf (n : Nat) : TFrame := { frame0 with seq := BitVec.ofNat 16 n, sent := true }

def goodAlign : OsLanes := (List.range 16).map (fun i => BitVec.ofNat 24 (i + (255 - i) * 2 ^ 8))

theorem witness_OrderedSetsAct :
    (live (upPt id) (.port 0) = true ∧ linkRuns (port (upPt id) 0) = true ∧ (upPt id |>.ports) ≠ [] ∧
     live (ptUp id) (.port 0) = true ∧ (port (ptUp id) 0).ls ≠ .up) ∧
    (goodAlign.length = 16 ∧ (64 : BitVec 7).toNat ≤ 64 ∧ (List.replicate 16 (0 : BitVec 24)).length = 16 ∧
     List.replicate 16 (0 : BitVec 24) ≠ goodAlign ∧ goodAlign.any (fun v => v != goodAlign.headD 0) = true) ∧
    (let s := upPt (fun x => { x with replay := [tf 1, tf 2] })
     (port s 0).replay = [tf 1] ++ tf 2 :: [] ∧ (tf 2).seq = seqOf 0x0200 ∧ (tf 1).seq ≠ seqOf 0x0200 ∧ (port s 0).replays < 3 ∧
     (port s 0).ackAt.toNat + replayTo s 0 ≤ now s) ∧
    (let s := upPt (fun x => { x with replay := [{ tf 1 with typ := 1 }, { tf 2 with typ := 1 }] })
     ∀ g ∈ (port s 0).replay, g.typ ≠ 0) ∧
    (let s := upPt (fun x => { x with replay := [{ tf 2 with src := .ctx 0 0 .read 0 }] })
     (port s 0).replay = [] ++ { tf 2 with src := .ctx 0 0 .read 0 } :: []) ∧
    (let s := upPt (fun x => { x with replay := [tf 1, tf 2], replays := 3 })
     3 ≤ (port s 0).replays ∧ (port s 0).replay ≠ []) ∧
    (port (upPt id) 0).replay = [] ∧ osSym 0x2 1 < 3 ∧ osSym 0x3 1 = 3 ∧
    (seqOf 0x0200 ≠ 0 ∧ (port (upPt id) 0).lastPause = none ∧ (port (upPt id) 0).paused = none ∧ seqOf 0 = 0 ∧
     (port (upPt (fun x => { x with paused := some (0, 1) })) 0).paused = some (0, 1)) ∧
    ((port (upPt (fun x => { x with rxMist := true })) 0).rxMist = true ∧ (port (upPt id) 0).rxMist = false) := by decide +kernel

/-- A training sequence of lane n: rates, current rate, flags. -/
def tsOf (rates cur flags n : Nat) : List Byte :=
  let b : List Byte := [0, BitVec.ofNat 8 n, BitVec.ofNat 8 rates, BitVec.ofNat 8 cur, BitVec.ofNat 8 flags, 0, 0, 0, 0, 0, 0, 0, 0, 0]
  0 :: b ++ [b.foldl (fun a c => a ^^^ c) 0]
def tsAll (rates cur flags : Nat) : List (List Byte) := (List.range 16).map (tsOf rates cur flags)

theorem witness_BringUpFollowsItsStates :
    (mayTrain (ptUp id) 0 = true ∧ (port (ptUp id) 0).ls = .down ∧ (port (ptUp id) 0).retryAt = none ∧
     live (ptUp id) (.port 0) = true) ∧
    ((port (ptUp (fun x => { x with retryAt := some 5 })) 0).retryAt = some 5 ∧ (5 : BitVec 64).toNat ≤ now (ptUp id) ∧
     now (ptUp id) < (BitVec.ofNat 64 (2 ^ 63)).toNat) ∧
    (∀ l ∈ [LState.train, .retrain, .step, .qualify], let s := ptUp (fun x => { x with ls := l })
     (port s 0).ls = l ∧ (port s 0).startAt.toNat + 100000000 ≤ now s ∧ live s (.port 0) = true ∧ linkRuns (port s 0) = true ∧
     (port s 0).rate = 0 ∧ (port s 0).qualAt.toNat + symNs 0 (2 ^ qualLog s 0) ≤ now s) ∧
    (let s := ptUp (fun x => { x with ls := .qualify, rate := 1, qualAt := BitVec.ofNat 64 (2 ^ 60) })
     ¬ ((port s 0).rate = 0 ∨ (port s 0).settled = true) ∧ now s < (port s 0).qualAt.toNat + symNs 1 (2 ^ qualLog s 0)) ∧
    (∀ f ∈ [0, 1, 2, 4, 5, 8], let l := tsAll 31 0 f
     wellFormed (.ts 0 l 0) = true ∧ (List.range 16).all (fun n => tsSym (l.getD n []) 2 == n) = true ∧ l.all tsSum = true ∧
     l.all (fun x => (List.range 15).all (fun i => i == 0 || i == 2 || tsSym x i == tsSym (l.headD []) i)) = true) ∧
    (let l := List.replicate 16 (tsOf 31 0 0 0)
     wellFormed (.ts 0 l 0) = true ∧ (List.range 16).all (fun n => tsSym (l.getD n []) 2 == n) = false ∧ l.all tsSum = true) ∧
    (let l := List.replicate 16 (zeros 15 ++ [1])
     wellFormed (.ts 0 l 0) = true ∧ l.all tsSum = false) ∧
    (tsSym ((tsAll 0 0 0).headD []) 3 % 32 &&& ownRates (ptUp id) 0 = 0 ∧
     tsSym ((tsAll 31 0 0).headD []) 3 % 32 &&& ownRates (ptUp id) 0 ≠ 0 ∧ tsSym ((tsAll 31 0 2).headD []) 4 % 8 = 0) ∧
    (nbit (tsSym ((tsAll 31 0 2).headD []) 5) 1 = true ∧ nbit (tsSym ((tsAll 31 0 1).headD []) 5) 0 = true ∧
     nbit (tsSym ((tsAll 31 0 5).headD []) 5) 2 = true ∧ nbit (tsSym ((tsAll 31 0 8).headD []) 5) 3 = true) ∧
    (let s := ptUp (fun x => { x with ls := .qualify, selfPass := true })
     (port s 0).selfPass = true ∧ (port s 0).rate = (port s 0).target) := by decide +kernel

def msgTf : TFrame := { frame0 with pay := zeros 64 }

theorem witness_PortsSendPauseAndAbandon :
    (live (upPt id) (.port 0) = true ∧ (port (ptUp id) 0).ls ≠ .up ∧ (port (upPt id) 0).ls = .up ∧
     (port (upPt id) 0).txMist = false ∧ (port (upPt id) 0).paused = none ∧ nextFrame (port (upPt id) 0) [] (port (upPt id) 0).txq = none) ∧
    (let s := upPt (fun x => { x with replay := [tf 1, { tf 2 with sent := false }] })
     (port s 0).replay.find? (fun f => !f.sent) = some { tf 2 with sent := false }) ∧
    (let s := upPt (fun x => { x with replay := [tf 1], txq := [msgTf], adv := [(2, 2)] })
     (∀ f ∈ (port s 0).replay, f.sent = true) ∧ nextFrame (port s 0) [] (port s 0).txq = some msgTf) ∧
    (let s := wreg (ptKey 0 + Rg.port.PCTL) 0x10 (upPt id)
     regBit s (ptKey 0 + Rg.port.PCTL) 4 = true ∧ (port s 0).txMist = false ∧ (port s 0).txq = [] ∧ (port s 0).replay = [] ∧
     (port s 0).idleAt.toNat + mistIdle s 0 ≤ now s) ∧
    (let s := upPt (fun x => { x with txMist := true, txq := [msgTf] })
     (port s 0).txMist = true ∧ (port s 0).txq ≠ [] ∧ (port s 0).mistAt.toNat + symNs (port s 0).rate 128 ≤ now s) ∧
    (let s := wreg (ptKey 0 + Rg.port.PAUSECFG) 1 <| wreg (ptKey 0 + Rg.port.PCTL) 0x80 (upPt (fun x => { x with autoAt := some 0 }))
     let w := ptReg s 0 Rg.port.PAUSECFG
     (port s 0).autoAt = some 0 ∧ regBit s (ptKey 0 + Rg.port.PCTL) 7 = true ∧ 4096 * bits w 22 16 ≤ (port s 0).rxHeld ∧
     0 + bits w 15 0 * quantum (port s 0) / 2 ≤ now s) ∧
    ((port (upPt (fun x => { x with paused := some (1, 5) })) 0).paused = some (1, 5) ∧ (5 : BitVec 64).toNat ≤ now (upPt id) ∧
     now (upPt id) < (BitVec.ofNat 64 (2 ^ 63)).toNat) ∧
    (reaches op (.port 0) 0 Rg.port.PAUSETX (upPt id) = true ∧ reaches op (.port 0) 0 Rg.port.RXHEAD (upPt id) = true ∧
     (0x10001 : W32).getLsbD 16 = true) ∧
    (let s := upPt (fun x => { x with tags := [(4095, { tag0 with out := true, rqto := 1, src := .ctx 0 0 .read 0 })] })
     let g := tget tag0 (port s 0).tags 4095
     g.out = true ∧ g.at_.toNat + 1000 * g.rqto ≤ now s ∧ g.src = .ctx 0 0 .read 0) ∧
    (let s := upPt (fun x => { x with tags := [(0, { tag0 with held := true, rqto := 1 })] })
     let g := tget tag0 (port s 0).tags 0
     g.held = true ∧ g.at_.toNat + 1000 * g.rqto ≤ now s) := by decide +kernel

/-- A frame: sequence number 0, TYPE, LEN, tag 0, payload, and its CRC. -/
def lf (typ len crc : Nat) : LFrame :=
  { hdr := leBytes 4 (typ * 2 ^ 16) ++ leBytes 4 len ++ zeros 8, pay := if typ = 1 then [] else zeros len, crc := w32 crc }
def lfCrc (f : LFrame) : Nat := crcEnd crc32c (feedNum crc32c.init (f.hdr ++ f.pay))

/-- A receive ring at the start of scratch with n buffers handed over, the first of 256 bytes. -/
def rxRing (cfg n : Nat) : State :=
  wreg (ptKey 0 + Rg.port.RXHEAD) n (wreg (ptKey 0 + Rg.port.RXCFG) cfg
    (wreg (ptKey 0 + Rg.port.RXBASEH) 0x100 { bankOn (upPt id) with scr := [(1, 1), (5, 1)] }))

/-- What a message of LEN n fills. -/
def rxFill (n : Nat) (f : LFrame) (s : State) : List Filled × Bool × State :=
  let v := freeCred 0 2 ((32 + f.pay.length + 63) / 64) (taken 0 f s)
  fillBufs 0 16 (rxTail v 0 % rxSize v 0) 16
    (leBytes 4 n ++ leBytes 4 (leNat (f.hdr.take 2)) ++ (f.hdr.drop 8).take 4 ++ leBytes 4 0 ++ f.pay.take n) v

/-- The frames below carry the CRC their receiver expects. -/
theorem lf_crc : (lfCrc (lf 0 0 0x42709aea) = 0x42709aea ∧ lfCrc (lf 1 64 0x72d0afe0) = 0x72d0afe0 ∧
    lfCrc (lf 2 64 0xbe28bbdd) = 0xbe28bbdd ∧ lfCrc (lf 3 0 0xbe796520) = 0xbe796520 ∧ lfCrc (lf 4 0 0x1781b903) = 0x1781b903 ∧
    lfCrc (lf 5 0 1132915781) = 1132915781 ∧ lfCrc (lf 0 256 4252690556) = 4252690556) := by decide +kernel

def good7 : List LFrame :=
  [lf 0 0 0x42709aea, lf 1 64 0x72d0afe0, lf 2 64 0xbe28bbdd, lf 3 0 0xbe796520, lf 4 0 0x1781b903, lf 5 0 1132915781,
   lf 0 256 4252690556]

theorem witness_FramesAreCheckedAndServed :
    (∀ f ∈ good7, f.wf = true ∧ crcOf crc32c (f.hdr ++ f.pay) = f.crc.toNat ∧ BitVec.ofNat 16 (leNat (f.hdr.take 2)) = 0) ∧
    (live (upPt id) (.port 0) = true ∧ (port (upPt id) 0).ls = .up ∧ (port (ptUp id) 0).ls ≠ .up ∧ (port (upPt id) 0).rxSeq = 0 ∧
     (port (upPt id) 0).nakFor = none) ∧
    ((lf 0 0 0).wf = true ∧ crcOf crc32c ((lf 0 0 0).hdr ++ (lf 0 0 0).pay) ≠ (lf 0 0 0).crc.toNat) ∧
    ((0 - (port (upPt (fun x => { x with rxSeq := 1 })) 0).rxSeq).toNat = 0xFFFF ∧
     (0 - (port (upPt (fun x => { x with rxSeq := 0xFFFF })) 0).rxSeq).toNat = 1) ∧
    (badHeader (lf 5 0 1132915781).hdr (lf 5 0 1132915781).pay = true ∧
     ∀ f ∈ good7.take 5 ++ good7.drop 6, badHeader f.hdr f.pay = false) ∧
    (isStopped (blkIn (.port 0) .stopped (upPt id)) (.port 0) = true ∧ isStopped (upPt id) (.port 0) = false ∧
     rxEn (upPt id) 0 = false ∧ rxEn (rxRing 0x41 1) 0 = true) ∧
    (rxFill 0 (lf 0 0 0x42709aea) (rxRing 0x41 0)).1 = [] ∧
    (let b := rxFill 0 (lf 0 0 0x42709aea) (rxRing 0x41 1)
     let z := returnBufs 0 0 false true b.1 b.2.2
     b.1 ≠ [] ∧ b.2.1 = true ∧ z.1 = true ∧ regBit z.2 (ptKey 0 + Rg.port.RXCFG) 1 = false) ∧
    (let b := rxFill 256 (lf 0 256 4252690556) (rxRing 0x41 1)
     b.1 ≠ [] ∧ b.2.1 = false) ∧
    (let s := wreg (ptKey 0 + Rg.port.PCTL) 0x40 (upPt id)
     regBit s (ptKey 0 + Rg.port.PCTL) 6 = true ∧ isStopped s (.port 0) = false ∧ issues s (.port 0) = true ∧
     (port s 0).serves = [] ∧ regBit (upPt id) (ptKey 0 + Rg.port.PCTL) 6 = false ∧
     isStopped (blkIn (.port 0) .stopped s) (.port 0) = true) ∧
    (let s := upPt (fun x => { x with tags := [(0, { tag0 with out := true, src := .ctx 0 0 .read 0 })] })
     let g := tget tag0 (port s 0).tags 0
     g.out = true ∧ g.epoch = 0 ∧ g.src = .ctx 0 0 .read 0 ∧ (tget tag0 (port (upPt id) 0).tags 0).out = false) := by
  have hc : ∀ f ∈ good7, lfCrc f = f.crc.toNat := by
    have h := lf_crc
    intro f hf
    simp only [good7, List.mem_cons, List.not_mem_nil, or_false] at hf
    rcases hf with rfl | rfl | rfl | rfl | rfl | rfl | rfl
    · exact h.1
    · exact h.2.1
    · exact h.2.2.1
    · exact h.2.2.2.1
    · exact h.2.2.2.2.1
    · exact h.2.2.2.2.2.1
    · exact h.2.2.2.2.2.2
  have hn : ∀ f : LFrame, crcOf crc32c (f.hdr ++ f.pay) = lfCrc f := fun f => by rw [crcOf, lfCrc, feedNum_eq]
  have hw : ∀ f ∈ good7, f.wf = true ∧ BitVec.ofNat 16 (leNat (f.hdr.take 2)) = 0 := by decide +kernel
  refine ⟨fun f hf => ⟨(hw f hf).1, (hn f).trans (hc f hf), (hw f hf).2⟩, by decide +kernel, ⟨by decide +kernel, ?_⟩, by decide +kernel,
    by decide +kernel, by decide +kernel, by decide +kernel, by decide +kernel, by decide +kernel, by decide +kernel, by decide +kernel⟩
  rw [hn]; decide +kernel

/-! ### Start-up, supplies, broadcasts, domains, power -/

/-- A firmware image of 64 zero bytes, signed with private key 1 and nonce 2. -/
def fw : List Byte :=
  leBytes 4 0x57465A42 ++ [1, 0, 0, 0] ++ leBytes 4 64 ++ zeros 4 ++ [2] ++ zeros 15 ++
  beBytes 48 0xaa87ca22be8b05378eb1c71ef320ad746e1d3b628ba79b9859f741e082542a385502f25dbf55296c3a545e3872760ab7 ++
  beBytes 48 0x3617de4a96262c6f5d9e98bf9292dc29f8f41dbd289a147ce9da3113b5f0b8c00a60b1ce1d7e819d7a431d7c90ea0e5f ++
  beBytes 48 0xc516aa8d3b457c636c6826937099c0d23a13f2c3701a388b3c8fe4bc2073281b0c4462610369884c4ababa8e97b6debe ++
  zeros 1488 ++ beBytes 48 0x8d999057ba3d2d969260045c55b97f089025959a6f434d651d207d19fb96e9e4fe0e86ebe0e64f85b96a9c75295df61 ++
  beBytes 48 0x1f200f26472682bad62182a4b127d6a86ac9394785a58c6d324a3b7db3cf72636de4b8fed875c25f8eae91676e4fd65 ++ zeros 352

def booting : State := { inMst .boot with fuses := (secUp true []).fuses }

theorem fw_ok : (romImage booting fw []).1 = true := by decide +kernel

theorem witness_StartUpBootsAndCompares :
    (booting.power.mst = .boot ∧ booting.bootMem = [] ∧ (romImage booting fw booting.bootMem).1 = true ∧
     (romImage booting [] booting.bootMem).1 = false ∧ (romImage booting fw (romImage booting [] booting.bootMem).2).1 = true ∧
     (romImage booting [] (romImage booting [] booting.bootMem).2).1 = false) ∧
    up.power.mst ≠ .boot ∧ up.power.mst ≠ .init ∧ (inMst .init).power.mst = .init ∧
    (∀ m ∈ [MState.ready, .mismatch, .init], reaches op .ptm 0 Rg.ptm.MODCMD (inMst m) = true) ∧
    ((0xD1E50002 : W32).getLsbD 1 = true ∧ bits (0xD1E50002 : W32) 31 16 = 0xD1E5 ∧ bits (2 : W32) 31 16 ≠ 0xD1E5) ∧
    (up.power.mst ≠ .reset ∧ up.power.mst ≠ .boot) ∧ State.reset.power.mst = .reset := by
  refine ⟨⟨rfl, rfl, fw_ok, by decide +kernel, ?_, by decide +kernel⟩, by decide +kernel⟩
  rw [show (romImage booting [] booting.bootMem).2 = [] by decide +kernel]; exact fw_ok

theorem witness_SuppliesAndResetPins :
    (up.pins.p48 = true ∧ up.pins.vsb = true ∧ up.pins.mrstLow = false) ∧
    (let s : State := { up with pins := { up.pins with p48 := false } }
     s.pins.p48 = false) ∧
    State.reset.pins.mrstLow = true := by decide +kernel

/-- The broadcaster at work on tiles of a mask. -/
def ocUp (mask : Nat) (f : Ocast → Ocast) : State :=
  let s := wreg (Blk.key .ocast + Rg.ocast.OCMASK) mask up
  { s with ocast := f s.ocast }

theorem witness_BroadcastsAndEpochs :
    (reaches op .ocast 0 Rg.ocast.OCCMD up = true ∧ up.ocast.busy = false ∧ up.ocast.epBusy = false ∧
     (let s := ocUp 0 (fun o => { o with busy := true, epBusy := true })
      reaches op .ocast 0 Rg.ocast.OCCMD s = true ∧ s.ocast.busy = true ∧ s.ocast.epBusy = true)) ∧
    (let s := wreg (Blk.key .ocast + Rg.ocast.EPVAL) 0x101 up
     bits (ocReg s Rg.ocast.EPVAL) 7 0 ≠ bits (ocReg s Rg.ocast.EPAPPLIED) 7 0 ∧
     bits (ocReg up Rg.ocast.EPVAL) 7 0 = bits (ocReg up Rg.ocast.EPAPPLIED) 7 0 ∧ modeUnits up ≠ [] ∧ modeUnits off = [] ∧
     ModeUnit.row 0 ∈ modeUnits up ∧ tileOn up 63 = true) ∧
    (let s := ocUp 1 (fun o => { o with busy := true })
     s.ocast.busy = true ∧ s.ocast.srcErr = false ∧ (0 : Fin 64) ∈ ocTiles s ∧ (recvOf s 0).fin = false ∧ (recvOf s 0).failed = false ∧
     ocTakes s 0 = true) ∧
    (let s := setBlkSt (ocUp 1 (fun o => { o with busy := true })) (.seq 0) { run := .fault, epoch := 0, used := false }
     (0 : Fin 64) ∈ ocTiles s ∧ (recvOf s 0).fin = false ∧ (recvOf s 0).failed = false ∧ ocTakes s 0 = false ∧ ocFailed s 0 = true) ∧
    (let s := ocUp 1 (fun o => { o with busy := true, rx := [(0, { recv0 with fin := true })] })
     (∀ u ∈ ocTiles s, (recvOf s u).fin = true) ∧ (∀ u ∈ ocTiles s, ocFailed s u = false) ∧ s.ocast.srcErr = false ∧
     s.ocast.busy = true) ∧
    (let s := ocUp 1 (fun o => { o with busy := true, srcErr := true })
     s.ocast.busy = true ∧ s.ocast.srcErr = true ∧ (0 : Fin 64) ∈ ocTiles s) := by decide +kernel

theorem witness_BroadcastsAndEpochs_applying :
    (∀ u ∈ [ModeUnit.row 0, .vec 0, .nve 0 0],
     let s := wreg (u.blk.key + Rg.hdr.BLKCTL) 0x100 up
     let s2 : State := { wreg (Blk.key .ocast + Rg.ocast.EPVAL) 0x1 s with ocast := { up.ocast with epBusy := true } }
     live s u.blk = true ∧ reqEpoch s u.blk ≠ (blkSt s u.blk).epoch ∧ idleBoundary s u = true ∧ s.ocast.epBusy = false ∧
     live s2 u.blk = true ∧ reqEpoch s2 u.blk ≠ (blkSt s2 u.blk).epoch ∧ idleBoundary s2 u = true ∧
     (reqEpoch s2 u.blk).toNat = bits (ocReg s2 Rg.ocast.EPVAL) 7 0) ∧
    (let s := later (ocUp 0 (fun o => { o with epBusy := true, epUnits := [.row 0] }))
     s.ocast.epBusy = true ∧ s.ocast.epAt.toNat + 1000000 ≤ now s ∧ s.ocast.epUnits = [.row 0]) := by decide +kernel

/-- Domain 0 off, the others on. -/
def off0 : State := pw (fun p => { p with on := BitVec.ofNat 95 (2 ^ 95 - 2) }) up

theorem witness_DiesAndDomainsAreResetAndSwitched :
    (reaches op .ptm 0 Rg.ptm.RSTREQ up = true ∧ (0x100 : W32).getLsbD 8 = true ∧ dieKind (bits (0x167 : W32) 6 0) = .zenith ∧
     dieKind (bits (0x100 : W32) 6 0) = .anvil ∧ resetting up ((dieBlks 0).headD .ptm) = false ∧ dieDrained up 0 = true ∧
     live up (.row 0) = true) ∧
    (let s : State := { up with net := { up.net with outst := [(.cpu (.tile 0), 0)] } }
     dieDrained s 0 = false ∧ reaches op .ptm 0 Rg.ptm.RSTREQ s = true ∧ resetting s ((dieBlks 0).headD .ptm) = false) ∧
    (∀ k ∈ [0, 128], let s := later (pw (fun p => { p with inReset := [(k, 0)] }) up)
     s.power.inReset.find? (fun e => e.1 == k) = some (k, 0) ∧ 0 + 1000000 ≤ now s ∧ ¬ (0 + 1000000 ≤ now up)) ∧
    (reaches op .ptm 0 Rg.ptm.PDREQ up = true ∧ pdBusy up = false ∧ (94 : BitVec 7).toNat = 94 ∧ 94 < (95 : BitVec 7).toNat ∧
     (∀ on ∈ [true, false], pdForbids up 0 on = false ∧ pdForbids off0 0 on = false) ∧ domOn up 0 = true ∧ domOn off0 0 = false ∧
     off0.power.waking.getLsbD 0 = false ∧ reaches op .ptm 0 Rg.ptm.PDREQ off0 = true) ∧
    (pdForbids badTile 0 true = true ∧ pdForbids up 91 false = true ∧ pdBusy badTile = false ∧
     reaches op .ptm 0 Rg.ptm.PDREQ badTile = true) ∧
    pdBusy (pw (fun p => { p with pd := some (0, 0) }) up) = true ∧
    (let s := pw (fun p => { p with waking := 1, pd := some (0, 0) }) off
     s.power.waking.getLsbD 0 = true ∧ s.power.pd = some (0, 0)) := by decide +kernel

theorem witness_PowerIsCappedAndTemperaturesAct :
    (reaches op .ptm 0 (Rg.ptm.FABALLOC + 4 * 15) up = true ∧ bits (3126 : W32) 15 0 = 3126 ∧ bits (3125 : W32) 15 0 = 3125 ∧
     ∀ i ∈ [12, 13, 14], bits (reg up (ptmKey + Rg.ptm.FABALLOC + 4 * i)) 15 0 = 3125) ∧
    (let s := pw (fun p => { p with overP := true }) up
     s.power.stepAt = 0 ∧ s.power.overP = true ∧ (rails s false).filter (fun i => decide (vminOf s < railMv s i)) ≠ [] ∧
     1 < s.power.lvlcap) ∧
    (let s := (List.range 12).foldl (fun s i => setRail s i 600) (wreg (ptmKey + Rg.ptm.VMIN) 600 (pw (fun p => { p with overP := true }) up))
     (rails s false).filter (fun i => decide (vminOf s < railMv s i)) = [] ∧ 1 < s.power.lvlcap ∧ s.power.overP = true) ∧
    (let s := (List.range 11).foldl (fun s i => setRail s (i + 1) 600) (wreg (ptmKey + Rg.ptm.VMIN) 600
       (wreg (Blk.key (.ptab 0) + Rg.ptab.PTMODE) 1 (pw (fun p => { p with overP := true, lvlcap := 1 }) up)))
     (rails s false).filter (fun i => decide (vminOf s < railMv s i)) = [] ∧ s.power.lvlcap ≤ 1 ∧ s.power.overP = true ∧
     (rails s true).filter (fun i => decide (vminOf s < railMv s i)) = [0] ∧ s.power.fsrail = false) ∧
    (let s := later (pw (fun p => { p with stepAt := 99999999999 }) up)
     s.power.stepAt ≠ 0 ∧ now s < s.power.stepAt.toNat + 10000) ∧
    ((pw (fun p => { p with low := true, fsrail := true }) up).power.overP = false ∧ hot105 up = false ∧
     (pw (fun p => { p with low := true, lvlcap := 7 }) up).power.fsrail = false ∧ up.power.lvlcap = 8) ∧
    ((List.replicate 104 25).length = 104 ∧ up.power.mst ≠ .thermal ∧
     (∀ d < 104, ¬ (110 < (List.replicate 104 25).getD d 0)) ∧
     (let s := pw (fun p => { p with over110 := [(103, true)] }) up
      110 < (List.replicate 103 25 ++ [111]).getD 103 0 ∧ tget false s.power.over110 103 = true)) := by decide +kernel

/-! ### Host, events, management, JTAG -/

def pf0 : PFn := { e := 0, f := 0 }
def vf1 : PFn := { e := 0, f := 1 }

/-- Endpoint 0's link up with n virtual functions. -/
def pcUp (n : Nat) (s : State) : State := setEpstat s 0 (1 + 2 * 5 + 16 * 16 + n * 2 ^ 16)

theorem witness_HostAccessesAreServed :
    (pcieUp (pcUp 0 up) 0 = true ∧ pcieUp up 0 = false ∧
     (pcUp 0 up).net.outst.any (fun o => match o.1 with | .posted g _ _ => g == pf0 | _ => false) = false) ∧
    (let w := bump (pcUp 0 up) (epKey 0 + Rg.pcie.INREQ)
     barAt w pf0 0 0x100000 = .none ∧ barAt w pf0 0 0xFFFFC = .regs 0xFFFFC ∧ fnForm 0xFFFFC 4 = true ∧ fnForm 0xFFFFC 3 = false ∧
     barAt w pf0 2 0x7FFFFFFF = .addr 0x2007FFFFFFF ∧ blocksOf 0x2007FFFFFFC 4 = [(0x2007FFFFFFC, 4)]) ∧
    (let r : HRead := { f := pf0, id := 7, addr := 0, parts := [(0, none)], bad := none, behind := 0, at_ := 0 }
     let s := later { pcUp 0 up with host := { up.host with reads := [r] } }
     s.host.reads.find? (fun r => r.f == pf0 && r.id == 7) = some r ∧ r.at_.toNat + 40000000 ≤ now s ∧ readIn r = false ∧
     ∀ r ∈ s.host.reads, ¬ (r.f = pf0 ∧ r.id = 8)) := by decide +kernel

theorem witness_LinksAndFunctions :
    (up.power.mst ≠ .reset ∧ (6 : BitVec 3) ≠ 0 ∧ (6 : BitVec 3) ≠ 7) ∧
    (pcieUp (pcUp 1 up) 0 = true ∧ pcieUp up 0 = false ∧ fnThere (pcUp 1 up) vf1 = true ∧ fnThere up vf1 = false ∧
     numVf (pcUp 1 up) 0 = 1) ∧
    (let s := pcUp 1 up
     reaches op (.pcie 0) 0 Rg.pcie.VFPART s = true ∧ reaches op (.pcie 0) 0 Rg.pcie.VFPART up = true ∧
     tget false s.host.flrDone vf1.num = false) ∧
    (let s : State := { pcUp 1 up with host := { up.host with flrDone := [(vf1.num, true)] } }
     fnThere s vf1 = true ∧ tget false s.host.flrDone vf1.num = true ∧ fnQuiet s vf1 = true ∧
     regBit s (vf1.key + Rg.fn.CRCFG) 0 = false ∧ reaches op (.pcie 0) 0 Rg.pcie.VFPART s = true) := by decide +kernel

/-- Function 0's copy ring with a descriptor handed over. -/
def crUp (s : State) : State := setFn (setFn (pcUp 0 s) pf0 Rg.fn.CRCFG 0x41) pf0 Rg.fn.CRHEAD 1

/-- Doorbell 0, routed to function 0, is pending. -/
def evOne (s : State) : State := wreg (pendKey (0x680 / 32)) 1 (wreg (srcKey 0x680) 0x10400 s)

/-- A descriptor that moves 64 bytes: word 3 with the address's high half, 64 bytes of scratch. -/
def crDesc (w3 : Nat) : List Byte := zeros 12 ++ leBytes 4 w3 ++ leBytes 4 64 ++ zeros 12

theorem witness_CopyRingAndFunctionRegisters :
    (pcieUp (pcUp 0 up) pf0.e = true ∧ fnThere (pcUp 0 up) pf0 = true ∧ pcieUp up 0 = false ∧
     pcieUp (pcUp 0 up) vf1.e = true ∧ fnThere (pcUp 0 up) vf1 = false) ∧
    ((1 : W32).getLsbD 0 = true ∧ shownPending (setFn (pcUp 0 up) pf0 Rg.fn.ARMIDLE (1 &&& 1)) (4 + pf0.num) = false ∧
     shownPending (setFn (evOne (pcUp 0 up)) pf0 Rg.fn.ARMIDLE (1 &&& 1)) (4 + pf0.num) = true ∧
     (let s := pcUp 0 up
      regBit (setFn s pf0 Rg.fn.MSIXPBA 1) (pf0.key + Rg.fn.MSIXPBA) 0 = true)) ∧
    (copyWf (crDesc 0x100) (zeros 64) none = true ∧ copyWf (crDesc 0x100) [] (some 0x80) = true ∧ copyWf (crDesc 0x10100) [] none = true) ∧
    (let s := crUp scrUp
     crReady s pf0 = true ∧ crReady (pcUp 0 up) pf0 = false ∧ descOk (crDesc 0x100) = true ∧ descOk (crDesc 0x10100) = true ∧
     nbit 0x10100 16 = true ∧ nbit 0x100 16 = false ∧
     (crMove (fnInit s pf0) .write (blocksOf (2 ^ 40) 64) (zeros 64) [] s).rsn = 0 ∧
     (crMove (fnInit s pf0) .read (blocksOf (2 ^ 40) 64) [] [] s).rsn = 0) ∧
    (let s := crUp { scrUp with power := { up.power with on := BitVec.allOnes 95 &&& ~~~ 1 } }
     crReady s pf0 = true ∧ descOk (crDesc 0x20100) = true ∧ nbit 0x20100 17 = true ∧ cntCheck s (fnInit s pf0) 0 ≠ 0 ∧
     cntCheck (crUp scrUp) (fnInit (crUp scrUp) pf0) 0 = 0 ∧
     (crMove (fnInit s pf0) .write (blocksOf (2 ^ 40) 64) (zeros 64) [] s).rsn = 0) ∧
    (let s := crUp off
     crReady s pf0 = true ∧ (crMove (fnInit s pf0) .read (blocksOf (2 ^ 40) 64) [] [] s).rsn ≠ 0) := by decide +kernel

theorem witness_EventsAreSampledAndNotified :
    (let s : State := { pcUp 0 up with conc := { up.conc with new := 0x11 } }
     s.conc.new.getLsbD 0 = true ∧ modPassed s 0 = true ∧ s.conc.new.getLsbD 4 = true ∧ modPassed s 4 = true ∧
     s.conc.new.getLsbD 37 = false ∧ 4 + pf0.num = 4) ∧
    (let s : State := wreg (srcKey 0x680) 0x10400 { pcUp 0 up with conc := { up.conc with pulse := [(0x680, true)] } }
     senseHit (bits (reg s (srcKey 0x680)) 1 0) (tget false s.conc.prev 0x680) (srcIn s 0x680 && !srcDead 0x680) = true ∧
     srcPend s 0x680 = false ∧ inView s 4 0x680 = true) ∧
    (reaches op .conc 5 (0x700 + 4 * b2n false) up = true ∧ reaches op .conc 5 (0x700 + 4 * b2n true) up = true) := by
  decide +kernel

theorem witness_ManagementCommandsAnswer :
    (State.reset.power.mst = .reset ∧ up.power.mst ≠ .reset ∧ (inMst .boot).power.mst = .boot) ∧
    (reaches coreInit .ptm 0 Rg.ptm.PCAP up = true ∧ ordCap up.fuses.fpr ≥ 500 ∧ bits (500 : W32) 12 0 = 500 ∧ bits (499 : W32) 12 0 = 499) ∧
    reaches coreInit .ptm 0 Rg.ptm.MODCMD up = true ∧ regBlk (0 : Addr).toNat = none ∧
    (let a : Nat := 2 * 2 ^ 40 + Blk.key .ptm + Rg.hdr.EVENA
     regBlk (BitVec.ofNat 48 a).toNat = some (.ptm, 0) ∧ (BitVec.ofNat 48 a).toNat % 4 = 0 ∧
     regCheck up coreInit .ptm 0 ((BitVec.ofNat 48 a).toNat % 0x1000) false = some 0 ∧
     reaches coreInit .ptm 0 ((BitVec.ofNat 48 a).toNat % 0x1000) up = true ∧ (BitVec.ofNat 48 a).toNat % 0x1000 = Rg.hdr.EVENA) := by
  decide +kernel

theorem witness_JtagInstructionsSelectRegisters :
    up.pins.p48 = true ∧ up.power.mst = .ready ∧ (inMst .boot).pins.p48 = true ∧ (inMst .boot).power.mst ≠ .ready ∧
    State.reset.pins.p48 = true ∧ (pw id { up with pins := { up.pins with p48 := false } }).pins.p48 = false := by decide +kernel

end Sys2Proof.Tests
end

section
/-! SUPPORT. Register accesses as commands: the block at a register's address, what the shared forms of a command leave as it
    was, and what a register write comes to that its initiator may make (R6, R36, R417, R418, R422). -/

open Sys2Proof.Says

namespace Sys2Proof.Machine

/-! ### The pages of a block (R36, R37) -/

theorem blkOfKey_pageKey_add {d n o : Nat} (hn : n < 2 ^ 12) (ho : o < 2 ^ 12) :
    blkOfKey (pageKey d n + o) = blkAt d n := by
  unfold blkOfKey pageKey
  congr 1 <;> omega

theorem blkAt_row_page : ∀ (t : Fin 64) (p : Fin 8), blkAt (Blk.die (.row t)) (Blk.page (.row t) + p) = some (.row t, p.val) := by
  decide
theorem blkAt_seq_page : ∀ (t : Fin 64) (p : Fin 4), blkAt (Blk.die (.seq t)) (Blk.page (.seq t) + p) = some (.seq t, p.val) := by
  decide
theorem blkAt_seng_page : ∀ (k : Fin 8) (p : Fin 64),
    blkAt (Blk.die (.seng k)) (Blk.page (.seng k) + p) = some (.seng k, p.val) := by decide
theorem blkAt_conc_page : ∀ p : Fin 32, blkAt (Blk.die .conc) (Blk.page .conc + p) = some (.conc, p.val) := by decide
theorem blkAt_ptab_page : ∀ (d : Fin 104) (p : Fin 4), (Blk.ptab d).wf = true → blkAt d (0x10 + p) = some (.ptab d, p.val) := by
  decide

theorem Blk_die_lt (b : Blk) (h : b.wf = true) : b.die < 104 := by
  cases b with
  | probe d r => exact (dieRouters_bound d).2 (by simp only [Blk.wf, decide_eq_true_eq] at h; omega)
  | ptab d => exact (dieRouters_bound d).2 (by simpa [Blk.wf] using h)
  | _ => simp only [Blk.die]; omega

/-- The block and page at a page of a block of the floor plan. -/
theorem blkAt_page (b : Blk) (h : b.wf = true) {p : Nat} (hp : p < b.npages) : blkAt b.die (b.page + p) = some (b, p) := by
  cases b with
  | row t => exact blkAt_row_page t ⟨p, hp⟩
  | seq t => exact blkAt_seq_page t ⟨p, hp⟩
  | seng k => exact blkAt_seng_page k ⟨p, hp⟩
  | conc => exact blkAt_conc_page ⟨p, hp⟩
  | ptab d => exact blkAt_ptab_page ⟨d, Blk_die_lt _ h⟩ ⟨p, hp⟩ h
  | _ =>
    obtain rfl : p = 0 := Nat.lt_one_iff.mp hp
    rw [Nat.add_zero, ← blkOfKey_pageKey _ _ (Blk_page_lt _ h)]
    exact blkOfKey_key _ h

theorem Blk_page_add_lt (b : Blk) (h : b.wf = true) {p : Nat} (hp : p < b.npages) : b.page + p < 2 ^ 12 := by
  have := Blk_page_lt b h
  cases b <;> simp only [Blk.npages, Blk.page] at hp this ⊢ <;> omega

/-- The key of a register names its block and page. -/
theorem blkOfKey_keyP_add (b : Blk) (h : b.wf = true) {p o : Nat} (hp : p < b.npages) (ho : o < 0x1000) :
    blkOfKey (b.keyP p + o) = some (b, p) := by
  rw [Blk.keyP, blkOfKey_pageKey_add (Blk_page_add_lt b h hp) ho, blkAt_page b h hp]

theorem keyP_add_lt (b : Blk) (h : b.wf = true) {p o : Nat} (hp : p < b.npages) (ho : o < 0x1000) : b.keyP p + o < 2 ^ 31 := by
  have h1 := Blk_die_lt b h
  have h2 := Blk_page_add_lt b h hp
  simp only [Blk.keyP, pageKey]
  omega

theorem regAddr_eq (b : Blk) (p o : Nat) : regAddr b p o = 2 * 2 ^ 40 + (b.keyP p + o) := Nat.add_assoc _ _ _

theorem regAddr_mod (b : Blk) (p : Nat) {o : Nat} (ho : o < 0x1000) : regAddr b p o % 0x1000 = o := by
  simp only [regAddr, Blk.keyP, pageKey]
  omega

theorem regOff_add {n : Nat} (h : n < 2 ^ 31) : regOff (2 * 2 ^ 40 + n) = some n := by
  unfold regOff
  rw [if_pos (by omega), Nat.add_sub_cancel_left]

theorem regOff_regAddr (b : Blk) (h : b.wf = true) {p o : Nat} (hp : p < b.npages) (ho : o < 0x1000) :
    regOff (regAddr b p o) = some (b.keyP p + o) := by rw [regAddr_eq, regOff_add (keyP_add_lt b h hp ho)]

/-- The block and page at the address of a register. -/
theorem regBlk_regAddr (b : Blk) (h : b.wf = true) {p o : Nat} (hp : p < b.npages) (ho : o < 0x1000) :
    regBlk (regAddr b p o) = some (b, p) := by
  rw [regBlk, regOff_regAddr b h hp ho, Option.bind_some, blkOfKey_keyP_add b h hp ho]

theorem toNat_regAddr (b : Blk) (h : b.wf = true) {p o : Nat} (hp : p < b.npages) (ho : o < 0x1000) :
    (BitVec.ofNat 48 (regAddr b p o)).toNat = regAddr b p o := by
  have hlt := keyP_add_lt b h hp ho
  rw [BitVec.toNat_ofNat, regAddr_eq, Nat.mod_eq_of_lt (by omega)]

theorem keyP_mod (b : Blk) (p : Nat) : b.keyP p % 0x1000 = 0 := by simp only [Blk.keyP, pageKey]; omega

theorem key_mod (b : Blk) : b.key % 0x1000 = 0 := keyP_mod b 0

theorem mod_of_mem_evKeys {ps : List (Blk × Nat)} {k : Nat} (h : k ∈ evKeys ps) : k % 0x1000 = 0x20 := by
  simp only [evKeys, List.mem_map] at h
  obtain ⟨p, -, rfl⟩ := h
  have := keyP_mod p.1 p.2
  show (_ + 0x20) % 0x1000 = 0x20
  omega

/-- A register at another offset than EVPEND is no pending-event register. -/
theorem not_mem_evKeys (ps : List (Blk × Nat)) {k : Nat} (h : k % 0x1000 ≠ 0x20) : k ∉ evKeys ps :=
  fun hk => h (mod_of_mem_evKeys hk)

/-! ### What a block's being there depends on -/

theorem absent_congr {s t : State} (hf : t.fuses = s.fuses) (ha : t.acc = s.acc) (b : Blk) : absent t b = absent s b := by
  cases b <;> simp only [absent, tileGood, groupBad, regionGood, portGood, hf, ha]

theorem blkOn_congr {s t : State} (hp : t.power = s.power) (b : Blk) : blkOn t b = blkOn s b := by
  simp only [blkOn, domOn, hp]

theorem live_congr {s t : State} (hf : t.fuses = s.fuses) (ha : t.acc = s.acc) (hp : t.power = s.power) (b : Blk) :
    live t b = live s b := by rw [live, live, absent_congr hf ha, blkOn_congr hp]

/-! ### Frames of single updates -/

theorem keepsBut_setReg (s : State) (k : Nat) (v : W32) : KeepsBut [.regs] s (setReg s k v) :=
  ⟨rfl, fun p hp => by cases p <;> simp_all [Part.Same]⟩

theorem keepsBut_bump (s : State) (k n : Nat) : KeepsBut [.regs] s (bump s k n) := keepsBut_setReg s k _

theorem keepsBut_pulse (s : State) (k n : Nat) : KeepsBut [.regs] s (pulse s k n) := keepsBut_setReg s _ _

theorem keepsBut_dropRegs (s : State) (p : Nat → Bool) : KeepsBut [.regs] s (dropRegs s p) :=
  ⟨rfl, fun p hp => by cases p <;> simp_all [Part.Same]⟩

theorem keepsBut_logE (s : State) (k : Nat) (a b c d : W32) : KeepsBut [.regs, .logs] s (logE s k a b c d) :=
  ⟨rfl, fun p hp => by cases p <;> simp_all [Part.Same]⟩

theorem keepsBut_respErr (s : State) (d : Nat) (r : BitVec 8) : KeepsBut [.regs] s (respErr s d r) := by
  unfold respErr
  split
  · exact keepsBut_refl _ _
  · exact keepsBut_bump _ _ _

theorem regsBut_mono {ks ls : List Nat} {s t : State} (h : RegsBut ks s t) (hs : ∀ k ∈ ks, k ∈ ls) : RegsBut ls s t :=
  fun k hk => h k (fun hk' => hk (hs k hk'))

theorem regsBut_trans {ks : List Nat} {s t u : State} (h1 : RegsBut ks s t) (h2 : RegsBut ks t u) : RegsBut ks s u :=
  fun k hk => (h2 k hk).trans (h1 k hk)

theorem regsBut_setReg (s : State) (k : Nat) (v : W32) : RegsBut [k] s (setReg s k v) :=
  fun i hi => reg_setReg_ne s v (by simpa using hi)

/-! ### Commands that keep fuses and timebase answer what their change gives -/

theorem actTo_of_keeps {ps : List Part} {f : State → State} {s : State} (h : KeepsBut ps s (f s)) (hf : Part.fuses ∉ ps)
    (hc : Part.clock ∉ ps) : actTo f s = f s := by
  have h1 : (f s).pending = s.pending := h.1
  have h2 : (f s).fuses = s.fuses := h.2 .fuses hf
  have h3 : (f s).clock = s.clock := h.2 .clock hc
  rw [actTo, ← h1, ← h2, ← h3]

theorem act_of_keeps {ps : List Part} {f : State → State} {s : State} (h : KeepsBut ps s (f s)) (hf : Part.fuses ∉ ps)
    (hc : Part.clock ∉ ps) : act f s = .next (f s) := by rw [act_next, actTo_of_keeps h hf hc]

theorem act_eq_of_keeps {ps : List Part} {f : State → State} {s t : State} (h : f s = t) (hk : KeepsBut ps s t)
    (hf : Part.fuses ∉ ps) (hc : Part.clock ∉ ps) : act f s = .next t := by
  subst h
  exact act_of_keeps hk hf hc

theorem actKeys_of_keeps {ps : List Part} {f : State → State} {s : State} (h : KeepsBut ps s (f s)) (hf : Part.fuses ∉ ps)
    (hc : Part.clock ∉ ps) : actKeys f s = .next (f s) := by
  have h1 : (f s).pending = s.pending := h.1
  have h2 : (f s).fuses = s.fuses := h.2 .fuses hf
  have h3 : (f s).clock = s.clock := h.2 .clock hc
  have h4 : keepFuses s.fuses (f s).fuses = (f s).fuses := by simp [keepFuses, h2]
  rw [actKeys, h4, ← h1, ← h3]

theorem keepsBut_watched_of {ps : List Part} (pages : List (Blk × Nat)) {f : State → State} {s : State}
    (h : KeepsBut ps s (f s)) (hr : Part.regs ∈ ps) : KeepsBut ps s (watched pages f s) :=
  keepsBut_trans h (keepsBut_mono (keepsBut_watched pages f s) (by simpa using hr))

theorem regsBut_watched_of {ks : List Nat} (pages : List (Blk × Nat)) {f : State → State} {s : State}
    (h : RegsBut ks s (f s)) : RegsBut (ks ++ evKeys pages) s (watched pages f s) :=
  regsBut_trans (regsBut_mono h (by simp +contextual)) (regsBut_mono (regsBut_watched pages f s) (by simp +contextual))

/-- Latching events leaves every register but an EVPEND as the change left it. -/
theorem reg_watched_off (pages : List (Blk × Nat)) (f : State → State) (s : State) {k : Nat} (h : k % 0x1000 ≠ 0x20) :
    reg (watched pages f s) k = reg (f s) k := reg_watched _ _ _ _ (not_mem_evKeys pages h)

/-! ### A region's log carries the requester (R362) -/

theorem logRequester_eq (who : Init) (b : Blk) (f : State → State) (s : State) :
    logRequester who b f s = { f s with logs := (logRequester who b f s).logs } := by
  unfold logRequester
  split
  · dsimp only; split <;> rfl
  · rfl

theorem keepsBut_logRequester (who : Init) (b : Blk) (f : State → State) (s : State) :
    KeepsBut [.logs] (f s) (logRequester who b f s) := by
  rw [logRequester_eq]
  exact ⟨rfl, fun p hp => by cases p <;> simp_all [Part.Same]⟩

theorem reg_logRequester (who : Init) (b : Blk) (f : State → State) (s : State) (k : Nat) :
    reg (logRequester who b f s) k = reg (f s) k := by rw [logRequester_eq]; rfl

/-- A change that logs nothing leaves no entry for the requester to be put into. -/
theorem logRequester_of_no_log (who : Init) (b : Blk) (f : State → State) (s : State)
    (h : (f (clearLog s b.key)).logs = (clearLog s b.key).logs) : logRequester who b f s = f s := by
  have h0 : logOf (f (clearLog s b.key)) b.key = [] := by
    unfold logOf; rw [h]; exact tget_tset_same [] s.logs b.key []
  unfold logRequester
  split
  · simp only [h0, List.length_nil, if_true]
  · rfl

theorem logOf_logRequester_ne (who : Init) (b : Blk) (f : State → State) (s : State) {k : Nat} (h : k ≠ b.key) :
    logOf (logRequester who b f s) k = logOf (f s) k := by
  unfold logRequester
  split
  · dsimp only; split
    · rfl
    · simp only [logOf]; exact tget_tset_ne _ _ _ h
  · rfl

/-! ### A register write of an initiator -/

section
variable {who : Init} {b : Blk} {page off : Nat} {s : State}

theorem regGate_aligned (src : Src) {a : Nat} (val : Option W32) (f : Blk → Nat → State → State) (h : regBlk a = some (b, page))
    (ha : a % 4 = 0) : regGate src who a val f s = regServe (regPkt s src who b a val) b page (f b page) s := by
  simp only [regGate, h, ha, ne_eq, not_true_eq_false, if_false]

/-- A register access at an aligned address is served at its block. -/
theorem regGate_regAddr (src : Src) (val : Option W32) (f : Blk → Nat → State → State) (hb : b.wf = true)
    (hp : page < b.npages) (ho : off < 0x1000) (ha : off % 4 = 0) :
    regGate src who (regAddr b page off) val f s =
      regServe (regPkt s src who b (regAddr b page off) val) b page (f b page) s := by
  have hm : regAddr b page off % 4 = 0 := by
    rw [← Nat.mod_mod_of_dvd _ (by decide : 4 ∣ 0x1000), regAddr_mod b page ho, ha]
  exact regGate_aligned src val f (regBlk_regAddr b hb hp ho) hm

theorem regPkt_off (src : Src) (val : Option W32) (hb : b.wf = true) (hp : page < b.npages) (ho : off < 0x1000) :
    (regPkt s src who b (regAddr b page off) val).req.addr.toNat % 0x1000 = off := by
  simp only [regPkt, mkReq, toNat_regAddr b hb hp ho]
  exact regAddr_mod b page ho

/-- A write that passes the checks, to a block that is there or not, has its effect at once: nobody waits for its answer. -/
theorem regCmd_passes (v : W32) (hb : b.wf = true) (hp : page < b.npages) (ho : off < 0x1000) (ha : off % 4 = 0)
    (hc : regCheck s who b page off true = some 0) :
    regCmd who (regAddr b page off) v s = regWrite who b page off v s := by
  unfold regCmd
  rw [regGate_regAddr _ _ _ hb hp ho ha, regAddr_mod b page ho]
  unfold regServe
  simp only [regPkt_off _ _ hb hp ho]
  simp [regPkt, mkReq, hc, sendResp]

/-- A write that its initiator may not make is answered PARTITION, which the block's die counts (R418, R422). -/
theorem regCmd_refused (v : W32) (hb : b.wf = true) (hp : page < b.npages) (ho : off < 0x1000) (ha : off % 4 = 0)
    (hm : regMay s who b page off true = false) :
    regCmd who (regAddr b page off) v s = respErr s b.die Rsn.partition := by
  have hc : regCheck s who b page off true = some Rsn.partition := by simp [regCheck, hm]
  unfold regCmd
  rw [regGate_regAddr _ _ _ hb hp ho ha]
  unfold regServe
  simp only [regPkt_off _ _ hb hp ho]
  simp [regPkt, mkReq, hc, sendResp]

/-- A read that is served changes what reading its register changes. -/
theorem regLook_passes (hb : b.wf = true) (hp : page < b.npages) (ho : off < 0x1000) (ha : off % 4 = 0)
    (hc : regCheck s who b page off false = some 0) :
    regLook who (regAddr b page off) s = readEff b page off s := by
  unfold regLook
  rw [regGate_regAddr _ _ _ hb hp ho ha]
  have hw : (Kind.read == Kind.write) = false := rfl
  unfold regServe
  simp only [regPkt_off _ _ hb hp ho]
  simp [regPkt, mkReq, hw, hc, sendResp]

/-- A write that its initiator may make to an ABSENT block is discarded (R6). -/
theorem regCmd_absent (v : W32) (hb : b.wf = true) (hp : page < b.npages) (ho : off < 0x1000) (ha : off % 4 = 0)
    (hm : regMay s who b page off true = true) (hx : absent s b = true) : regCmd who (regAddr b page off) v s = s := by
  rw [regCmd_passes v hb hp ho ha (by simp [regCheck, hm, hx])]
  simp [regWrite, hx]

/-- A write that reaches a register of the header. -/
theorem regWrite_hdr (v : W32) {r : RegRow} {i : Nat} (hx : absent s b = false) (hr : regAt b page off = some (r, i))
    (ho : off < 0x80) :
    regWrite who b page off v s = watched (putPages b page) (logRequester who b (hdrPut b page r.off v)) s := by
  simp [regWrite, hx, hr, ho]

/-- A write that reaches a register of the block's own. -/
theorem regWrite_blk (v : W32) {r : RegRow} {i : Nat} (hx : absent s b = false) (hr : regAt b page off = some (r, i))
    (ho : 0x80 ≤ off) :
    regWrite who b page off v s = watched (putPages b page) (logRequester who b (blkPut b page off r i v)) s := by
  simp [regWrite, hx, hr, Nat.not_lt.mpr ho]

theorem regAt_BLKPART (b : Blk) (page : Nat) : regAt b page Rg.hdr.BLKPART = some (⟨Rg.hdr.BLKPART, 1, 0, .rw, 0xF, 0⟩, 0) := rfl
theorem regAt_BLKCTL (b : Blk) (page : Nat) : regAt b page Rg.hdr.BLKCTL = some (⟨Rg.hdr.BLKCTL, 1, 0, .rw, 0xFF00, 0⟩, 0) := rfl
theorem regAt_EVENA (b : Blk) (page : Nat) : regAt b page Rg.hdr.EVENA = some (⟨Rg.hdr.EVENA, 1, 0, .rw, 0xFFFF, 0⟩, 0) := rfl

theorem hdrPut_EVENA (b : Blk) (page : Nat) (v : W32) (s : State) :
    hdrPut b page Rg.hdr.EVENA v s = setReg s (b.keyP page + Rg.hdr.EVENA) (v &&& 0xFFFF) := rfl

end

end Sys2Proof.Machine
end

section
/-! SUPPORT. Register writes are checked for who makes them, and reads of counters clear them (R6, R16, R418, R422). -/

open Sys2Proof.Says

namespace Sys2Proof.Machine

section
variable {who : Init} {b : Blk} {page off : Nat} {s : State}

theorem exec_registerWrite (v : W32) (hb : b.wf = true) (hp : page < b.npages) (ho : off < 0x1000) :
    exec (.registerWrite who (BitVec.ofNat 48 (regAddr b page off)) v) s = actKeys (regCmd who (regAddr b page off) v) s := by
  show actKeys (regCmd who (BitVec.ofNat 48 (regAddr b page off)).toNat v) s = _
  rw [toNat_regAddr b hb hp ho]

/-- The count of PARTITION answers of a die (R439). -/
def partitionCount (d : Nat) : Nat := Blk.key (.ptab d) + Rg.ptab.RSPERR + 4

theorem respErr_partition (s : State) (die : Nat) :
    respErr s die Rsn.partition =
      if routers (tableDie die) = 0 then s else bump s (partitionCount (tableDie die)) := by
  have h0 : ¬ Rsn.partition = 0 := by decide
  have h10 : ¬ 10 < Rsn.partition.toNat := by decide
  unfold respErr
  simp only [h0, h10, false_or]
  rfl

theorem regsBut_respErr_partition (s : State) (die : Nat) :
    RegsBut [partitionCount (tableDie die)] s (respErr s die Rsn.partition) := by
  rw [respErr_partition]
  split
  · exact fun _ _ => rfl
  · exact regsBut_setReg _ _ _

theorem registerWrite_refused (v : W32) (hb : b.wf = true) (hp : page < b.npages) (ho : off < 0x1000) (ha : off % 4 = 0)
    (hm : regMay s who b page off true = false) :
    exec (.registerWrite who (BitVec.ofNat 48 (regAddr b page off)) v) s = .next (respErr s b.die Rsn.partition) := by
  have h := regCmd_refused v hb hp ho ha hm
  rw [exec_registerWrite v hb hp ho,
    actKeys_of_keeps (ps := [.regs]) (by rw [h]; exact keepsBut_respErr _ _ _) (by decide) (by decide), h]

theorem registerWrite_absent (v : W32) (hb : b.wf = true) (hp : page < b.npages) (ho : off < 0x1000) (ha : off % 4 = 0)
    (hm : regMay s who b page off true = true) (hx : absent s b = true) :
    exec (.registerWrite who (BitVec.ofNat 48 (regAddr b page off)) v) s = .next s := by
  have h := regCmd_absent v hb hp ho ha hm hx
  rw [exec_registerWrite v hb hp ho,
    actKeys_of_keeps (ps := []) (by rw [h]; exact keepsBut_refl _ _) (by decide) (by decide), h]

/-- The state after a write of EVENA: the register's sixteen bits, and the events that are latched with it. -/
def evenaTo (b : Blk) (page : Nat) (v : W32) : State → State :=
  watched (putPages b page) (fun s => setReg s (b.keyP page + Rg.hdr.EVENA) (v &&& 0xFFFF))

theorem regWrite_EVENA (v : W32) (hx : absent s b = false) :
    regWrite who b page Rg.hdr.EVENA v s = evenaTo b page v s := by
  rw [regWrite_hdr v hx (regAt_EVENA b page) (by decide)]
  show watched _ (logRequester who b (hdrPut b page Rg.hdr.EVENA v)) s = _
  unfold evenaTo watched
  rw [logRequester_of_no_log who b _ s rfl, hdrPut_EVENA]

theorem evenaTo_keeps (v : W32) : KeepsBut [.regs] s (evenaTo b page v s) :=
  keepsBut_watched_of _ (keepsBut_setReg _ _ _) (by decide)

theorem reg_evenaTo (v : W32) : reg (evenaTo b page v s) (b.keyP page + Rg.hdr.EVENA) = v &&& 0xFFFF := by
  have hk := keyP_mod b page
  unfold evenaTo
  rw [reg_watched_off _ _ _ (by simp only [Rg.hdr.EVENA]; omega), reg_setReg_same]

theorem registerWrite_EVENA (v : W32) (hb : b.wf = true) (hp : page < b.npages) (hr : Reaches who b page Rg.hdr.EVENA s) :
    exec (.registerWrite who (BitVec.ofNat 48 (regAddr b page Rg.hdr.EVENA)) v) s = .next (evenaTo b page v s) := by
  have h := regCmd_passes v hb hp (by decide) (by decide) hr.1
  rw [regWrite_EVENA v hr.2] at h
  rw [exec_registerWrite v hb hp (by decide),
    actKeys_of_keeps (ps := [.regs]) (by rw [h]; exact evenaTo_keeps v) (by decide) (by decide), h]

/-- The block counts an event of its own in a counter (R16). -/
theorem rcEvent_counter {a : Nat} (inc : W32) {r : RegRow} {i : Nat} (h : regBlk a = some (b, page))
    (hr : regAt b page (a % 0x1000) = some (r, i)) (hty : r.ty = .rc) (hl : live s b = true) :
    rcEvent a inc s = bump s (b.keyP page + a % 0x1000) inc.toNat := by
  simp only [rcEvent, h, hr, hty, hl, and_self, if_true]

theorem rcEvent_regAddr (inc : W32) {r : RegRow} {i : Nat} (hb : b.wf = true) (hp : page < b.npages) (ho : off < 0x1000)
    (hr : regAt b page off = some (r, i)) (hty : r.ty = .rc) (hl : live s b = true) :
    rcEvent (regAddr b page off) inc s = bump s (b.keyP page + off) inc.toNat := by
  have hm := regAddr_mod b page ho
  have h := rcEvent_counter inc (regBlk_regAddr b hb hp ho) (by rw [hm]; exact hr) hty hl
  rwa [hm] at h

/-- A read of a counter clears it (R13, R16). -/
theorem readEff_counter {r : RegRow} {i : Nat} (hr : regAt b page off = some (r, i)) (hty : r.ty = .rc)
    (hx : absent s b = false) : readEff b page off s = setReg s (b.keyP page + off) 0 := by
  simp [readEff, hx, hr, hty]

theorem readClear_of {t u : State} {a : Nat} {inc : W32} (h1 : regLook who a s = t) (h2 : rcEvent a inc t = u) :
    readClear who a inc s = if inc = 0 then t else u := by
  simp only [readClear, h1, h2]

theorem live_setReg (k : Nat) (v : W32) (hl : live s b = true) : live (setReg s k v) b = true :=
  (live_congr rfl rfl rfl b).trans hl

theorem absent_of_live (hl : live s b = true) : absent s b = false := by
  simp only [live, Bool.and_eq_true, Bool.not_eq_true'] at hl; exact hl.1

/-- The read that clears a counter, and an increment in the same moment: the counter holds the increment. -/
theorem readClear_counter (v : W32) {r : RegRow} {i : Nat} (hb : b.wf = true) (hp : page < b.npages) (ho : off < 0x1000)
    (ha : off % 4 = 0) (hc : regCheck s who b page off false = some 0) (hl : live s b = true)
    (hr : regAt b page off = some (r, i)) (hty : r.ty = .rc) :
    readClear who (regAddr b page off) v s =
      if v = 0 then setReg s (b.keyP page + off) 0 else bump (setReg s (b.keyP page + off) 0) (b.keyP page + off) v.toNat :=
  readClear_of ((regLook_passes hb hp ho ha hc).trans (readEff_counter hr hty (absent_of_live hl)))
    (rcEvent_regAddr v hb hp ho hr hty (live_setReg _ _ hl))

theorem satAdd_zero (v : W32) : satAdd 0 v.toNat = v := by
  have := v.isLt
  unfold satAdd
  rw [show (0 : W32).toNat = 0 from rfl, Nat.zero_add, Nat.min_eq_left (by omega), w32, BitVec.ofNat_toNat, BitVec.setWidth_eq]

theorem registerReadClear_counter (v : W32) {r : RegRow} {i : Nat} (hb : b.wf = true) (hp : page < b.npages) (ho : off < 0x1000)
    (ha : off % 4 = 0) (hc : regCheck s who b page off false = some 0) (hl : live s b = true)
    (hr : regAt b page off = some (r, i)) (hty : r.ty = .rc) :
    ∃ t, exec (.registerReadClear who (BitVec.ofNat 48 (regAddr b page off)) v) s = .next t ∧
      reg t (b.keyP page + off) = v ∧ KeepsBut [.regs] s t ∧ RegsBut [b.keyP page + off] s t := by
  have h := readClear_counter v hb hp ho ha hc hl hr hty
  have hk : KeepsBut [.regs] s (readClear who (regAddr b page off) v s) := by
    rw [h]; split
    · exact keepsBut_setReg _ _ _
    · exact keepsBut_trans (keepsBut_setReg _ _ _) (keepsBut_bump _ _ _)
  refine ⟨readClear who (regAddr b page off) v s, ?_, ?_, hk, ?_⟩
  · show act (readClear who (BitVec.ofNat 48 (regAddr b page off)).toNat v) s = _
    rw [toNat_regAddr b hb hp ho, act_of_keeps hk (by decide) (by decide)]
  · rw [h]; split
    · rename_i hv; rw [hv, reg_setReg_same]
    · rw [reg_bump, if_pos rfl, reg_setReg_same, satAdd_zero]
  · rw [h]; split
    · exact regsBut_setReg _ _ _
    · exact regsBut_trans (regsBut_setReg _ _ _) (regsBut_setReg _ _ _)

end

/-- Settles O15: each clause is the one register access it names, whose effect the lemmas above give. -/
theorem registerAccessesAreChecked : Obligations.RegisterAccessesAreChecked := by
  intro b page off who v s hb hp ho ha a d cnt
  refine ⟨fun hm => ?_, fun hm hx => ?_, fun hr he => ?_, fun r i hc hl hr hty => ?_⟩
  · refine ⟨_, registerWrite_refused v hb hp ho ha hm, keepsBut_respErr _ _ _, regsBut_respErr_partition _ _, fun hd => ?_⟩
    rw [respErr_partition, if_neg hd]
    exact (reg_bump _ _ _ _).trans (if_pos rfl)
  · exact ⟨s, registerWrite_absent v hb hp ho ha hm hx, keepsBut_refl _ _⟩
  · subst he
    exact ⟨_, registerWrite_EVENA v hb hp hr, reg_evenaTo v, evenaTo_keeps v, regsBut_watched_of _ (regsBut_setReg _ _ _)⟩
  · exact registerReadClear_counter v hb hp ho ha hc hl hr hty

end Sys2Proof.Machine
end

section
/-! SUPPORT. Block states, and what a request in BLKCTL comes to (R18, R44, R504): the request alone, the epoch field as it
    stands; what it changes beside registers and logs is what `blkReq` changes. -/

open Sys2Proof.Says

namespace Sys2Proof.Machine

section
variable {who : Init} {b : Blk} {s : State}

/-! ### Block states (R19, R504) -/

/-- What IDLE, RUNNING and STOPPED say of a block. -/
theorem blkState_settled (h : blkState s b = 2 ∨ blkState s b = 3 ∨ blkState s b = 5) :
    zeroingBlk s b = false ∧ faultOf s b = false ∧ (blkSt s b).run ≠ .stopping ∧
      ((blkSt s b).run = .stopped ↔ blkState s b = 5) := by
  by_cases hx : absent s b = true
  · simp [blkState, hx] at h
  by_cases ho : blkOn s b = true
  · by_cases hz : zeroingBlk s b = true
    · simp [blkState, hx, ho, hz] at h
    by_cases hf : faultOf s b = true
    · simp [blkState, hx, ho, hz, hf] at h
    refine ⟨by simpa using hz, by simpa using hf, ?_⟩
    simp only [blkState, hx, ho, hz, hf] at h ⊢
    cases hr : (blkSt s b).run with
    | stopping => simp [hr] at h
    | _ => cases busy s b <;> simp
  · simp [blkState, hx, ho] at h

theorem stopped_of_blkState (h : blkState s b = 5) : (blkSt s b).run = .stopped :=
  (blkState_settled (.inr (.inr h))).2.2.2.mpr h

/-- Every block but a channel, whose FAULT is its freeze or failed training, goes when it is IDLE or RUNNING. -/
theorem going_of_idle_or_running (h : blkState s b = 2 ∨ blkState s b = 3) (hb : ∀ k c, b ≠ .chan k c) :
    (blkSt s b).run = .going := by
  obtain ⟨-, hf, h1, h2⟩ := blkState_settled (s := s) (b := b) (by omega)
  have hf' : ((blkSt s b).run == .fault) = false := by
    cases b with
    | chan k c => exact absurd rfl (hb k c)
    | _ => exact hf
  cases hr : (blkSt s b).run with
  | going => rfl
  | fault => simp [hr] at hf'
  | stopping => exact absurd hr h1
  | stopped => have := h2.mp hr; omega

theorem blkState_logs (s : State) (l : Tab (List LogEnt)) (b : Blk) : blkState { s with logs := l } b = blkState s b := by
  cases b <;> rfl

theorem blkState_clearLog (s : State) (k : Nat) (b : Blk) : blkState (clearLog s k) b = blkState s b := blkState_logs s _ b

/-! ### The word of a request -/

/-- BLKCTL with one request and the epoch field as it stands. -/
def ctlWord (s : State) (b : Blk) (req : W32) : W32 := (reg s (b.key + Rg.hdr.BLKCTL) &&& 0xFF00) ||| req

theorem bits_epoch_or (w r : W32) (hr : r.toNat < 2 ^ 8) : bits ((w &&& 0xFF00) ||| r) 15 8 = bits w 15 8 := by
  have h1 : (0xFF00 : W32).toNat >>> 8 = 2 ^ 8 - 1 := rfl
  have h2 : r.toNat >>> 8 = 0 := by rw [Nat.shiftRight_eq_div_pow]; omega
  simp only [bits, BitVec.toNat_or, BitVec.toNat_and, Nat.shiftRight_or_distrib, Nat.shiftRight_and_distrib, h1, h2, Nat.or_zero,
    Nat.and_two_pow_sub_one_eq_mod]
  exact Nat.mod_mod _ _

theorem getLsbD_ctlWord (s : State) (b : Blk) (req : W32) {i : Nat} (hi : i < 8) :
    (ctlWord s b req).getLsbD i = req.getLsbD i := by
  have h : (0xFF00 : W32).getLsbD i = false := (by decide : ∀ j : Fin 8, (0xFF00 : W32).getLsbD j = false) ⟨i, hi⟩
  rw [ctlWord, BitVec.getLsbD_or, BitVec.getLsbD_and, h, Bool.and_false, Bool.false_or]

theorem epochRequest_same {e : BitVec 8} (h : reqEpoch s b = e) : epochRequest b e s = s := if_pos h

theorem epochRequest_ctlWord (req : W32) (hr : req.toNat < 2 ^ 8) {u : State} (hu : reqEpoch u b = reqEpoch s b) :
    epochRequest b (BitVec.ofNat 8 (bits (ctlWord s b req) 15 8)) u = u := by
  rw [ctlWord, bits_epoch_or _ _ hr]
  exact epochRequest_same hu

/-! ### A request as a command -/

theorem Blk_npages_pos (b : Blk) : 0 < b.npages := by cases b <;> exact Nat.succ_pos _

theorem blkCmd_BLKCTL (v : W32) (hb : b.wf = true) (hr : Reaches who b 0 Rg.hdr.BLKCTL s) :
    blkCmd who b 0 Rg.hdr.BLKCTL v s = watched (putPages b 0) (logRequester who b (blkctl b v)) s := by
  have hp := Blk_npages_pos b
  exact (regCmd_passes v hb hp (by decide) (by decide) hr.1).trans (regWrite_hdr v hr.2 (regAt_BLKCTL b 0) (by decide))

/-- The parts of the state that a write's frame, the events that it latches and the requester in a region's log do not touch
    are those of a given state. -/
def ActsAs (u t : State) : Prop := ∀ p, p ∉ [Part.clock, .fuses, .regs, .logs] → Part.Same u t p

theorem blkReqCmd_acts (req : W32) (hreq : req.toNat < 2 ^ 8) (hb : b.wf = true) (hr : Reaches who b 0 Rg.hdr.BLKCTL s) :
    ∃ t, act (blkReqCmd b who req) s = .next t ∧ ActsAs (blkReq b (ctlWord s b req) s) t := by
  refine ⟨_, act_next _ s, fun p hp => ?_⟩
  have h := blkCmd_BLKCTL (ctlWord s b req) hb hr
  have he := epochRequest_ctlWord req hreq (s := s) (b := b) (u := s) rfl
  have hf : blkReqCmd b who req s = watched (putPages b 0) (logRequester who b (blkctl b (ctlWord s b req))) s := h
  have hk := keepsBut_logRequester who b (blkctl b (ctlWord s b req)) s
  have hc : KeepsBut [.regs] (blkReq b (ctlWord s b req) s) (blkctl b (ctlWord s b req) s) := by
    have := keepsBut_watched (ctlPages b)
      (fun u => blkReq b (ctlWord s b req) (epochRequest b (BitVec.ofNat 8 (bits (ctlWord s b req) 15 8)) u)) s
    rwa [he] at this
  have hw := keepsBut_watched (putPages b 0) (logRequester who b (blkctl b (ctlWord s b req))) s
  have hall := keepsBut_trans (keepsBut_trans (keepsBut_mono hc (by simp : ∀ p ∈ [Part.regs], p ∈ [Part.regs, .logs]))
    (keepsBut_mono hk (by simp))) (keepsBut_mono hw (by simp))
  have h1 := hall.2 p (by simp only [List.mem_cons, not_or] at hp ⊢; tauto)
  rw [← hf] at h1
  cases p <;> simp_all [Part.Same, actTo]

/-- A request that nothing comes of in the block's state changes nothing but the events it may latch. -/
theorem blkReqCmd_ignored (req : W32) (hreq : req.toNat < 2 ^ 8) (hb : b.wf = true) (hr : Reaches who b 0 Rg.hdr.BLKCTL s)
    (hi : ∀ u, blkState u b = blkState s b → blkReq b (ctlWord s b req) u = u) :
    ∃ t, act (blkReqCmd b who req) s = .next t ∧ KeepsBut [.regs] s t ∧
      RegsBut (evKeys (putPages b 0 ++ ctlPages b)) s t := by
  have hctl : ∀ u, reqEpoch u b = reqEpoch s b → blkState u b = blkState s b →
      blkctl b (ctlWord s b req) u = watched (ctlPages b) id u := by
    intro u he hu
    unfold blkctl watched
    dsimp only
    rw [epochRequest_ctlWord req hreq he, hi u hu]
    rfl
  have hlog : logRequester who b (blkctl b (ctlWord s b req)) s = watched (ctlPages b) id s := by
    rw [logRequester_of_no_log who b _ s ?_]
    · exact hctl s rfl rfl
    · rw [hctl (clearLog s b.key) rfl (blkState_clearLog _ _ _)]; exact watched_logs _ _ _
  have h : blkReqCmd b who req s = watched (putPages b 0) (fun s => watched (ctlPages b) id s) s := by
    refine (blkCmd_BLKCTL (ctlWord s b req) hb hr).trans ?_
    unfold watched at hlog ⊢
    rw [hlog]
  have hk : KeepsBut [.regs] s (blkReqCmd b who req s) := by
    rw [h]
    exact keepsBut_watched_of _ (keepsBut_watched_of _ (keepsBut_refl _ _) (by simp)) (by simp)
  refine ⟨_, act_of_keeps hk (by decide) (by decide), hk, ?_⟩
  rw [h]
  have h1 : RegsBut ([] ++ evKeys (ctlPages b)) s (watched (ctlPages b) id s) := regsBut_watched_of _ (fun _ _ => rfl)
  refine regsBut_mono (regsBut_watched_of (putPages b 0) h1) ?_
  simp only [evKeys, List.map_append, List.nil_append, List.mem_append]
  tauto

/-! ### What each request comes to, by the block's state -/

theorem blkReq_off (v : W32) (h : blkState s b < 2) : blkReq b v s = s := by simp [blkReq, h]

theorem blkReq_softrst (v : W32) (h : 2 ≤ blkState s b) (hv : v.getLsbD 3 = true) : blkReq b v s = softrstBlk b s := by
  simp [blkReq, Nat.not_lt.mpr h, hv]

theorem blkReq_stopnow (v : W32) (h : blkState s b = 2 ∨ blkState s b = 3 ∨ blkState s b = 4) (hz : zeroingBlk s b = false)
    (h3 : v.getLsbD 3 = false) (h2 : v.getLsbD 2 = true) : blkReq b v s = stopnowBlk b s := by
  have : ¬ blkState s b < 2 := by omega
  simp only [blkReq, this, hz, h3, h2, h, if_false, if_true, Bool.false_eq_true]

theorem blkReq_stop (v : W32) (h : blkState s b = 2 ∨ blkState s b = 3)
    (h3 : v.getLsbD 3 = false) (h2 : v.getLsbD 2 = false) (h1 : v.getLsbD 1 = true) : blkReq b v s = stopBlk b s := by
  obtain ⟨hz, -⟩ := blkState_settled (s := s) (b := b) (by omega)
  have : ¬ blkState s b < 2 := by omega
  simp only [blkReq, this, hz, h3, h2, h1, h, if_false, if_true, Bool.false_eq_true]

theorem blkReq_run (v : W32) (h : blkState s b = 2 ∨ blkState s b = 3 ∨ blkState s b = 5)
    (h3 : v.getLsbD 3 = false) (h2 : v.getLsbD 2 = false) (h1 : v.getLsbD 1 = false) (h0 : v.getLsbD 0 = true) :
    blkReq b v s = runBlk b s := by
  obtain ⟨hz, -⟩ := blkState_settled (s := s) (b := b) (by omega)
  have : ¬ blkState s b < 2 := by omega
  simp only [blkReq, this, hz, h3, h2, h1, h0, h, if_false, if_true, Bool.false_eq_true]

/-- In FAULT a block takes SOFTRST alone. -/
theorem blkReq_fault (v : W32) (h : blkState s b = 6) (h3 : v.getLsbD 3 = false) : blkReq b v s = s := by
  simp only [blkReq, h, h3]; simp

/-! ### The four requests -/

theorem blkctlRun_acts (hb : b.wf = true) (hr : Reaches who b 0 Rg.hdr.BLKCTL s)
    (h : blkState s b = 2 ∨ blkState s b = 3 ∨ blkState s b = 5) :
    ∃ t, exec (.blkctlRun b who) s = .next t ∧ ActsAs (runBlk b s) t := by
  obtain ⟨t, ht, ha⟩ := blkReqCmd_acts 1 (by decide) hb hr
  rw [blkReq_run _ h (getLsbD_ctlWord _ _ _ (by decide)) (getLsbD_ctlWord _ _ _ (by decide)) (getLsbD_ctlWord _ _ _ (by decide))
    (getLsbD_ctlWord _ _ _ (by decide))] at ha
  exact ⟨t, (if_pos hb).trans ht, ha⟩

theorem blkctlStop_acts (hb : b.wf = true) (hr : Reaches who b 0 Rg.hdr.BLKCTL s) (h : blkState s b = 2 ∨ blkState s b = 3) :
    ∃ t, exec (.blkctlStop b who) s = .next t ∧ ActsAs (stopBlk b s) t := by
  obtain ⟨t, ht, ha⟩ := blkReqCmd_acts 2 (by decide) hb hr
  rw [blkReq_stop _ h (getLsbD_ctlWord _ _ _ (by decide)) (getLsbD_ctlWord _ _ _ (by decide))
    (getLsbD_ctlWord _ _ _ (by decide))] at ha
  exact ⟨t, (if_pos hb).trans ht, ha⟩

theorem blkctlStopnow_acts (hb : b.wf = true) (hr : Reaches who b 0 Rg.hdr.BLKCTL s)
    (h : blkState s b = 2 ∨ blkState s b = 3 ∨ blkState s b = 4) (hz : zeroingBlk s b = false) :
    ∃ t, exec (.blkctlStopnow b who) s = .next t ∧ ActsAs (stopnowBlk b s) t := by
  obtain ⟨t, ht, ha⟩ := blkReqCmd_acts 4 (by decide) hb hr
  rw [blkReq_stopnow _ h hz (getLsbD_ctlWord _ _ _ (by decide)) (getLsbD_ctlWord _ _ _ (by decide))] at ha
  exact ⟨t, (if_pos hb).trans ht, ha⟩

theorem blkctlSoftrst_acts (hb : b.wf = true) (hr : Reaches who b 0 Rg.hdr.BLKCTL s) (h : 2 ≤ blkState s b) :
    ∃ t, exec (.blkctlSoftrst b who) s = .next t ∧ ActsAs (softrstBlk b s) t := by
  obtain ⟨t, ht, ha⟩ := blkReqCmd_acts 8 (by decide) hb hr
  rw [blkReq_softrst _ h (getLsbD_ctlWord _ _ _ (by decide))] at ha
  exact ⟨t, (if_pos hb).trans ht, ha⟩

end

end Sys2Proof.Machine
end

section
/-! SUPPORT. What serving accesses of Stratus memory leaves as it was (R300-R313): performing, queueing and answering them, and
    going on with those that wait, changes no block state, and no channel's freeze or failed training. -/

namespace Sys2Proof.Machine

/-- The parts of the state that serving accesses of a stack changes. -/
def dramParts : List Part := [.frees, .regs, .logs, .dram, .pv, .stks, .chans, .net]

/-- A later state in which accesses have been served: of the channels, freezes and failed trainings are as before. -/
structure DramServed (s t : State) : Prop where
  keeps : KeepsBut dramParts s t
  fault : ∀ k c, (chan t k c).frozen = (chan s k c).frozen ∧ (chan t k c).failed = (chan s k c).failed

theorem dramServed_refl (s : State) : DramServed s s := ⟨keepsBut_refl _ _, fun _ _ => ⟨rfl, rfl⟩⟩

theorem dramServed_trans {s t u : State} (h1 : DramServed s t) (h2 : DramServed t u) : DramServed s u :=
  ⟨keepsBut_trans h1.keeps h2.keeps,
   fun k c => ⟨(h2.fault k c).1.trans (h1.fault k c).1, (h2.fault k c).2.trans (h1.fault k c).2⟩⟩

theorem chan_congr {s t : State} (h : t.chans = s.chans) (k : Fin 8) (c : Fin 32) : chan t k c = chan s k c := by
  simp only [chan, h]

theorem stack_congr {s t : State} (h : t.stks = s.stks) (k : Fin 8) : stack t k = stack s k := by simp only [stack, h]

/-- A change of other parts than the channels. -/
theorem dramServed_of_keeps {ps : List Part} {s t : State} (h : KeepsBut ps s t) (hs : ∀ p ∈ ps, p ∈ dramParts)
    (hc : Part.chans ∉ ps) : DramServed s t :=
  ⟨keepsBut_mono h hs, fun k c => by rw [chan_congr (h.2 .chans hc)]; exact ⟨rfl, rfl⟩⟩

theorem keepsBut_updChan (s : State) (k : Fin 8) (c : Fin 32) (f : Chan → Chan) : KeepsBut [.chans] s (updChan s k c f) :=
  ⟨rfl, fun p hp => by cases p <;> simp_all [Part.Same]⟩

theorem keepsBut_updStack (s : State) (k : Fin 8) (f : Stack → Stack) : KeepsBut [.stks] s (updStack s k f) :=
  ⟨rfl, fun p hp => by cases p <;> simp_all [Part.Same]⟩

/-- A change of a channel that leaves its freeze and its training alone. -/
theorem dramServed_updChan (s : State) (k : Fin 8) (c : Fin 32) {f : Chan → Chan}
    (hf : ∀ x, (f x).frozen = x.frozen ∧ (f x).failed = x.failed) : DramServed s (updChan s k c f) := by
  refine ⟨keepsBut_mono (keepsBut_updChan s k c f) (by decide), fun j d => ?_⟩
  rw [chan_updChan]
  split
  · rename_i h; obtain ⟨rfl, rfl⟩ := h; exact hf _
  · exact ⟨rfl, rfl⟩

theorem dramServed_foldl {α : Type} (f : State → α → State) (hf : ∀ s a, DramServed s (f s a)) (l : List α) (s : State) :
    DramServed s (l.foldl f s) :=
  List.foldlRecOn l f (dramServed_refl s) fun u hu a _ => dramServed_trans hu (hf u a)

/-! ### Registers, logs, stacks, arrays, packets -/

section
variable (s : State) (k : Fin 8) (c : Fin 32)

theorem dramServed_setReg (i : Nat) (v : W32) : DramServed s (setReg s i v) :=
  dramServed_of_keeps (keepsBut_setReg s i v) (by decide) (by decide)

theorem dramServed_bump (i n : Nat) : DramServed s (bump s i n) := dramServed_setReg s _ _

theorem dramServed_pulse (i n : Nat) : DramServed s (pulse s i n) := dramServed_setReg s _ _

theorem dramServed_setRegBit (i n : Nat) (b : Bool) : DramServed s (setRegBit s i n b) := dramServed_setReg s _ _

theorem dramServed_respErr (d : Nat) (r : BitVec 8) : DramServed s (respErr s d r) :=
  dramServed_of_keeps (keepsBut_respErr s d r) (by decide) (by decide)

theorem dramServed_logE (i : Nat) (a b d e : W32) : DramServed s (logE s i a b d e) :=
  dramServed_of_keeps (keepsBut_logE s i a b d e) (by decide) (by decide)

theorem dramServed_updStack (f : Stack → Stack) : DramServed s (updStack s k f) :=
  dramServed_of_keeps (keepsBut_updStack s k f) (by decide) (by decide)

theorem dramServed_net (n : Net) : DramServed s { s with net := n } :=
  dramServed_of_keeps (ps := [.net]) ⟨rfl, fun p hp => by cases p <;> simp_all [Part.Same]⟩ (by decide) (by decide)

theorem dramServed_dram (d : Tab Byte) : DramServed s { s with dram := d } :=
  dramServed_of_keeps (ps := [.dram]) ⟨rfl, fun p hp => by cases p <;> simp_all [Part.Same]⟩ (by decide) (by decide)

theorem dramServed_pv (p : Tab Bool) : DramServed s { s with pv := p } :=
  dramServed_of_keeps (ps := [.pv]) ⟨rfl, fun p hp => by cases p <;> simp_all [Part.Same]⟩ (by decide) (by decide)

theorem dramServed_draw : DramServed s (draw s).2 :=
  dramServed_of_keeps (ps := [.frees]) ⟨rfl, fun p hp => by cases p <;> simp_all [Part.Same, draw]⟩ (by decide) (by decide)

theorem dramServed_sendResp (src : Src) (r : Req) (d n : Nat) (rsn : BitVec 8) (l : List Byte) :
    DramServed s (sendResp s src r d n rsn l) := by
  unfold sendResp
  split
  · exact dramServed_refl s
  · exact dramServed_net s _

theorem dramServed_watched (ps : List (Blk × Nat)) {f : State → State} (h : DramServed s (f s)) : DramServed s (watched ps f s) :=
  dramServed_trans h (dramServed_of_keeps (keepsBut_watched ps f s) (by decide) (by decide))

theorem dramServed_putSyms (l : Nat) (d : List Byte) : DramServed s (putSyms s k l d) := by
  induction d generalizing s l with
  | nil => exact dramServed_refl s
  | cons b t ih => exact dramServed_trans (dramServed_dram s _) (ih _ _)

theorem dramServed_putChecks (b n : Nat) : DramServed s (putChecks k b n s) := by
  induction n generalizing s b with
  | zero => exact dramServed_refl s
  | succ n ih => exact dramServed_trans (dramServed_dram s _) (ih _ _)

theorem dramServed_putDram (l : Nat) (d : List Byte) : DramServed s (putDram s k l d) :=
  dramServed_trans (dramServed_putSyms s k l d) (dramServed_putChecks _ k _ _)

theorem dramServed_upsetBlk (l : Nat) (errs : List SymErr) : DramServed s (upsetBlk s k l errs) :=
  dramServed_foldl _ (fun s _ => dramServed_dram s _) errs s

/-! ### Performing an access -/

theorem dramServed_openRowOf (l n : Nat) : DramServed s (openRowOf s k c l n) := by
  unfold openRowOf cmdNote
  dsimp only
  refine dramServed_trans ?_ (dramServed_updChan _ _ _ fun _ => ⟨rfl, rfl⟩)
  exact dramServed_updChan _ _ _ fun _ => ⟨rfl, rfl⟩

theorem dramServed_chanLog (code core beat l s0 s1 : Nat) (w : Option Init) :
    DramServed s (chanLog s k c code core beat l s0 s1 w) := dramServed_logE s _ _ _ _ _

theorem dramServed_chanCorr (cnt l : Nat) (bs : List BeatR) (w : Option Init) : DramServed s (chanCorr s k c cnt l bs w) := by
  have hb : ∀ u : State, DramServed u (bs.foldl (fun s b =>
      if b.st = 1 then bump s (Blk.key (.chan k c) + Rg.chan.CORRCORE + 4 * b.core) else s) u) := by
    refine dramServed_foldl _ (fun u b => ?_) bs
    split
    · exact dramServed_bump u _ _
    · exact dramServed_refl u
  unfold chanCorr
  dsimp only
  split
  · exact dramServed_refl s
  · have h := dramServed_trans (hb s) (dramServed_trans (dramServed_bump _ (Blk.key (.chan k c) + cnt) 1)
      (dramServed_pulse _ (Blk.key (.chan k c)) 1))
    split
    · exact dramServed_trans h (dramServed_chanLog _ k c _ _ _ _ _ _ _)
    · exact h

theorem dramServed_noteWb (l : Nat) : DramServed s (dramPerform.noteWb s k c l) :=
  dramServed_updChan s k c fun _ => ⟨rfl, rfl⟩

/-- An access that meets an uncorrectable beat is logged and counted. -/
theorem dramServed_uncorrectable (code x y l : Nat) (w : Option Init) :
    DramServed s (pulse (bump (chanLog s k c code 0xF 0 l x y w) (Blk.key (.chan k c) + Rg.chan.UNCCNT)) (Blk.key (.chan k c)) 0) :=
  dramServed_trans (dramServed_chanLog s _ _ _ _ _ _ _ _ _) (dramServed_trans (dramServed_bump _ _ _) (dramServed_pulse _ _ _))

theorem dramServed_dramPerform (r : Req) (l : Nat) (fill : Bool) (errs : List SymErr) :
    DramServed s (dramPerform s k r l fill errs).2.2 := by
  unfold dramPerform
  extract_lets c key rmw u blk bs u1 u2 u3 u4 u5
  have hu : DramServed s u := dramServed_trans (dramServed_openRowOf s k c l _) (dramServed_upsetBlk _ k l errs)
  split
  · have h1 : DramServed s u1 := dramServed_trans hu (dramServed_bump u _ _)
    split
    · exact dramServed_trans h1 (dramServed_uncorrectable _ _ _ _ _ _ _ _)
    · have h2 : DramServed s u2 := dramServed_trans h1 (dramServed_chanCorr u1 _ _ _ _ _ _)
      show DramServed s u3
      unfold u3
      split
      · exact dramServed_trans h2 (dramServed_noteWb _ _ _ _)
      · exact h2
  · split
    · have h1 : DramServed s u4 := dramServed_trans hu (dramServed_bump u _ _)
      split
      · exact dramServed_trans h1 (dramServed_uncorrectable _ _ _ _ _ _ _ _)
      · have h2 : DramServed s u5 := dramServed_trans h1 (dramServed_chanCorr u4 _ _ _ _ _ _)
        exact dramServed_trans h2 (dramServed_trans (dramServed_putDram _ _ _ _) (dramServed_putDram _ _ _ _))
    · refine dramServed_trans hu (dramServed_trans ?_ (dramServed_putDram _ _ _ _))
      split
      · exact dramServed_refl _
      · exact dramServed_bump _ _ _

/-! ### Queues -/

theorem dramServed_dropDramWb (l : Nat) : DramServed s (dropDramWb s k l) := dramServed_updChan s k _ fun _ => ⟨rfl, rfl⟩

theorem dramServed_noteOrder (l : Nat) (read : Bool) : DramServed s (noteOrder s k l read) := by
  unfold noteOrder
  dsimp only
  split
  · have h : ∀ n, DramServed s (updChan s k (locChan l)
        (fun x => { x with inorder := tset 0 x.inorder (locBank l) n })) := fun n => dramServed_updChan s k _ fun _ => ⟨rfl, rfl⟩
    split
    · exact dramServed_trans (h _) (dramServed_bump _ _ _)
    · exact h _
  · exact dramServed_refl s

theorem dramServed_takeAcc (q : QAcc) : DramServed s (takeAcc s k c q) := dramServed_updChan s k c fun _ => ⟨rfl, rfl⟩

theorem dramServed_performQ (q : QAcc) (errs : List SymErr) : DramServed s (performQ s k c q errs) := by
  have h := dramServed_trans (dramServed_takeAcc s k c q)
    (dramServed_trans (dramServed_dramPerform _ k q.req q.loc q.fill errs) (dramServed_respErr _ (8 + 11 * k.val)
      (dramPerform (takeAcc s k c q) k q.req q.loc q.fill errs).1))
  unfold performQ
  dsimp only
  split
  · exact h
  · exact dramServed_trans h (dramServed_sendResp _ _ _ _ _ _ _)

theorem dramServed_flushBank (l : Nat) : DramServed s (flushBank s k l) :=
  dramServed_foldl _ (fun s q => dramServed_performQ s k _ q []) _ s

theorem dramServed_enqueue (q : QAcc) : DramServed s (enqueue s k q) := by
  have h1 := dramServed_noteOrder s k q.loc (q.req.kind == .read)
  unfold enqueue
  dsimp only
  refine dramServed_trans ?_ (dramServed_updChan _ k _ fun _ => ⟨rfl, rfl⟩)
  split
  · exact h1
  · exact dramServed_trans h1 (dramServed_dropDramWb _ k _)

/-! ### The page-valid manager -/

theorem dramServed_markFilled (page b : Nat) : DramServed s (markFilled s k page b) := by
  unfold markFilled
  dsimp only
  have h : ∀ f, DramServed s (watched [(Blk.pvm k, 0)] (fun s => updStack s k f) s) :=
    fun f => dramServed_watched s _ (dramServed_updStack s k f)
  split
  · exact dramServed_trans (h _) (dramServed_bump _ _ _)
  · exact h _

theorem dramServed_fillAlloc (p : BitVec 4) (page : Nat) : DramServed s (fillAlloc s k p page) := by
  unfold fillAlloc
  exact dramServed_trans (dramServed_pv s (tset false s.pv (pvKey k page) true)) (dramServed_watched _ _ (dramServed_updStack _ k _))

theorem dramServed_fillAll (e : FillEnt) : DramServed s (fillAll s k e) := by
  refine dramServed_foldl _ (fun u b => ?_) _ s
  dsimp only
  split
  · split
    · exact dramServed_refl u
    · exact dramServed_trans (dramServed_flushBank u k _)
        (dramServed_trans (dramServed_dramPerform _ k _ _ _ _) (dramServed_markFilled _ k _ _))
  · exact dramServed_refl u

theorem dramServed_pvPass {r : Req} {l : Nat} {x : Option (Req × Nat) × State} (h : pvPass s k r l = x) : DramServed s x.2 := by
  rw [← h]
  unfold pvPass
  dsimp only
  split
  · exact dramServed_refl s
  · have h : DramServed s (if pageValid s k (locPage l) then s else fillAlloc s k r.who.part (locPage l)) := by
      split
      · exact dramServed_refl s
      · exact dramServed_fillAlloc s k _ _
    split
    · exact h
    · split
      · exact h
      · exact dramServed_trans h (dramServed_markFilled _ k _ _)

/-! ### Accesses at their base die

The functions here begin with a match on `dramMap`, which the kernel tries to evaluate, in unary, when it compares the function
applied with its body. Their definitions are therefore put in as functions, before any argument, with any map for `dramMap`. -/

theorem dramServed_dramRefuse (r : Req) (rsn : BitVec 8) : DramServed s (dramRefuse s r rsn) := by
  obtain ⟨f, hf⟩ := exists_eq (a' := dramRefuse)
  obtain ⟨map, hm⟩ := exists_eq (a' := dramMap)
  rw [← hf]
  delta dramRefuse at hf
  rw [← hm] at hf
  subst hf
  beta_reduce
  split
  refine dramServed_trans ?_ (dramServed_respErr _ _ _)
  split
  · exact dramServed_chanLog s _ _ _ _ _ _ _ _ _
  · exact dramServed_refl s

theorem dramServed_stackNow (r : Req) (l : Nat) : DramServed s (stackNow s k r l).2.2 := by
  unfold stackNow
  extract_lets u
  have hu : DramServed s u := by
    unfold u
    split
    · exact dramServed_trans (dramServed_draw s) (dramServed_trans (dramServed_fillAll _ k _) (dramServed_bump _ _ _))
    · exact dramServed_refl s
  split
  · rename_i h; exact dramServed_trans hu (dramServed_pvPass u k h)
  · rename_i h
    have hp := dramServed_trans hu (dramServed_pvPass u k h)
    refine dramServed_trans ?_ (dramServed_respErr _ _ _)
    refine dramServed_trans ?_ (dramServed_dramPerform _ k _ _ _ _)
    split
    · exact dramServed_trans hp (dramServed_flushBank _ k _)
    · exact dramServed_trans hp (dramServed_trans (dramServed_flushBank _ k _) (dramServed_dropDramWb _ k _))

theorem dramServed_lineAcc (who : Init) (line : Nat) (kind : Kind) (d : List Byte) :
    DramServed s (lineAcc s who line kind d).2.2 := by
  have href := dramServed_dramRefuse s
  have hnow := dramServed_stackNow s
  obtain ⟨f, hf⟩ := exists_eq (a' := lineAcc)
  obtain ⟨map, hm⟩ := exists_eq (a' := dramMap)
  obtain ⟨ref, hr⟩ := exists_eq (a' := dramRefuse)
  obtain ⟨now, hn⟩ := exists_eq (a' := stackNow)
  rw [← hf]
  delta lineAcc at hf
  rw [← hm, ← hr, ← hn] at hf
  rw [← hr] at href
  rw [← hn] at hnow
  subst hf
  dsimp only
  split
  · exact href _ _
  · exact hnow _ _ _
theorem dramServed_putLine (line : Nat) (d : List Byte) : DramServed s (putLine s line d).2 := by
  have hacc := dramServed_lineAcc s
  obtain ⟨f, hf⟩ := exists_eq (a' := putLine)
  obtain ⟨map, hm⟩ := exists_eq (a' := dramMap)
  obtain ⟨acc, ha⟩ := exists_eq (a' := lineAcc)
  rw [← hf]
  delta putLine at hf
  rw [← hm, ← ha] at hf
  rw [← ha] at hacc
  subst hf
  exact hacc _ _ _ _

theorem dramServed_wbCopy (line i : Nat) : DramServed s (wbCopy s line i) := by
  unfold wbCopy
  split
  · extract_lets
    split
    rename_i hl
    have h := dramServed_putLine s line (copyData s line i)
    rw [hl] at h
    split
    · exact dramServed_trans h (dramServed_net _ _)
    · exact h
  · exact dramServed_refl s

theorem dramServed_landReplies (line : Nat) : DramServed s (landReplies s line) := by
  refine dramServed_foldl _ (fun u q => ?_) _ s
  split
  · split
    · exact dramServed_putLine u line _
    · exact dramServed_refl u
  · exact dramServed_refl u

theorem dramServed_cohSync (a : Nat) (write : Bool) : DramServed s (cohSync s a write) := by
  unfold cohSync
  split
  · exact dramServed_refl s
  · refine dramServed_trans (dramServed_landReplies s _) (dramServed_foldl _ (fun u i => ?_) _ _)
    dsimp only
    split
    · exact dramServed_trans (dramServed_wbCopy u _ _) (dramServed_net _ _)
    · exact dramServed_wbCopy u _ _

theorem dramServed_clearWiped (j a len : Nat) : DramServed s (clearWiped s j a len) := by
  refine dramServed_foldl _ (fun u w => ?_) _ s
  dsimp only
  split
  · exact dramServed_setRegBit u _ _ _
  · exact dramServed_refl u

theorem dramServed_wipeNote (a len : Nat) : DramServed s (wipeNote s k a len) := by
  unfold wipeNote
  dsimp only
  split
  · exact dramServed_refl s
  · refine dramServed_trans (dramServed_clearWiped s k.val a len) (dramServed_foldl _ (fun u j => ?_) _ _)
    split
    · exact dramServed_refl u
    · exact dramServed_net u _

/-- Requests that go on past their checks: the page-valid manager answers them, or they join their channel's queue. -/
theorem dramServed_dramTake (src : Src) (r : Req) : DramServed s (dramTake s src r) := by
  obtain ⟨f, hf⟩ := exists_eq (a' := dramTake)
  obtain ⟨map, hm⟩ := exists_eq (a' := dramMap)
  rw [← hf]
  delta dramTake at hf
  rw [← hm] at hf
  subst hf
  beta_reduce
  split
  extract_lets die write u v
  have hu : DramServed s u := dramServed_cohSync s _ _
  have hv : DramServed s v := by
    unfold v
    split
    · exact dramServed_trans hu (dramServed_wipeNote u _ _ _)
    · exact hu
  split
  split
  · rename_i h; exact dramServed_trans hv (dramServed_trans (dramServed_pvPass v _ h) (dramServed_sendResp _ _ _ _ _ _ _))
  · rename_i h
    refine dramServed_trans hv (dramServed_trans (dramServed_pvPass v _ h) ?_)
    extract_lets ack w
    split
    · exact dramServed_trans (dramServed_enqueue _ _ _) (dramServed_sendResp _ _ _ _ _ _ _)
    · exact dramServed_enqueue _ _ _

theorem dramServed_dramAccept (src : Src) (r : Req) : DramServed s (dramAccept s src r) := by
  obtain ⟨f, hf⟩ := exists_eq (a' := dramAccept)
  obtain ⟨map, hm⟩ := exists_eq (a' := dramMap)
  rw [← hf]
  delta dramAccept at hf
  rw [← hm] at hf
  subst hf
  beta_reduce
  split
  extract_lets rsn
  split
  · exact dramServed_trans (dramServed_dramRefuse s _ _) (dramServed_sendResp _ _ _ _ _ _ _)
  · split
    · exact dramServed_updStack s _ _
    · exact dramServed_dramTake s _ _

theorem dramServed_waitPump (n : Nat) : DramServed s (waitPump k n s) := by
  induction n generalizing s with
  | zero => exact dramServed_refl s
  | succ n ih =>
    rw [waitPump]
    split
    · exact dramServed_refl s
    · rename_i w _
      have h1 : DramServed s (updStack s k (fun x => { x with waits := x.waits.erase w })) := dramServed_updStack s k _
      refine dramServed_trans ?_ (ih _)
      refine dramServed_trans ?_ (dramServed_dramAccept _ _ _)
      split
      · exact dramServed_trans h1 (dramServed_bump _ _ _)
      · exact h1

/-- The requests that wait at a stack, looked at again, change no block state and no channel's freeze or failed training. -/
theorem dramServed_stackDo (f : State → State) : DramServed (f s) (stackDo k f s) := dramServed_waitPump _ k _

end

/-- With no request waiting a change to a stack is the change alone. -/
theorem stackDo_of_no_waits (k : Fin 8) (f : State → State) (s : State) (h : (stack (f s) k).waits = []) : stackDo k f s = f s := by
  unfold stackDo
  dsimp only
  rw [h]
  rfl

end Sys2Proof.Machine
end

section
/-! SUPPORT. What RUN, STOP, STOPNOW and SOFTRST make of each kind of block (R169, R199, R239, R283, R313, R326, R403, R504). -/

open Sys2Proof.Says

namespace Sys2Proof.Machine

/-! ### Block states under the operations -/

theorem ActsAs.blkSt_eq {u t : State} (h : ActsAs u t) (b : Blk) : blkSt t b = blkSt u b := blkSt_congr (h .blks (by decide)) b

theorem blkSt_of_keeps {ps : List Part} {s t : State} (h : KeepsBut ps s t) (hp : Part.blks ∉ ps) (b : Blk) :
    blkSt t b = blkSt s b := blkSt_congr (h.2 .blks hp) b

@[simp] theorem blkSt_setRun_same (s : State) (b : Blk) (r : Run) : blkSt (setRun s b r) b = { blkSt s b with run := r } :=
  blkSt_setBlkSt_same s b _

@[simp] theorem blkSt_setUsed_same (s : State) (b : Blk) (u : Bool) : blkSt (setUsed s b u) b = { blkSt s b with used := u } :=
  blkSt_setBlkSt_same s b _

theorem blkSt_setRun_ne (s : State) {a b : Blk} (r : Run) (ha : a.wf = true) (hb : b.wf = true) (h : a ≠ b) :
    blkSt (setRun s b r) a = blkSt s a := by rw [blkSt_setRun s ha hb, if_neg h]

theorem blkSt_stopUnit_ne (s : State) {a b : Blk} (ha : a.wf = true) (hb : b.wf = true) (h : a ≠ b) :
    blkSt (stopUnit b s) a = blkSt s a := by
  unfold stopUnit
  split
  · exact blkSt_setRun_ne s _ ha hb h
  · rfl

theorem run_goUnit {s : State} {b : Blk} (h : (blkSt s b).run = .stopped) : (blkSt (goUnit b s) b).run = .going := by
  simp [goUnit, isStopped, h]

/-- The block stops, or has stopped. -/
def Stops (s : State) (b : Blk) : Prop := (blkSt s b).run = .stopping ∨ (blkSt s b).run = .stopped

theorem stops_setRun (s : State) (b : Blk) {r : Run} (h : r = .stopping ∨ r = .stopped) : Stops (setRun s b r) b := by
  simpa [Stops] using h

theorem stops_stopHeld {s t : State} {b : Blk} (h : Stops s b) (hh : StopHeld s t b) : Stops t b := by
  rcases hh with hh | ⟨-, hh⟩
  · exact h.imp (by rw [hh]; exact id) (by rw [hh]; exact id)
  · exact .inr (by rw [hh])

theorem stops_congr {s t : State} {b : Blk} (h : Stops s b) (hb : blkSt t b = blkSt s b) : Stops t b := by
  unfold Stops at h ⊢; rwa [hb]

/-! ### Frames of the operations on tiles and contexts -/

theorem keepsBut_updTile (s : State) (u : Fin 64) (f : Tile → Tile) : KeepsBut [.tiles] s (updTile s u f) :=
  ⟨rfl, fun p hp => by cases p <;> simp_all [Part.Same]⟩

theorem keepsBut_updCtx (s : State) (k : Fin 8) (x : Fin 2048) (f : Ctx → Ctx) : KeepsBut [.ctxs] s (updCtx s k x f) :=
  ⟨rfl, fun p hp => by cases p <;> simp_all [Part.Same, updCtx, setCtx]⟩

theorem keepsBut_foldl {α : Type} {ps : List Part} (f : State → α → State) (hf : ∀ s a, KeepsBut ps s (f s a)) (l : List α)
    (s : State) : KeepsBut ps s (l.foldl f s) :=
  List.foldlRecOn l f (keepsBut_refl ps s) fun u hu a _ => keepsBut_trans hu (hf u a)

theorem keepsBut_noEpHold (s : State) (u : Fin 64) : KeepsBut [.tiles, .cores] s (noEpHold s u) := setCpu_keeps s (.tile u) _

theorem keepsBut_syncSettle (s : State) (u : Fin 64) : KeepsBut [.tiles] s (syncSettle u s) := by
  unfold syncSettle
  split
  · split
    · exact keepsBut_updTile s u _
    · exact keepsBut_refl _ _
  · exact keepsBut_refl _ _

theorem keepsBut_waitReg {s u : State} {key : Option Nat} {on : Bool} {t x : Option (BitVec 64)} (h : waitReg s key on t = (x, u)) :
    KeepsBut [.regs, .ctxs] s u := by
  unfold waitReg at h
  split at h <;> obtain ⟨-, rfl⟩ := Prod.mk.inj h
  · exact keepsBut_refl _ _
  · split
    · exact keepsBut_mono (keepsBut_bump s _ _) (by decide)
    · exact keepsBut_refl _ _
  · exact keepsBut_refl _ _

/-- A timed wait that may go on, or is looked at again. -/
theorem keepsBut_ite_waitReg {s u : State} {c : Bool} {key : Option Nat} {t t' x : Option (BitVec 64)}
    (h : (if c = true then (t', s) else waitReg s key false t) = (x, u)) : KeepsBut [.regs, .ctxs] s u := by
  split at h
  · obtain ⟨-, rfl⟩ := Prod.mk.inj h; exact keepsBut_refl _ _
  · exact keepsBut_waitReg h

theorem keepsBut_ctxWaits (s : State) (k : Fin 8) (x : Fin 2048) : KeepsBut [.regs, .ctxs] s (ctxWaits k x s) := by
  unfold ctxWaits
  extract_lets c key
  split
  rename_i hb
  split
  rename_i hd
  split
  rename_i hr
  split
  rename_i hw
  exact keepsBut_trans (keepsBut_waitReg hb) (keepsBut_trans (keepsBut_waitReg hd) (keepsBut_trans (keepsBut_ite_waitReg hr)
    (keepsBut_trans (keepsBut_ite_waitReg hw) (keepsBut_mono (keepsBut_updCtx _ k x _) (by decide)))))

/-- What the contexts of an engine are made of keeps what it keeps of one. -/
theorem keepsBut_eachCtx (k : Fin 8) {f : Fin 2048 → State → State} (hf : ∀ x s, KeepsBut [.regs, .ctxs] s (f x s)) (s : State) :
    KeepsBut [.regs, .ctxs] s (eachCtx k f s) :=
  keepsBut_foldl _ (fun s (e : Nat × Ctx) => keepsBut_trans (hf (fin 2048 e.1) s) (keepsBut_ctxWaits _ k _)) _ s

/-! ### STOP -/

section
variable {b : Blk} {s : State}

/-- STOP of the sequencer: its tile stops, and where nothing is under way it has stopped (R199). -/
theorem stops_seqStop (u : Fin 64) (s : State) : Stops (seqStop u s) (.seq u) := by
  have h0 : Stops (noEpHold (setRun s (.seq u) .stopping) u) (.seq u) :=
    stops_congr (stops_setRun s _ (.inl rfl)) (blkSt_of_keeps (keepsBut_noEpHold _ u) (by decide) _)
  unfold seqStop
  extract_lets q s1 s2 s3
  have h1 : Stops s2 (.seq u) := by
    refine stops_congr h0 (blkSt_of_keeps (ps := [.tiles, .cores, .regs]) ?_ (by decide) _)
    unfold s2
    split
    · exact keepsBut_trans (keepsBut_mono (setCpu_keeps _ q _) (by decide))
        (keepsBut_trans (keepsBut_mono (seqCnt_keeps q _ _) (by decide)) (keepsBut_mono (setCpu_keeps _ q _) (by decide)))
    · exact keepsBut_refl _ _
  have h2 : Stops s3 (.seq u) :=
    stops_congr h1 ((blkSt_stopUnit_ne _ rfl rfl (by simp)).trans (blkSt_stopUnit_ne _ rfl rfl (by simp)))
  refine stops_stopHeld (stops_congr h2 ?_) (stopHeld_tileSettle u _ rfl)
  exact (blkSt_of_keeps (keepsBut_syncSettle _ u) (by decide) _).trans (blkSt_of_keeps (keepsBut_updTile s3 u _) (by decide) _)

theorem stops_rowSettle (u : Fin 64) (s : State) : Stops (rowSettle u (setRun s (.row u) .stopping)) (.row u) := by
  unfold rowSettle
  dsimp only
  split
  · exact stops_setRun _ _ (.inr rfl)
  · exact stops_setRun _ _ (.inl rfl)

theorem stops_vecSettle (u : Fin 64) (s : State) : Stops (vecSettle u (setRun s (.vec u) .stopping)) (.vec u) := by
  unfold vecSettle
  split
  · exact stops_setRun _ _ (.inr rfl)
  · exact stops_setRun _ _ (.inl rfl)

/-- A block stops now or later, as a condition says. -/
theorem stops_ite_stopped (s : State) (b : Blk) (c : Prop) [Decidable c] :
    Stops (setRun s b (if c then .stopped else .stopping)) b := stops_setRun s b (by split <;> simp)

theorem stops_ite_stopping (s : State) (b : Blk) (c : Prop) [Decidable c] :
    Stops (setRun s b (if c then .stopping else .stopped)) b := stops_setRun s b (by split <;> simp)

/-- A change of a channel's or a manager's state, after which the requests that wait go on. -/
theorem stops_stackDo (k : Fin 8) (c : State → Bool) (s : State) (b : Blk) :
    Stops (stackDo k (fun s => setRun s b (if c s then .stopped else .stopping)) s) b :=
  stops_congr (stops_ite_stopped s b (c s)) (blkSt_of_keeps (dramServed_stackDo s k _).keeps (by decide) b)

theorem stops_portStop {p : Fin 96} (h : (blkSt s (.port p)).run = .going) : Stops (portStop p s) (.port p) := by
  unfold portStop
  rw [if_pos h]
  exact stops_setRun _ _ (.inl rfl)

/-- STOP of a region that runs (R347). -/
theorem run_regStop {r : Fin 16} (h1 : (region s r).started = true) (h2 : (region s r).starting = false)
    (hg : (blkSt s (.region r)).run = .going) : (blkSt (regStop r false s) (.region r)).run = .stopping := by
  simp [regStop, h1, h2, isGoing, hg]

/-! ### STOPNOW -/

theorem run_sengStopnow (k : Fin 8) (s : State) : (blkSt (sengStopnow k s) (.seng k)).run = .stopped := by
  have h : KeepsBut [.regs, .ctxs] (setRun s (.seng k) .stopped) (sengStopnow k s) := by
    refine keepsBut_eachCtx k (fun x u => ?_) _
    split
    · exact keepsBut_refl _ _
    · exact keepsBut_mono (keepsBut_updCtx u k x _) (by decide)
  rw [blkSt_of_keeps h (by decide), blkSt_setRun_same]

/-! ### RUN -/

theorem run_sengRun (k : Fin 8) (s : State) : (blkSt (sengRun k s) (.seng k)).run = .going := by
  have h : KeepsBut [.regs, .ctxs] (setRun s (.seng k) .going) (sengRun k s) :=
    keepsBut_eachCtx k (fun x u => keepsBut_mono (keepsBut_updCtx u k x _) (by decide)) _
  rw [blkSt_of_keeps h (by decide), blkSt_setRun_same]

theorem keepsBut_updCheck (s : State) (c : Ck) (f : Check → Check) : KeepsBut [.checks] s (updCheck s c f) :=
  ⟨rfl, fun p hp => by cases p <;> simp_all [Part.Same]⟩

theorem run_ckRun {c : Ck} (h : (blkSt s c.blk).run = .stopped) : (blkSt (ckRun c s) c.blk).run = .going := by
  unfold ckRun
  rw [if_pos (by simp [isStopped, h])]
  rw [blkSt_of_keeps (keepsBut_updCheck _ c _) (by decide), blkSt_setRun_same]

theorem keepsBut_pvmRun (k : Fin 8) (s : State) : KeepsBut [.chans, .stks] (setRun s (.pvm k) .going) (pvmRun k s) := by
  refine keepsBut_trans (keepsBut_foldl _ (fun u c => ?_) _ _) (keepsBut_mono (keepsBut_updStack _ k _) (by decide))
  exact keepsBut_mono (keepsBut_updChan u k _ _) (by decide)

theorem run_pvmRun (k : Fin 8) (s : State) : (blkSt (stackDo k (pvmRun k) s) (.pvm k)).run = .going := by
  rw [blkSt_of_keeps (dramServed_stackDo s k _).keeps (by decide), blkSt_of_keeps (keepsBut_pvmRun k s) (by decide), blkSt_setRun_same]

theorem bank_congr {s t : State} (h : t.banks = s.banks) (u : Fin 64) (g : Fin 4) : bank t u g = bank s u g := by
  simp only [bank, h]

/-- RUN of a stopped bank group that is not swept: it runs, and is no longer wiped (R240). -/
theorem run_groupRun {u : Fin 64} {g : Fin 4} (h : (blkSt s (.bank u g)).run = .stopped) (hs : (bank s u g).sweep = false) :
    (blkSt (groupRun u g s) (.bank u g)).run = .going ∧ (bank (groupRun u g s) u g).wiped = false := by
  have hg : isGoing s (.bank u g) = false := by simp [isGoing, h]
  simp only [groupRun, hs, hg, Bool.false_eq_true, if_false]
  refine ⟨congrArg BlkSt.run (blkSt_setRun_same _ _ _), ?_⟩
  rw [bank_congr (setRun_banks _ _ _), bank_updBank, if_pos ⟨rfl, rfl⟩]

theorem goUnit_tiles (s : State) (b : Blk) : (goUnit b s).tiles = s.tiles := by
  unfold goUnit
  split
  · exact setRun_tiles s b .going
  · rfl

theorem vecNext_of_queue_nil {u : Fin 64} (h : (tile s u).vec.queue = []) : vecNext u s = s := by
  unfold vecNext
  dsimp only
  rw [h]
  exact ite_self s

/-- RUN of a stopped vector unit with nothing queued. -/
theorem run_vecRun {u : Fin 64} (h : (blkSt s (.vec u)).run = .stopped) (hq : (tile s u).vec.queue = []) :
    (blkSt (vecNext u (setUsed (goUnit (.vec u) s) (.vec u) true)) (.vec u)).run = .going := by
  have hg := run_goUnit h
  have ht : tile (setUsed (goUnit (.vec u) s) (.vec u) true) u = tile s u :=
    (tile_congr (setUsed_tiles _ _ _) u).trans (tile_congr (goUnit_tiles s _) u)
  rw [vecNext_of_queue_nil (by rw [ht]; exact hq), blkSt_setUsed_same, hg]

theorem keepsBut_recvLost (s : State) (u : Fin 64) : KeepsBut [.ocast] s (recvLost s u) := by
  unfold recvLost
  split
  · exact ⟨rfl, fun p hp => by cases p <;> simp_all [Part.Same]⟩
  · exact keepsBut_refl _ _

/-- RUN of an IDLE sequencer starts it at SEQENTRY (R169). -/
theorem seqRun_idle {u : Fin 64} (h : blkState s (.seq u) = 2) : seqRun u s = setUsed (seqStart u (recvLost s u)) (.seq u) true := by
  have hr := going_of_idle_or_running (b := .seq u) (.inl h) (by simp)
  simp [seqRun, isStopped, hr, h]

theorem cpu_seqStart (u : Fin 64) (s : State) :
    cpu (seqStart u s) (.tile u) =
      { cpu s (.tile u) with pc := BitVec.ofNat 64 (bits (reg s (Blk.key (.seq u) + Rg.seq.SEQENTRY)) 16 0), curwin := 0, res := 1,
                             intrap := false, spilled := 0, live := true, skipBrk := false, wait := .none } := by
  unfold seqStart
  exact cpu_updCpu_same s _ _

end

end Sys2Proof.Machine
end

section
/-! SUPPORT. What SOFTRST returns to reset (R18, R239, R314, R403, R507). -/

open Sys2Proof.Says

namespace Sys2Proof.Machine

theorem keepsBut_clearLog (s : State) (k : Nat) : KeepsBut [.logs] s (clearLog s k) :=
  ⟨rfl, fun p hp => by cases p <;> simp_all [Part.Same]⟩

theorem keepsBut_clearLogs (s : State) (b : Blk) : KeepsBut [.logs] s (clearLogs s b) :=
  keepsBut_foldl _ (fun s k => keepsBut_clearLog s k) _ s

theorem keepsBut_dropCounts (s : State) (b : Blk) : KeepsBut [.regs] s (dropCounts s b) := keepsBut_dropRegs s _

theorem keepsBut_dropBlk (s : State) (b : Blk) : KeepsBut [.regs] s (dropBlk s b) := keepsBut_dropRegs s _

theorem keepsBut_setRun (s : State) (b : Blk) (r : Run) : KeepsBut [.blks] s (setRun s b r) :=
  ⟨rfl, fun p hp => by cases p <;> simp_all [Part.Same]⟩

theorem keepsBut_setUsed (s : State) (b : Blk) (u : Bool) : KeepsBut [.blks] s (setUsed s b u) :=
  ⟨rfl, fun p hp => by cases p <;> simp_all [Part.Same]⟩

theorem keepsBut_orphan (p : Src → Bool) (s : State) : KeepsBut [.net, .chans, .stks] s (orphan p s) :=
  ⟨rfl, fun p hp => by cases p <;> simp_all [Part.Same, orphan]⟩

theorem keepsBut_dropGrant (s : State) (u : Fin 64) : KeepsBut [.power] s (dropGrant s u) :=
  ⟨rfl, fun p hp => by cases p <;> simp_all [Part.Same, dropGrant]⟩

theorem keepsBut_endReset (s : State) (k : Nat) : KeepsBut [.power] s (endReset s k) :=
  ⟨rfl, fun p hp => by cases p <;> simp_all [Part.Same, endReset]⟩

/-! ### Tiles -/

/-- A tile after its reset: the modes applied stay (R511), and the sequencer zeroes its memories (R162). -/
def freshTile (x : Tile) : Tile :=
  { tile0 with vec := { unit0 with compat := x.vec.compat }, seq := { proc0 with zeroing := true } }

theorem tile_tileFresh (u : Fin 64) (s : State) : tile (tileFresh true u s) u = freshTile (tile s u) := by
  have h1 : KeepsBut [.net, .chans, .stks, .power, .ocast] s (recvLost (dropGrant (orphan (isCpu (.tile u)) s) u) u) :=
    keepsBut_trans (keepsBut_mono (keepsBut_orphan _ s) (by decide))
      (keepsBut_trans (keepsBut_mono (keepsBut_dropGrant _ u) (by decide)) (keepsBut_mono (keepsBut_recvLost _ u) (by decide)))
  have h2 : ∀ v : State, KeepsBut [.regs, .blks] v (dropCounts ((tileBlks u).foldl
      (fun s b => setUsed (setRun (dropBlk s b) b .going) b false) v) (.row u)) := fun v =>
    keepsBut_trans (keepsBut_foldl _ (fun w b => keepsBut_trans (keepsBut_mono (keepsBut_dropBlk w b) (by decide))
        (keepsBut_trans (keepsBut_mono (keepsBut_setRun _ b _) (by decide)) (keepsBut_mono (keepsBut_setUsed _ b _) (by decide)))) _ v)
      (keepsBut_mono (keepsBut_dropCounts _ _) (by decide))
  unfold tileFresh
  rw [tile_congr ((h2 _).2 .tiles (by decide)), tile_updTile_same, tile_congr (h1.2 .tiles (by decide))]
  rfl

/-- SOFTRST of a tile that awaits no response, and whose reset is not under way. -/
theorem tile_tileResetReq {u : Fin 64} {s : State} (hr : resetting s (.row u) = false) (hd : tileDrained s u = true) :
    tile (tileResetReq u s) u = freshTile (tile s u) := by
  unfold tileResetReq
  rw [hr, hd]
  simp only [Bool.false_eq_true, if_false, if_true, tileReset]
  rw [tile_tileFresh, tile_congr ((keepsBut_endReset s _).2 .tiles (by decide))]

/-- A register write to a block's header is served only where no reset is requested (R507). -/
theorem resetting_of_reaches {who : Init} {b : Blk} {off : Nat} {s : State} (ho : off < 0x80) (h : Reaches who b 0 off s) :
    resetting s b = false := by
  obtain ⟨hc, hx⟩ := h
  simp only [regCheck, hx, ho] at hc
  cases hr : resetting s b with
  | false => rfl
  | true =>
    rw [hr] at hc
    split at hc <;> simp_all [Rsn.partition, Rsn.resetAbort]

/-! ### Bank groups, channels, check channels -/

theorem sweep_sweepCut (u : Fin 64) (g : Fin 4) (s : State) : (bank (sweepCut u g s) u g).sweep = false := by
  unfold sweepCut
  split
  · rename_i h; simpa using h
  · simp [bank_updBank]

theorem groupReset_bank (u : Fin 64) (g : Fin 4) (s : State) :
    (blkSt (groupReset u g s) (.bank u g)).run = .stopped ∧ (bank (groupReset u g s) u g).wiped = false ∧
      (bank (groupReset u g s) u g).sweep = false ∧ (bank (groupReset u g s) u g).wbs = [] := by
  have hk : ∀ v : State, KeepsBut [.regs, .logs, .blks] v
      (setRun (dropRegs (clearLogs (dropCounts v (.bank u g)) (.bank u g)) (fun k => k == Blk.key (.bank u g) + Rg.bank.BGCTL))
        (.bank u g) .stopped) := fun v =>
    keepsBut_trans (keepsBut_mono (keepsBut_dropCounts v _) (by decide))
      (keepsBut_trans (keepsBut_mono (keepsBut_clearLogs _ _) (by decide))
        (keepsBut_trans (keepsBut_mono (keepsBut_dropRegs _ _) (by decide)) (keepsBut_mono (keepsBut_setRun _ _ _) (by decide))))
  unfold groupReset
  dsimp only
  refine ⟨congrArg BlkSt.run (blkSt_setRun_same _ _ _), ?_⟩
  rw [bank_congr ((hk _).2 .banks (by decide)), bank_updBank, if_pos ⟨rfl, rfl⟩]
  exact ⟨rfl, sweep_sweepCut u g s, rfl⟩

/-- SOFTRST of a channel: it is neither frozen nor failed in training (R314). -/
theorem chanReset_chan (k : Fin 8) (c : Fin 32) (s : State) :
    (chan (stackDo k (chanReset k c) s) k c).frozen = none ∧ (chan (stackDo k (chanReset k c) s) k c).failed = false := by
  obtain ⟨h1, h2⟩ := (dramServed_stackDo s k (chanReset k c)).fault k c
  rw [h1, h2]
  have hk : ∀ v : State, KeepsBut [.regs, .logs, .blks] v
      (setRun (dropRegs (clearLogs (dropCounts v (.chan k c)) (.chan k c)) (fun x => x == Blk.key (.chan k c) + Rg.chan.CHCTL))
        (.chan k c) .going) := fun v =>
    keepsBut_trans (keepsBut_mono (keepsBut_dropCounts v _) (by decide))
      (keepsBut_trans (keepsBut_mono (keepsBut_clearLogs _ _) (by decide))
        (keepsBut_trans (keepsBut_mono (keepsBut_dropRegs _ _) (by decide)) (keepsBut_mono (keepsBut_setRun _ _ _) (by decide))))
  unfold chanReset
  dsimp only
  rw [chan_congr ((hk _).2 .chans (by decide)), chan_updChan, if_pos ⟨rfl, rfl⟩]
  exact ⟨rfl, rfl⟩

theorem check_congr {s t : State} (h : t.checks = s.checks) (c : Ck) : check t c = check s c := by simp only [check, h]

theorem ckReset_check (c : Ck) (s : State) : check (ckReset c s) c = check0 := by
  have hk : ∀ (v : State) p, KeepsBut [.regs, .logs, .blks] v (setRun (clearLog (dropRegs v p) c.blk.key) c.blk .going) := fun v p =>
    keepsBut_trans (keepsBut_mono (keepsBut_dropRegs v p) (by decide))
      (keepsBut_trans (keepsBut_mono (keepsBut_clearLog _ _) (by decide)) (keepsBut_mono (keepsBut_setRun _ _ _) (by decide)))
  unfold ckReset
  dsimp only
  rw [check_congr ((hk _ _).2 .checks (by decide)), check_updCheck, if_pos rfl]

end Sys2Proof.Machine
end

section
/-! What the requests in BLKCTL do by the state of their block (O48, first part). -/

open Sys2Proof.Says

namespace Sys2Proof.Machine

section
variable {who : Init} {b : Blk} {s : State}

/-! ### Requests that nothing comes of -/

/-- Nothing but the events of the block's pages. -/
def OnlyEvents (b : Blk) (s t : State) : Prop := KeepsBut [.regs] s t ∧ RegsBut (evKeys (putPages b 0 ++ ctlPages b)) s t

theorem blkctl_ignored (hb : b.wf = true) (hr : Reaches who b 0 Rg.hdr.BLKCTL s) (h : blkState s b < 2 ∨ blkState s b = 6) :
    ∀ i ∈ [Instr.blkctlRun b who, .blkctlStop b who, .blkctlStopnow b who], ∃ t, exec i s = .next t ∧ OnlyEvents b s t := by
  have key : ∀ req : W32, req.toNat < 2 ^ 8 → req.getLsbD 3 = false →
      ∃ t, act (blkReqCmd b who req) s = .next t ∧ OnlyEvents b s t := by
    intro req hq h3
    refine blkReqCmd_ignored req hq hb hr fun u hu => ?_
    rcases h with h | h
    · exact blkReq_off _ (hu ▸ h)
    · exact blkReq_fault _ (hu.trans h) ((getLsbD_ctlWord s b req (by decide)).trans h3)
  intro i hi
  simp only [List.mem_cons, List.not_mem_nil, or_false] at hi
  rcases hi with rfl | rfl | rfl
  · obtain ⟨t, ht, h⟩ := key 1 (by decide) (by decide)
    exact ⟨t, (if_pos hb).trans ht, h⟩
  · obtain ⟨t, ht, h⟩ := key 2 (by decide) (by decide)
    exact ⟨t, (if_pos hb).trans ht, h⟩
  · obtain ⟨t, ht, h⟩ := key 4 (by decide) (by decide)
    exact ⟨t, (if_pos hb).trans ht, h⟩

/-- SOFTRST of a block that is OFF (R44). -/
theorem blkctlSoftrst_off (hb : b.wf = true) (hr : Reaches who b 0 Rg.hdr.BLKCTL s) (h : blkState s b < 2) :
    ∃ t, exec (.blkctlSoftrst b who) s = .next t ∧ OnlyEvents b s t := by
  obtain ⟨t, ht, h⟩ := blkReqCmd_ignored 8 (by decide) hb hr fun u hu => blkReq_off _ (hu ▸ h)
  exact ⟨t, (if_pos hb).trans ht, h⟩

/-- STOP of a block that has nothing to stop. -/
theorem blkctlStop_ignored (hb : b.wf = true) (hr : Reaches who b 0 Rg.hdr.BLKCTL s) (h : blkState s b = 2 ∨ blkState s b = 3)
    (hs : ∀ u, stopBlk b u = u) : ∃ t, exec (.blkctlStop b who) s = .next t ∧ OnlyEvents b s t := by
  obtain ⟨t, ht, h⟩ := blkReqCmd_ignored 2 (by decide) hb hr fun u hu =>
    (blkReq_stop _ (hu ▸ h) (getLsbD_ctlWord _ _ _ (by decide)) (getLsbD_ctlWord _ _ _ (by decide))
      (getLsbD_ctlWord _ _ _ (by decide))).trans (hs u)
  exact ⟨t, (if_pos hb).trans ht, h⟩

/-! ### Requests that act -/

theorem blkctlStop_stops (hb : b.wf = true) (hr : Reaches who b 0 Rg.hdr.BLKCTL s) (h : blkState s b = 2 ∨ blkState s b = 3)
    (hs : Stops (stopBlk b s) b) : ∃ t, exec (.blkctlStop b who) s = .next t ∧ Stops t b := by
  obtain ⟨t, ht, ha⟩ := blkctlStop_acts hb hr h
  exact ⟨t, ht, stops_congr hs (ha.blkSt_eq b)⟩

theorem blkctlStopnow_stopped (hb : b.wf = true) (hr : Reaches who b 0 Rg.hdr.BLKCTL s)
    (h : blkState s b = 2 ∨ blkState s b = 3 ∨ (blkState s b = 4 ∧ zeroingBlk s b = false))
    (hs : (blkSt (stopnowBlk b s) b).run = .stopped) :
    ∃ t, exec (.blkctlStopnow b who) s = .next t ∧ (blkSt t b).run = .stopped := by
  have hz : zeroingBlk s b = false := by
    rcases h with h | h | h
    · exact (blkState_settled (.inl h)).1
    · exact (blkState_settled (.inr (.inl h))).1
    · exact h.2
  obtain ⟨t, ht, ha⟩ := blkctlStopnow_acts hb hr (by omega) hz
  exact ⟨t, ht, by rw [ha.blkSt_eq b, hs]⟩

theorem blkctlRun_going (hb : b.wf = true) (hr : Reaches who b 0 Rg.hdr.BLKCTL s) (h : blkState s b = 5)
    (hs : (blkSt (runBlk b s) b).run = .going) : ∃ t, exec (.blkctlRun b who) s = .next t ∧ (blkSt t b).run = .going := by
  obtain ⟨t, ht, ha⟩ := blkctlRun_acts hb hr (.inr (.inr h))
  exact ⟨t, ht, by rw [ha.blkSt_eq b, hs]⟩

/-- RUN of an IDLE sequencer (R169). -/
theorem blkctlRun_starts {u : Fin 64} (hr : Reaches who (.seq u) 0 Rg.hdr.BLKCTL s) (h : blkState s (.seq u) = 2) :
    ∃ t, exec (.blkctlRun (.seq u) who) s = .next t ∧ (cpu t (.tile u)).live = true ∧
      (cpu t (.tile u)).pc.toNat = bits (reg s (Blk.key (.seq u) + Rg.seq.SEQENTRY)) 16 0 ∧ (cpu t (.tile u)).curwin = 0 ∧
      (cpu t (.tile u)).intrap = false ∧ (blkSt t (.seq u)).used = true := by
  obtain ⟨t, ht, ha⟩ := blkctlRun_acts (b := .seq u) rfl hr (.inl h)
  have hrun : runBlk (.seq u) s = setUsed (seqStart u (recvLost s u)) (.seq u) true := seqRun_idle h
  rw [hrun] at ha
  have hk := keepsBut_recvLost s u
  have hreg : ∀ k, reg (recvLost s u) k = reg s k := reg_congr (hk.2 .regs (by decide)) (hk.2 .fuses (by decide))
  have hc := (cpu_congr (ha .tiles (by decide)) (ha .cores (by decide)) (.tile u)).trans (cpu_seqStart u (recvLost s u))
  rw [hreg] at hc
  have hlt : bits (reg s (Blk.key (.seq u) + Rg.seq.SEQENTRY)) 16 0 < 2 ^ 64 :=
    Nat.lt_of_lt_of_le (Nat.mod_lt _ (by decide)) (by decide)
  refine ⟨t, ht, ?_⟩
  rw [hc, ha.blkSt_eq, blkSt_setUsed_same]
  exact ⟨rfl, Nat.mod_eq_of_lt hlt, rfl, rfl, rfl⟩

end

/-! ### The clauses, for every kind of block -/

section
variable {who : Init} {s : State}

/-- SOFTRST of a tile's block resets the tile (R507). -/
theorem blkctlSoftrst_tile {b : Blk} {u : Fin 64} (hb : b.wf = true) (hr : Reaches who b 0 Rg.hdr.BLKCTL s) (h : 2 ≤ blkState s b)
    (hsoft : softrstBlk b s = tileResetReq u s) (hres : resetting s (.row u) = resetting s b) (hd : tileDrained s u = true) :
    ∃ t, exec (.blkctlSoftrst b who) s = .next t ∧ tile t u = freshTile (tile s u) := by
  obtain ⟨t, ht, ha⟩ := blkctlSoftrst_acts hb hr h
  have hu := tile_tileResetReq (hres.trans (resetting_of_reaches (by decide) hr)) hd
  rw [hsoft] at ha
  exact ⟨t, ht, (tile_congr (ha .tiles (by decide)) u).trans hu⟩

theorem blockRequestsFollowTheBlockState : BlockRequestsFollowTheBlockState := by
  intro b who s hb hr
  refine ⟨fun i hi h => blkctl_ignored hb hr h i hi, blkctlSoftrst_off hb hr, fun h => ?_, fun h => ?_, fun h => ?_, fun h => ?_, fun h => ?_⟩
  case refine_1 =>
    cases b with
    | acnt u => exact blkctlStop_ignored hb hr h fun _ => rfl
    | probe d r => exact blkctlStop_ignored hb hr h fun _ => rfl
    | ptab d => exact blkctlStop_ignored hb hr h fun _ => rfl
    | loader => exact blkctlStop_ignored hb hr h fun _ => rfl
    | conc => exact blkctlStop_ignored hb hr h fun _ => rfl
    | ptm => exact blkctlStop_ignored hb hr h fun _ => rfl
    | pcie e => exact blkctlStop_ignored hb hr h fun _ => rfl
    | ocast => exact blkctlStop_ignored hb hr h fun _ => rfl
    | sec => exact blkctlStop_ignored hb hr h fun _ => rfl
    | region r =>
      intro h1 h2
      obtain ⟨t, ht, ha⟩ := blkctlStop_acts hb hr h
      exact ⟨t, ht, by rw [ha.blkSt_eq]; exact run_regStop h1 h2 (going_of_idle_or_running h (by simp))⟩
    | row u => exact blkctlStop_stops hb hr h (stops_rowSettle u s)
    | seq u => exact blkctlStop_stops hb hr h (stops_seqStop u s)
    | vec u => exact blkctlStop_stops hb hr h (stops_vecSettle u s)
    | bank u g => exact blkctlStop_stops hb hr h (stops_setRun s _ (.inr rfl))
    | seng k => exact blkctlStop_stops hb hr h (stops_ite_stopped _ _ _)
    | chan k c => exact blkctlStop_stops hb hr h (stops_stackDo k _ s _)
    | nve k e => exact blkctlStop_stops hb hr h (stops_ite_stopped _ _ _)
    | pvm k => exact blkctlStop_stops hb hr h (stops_stackDo k _ s _)
    | check k c => exact blkctlStop_stops hb hr h (stops_ite_stopping s _ _)
    | pcheck c => exact blkctlStop_stops hb hr h (stops_ite_stopping s _ _)
    | port p => exact blkctlStop_stops hb hr h (stops_portStop (going_of_idle_or_running h (by simp)))
    | lanes p => exact blkctlStop_stops hb hr h (stops_setRun _ _ (.inr rfl))
  case refine_2 =>
    cases b with
    | row u => exact blkctlStopnow_stopped hb hr h (congrArg BlkSt.run (blkSt_setRun_same _ _ _))
    | seq u => exact blkctlStopnow_stopped hb hr h (congrArg BlkSt.run (blkSt_setRun_same _ _ _))
    | vec u => exact blkctlStopnow_stopped hb hr h (congrArg BlkSt.run (blkSt_setRun_same _ _ _))
    | seng k => exact blkctlStopnow_stopped hb hr h (run_sengStopnow k s)
    | nve k e => exact blkctlStopnow_stopped hb hr h (congrArg BlkSt.run (blkSt_setRun_same _ _ _))
    | check k c => exact blkctlStopnow_stopped hb hr h (congrArg BlkSt.run (blkSt_setRun_same _ _ _))
    | pcheck c => exact blkctlStopnow_stopped hb hr h (congrArg BlkSt.run (blkSt_setRun_same _ _ _))
    | port p => exact blkctlStopnow_stopped hb hr h (congrArg BlkSt.run (blkSt_setRun_same _ _ _))
    | _ => exact trivial
  case refine_3 =>
    have hst := stopped_of_blkState h
    cases b with
    | seng k => exact blkctlRun_going hb hr h (run_sengRun k s)
    | chan k c => exact blkctlRun_going hb hr h (run_goUnit hst)
    | check k c => exact blkctlRun_going hb hr h (run_ckRun (c := .ord k c) hst)
    | pcheck c => exact blkctlRun_going hb hr h (run_ckRun (c := .priv c) hst)
    | pvm k =>
      have hrun : runBlk (.pvm k) s = stackDo k (pvmRun k) s := if_pos (by simp [isStopped, hst])
      exact blkctlRun_going hb hr h (hrun ▸ run_pvmRun k s)
    | bank u g =>
      intro hs
      obtain ⟨t, ht, ha⟩ := blkctlRun_acts hb hr (.inr (.inr h))
      have hg := run_groupRun hst hs
      exact ⟨t, ht, by rw [ha.blkSt_eq]; exact hg.1, by rw [bank_congr (ha .banks (by decide))]; exact hg.2⟩
    | vec u => intro hq; exact blkctlRun_going hb hr h (run_vecRun hst hq)
    | _ => exact trivial
  case refine_4 =>
    cases b with
    | seq u => exact blkctlRun_starts hr h
    | _ => exact trivial
  case refine_5 =>
    cases b with
    | row u => intro hd; exact blkctlSoftrst_tile hb hr h rfl rfl hd
    | seq u => intro hd; exact blkctlSoftrst_tile hb hr h rfl rfl hd
    | vec u => intro hd; exact blkctlSoftrst_tile hb hr h rfl rfl hd
    | bank u g =>
      obtain ⟨t, ht, ha⟩ := blkctlSoftrst_acts hb hr h
      have hg := groupReset_bank u g s
      exact ⟨t, ht, by rw [ha.blkSt_eq, bank_congr (ha .banks (by decide))]; exact hg⟩
    | chan k c =>
      obtain ⟨t, ht, ha⟩ := blkctlSoftrst_acts hb hr h
      exact ⟨t, ht, by rw [chan_congr (ha .chans (by decide))]; exact chanReset_chan k c s⟩
    | check k c =>
      obtain ⟨t, ht, ha⟩ := blkctlSoftrst_acts hb hr h
      exact ⟨t, ht, (check_congr (ha .checks (by decide)) _).trans (ckReset_check (.ord k c) s)⟩
    | _ => exact trivial

end

end Sys2Proof.Machine
end

section
/-! SUPPORT. Writes of the epoch field and of BLKPART (R422, R427, R511). -/

open Sys2Proof.Says

namespace Sys2Proof.Machine

/-! ### The requested epoch -/

section
variable {who : Init} {b : Blk} {s : State}

theorem keepsBut_sev (s : State) (u : Fin 64) (n : Nat) : KeepsBut [.tiles] s (sev s u n) := keepsBut_updTile s u _

theorem tileOn_congr {ps : List Part} {t : State} (h : KeepsBut ps s t) (hp : ∀ p ∈ ps, p ∉ [Part.fuses, .acc, .power]) (u : Fin 64) :
    tileOn t u = tileOn s u := by
  have hf : t.fuses = s.fuses := h.2 .fuses fun hq => hp _ hq (by decide)
  have ha : t.acc = s.acc := h.2 .acc fun hq => hp _ hq (by decide)
  have hw : t.power = s.power := h.2 .power fun hq => hp _ hq (by decide)
  simp only [tileOn, tileGood, domOn, hf, ha, hw]

/-- A change of the requested epoch: the field, and event 10 of a tile whose row or vector unit is asked. -/
theorem epochRequest_cases (b : Blk) (e : BitVec 8) (s : State) :
    (reqEpoch s b = e ∧ epochRequest b e s = s) ∨
    (reqEpoch s b ≠ e ∧ ((∃ u, (b = .row u ∨ b = .vec u) ∧ tileOn s u = true ∧ epochRequest b e s = sev (setReqEpoch s b e) u 10) ∨
      ((∀ u, b = .row u ∨ b = .vec u → tileOn s u = false) ∧ epochRequest b e s = setReqEpoch s b e))) := by
  by_cases h : reqEpoch s b = e
  · exact .inl ⟨h, epochRequest_same h⟩
  refine .inr ⟨h, ?_⟩
  have hon : ∀ u, tileOn (setReqEpoch s b e) u = tileOn s u := tileOn_congr (keepsBut_setReg s _ _) (by decide)
  unfold epochRequest
  rw [if_neg h]
  cases b with
  | row u =>
    cases ht : tileOn s u with
    | true => exact .inl ⟨u, .inl rfl, ht, if_pos ((hon u).trans ht)⟩
    | false => exact .inr ⟨by simp [ht], if_neg (by rw [hon, ht]; decide)⟩
  | vec u =>
    cases ht : tileOn s u with
    | true => exact .inl ⟨u, .inr rfl, ht, if_pos ((hon u).trans ht)⟩
    | false => exact .inr ⟨by simp [ht], if_neg (by rw [hon, ht]; decide)⟩
  | _ => exact .inr ⟨by simp, rfl⟩

theorem keepsBut_epochRequest (b : Blk) (e : BitVec 8) (s : State) : KeepsBut [.regs, .tiles] s (epochRequest b e s) := by
  have h : KeepsBut [.regs, .tiles] s (setReqEpoch s b e) := keepsBut_mono (keepsBut_setReg s _ _) (by decide)
  rcases epochRequest_cases b e s with ⟨-, hf⟩ | ⟨-, ⟨u, -, -, hf⟩ | ⟨-, hf⟩⟩
  · rw [hf]; exact keepsBut_refl _ _
  · rw [hf]; exact keepsBut_trans h (keepsBut_mono (keepsBut_sev _ u 10) (by decide))
  · rw [hf]; exact h

theorem reg_sev (s : State) (u : Fin 64) (n k : Nat) : reg (sev s u n) k = reg s k :=
  reg_congr ((keepsBut_sev s u n).2 .regs (by decide)) ((keepsBut_sev s u n).2 .fuses (by decide)) k

/-- The bits of a word that holds a byte at bit 8. -/
theorem bits_byte8 (e : BitVec 8) : bits (w32 (e.toNat * 2 ^ 8)) 15 8 = e.toNat := by
  have := e.isLt
  simp only [bits, w32, BitVec.toNat_ofNat, Nat.shiftRight_eq_div_pow]
  omega

theorem reg_epochRequest (b : Blk) (e : BitVec 8) (s : State) :
    bits (reg (epochRequest b e s) (b.key + Rg.hdr.BLKCTL)) 15 8 = e.toNat := by
  rcases epochRequest_cases b e s with ⟨he, hf⟩ | ⟨-, ⟨u, -, -, hf⟩ | ⟨-, hf⟩⟩
  · rw [hf, ← he, reqEpoch, BitVec.toNat_ofNat]
    exact (Nat.mod_eq_of_lt (Nat.mod_lt _ (by decide))).symm
  · rw [hf, reg_sev, setReqEpoch, reg_setReg_same, bits_byte8]
  · rw [hf, setReqEpoch, reg_setReg_same, bits_byte8]

theorem regsBut_epochRequest (b : Blk) (e : BitVec 8) (s : State) : RegsBut [b.key + Rg.hdr.BLKCTL] s (epochRequest b e s) := by
  rcases epochRequest_cases b e s with ⟨he, hf⟩ | ⟨-, ⟨u, -, -, hf⟩ | ⟨-, hf⟩⟩
  · rw [hf]; exact fun _ _ => rfl
  · rw [hf]; exact fun k hk => (reg_sev _ u 10 k).trans (regsBut_setReg s _ _ k hk)
  · rw [hf]; exact regsBut_setReg s _ _

theorem tile_sev (s : State) (u v : Fin 64) (n : Nat) :
    tile (sev s u n) v = { tile s v with seq := { (tile s v).seq with sevlatch := (tile (sev s u n) v).seq.sevlatch } } := by
  have h : tile (sev s u n) v = if v = u then
      { tile s u with seq := { (tile s u).seq with sevlatch := (tile s u).seq.sevlatch ||| w32 (2 ^ n) } } else tile s v :=
    tile_updTile s u v _
  rw [h]
  split
  · subst_vars; rfl
  · rfl

theorem tile_setReqEpoch (s : State) (b : Blk) (e : BitVec 8) (v : Fin 64) : tile (setReqEpoch s b e) v = tile s v :=
  tile_congr ((keepsBut_setReg s _ _).2 .tiles (by decide)) v

/-- Of a tile nothing but its event latch. -/
theorem tile_epochRequest (b : Blk) (e : BitVec 8) (s : State) (v : Fin 64) :
    tile (epochRequest b e s) v =
      { tile s v with seq := { (tile s v).seq with sevlatch := (tile (epochRequest b e s) v).seq.sevlatch } } := by
  rcases epochRequest_cases b e s with ⟨he, hf⟩ | ⟨-, ⟨u, -, -, hf⟩ | ⟨-, hf⟩⟩
  · rw [hf]
  · rw [hf, ← tile_setReqEpoch s b e]
    exact tile_sev _ u v 10
  · rw [hf, tile_setReqEpoch]

theorem latch_epochRequest {e : BitVec 8} {u : Fin 64} (hb : b = .row u ∨ b = .vec u) (ht : tileOn s u = true)
    (he : reqEpoch s b ≠ e) : (tile (epochRequest b e s) u).seq.sevlatch.getLsbD 10 = true := by
  rcases epochRequest_cases b e s with ⟨he', -⟩ | ⟨-, ⟨v, hv, -, hf⟩ | ⟨hn, -⟩⟩
  · exact absurd he' he
  · have huv : v = u := by rcases hb with rfl | rfl <;> simpa [eq_comm] using hv
    rw [hf, huv]
    show (cpu (sev _ u 10) (.tile u)).sevlatch.getLsbD 10 = true
    rw [sev, cpu_updCpu_same, BitVec.getLsbD_or]
    simp [w32]
  · rw [hn u hb] at ht; cases ht

/-! ### A write of the epoch alone -/

/-- A BLKCTL word without requests. -/
theorem blkReq_none {v : W32} (h3 : v.getLsbD 3 = false) (h2 : v.getLsbD 2 = false) (h1 : v.getLsbD 1 = false)
    (h0 : v.getLsbD 0 = false) : blkReq b v s = s := by
  unfold blkReq
  simp only [h3, h2, h1, h0, Bool.false_eq_true, if_false, ite_self]

theorem getLsbD_byte8 (e : BitVec 8) {i : Nat} (hi : i < 8) : (w32 (e.toNat * 2 ^ 8)).getLsbD i = false := by
  rw [w32, BitVec.getLsbD_ofNat, Nat.testBit_mul_two_pow, Bool.and_eq_false_iff]
  exact .inr (by simp [Nat.not_le.mpr hi])

/-- The state after the epoch field alone is written. -/
def epochTo (b : Blk) (e : BitVec 8) : State → State :=
  watched (putPages b 0) (watched (ctlPages b) (epochRequest b e))

theorem blkCmd_epoch (e : BitVec 8) (hb : b.wf = true) (hr : Reaches who b 0 Rg.hdr.BLKCTL s) :
    blkCmd who b 0 Rg.hdr.BLKCTL (w32 (e.toNat * 2 ^ 8)) s = epochTo b e s := by
  have hctl : blkctl b (w32 (e.toNat * 2 ^ 8)) = watched (ctlPages b) (epochRequest b e) := by
    funext u
    have hz := fun i (hi : i < 8) => getLsbD_byte8 e hi
    unfold blkctl watched
    dsimp only
    rw [blkReq_none (hz 3 (by decide)) (hz 2 (by decide)) (hz 1 (by decide)) (hz 0 (by decide)), bits_byte8, BitVec.ofNat_toNat,
      BitVec.setWidth_eq]
  have hlog : (watched (ctlPages b) (epochRequest b e) (clearLog s b.key)).logs = (clearLog s b.key).logs :=
    (watched_logs _ _ _).trans ((keepsBut_epochRequest b e _).2 .logs (by decide))
  rw [blkCmd_BLKCTL _ hb hr, hctl]
  unfold epochTo
  unfold watched at hlog ⊢
  rw [logRequester_of_no_log who b _ s hlog]

theorem modeEpochDirectWrite_eq (e : BitVec 8) (hb : b.wf = true) (hr : Reaches who b 0 Rg.hdr.BLKCTL s) :
    exec (.modeEpochDirectWrite b who e) s = .next (epochTo b e s) ∧ KeepsBut [.regs, .tiles] s (epochTo b e s) := by
  have hk : KeepsBut [.regs, .tiles] s (epochTo b e s) :=
    keepsBut_watched_of _ (keepsBut_watched_of _ (keepsBut_epochRequest b e s) (by decide)) (by decide)
  exact ⟨(if_pos hb).trans (act_eq_of_keeps (blkCmd_epoch e hb hr) hk (by decide) (by decide)), hk⟩

theorem epochTo_tiles (b : Blk) (e : BitVec 8) (s : State) : (epochTo b e s).tiles = (epochRequest b e s).tiles :=
  (watched_tiles _ _ _).trans (watched_tiles _ _ _)

theorem regsBut_epochTo (b : Blk) (e : BitVec 8) (s : State) :
    RegsBut ([b.key + Rg.hdr.BLKCTL] ++ evKeys (putPages b 0 ++ ctlPages b)) s (epochTo b e s) := by
  refine regsBut_mono (regsBut_watched_of _ (regsBut_watched_of _ (regsBut_epochRequest b e s))) ?_
  simp only [evKeys, List.map_append, List.mem_append]
  tauto

theorem reg_epochTo (b : Blk) (e : BitVec 8) (s : State) :
    bits (reg (epochTo b e s) (b.key + Rg.hdr.BLKCTL)) 15 8 = e.toNat := by
  have hm : (b.key + Rg.hdr.BLKCTL) % 0x1000 ≠ 0x20 := by
    have := key_mod b
    simp only [Rg.hdr.BLKCTL]
    omega
  unfold epochTo
  rw [reg_watched_off _ _ _ hm, reg_watched_off _ _ _ hm, reg_epochRequest]

end

end Sys2Proof.Machine
end

section
/-! SUPPORT. Writes of BLKPART, and blocks that have stopped (R199, R326, R403, R422, R427, R483, R504). -/

open Sys2Proof.Says

namespace Sys2Proof.Machine

section
variable {who : Init} {b : Blk} {v : W32} {s : State}

/-! ### BLKPART -/

theorem blkCmd_BLKPART (v : W32) (hb : b.wf = true) (hr : Reaches who b 0 Rg.hdr.BLKPART s) :
    blkCmd who b 0 Rg.hdr.BLKPART v s = watched (putPages b 0) (logRequester who b (ownPut b 0 v)) s := by
  have hp := Blk_npages_pos b
  exact (regCmd_passes v hb hp (by decide) (by decide) hr.1).trans (regWrite_hdr v hr.2 (regAt_BLKPART b 0) (by decide))

/-- The key of a block's BLKPART. -/
def ownerKey (b : Blk) : Nat := (ownerHome b).key + Rg.hdr.BLKPART

theorem ownerKey_mod (b : Blk) : ownerKey b % 0x1000 = Rg.hdr.BLKPART := by
  have := key_mod (ownerHome b)
  simp only [ownerKey, Rg.hdr.BLKPART]
  omega

theorem ownPut_fixed (h : ownerFixed b = true) : ownPut b 0 v s = s := by simp [ownPut, h]

/-- Whether a write of BLKPART changes the owner (R427, R483). -/
def ownMoves (s : State) (b : Blk) (v : W32) : Prop := ownClean s b = true ∧ (bits v 3 0 = 0 ∨ s.power.mst = .ready)

theorem ownClean_clearLog (s : State) (k : Nat) (b : Blk) : ownClean (clearLog s k) b = ownClean s b := by
  cases b <;> simp only [ownClean, blkState_clearLog] <;> rfl

theorem keepsBut_updPort (s : State) (p : Fin 96) (f : Port → Port) : KeepsBut [.ports] s (updPort s p f) :=
  ⟨rfl, fun q hq => by cases q <;> simp_all [Part.Same]⟩

theorem keepsBut_ownFresh (b : Blk) (s : State) : KeepsBut [.regs, .logs, .checks, .ports] s (ownFresh b s) := by
  unfold ownFresh
  split
  · exact keepsBut_trans (keepsBut_mono (keepsBut_dropRegs s _) (by decide))
      (keepsBut_trans (keepsBut_mono (keepsBut_clearLogs _ _) (by decide)) (keepsBut_mono (keepsBut_updCheck _ _ _) (by decide)))
  · exact keepsBut_trans (keepsBut_mono (keepsBut_dropBlk s _) (by decide)) (keepsBut_mono (keepsBut_updPort _ _ _) (by decide))
  · exact keepsBut_refl _ _

/-- Blocks that a change of owner returns to reset (R397, R483). -/
def ownResets : Blk → Bool
  | .check _ _ | .port _ => true
  | _ => false

theorem ownFresh_eq (h : ownResets b = false) : ownFresh b s = s := by
  cases b with
  | check | port => cases h
  | _ => rfl

/-- The owner of a block changes, and some blocks return to reset with it. -/
theorem ownPut_moves (hf : ownerFixed b = false) (h : ownMoves s b v) :
    ∃ u, ownPut b 0 v s = setReg u (ownerKey b) (w32 (bits v 3 0)) ∧ (u = s ∨ u = ownFresh b s) := by
  obtain ⟨hc, hp⟩ := h
  have hn : (bits v 3 0 != 0 && s.power.mst != .ready) = false := by rcases hp with hp | hp <;> simp [hp]
  unfold ownPut
  simp only [hf, hc, hn, Bool.not_true, Bool.or_false, Bool.false_eq_true, if_false]
  cases b with
  | port p =>
    exact ⟨_, rfl, (em _).imp (if_pos ·) (if_neg ·)⟩
  | _ => exact ⟨_, rfl, .inr rfl⟩

theorem ownPut_moves_plain (hf : ownerFixed b = false) (hn : ownResets b = false) (h : ownMoves s b v) :
    ownPut b 0 v s = setReg s (ownerKey b) (w32 (bits v 3 0)) := by
  obtain ⟨u, hu, rfl | rfl⟩ := ownPut_moves hf h
  · exact hu
  · rw [hu, ownFresh_eq hn]

theorem ownPut_refused (hf : ownerFixed b = false) (h : ownClean s b = false ∨ (bits v 3 0 ≠ 0 ∧ s.power.mst ≠ .ready)) :
    ownPut b 0 v s = refuseOwn s b 0 := by
  have hn : (!ownClean s b || (bits v 3 0 != 0 && s.power.mst != .ready)) = true := by
    rcases h with h | ⟨h1, h2⟩ <;> simp [*]
  simp only [ownPut, hf, hn, Bool.false_eq_true, if_false, if_true]

/-- A refused change of owner is an entry in the log of the block whose BLKPART it is. -/
theorem refuseOwn_eq (hf : ownerFixed b = false) : ∃ w0 w1 w2 w3, refuseOwn s b 0 = logE s (ownerHome b).key w0 w1 w2 w3 := by
  cases b with
  | row | seq | vec | acnt | bank | nve | check | region | port => exact ⟨_, _, _, _, rfl⟩
  | _ => simp [ownerFixed] at hf

/-- The owner is what BLKPART holds. -/
theorem ownerOf_eq (s : State) (b : Blk) : ownerOf s b = BitVec.ofNat 4 (regN s (ownerKey b) % 16) := rfl

theorem ownerOf_of_reg {t : State} {p : Nat} (h : reg t (ownerKey b) = w32 p) (hp : p < 16) : ownerOf t b = BitVec.ofNat 4 p := by
  rw [ownerOf_eq, regN, h, w32, BitVec.toNat_ofNat, Nat.mod_eq_of_lt (by omega : p < 2 ^ 32), Nat.mod_eq_of_lt hp]

/-- The state after a write of BLKPART. -/
def ownTo (who : Init) (b : Blk) (v : W32) : State → State := watched (putPages b 0) (logRequester who b (ownPut b 0 v))

theorem blkpartWrite_eq (hb : b.wf = true) (hr : Reaches who b 0 Rg.hdr.BLKPART s) {ps : List Part}
    (hk : KeepsBut ps s (ownTo who b v s)) (hf : Part.fuses ∉ ps) (hc : Part.clock ∉ ps) :
    exec (.blkpartWrite b who v) s = .next (ownTo who b v s) :=
  (if_pos hb).trans (act_eq_of_keeps (blkCmd_BLKPART v hb hr) hk hf hc)

theorem ownTo_reg (who : Init) (b : Blk) (v : W32) (s : State) : reg (ownTo who b v s) (ownerKey b) = reg (ownPut b 0 v s) (ownerKey b) := by
  unfold ownTo
  rw [reg_watched_off _ _ _ (by rw [ownerKey_mod]; decide), reg_logRequester]

/-- A write of BLKPART that logs nothing. -/
theorem ownTo_of_no_log (h : (ownPut b 0 v (clearLog s b.key)).logs = (clearLog s b.key).logs) :
    ownTo who b v s = watched (putPages b 0) (ownPut b 0 v) s := by
  unfold ownTo watched
  rw [logRequester_of_no_log who b _ s h]

theorem blkpartWrite_fixed (hb : b.wf = true) (hr : Reaches who b 0 Rg.hdr.BLKPART s) (hf : ownerFixed b = true) :
    ∃ t, exec (.blkpartWrite b who v) s = .next t ∧ KeepsBut [.regs] s t ∧ RegsBut (evKeys (putPages b 0)) s t := by
  have h : ownTo who b v s = watched (putPages b 0) (ownPut b 0 v) s := ownTo_of_no_log (congrArg State.logs (ownPut_fixed hf))
  have h0 : ownPut b 0 v s = s := ownPut_fixed hf
  have hk : KeepsBut [.regs] s (ownTo who b v s) := by
    rw [h]; exact keepsBut_watched_of _ (by rw [h0]; exact keepsBut_refl _ _) (by decide)
  refine ⟨_, blkpartWrite_eq hb hr hk (by decide) (by decide), hk, ?_⟩
  rw [h]
  have := regsBut_watched_of (ks := []) (putPages b 0) (f := ownPut b 0 v) (s := s) (by rw [h0]; exact fun _ _ => rfl)
  rwa [List.nil_append] at this

theorem bits_lt_16 (v : W32) : bits v 3 0 < 16 := Nat.mod_lt _ (by decide)

/-- A change of owner that is allowed (R427). -/
theorem blkpartWrite_moves (hb : b.wf = true) (hr : Reaches who b 0 Rg.hdr.BLKPART s) (hf : ownerFixed b = false)
    (h : ownMoves s b v) :
    ∃ t, exec (.blkpartWrite b who v) s = .next t ∧ ownerOf t b = BitVec.ofNat 4 (bits v 3 0) ∧
      (ownResets b = false → Keeps [] [ownerKey b] (putPages b 0) s t) := by
  obtain ⟨u, hu, hs⟩ := ownPut_moves hf h
  have hk : KeepsBut [.regs, .logs, .checks, .ports] s u := by
    rcases hs with rfl | rfl
    · exact keepsBut_refl _ _
    · exact keepsBut_ownFresh b s
  have hkt : KeepsBut [.regs, .logs, .checks, .ports] s (ownTo who b v s) := by
    refine keepsBut_watched_of _ (keepsBut_trans ?_ (keepsBut_mono (keepsBut_logRequester who b _ s) (by decide))) (by decide)
    rw [hu]
    exact keepsBut_trans hk (keepsBut_mono (keepsBut_setReg u _ _) (by decide))
  refine ⟨_, blkpartWrite_eq hb hr hkt (by decide) (by decide), ?_, fun hn => ?_⟩
  · refine ownerOf_of_reg ?_ (bits_lt_16 v)
    rw [ownTo_reg, hu, reg_setReg_same]
  · have hput := ownPut_moves_plain hf hn h
    have hlog : (ownPut b 0 v (clearLog s b.key)).logs = (clearLog s b.key).logs := by
      rw [ownPut_moves_plain hf hn ⟨(ownClean_clearLog s _ b).trans h.1, h.2⟩]
      exact (keepsBut_setReg _ _ _).2 .logs (by decide)
    rw [ownTo_of_no_log hlog]
    exact ⟨keepsBut_watched_of _ (by rw [hput]; exact keepsBut_setReg _ _ _) (by decide),
      regsBut_watched_of _ (by rw [hput]; exact regsBut_setReg _ _ _)⟩

theorem logOf_logRequester_home {f : State → State} {k : Nat} (h : k ≠ (ownerHome b).key) :
    logOf (logRequester who b f s) k = logOf (f s) k := by
  cases b with
  | region r => exact logOf_logRequester_ne who _ f s h
  | _ => rfl

/-- A change of owner that is refused (R427). -/
theorem blkpartWrite_refused (hb : b.wf = true) (hr : Reaches who b 0 Rg.hdr.BLKPART s) (hf : ownerFixed b = false)
    (h : ownClean s b = false ∨ (bits v 3 0 ≠ 0 ∧ s.power.mst ≠ .ready)) :
    ∃ t, exec (.blkpartWrite b who v) s = .next t ∧ ownerOf t b = ownerOf s b ∧
      KeepsLog [] [] (putPages b 0) (ownerHome b).key s t := by
  obtain ⟨w0, w1, w2, w3, hl⟩ := refuseOwn_eq (s := s) hf
  have hput : ownPut b 0 v s = logE s (ownerHome b).key w0 w1 w2 w3 := (ownPut_refused hf h).trans hl
  have hregs : ∀ k, k ≠ (ownerHome b).key + Rg.hdr.ERRCNT → reg (ownPut b 0 v s) k = reg s k := by
    intro k hk
    rw [hput, reg_logE, if_neg hk]
  have hkt : KeepsBut [.regs, .logs] s (ownTo who b v s) := by
    refine keepsBut_watched_of _ (keepsBut_trans ?_ (keepsBut_mono (keepsBut_logRequester who b _ s) (by decide))) (by decide)
    rw [hput]
    exact keepsBut_logE _ _ _ _ _ _
  refine ⟨_, blkpartWrite_eq hb hr hkt (by decide) (by decide), ?_, hkt, fun k hk => ?_, fun k hk => ?_⟩
  · rw [ownerOf_eq, ownerOf_eq, regN, regN, ownTo_reg, hregs _ (by simp [ownerKey, Rg.hdr.BLKPART, Rg.hdr.ERRCNT])]
  · simp only [List.cons_append, List.nil_append, List.mem_cons, not_or] at hk
    unfold ownTo
    rw [reg_watched _ _ _ _ hk.2, reg_logRequester, hregs k hk.1]
  · have hk' : k ≠ (ownerHome b).key := by simpa using hk
    have hw : logOf (ownTo who b v s) k = logOf (logRequester who b (ownPut b 0 v) s) k := by
      unfold ownTo logOf; rw [watched_logs]
    rw [hw, logOf_logRequester_home hk', hput, logOf_logE, if_neg hk']

/-! ### Blocks that have stopped -/

theorem blkSt_rowSettle_vec (u : Fin 64) (s : State) : blkSt (rowSettle u s) (.vec u) = blkSt s (.vec u) := by
  unfold rowSettle
  dsimp only
  split
  · exact blkSt_setRun_ne s _ rfl rfl (by simp)
  · rfl

theorem blkSt_seqSettle_vec (u : Fin 64) (s : State) : blkSt (seqSettle u s) (.vec u) = blkSt s (.vec u) := by
  unfold seqSettle
  dsimp only
  split
  · exact blkSt_setRun_ne s _ rfl rfl (by simp)
  · rfl

theorem vec_syncSettle (u : Fin 64) (s : State) : (tile (syncSettle u s) u).vec = (tile s u).vec := by
  unfold syncSettle
  split
  · split
    · rw [tile_updTile_same]
    · rfl
  · rfl

/-- The stop of a vector unit that executes nothing takes hold. -/
theorem run_tileSettle_vec {u : Fin 64} (h : (blkSt s (.vec u)).run = .stopping) (ha : (tile s u).vec.active = none) :
    (blkSt (tileSettle u (syncSettle u s)) (.vec u)).run = .stopped := by
  have ht : (tile (rowSettle u (syncSettle u s)) u).vec = (tile s u).vec := by
    rw [rowSettle_eq]
    exact vec_syncSettle u s
  have hr : blkSt (rowSettle u (syncSettle u s)) (.vec u) = blkSt s (.vec u) :=
    (blkSt_rowSettle_vec u _).trans (blkSt_of_keeps (keepsBut_syncSettle s u) (by decide) _)
  unfold tileSettle
  rw [blkSt_seqSettle_vec, vecSettle, if_pos ⟨by rw [hr]; exact h, by rw [ht]; exact ha⟩, blkSt_setRun_same]

theorem blockStopped_eq {t : State} (h : (blkSt s b).run = .stopping) (ho : blkOn s b = true)
    (ht : blockStopped b s = (if (blkSt s b).run ≠ .stopping ∨ !blkOn s b then s else t)) : blockStopped b s = t :=
  ht.trans (if_neg (by simp [h, ho]))

theorem blockStopped_acts (hb : b.wf = true) :
    ∃ t, exec (.blockStopped b) s = .next t ∧ blkSt t b = blkSt (blockStopped b s) b :=
  ⟨_, (if_pos hb).trans (act_next _ s), blkSt_congr (watched_blks _ _ _) b⟩

end

end Sys2Proof.Machine
end

section
/-! Epochs, owners and stops (O48, second part), and the obligation. -/

open Sys2Proof.Says

namespace Sys2Proof.Machine

/-- Writes of the epoch, of the owner, and stops that end. -/
theorem epochsOwnersAndStopsTakeHold : EpochsOwnersAndStopsTakeHold := by
  intro b who e v s hb
  refine ⟨fun hr => ?_, fun hr => ⟨blkpartWrite_fixed hb hr, fun hf hc hp => ?_, blkpartWrite_refused hb hr⟩, fun h ho => ?_⟩
  · obtain ⟨ht, hk⟩ := modeEpochDirectWrite_eq e hb hr
    have htile : ∀ u, tile (epochTo b e s) u = tile (epochRequest b e s) u := tile_congr (epochTo_tiles b e s)
    refine ⟨_, ht, reg_epochTo b e s, ⟨hk, regsBut_epochTo b e s⟩, fun u => ?_, fun u hu hon he => ?_⟩
    · rw [htile]; exact tile_epochRequest b e s u
    · show (tile (epochTo b e s) u).seq.sevlatch.getLsbD 10 = true
      rw [htile]; exact latch_epochRequest hu hon he
  · obtain ⟨t, ht, ho, hk⟩ := blkpartWrite_moves hb hr hf ⟨hc, hp⟩
    refine ⟨t, ht, ho, ?_⟩
    cases b with
    | check | port => exact trivial
    | _ => exact hk rfl
  · obtain ⟨t, ht, hst⟩ := blockStopped_acts (s := s) hb
    refine ⟨t, ht, ?_⟩
    rw [hst]
    cases b with
    | vec u =>
      intro ha
      rw [blockStopped_eq (t := tileSettle u (syncSettle u s)) h ho rfl]
      exact run_tileSettle_vec h ha
    | nve k x =>
      intro ha
      rw [blockStopped_eq (t := engSettle k x s) h ho rfl, engSettle, if_pos ⟨h, ha⟩, blkSt_setRun_same]
    | chan k c =>
      intro hq
      rw [blockStopped_eq (t := if (chan s k c).queue.isEmpty then setRun s (.chan k c) .stopped else s) h ho rfl,
        if_pos (by rw [hq]; rfl), blkSt_setRun_same]
    | pvm k =>
      intro hi
      rw [blockStopped_eq (t := if stackIdle s k then setRun s (.pvm k) .stopped else s) h ho rfl, if_pos hi, blkSt_setRun_same]
    | check k c => rw [blockStopped_eq (t := setRun s (.check k c) .stopped) h ho rfl, blkSt_setRun_same]
    | pcheck c => rw [blockStopped_eq (t := setRun s (.pcheck c) .stopped) h ho rfl, blkSt_setRun_same]
    | _ => exact trivial

/-- Settles O48: the requests by the state of the block, then epochs, owners and stops. -/
theorem blocksFollowTheirRequests : Obligations.BlocksFollowTheirRequests :=
  ⟨blockRequestsFollowTheBlockState, epochsOwnersAndStopsTakeHold⟩

end Sys2Proof.Machine
end

section
/-! SUPPORT. Core temperatures, erasure and the scrubber of a stack (R4, R296, R306, R315, R318, R319). -/

open Sys2Proof.Says

namespace Sys2Proof.Machine

/-- A change of listed parts, with the events of pages latched, as a command. -/
theorem act_watched {ps : List Part} {f : State → State} {s : State} (pages : List (Blk × Nat)) (h : KeepsBut ps s (f s))
    (hr : Part.regs ∈ ps) (hf : Part.fuses ∉ ps) (hc : Part.clock ∉ ps) :
    act (watched pages f) s = .next (watched pages f s) := act_of_keeps (keepsBut_watched_of pages h hr) hf hc

theorem stack_watched (pages : List (Blk × Nat)) (f : State → State) (s : State) (k : Fin 8) :
    stack (watched pages f s) k = stack (f s) k := stack_congr (watched_stks _ _ _) k

theorem chan_watched (pages : List (Blk × Nat)) (f : State → State) (s : State) (k : Fin 8) (c : Fin 32) :
    chan (watched pages f s) k c = chan (f s) k c := chan_congr (watched_chans _ _ _) k c

theorem stacksBut_updStack (s : State) (k : Fin 8) (f : Stack → Stack) : StacksBut k s (updStack s k f) :=
  fun j hj => by rw [stack_updStack, if_neg hj]

theorem stack_updStack_same (s : State) (k : Fin 8) (f : Stack → Stack) : stack (updStack s k f) k = f (stack s k) := by
  rw [stack_updStack, if_pos rfl]

theorem chansBut_updChan (s : State) (k : Fin 8) (c : Fin 32) (f : Chan → Chan) : ChansBut k c s (updChan s k c f) :=
  fun j d h => by rw [chan_updChan, if_neg h]

theorem chan_updChan_same (s : State) (k : Fin 8) (c : Fin 32) (f : Chan → Chan) :
    chan (updChan s k c f) k c = f (chan s k c) := by rw [chan_updChan, if_pos ⟨rfl, rfl⟩]

/-- A change of a stack that its manager's commands make, with the events of pages latched. -/
theorem keeps_updStack (pages : List (Blk × Nat)) {f : State → State} {s : State} {k : Fin 8} {g : Stack → Stack}
    (h : f s = updStack s k g) : Keeps [.stks] [] pages s (watched pages f s) ∧ StacksBut k s (watched pages f s) := by
  refine ⟨⟨keepsBut_watched_of pages ?_ (by decide), ?_⟩, fun j hj => ?_⟩
  · rw [h]; exact keepsBut_mono (keepsBut_updStack s k g) (by decide)
  · exact regsBut_watched_of pages (by rw [h]; exact fun _ _ => rfl)
  · rw [stack_watched, h]; exact stacksBut_updStack s k g j hj

/-! ### Core temperatures (R306) -/

theorem getLsbD_core (core : Fin 10) : (BitVec.ofNat 10 (2 ^ core.val)).getLsbD core.val = true := by
  rw [BitVec.getLsbD_ofNat, Nat.testBit_two_pow_self]
  simp [core.isLt]

/-- The cores above the lower bound, after a report. -/
def hotAfter (hot : BitVec 10) (core : Fin 10) (temp : Nat) : BitVec 10 :=
  if temp < 83 then hot &&& ~~~ BitVec.ofNat 10 (2 ^ core.val) else hot ||| BitVec.ofNat 10 (2 ^ core.val)

theorem getLsbD_hotAfter (hot : BitVec 10) (core : Fin 10) (temp : Nat) :
    (hotAfter hot core temp).getLsbD core.val = decide (83 ≤ temp) := by
  unfold hotAfter
  split
  · rw [BitVec.getLsbD_and, BitVec.getLsbD_not, getLsbD_core]
    simp [Nat.not_le.mpr ‹_›]
  · rw [BitVec.getLsbD_or, getLsbD_core]
    simp [Nat.not_lt.mp ‹_›]

theorem coreTemp_eq (k : Fin 8) (core : Fin 10) (temp : Nat) (s : State) :
    coreTemp k core temp s = updStack s k (fun x => { x with
      hot := hotAfter x.hot core temp
      fast := if 85 < temp then true else if hotAfter x.hot core temp = 0 then false else x.fast }) := rfl

theorem coreTempReport_acts (k : Fin 8) (core : Fin 10) (temp : Nat) (s : State) :
    ∃ t, exec (.coreTempReport k core temp) s = .next t ∧
      (stack t k).hot.getLsbD core = decide (83 ≤ temp) ∧ (85 < temp → (stack t k).fast = true) ∧
      ((stack t k).hot = 0 → temp ≤ 85 → (stack t k).fast = false) ∧
      Keeps [.stks] [] ((List.range 32).map (fun c => (.chan k (fin 32 c), 0))) s t ∧ StacksBut k s t := by
  have hk : KeepsBut [.regs, .stks] s (coreTemp k core temp s) := keepsBut_mono (keepsBut_updStack s k _) (by decide)
  refine ⟨_, act_watched _ hk (by decide) (by decide) (by decide), ?_⟩
  rw [stack_watched, coreTemp_eq, stack_updStack_same]
  refine ⟨getLsbD_hotAfter _ core temp, fun h => if_pos h, fun h0 h => ?_, keeps_updStack _ (coreTemp_eq k core temp s)⟩
  exact (if_neg (by omega)).trans (if_pos h0)

/-! ### The lap limit (R319) -/

theorem dramLapLimit_acts (k : Fin 8) (s : State) : ∃ t, exec (.dramLapLimit k) s = .next t ∧
    stack t k = (if dramLapLate s k then { stack s k with lapOver := true } else stack s k) ∧
    Keeps [.stks] [] (blkPages (.pvm k)) s t ∧ StacksBut k s t := by
  cases hl : dramLapLate s k with
  | true =>
    have hf : dramLapLimit k s = updStack s k (fun x => { x with lapOver := true }) := if_pos hl
    have hk : KeepsBut [.regs, .stks] s (dramLapLimit k s) := by
      rw [hf]; exact keepsBut_mono (keepsBut_updStack s k _) (by decide)
    refine ⟨_, act_watched _ hk (by decide) (by decide) (by decide), ?_, keeps_updStack _ hf⟩
    rw [stack_watched, hf, stack_updStack_same, if_pos rfl]
  | false =>
    have hf : dramLapLimit k s = s := if_neg (by rw [hl]; decide)
    have hk : KeepsBut [.regs, .stks] s (dramLapLimit k s) := by rw [hf]; exact keepsBut_refl _ _
    refine ⟨_, act_watched _ hk (by decide) (by decide) (by decide), ?_, ⟨keepsBut_watched_of _ hk (by decide), ?_⟩, fun j _ => ?_⟩
    · rw [stack_watched, hf]; rfl
    · exact regsBut_watched_of _ (by rw [hf]; exact fun _ _ => rfl)
    · rw [stack_watched, hf]

/-! ### The scrubber (R318, R319) -/

theorem fin_val {n : Nat} [NeZero n] (i : Fin n) : fin n i.val = i := by
  apply Fin.ext
  simp [fin]

theorem chan_openRowOf (s : State) (k : Fin 8) (c : Fin 32) (l n : Nat) :
    ∃ r t m, chan (openRowOf s k c l n) k c = { chan s k c with openRow := r, rowsAt := t, cmds := m } := by
  unfold openRowOf
  dsimp only
  rw [chan_updChan_same, cmdNote, chan_updChan_same]
  exact ⟨_, _, _, rfl⟩

theorem keepsBut_openRowOf (s : State) (k : Fin 8) (c : Fin 32) (l n : Nat) : KeepsBut [.chans] s (openRowOf s k c l n) :=
  keepsBut_trans (keepsBut_updChan s k c _) (keepsBut_updChan _ k c _)

theorem chansBut_openRowOf (s : State) (k : Fin 8) (c : Fin 32) (l n : Nat) : ChansBut k c s (openRowOf s k c l n) :=
  fun j d h => (chansBut_updChan _ k c _ j d h).trans (chansBut_updChan s k c _ j d h)

theorem eraseOf_congr {s t : State} (h : ∀ i, reg t i = reg s i) (k : Fin 8) (c : Fin 32) : eraseOf t k c = eraseOf s k c := by
  unfold eraseOf
  rw [h]

theorem beatSyms_congr {s t : State} (h : t.dram = s.dram) (k : Fin 8) (l : Nat) : beatSyms t k l = beatSyms s k l := by
  simp only [beatSyms, dramBytes, dramByte, h]

theorem decAt_congr {s t : State} (hr : ∀ i, reg t i = reg s i) (hd : t.dram = s.dram) (k : Fin 8) (l : Nat) :
    decAt t k l = decAt s k l := by
  unfold decAt decBlk
  simp only [eraseOf_congr hr, beatSyms_congr hd]

theorem firstBad_of_good {bs : List BeatR} (h : ∀ b ∈ bs, b.st = 0) : firstBad bs = none := by
  unfold firstBad
  rw [List.find?_eq_none]
  intro x hx
  simp [h x.1 (List.fst_mem_of_mem_zipIdx hx)]

theorem chanCorr_of_good (s : State) (k : Fin 8) (c : Fin 32) (cnt l : Nat) {bs : List BeatR} (w : Option Init)
    (h : ∀ b ∈ bs, b.st = 0) : chanCorr s k c cnt l bs w = s := by
  have hf : bs.zipIdx.filter (fun x => x.1.st == 1) = [] := by
    rw [List.filter_eq_nil_iff]
    intro x hx
    simp [h x.1 (List.fst_mem_of_mem_zipIdx hx)]
  unfold chanCorr
  simp only [hf]

/-- A lap does not end while a channel has blocks to scrub. -/
theorem dramLapEnd_of_lt {s : State} {k : Fin 8} (c : Fin 32) (h : (chan s k c).scrubAt < 2 ^ 24) : dramLapEnd s k = s := by
  refine if_neg fun ha => ?_
  have hc := List.all_eq_true.mp ha c.val (List.mem_range.mpr c.isLt)
  rw [fin_val, decide_eq_true_eq] at hc
  exact absurd h (Nat.not_lt.mpr hc)

/-- A scrub read of a block without errors: the channel's place in the lap moves on, and its row is open. -/
theorem dramScrub_good {k : Fin 8} {c : Fin 32} {s : State} {i : Nat} (hon : regBit s (Blk.key (.pvm k) + Rg.pvm.SCRBCTL) 0 = true)
    (hg : isGoing s (.pvm k) = true) (hq : (chan s k c).queue = []) (hf : chanFault s k c = false)
    (ht : (chan s k c).training = false) (hl : (chan s k c).scrubAt < 2 ^ 24)
    (hd : (chan s k c).scrubLast.toNat + bits (reg s (Blk.key (.pvm k) + Rg.pvm.SCRBCTL)) 15 4 ≤ now s)
    (hn : nextScrub s k c (chan s k c).scrubAt = some i) (hi : i + 1 < 2 ^ 24)
    (hb : ∀ b ∈ decAt s k (i * 2 ^ 11 + c.val * 2 ^ 6), b.st = 0) :
    dramScrub k c [] s = openRowOf (updChan s k c (fun x => { x with scrubAt := i + 1, scrubLast := s.clock.now })) k c
      (i * 2 ^ 11 + c.val * 2 ^ 6) 1 := by
  have hon' : (reg s (Blk.key (.pvm k) + Rg.pvm.SCRBCTL)).getLsbD 0 = true := hon
  unfold dramScrub
  simp only [hon', hg, hq, hf, ht, Nat.not_le.mpr hl, Nat.not_lt.mpr hd, hn, List.isEmpty_nil, decide_false, Bool.not_true,
    Bool.or_false, Bool.false_eq_true, if_false]
  generalize hu : openRowOf _ k c _ 1 = u
  have hk : KeepsBut [.chans] s u := by
    rw [← hu]; exact keepsBut_trans (keepsBut_updChan s k c _) (keepsBut_openRowOf _ k c _ _)
  have hup : upsetBlk u k (i * 2 ^ 11 + c.val * 2 ^ 6) [] = u := rfl
  have hgood : ∀ b ∈ decAt u k (i * 2 ^ 11 + c.val * 2 ^ 6), b.st = 0 := by
    rw [decAt_congr (reg_congr (hk.2 .regs (by decide)) (hk.2 .fuses (by decide))) (hk.2 .dram (by decide))]; exact hb
  have hany : (decAt u k (i * 2 ^ 11 + c.val * 2 ^ 6)).any (fun b => b.st == 1) = false := by
    rw [List.any_eq_false]
    intro b hb'
    simp [hgood b hb']
  rw [hup, firstBad_of_good hgood]
  dsimp only
  rw [chanCorr_of_good _ _ _ _ _ _ hgood, hany]
  refine dramLapEnd_of_lt c ?_
  obtain ⟨r, t, m, hc⟩ := chan_openRowOf (updChan s k c (fun x => { x with scrubAt := i + 1, scrubLast := s.clock.now })) k c
    (i * 2 ^ 11 + c.val * 2 ^ 6) 1
  simp only [Bool.false_eq_true, if_false]
  rw [← hu, hc, chan_updChan_same]
  exact hi

theorem dramScrubRead_acts {k : Fin 8} {c : Fin 32} {s : State} {i : Nat} (hon : regBit s (Blk.key (.pvm k) + Rg.pvm.SCRBCTL) 0 = true)
    (hg : isGoing s (.pvm k) = true) (hq : (chan s k c).queue = []) (hf : chanFault s k c = false)
    (ht : (chan s k c).training = false) (hl : (chan s k c).scrubAt < 2 ^ 24)
    (hd : (chan s k c).scrubLast.toNat + bits (reg s (Blk.key (.pvm k) + Rg.pvm.SCRBCTL)) 15 4 ≤ now s)
    (hn : nextScrub s k c (chan s k c).scrubAt = some i) (hi : i + 1 < 2 ^ 24)
    (hb : ∀ b ∈ decAt s k (i * 2 ^ 11 + c.val * 2 ^ 6), b.st = 0) :
    ∃ t, exec (.dramScrubRead k c []) s = .next t ∧ (chan t k c).scrubAt = i + 1 ∧ (chan t k c).scrubLast = s.clock.now ∧
      (chan t k c).wbs = (chan s k c).wbs ∧ Keeps [.chans] [] (blkPages (.pvm k)) s t ∧ ChansBut k c s t := by
  have h := dramScrub_good hon hg hq hf ht hl hd hn hi hb
  have hk : KeepsBut [.chans] s (dramScrub k c [] s) := by
    rw [h]; exact keepsBut_trans (keepsBut_updChan s k c _) (keepsBut_openRowOf _ k c _ _)
  have hk' : KeepsBut [.regs, .chans] s (dramScrub k c [] s) := keepsBut_mono hk (by decide)
  have hr : RegsBut [] s (dramScrub k c [] s) := fun r _ => reg_congr (hk.2 .regs (by decide)) (hk.2 .fuses (by decide)) r
  obtain ⟨r, t, m, hc⟩ := chan_openRowOf (updChan s k c (fun x => { x with scrubAt := i + 1, scrubLast := s.clock.now })) k c
    (i * 2 ^ 11 + c.val * 2 ^ 6) 1
  refine ⟨_, act_watched _ hk' (by decide) (by decide) (by decide), ?_, ?_, ?_,
    ⟨keepsBut_watched_of _ hk' (by decide), regsBut_watched_of _ hr⟩, fun j d hjd => ?_⟩
  · rw [chan_watched, h, hc, chan_updChan_same]
  · rw [chan_watched, h, hc, chan_updChan_same]
  · rw [chan_watched, h, hc, chan_updChan_same]
  · rw [chan_watched, h, chansBut_openRowOf _ k c _ _ j d hjd, chansBut_updChan s k c _ j d hjd]

/-! ### Erasure (R4, R296, R315) -/

theorem eraseRst_of_coreFailed {k : Fin 8} {s : State} {f : Nat} (hf : coreFailed s k = some f) (hlt : f < 10) :
    eraseRst s.fuses k = w32 (0x10 + f) := by
  unfold coreFailed at hf
  unfold eraseRst
  dsimp only at hf ⊢
  split at hf
  · rename_i h
    obtain rfl := Option.some.inj hf
    exact if_pos ⟨h, hlt⟩
  · cases hf

theorem regAt_ERASECTL (k : Fin 8) (c : Fin 32) :
    regAt (.chan k c) 0 Rg.chan.ERASECTL = some (⟨Rg.chan.ERASECTL, 1, 0, .rw, 0x1F, 0⟩, 0) := by rfl

theorem regAt_TRNCTL (k : Fin 8) (c : Fin 32) :
    regAt (.chan k c) 0 Rg.chan.TRNCTL = some (⟨Rg.chan.TRNCTL, 1, 0, .wo, 0x1, 0⟩, 0) := by rfl

theorem key_ERASECTL_mod (k : Fin 8) (c : Fin 32) : (Blk.key (.chan k c) + Rg.chan.ERASECTL) % 0x1000 = Rg.chan.ERASECTL := by
  have := key_mod (.chan k c)
  simp only [Rg.chan.ERASECTL]
  omega

theorem blkOfKey_ERASECTL (k : Fin 8) (c : Fin 32) : blkOfKey (Blk.key (.chan k c) + Rg.chan.ERASECTL) = some (.chan k c, 0) :=
  blkOfKey_keyP_add (.chan k c) rfl (p := 0) (o := Rg.chan.ERASECTL) (Blk_npages_pos _) (by decide)

theorem key_ERASECTL_lt (k : Fin 8) (c : Fin 32) : Blk.key (.chan k c) + Rg.chan.ERASECTL < 2 ^ 32 :=
  Nat.lt_trans (keyP_add_lt (.chan k c) rfl (p := 0) (o := Rg.chan.ERASECTL) (Blk_npages_pos _) (by decide)) (by decide)

/-- What a register of a listed page is at reset. -/
theorem regReset_chan {f : Fuses} {i : Nat} {k : Fin 8} {c : Fin 32} {r : RegRow} {n p : Nat} (hlt : i < 2 ^ 32)
    (hb : blkOfKey i = some (.chan k c, p)) (hr : regAt (.chan k c) p (i % 0x1000) = some (r, n)) :
    regReset f i = if r.off = Rg.chan.ERASECTL then eraseRst f k else w32 r.rst := by
  unfold regReset
  rw [if_neg (Nat.not_le.mpr hlt), hb]
  dsimp only
  rw [hr]

theorem regReset_ERASECTL (f : Fuses) (k : Fin 8) (c : Fin 32) :
    regReset f (Blk.key (.chan k c) + Rg.chan.ERASECTL) = eraseRst f k := by
  have hm := key_ERASECTL_mod k c
  have hr : regAt (.chan k c) 0 ((Blk.key (.chan k c) + Rg.chan.ERASECTL) % 0x1000) = some (⟨Rg.chan.ERASECTL, 1, 0, .rw, 0x1F, 0⟩, 0) := by
    rw [hm]; exact regAt_ERASECTL k c
  exact (regReset_chan (key_ERASECTL_lt k c) (blkOfKey_ERASECTL k c) hr).trans (if_pos rfl)

/-- At the start ERASECTL names the core that the record marks failed. -/
theorem eraseOf_reset {k : Fin 8} {s : State} {f : Nat} (c : Fin 32) (hr : s.regs = []) (hf : coreFailed s k = some f) (hlt : f < 10) :
    eraseOf s k c = some f := by
  have hreg : reg s (Blk.key (.chan k c) + Rg.chan.ERASECTL) = w32 (0x10 + f) := by
    have h0 : reg s (Blk.key (.chan k c) + Rg.chan.ERASECTL) = regReset s.fuses (Blk.key (.chan k c) + Rg.chan.ERASECTL) := by
      unfold reg; rw [hr]; rfl
    rw [h0, regReset_ERASECTL, eraseRst_of_coreFailed hf hlt]
  have hbits : ∀ n : Fin 10, (w32 (0x10 + n.val)).getLsbD 4 = true ∧ bits (w32 (0x10 + n.val)) 3 0 = n.val := by decide
  obtain ⟨h4, h3⟩ := hbits ⟨f, hlt⟩
  unfold eraseOf
  rw [hreg]
  exact (if_pos h4).trans (congrArg some h3)

end Sys2Proof.Machine
end

section
/-! SUPPORT. Writes of a channel's ERASECTL and TRNCTL (R315, R316, R328). -/

open Sys2Proof.Says

namespace Sys2Proof.Machine

section
variable {who : Init} {k : Fin 8} {c : Fin 32} {s : State}

/-- A write of a register of a channel's own. -/
theorem blkCmd_chan (v : W32) {off : Nat} {r : RegRow} {i : Nat} (hat : regAt (.chan k c) 0 off = some (r, i)) (h80 : 0x80 ≤ off)
    (ho : off < 0x1000) (ha : off % 4 = 0) (hr : Reaches who (.chan k c) 0 off s) :
    blkCmd who (.chan k c) 0 off v s = watched (chanPages k c) (chanPut k c off r v) s := by
  exact (regCmd_passes v rfl (Blk_npages_pos _) ho ha hr.1).trans (regWrite_blk v hr.2 hat h80)

/-- An entry in a channel's log, with the events of its pages latched. -/
theorem keepsLog_logE (pages : List (Blk × Nat)) {f : State → State} {pg : Nat} {w0 w1 w2 w3 : W32}
    (h : f s = logE s pg w0 w1 w2 w3) :
    KeepsLog [] [] pages pg s (watched pages f s) ∧ (logOf (watched pages f s) pg).head? = some ⟨w0, w1, w2, w3⟩ := by
  refine ⟨⟨keepsBut_watched_of _ (by rw [h]; exact keepsBut_logE _ _ _ _ _ _) (by decide), fun i hi => ?_, fun i hi => ?_⟩, ?_⟩
  · simp only [List.cons_append, List.nil_append, List.mem_cons, not_or] at hi
    rw [reg_watched _ _ _ _ hi.2, h, reg_logE, if_neg hi.1]
  · have hi' : i ≠ pg := by simpa using hi
    simp only [logOf, watched_logs]
    rw [h]
    exact (logOf_logE s pg w0 w1 w2 w3 i).trans (if_neg hi')
  · simp only [logOf, watched_logs]
    rw [h]
    have := logOf_logE s pg w0 w1 w2 w3 pg
    rw [if_pos rfl] at this
    unfold logOf at this
    rw [this]
    rfl

/-! ### ERASECTL -/

/-- What a write of ERASECTL leaves in it: EN and the core as written, the rest as it stood. -/
def eraseWord (v o : W32) : W32 := (v &&& 0x1F) ||| (o &&& 0x20)

theorem getLsbD_eraseWord (v o : W32) {i : Nat} (hi : i < 5) : (eraseWord v o).getLsbD i = v.getLsbD i := by
  have h1 : (0x1F : W32).getLsbD i = true := (by decide : ∀ j : Fin 5, (0x1F : W32).getLsbD j = true) ⟨i, hi⟩
  have h2 : (0x20 : W32).getLsbD i = false := (by decide : ∀ j : Fin 5, (0x20 : W32).getLsbD j = false) ⟨i, hi⟩
  rw [eraseWord, BitVec.getLsbD_or, BitVec.getLsbD_and, BitVec.getLsbD_and, h1, h2, Bool.and_true, Bool.and_false, Bool.or_false]

theorem bits_eraseWord (v o : W32) : bits (eraseWord v o) 3 0 = bits v 3 0 := by
  apply Nat.eq_of_testBit_eq
  intro i
  simp only [bits, Nat.shiftRight_zero, Nat.testBit_mod_two_pow]
  by_cases hi : i < 3 + 1 - 0
  · have := getLsbD_eraseWord v o (i := i) (by omega)
    simp only [BitVec.getLsbD] at this
    rw [this]
  · simp [hi]

theorem eraseOf_eq (s : State) (k : Fin 8) (c : Fin 32) :
    eraseOf s k c = if (reg s (Blk.key (.chan k c) + Rg.chan.ERASECTL)).getLsbD 4 then
      some (bits (reg s (Blk.key (.chan k c) + Rg.chan.ERASECTL)) 3 0) else none := rfl

theorem eraseOf_of_reg {t : State} {v o : W32} (h : reg t (Blk.key (.chan k c) + Rg.chan.ERASECTL) = eraseWord v o) :
    eraseOf t k c = if v.getLsbD 4 then some (bits v 3 0) else none := by
  rw [eraseOf_eq, h, getLsbD_eraseWord v o (by decide), bits_eraseWord]

theorem chanPut_ERASECTL (v : W32) (r : RegRow) (hr : r.off = Rg.chan.ERASECTL) (off : Nat) :
    chanPut k c off r v = erasectl k c v := funext fun _ => if_pos hr

theorem chanPut_TRNCTL (r : RegRow) (hr : r.off = Rg.chan.TRNCTL) (off : Nat) : chanPut k c off r 1 = trnStart k c := by
  funext u
  unfold chanPut
  rw [hr, if_neg (by decide), if_neg (by decide), if_pos rfl, if_pos (by decide)]

theorem blkCmd_ERASECTL (v : W32) (hr : Reaches who (.chan k c) 0 Rg.chan.ERASECTL s) :
    blkCmd who (.chan k c) 0 Rg.chan.ERASECTL v s = watched (chanPages k c) (erasectl k c v) s := by
  rw [blkCmd_chan v (regAt_ERASECTL k c) (by decide) (by decide) (by decide) hr, chanPut_ERASECTL v _ rfl]

theorem reg_ERASECTL_watched (pages : List (Blk × Nat)) (f : State → State) (s : State) :
    reg (watched pages f s) (Blk.key (.chan k c) + Rg.chan.ERASECTL) = reg (f s) (Blk.key (.chan k c) + Rg.chan.ERASECTL) :=
  reg_watched_off _ _ _ (by rw [key_ERASECTL_mod]; decide)

/-- A core that exists, or EN clear, is taken (R315). -/
theorem erasectlWrite_takes {v : W32} (hr : Reaches who (.chan k c) 0 Rg.chan.ERASECTL s)
    (h : v.getLsbD 4 = false ∨ bits v 3 0 ≤ 9) :
    ∃ t, exec (.erasectlWrite who k c v) s = .next t ∧
      eraseOf t k c = (if v.getLsbD 4 then some (bits v 3 0) else none) ∧
      PutOnly (.chan k c) 0 [Blk.key (.chan k c) + Rg.chan.ERASECTL] s t := by
  have hf : erasectl k c v s = setReg s (Blk.key (.chan k c) + Rg.chan.ERASECTL)
      (eraseWord v (reg s (Blk.key (.chan k c) + Rg.chan.ERASECTL))) := by
    refine if_neg fun hc => ?_
    rw [Bool.and_eq_true, decide_eq_true_eq] at hc
    rcases h with h | h
    · rw [h] at hc; exact absurd hc.2 (by decide)
    · omega
  have hk : KeepsBut [.regs] s (watched (chanPages k c) (erasectl k c v) s) :=
    keepsBut_watched_of _ (by rw [hf]; exact keepsBut_setReg _ _ _) (by decide)
  have hexec : exec (.erasectlWrite who k c v) s = .next (watched (chanPages k c) (erasectl k c v) s) :=
    act_eq_of_keeps (blkCmd_ERASECTL v hr) hk (by decide) (by decide)
  refine ⟨_, hexec, eraseOf_of_reg (o := reg s (Blk.key (.chan k c) + Rg.chan.ERASECTL)) ?_, hk, ?_⟩
  · rw [reg_ERASECTL_watched, hf, reg_setReg_same]
  · exact regsBut_watched_of _ (by rw [hf]; exact regsBut_setReg _ _ _)

/-- A core that does not exist is refused and logged. -/
theorem erasectlWrite_refused {v : W32} (hr : Reaches who (.chan k c) 0 Rg.chan.ERASECTL s) (h4 : v.getLsbD 4 = true)
    (h : 9 < bits v 3 0) :
    ∃ t, exec (.erasectlWrite who k c v) s = .next t ∧ eraseOf t k c = eraseOf s k c ∧
      (logOf t (Blk.key (.chan k c))).head? = some ⟨0xF08, w32 Rg.chan.ERASECTL, 0, 0⟩ ∧
      KeepsLog [] [] (chanPages k c) (Blk.key (.chan k c)) s t := by
  have hf : erasectl k c v s = logE s (Blk.key (.chan k c)) 0xF08 (w32 Rg.chan.ERASECTL) 0 0 :=
    if_pos (by rw [h4, decide_eq_true h]; rfl)
  obtain ⟨hk, hl⟩ := keepsLog_logE (chanPages k c) hf
  have hexec : exec (.erasectlWrite who k c v) s = .next (watched (chanPages k c) (erasectl k c v) s) :=
    act_eq_of_keeps (blkCmd_ERASECTL v hr) hk.1 (by decide) (by decide)
  refine ⟨_, hexec, ?_, hl, hk⟩
  have hreg := reg_ERASECTL_watched (k := k) (c := c) (chanPages k c) (erasectl k c v) s
  rw [hf, reg_logE, if_neg (by simp [Rg.chan.ERASECTL, Rg.hdr.ERRCNT])] at hreg
  rw [eraseOf_eq, eraseOf_eq, hreg]

/-! ### TRNCTL -/

theorem blkCmd_TRNCTL (hr : Reaches who (.chan k c) 0 Rg.chan.TRNCTL s) :
    blkCmd who (.chan k c) 0 Rg.chan.TRNCTL 1 s = watched (chanPages k c) (trnStart k c) s := by
  rw [blkCmd_chan 1 (regAt_TRNCTL k c) (by decide) (by decide) (by decide) hr, chanPut_TRNCTL _ rfl]

/-- Training may start: at start-up, or in a channel that is STOPPED or frozen. -/
def trnMay (s : State) (k : Fin 8) (c : Fin 32) : Prop :=
  s.power.mst = .boot ∨ s.power.mst = .init ∨ isStopped s (.chan k c) = true ∨ (chan s k c).frozen.isSome = true

theorem trnctlStart_starts (hr : Reaches who (.chan k c) 0 Rg.chan.TRNCTL s) (h : trnMay s k c) :
    ∃ t, exec (.trnctlStart who k c) s = .next t ∧ chan t k c = { chan s k c with training := true } ∧
      Keeps [.chans] [] (chanPages k c) s t ∧ ChansBut k c s t := by
  have hf : trnStart k c s = updChan s k c (fun x => { x with training := true }) := if_pos (or_assoc.mpr h)
  have hk : KeepsBut [.regs, .chans] s (watched (chanPages k c) (trnStart k c) s) :=
    keepsBut_watched_of _ (by rw [hf]; exact keepsBut_mono (keepsBut_updChan s k c _) (by decide)) (by decide)
  have hexec : exec (.trnctlStart who k c) s = .next (watched (chanPages k c) (trnStart k c) s) :=
    act_eq_of_keeps (blkCmd_TRNCTL hr) hk (by decide) (by decide)
  refine ⟨_, hexec, ?_, ⟨hk, regsBut_watched_of _ (by rw [hf]; exact fun _ _ => rfl)⟩, fun j d hjd => ?_⟩
  · rw [chan_watched, hf, chan_updChan_same]
  · rw [chan_watched, hf, chansBut_updChan s k c _ j d hjd]

theorem trnctlStart_refused (hr : Reaches who (.chan k c) 0 Rg.chan.TRNCTL s) (h : ¬ trnMay s k c) :
    ∃ t, exec (.trnctlStart who k c) s = .next t ∧ KeepsLog [] [] (chanPages k c) (Blk.key (.chan k c)) s t ∧
      (logOf t (Blk.key (.chan k c))).head? = some ⟨0xF08, w32 Rg.chan.TRNCTL, 0, 0⟩ := by
  have hf : trnStart k c s = logE s (Blk.key (.chan k c)) 0xF08 (w32 Rg.chan.TRNCTL) 0 0 := if_neg fun hm => h (or_assoc.mp hm)
  obtain ⟨hk, hl⟩ := keepsLog_logE (chanPages k c) hf
  have hexec : exec (.trnctlStart who k c) s = .next (watched (chanPages k c) (trnStart k c) s) :=
    act_eq_of_keeps (blkCmd_TRNCTL hr) hk.1 (by decide) (by decide)
  exact ⟨_, hexec, hk, hl⟩

end

end Sys2Proof.Machine
end

section
/-! SUPPORT. Training of a channel (R316, R317): the windows of its lanes, and the lanes that fail. -/

open Sys2Proof.Says

namespace Sys2Proof.Machine

/-! ### Words made of bits -/

theorem wordOf_lt (p : Nat → Bool) (n : Nat) : wordOf p n < 2 ^ n := by
  induction n with
  | zero => exact Nat.one_pos
  | succ n ih =>
    rw [wordOf, Nat.pow_succ]
    split <;> omega

theorem testBit_wordOf (p : Nat → Bool) {n i : Nat} (h : i < n) : (wordOf p n).testBit i = p i := by
  induction n with
  | zero => exact absurd h (Nat.not_lt_zero i)
  | succ n ih =>
    rw [wordOf]
    rcases Nat.lt_succ_iff_lt_or_eq.mp h with hi | rfl
    · split
      · rw [Nat.add_comm, Nat.testBit_two_pow_add_gt hi, ih hi]
      · exact ih hi
    · split
      · rename_i hp
        rw [Nat.add_comm, Nat.testBit_two_pow_add_eq, Nat.testBit_lt_two_pow (wordOf_lt p i), hp]; rfl
      · rename_i hp
        rw [Nat.add_zero, Nat.testBit_lt_two_pow (wordOf_lt p i)]
        exact (Bool.eq_false_of_not_eq_true hp).symm

theorem wordOf_eq_zero {p : Nat → Bool} {n : Nat} (h : ∀ i < n, p i = false) : wordOf p n = 0 := by
  induction n with
  | zero => rfl
  | succ n ih =>
    rw [wordOf, ih fun i hi => h i (by omega), h n (by omega)]
    rfl

/-! ### Lanes that fail -/

/-- A lane whose window for reads, or for writes, is narrower than 16 steps fails. -/
def weakEye (e : Eye) : Prop := eyeW e.rl e.rr < 16 ∨ eyeW e.wl e.wr < 16

/-- The lanes, of a list of windows, whose window `w` gives is too narrow. -/
def narrow (w : Eye → Nat) (eyes : List Eye) : Nat :=
  wordOf (fun i => match eyes[i]? with | some e => decide (w e < 16) | none => false) 10

def badLanes (eyes : List Eye) : Nat :=
  narrow (fun e => eyeW e.rl e.rr) eyes ||| narrow (fun e => eyeW e.wl e.wr) eyes

theorem testBit_narrow (w : Eye → Nat) {eyes : List Eye} (hl : eyes.length = 10) {i : Nat} (hi : i < 10) (d : Eye) :
    (narrow w eyes).testBit i = decide (w (eyes.getD i d) < 16) := by
  have hi' : i < eyes.length := hl.symm ▸ hi
  rw [narrow, testBit_wordOf _ hi]
  simp only [List.getElem?_eq_getElem hi', List.getD_eq_getElem _ _ hi']

theorem testBit_badLanes {eyes : List Eye} (hl : eyes.length = 10) {i : Nat} (hi : i < 10) (d : Eye) :
    (badLanes eyes).testBit i = true ↔ weakEye (eyes.getD i d) := by
  rw [badLanes, Nat.testBit_or, testBit_narrow _ hl hi d, testBit_narrow _ hl hi d, Bool.or_eq_true, decide_eq_true_eq,
    decide_eq_true_eq, weakEye]

theorem narrow_eq_zero {w : Eye → Nat} {eyes : List Eye} (h : ∀ e ∈ eyes, ¬ w e < 16) : narrow w eyes = 0 := by
  refine wordOf_eq_zero fun i _ => ?_
  split
  · rename_i e he
    exact decide_eq_false (h e (List.mem_of_getElem? he))
  · rfl

theorem lanes_of_good {eyes : List Eye} (h : ∀ e ∈ eyes, ¬ weakEye e) : (List.range 10).filter (badLanes eyes).testBit = [] := by
  have h1 : narrow (fun e => eyeW e.rl e.rr) eyes = 0 := narrow_eq_zero fun e he hw => h e he (.inl hw)
  have h2 : narrow (fun e => eyeW e.wl e.wr) eyes = 0 := narrow_eq_zero fun e he hw => h e he (.inr hw)
  rw [badLanes, h1, h2]
  decide

theorem lanes_of_single {eyes : List Eye} (hl : eyes.length = 10) (i : Fin 10) {d : Eye}
    (h : ∀ j : Fin 10, weakEye (eyes.getD j.val d) ↔ j = i) : (List.range 10).filter (badLanes eyes).testBit = [i.val] := by
  have hc : (List.range 10).filter (badLanes eyes).testBit = (List.range 10).filter (· == i.val) := by
    refine List.filter_congr fun j hj => ?_
    have hj' : j < 10 := List.mem_range.mp hj
    have hb := (testBit_badLanes hl hj' d).trans (h ⟨j, hj'⟩)
    rw [Bool.eq_iff_iff, hb, beq_iff_eq, Fin.ext_iff]
  rw [hc]
  exact (by decide : ∀ i : Fin 10, (List.range 10).filter (· == i.val) = [i.val]) i

/-! ### The windows as they are written -/

theorem keepsBut_trnWord (s : State) (l r : Nat) : KeepsBut [.frees] s (trnWord s l r).2 := by
  unfold trnWord
  split
  · exact keepsBut_refl _ _
  · exact ⟨rfl, fun p hp => by cases p <;> simp_all [Part.Same, draw]⟩

/-- A window that passes somewhere is stated. -/
theorem trnWord_of_le (s : State) {l r : Nat} (h : l ≤ r) : (trnWord s l r).2 = s := by
  unfold trnWord
  rw [if_pos h]

theorem le_of_wide {l r : BitVec 7} (h : ¬ eyeW l r < 16) : l.toNat ≤ r.toNat := by
  unfold eyeW at h
  omega

/-- The two registers of a lane. -/
def trnStep (key : Nat) (s : State) (x : Eye × Nat) : State :=
  let a := trnWord s x.1.rl.toNat x.1.rr.toNat
  let b := trnWord a.2 x.1.wl.toNat x.1.wr.toNat
  setReg (setReg b.2 (key + Rg.chan.TRNRD + 4 * x.2) a.1) (key + Rg.chan.TRNWR + 4 * x.2) b.1

theorem keepsBut_trnStep (key : Nat) (s : State) (x : Eye × Nat) : KeepsBut [.regs, .frees] s (trnStep key s x) :=
  keepsBut_trans (keepsBut_mono (keepsBut_trnWord s _ _) (by decide)) (keepsBut_trans (keepsBut_mono (keepsBut_trnWord _ _ _) (by decide))
    (keepsBut_trans (keepsBut_mono (keepsBut_setReg _ _ _) (by decide)) (keepsBut_mono (keepsBut_setReg _ _ _) (by decide))))

theorem keepsBut_trnStep_good (key : Nat) (s : State) {x : Eye × Nat} (h : ¬ weakEye x.1) : KeepsBut [.regs] s (trnStep key s x) := by
  rw [weakEye, not_or] at h
  unfold trnStep
  dsimp only
  rw [trnWord_of_le s (le_of_wide h.1), trnWord_of_le s (le_of_wide h.2)]
  exact keepsBut_trans (keepsBut_setReg _ _ _) (keepsBut_setReg _ _ _)

theorem regsBut_trnStep (key : Nat) (s : State) (x : Eye × Nat) :
    RegsBut [key + Rg.chan.TRNRD + 4 * x.2, key + Rg.chan.TRNWR + 4 * x.2] s (trnStep key s x) := by
  have hw : ∀ u l r, RegsBut [] u (trnWord u l r).2 := fun u l r i _ =>
    reg_congr ((keepsBut_trnWord u l r).2 .regs (by decide)) ((keepsBut_trnWord u l r).2 .fuses (by decide)) i
  exact regsBut_trans (regsBut_mono (hw s _ _) (by simp)) (regsBut_trans (regsBut_mono (hw _ _ _) (by simp))
    (regsBut_trans (regsBut_mono (regsBut_setReg _ _ _) (by simp)) (regsBut_mono (regsBut_setReg _ _ _) (by simp))))

/-- The windows of all lanes as they are written. -/
def trnWindows (key : Nat) (eyes : List Eye) (s : State) : State := eyes.zipIdx.foldl (trnStep key) s

theorem keepsBut_trnWindows (key : Nat) (eyes : List Eye) (s : State) : KeepsBut [.regs, .frees] s (trnWindows key eyes s) :=
  keepsBut_foldl _ (keepsBut_trnStep key) _ s

theorem keepsBut_trnWindows_good (key : Nat) {eyes : List Eye} (h : ∀ e ∈ eyes, ¬ weakEye e) (s : State) :
    KeepsBut [.regs] s (trnWindows key eyes s) :=
  List.foldlRecOn eyes.zipIdx (trnStep key) (keepsBut_refl _ s) fun u hu x hx =>
    keepsBut_trans hu (keepsBut_trnStep_good key u (h x.1 (List.fst_mem_of_mem_zipIdx hx)))

variable {k : Fin 8} {c : Fin 32}

theorem regsBut_trnWindows {eyes : List Eye} (hl : eyes.length = 10) (s : State) :
    RegsBut (trnKeys k c) s (trnWindows (Blk.key (.chan k c)) eyes s) := by
  refine List.foldlRecOn eyes.zipIdx (trnStep (Blk.key (.chan k c))) (fun _ _ => rfl) fun u hu x hx => ?_
  have hi : x.2 < 10 := hl ▸ List.snd_lt_of_mem_zipIdx hx
  refine regsBut_trans hu (regsBut_mono (regsBut_trnStep _ u x) fun i hi' => ?_)
  exact List.mem_cons_of_mem _ (List.mem_flatMap.mpr ⟨x.2, List.mem_range.mpr hi, hi'⟩)

end Sys2Proof.Machine
end

section
/-! SUPPORT. The end of a channel's training (R316, R317). -/

open Sys2Proof.Says

namespace Sys2Proof.Machine

section
variable {k : Fin 8} {c : Fin 32} {s : State} {eyes : List Eye}

/-- The word of TRNSTAT after a training. -/
def trnStat (eyes : List Eye) : W32 :=
  w32 (1 + 2 * b2n (badLanes eyes == 0) + narrow (fun e => eyeW e.rl e.rr) eyes * 2 ^ 2 + narrow (fun e => eyeW e.wl e.wr) eyes * 2 ^ 12)

/-- A training's results are in its registers, and it has ended. -/
def trnMeasured (k : Fin 8) (c : Fin 32) (eyes : List Eye) (s : State) : State :=
  let key := Blk.key (.chan k c)
  pulse (setReg (updChan (trnWindows key eyes s) k c (fun x => { x with training := false })) (key + Rg.chan.TRNSTAT) (trnStat eyes)) key 4

theorem trnDone_good (ht : (chan s k c).training = true) (hb : (List.range 10).filter (badLanes eyes).testBit = []) :
    trnDone k c eyes s =
      if chanFault (trnMeasured k c eyes s) k c then
        setRun (updChan (trnMeasured k c eyes s) k c (fun x => { x with failed := false, frozen := none })) (.chan k c) .stopped
      else trnMeasured k c eyes s := by
  unfold trnDone
  rw [ht]
  simp only [Bool.not_true, Bool.false_eq_true, if_false]
  split
  · rfl
  · rename_i he
    exact absurd (he.symm.trans hb) (List.cons_ne_nil _ _)

theorem trnDone_single {i : Nat} (ht : (chan s k c).training = true) (hb : (List.range 10).filter (badLanes eyes).testBit = [i])
    (he : (reg (trnMeasured k c eyes s) (Blk.key (.chan k c) + Rg.chan.ERASECTL)).getLsbD 4 = false) :
    trnDone k c eyes s =
      setReg (chanLog (trnMeasured k c eyes s) k c 0x07 i 0 0 0 0 none) (Blk.key (.chan k c) + Rg.chan.ERASECTL) (w32 (i + 0x30)) := by
  unfold trnDone
  rw [ht]
  simp only [Bool.not_true, Bool.false_eq_true, if_false]
  split
  · rename_i hn
    exact absurd (hb.symm.trans hn) (List.cons_ne_nil _ _)
  · rename_i core rest hc
    obtain ⟨rfl, rfl⟩ := List.cons.inj (hb.symm.trans hc)
    refine if_pos ?_
    rw [Bool.and_eq_true]
    exact ⟨rfl, by rw [Bool.or_eq_true]; exact .inl (by rw [Bool.not_eq_true']; exact he)⟩

/-! ### What the measured windows leave -/

theorem keepsBut_measured {ps : List Part} (hw : KeepsBut ps s (trnWindows (Blk.key (.chan k c)) eyes s)) (hr : Part.regs ∈ ps)
    (hc : Part.chans ∈ ps) : KeepsBut ps s (trnMeasured k c eyes s) :=
  keepsBut_trans hw (keepsBut_trans (keepsBut_mono (keepsBut_updChan _ k c _) (by simpa using hc))
    (keepsBut_trans (keepsBut_mono (keepsBut_setReg _ _ _) (by simpa using hr)) (keepsBut_mono (keepsBut_pulse _ _ _) (by simpa using hr))))

theorem keepsBut_trnMeasured (k : Fin 8) (c : Fin 32) (eyes : List Eye) (s : State) :
    KeepsBut [.regs, .chans, .frees] s (trnMeasured k c eyes s) :=
  keepsBut_measured (keepsBut_mono (keepsBut_trnWindows _ eyes s) (by decide)) (by decide) (by decide)

theorem keepsBut_trnMeasured_good (k : Fin 8) (c : Fin 32) (h : ∀ e ∈ eyes, ¬ weakEye e) (s : State) :
    KeepsBut [.regs, .chans] s (trnMeasured k c eyes s) :=
  keepsBut_measured (keepsBut_mono (keepsBut_trnWindows_good _ h s) (by decide)) (by decide) (by decide)

theorem chans_trnMeasured (k : Fin 8) (c : Fin 32) (eyes : List Eye) (s : State) :
    (trnMeasured k c eyes s).chans =
      (updChan (trnWindows (Blk.key (.chan k c)) eyes s) k c (fun x => { x with training := false })).chans :=
  ((keepsBut_pulse _ _ _).2 .chans (by decide)).trans ((keepsBut_setReg _ _ _).2 .chans (by decide))

theorem chan_trnWindows (key : Nat) (eyes : List Eye) (s : State) (j : Fin 8) (d : Fin 32) :
    chan (trnWindows key eyes s) j d = chan s j d := chan_congr ((keepsBut_trnWindows key eyes s).2 .chans (by decide)) j d

theorem chan_trnMeasured (k : Fin 8) (c : Fin 32) (eyes : List Eye) (s : State) :
    chan (trnMeasured k c eyes s) k c = { chan s k c with training := false } := by
  rw [chan_congr (chans_trnMeasured k c eyes s), chan_updChan_same, chan_trnWindows]

theorem chansBut_trnMeasured (k : Fin 8) (c : Fin 32) (eyes : List Eye) (s : State) : ChansBut k c s (trnMeasured k c eyes s) := by
  intro j d h
  rw [chan_congr (chans_trnMeasured k c eyes s), chansBut_updChan _ k c _ j d h, chan_trnWindows]

theorem chanFault_trnMeasured (k : Fin 8) (c : Fin 32) (eyes : List Eye) (s : State) :
    chanFault (trnMeasured k c eyes s) k c = chanFault s k c := by
  simp only [chanFault, chan_trnMeasured]

/-- The keys that the end of a training writes beside those of the windows. -/
theorem regsBut_trnMeasured (hl : eyes.length = 10) :
    RegsBut (trnKeys k c ++ evKeys (chanPages k c)) s (trnMeasured k c eyes s) := by
  have h1 : RegsBut (trnKeys k c ++ evKeys (chanPages k c)) s (trnWindows (Blk.key (.chan k c)) eyes s) :=
    regsBut_mono (regsBut_trnWindows hl s) fun i hi => List.mem_append_left _ hi
  have hstat : Blk.key (.chan k c) + Rg.chan.TRNSTAT ∈ trnKeys k c ++ evKeys (chanPages k c) :=
    List.mem_append_left _ List.mem_cons_self
  have hpend : Blk.key (.chan k c) + Rg.hdr.EVPEND ∈ trnKeys k c ++ evKeys (chanPages k c) :=
    List.mem_append_right _ List.mem_cons_self
  refine regsBut_trans h1 (regsBut_trans (fun _ _ => rfl) (regsBut_trans (regsBut_mono (regsBut_setReg _ _ _) ?_)
    (regsBut_mono (regsBut_setReg _ _ _) ?_)))
  · simpa using hstat
  · simpa using hpend

theorem reg_trnMeasured_ERASECTL (hl : eyes.length = 10) :
    reg (trnMeasured k c eyes s) (Blk.key (.chan k c) + Rg.chan.ERASECTL) = reg s (Blk.key (.chan k c) + Rg.chan.ERASECTL) := by
  refine regsBut_trnMeasured hl _ ?_
  rw [List.mem_append, not_or]
  refine ⟨?_, not_mem_evKeys _ (by rw [key_ERASECTL_mod]; decide)⟩
  generalize hk : Blk.key (.chan k c) = key
  simp only [trnKeys, hk, List.mem_cons, List.mem_flatMap, List.mem_range, List.not_mem_nil, or_false, not_or, not_exists, not_and,
    Rg.chan.ERASECTL, Rg.chan.TRNSTAT, Rg.chan.TRNRD, Rg.chan.TRNWR]
  exact ⟨by omega, fun i _ => ⟨by omega, by omega⟩⟩

theorem reg_trnMeasured_TRNSTAT (k : Fin 8) (c : Fin 32) (eyes : List Eye) (s : State) :
    reg (trnMeasured k c eyes s) (Blk.key (.chan k c) + Rg.chan.TRNSTAT) = trnStat eyes := by
  unfold trnMeasured
  dsimp only
  rw [reg_pulse, if_neg (by simp [Rg.chan.TRNSTAT, Rg.hdr.EVPEND]), reg_setReg_same]

theorem regBit_trnMeasured_EVPEND (k : Fin 8) (c : Fin 32) (eyes : List Eye) (s : State) :
    regBit (trnMeasured k c eyes s) (Blk.key (.chan k c) + Rg.hdr.EVPEND) 4 = true := by
  unfold trnMeasured regBit
  dsimp only
  rw [reg_pulse, if_pos rfl]
  simp [setBit, w32]

theorem trnStat_good (h : ∀ e ∈ eyes, ¬ weakEye e) : trnStat eyes = 3 := by
  have h1 : narrow (fun e => eyeW e.rl e.rr) eyes = 0 := narrow_eq_zero fun e he hw => h e he (.inl hw)
  have h2 : narrow (fun e => eyeW e.wl e.wr) eyes = 0 := narrow_eq_zero fun e he hw => h e he (.inr hw)
  rw [trnStat, badLanes, h1, h2]
  rfl

/-- Latching events clears no bit of a register. -/
theorem regBit_settle {b : State} {i n : Nat} (ps : List (Blk × Nat)) (s : State) (h : regBit s i n = true) :
    regBit (settle b ps s) i n = true := by
  induction ps generalizing s with
  | nil => exact h
  | cons p ps ih =>
    refine ih _ ?_
    unfold settle1
    dsimp only
    split
    · exact h
    · rw [regBit, reg_updReg]
      split
      · subst_vars
        rw [BitVec.getLsbD_or, Bool.or_eq_true]
        exact .inl h
      · exact h

end

end Sys2Proof.Machine
end

section
/-! Cores, training and scrubbing of a stack (O22). -/

open Sys2Proof.Says

namespace Sys2Proof.Machine

section
variable {k : Fin 8} {c : Fin 32} {s : State} {eyes : List Eye}

/-- The state after a training of a channel of a stack where no request waits. -/
def trainedTo (k : Fin 8) (c : Fin 32) (eyes : List Eye) (s : State) : State := watched (chanPages k c) (trnDone k c eyes) s

theorem trainingComplete_eq {ps : List Part} (hl : eyes.length = 10) (hw : (stack s k).waits = [])
    (hk : KeepsBut ps s (trnDone k c eyes s)) (hs : Part.stks ∉ ps) (hr : Part.regs ∈ ps) (hf : Part.fuses ∉ ps) (hc : Part.clock ∉ ps) :
    exec (.trainingComplete k c eyes) s = .next (trainedTo k c eyes s) := by
  have hwf : wellFormed (.trainingComplete k c eyes) = true := beq_iff_eq.mpr hl
  have hdo : stackDo k (trnDone k c eyes) s = trnDone k c eyes s :=
    stackDo_of_no_waits k _ s (by rw [stack_congr (hk.2 .stks hs)]; exact hw)
  have hto : watched (chanPages k c) (stackDo k (trnDone k c eyes)) s = trainedTo k c eyes s := by
    unfold trainedTo watched; rw [hdo]
  refine (if_pos hwf).trans ?_
  rw [act_watched (ps := ps) _ (by rw [hdo]; exact hk) hr hf hc, hto]

/-- With no failing lane, a channel in FAULT leaves it for STOPPED (R317). -/
theorem trnDone_good_cases (ht : (chan s k c).training = true) (h : ∀ e ∈ eyes, ¬ weakEye e) :
    (chanFault s k c = false ∧ trnDone k c eyes s = trnMeasured k c eyes s) ∨
    (chanFault s k c = true ∧ trnDone k c eyes s =
      setRun (updChan (trnMeasured k c eyes s) k c (fun x => { x with failed := false, frozen := none })) (.chan k c) .stopped) := by
  have hd := trnDone_good ht (lanes_of_good h)
  rw [chanFault_trnMeasured] at hd
  cases hf : chanFault s k c with
  | false => rw [hf] at hd; exact .inl ⟨rfl, hd⟩
  | true => rw [hf] at hd; exact .inr ⟨rfl, hd⟩

/-- What such a training keeps, and that its registers are those of the measured windows. -/
theorem trnDone_good_keeps (ht : (chan s k c).training = true) (h : ∀ e ∈ eyes, ¬ weakEye e) :
    KeepsBut [.regs, .chans, .blks] s (trnDone k c eyes s) ∧ (∀ i, reg (trnDone k c eyes s) i = reg (trnMeasured k c eyes s) i) := by
  have hm : KeepsBut [.regs, .chans, .blks] s (trnMeasured k c eyes s) :=
    keepsBut_mono (keepsBut_trnMeasured_good k c h s) (by decide)
  rcases trnDone_good_cases ht h with ⟨-, hd⟩ | ⟨-, hd⟩
  · rw [hd]; exact ⟨hm, fun _ => rfl⟩
  · have hu : KeepsBut [.chans, .blks] (trnMeasured k c eyes s) (trnDone k c eyes s) := by
      rw [hd]
      exact keepsBut_trans (keepsBut_mono (keepsBut_updChan _ k c _) (by decide)) (keepsBut_mono (keepsBut_setRun _ _ _) (by decide))
    exact ⟨keepsBut_trans hm (keepsBut_mono hu (by decide)), reg_congr (hu.2 .regs (by decide)) (hu.2 .fuses (by decide))⟩

/-- The channels after it. -/
theorem trnDone_good_chan (ht : (chan s k c).training = true) (h : ∀ e ∈ eyes, ¬ weakEye e) :
    chan (trnDone k c eyes s) k c = { chan s k c with training := false, frozen := none, failed := false } ∧
      ChansBut k c s (trnDone k c eyes s) := by
  have hc := chan_trnMeasured k c eyes s
  have ho := chansBut_trnMeasured k c eyes s
  rcases trnDone_good_cases ht h with ⟨hf, hd⟩ | ⟨-, hd⟩
  · rw [chanFault, Bool.or_eq_false_iff, Option.isSome_eq_false_iff, Option.isNone_iff_eq_none] at hf
    rw [hd]
    exact ⟨by rw [hc, ← hf.1, ← hf.2], ho⟩
  · have hu := chan_congr ((keepsBut_setRun (updChan (trnMeasured k c eyes s) k c (fun x => { x with failed := false, frozen := none }))
      (.chan k c) .stopped).2 .chans (by decide))
    rw [hd]
    refine ⟨by rw [hu, chan_updChan_same, hc], fun j d hjd => ?_⟩
    rw [hu, chansBut_updChan _ k c _ j d hjd, ho j d hjd]

theorem trainedTo_reg (i : Nat) (hi : i % 0x1000 ≠ 0x20) : reg (trainedTo k c eyes s) i = reg (trnDone k c eyes s) i :=
  reg_watched_off _ _ _ hi

theorem key_TRNSTAT_mod (k : Fin 8) (c : Fin 32) : (Blk.key (.chan k c) + Rg.chan.TRNSTAT) % 0x1000 ≠ 0x20 := by
  have := key_mod (.chan k c)
  simp only [Rg.chan.TRNSTAT]
  omega

/-- A training in which every lane passes. -/
theorem trainingComplete_good (hl : eyes.length = 10) (ht : (chan s k c).training = true) (hw : (stack s k).waits = [])
    (h : ∀ e ∈ eyes, ¬ weakEye e) :
    ∃ t, exec (.trainingComplete k c eyes) s = .next t ∧ (chan t k c).training = false ∧
      chanFault t k c = false ∧ (chanFault s k c = true → isStopped t (.chan k c) = true) ∧
      (chan t k c).queue = (chan s k c).queue ∧ reg t (Blk.key (.chan k c) + Rg.chan.TRNSTAT) = 3 ∧
      regBit t (Blk.key (.chan k c) + Rg.hdr.EVPEND) 4 = true ∧
      Keeps [.chans, .blks] (trnKeys k c) (chanPages k c) s t ∧ ChansBut k c s t := by
  obtain ⟨hk, hreg⟩ := trnDone_good_keeps ht h
  obtain ⟨hc, ho⟩ := trnDone_good_chan ht h
  have hct : chan (trainedTo k c eyes s) k c = { chan s k c with training := false, frozen := none, failed := false } :=
    (chan_watched _ _ s k c).trans hc
  refine ⟨_, trainingComplete_eq hl hw hk (by decide) (by decide) (by decide) (by decide), by rw [hct], ?_, fun hf => ?_, by rw [hct],
    ?_, ?_, ⟨keepsBut_watched_of _ hk (by decide), ?_⟩, fun j d hjd => (chan_watched _ _ s j d).trans (ho j d hjd)⟩
  · rw [chanFault, hct]; rfl
  · rcases trnDone_good_cases ht h with ⟨hf', -⟩ | ⟨-, hd⟩
    · rw [hf] at hf'; cases hf'
    · rw [isStopped, trainedTo, blkSt_congr (watched_blks _ _ s), hd, blkSt_setRun_same]; rfl
  · rw [trainedTo_reg _ (key_TRNSTAT_mod k c), hreg, reg_trnMeasured_TRNSTAT, trnStat_good h]
  · refine regBit_settle _ _ ?_
    rw [regBit, hreg]
    exact regBit_trnMeasured_EVPEND k c eyes s
  · have hr : RegsBut (trnKeys k c ++ evKeys (chanPages k c)) s (trnDone k c eyes s) :=
      fun i hi => (hreg i).trans (regsBut_trnMeasured hl i hi)
    exact regsBut_mono (regsBut_watched_of _ hr) (by simp)

theorem keepsBut_chanLog (s : State) (k : Fin 8) (c : Fin 32) (code core beat l s0 s1 : Nat) (w : Option Init) :
    KeepsBut [.regs, .logs] s (chanLog s k c code core beat l s0 s1 w) := keepsBut_logE s _ _ _ _ _

theorem reg_chanLog (s : State) (k : Fin 8) (c : Fin 32) (code core beat l s0 s1 : Nat) (w : Option Init) {i : Nat}
    (h : i ≠ Blk.key (.chan k c) + Rg.hdr.ERRCNT) : reg (chanLog s k c code core beat l s0 s1 w) i = reg s i :=
  (reg_logE s _ _ _ _ _ i).trans (if_neg h)

theorem logOf_chanLog_ne (s : State) (k : Fin 8) (c : Fin 32) (code core beat l s0 s1 : Nat) (w : Option Init) {i : Nat}
    (h : i ≠ Blk.key (.chan k c)) : logOf (chanLog s k c code core beat l s0 s1 w) i = logOf s i :=
  (logOf_logE s _ _ _ _ _ i).trans (if_neg h)

theorem head_chanLog (s : State) (k : Fin 8) (c : Fin 32) (code core beat l s0 s1 : Nat) (w : Option Init) :
    (logOf (chanLog s k c code core beat l s0 s1 w) (Blk.key (.chan k c))).head?.map (·.w0) =
      some (w32 (code + core * 2 ^ 8 + beat * 2 ^ 12)) := by
  have h : logOf (chanLog s k c code core beat l s0 s1 w) (Blk.key (.chan k c)) = List.take 4 (_ :: logOf s (Blk.key (.chan k c))) :=
    (logOf_logE s _ _ _ _ _ _).trans (if_pos rfl)
  rw [h]
  rfl

/-- A training in which one core alone fails erases it: its code is logged, and ERASECTL names it (R317). -/
theorem trainingComplete_single (hl : eyes.length = 10) (ht : (chan s k c).training = true) (hw : (stack s k).waits = []) (i : Fin 10)
    {d : Eye} (h : ∀ j : Fin 10, weakEye (eyes.getD j.val d) ↔ j = i)
    (he : (reg s (Blk.key (.chan k c) + Rg.chan.ERASECTL)).getLsbD 4 = false) :
    ∃ t, exec (.trainingComplete k c eyes) s = .next t ∧ (chan t k c).training = false ∧
      reg t (Blk.key (.chan k c) + Rg.chan.ERASECTL) = w32 (i.val + 0x30) ∧
      ((logOf t (Blk.key (.chan k c))).head?.map (·.w0)) = some (w32 (7 + i.val * 2 ^ 8)) ∧
      KeepsLog [.chans, .frees] ((Blk.key (.chan k c) + Rg.chan.ERASECTL) :: trnKeys k c) (chanPages k c) (Blk.key (.chan k c)) s t ∧
      ChansBut k c s t := by
  have hu := keepsBut_trnMeasured k c eyes s
  have hd := trnDone_single ht (lanes_of_single hl i h) (by rw [reg_trnMeasured_ERASECTL hl]; exact he)
  have hset := keepsBut_setReg (chanLog (trnMeasured k c eyes s) k c 0x07 i.val 0 0 0 0 none)
    (Blk.key (.chan k c) + Rg.chan.ERASECTL) (w32 (i.val + 0x30))
  have hlog := keepsBut_chanLog (trnMeasured k c eyes s) k c 0x07 i.val 0 0 0 0 none
  rw [← hd] at hset
  have hk : KeepsBut [.regs, .logs, .chans, .frees] s (trnDone k c eyes s) :=
    keepsBut_trans (keepsBut_mono hu (by decide)) (keepsBut_trans (keepsBut_mono hlog (by decide)) (keepsBut_mono hset (by decide)))
  have hchans : (trnDone k c eyes s).chans = (trnMeasured k c eyes s).chans :=
    (hset.2 .chans (by decide)).trans (hlog.2 .chans (by decide))
  have hlogs : (trnDone k c eyes s).logs = (chanLog (trnMeasured k c eyes s) k c 0x07 i.val 0 0 0 0 none).logs :=
    hset.2 .logs (by decide)
  have hlogs' : ∀ j, logOf (trainedTo k c eyes s) j = logOf (chanLog (trnMeasured k c eyes s) k c 0x07 i.val 0 0 0 0 none) j := by
    intro j
    rw [logOf, trainedTo, watched_logs, hlogs, logOf]
  have hchan : ∀ j e, chan (trainedTo k c eyes s) j e = chan (trnMeasured k c eyes s) j e :=
    fun j e => (chan_watched _ _ s j e).trans (chan_congr hchans j e)
  refine ⟨_, trainingComplete_eq hl hw hk (by decide) (by decide) (by decide) (by decide), by rw [hchan, chan_trnMeasured], ?_, ?_,
    ⟨keepsBut_watched_of _ hk (by decide), fun j hj => ?_, fun j hj => ?_⟩,
    fun j e hje => (hchan j e).trans (chansBut_trnMeasured k c eyes s j e hje)⟩
  · rw [trainedTo, reg_ERASECTL_watched, hd, reg_setReg_same]
  · rw [hlogs', head_chanLog]; rfl
  · simp only [List.cons_append, List.mem_cons, List.mem_append, not_or] at hj
    obtain ⟨h1, h2, h3, h4⟩ := hj
    rw [trainedTo, reg_watched _ _ _ _ h4, hd, reg_setReg_ne _ _ h2, reg_chanLog _ _ _ _ _ _ _ _ _ _ h1]
    exact regsBut_trnMeasured hl j (by rw [List.mem_append, not_or]; exact ⟨h3, h4⟩)
  · rw [hlogs', logOf_chanLog_ne _ _ _ _ _ _ _ _ _ _ (by simpa using hj), logOf, logOf, hu.2 .logs (by decide)]

end

/-- Settles O22: each clause is the one command it names, whose effect the lemmas above give. -/
theorem coresTrainingAndScrubbing : Obligations.CoresTrainingAndScrubbing := by
  intro k c who s
  exact ⟨fun core temp => coreTempReport_acts k core temp s, fun f hr hf hlt => eraseOf_reset c hr hf hlt, dramLapLimit_acts k s,
    fun i => dramScrubRead_acts, fun v hr => ⟨erasectlWrite_takes hr, erasectlWrite_refused hr⟩,
    fun hr => ⟨trnctlStart_starts hr, trnctlStart_refused hr⟩,
    fun eyes hl ht hw => ⟨trainingComplete_good hl ht hw, fun i => trainingComplete_single hl ht hw i⟩⟩

end Sys2Proof.Machine
end

section
/-! SUPPORT. What every command keeps: the queue of waiting commands behind it, and of the fuses the fused record, the trims and
    every revocation made (R49, R52, R373, R374). -/

open Sys2Proof.Says

namespace Sys2Proof.Machine

/-! ### The forms of an answer -/

/-- Later fuses hold what is blown of the earlier ones: the same record and trims, and every revocation bit set before. -/
def Blown (old new : Fuses) : Prop :=
  new.fpr = old.fpr ∧ new.trims = old.trims ∧ (∃ x, new.sigRev = old.sigRev ||| x) ∧ ∃ y, new.encRev = old.encRev ||| y

theorem blown_refl (f : Fuses) : Blown f f := ⟨rfl, rfl, ⟨0, BitVec.or_zero.symm⟩, ⟨0, BitVec.or_zero.symm⟩⟩

theorem blown_keepFuses (old new : Fuses) : Blown old (keepFuses old new) := ⟨rfl, rfl, ⟨_, rfl⟩, ⟨_, rfl⟩⟩

/-- An answer to a command taken in `s` that, where it is a next state, keeps the queue and what is blown of the fuses. -/
def Keeping (s : State) : Out → Prop
  | .next t => t.pending = s.pending ∧ Blown s.fuses t.fuses
  | .fault _ => True
  | .refused _ => True

theorem keeping_act (f : State → State) (s : State) : Keeping s (act f s) := ⟨rfl, blown_refl _⟩

theorem keeping_actClock (f : State → State) (s : State) : Keeping s (actClock f s) := ⟨rfl, blown_refl _⟩

theorem keeping_actKeys (f : State → State) (s : State) : Keeping s (actKeys f s) := ⟨rfl, blown_keepFuses _ _⟩

theorem keeping_actIf (ok : Bool) (f : State → State) (s : State) : Keeping s (actIf ok f s) := by
  cases ok
  · exact trivial
  · exact keeping_act f s

theorem keeping_cpuAct (q : Cpu) (f : State → State) (s : State) : Keeping s (cpuAct q f s) := by
  cases q <;> exact keeping_act _ s

theorem keeping_vuGive (u : VU) (op : Nat) (c : Cmd) (s : State) : Keeping s (vuGive u op c s) := by
  cases u <;> exact keeping_act _ s

theorem keeping_vectorCommandComplete (u : XU) (s : State) : Keeping s (execVectorCommandComplete u s) := by
  rcases u with ⟨_ | _⟩ | _ | _ <;> exact keeping_act _ s

theorem keeping_unitErrorResponse (u : XU) (write : Bool) (a : Addr) (rsn : BitVec 8) (s : State) :
    Keeping s (execUnitErrorResponse u write a rsn s) := by
  rcases u with ⟨_ | _⟩ | _ | _ <;> exact keeping_act _ s

/-- Every command answers in one of the shared forms, and each of them keeps the queue and what is blown of the fuses. -/
theorem keeping_exec (c : Instr) (s : State) : Keeping s (exec c s) := by
  cases c
  case registerWrite | keyProgram | keyProgramComplete | keyRevoke | targetRequestCheck | writereg =>
    exact keeping_actKeys _ _
  case p48InRange | p48Loss =>
    exact keeping_actClock _ _
  case blkctlRun | blkctlStop | blkctlStopnow | blkctlSoftrst | modeEpochDirectWrite | blkpartWrite | blockStopped |
      scratchRead | scratchWrite | scratchAccumulate | dramAccessRequest | trainingComplete | windowRequest | writeBack |
      lrpop | prclr | tempSample | hostRead | hostWrite | copyDescriptor | fillSet | align | ack | nak | credit | pause |
      eios | messageFrame | readRequestFrame | writeRequestFrame | readResponseFrame | writeCompletionFrame |
      fabricInitiatorRequest | frames | ts =>
    exact keeping_actIf _ _ _
  case instructionFetch | alu | addi | andi | ori | xori | shi | lui | ldw | stw | ldb | stb | ldx | stx | ldd | std | cmp |
      cmpi | plog | prd | pwr | br | jmp | call | callr | ret | texit | trap | halt | pwrp | prdp | crr | crw | issue |
      issuer | recbeg | recend | replay | spill | fill | wfe | wfeWake | evack =>
    exact keeping_cpuAct _ _ _
  case vadd | vsub | vmul | vmax | vmin | vfma | vfn | vcvt | smx1 | smx2 | smx3 | nst1 | nst2 =>
    exact keeping_vuGive _ _ _ _
  case vectorCommandComplete => exact keeping_vectorCommandComplete _ _
  case unitErrorResponse => exact keeping_unitErrorResponse _ _ _ _ _
  case ldxStxResponse | counterIncrement | counterSet => exact ⟨rfl, blown_refl _⟩
  all_goals exact keeping_act _ s

theorem fuses_fabTick (s : State) : (fabTick s).fuses = s.fuses := by
  refine List.foldlRecOn (List.range 16) _ (motive := fun t : State => t.fuses = s.fuses) rfl fun t ht i _ => ?_
  dsimp only
  split
  · exact ht
  · exact ht

/-- Time passing keeps the fuses. -/
theorem fuses_tick (s : State) : (tick s).fuses = s.fuses := by
  unfold tick
  split
  · exact fuses_fabTick s
  · rfl

/-- A step keeps what is blown of the fuses. -/
theorem blown_step {s t : State} (h : step s = .next t) : Blown s.fuses t.fuses := by
  cases hp : s.pending with
  | nil =>
    have ht : t = tick s := by simpa [step, hp] using h.symm
    rw [ht, fuses_tick]
    exact blown_refl _
  | cons c rest =>
    have hk := keeping_exec c { s with pending := rest }
    have he : exec c { s with pending := rest } = .next t := by rwa [step, hp] at h
    rw [he] at hk
    exact hk.2

/-- A mask of bits set in a word stays set as further bits are. -/
theorem or_and_of_and_eq {n : Nat} {w m : BitVec n} (h : w &&& m = m) (x : BitVec n) : (w ||| x) &&& m = m := by
  ext i hi
  have hb : (w &&& m)[i] = m[i] := by rw [h]
  simp only [BitVec.getElem_and, BitVec.getElem_or] at hb ⊢
  cases hm : m[i] <;> simp_all

/-- Settles O2: every command answers in a form that keeps what is blown of the fuses, and so does the passing of time. -/
theorem fusesStayAsBlown : Obligations.FusesStayAsBlown := by
  rintro f tr sr er s t ⟨hf, htr, hs, he⟩ h
  obtain ⟨h1, h2, ⟨x, h3⟩, ⟨y, h4⟩⟩ := blown_step h
  exact ⟨h1.trans hf, h2.trans htr, by rw [h3]; exact or_and_of_and_eq hs x, by rw [h4]; exact or_and_of_and_eq he y⟩

theorem fuseInv_reset : FuseInv fpr0 [] 0 0 State.reset := ⟨rfl, rfl, rfl, rfl⟩

/-- Settles O3: the record of the reset fuses is that of a module without defects. -/
theorem fusesAtReset : Obligations.FusesAtReset := ⟨fuseInv_reset, by decide, by decide, rfl⟩

end Sys2Proof.Machine
end

section
/-! SUPPORT. Accesses of processors by LDX and STX: where an address is served, what sending a request and taking a response
    change, and what becomes of the processor (R39, R164, R168, R174, R408, R413). -/

open Sys2Proof.Says

namespace Sys2Proof.Machine

/-! ### Where an address is served (R36, R37, R413) -/

theorem routers_eq_dieRouters_lt : ∀ d : Fin 104, routers d = dieRouters d := by decide

theorem routers_eq_dieRouters (d : Nat) : routers d = dieRouters d := by
  by_cases h : d < 104
  · exact routers_eq_dieRouters_lt ⟨d, h⟩
  · have hd : ¬ d < 4 ∧ ¬ d < 8 ∧ ¬ d < 96 ∧ ¬ d < 100 ∧ ¬ d < 103 ∧ ¬ d = 103 := by omega
    simp [routers, dieKind, dieRouters, h, hd]

/-- A block found at a page of the floor plan is one of the floor plan. -/
theorem wf_of_blkAt {d n : Nat} {x : Blk × Nat} (h : blkAt d n = some x) : x.1.wf = true := by
  unfold blkAt at h
  simp only [routers_eq_dieRouters] at h
  split at h
  case isTrue hn => cases h; exact decide_eq_true hn
  split at h
  case isTrue hn => cases h; exact bne_iff_ne.mpr hn.2
  split at h <;> repeat' split at h
  all_goals cases h
  all_goals rfl

theorem rtr_lt_of_wf (b : Blk) (h : b.wf = true) : b.rtr < 16 := by
  cases b with
  | probe d r =>
    have := (dieRouters_bound d).1
    simp only [Blk.wf, decide_eq_true_eq] at h
    exact Nat.lt_of_lt_of_le h this
  | _ => simp only [Blk.rtr]; omega

theorem tableDie_lt {d : Nat} (h : d < 104) : tableDie d < 2 ^ 7 := by
  unfold tableDie
  split <;> omega

theorem regBlk_wf {a : Nat} {x : Blk × Nat} (h : regBlk a = some x) : x.1.wf = true := by
  obtain ⟨o, -, ho⟩ := Option.bind_eq_some_iff.mp h
  exact wf_of_blkAt ho

/-- A router of a die. -/
def IsNode (x : Nat × Nat) : Prop := x.1 < 2 ^ 7 ∧ x.2 < 2 ^ 4

theorem isNode_chan (k : Fin 8) (l : Nat) : IsNode (8 + 11 * k.val, (locChan l).val / 8) := by
  constructor <;> dsimp only <;> omega

theorem isNode_blk {a : Nat} {x : Blk × Nat} (h : regBlk a = some x) : IsNode (tableDie x.1.die, x.1.rtr) :=
  ⟨tableDie_lt (Blk_die_lt x.1 (regBlk_wf h)), rtr_lt_of_wf x.1 (regBlk_wf h)⟩

theorem targetOf_dram {s : State} {a : Nat} {m : Fin 8 × Nat} (h : inDram a = true) (hm : dramMap s a = m) :
    targetOf s a = some (8 + 11 * m.1.val, (locChan m.2).val / 8) := by
  rw [targetOf, if_pos h, hm]

/-- The router that serves an address is one of a die. -/
theorem isNode_of_targetOf {s : State} {a : Nat} {x : Nat × Nat} (h : targetOf s a = some x) : IsNode x := by
  by_cases hd : inDram a = true
  · rw [targetOf_dram hd rfl] at h
    exact Option.some.inj h ▸ isNode_chan _ _
  rw [targetOf, if_neg hd] at h
  split at h
  next o _ =>
    exact Option.some.inj h ▸ ⟨by dsimp only; omega, by dsimp only; omega⟩
  split at h
  next r _ _ =>
    exact Option.some.inj h ▸ ⟨by dsimp only; omega, by dsimp only; omega⟩
  next =>
    obtain ⟨y, hy, hx⟩ := Option.map_eq_some_iff.mp h
    exact hx ▸ isNode_blk hy

theorem space_of_regOff {a : Nat} {o : Nat} (h : regOff a = some o) : 2 * 2 ^ 40 ≤ a ∧ a < 2 * 2 ^ 40 + 2 ^ 31 := by
  unfold regOff at h
  split at h
  · assumption
  · cases h

/-- Register space is served by the router of its block. -/
theorem targetOf_reg (s : State) {a : Nat} {o : Nat} (h : regOff a = some o) :
    targetOf s a = (regBlk a).map (fun x => (tableDie x.1.die, x.1.rtr)) := by
  obtain ⟨h1, h2⟩ := space_of_regOff h
  have hd : inDram a = false := decide_eq_false (by omega)
  have hs : scrOff (BitVec.ofNat 48 a) = none := if_neg (by simp only [space, BitVec.toNat_ofNat]; omega)
  have hw : winOff a = none := if_neg (by omega)
  simp [targetOf, hd, hs, hw]

/-- A request that its initiator's router maps has a router that serves it. -/
theorem targetOf_of_mapped {s : State} {r : Req} (h : mapped s r = true) :
    ∃ d k, targetOf s r.addr.toNat = some (d, k) ∧ d < 2 ^ 7 ∧ k < 2 ^ 4 := by
  have hs : (targetOf s r.addr.toNat).isSome = true := by
    unfold mapped at h
    dsimp only at h
    split at h
    next ho =>
      simp only [Bool.and_eq_true] at h
      rw [targetOf_reg s ho, Option.isSome_map]
      exact h.1.1.1.1
    next => exact h
  obtain ⟨⟨d, k⟩, hx⟩ := Option.isSome_iff_exists.mp hs
  exact ⟨d, k, hx, isNode_of_targetOf hx⟩

theorem dramMap_congr {s t : State} (h : ∀ i, reg t i = reg s i) (a : Nat) : dramMap t a = dramMap s a := by
  have hl : localLen t = localLen s := by rw [localLen, localLen, ilvGib, ilvGib, h]
  rw [dramMap, dramMap, hl]

theorem targetOf_congr {s t : State} (h : ∀ i, reg t i = reg s i) (a : Nat) : targetOf t a = targetOf s a := by
  rw [targetOf, targetOf, dramMap_congr h]

theorem mapped_congr {s t : State} (h : ∀ i, reg t i = reg s i) (r : Req) : mapped t r = mapped s r := by
  simp only [mapped, targetOf_congr h]

/-! ### Sending a request -/

/-- A request on its way from its initiator's router to another. -/
def sentPkt (s : State) (src : Src) (r : Req) (d k : Nat) : Pkt :=
  { req := r, src, fromDie := r.who.die, fromRtr := r.who.rtr, dstDie := BitVec.ofNat 7 d, dstRtr := BitVec.ofNat 4 k,
    die := r.who.die, rtr := r.who.rtr, inp := 0, resp := none, at_ := s.clock.now }

theorem netSend_mapped {s : State} {src : Src} {r : Req} {d k : Nat} (hm : mapped s r = true)
    (ht : targetOf s r.addr.toNat = some (d, k)) (hn : src ≠ .nobody) :
    netSend s src r = { s with net := { s.net with
      pkts := s.net.pkts ++ [sentPkt s src r d k], outst := s.net.outst ++ [(src, s.clock.now)] } } := by
  simp only [netSend, hm, ht, if_neg hn]
  rfl

/-- The answer of its initiator's router to a request that no router serves. -/
def lostPkt (s : State) (src : Src) (r : Req) : Pkt :=
  { req := r, src, fromDie := BitVec.ofNat 7 r.who.die.toNat, fromRtr := BitVec.ofNat 4 r.who.rtr.toNat,
    dstDie := r.who.die, dstRtr := r.who.rtr, die := BitVec.ofNat 7 r.who.die.toNat,
    rtr := BitVec.ofNat 4 r.who.rtr.toNat, inp := 0, resp := some (Rsn.unmapped, []), at_ := s.clock.now }

theorem netSend_unmapped {s : State} {src : Src} {r : Req} (hm : mapped s r = false) :
    netSend s src r = respHere (respErr s r.who.die.toNat Rsn.unmapped) src r Rsn.unmapped [] := by
  simp only [netSend, hm]

theorem keepsBut_respHere (s : State) (src : Src) (r : Req) (c : BitVec 8) (l : List Byte) :
    KeepsBut [.net] s (respHere s src r c l) := by
  unfold respHere sendResp
  split
  · exact keepsBut_refl _ s
  · exact ⟨rfl, fun p hp => by cases p <;> simp_all [Part.Same]⟩

theorem keepsBut_netSend (s : State) (src : Src) (r : Req) : KeepsBut [.net, .regs] s (netSend s src r) := by
  unfold netSend
  split
  · exact ⟨rfl, fun p hp => by cases p <;> simp_all [Part.Same]⟩
  · exact keepsBut_trans (keepsBut_mono (keepsBut_respErr s _ _) (by simp))
      (keepsBut_mono (keepsBut_respHere _ _ _ _ _) (by simp))

theorem lostPkt_arrived (s : State) (src : Src) (r : Req) : arrived (lostPkt s src r) = true := by
  simp [arrived, lostPkt]

theorem lost_of_netSend {s : State} {src : Src} {r : Req} (hm : mapped s r = false) (hn : src ≠ .nobody) :
    lostPkt (respErr s r.who.die.toNat Rsn.unmapped) src r ∈ (netSend s src r).net.pkts := by
  rw [netSend_unmapped hm]
  simp only [respHere, sendResp, if_neg hn]
  exact List.mem_append_right _ (List.mem_singleton.mpr rfl)

/-! ### LDX and STX (R164, R166, R168) -/

section
variable {q : Cpu} {s : State} {d a b : RegF} {fn : BitVec 11} {x n : Nat}

/-- What the operands of LDX and STX name. -/
theorem xNames_form (h : xNames s q a b fn x n) :
    xOk q b fn = true ∧ xAddr q (cpu s q) a b fn = (x, n == 8) ∧ (if (n == 8) = true then 8 else 4) = n := by
  cases q with
  | tile u =>
    obtain ⟨rfl, rfl, rfl⟩ := h
    exact ⟨rfl, rfl, rfl⟩
  | core k =>
    obtain ⟨rfl, hfn, rfl, rfl⟩ := h
    have hf : fn = 0 ∨ fn = 1 := by
      rcases (by omega : fn.toNat = 0 ∨ fn.toNat = 1) with h | h
      · exact .inl (BitVec.eq_of_toNat_eq h)
      · exact .inr (BitVec.eq_of_toNat_eq h)
    refine ⟨by simp [xOk, hfn], ?_⟩
    rcases hf with rfl | rfl <;> exact ⟨rfl, rfl⟩

theorem regs_ok (hd : d.toNat < 24) (ha : a.toNat < 24) (hb : b.toNat < 24) :
    [d, a, b].any (fun r => decide (24 ≤ r.toNat)) = false := by
  simp; omega

theorem jLdx_eq (hr : runs s q = true) (hd : d.toNat < 24) (ha : a.toNat < 24) (hb : b.toNat < 24)
    (hx : xNames s q a b fn x n) :
    jLdx q d a b fn s = xSend q x (n == 8) (.load d (BitVec.ofNat 48 x) (n == 8)) .read [] s := by
  obtain ⟨hok, hadr, -⟩ := xNames_form hx
  rw [jLdx, instr_ok hr hok (regs_ok hd ha hb), hadr]

theorem jStx_eq (hr : runs s q = true) (hd : d.toNat < 24) (ha : a.toNat < 24) (hb : b.toNat < 24)
    (hx : xNames s q a b fn x n) :
    jStx q d a b fn s =
      xSend q x (n == 8) (.store (BitVec.ofNat 48 x)) .write (leBytes n (rg q (cpu s q) d)) s := by
  obtain ⟨hok, hadr, hn⟩ := xNames_form hx
  rw [jStx, instr_ok hr hok (regs_ok hd ha hb)]
  simp only [hadr, hn]

theorem xSend_misaligned {dbl : Bool} {w : Wait} {kind : Kind} {data : List Byte} (hn : (if dbl = true then 8 else 4) = n)
    (hx : x % n ≠ 0) : xSend q x dbl w kind data s = trapHere q Tr.align (x % 2 ^ 32) s := by
  simp only [xSend, hn, if_pos hx]

/-- Processor `q` waits for the response of an access. -/
def waiting (q : Cpu) (w : Wait) (s : State) : State := updCpu s q (fun p => { p with wait := w })

theorem cpuInit_waiting (w : Wait) : cpuInit (waiting q w s) q = cpuInit s q := by
  cases q with
  | core k => rfl
  | tile u => simp only [cpuInit, tileInit, tileOwner, ownerOf, regN, waiting, updCpu, reg_setCpu]

theorem xSend_aligned {dbl : Bool} {w : Wait} {kind : Kind} {data : List Byte} (hn : (if dbl = true then 8 else 4) = n)
    (hx : x % n = 0) :
    xSend q x dbl w kind data s = netSend (waiting q w s) (.cpu q) (mkReq (cpuInit s q) kind x n data) := by
  simp only [xSend, hn, hx, ne_eq, not_true_eq_false, if_false]
  show netSend (waiting q w s) (.cpu q) (mkReq (cpuInit (waiting q w s) q) kind x n data) = _
  rw [cpuInit_waiting]

theorem reg_waiting (w : Wait) (i : Nat) : reg (waiting q w s) i = reg s i := reg_setCpu s q _ i

/-- An instruction that sends an access: the processor waits, the access is in the network; a mapped one changes nothing
    else. -/
theorem access_acts {f : State → State} {w : Wait} {r : Req} (hr : runs s q = true)
    (hf : f s = netSend (waiting q w s) (.cpu q) r) :
    ∃ t, cpuAct q f s = .next t ∧ t.net = (netSend (waiting q w s) (.cpu q) r).net ∧
      cpu t q = { cpu s q with wait := w } ∧ (RegsBut [] s (f s) → AccessFrame q s t) := by
  have hy : KeepsBut [.tiles, .cores] s (waiting q w s) := setCpu_keeps s q _
  have hz := keepsBut_netSend (waiting q w s) (.cpu q) r
  rw [← hf] at hz ⊢
  have hs : KeepsBut [.tiles, .cores, .net, .regs] s (f s) := keepsBut_trans (keepsBut_mono hy (by simp)) (keepsBut_mono hz (by simp))
  obtain ⟨hk, hb, hregs⟩ := cpuTo_keeps q f s (fun u hu => runs_issues (hu ▸ hr)) hs.1 (hs.2 .fuses (by simp)) (hs.2 .clock (by simp))
  have hcpu : ∀ p, cpu (cpuTo q f s) p = cpu (waiting q w s) p := fun p =>
    (cpu_congr (hk.2 .tiles (by simp)) (hk.2 .cores (by simp)) p).trans (cpu_congr (hz.2 .tiles (by simp)) (hz.2 .cores (by simp)) p)
  refine ⟨_, cpuAct_next q f s, hk.2 .net (by simp), ?_, fun hreg => ⟨⟨?_, fun i hi => ?_⟩, fun p hp => ?_, fun u => ?_, fun c hc => ?_⟩⟩
  · rw [hcpu, waiting, cpu_updCpu_same]
  · exact keepsBut_trans (keepsBut_mono hs (by simp)) (keepsBut_mono hk (by simp))
  · rw [hregs i (fun h => hi (List.mem_append_right _ h)), hreg i (by simp)]
  · rw [hcpu, waiting, cpu_updCpu, if_neg hp]
  · rw [tile_congr (hk.2 .tiles (by simp)), tile_congr (hz.2 .tiles (by simp))]
    exact tileSame_setCpu s q _ u
  · have := hb c hc
    rwa [StopHeld, blkSt_congr (hs.2 .blks (by simp))] at this

variable {f : State → State} {w : Wait} {kind : Kind} {data : List Byte}

theorem access_misaligned (hr : runs s q = true) (hn : (cpu s q).intrap = false) (h4 : (if (n == 8) = true then 8 else 4) = n)
    (hx : x % n ≠ 0) (hf : f s = xSend q x (n == 8) w kind data s) :
    ∃ t, cpuAct q f s = .next t ∧ Trapped q 0x05 (cpu s q).pc.toNat x s t := by
  obtain ⟨t, ht, hcpu, hcnt, hfr⟩ := traps hr hn (hf.trans (xSend_misaligned h4 hx))
  exact ⟨t, ht, by rwa [Nat.mod_mod] at hcpu, hcnt, hfr⟩

theorem access_lost (hr : runs s q = true) (h4 : (if (n == 8) = true then 8 else 4) = n)
    (hx : x % n = 0) (hf : f s = xSend q x (n == 8) w kind data s)
    (hm : mapped s (mkReq (cpuInit s q) kind x n data) = false) :
    ∃ t, cpuAct q f s = .next t ∧
      (∃ p ∈ t.net.pkts, p.src = .cpu q ∧ p.resp = some (Rsn.unmapped, []) ∧ arrived p = true) ∧
      cpu t q = { cpu s q with wait := w } := by
  obtain ⟨t, ht, hnet, hcpu, -⟩ := access_acts hr (hf.trans (xSend_aligned h4 hx))
  have hm' := (mapped_congr (reg_waiting (q := q) w) _).trans hm
  have hp := lost_of_netSend hm' (src := .cpu q) (by simp)
  rw [← hnet] at hp
  exact ⟨t, ht, ⟨_, hp, rfl, rfl, lostPkt_arrived _ _ _⟩, hcpu⟩

theorem access_sent (hr : runs s q = true) (h4 : (if (n == 8) = true then 8 else 4) = n)
    (hx : x % n = 0) (hf : f s = xSend q x (n == 8) w kind data s)
    (hm : mapped s (mkReq (cpuInit s q) kind x n data) = true) :
    ∃ t, cpuAct q f s = .next t ∧ Sent q (mkReq (cpuInit s q) kind x n data) s t ∧
      cpu t q = { cpu s q with wait := w } ∧ AccessFrame q s t := by
  have hz := hf.trans (xSend_aligned h4 hx)
  obtain ⟨t, ht, hnet, hcpu, hframe⟩ := access_acts hr hz
  obtain ⟨e, k, htgt, he, hk⟩ := targetOf_of_mapped hm
  rw [netSend_mapped ((mapped_congr (reg_waiting w) _).trans hm) ((targetOf_congr (reg_waiting w) _).trans htgt) (by simp)] at hnet hz
  have hw : KeepsBut [.tiles, .cores] s (waiting q w s) := setCpu_keeps s q _
  refine ⟨t, ht, ⟨sentPkt (waiting q w s) (.cpu q) (mkReq (cpuInit s q) kind x n data) e k, ?_, rfl, rfl, rfl, rfl, rfl, ?_⟩,
    hcpu, hframe fun i _ => ?_⟩
  · rw [hnet, show (waiting q w s).net = s.net from hw.2 .net (by simp), show (waiting q w s).clock = s.clock from hw.2 .clock (by simp)]
  · rw [htgt]
    simp only [sentPkt, BitVec.toNat_ofNat, Nat.mod_eq_of_lt he, Nat.mod_eq_of_lt hk]
  · rw [hz]
    exact reg_waiting w i

end

/-! ### The response (R164, R408) -/

theorem keepsBut_pulseIf (b : Bool) (s : State) (k n : Nat) : KeepsBut [.regs] s (pulseIf b s k n) := by
  unfold pulseIf
  split
  · exact keepsBut_pulse s k n
  · exact keepsBut_refl _ s

theorem keepsBut_net (s : State) (n : Net) : KeepsBut [.net] s { s with net := n } :=
  ⟨rfl, fun p hp => by cases p <;> simp_all [Part.Same]⟩

theorem keepsBut_probeBump (n : Node) (o c : Nat) (s : State) : KeepsBut [.regs] s (probeBump n o c s) := by
  unfold probeBump
  split
  · exact keepsBut_bump s _ _
  · exact keepsBut_refl _ s

theorem keepsBut_traceAdd (n : Node) (p : Seen) (s : State) : KeepsBut [.net, .regs] s (traceAdd n p s) := by
  unfold traceAdd
  dsimp only
  split
  · exact keepsBut_refl _ s
  split
  · exact keepsBut_trans (keepsBut_mono (keepsBut_net s _) (by simp)) (keepsBut_mono (keepsBut_pulseIf _ _ _ _) (by simp))
  split
  · exact keepsBut_refl _ s
  · exact keepsBut_mono (keepsBut_net s _) (by simp)

theorem keepsBut_probeSeen (n : Node) (l : Nat) (p : Seen) (s : State) : KeepsBut [.net, .regs] s (probeSeen n l p s) := by
  have bump2 : ∀ (o c o' c' : Nat) (s : State), KeepsBut [.net, .regs] s (probeBump n o c (probeBump n o' c' s)) := fun o c o' c' s =>
    keepsBut_mono (keepsBut_trans (keepsBut_probeBump n o' c' s) (keepsBut_probeBump n o c _)) (by simp)
  unfold probeSeen
  dsimp only
  split
  · exact keepsBut_refl _ s
  split
  · exact keepsBut_trans (keepsBut_trans (bump2 _ _ _ _ s) (bump2 _ _ _ _ _)) (keepsBut_traceAdd n p _)
  · exact bump2 _ _ _ _ s

theorem keepsBut_probeResp (p : Pkt) (lat : Nat) (s : State) : KeepsBut [.regs] s (probeResp p lat s) := by
  have bump2 : ∀ (k k' n n' : Nat) (s : State), KeepsBut [.regs] s (bump (bump s k n) k' n') := fun k k' n n' s =>
    keepsBut_trans (keepsBut_bump s k n) (keepsBut_bump _ k' n')
  unfold probeResp
  dsimp only
  split
  · exact keepsBut_refl _ s
  split
  · exact keepsBut_trans (bump2 _ _ _ _ s) (keepsBut_bump _ _ _)
  split
  · exact bump2 _ _ _ _ s
  · exact keepsBut_trans (bump2 _ _ _ _ s) (keepsBut_bump _ _ _)

/-- A response that leaves the network changes what the network carries and its probes count. -/
theorem keepsBut_takePkt (p : Pkt) (s : State) : KeepsBut [.net, .regs] s (takePkt p s) := by
  unfold takePkt
  exact keepsBut_trans (keepsBut_mono (keepsBut_net s _) (by simp))
    (keepsBut_trans (keepsBut_probeSeen _ _ _ _) (keepsBut_mono (keepsBut_probeResp _ _ _) (by simp)))

theorem keepsBut_takeResp {s s' : State} {src : Src} {c : BitVec 8 × List Byte} (h : takeResp s src = some (c, s')) :
    KeepsBut [.net, .regs] s s' := by
  unfold takeResp at h
  split at h
  · cases h
  next p _ =>
    obtain ⟨r, -, hr⟩ := Option.map_eq_some_iff.mp h
    obtain ⟨-, rfl⟩ := Prod.mk.inj hr
    exact keepsBut_takePkt p s

/-- The processor after an instruction has retired at the next word. -/
def retiredProc (q : Cpu) (p : Proc) : Proc :=
  { p with pc := BitVec.ofNat 64 ((p.pc.toNat + 4) % 2 ^ xlen q), skipBrk := false, wait := .none }

/-- The processor after the trap that an error response of its access raises. -/
def xerrProc (q : Cpu) (p : Proc) (x : Addr) (rsn : BitVec 8) : Proc :=
  { p with
    trpc := BitVec.ofNat 64 (p.pc.toNat &&& imMask q), trcode := w32 (0x0A + rsn.toNat * 256),
    trinfo := BitVec.ofNat 64 (x.toNat % 2 ^ 32), intrap := true, pc := p.trvec, skipBrk := false, wait := .none }

theorem cpu_retire (q : Cpu) (s : State) : cpu (retire q s) q = retiredProc q (cpu s q) := by
  rw [retire, cpu_seqCnt, cpu_updCpu_same]
  rfl

theorem cpu_retireSet (q : Cpu) (d : RegF) (v : Nat) (s : State) :
    cpu (retireSet q d v s) q = retiredProc q (setRg q (cpu s q) d v) := by
  rw [retireSet, cpu_retire, cpu_updCpu_same]

theorem cpu_xerr {q : Cpu} {s : State} (x : Addr) (rsn : BitVec 8) (h : (cpu s q).intrap = false) :
    cpu (trap q Tr.xerr (cpu s q).pc.toNat x.toNat s rsn) q = xerrProc q (cpu s q) x rsn := by
  rw [trap, if_neg (by simp [h]), cpu_seqCnt, cpu_updCpu_same]
  rfl

theorem power_updCpu (s : State) (q : Cpu) (f : Proc → Proc) : (updCpu s q f).power = s.power := (setCpu_keeps s q _).2 .power (by simp)

theorem power_seqCnt (q : Cpu) (o : Nat) (s : State) : (seqCnt q o s).power = s.power := (seqCnt_keeps q o s).2 .power (by simp)

theorem power_retire (q : Cpu) (s : State) : (retire q s).power = s.power := by
  rw [retire, power_seqCnt, power_updCpu]

theorem power_xerr {q : Cpu} {s : State} (x : Addr) (rsn : BitVec 8) (h : (cpu s q).intrap = false) :
    (trap q Tr.xerr (cpu s q).pc.toNat x.toNat s rsn).power = s.power := by
  rw [trap, if_neg (by simp [h]), power_seqCnt, power_updCpu]

theorem resetSettle_of_none {s : State} (h : s.power.inReset = []) : resetSettle s = s := by
  rw [resetSettle, h]
  rfl

section
variable {q : Cpu} {s : State}

theorem cpuDo_eq (f : State → State) (hl : ∀ u, q = .tile u → live s (.seq u) = true) :
    cpu (cpuDo q f s) q = cpu (f s) q ∧ (cpuDo q f s).power = (f s).power := by
  cases q with
  | core k => exact ⟨rfl, rfl⟩
  | tile u =>
    have hf : (fun s => if live s (.seq u) then tileSettle u (f s) else s) s = tileSettle u (f s) := if_pos (hl u rfl)
    refine ⟨cpu_congr ?_ ?_ _, ?_⟩
    · simp only [cpuDo, watched_tiles, hf, tileSettle_tiles]
    · simp only [cpuDo, watched_cores, hf, tileSettle_cores]
    · simp only [cpuDo, watched_power, hf, tileSettle_power]

/-- What a response makes of its processor where no reset waits for it. -/
theorem response_acts {p : Proc} (hl : ∀ u, q = .tile u → live s (.seq u) = true) (h0 : s.power.inReset = [])
    (hc : cpu (xResp q s) q = p) (hp : (xResp q s).power = s.power) :
    ∃ t, exec (.ldxStxResponse q) s = .next t ∧ cpu t q = p := by
  obtain ⟨h1, h2⟩ := cpuDo_eq (xResp q) hl
  have hr : resetSettle (cpuDo q (xResp q) s) = cpuDo q (xResp q) s := resetSettle_of_none (by rw [h2, hp, h0])
  refine ⟨_, act_next (fun s => resetSettle (cpuDo q (xResp q) s)) s, ?_⟩
  rw [← hc, ← h1, ← hr]
  exact cpu_congr rfl rfl q

variable {s' : State} {rsn : BitVec 8} {data : List Byte}

theorem xResp_load {d : RegF} {x : Addr} {dbl : Bool} (h : takeResp s (.cpu q) = some ((rsn, data), s'))
    (hw : (cpu s' q).wait = .load d x dbl) :
    xResp q s = if rsn = 0 then retireSet q d (leNat data) s' else trap q Tr.xerr (cpu s' q).pc.toNat x.toNat s' rsn := by
  simp only [xResp, h, hw]

theorem xResp_store {x : Addr} (h : takeResp s (.cpu q) = some ((rsn, data), s')) (hw : (cpu s' q).wait = .store x) :
    xResp q s = if rsn = 0 then retire q s' else trap q Tr.xerr (cpu s' q).pc.toNat x.toNat s' rsn := by
  simp only [xResp, h, hw]

theorem cpu_of_takeResp (h : takeResp s (.cpu q) = some ((rsn, data), s')) : cpu s' q = cpu s q :=
  cpu_congr ((keepsBut_takeResp h).2 .tiles (by simp)) ((keepsBut_takeResp h).2 .cores (by simp)) q

theorem power_of_takeResp (h : takeResp s (.cpu q) = some ((rsn, data), s')) : s'.power = s.power :=
  (keepsBut_takeResp h).2 .power (by simp)

theorem response_load {d : RegF} {x : Addr} {dbl : Bool} (h : takeResp s (.cpu q) = some ((rsn, data), s'))
    (hl : ∀ u, q = .tile u → live s (.seq u) = true) (h0 : s.power.inReset = []) (hn : (cpu s q).intrap = false)
    (hw : (cpu s q).wait = .load d x dbl) :
    ∃ t, exec (.ldxStxResponse q) s = .next t ∧ cpu t q =
      if rsn = 0 then retiredProc q (setRg q (cpu s q) d (leNat data)) else xerrProc q (cpu s q) x rsn := by
  have hcpu := cpu_of_takeResp h
  have hx := xResp_load h (hcpu ▸ hw)
  have hn' : (cpu s' q).intrap = false := hcpu ▸ hn
  by_cases hr : rsn = 0
  · rw [if_pos hr] at hx ⊢
    exact response_acts hl h0 (by rw [hx, cpu_retireSet, hcpu])
      (by rw [hx, retireSet, power_retire, power_updCpu, power_of_takeResp h])
  · rw [if_neg hr] at hx ⊢
    exact response_acts hl h0 (by rw [hx, cpu_xerr x rsn hn', hcpu]) (by rw [hx, power_xerr x rsn hn', power_of_takeResp h])

theorem response_store {x : Addr} (h : takeResp s (.cpu q) = some ((rsn, data), s'))
    (hl : ∀ u, q = .tile u → live s (.seq u) = true) (h0 : s.power.inReset = []) (hn : (cpu s q).intrap = false)
    (hw : (cpu s q).wait = .store x) :
    ∃ t, exec (.ldxStxResponse q) s = .next t ∧ cpu t q =
      if rsn = 0 then retiredProc q (cpu s q) else xerrProc q (cpu s q) x rsn := by
  have hcpu := cpu_of_takeResp h
  have hx := xResp_store h (hcpu ▸ hw)
  have hn' : (cpu s' q).intrap = false := hcpu ▸ hn
  by_cases hr : rsn = 0
  · rw [if_pos hr] at hx ⊢
    exact response_acts hl h0 (by rw [hx, cpu_retire, hcpu]) (by rw [hx, power_retire, power_of_takeResp h])
  · rw [if_neg hr] at hx ⊢
    exact response_acts hl h0 (by rw [hx, cpu_xerr x rsn hn', hcpu]) (by rw [hx, power_xerr x rsn hn', power_of_takeResp h])

end

/-- Settles O4: an access that is sent, one that is lost, one that traps, and what its response makes of the processor. -/
theorem moduleAccessesOfProcessors : Obligations.ModuleAccessesOfProcessors := by
  refine ⟨fun q s d a b fn x n hr hd ha hb hx => ?_, fun q s s' rsn data h hl h0 hn => ⟨fun d x dbl hw => ?_, fun x hw => ?_⟩⟩
  · obtain ⟨-, -, h4⟩ := xNames_form hx
    have hldx := jLdx_eq hr hd ha hb hx
    have hstx := jStx_eq hr hd ha hb hx
    refine ⟨fun hm hn i hi => ?_, fun hm => ⟨?_, ?_, ?_, ?_⟩⟩
    · simp only [List.mem_cons, List.not_mem_nil, or_false] at hi
      rcases hi with rfl | rfl
      · exact access_misaligned hr hn h4 hm hldx
      · exact access_misaligned hr hn h4 hm hstx
    · exact access_lost hr h4 hm hldx
    · exact access_lost hr h4 hm hstx
    · exact access_sent hr h4 hm hldx
    · exact access_sent hr h4 hm hstx
  · obtain ⟨t, ht, hc⟩ := response_load h hl h0 hn hw
    exact ⟨t, ht, hc.trans (by simp only [retiredProc, xerrProc, nextPc, setRg_pc])⟩
  · exact response_store h hl h0 hn hw

end Sys2Proof.Machine
end

section
/-! SUPPORT. Window tables, messages between dies, lull reports and probe counts (R278, R424, R432, R434, R437, R442). -/

open Sys2Proof.Says

namespace Sys2Proof.Machine

/-! ### A command that changes nothing -/

theorem and_compl_low (n : Nat) : n &&& (0xFFFF ^^^ (n &&& 0xFFFF)) = 0 := by
  apply Nat.eq_of_testBit_eq
  intro i
  simp only [Nat.testBit_and, Nat.testBit_xor, Nat.zero_testBit]
  cases n.testBit i <;> simp

theorem settle1_self (s : State) (p : Blk × Nat) : settle1 s p s = s := by
  unfold settle1
  simp [and_compl_low]

theorem settle_self (s : State) (ps : List (Blk × Nat)) : settle s ps s = s := by
  induction ps with
  | nil => rfl
  | cons p t ih => rw [settle, settle1_self, ih]

/-- A change that leaves the state as it is latches no event. -/
theorem watched_of_eq (ps : List (Blk × Nat)) {f : State → State} {s : State} (h : f s = s) : watched ps f s = s := by
  rw [watched, h, settle_self]

theorem act_of_eq {f : State → State} {s : State} (h : f s = s) : act f s = .next s := by
  rw [act, h]

/-! ### Writes of a partition table -/

section
variable {who : Init} {k : Fin 8} {w : Fin 64} {s : State}

/-- The table of a stack's windows. -/
abbrev winTable (k : Fin 8) : Blk := .ptab (8 + 11 * k.val)

theorem wf_winTable : ∀ k : Fin 8, (winTable k).wf = true := by decide

theorem dieKind_winTable : ∀ k : Fin 8, dieKind (8 + 11 * k.val) = .base := by decide

/-- The offset of a word of a window's registers in its page. -/
abbrev winOffs (w : Fin 64) (word : Nat) : Nat := 0x80 + 0x10 * w.val + 4 * word

theorem winKey_eq (k : Fin 8) (w : Fin 64) : winKey k.val w.val = (winTable k).keyP 1 + (0x80 + 0x10 * w.val) := Nat.add_assoc _ _ _

theorem winKey_mod (k : Fin 8) (w : Fin 64) (i : Nat) (hi : i < 0x10) : (winKey k.val w.val + i) % 0x1000 = 0x80 + 0x10 * w.val + i := by
  rw [winKey_eq, Nat.add_assoc, Nat.add_mod, keyP_mod]
  omega

theorem findReg_PWBASE : ∀ w : Fin 64, findReg ptabRegs (1 * 0x1000 + winOffs w 0) =
    some (⟨Rg.ptab.PWBASE, 64, 16, .rw, 0xFFFFF000, 0⟩, w.val) := by decide

theorem findReg_PWCTL : ∀ w : Fin 64, findReg ptabRegs (1 * 0x1000 + winOffs w 3) =
    some (⟨Rg.ptab.PWCTL, 64, 16, .rw, 0x7F, 0⟩, w.val) := by decide

theorem regAt_winTable (k : Fin 8) (w : Fin 64) (word : Nat) :
    regAt (winTable k) 1 (winOffs w word) = findReg ptabRegs (1 * 0x1000 + winOffs w word) := by
  rw [regAt, if_neg (by unfold winOffs; omega)]
  exact if_neg (by simp [dieKind_winTable k])

/-- A write of a register of a table's own that takes effect. -/
theorem blkCmd_ptab {d page off : Nat} (v : W32) {r : RegRow} {i : Nat} (hb : (Blk.ptab d).wf = true) (hp : page < 4)
    (h80 : 0x80 ≤ off) (ho : off < 0x1000) (ha : off % 4 = 0) (hat : regAt (.ptab d) page off = some (r, i))
    (hr : Reaches who (.ptab d) page off s) :
    blkCmd who (.ptab d) page off v s = watched [(.ptab d, page)] (ptabPut d page off r i v) s :=
  (regCmd_passes v hb hp ho ha hr.1).trans (regWrite_blk v hr.2 hat h80)

theorem winPut_of_ptabPut (v : W32) {r : RegRow} {word : Nat} (hword : word < 4) (hr : 0x1000 ≤ r.off ∧ r.off < 0x2000) :
    ptabPut (8 + 11 * k.val) 1 (winOffs w word) r w.val v s = winPut k.val w.val word v s := by
  have h1 : r.off ≠ Rg.ptab.LRPOP := by simp only [Rg.ptab.LRPOP]; omega
  have h2 : r.off ≠ Rg.ptab.LULLLIM := by simp only [Rg.ptab.LULLLIM]; omega
  rw [ptabPut, if_neg h1, if_neg h2, if_pos rfl, show (8 + 11 * k.val - 8) / 11 = k.val by omega,
    show (winOffs w word - 0x80) % 0x10 / 4 = word by unfold winOffs; omega]

theorem blkCmd_window (v : W32) {word : Nat} {r : RegRow} (hword : word < 4)
    (hat : findReg ptabRegs (1 * 0x1000 + winOffs w word) = some (r, w.val)) (hoff : 0x1000 ≤ r.off ∧ r.off < 0x2000)
    (hr : Reaches who (winTable k) 1 (winOffs w word) s) :
    blkCmd who (winTable k) 1 (winOffs w word) v s = watched [(winTable k, 1)] (winPut k.val w.val word v) s := by
  have hput : ptabPut (8 + 11 * k.val) 1 (winOffs w word) r w.val v = winPut k.val w.val word v :=
    funext fun s => winPut_of_ptabPut v hword hoff
  rw [← hput]
  exact blkCmd_ptab v (wf_winTable k) (by decide) (by unfold winOffs; omega) (by unfold winOffs; omega) (by unfold winOffs; omega)
    ((regAt_winTable k w word).trans hat) hr

/-- A refused write of a window leaves it, and makes an entry in the log of its page. -/
theorem window_refused {c : Instr} {f : State → State} {w0 w1 : W32} (hc : exec c s = act (watched [(winTable k, 1)] f) s)
    (h : f s = logE s ((winTable k).keyP 1) w0 w1) :
    ∃ t, exec c s = .next t ∧ reg t (winKey k.val w.val + 0xC) = reg s (winKey k.val w.val + 0xC) ∧
      (logOf t ((winTable k).keyP 1)).head? = some ⟨w0, w1, 0, 0⟩ ∧
      KeepsLog [] [] [(winTable k, 1)] ((winTable k).keyP 1) s t := by
  obtain ⟨hk, hlog⟩ := keepsLog_logE [(winTable k, 1)] h
  refine ⟨_, hc.trans (act_of_keeps hk.1 (by decide) (by decide)), ?_, hlog, hk⟩
  have hmod := winKey_mod k w 0xC (by decide)
  rw [reg_watched_off _ _ _ (by omega), h, reg_logE, if_neg]
  intro he
  rw [he, Nat.add_mod, keyP_mod] at hmod
  simp only [Rg.hdr.ERRCNT] at hmod
  omega

theorem keepsBut_setRegBit (s : State) (i n : Nat) (b : Bool) : KeepsBut [.regs] s (setRegBit s i n b) := keepsBut_setReg s i _

/-- A write that sets registers of the listed keys only. -/
theorem window_put {c : Instr} {f : State → State} {ks : List Nat} (hc : exec c s = act (watched [(winTable k, 1)] f) s)
    (hk : KeepsBut [.regs] s (f s)) (hr : RegsBut ks s (f s)) :
    exec c s = .next (watched [(winTable k, 1)] f s) ∧ PutOnly (winTable k) 1 ks s (watched [(winTable k, 1)] f s) := by
  have hw := keepsBut_watched_of [(winTable k, 1)] hk (by decide)
  exact ⟨hc.trans (act_of_keeps hw (by decide) (by decide)), hw, regsBut_watched_of _ hr⟩

/-- The control word of a window after a write that is taken: WIPED stays while EN is clear. -/
def winCtl (v c : W32) : W32 := (v &&& 0x7F) ||| (if v.getLsbD 4 then 0 else c &&& 0x100)

theorem winPut_PWCTL (s : State) (k w : Nat) (v : W32) : winPut k w 3 v s =
    (let c := reg s (winKey k w + 0xC)
     let no (code : Nat) : State := logE s (Blk.keyP (.ptab (8 + 11 * k)) 1) (w32 code) (w32 (0x80 + 0x10 * w + 4 * 3))
     if (c.getLsbD 4 && bits c 3 0 != bits v 3 0) || (bits v 3 0 != 0 && s.power.mst != .ready) then no 0x01
     else if bits c 3 0 ≠ bits v 3 0 ∧ !c.getLsbD 8 then no 0x02
     else if v.getLsbD 4 && !c.getLsbD 4 && winClash s k w (bits v 3 0) then no 0x01
     else setReg s (winKey k w + 0xC) (winCtl v c)) := by
  unfold winPut winCtl
  simp only [if_true]

theorem winPut_PWBASE (v : W32) (h : (reg s (winKey k.val w.val + 0xC)).getLsbD 4 = false) : winPut k.val w.val 0 v s =
    (let t := setReg s (winKey k.val w.val) (v &&& 0xFFFFF000)
     if reg s (winKey k.val w.val) = v &&& 0xFFFFF000 then t else setRegBit t (winKey k.val w.val + 0xC) 8 false) := by
  unfold winPut
  simp only [h, Bool.false_eq_true, false_or, if_true, Nat.mul_zero, Nat.add_zero, beq_iff_eq, show ((0 : Nat) = 3) = False by simp, show ((0 : Nat) = 2) = False by simp,
    false_and, if_false]

theorem pwctlWrite_PWCTL (v : W32) (hr : Reaches who (winTable k) 1 (winOffs w 3) s) :
    exec (.pwctlWrite who k w 3 v) s = act (watched [(winTable k, 1)] (winPut k.val w.val 3 v)) s := by
  show act (blkCmd who (winTable k) 1 (winOffs w 3) v) s = _
  rw [act, act, blkCmd_window v (by decide) (findReg_PWCTL w) (by decide) hr]

theorem pwctlWrite_PWBASE (v : W32) (hr : Reaches who (winTable k) 1 (winOffs w 0) s) :
    exec (.pwctlWrite who k w 0 v) s = act (watched [(winTable k, 1)] (winPut k.val w.val 0 v)) s := by
  show act (blkCmd who (winTable k) 1 (winOffs w 0) v) s = _
  rw [act, act, blkCmd_window v (by decide) (findReg_PWBASE w) (by decide) hr]

/-- A window whose EN is set keeps its partition (R432). -/
theorem winPut_enabled {v : W32} (hen : (reg s (winKey k.val w.val + 0xC)).getLsbD 4 = true)
    (hp : bits (reg s (winKey k.val w.val + 0xC)) 3 0 ≠ bits v 3 0) :
    winPut k.val w.val 3 v s = logE s ((winTable k).keyP 1) (w32 1) (w32 (winOffs w 3)) := by
  rw [winPut_PWCTL]
  exact if_pos (by simp [hen, hp])

/-- A window changes hands only where it has been wiped (R434). -/
theorem winPut_unwiped {v : W32} (hen : (reg s (winKey k.val w.val + 0xC)).getLsbD 4 = false)
    (hp : bits v 3 0 ≠ bits (reg s (winKey k.val w.val + 0xC)) 3 0) (hw : (reg s (winKey k.val w.val + 0xC)).getLsbD 8 = false)
    (hz : bits v 3 0 = 0 ∨ s.power.mst = .ready) :
    winPut k.val w.val 3 v s = logE s ((winTable k).keyP 1) (w32 2) (w32 (winOffs w 3)) := by
  rw [winPut_PWCTL]
  dsimp only
  rw [if_neg (by rcases hz with h | h <;> simp only [hen, h] <;> simp), if_pos ⟨hp.symm, by rw [hw]; rfl⟩]

/-- A window that may change takes the word, with WIPED cleared where EN is set. -/
theorem winPut_taken {v : W32} (hen : (reg s (winKey k.val w.val + 0xC)).getLsbD 4 = false)
    (hw : (reg s (winKey k.val w.val + 0xC)).getLsbD 8 = true ∨ bits v 3 0 = bits (reg s (winKey k.val w.val + 0xC)) 3 0)
    (hz : bits v 3 0 = 0 ∨ s.power.mst = .ready) (hcl : winClash s k.val w.val (bits v 3 0) = false) :
    winPut k.val w.val 3 v s = setReg s (winKey k.val w.val + 0xC) (winCtl v (reg s (winKey k.val w.val + 0xC))) := by
  rw [winPut_PWCTL]
  dsimp only
  rw [if_neg (by rcases hz with h | h <;> simp only [hen, h] <;> simp), if_neg, if_neg (by rw [hcl]; simp)]
  rintro ⟨hne, hc⟩
  rcases hw with h | h
  · rw [h] at hc; cases hc
  · exact hne h.symm

theorem pwctlWrite_taken {v : W32} (hr : Reaches who (winTable k) 1 (winOffs w 3) s)
    (h : winPut k.val w.val 3 v s = setReg s (winKey k.val w.val + 0xC) (winCtl v (reg s (winKey k.val w.val + 0xC)))) :
    ∃ t, exec (.pwctlWrite who k w 3 v) s = .next t ∧
      reg t (winKey k.val w.val + 0xC) = winCtl v (reg s (winKey k.val w.val + 0xC)) ∧
      PutOnly (winTable k) 1 [winKey k.val w.val + 0xC] s t := by
  obtain ⟨he, hk⟩ := window_put (k := k) (pwctlWrite_PWCTL v hr) (by rw [h]; exact keepsBut_setReg _ _ _)
    (by rw [h]; exact regsBut_setReg _ _ _)
  refine ⟨_, he, ?_, hk⟩
  rw [reg_watched_off _ _ _ (by rw [winKey_mod k w 0xC (by decide)]; omega), h, reg_setReg_same]

/-- A new base takes WIPED away, as it names other memory (R434). -/
theorem pwctlWrite_base {v : W32} (hr : Reaches who (winTable k) 1 (winOffs w 0) s)
    (hen : (reg s (winKey k.val w.val + 0xC)).getLsbD 4 = false) :
    ∃ t, exec (.pwctlWrite who k w 0 v) s = .next t ∧ reg t (winKey k.val w.val) = v &&& 0xFFFFF000 ∧
      (reg s (winKey k.val w.val) ≠ v &&& 0xFFFFF000 → regBit t (winKey k.val w.val + 0xC) 8 = false) ∧
      PutOnly (winTable k) 1 [winKey k.val w.val, winKey k.val w.val + 0xC] s t := by
  have hput := winPut_PWBASE v hen
  have hbase := regsBut_mono (ls := [winKey k.val w.val, winKey k.val w.val + 0xC])
    (regsBut_setReg s (winKey k.val w.val) (v &&& 0xFFFFF000)) (by simp)
  obtain ⟨he, hk⟩ := window_put (k := k) (ks := [winKey k.val w.val, winKey k.val w.val + 0xC]) (pwctlWrite_PWBASE v hr)
    (by
      rw [hput]
      dsimp only
      split
      · exact keepsBut_setReg _ _ _
      · exact keepsBut_trans (keepsBut_setReg _ _ _) (keepsBut_setRegBit _ _ _ _))
    (by
      rw [hput]
      dsimp only
      split
      · exact hbase
      · exact regsBut_trans hbase (regsBut_mono (regsBut_setReg _ _ _) (by simp)))
  refine ⟨_, he, ?_, fun hne => ?_, hk⟩
  · rw [reg_watched_off _ _ _ (by have := winKey_mod k w 0 (by decide); rw [Nat.add_zero] at this; omega), hput]
    dsimp only
    split
    · exact reg_setReg_same _ _ _
    · rw [reg_setRegBit, if_neg (by omega), reg_setReg_same]
  · rw [regBit, reg_watched_off _ _ _ (by rw [winKey_mod k w 0xC (by decide)]; omega), hput]
    dsimp only
    rw [if_neg hne, reg_setRegBit, if_pos rfl]
    simp only [setBit]
    simp
    exact fun _ => by decide

end


/-! ### A clearing message (R424, R434) -/

/-- A window that a clearing message finds not enabled and touched by its range. -/
def wipeHit (s : State) (k a n w : Nat) : Bool :=
  !(reg s (winKey k w + 0xC)).getLsbD 4 && overlaps (winRange s k w).1 (winRange s k w).2 a n

/-- WIPED clears in a window that the message touches. -/
def wipeStep (k a n : Nat) (s : State) (w : Nat) : State :=
  if wipeHit s k a n w then setRegBit s (winKey k w + 0xC) 8 false else s

theorem winKey_add_inj {k v w i j : Nat} (hi : i < 0x10) (hj : j < 0x10) (h : winKey k v + i = winKey k w + j) : v = w ∧ i = j := by
  unfold winKey at h
  omega

theorem keepsBut_wipeStep (k a n : Nat) (s : State) (w : Nat) : KeepsBut [.regs] s (wipeStep k a n s w) := by
  unfold wipeStep
  split
  · exact keepsBut_setRegBit _ _ _ _
  · exact keepsBut_refl _ _

theorem reg_wipeStep (k a n : Nat) (s : State) (w i : Nat) :
    reg (wipeStep k a n s w) i =
      if i = winKey k w + 0xC ∧ wipeHit s k a n w = true then setBit (reg s i) 8 false else reg s i := by
  unfold wipeStep
  by_cases h : wipeHit s k a n w = true
  · rw [if_pos h, reg_setRegBit]
    by_cases hi : i = winKey k w + 0xC
    · rw [if_pos hi, if_pos ⟨hi, h⟩, hi]
    · rw [if_neg hi, if_neg (fun hc => hi hc.1)]
  · rw [if_neg h, if_neg (fun hc => h hc.2)]

theorem regsBut_wipeStep (k a n : Nat) (s : State) (w : Nat) : RegsBut [winKey k w + 0xC] s (wipeStep k a n s w) := fun i hi => by
  rw [reg_wipeStep, if_neg]
  rintro ⟨h, -⟩
  exact hi (by simp [h])

theorem getLsbD_setBit8 (v : W32) : (setBit v 8 false).getLsbD 4 = v.getLsbD 4 := by
  simp only [setBit, Bool.false_eq_true, if_false, BitVec.getLsbD_and, BitVec.getLsbD_not]
  rw [show (w32 (2 ^ 8)).getLsbD 4 = false by decide]
  simp

/-- Clearing WIPED of a window changes neither EN nor the range of any. -/
theorem wipeHit_wipeStep (k a n : Nat) (s : State) (v w : Nat) : wipeHit (wipeStep k a n s v) k a n w = wipeHit s k a n w := by
  have hoff : ∀ i, i < 0xC → reg (wipeStep k a n s v) (winKey k w + i) = reg s (winKey k w + i) := fun i hi => by
    rw [reg_wipeStep, if_neg]
    rintro ⟨h, -⟩
    have := winKey_add_inj (by omega) (by decide) h
    omega
  have hen : (reg (wipeStep k a n s v) (winKey k w + 0xC)).getLsbD 4 = (reg s (winKey k w + 0xC)).getLsbD 4 := by
    rw [reg_wipeStep]
    split
    · exact getLsbD_setBit8 _
    · rfl
  have h0 := hoff 0 (by decide)
  rw [Nat.add_zero] at h0
  unfold wipeHit winRange
  simp only [hen, h0, hoff 4 (by decide), hoff 8 (by decide)]

theorem setBit_setBit_false (v : W32) : setBit (setBit v 8 false) 8 false = setBit v 8 false := by
  simp only [setBit, Bool.false_eq_true, if_false, BitVec.and_assoc, BitVec.and_self]

/-- The control word of a window after the message has gone over some of the windows. -/
theorem reg_foldl_wipeStep (k a n w : Nat) (l : List Nat) (s : State) :
    reg (l.foldl (wipeStep k a n) s) (winKey k w + 0xC) =
      if w ∈ l ∧ wipeHit s k a n w = true then setBit (reg s (winKey k w + 0xC)) 8 false else reg s (winKey k w + 0xC) := by
  induction l generalizing s with
  | nil => simp
  | cons v l ih =>
    rw [List.foldl_cons, ih, wipeHit_wipeStep, reg_wipeStep]
    by_cases hh : wipeHit s k a n w = true
    · by_cases hv : w = v
      · subst hv
        simp [hh, setBit_setBit_false]
      · have hne : ¬ (winKey k w = winKey k v) := fun h => hv (by unfold winKey at h; omega)
        simp [hh, hv, hne]
    · have hn : ¬ (winKey k w + 0xC = winKey k v + 0xC ∧ wipeHit s k a n v = true) := by
        rintro ⟨h, hv⟩
        exact hh ((winKey_add_inj (by decide) (by decide) h).1 ▸ hv)
      rw [if_neg hn, if_neg (fun h => hh h.2), if_neg (fun h => hh h.2)]

/-- The state of a die that has taken its oldest message off. -/
abbrev wipeTaken (s : State) (k : Nat) (l : List (Nat × Nat)) : State :=
  { s with net := { s.net with wipes := tset [] s.net.wipes k l } }

theorem wipedMsg_cons {k : Fin 8} {a n : Nat} {rest : List (Nat × Nat)} {s : State} (h : tget [] s.net.wipes k.val = (a, n) :: rest) :
    wipedMsg k s = (List.range 64).foldl (wipeStep k.val a n) (wipeTaken s k.val rest) := by
  rw [wipedMsg, h]
  rfl

theorem wipedClearMessage_clears (k : Fin 8) (a n : Nat) (rest : List (Nat × Nat)) (s : State)
    (h : tget [] s.net.wipes k.val = (a, n) :: rest) :
    ∃ t, exec (.wipedClearMessage k) s = .next t ∧ tget [] t.net.wipes k.val = rest ∧ Keeps [.net] (winKeys k) [] s t ∧
      ∀ w, w < 64 →
        let g := winRange s k.val w
        let e := reg s (winKey k.val w + 0xC)
        reg t (winKey k.val w + 0xC) = (if e.getLsbD 4 = false ∧ overlaps g.1 g.2 a n = true then e &&& ~~~ 0x100 else e) := by
  have hnet := keepsBut_net s { s.net with wipes := tset [] s.net.wipes k.val rest }
  have hfold : KeepsBut [.regs] (wipeTaken s k.val rest) (wipedMsg k s) := by
    rw [wipedMsg_cons h]
    exact keepsBut_foldl _ (keepsBut_wipeStep _ _ _) _ _
  have hk : KeepsBut [.regs, .net] s (wipedMsg k s) :=
    keepsBut_trans (keepsBut_mono hnet (by simp)) (keepsBut_mono hfold (by simp))
  have hwipes : (wipedMsg k s).net = (wipeTaken s k.val rest).net := hfold.2 .net (by decide)
  have hregs : RegsBut (winKeys k) (wipeTaken s k.val rest) (wipedMsg k s) := by
    rw [wipedMsg_cons h]
    refine List.foldlRecOn _ _ (fun _ _ => rfl) fun u hu w hw => regsBut_trans hu (regsBut_mono (regsBut_wipeStep _ _ _ _ _) ?_)
    intro i hi
    rw [List.mem_singleton.mp hi]
    exact List.mem_map_of_mem hw
  refine ⟨_, act_of_keeps hk (by decide) (by decide), ?_, ⟨hk, ?_⟩, fun w hw => ?_⟩
  · rw [hwipes]; exact tget_tset_same _ _ _ _
  · rw [evKeys, List.map_nil, List.append_nil]
    exact hregs
  · rw [wipedMsg_cons h, reg_foldl_wipeStep]
    have hhit : wipeHit (wipeTaken s k.val rest) k.val a n w = wipeHit s k.val a n w := rfl
    have hreg : reg (wipeTaken s k.val rest) (winKey k.val w + 0xC) = reg s (winKey k.val w + 0xC) := rfl
    rw [hhit, hreg]
    simp only [List.mem_range, hw, true_and, wipeHit, Bool.and_eq_true, Bool.not_eq_true']
    rfl


/-! ### An event message (R432, R531) -/

theorem eventMessage_drives (p : Nat) (rest : List Nat) (s : State) (h : s.net.events = p :: rest) :
    ∃ t, exec .eventMessage s = .next t ∧ t.net.events = rest ∧ tget false t.conc.pulse (0x670 + p) = true ∧
      KeepsBut [.net, .conc] s t := by
  have hm : eventMsg s = { s with net := { s.net with events := rest },
                                  conc := { s.conc with pulse := tset false s.conc.pulse (0x670 + p) true } } := by
    rw [eventMsg, h]
  have hk : KeepsBut [.net, .conc] s (eventMsg s) := by
    rw [hm]
    exact ⟨rfl, fun p hp => by cases p <;> simp_all [Part.Same]⟩
  refine ⟨_, act_of_keeps hk (by decide) (by decide), ?_, ?_, hk⟩
  · rw [hm]
  · rw [hm]; exact tget_tset_same false s.conc.pulse (0x670 + p) true

/-! ### Lull reports taken off and probe counts dropped (R437, R442) -/

theorem keepsBut_lrPop (d : Nat) (v : W32) (s : State) : KeepsBut [.net] s (lrPop d v s) := by
  unfold lrPop
  split
  · exact keepsBut_net _ _
  · exact keepsBut_refl _ _

theorem findReg_LRPOP : findReg ptabRegs (3 * 0x1000 + 0x84) = some (⟨Rg.ptab.LRPOP, 1, 0, .wo, 0x1, 0⟩, 0) := by decide

theorem regAt_LRPOP (d : Nat) : regAt (.ptab d) 3 0x84 = some (⟨Rg.ptab.LRPOP, 1, 0, .wo, 0x1, 0⟩, 0) :=
  (if_neg (by decide)).trans ((if_neg (fun h => absurd h.2 (by decide))).trans findReg_LRPOP)

theorem ptabPut_LRPOP (d : Nat) (v : W32) :
    ptabPut d 3 0x84 ⟨Rg.ptab.LRPOP, 1, 0, .wo, 0x1, 0⟩ 0 v = lrPop d v := funext fun _ => if_pos rfl

theorem lrpop_pops {who : Init} {die : BitVec 7} (v : W32) {s : State} (hwf : (Blk.ptab die.toNat).wf = true)
    (hr : Reaches who (.ptab die.toNat) 3 0x84 s) :
    ∃ t, exec (.lrpop who die v) s = .next t ∧
      tget [] t.net.lulls die.toNat =
        (if v.getLsbD 0 then (tget [] s.net.lulls die.toNat).drop 1 else tget [] s.net.lulls die.toNat) ∧
      Keeps [.net] [] [(.ptab die.toNat, 3)] s t := by
  have hcmd : blkCmd who (.ptab die.toNat) 3 0x84 v s = watched [(.ptab die.toNat, 3)] (lrPop die.toNat v) s :=
    (blkCmd_ptab v hwf (by decide) (by decide) (by decide) (by decide) (regAt_LRPOP _) hr).trans (by rw [ptabPut_LRPOP])
  have hpop := keepsBut_lrPop die.toNat v s
  have hw : KeepsBut [.regs, .net] s (watched [(.ptab die.toNat, 3)] (lrPop die.toNat v) s) :=
    keepsBut_watched_of _ (keepsBut_mono hpop (by simp)) (by decide)
  have hexec : exec (.lrpop who die v) s = .next (watched [(.ptab die.toNat, 3)] (lrPop die.toNat v) s) :=
    (if_pos hwf).trans (act_eq_of_keeps hcmd hw (by decide) (by decide))
  have hnet : (watched [(.ptab die.toNat, 3)] (lrPop die.toNat v) s).net = (lrPop die.toNat v s).net :=
    (keepsBut_watched _ _ _).2 .net (by decide)
  refine ⟨_, hexec, ?_, hw, ?_⟩
  · rw [hnet, lrPop]
    split
    · exact tget_tset_same _ _ _ _
    · rfl
  · refine regsBut_watched_of _ ?_
    exact fun k _ => reg_congr (hpop.2 .regs (by decide)) (hpop.2 .fuses (by decide)) k

theorem regAt_PRCLR (d r : Nat) : regAt (.probe d r) 0 Rg.probe.PRCLR = some (⟨Rg.probe.PRCLR, 1, 0, .wo, 0x1, 0⟩, 0) := rfl
theorem regAt_PRREQ (d r : Nat) : regAt (.probe d r) 0 Rg.probe.PRREQ = some (⟨Rg.probe.PRREQ, 1, 0, .rc, 0xFFFFFFFF, 0⟩, 0) := rfl

/-- The count registers of a probe. -/
def isProbeCount (k i : Nat) : Bool :=
  i == k + Rg.probe.PRFPKT || i == k + Rg.probe.PRFBYTES || decide (k + Rg.probe.PRREQ ≤ i ∧ i < k + Rg.probe.PRLNKPKT + 0x40)

theorem prClr_eq {n : Node} {v : W32} {s : State} (h : v.getLsbD 0 = true) : prClr n v s =
    (let t := dropRegs s (isProbeCount (probeKey n))
     { t with net := { t.net with traces := tset [] t.net.traces (16 * n.1 + n.2) [],
                                  wrapped := tset false t.net.wrapped (16 * n.1 + n.2) false } }) := by
  unfold prClr
  rw [h]
  rfl

theorem reg_prClr {n : Node} {v : W32} {s : State} (h : v.getLsbD 0 = true) (i : Nat) :
    reg (prClr n v s) i = if isProbeCount (probeKey n) i then regReset s.fuses i else reg s i := by
  rw [prClr_eq h]
  exact tgetD_tdrop _ _ _ _

theorem keepsBut_prClr (n : Node) (v : W32) (s : State) : KeepsBut [.regs, .net] s (prClr n v s) := by
  unfold prClr
  split
  · exact keepsBut_refl _ _
  · exact ⟨rfl, fun p hp => by cases p <;> simp_all [Part.Same]⟩

/-- What a register of a probe is at reset. -/
theorem regReset_probe {f : Fuses} {i d m : Nat} {r : RegRow} {n p : Nat} (hlt : i < 2 ^ 32)
    (hb : blkOfKey i = some (.probe d m, p)) (hr : regAt (.probe d m) p (i % 0x1000) = some (r, n)) :
    regReset f i = w32 r.rst := by
  unfold regReset
  rw [if_neg (Nat.not_le.mpr hlt), hb]
  dsimp only
  rw [hr]

theorem key_PRREQ_mod (d r : Nat) : (Blk.key (.probe d r) + Rg.probe.PRREQ) % 0x1000 = Rg.probe.PRREQ := by
  have := key_mod (.probe d r)
  simp only [Rg.probe.PRREQ]
  omega

theorem regReset_PRREQ (f : Fuses) {d r : Nat} (hwf : (Blk.probe d r).wf = true) :
    regReset f (Blk.key (.probe d r) + Rg.probe.PRREQ) = 0 := by
  have hlt : Blk.key (.probe d r) + Rg.probe.PRREQ < 2 ^ 32 :=
    Nat.lt_trans (keyP_add_lt (.probe d r) hwf (p := 0) (o := Rg.probe.PRREQ) (Blk_npages_pos _) (by decide)) (by decide)
  have hblk : blkOfKey (Blk.key (.probe d r) + Rg.probe.PRREQ) = some (.probe d r, 0) :=
    blkOfKey_keyP_add (.probe d r) hwf (p := 0) (o := Rg.probe.PRREQ) (Blk_npages_pos _) (by decide)
  have hr : regAt (.probe d r) 0 ((Blk.key (.probe d r) + Rg.probe.PRREQ) % 0x1000) =
      some (⟨Rg.probe.PRREQ, 1, 0, .rc, 0xFFFFFFFF, 0⟩, 0) := by
    rw [key_PRREQ_mod]; exact regAt_PRREQ d r
  exact (regReset_probe hlt hblk hr).trans rfl

theorem blkPut_PRCLR (d r : Nat) (v : W32) :
    blkPut (.probe d r) 0 Rg.probe.PRCLR ⟨Rg.probe.PRCLR, 1, 0, .wo, 0x1, 0⟩ 0 v = prClr (d, r) v := by
  funext s
  simp only [blkPut, if_true]

/-- A write of a probe's PRCLR that takes effect. -/
theorem blkCmd_PRCLR {who : Init} {d r : Nat} (v : W32) {s : State} (hwf : (Blk.probe d r).wf = true)
    (hr : Reaches who (.probe d r) 0 Rg.probe.PRCLR s) :
    blkCmd who (.probe d r) 0 Rg.probe.PRCLR v s = watched [(.probe d r, 0)] (prClr (d, r) v) s := by
  have h := (regCmd_passes v hwf (Blk_npages_pos _) (by decide) (by decide) hr.1).trans
    (regWrite_blk v hr.2 (regAt_PRCLR d r) (by decide))
  rw [blkPut_PRCLR] at h
  exact h

theorem prclr_clears {who : Init} {die : BitVec 7} {rtr : BitVec 4} {v : W32} {s : State}
    (hwf : (Blk.probe die.toNat rtr.toNat).wf = true) (hr : Reaches who (.probe die.toNat rtr.toNat) 0 Rg.probe.PRCLR s)
    (hv : v.getLsbD 0 = true) :
    ∃ t, exec (.prclr who die rtr v) s = .next t ∧ reg t (Blk.key (.probe die.toNat rtr.toNat) + Rg.probe.PRREQ) = 0 ∧
      tget [] t.net.traces (16 * die.toNat + rtr.toNat) = [] ∧
      (let k := probeKey (die.toNat, rtr.toNat)
       Keeps [.net] ([k + Rg.probe.PRFPKT, k + Rg.probe.PRFBYTES] ++
         (List.range (Rg.probe.PRLNKPKT + 0x40 - Rg.probe.PRREQ)).map (k + Rg.probe.PRREQ + ·))
         [(.probe die.toNat rtr.toNat, 0)] s t) := by
  have hk := keepsBut_prClr (die.toNat, rtr.toNat) v s
  have hw := keepsBut_watched_of [(.probe die.toNat rtr.toNat, 0)] hk (by decide)
  have hexec : exec (.prclr who die rtr v) s = .next (watched [(.probe die.toNat rtr.toNat, 0)] (prClr (die.toNat, rtr.toNat) v) s) :=
    (if_pos hwf).trans (act_eq_of_keeps (blkCmd_PRCLR v hwf hr) hw (by decide) (by decide))
  have hnet : (watched [(.probe die.toNat rtr.toNat, 0)] (prClr (die.toNat, rtr.toNat) v) s).net =
    (prClr (die.toNat, rtr.toNat) v s).net := (keepsBut_watched _ _ _).2 .net (by decide)
  refine ⟨_, hexec, ?_, ?_, hw, regsBut_watched_of _ fun i hi => ?_⟩
  · rw [reg_watched_off _ _ _ (by rw [key_PRREQ_mod]; decide), reg_prClr hv, if_pos (by simp [isProbeCount, probeKey, Rg.probe.PRREQ, Rg.probe.PRLNKPKT])]
    exact regReset_PRREQ _ hwf
  · rw [hnet, prClr_eq hv]
    exact tget_tset_same [] s.net.traces _ []
  · rw [reg_prClr hv, if_neg]
    intro hc
    refine hi ?_
    simp only [isProbeCount, Bool.or_eq_true, beq_iff_eq, decide_eq_true_eq] at hc
    simp only [List.mem_append, List.mem_cons, List.not_mem_nil, or_false, List.mem_map, List.mem_range]
    rcases hc with (h | h) | h
    · exact .inl (.inl h)
    · exact .inl (.inr h)
    · refine .inr ⟨i - (probeKey (die.toNat, rtr.toNat) + Rg.probe.PRREQ), ?_, ?_⟩ <;> omega

/-! ### A wait beyond its limit (R278, R432, R434) -/

/-- A tile is on a die that has a partition table of its own. -/
theorem tableDie_tile (u : Fin 64) : tableDie (u.val / 16) = u.val / 16 := by
  have : ∀ u : Fin 64, tableDie (u.val / 16) = u.val / 16 := by decide
  exact this u

/-- The wait of a SEM command under way. -/
def semWait (s : State) (u : Fin 64) (c : UCmd) : Wait9 :=
  { kind := 0, blk := .seq u, sub := 0, side := 0, part := tileOwner s u, tile := u.val, cnt := sCnt c.cmd, val := c.cmd.w2,
    cur := cntVal s u (sCnt c.cmd), since := (tile s u).sync.since }

theorem tileWaits_sem {s : State} {u : Fin 64} {c : UCmd} (hc : (tile s u).sync.active = some c)
    (hw : (tile s u).sync.waiting = true) (ho : hOpc c.cmd = 1) (he : (tile s u).seq.epSince = none) :
    tileWaits s u = [semWait s u c] := by
  unfold tileWaits
  simp only [hc, hw, ho, he]
  rfl

/-- The lull check of a machine whose one timed wait is that of a tile's SEM. -/
theorem lullCheck_sem {s : State} {u : Fin 64} {c : UCmd} (hw : allWaits s = [semWait s u c]) (hn : s.net.waits = []) :
    lullCheck s = if (tile s u).sync.since.toNat + lullLimit s (u.val / 16) (tileOwner s u) < now s
      then declare1 (semWait s u c) s else s := by
  have hf : ({ s with net := { s.net with waits := [] } } : State) = s := by rw [← hn]
  unfold lullCheck
  simp only [hw, hn, List.filter_nil, hf, List.foldl_cons, List.foldl_nil, List.contains_nil, Bool.not_false, Bool.true_and,
    decide_eq_true_eq]
  rfl

theorem declare1_sem (s : State) (u : Fin 64) (c : UCmd) : declare1 (semWait s u c) s =
    lullReport { s with net := { s.net with waits := s.net.waits ++ [waitId (semWait s u c)] } } (u.val / 16) (tileOwner s u)
      (waitReport (semWait s u c)) := rfl

theorem allWaits_sem {s : State} {u : Fin 64} {c : UCmd} (ht : s.tiles.map (·.1) = [u.val]) (hx : s.ctxs = []) (hg : s.engs = [])
    (hk : s.checks = []) (hh : s.chans = []) (hc : (tile s u).sync.active = some c) (hw : (tile s u).sync.waiting = true)
    (ho : hOpc c.cmd = 1) (he : (tile s u).seq.epSince = none) : allWaits s = [semWait s u c] := by
  obtain ⟨e, hte, hfst⟩ := List.map_eq_singleton_iff.mp ht
  unfold allWaits
  rw [hte, hx, hg, hk, hh]
  simp only [List.flatMap_cons, List.flatMap_nil, List.append_nil, hfst, fin_val, tileWaits_sem hc hw ho he]

/-- A die's report of a lull while its ring has room (R278, R432). -/
theorem lullReport_room {s : State} {die : Nat} {p : BitVec 4} {r : Lull} (hd : tableDie die = die)
    (hroom : (tget [] s.net.lulls die).length < 8) : lullReport s die p r =
      partFault (pulse { s with net := { s.net with lulls := tset [] s.net.lulls die (tget [] s.net.lulls die ++ [r]) } }
        (Blk.key (.ptab die)) 2) die p := by
  unfold lullReport
  simp only [hd, hroom, if_true]

/-- A partition fault drives the fault bit of its partition, and a message to the concentrator. -/
theorem partFault_eq {s : State} {die : Nat} {p : BitVec 4} (hd : tableDie die = die) : partFault s die p =
    (let t := pulse (setRegBit s (Blk.key (.ptab die) + Rg.ptab.PTFAULT) p.toNat true) (Blk.key (.ptab die)) 0
     { t with net := { t.net with events := t.net.events ++ [p.toNat] } }) := by
  unfold partFault
  simp only [hd]

theorem regsBut_pulse (s : State) (k n : Nat) : RegsBut [k + Rg.hdr.EVPEND] s (pulse s k n) := regsBut_setReg s _ _

/-- The registers of a die that has reported a lull of a partition. -/
def lullRegs (s : State) (die : Nat) (p : BitVec 4) : State :=
  pulse (setRegBit (pulse s (Blk.key (.ptab die)) 2) (Blk.key (.ptab die) + Rg.ptab.PTFAULT) p.toNat true) (Blk.key (.ptab die)) 0

theorem keepsBut_lullRegs (s : State) (die : Nat) (p : BitVec 4) : KeepsBut [.regs] s (lullRegs s die p) :=
  keepsBut_trans (keepsBut_pulse _ _ _) (keepsBut_trans (keepsBut_setRegBit _ _ _ _) (keepsBut_pulse _ _ _))

theorem regsBut_lullRegs (s : State) (die : Nat) (p : BitVec 4) :
    RegsBut [Blk.key (.ptab die) + Rg.ptab.PTFAULT, Blk.key (.ptab die) + Rg.hdr.EVPEND] s (lullRegs s die p) :=
  regsBut_trans (regsBut_mono (regsBut_pulse _ _ _) (by simp))
    (regsBut_trans (regsBut_mono (regsBut_setReg _ _ _) (by simp)) (regsBut_mono (regsBut_pulse _ _ _) (by simp)))

theorem getLsbD_setBit_true (v : W32) (p : BitVec 4) : (setBit v p.toNat true).getLsbD p.toNat = true := by
  have h : ∀ p : BitVec 4, (w32 (2 ^ p.toNat)).getLsbD p.toNat = true := by decide
  simp only [setBit, if_true, BitVec.getLsbD_or, h, Bool.or_true]

theorem regBit_lullRegs (s : State) (die : Nat) (p : BitVec 4) :
    regBit (lullRegs s die p) (Blk.key (.ptab die) + Rg.ptab.PTFAULT) p.toNat = true := by
  rw [lullRegs, regBit, reg_pulse, if_neg (by simp only [Rg.ptab.PTFAULT, Rg.hdr.EVPEND]; omega), reg_setRegBit, if_pos rfl]
  exact getLsbD_setBit_true _ _

/-- The network of a machine that has reported the lull. -/
def lullNet (s : State) (u : Fin 64) (c : UCmd) : Net :=
  { s.net with
    waits := s.net.waits ++ [waitId (semWait s u c)]
    lulls := tset [] s.net.lulls (u.val / 16) (tget [] s.net.lulls (u.val / 16) ++ [waitReport (semWait s u c)])
    events := s.net.events ++ [(tileOwner s u).toNat] }

theorem reg_net (s : State) (n : Net) (k : Nat) : reg { s with net := n } k = reg s k := rfl

theorem partFault_pulse {s : State} {n : Net} {die : Nat} {p : BitVec 4} (hd : tableDie die = die) :
    partFault (pulse { s with net := n } (Blk.key (.ptab die)) 2) die p =
      { lullRegs s die p with net := { n with events := n.events ++ [p.toNat] } } := by
  rw [partFault_eq hd, lullRegs]
  generalize Blk.key (.ptab die) = k
  rfl

theorem declare1_sem_room {s : State} {u : Fin 64} (c : UCmd) (hroom : (tget [] s.net.lulls (u.val / 16)).length < 8) :
    declare1 (semWait s u c) s = { lullRegs s (u.val / 16) (tileOwner s u) with net := lullNet s u c } := by
  rw [declare1_sem, lullReport_room (s := { s with net := { s.net with waits := s.net.waits ++ [waitId (semWait s u c)] } })
    (tableDie_tile u) hroom]
  exact partFault_pulse (tableDie_tile u)

theorem lullCheck_late {s : State} {u : Fin 64} {c : UCmd} (hw : allWaits s = [semWait s u c]) (hn : s.net.waits = [])
    (hroom : (tget [] s.net.lulls (u.val / 16)).length < 8)
    (hl : (tile s u).sync.since.toNat + lullLimit s (u.val / 16) (tileOwner s u) < now s) :
    ∃ t, exec .lullCheck s = .next t ∧
      tget [] t.net.lulls (u.val / 16) = tget [] s.net.lulls (u.val / 16) ++ [waitReport (semWait s u c)] ∧
      regBit t (Blk.key (.ptab (u.val / 16)) + Rg.ptab.PTFAULT) (tileOwner s u).toNat = true ∧
      t.net.events = s.net.events ++ [(tileOwner s u).toNat] ∧ t.net.waits.length = 1 ∧
      Keeps [.net] [Blk.key (.ptab (u.val / 16)) + Rg.ptab.PTFAULT] [(.ptab (u.val / 16), 0)] s t := by
  have hk : KeepsBut [.regs, .net] s { lullRegs s (u.val / 16) (tileOwner s u) with net := lullNet s u c } :=
    keepsBut_trans (keepsBut_mono (keepsBut_lullRegs _ _ _) (by simp)) (keepsBut_mono (keepsBut_net _ _) (by simp))
  have hf := (lullCheck_sem hw hn).trans ((if_pos hl).trans (declare1_sem_room c hroom))
  refine ⟨_, act_eq_of_keeps hf hk (by decide) (by decide), tget_tset_same [] _ _ _,
    ?_, rfl, ?_, hk, ?_⟩
  · rw [regBit, reg_net]
    exact regBit_lullRegs _ _ _
  · show (s.net.waits ++ [waitId (semWait s u c)]).length = 1
    rw [hn]
    rfl
  · intro k hk
    rw [reg_net]
    exact regsBut_lullRegs s (u.val / 16) (tileOwner s u) k hk

theorem lullCheck_early {s : State} {u : Fin 64} {c : UCmd} (hw : allWaits s = [semWait s u c]) (hn : s.net.waits = [])
    (hl : ¬ (tile s u).sync.since.toNat + lullLimit s (u.val / 16) (tileOwner s u) < now s) :
    ∃ t, exec .lullCheck s = .next t ∧ KeepsBut [] s t :=
  ⟨s, act_of_eq ((lullCheck_sem hw hn).trans (if_neg hl)), keepsBut_refl _ _⟩

theorem waitReport_sem (s : State) (u : Fin 64) (c : UCmd) : waitReport (semWait s u c) =
    ⟨w32 (2 + u.val % 16 * 2 ^ 8), w32 ((tileOwner s u).toNat + u.val * 2 ^ 8 + sCnt c.cmd * 2 ^ 16), c.cmd.w2,
      cntVal s u (sCnt c.cmd)⟩ := by
  have hword : Blk.code (.seq u) + Blk.inst (.seq u) * 2 ^ 8 + 0 * 2 ^ 16 + 0 * 2 ^ 28 = 2 + u.val % 16 * 2 ^ 8 := by
    rw [Nat.zero_mul, Nat.zero_mul]; rfl
  simp only [waitReport, semWait, hword]

theorem tablesMessagesAndLullReports : TablesMessagesAndLullReports := by
  refine ⟨fun who k w v s => ⟨fun hr => ⟨fun hen hp => ?_, fun hen hp hw hz => ?_, fun hen hw hz hcl => ?_⟩, fun hr hen => ?_⟩,
    wipedClearMessage_clears, eventMessage_drives,
    fun who die rtr v s => ⟨lrpop_pops v, prclr_clears⟩, ?_⟩
  · exact window_refused (pwctlWrite_PWCTL v hr) (winPut_enabled hen hp) |>.imp fun t ⟨h1, h2, _, h4⟩ => ⟨h1, h2, h4⟩
  · exact window_refused (pwctlWrite_PWCTL v hr) (winPut_unwiped hen hp hw hz)
  · exact pwctlWrite_taken hr (winPut_taken hen hw hz hcl)
  · exact pwctlWrite_base hr hen
  · intro u c s ht hx hg hck hch hn he hc hw ho hroom
    have hws := allWaits_sem ht hx hg hck hch hc hw ho he
    refine ⟨fun hl => ?_, lullCheck_early hws hn⟩
    have h := lullCheck_late hws hn hroom hl
    rw [waitReport_sem] at h
    exact h

end Sys2Proof.Machine
end

section
/-! SUPPORT. What the resets of blocks leave of the power manager's state, of the held packets, of its log and of the faults of
    partitions (R44, R506, R509). -/

open Sys2Proof.Says

namespace Sys2Proof.Machine

/-! ### Registers that are neither the manager's nor a partition table's -/

/-- The register of a die's partition faults. -/
def faultKey (d : Nat) : Nat := Blk.key (.ptab d) + Rg.ptab.PTFAULT

/-- A register that holds no partition fault. -/
def Quiet (k : Nat) : Prop := ∀ d, (Blk.ptab d).wf = true → k ≠ faultKey d

/-- A block that resets with its die or its domain. -/
def unitBlk : Blk → Bool
  | .probe _ _ | .ptab _ | .ptm => false
  | _ => true

theorem wf_of_unitBlk {b : Blk} (h : unitBlk b = true) : b.wf = true := by
  cases b with
  | probe d r => cases h
  | ptab d => cases h
  | _ => rfl

theorem faultKey_mod (d : Nat) : faultKey d % 0x1000 = 0x84 := by
  have := key_mod (.ptab d)
  simp only [faultKey, Rg.ptab.PTFAULT]
  omega

theorem blkOfKey_faultKey {d : Nat} (h : (Blk.ptab d).wf = true) : blkOfKey (faultKey d) = some (.ptab d, 0) :=
  blkOfKey_keyP_add (.ptab d) h (p := 0) (o := Rg.ptab.PTFAULT) (Blk_npages_pos _) (by decide)

theorem quiet_of_mod {k : Nat} (h : k % 0x1000 ≠ 0x84) : Quiet k := fun d _ he => h (he ▸ faultKey_mod d)

theorem quiet_of_blk {k p : Nat} {b : Blk} (h : blkOfKey k = some (b, p)) (hb : unitBlk b = true) : Quiet k := fun d hd he => by
  rw [he, blkOfKey_faultKey hd] at h
  obtain ⟨rfl, -⟩ := Prod.mk.inj (Option.some.inj h)
  cases hb

theorem quiet_page (b : Blk) (hb : unitBlk b = true) {p o : Nat} (hp : p < b.npages) (ho : o < 0x1000) : Quiet (b.keyP p + o) :=
  quiet_of_blk (blkOfKey_keyP_add b (wf_of_unitBlk hb) hp ho) hb

theorem quiet_key (b : Blk) (hb : unitBlk b = true) {o : Nat} (ho : o < 0x1000) : Quiet (b.key + o) :=
  quiet_page b hb (p := 0) (Blk_npages_pos b) ho

theorem quiet_add {k o : Nat} (h : k % 0x1000 = 0) (ho : o < 0x84) : Quiet (k + o) := quiet_of_mod (by omega)

theorem ne_ptmKey (b : Blk) (hb : unitBlk b = true) {p : Nat} (hp : p < b.npages) : b.keyP p ≠ ptmKey := fun he => by
  have h := blkOfKey_keyP_add b (wf_of_unitBlk hb) hp (o := 0) (by decide)
  rw [Nat.add_zero, he, show ptmKey = Blk.key .ptm from rfl, blkOfKey_key .ptm rfl] at h
  obtain ⟨rfl, -⟩ := Prod.mk.inj (Option.some.inj h)
  cases hb

theorem key_ne_ptmKey (b : Blk) (hb : unitBlk b = true) : b.key ≠ ptmKey := ne_ptmKey b hb (p := 0) (Blk_npages_pos b)

/-! ### Changes that leave them as they are -/

/-- The manager's state is as before but for the tiles that wait for a grant; no packet held for a domain has gone, no fault
    of a partition is cleared, and the manager has logged nothing. -/
structure Calm (s t : State) : Prop where
  kept : t.pending = s.pending ∧ t.fuses = s.fuses ∧ t.clock = s.clock
  power : t.power = { s.power with grantQ := t.power.grantQ }
  held : t.net.held = s.net.held
  fault : ∀ d i, (Blk.ptab d).wf = true → regBit s (faultKey d) i = true → regBit t (faultKey d) i = true
  log : logOf t ptmKey = logOf s ptmKey

theorem calm_refl (s : State) : Calm s s := ⟨⟨rfl, rfl, rfl⟩, rfl, rfl, fun _ _ _ h => h, rfl⟩

theorem calm_trans {s t u : State} (h1 : Calm s t) (h2 : Calm t u) : Calm s u where
  kept := by
    obtain ⟨a1, b1, c1⟩ := h1.kept
    obtain ⟨a2, b2, c2⟩ := h2.kept
    exact ⟨a2.trans a1, b2.trans b1, c2.trans c1⟩
  power := by rw [h2.power, h1.power]
  held := h2.held.trans h1.held
  fault := fun d i hd h => h2.fault d i hd (h1.fault d i hd h)
  log := h2.log.trans h1.log

theorem calm_foldl {α : Type} (f : State → α → State) (hf : ∀ s a, Calm s (f s a)) (l : List α) (s : State) :
    Calm s (l.foldl f s) :=
  List.foldlRecOn l f (calm_refl s) fun u hu a _ => calm_trans hu (hf u a)

/-- A change that leaves registers, logs, the manager's state and the held packets alone. -/
theorem calm_of_eq {s t : State} (hk : t.pending = s.pending ∧ t.fuses = s.fuses ∧ t.clock = s.clock) (hp : t.power = s.power)
    (hh : t.net.held = s.net.held) (hr : t.regs = s.regs) (hl : t.logs = s.logs) : Calm s t where
  kept := hk
  power := by rw [hp]
  held := hh
  fault := fun d i _ h => by rw [regBit, reg_congr hr hk.2.1]; exact h
  log := by rw [logOf, hl]; rfl

/-- A change of registers that hold no partition fault. -/
theorem calm_of_regs {s t : State} (h : KeepsBut [.regs] s t) (hq : ∀ d, (Blk.ptab d).wf = true → reg t (faultKey d) = reg s (faultKey d)) :
    Calm s t where
  kept := ⟨h.1, h.2 .fuses (by decide), h.2 .clock (by decide)⟩
  power := by rw [h.2 .power (by decide)]
  held := congrArg Net.held (h.2 .net (by decide))
  fault := fun d i hd hb => by rw [regBit, hq d hd]; exact hb
  log := by rw [logOf, h.2 .logs (by decide)]; rfl

theorem calm_net (s : State) (n : Net) (h : n.held = s.net.held) : Calm s { s with net := n } :=
  calm_of_eq ⟨rfl, rfl, rfl⟩ rfl h rfl rfl

theorem calm_setReg (s : State) {k : Nat} (v : W32) (h : Quiet k) : Calm s (setReg s k v) :=
  calm_of_regs (keepsBut_setReg s k v) fun d hd => reg_setReg_ne s v (h d hd).symm

theorem calm_bump (s : State) {k : Nat} (n : Nat) (h : Quiet k) : Calm s (bump s k n) := calm_setReg s _ h

theorem calm_setRegBit (s : State) {k : Nat} (n : Nat) (b : Bool) (h : Quiet k) : Calm s (setRegBit s k n b) := calm_setReg s _ h

theorem calm_pulse (s : State) {k : Nat} (n : Nat) (h : k % 0x1000 = 0) : Calm s (pulse s k n) :=
  calm_setReg s _ (quiet_add h (by decide))

theorem calm_dropRegs (s : State) {p : Nat → Bool} (h : ∀ k, p k = true → Quiet k) : Calm s (dropRegs s p) :=
  calm_of_regs (keepsBut_dropRegs s p) fun d hd => by
    refine (tgetD_tdrop _ p _ _).trans (if_neg fun hp => ?_)
    exact h _ hp d hd rfl

theorem calm_settled (ps : List (Blk × Nat)) (f : State → State) (s : State) : Calm (f s) (watched ps f s) :=
  calm_of_regs (keepsBut_watched ps f s) fun d _ => reg_watched_off ps f s (by rw [faultKey_mod]; decide)

theorem calm_watched {s : State} (ps : List (Blk × Nat)) {f : State → State} (h : Calm s (f s)) : Calm s (watched ps f s) :=
  calm_trans h (calm_settled ps f s)

theorem calm_logs (s : State) {k : Nat} (l : List LogEnt) (h : k ≠ ptmKey) : Calm s { s with logs := tset [] s.logs k l } where
  kept := ⟨rfl, rfl, rfl⟩
  power := rfl
  held := rfl
  fault := fun _ _ _ h => h
  log := tget_tset_ne _ _ _ h.symm

theorem calm_clearLog (s : State) {k : Nat} (h : k ≠ ptmKey) : Calm s (clearLog s k) := calm_logs s [] h

theorem calm_logE (s : State) {k : Nat} (a b c d : W32) (hk : k % 0x1000 = 0) (h : k ≠ ptmKey) : Calm s (logE s k a b c d) :=
  calm_trans (calm_logs s _ h) (calm_bump _ 1 (quiet_add (o := Rg.hdr.ERRCNT) hk (by decide)))

theorem calm_logKey (s : State) (x : Blk) (a b c d : W32) (hx : unitBlk x = true) : Calm s (logE s x.key a b c d) :=
  calm_logE s a b c d (key_mod x) (key_ne_ptmKey x hx)

theorem calm_setBlkSt (s : State) (b : Blk) (x : BlkSt) : Calm s (setBlkSt s b x) := calm_of_eq ⟨rfl, rfl, rfl⟩ rfl rfl rfl rfl
theorem calm_setRun (s : State) (b : Blk) (r : Run) : Calm s (setRun s b r) := calm_setBlkSt s b _
theorem calm_setUsed (s : State) (b : Blk) (u : Bool) : Calm s (setUsed s b u) := calm_setBlkSt s b _

theorem calm_updTile (s : State) (t : Fin 64) (f : Tile → Tile) : Calm s (updTile s t f) := calm_of_eq ⟨rfl, rfl, rfl⟩ rfl rfl rfl rfl
theorem calm_updCpuTile (s : State) (t : Fin 64) (f : Proc → Proc) : Calm s (updCpu s (.tile t) f) :=
  calm_of_eq ⟨rfl, rfl, rfl⟩ rfl rfl rfl rfl
theorem calm_updBank (s : State) (t : Fin 64) (g : Fin 4) (f : Bank → Bank) : Calm s (updBank s t g f) :=
  calm_of_eq ⟨rfl, rfl, rfl⟩ rfl rfl rfl rfl
theorem calm_updStack (s : State) (k : Fin 8) (f : Stack → Stack) : Calm s (updStack s k f) :=
  calm_of_eq ⟨rfl, rfl, rfl⟩ rfl rfl rfl rfl
theorem calm_updChan (s : State) (k : Fin 8) (c : Fin 32) (f : Chan → Chan) : Calm s (updChan s k c f) :=
  calm_of_eq ⟨rfl, rfl, rfl⟩ rfl rfl rfl rfl
theorem calm_updCtx (s : State) (k : Fin 8) (x : Fin 2048) (f : Ctx → Ctx) : Calm s (updCtx s k x f) :=
  calm_of_eq ⟨rfl, rfl, rfl⟩ rfl rfl rfl rfl
theorem calm_updEng (s : State) (k : Fin 8) (e : Fin 16) (f : Unit → Unit) : Calm s (updEng s k e f) :=
  calm_of_eq ⟨rfl, rfl, rfl⟩ rfl rfl rfl rfl
theorem calm_updRegion (s : State) (r : Fin 16) (f : Region → Region) : Calm s (updRegion s r f) :=
  calm_of_eq ⟨rfl, rfl, rfl⟩ rfl rfl rfl rfl
theorem calm_updPort (s : State) (p : Fin 96) (f : Port → Port) : Calm s (updPort s p f) :=
  calm_of_eq ⟨rfl, rfl, rfl⟩ rfl rfl rfl rfl
theorem calm_updCheck (s : State) (c : Ck) (f : Check → Check) : Calm s (updCheck s c f) :=
  calm_of_eq ⟨rfl, rfl, rfl⟩ rfl rfl rfl rfl

theorem calm_orphan (p : Src → Bool) (s : State) : Calm s (orphan p s) := calm_of_eq ⟨rfl, rfl, rfl⟩ rfl rfl rfl rfl

theorem calm_dropGrant (s : State) (t : Fin 64) : Calm s (dropGrant s t) := ⟨⟨rfl, rfl, rfl⟩, rfl, rfl, fun _ _ _ h => h, rfl⟩

theorem calm_recvLost (s : State) (t : Fin 64) : Calm s (recvLost s t) := by
  unfold recvLost
  split
  · exact calm_of_eq ⟨rfl, rfl, rfl⟩ rfl rfl rfl rfl
  · exact calm_refl s

theorem calm_sendResp (s : State) (src : Src) (r : Req) (d n : Nat) (c : BitVec 8) (l : List Byte) :
    Calm s (sendResp s src r d n c l) := by
  unfold sendResp
  dsimp only
  split
  · exact calm_refl s
  · exact calm_net s _ rfl

theorem calm_respErr (s : State) (d : Nat) (r : BitVec 8) : Calm s (respErr s d r) := by
  unfold respErr
  split
  · exact calm_refl s
  · rename_i h
    refine calm_bump s 1 (quiet_of_mod ?_)
    have := key_mod (.ptab (tableDie d))
    simp only [Rg.ptab.RSPERR]
    omega

theorem calm_draw (s : State) : Calm s (draw s).2 := calm_of_eq ⟨rfl, rfl, rfl⟩ rfl rfl rfl rfl

theorem unitBlk_of_inBlk {b : Blk} (hb : unitBlk b = true) {k : Nat} (h : inBlk b k = true) : Quiet k := by
  simp only [inBlk, decide_eq_true_eq] at h
  have hk : k = b.keyP ((k - b.key) / 0x1000) + (k - b.key) % 0x1000 := by
    simp only [Blk.key, Blk.keyP, pageKey] at h ⊢
    omega
  rw [hk]
  exact quiet_page b hb (Nat.div_lt_of_lt_mul (by omega)) (Nat.mod_lt _ (by decide))

theorem calm_dropBlk (s : State) {b : Blk} (hb : unitBlk b = true) : Calm s (dropBlk s b) :=
  calm_dropRegs s fun _ h => unitBlk_of_inBlk hb (Bool.and_eq_true_iff.mp h).1

theorem calm_dropCounts (s : State) {b : Blk} (hb : unitBlk b = true) : Calm s (dropCounts s b) :=
  calm_dropRegs s fun _ h => unitBlk_of_inBlk hb (Bool.and_eq_true_iff.mp h).1

theorem calm_clearLogs (s : State) {b : Blk} (hb : unitBlk b = true) : Calm s (clearLogs s b) := by
  refine List.foldlRecOn _ clearLog (calm_refl s) fun u hu k hk => calm_trans hu (calm_clearLog u ?_)
  obtain ⟨p, hp, rfl⟩ := List.mem_map.mp hk
  exact ne_ptmKey b hb (List.mem_range.mp hp)

end Sys2Proof.Machine
end

section
/-! SUPPORT. The resets of tiles, groups, ports, engines, check channels and regions leave the power manager's state, the held
    packets, the manager's log and the faults of partitions (R504, R506, R509). -/

open Sys2Proof.Says

namespace Sys2Proof.Machine

/-! ### Tiles and bank groups -/

theorem unitBlk_tileBlks (t : Fin 64) : ∀ b ∈ tileBlks t, unitBlk b = true := by
  intro b hb
  simp only [tileBlks, List.mem_cons, List.not_mem_nil, or_false] at hb
  rcases hb with rfl | rfl | rfl | rfl <;> rfl

theorem calm_tileFresh (zero : Bool) (t : Fin 64) (s : State) : Calm s (tileFresh zero t s) := by
  have hlost := calm_trans (calm_orphan (isCpu (.tile t)) s) (calm_trans (calm_dropGrant _ t) (calm_recvLost _ t))
  refine calm_trans ?_ (calm_dropCounts _ (b := .row t) rfl)
  refine List.foldlRecOn _ _ (calm_trans hlost (calm_updTile _ t _)) fun u hu b hb => calm_trans hu ?_
  exact calm_trans (calm_dropBlk u (unitBlk_tileBlks t b hb)) (calm_trans (calm_setRun _ b _) (calm_setUsed _ b _))

theorem quiet_SWEEPPROG (t : Fin 64) (g : Fin 4) : Quiet (Blk.key (.bank t g) + Rg.bank.SWEEPPROG) := quiet_key (.bank t g) rfl (by decide)

theorem calm_sweepLook (t : Fin 64) (g : Fin 4) (s : State) : Calm s (sweepLook t g s) := by
  unfold sweepLook
  split
  · exact calm_trans (calm_setReg s _ (quiet_SWEEPPROG t g)) (calm_of_eq ⟨rfl, rfl, rfl⟩ rfl rfl rfl rfl)
  · exact calm_refl s

theorem calm_zeroRows (s : State) (t : Fin 64) (g : Fin 4) (n : Nat) : Calm s (zeroRows s t g n) :=
  calm_of_eq ⟨rfl, rfl, rfl⟩ rfl rfl rfl rfl

theorem calm_sweepCut (t : Fin 64) (g : Fin 4) (s : State) : Calm s (sweepCut t g s) := by
  unfold sweepCut
  split
  · exact calm_refl s
  · exact calm_trans (calm_sweepLook t g s) (calm_trans (calm_zeroRows _ t g _) (calm_updBank _ t g _))

theorem quiet_eq {k i : Nat} (hk : Quiet k) (h : (i == k) = true) : Quiet i := by rw [eq_of_beq h]; exact hk

theorem calm_groupReset (t : Fin 64) (g : Fin 4) (s : State) : Calm s (groupReset t g s) := by
  refine calm_trans ?_ (calm_setRun _ _ _)
  refine calm_trans ?_ (calm_dropRegs _ fun k hk => quiet_eq (quiet_key (.bank t g) rfl (o := Rg.bank.BGCTL) (by decide)) hk)
  refine calm_trans ?_ (calm_clearLogs _ (b := .bank t g) rfl)
  exact calm_trans (calm_sweepCut t g s) (calm_trans (calm_updBank _ t g _) (calm_dropCounts _ (b := .bank t g) rfl))

theorem calm_groupFresh (t : Fin 64) (g : Fin 4) (s : State) : Calm s (groupFresh t g s) := by
  refine calm_trans ?_ (calm_setReg _ _ (quiet_SWEEPPROG t g))
  refine calm_trans ?_ (calm_setRun _ _ _)
  exact calm_trans (calm_sweepCut t g s) (calm_trans (calm_dropBlk _ (b := .bank t g) rfl) (calm_updBank _ t g _))

/-! ### Ports -/

theorem quiet_port (p : Fin 96) {o : Nat} (ho : o < 0x1000) : Quiet (ptKey p + o) := quiet_key (.port p) rfl ho

theorem calm_portLog (s : State) (p : Fin 96) (code rate cause w1 a : Nat) (r : BitVec 8) :
    Calm s (portLog s p code rate cause w1 a r) := calm_logKey s (.port p) _ _ _ _ rfl

theorem calm_pulsePort (s : State) (p : Fin 96) (n : Nat) : Calm s (pulse s (ptKey p) n) := calm_pulse s n (key_mod (.port p))

theorem calm_endPause (p : Fin 96) (s : State) : Calm s (endPause p s) := by
  unfold endPause
  split
  · exact calm_refl s
  · exact calm_trans (calm_updPort s p _) (calm_bump _ _ (quiet_port p (o := Rg.port.PAUSENS) (by decide)))

theorem calm_answerSrc (s : State) (src : Src) (r : BitVec 8) (d : List Byte) : Calm s (answerSrc s src r d) := by
  unfold answerSrc
  split
  · unfold portBack
    exact calm_updCtx s _ _ _
  · exact calm_refl s

theorem calm_abandon (p : Fin 96) (t : Nat) (s : State) : Calm s (abandon p t s) := by
  unfold abandon
  dsimp only
  split
  · exact calm_refl s
  · refine calm_trans ?_ (calm_pulsePort _ p _)
    refine calm_trans ?_ (calm_answerSrc _ _ _ _)
    exact calm_trans (calm_updPort s p _) (calm_trans (calm_portLog _ p _ _ _ _ _ _) (calm_bump _ _ (quiet_port p (o := Rg.port.ABANDON) (by decide))))

theorem calm_linkDown (p : Fin 96) (s : State) : Calm s (linkDown p s) := by
  unfold linkDown
  dsimp only
  split
  · exact calm_refl s
  · refine calm_trans ?_ (calm_pulsePort _ p _)
    refine calm_trans ?_ (calm_portLog _ p _ _ _ _ _ _)
    refine calm_trans ?_ (calm_updPort _ p _)
    exact calm_trans (calm_endPause p s) (calm_foldl _ (fun u _ => calm_abandon p _ u) _ _)

theorem calm_portFresh (p : Fin 96) (s : State) : Calm s (portFresh p s) := by
  refine calm_trans ?_ (calm_trans (calm_setRun _ (.port p) _) (calm_trans (calm_setUsed _ (.port p) _) (calm_setRun _ (.lanes p) _)))
  refine calm_trans ?_ (calm_trans (calm_dropBlk _ (b := .port p) rfl) (calm_dropBlk _ (b := .lanes p) rfl))
  exact calm_trans (calm_orphan _ s) (calm_trans (calm_linkDown p _) (calm_updPort _ p _))

/-! ### Engines, page-valid managers and check channels -/

theorem quiet_of_page {b : Blk} (hb : unitBlk b = true) {k : Nat} (h1 : b.key ≤ k) (h2 : k < b.key + 0x1000 * b.npages) : Quiet k :=
  unitBlk_of_inBlk hb (decide_eq_true ⟨h1, h2⟩)

theorem calm_engReset (k : Fin 8) (e : Fin 16) (s : State) : Calm s (engReset k e s) := by
  refine calm_trans ?_ (calm_trans (calm_setRun _ (.nve k e) _) (calm_setUsed _ (.nve k e) _))
  refine calm_trans ?_ (calm_dropRegs _ fun r hr => ?_)
  · exact calm_updEng s k e _
  obtain ⟨hlo, hhi⟩ := of_decide_eq_true hr
  exact quiet_of_page (b := .nve k e) rfl (Nat.le_trans (Nat.le_add_right _ _) hlo) hhi

theorem calm_pvmReset (k : Fin 8) (s : State) : Calm s (pvmReset k s) := by
  refine calm_trans ?_ (calm_dropRegs _ fun i hi => quiet_eq (quiet_key (.pvm k) rfl (o := Rg.pvm.SCRBCTL) (by decide)) hi)
  exact calm_trans (calm_dropCounts s (b := .pvm k) rfl) (calm_clearLogs _ (b := .pvm k) rfl)

theorem unitBlk_ck (c : Ck) : unitBlk c.blk = true := by cases c <;> rfl

theorem calm_ckReset (c : Ck) (s : State) : Calm s (ckReset c s) := by
  refine calm_trans ?_ (calm_trans (calm_clearLog _ (key_ne_ptmKey _ (unitBlk_ck c))) (calm_setRun _ _ _))
  refine calm_trans (calm_updCheck s c _) (calm_dropRegs _ fun i hi => ?_)
  simp only [Bool.and_eq_true, decide_eq_true_eq] at hi
  refine quiet_of_page (unitBlk_ck c) hi.1.1 ?_
  cases c <;> exact hi.1.2

/-! ### Epochs -/

theorem unitBlk_mode (u : ModeUnit) : unitBlk u.blk = true := by cases u <;> rfl

theorem calm_epochDone (s : State) : Calm s (epochDone s) := by
  unfold epochDone
  split
  · refine calm_trans ?_ (calm_pulse _ 1 (key_mod .ocast))
    have hq : Quiet (Blk.key .ocast + Rg.ocast.EPAPPLIED) := quiet_key .ocast rfl (by decide)
    exact calm_trans (calm_setReg s (ocReg s Rg.ocast.EPVAL &&& 0x1FF) hq) (calm_of_eq ⟨rfl, rfl, rfl⟩ rfl rfl rfl rfl)
  · exact calm_refl s

theorem calm_epochReport (u : ModeUnit) (s : State) : Calm s (epochReport u s) :=
  calm_trans (t := { s with ocast := { s.ocast with epUnits := s.ocast.epUnits.filter (· != u) } })
    (calm_of_eq ⟨rfl, rfl, rfl⟩ rfl rfl rfl rfl) (calm_epochDone _)

theorem calm_setCompat (s : State) (u : ModeUnit) (c : Bool) : Calm s (setCompat s u c) := by
  cases u with
  | _ => exact calm_of_eq ⟨rfl, rfl, rfl⟩ rfl rfl rfl rfl

theorem calm_applyEpoch (u : ModeUnit) (e : BitVec 8) (c : Bool) (s : State) : Calm s (applyEpoch u e c s) :=
  calm_trans (calm_setReg s _ (quiet_key u.blk (unitBlk_mode u) (o := Rg.hdr.BLKCTL) (by decide))) (calm_trans (calm_setBlkSt _ _ _) (calm_setCompat _ u c))

theorem calm_epochFresh (u : ModeUnit) (s : State) : Calm s (epochFresh u s) :=
  calm_trans (calm_applyEpoch u _ _ s) (calm_epochReport u _)

end Sys2Proof.Machine
end

section
/-! SUPPORT. The resets of Sequent engines and of fabric regions leave the power manager's state, the held packets, the manager's
    log and the faults of partitions (R283, R313, R349, R504, R509). -/

open Sys2Proof.Says

namespace Sys2Proof.Machine

/-! ### Contexts -/

theorem quiet_seng (k : Fin 8) {o : Nat} (ho : o < 0x1000) : Quiet (sengKey k + o) := quiet_key (.seng k) rfl ho

theorem ctxPage_lt (k : Fin 8) (x : Fin 2048) : x.val / 32 < (Blk.seng k).npages := by
  simp only [Blk.npages]
  omega

theorem quiet_ctx (k : Fin 8) (x : Fin 2048) {o : Nat} (ho : o < 0x60) : Quiet (ctxKey k x + o) := by
  rw [ctxKey, Nat.add_assoc, Nat.add_assoc]
  exact quiet_page (.seng k) rfl (ctxPage_lt k x) (by omega)

theorem calm_sengLog (s : State) (k : Fin 8) (x : Fin 2048) (code d a : Nat) (side : Side) (r : BitVec 8) :
    Calm s (sengLog s k x code d a side r) := calm_logKey s (.seng k) _ _ _ _ rfl

theorem calm_setCtx (s : State) (k : Fin 8) (x : Fin 2048) (c : Ctx) : Calm s (setCtx s k x c) :=
  calm_of_eq ⟨rfl, rfl, rfl⟩ rfl rfl rfl rfl

theorem calm_ctxFail (s : State) (k : Fin 8) (x : Fin 2048) (n code d a : Nat) (side : Side) (r : BitVec 8) :
    Calm s (ctxFail s k x n code d a side r) := by
  refine calm_trans ?_ (calm_setReg _ _ (quiet_ctx k x (o := Rg.ctx.CTXERR) (by decide)))
  exact calm_trans (calm_sengLog s k x _ _ _ _ _) (calm_setCtx _ k x _)

theorem calm_ctxStart (k : Fin 8) (x : Fin 2048) (s : State) : Calm s (ctxStart k x s) := by
  unfold ctxStart
  dsimp only
  split
  · exact calm_sengLog s k x _ _ _ _ _
  · split
    · refine calm_trans ?_ (calm_pulse _ 5 (key_mod (.seng k)))
      exact calm_trans (calm_sengLog s k x _ _ _ _ _) (calm_bump _ 1 (quiet_seng k (o := Rg.seng.REFUSECNT) (by decide)))
    · exact calm_trans (calm_setCtx s k x _) (calm_bump _ 1 (quiet_seng k (o := Rg.seng.ADMITCNT) (by decide)))

theorem calm_ctxTotals (k : Fin 8) (x : Fin 2048) (s : State) : Calm s (ctxTotals k x s) := by
  unfold ctxTotals
  dsimp only
  split
  · exact calm_refl s
  · split
    · exact calm_ctxFail s k x _ _ _ _ _ _
    · split
      · exact calm_ctxFail s k x _ _ _ _ _ _
      · exact calm_refl s

theorem calm_waitReg (s : State) {key : Option Nat} (on : Bool) (t : Option (BitVec 64)) (h : ∀ k ∈ key, Quiet k) :
    Calm s (waitReg s key on t).2 := by
  unfold waitReg
  split
  · exact calm_refl s
  · dsimp only
    split
    · exact calm_bump s _ (h _ rfl)
    · exact calm_refl s
  · exact calm_refl s

theorem calm_waitEnded {s u : State} {key : Option Nat} {on : Bool} {t b : Option (BitVec 64)} (h : ∀ k ∈ key, Quiet k)
    (e : waitReg s key on t = (b, u)) : Calm s u := by
  have hw := calm_waitReg s on t h
  rw [e] at hw
  exact hw

/-- A wait that ends, unless the cursor still waits. -/
theorem calm_waitUnless {s u : State} {key : Option Nat} {on : Bool} {t x b : Option (BitVec 64)} {p : Prop} [Decidable p]
    (h : ∀ k ∈ key, Quiet k) (e : (if p then (x, s) else waitReg s key on t) = (b, u)) : Calm s u := by
  split at e
  · obtain ⟨-, rfl⟩ := Prod.mk.inj e
    exact calm_refl s
  · exact calm_waitEnded h e

theorem calm_ctxWaits (k : Fin 8) (x : Fin 2048) (s : State) : Calm s (ctxWaits k x s) := by
  have hbuf : ∀ i ∈ some (ctxKey k x + Rg.ctx.CTXBUFNS), Quiet i := fun i hi => by
    obtain rfl := Option.some.inj hi
    exact quiet_ctx k x (by decide)
  have hdep : ∀ i ∈ some (ctxKey k x + Rg.ctx.CTXDEPNS), Quiet i := fun i hi => by
    obtain rfl := Option.some.inj hi
    exact quiet_ctx k x (by decide)
  have hnone : ∀ i ∈ (none : Option Nat), Quiet i := fun i hi => by cases hi
  unfold ctxWaits
  extract_lets c key
  split
  rename_i b1 s1 e1
  have h1 : Calm s s1 := calm_waitEnded hbuf e1
  split
  rename_i b2 s2 e2
  have h2 : Calm s s2 := calm_trans h1 (calm_waitEnded hnone e2)
  split
  rename_i b3 s3 e3
  have h3 : Calm s s3 := calm_trans h2 (calm_waitUnless hdep e3)
  split
  rename_i b4 s4 e4
  exact calm_trans h3 (calm_trans (calm_waitUnless hdep e4) (calm_updCtx s4 k x _))

theorem calm_sengSettle (k : Fin 8) (s : State) : Calm s (sengSettle k s) := by
  unfold sengSettle
  split
  · exact calm_setRun s _ _
  · exact calm_refl s

theorem calm_pageBit (s : State) (k : Fin 8) (x : Fin 2048) {off : Nat} (src : Nat) (h : off < 0x1000) :
    Calm s (pageBit s k x off src) := by
  refine calm_trans ?_ (calm_pulse _ src (keyP_mod (.seng k) _))
  exact calm_setRegBit s _ true (quiet_page (.seng k) rfl (ctxPage_lt k x) h)

theorem calm_wmSticky (b : State) (k : Fin 8) (x : Fin 2048) (s : State) : Calm s (wmSticky b k x s) := by
  unfold wmSticky
  extract_lets u
  have h : Calm s u := by
    unfold u
    split
    · exact calm_pageBit s k x 2 (by decide)
    · exact calm_refl s
  split
  · exact calm_trans h (calm_setRegBit _ 1 true (quiet_seng k (o := Rg.seng.POOLWMST) (by decide)))
  · exact h

theorem calm_ctxDo (k : Fin 8) (x : Fin 2048) {f : State → State} {s : State} (h : Calm s (f s)) : Calm s (ctxDo k x f s) := by
  refine calm_watched _ (calm_trans ?_ (calm_wmSticky s k x _))
  exact calm_trans h (calm_trans (calm_ctxTotals k x _) (calm_trans (calm_ctxWaits k x _) (calm_sengSettle k _)))

theorem calm_sstartDo (k : Fin 8) (x : Fin 2048) (c : Cmd) (s : State) : Calm s (sstartDo k x c s) := by
  refine calm_trans ?_ (calm_ctxStart k x _)
  split
  · refine calm_trans ?_ (calm_setReg _ _ (quiet_ctx k x (o := Rg.ctx.CTXLISTH) (by decide)))
    exact calm_setReg s _ (quiet_ctx k x (o := Rg.ctx.CTXLIST) (by decide))
  · exact calm_trans (calm_sengLog s k x _ _ _ _ _) (calm_sengLog _ k x _ _ _ _ _)

/-! ### The stream units of tiles, woken -/

theorem calm_doneCmd (s : State) (t : Fin 64) (c : Cmd) (n : Nat) : Calm s (doneCmd s t c n) := by
  unfold doneCmd
  dsimp only
  split
  · exact calm_trans (calm_updCpuTile s t _) (calm_updCpuTile _ t _)
  · exact calm_updCpuTile s t _

theorem calm_strDone (t : Fin 64) (c : UCmd) (s : State) : Calm s (strDone t c s) :=
  calm_trans (calm_updTile s t _) (calm_doneCmd _ t _ _)

theorem calm_strWork (t : Fin 64) (s : State) : Calm s (strWork t s) := by
  unfold strWork
  split
  · exact calm_refl s
  · split
    rename_i k x _
    split
    · exact calm_trans (calm_ctxDo k x (calm_sstartDo k x _ s)) (calm_strDone t _ _)
    · split
      · exact calm_strDone t _ s
      · extract_lets u
        have hu : Calm s u := by
          unfold u
          split
          · exact calm_refl s
          · exact calm_ctxDo k x (calm_updCtx s k x _)
        split
        · exact calm_trans hu (calm_strDone t _ u)
        · exact calm_trans hu (calm_updTile u t _)

theorem calm_strNext (t : Fin 64) (n : Nat) (s : State) : Calm s (strNext t n s) := by
  induction n generalizing s with
  | zero => exact calm_refl s
  | succ n ih =>
    rw [strNext]
    dsimp only
    split
    · exact calm_refl s
    · split
      · exact calm_refl s
      · exact calm_trans (calm_updTile s t _) (calm_trans (calm_strWork t _) (ih _))

theorem calm_stopIf (s : State) (b : Blk) (p : Prop) [Decidable p] : Calm s (if p then setRun s b .stopped else s) := by
  split
  · exact calm_setRun s b _
  · exact calm_refl s

theorem calm_tileSettle (t : Fin 64) (s : State) : Calm s (tileSettle t s) :=
  calm_trans (calm_stopIf s _ _) (calm_trans (calm_stopIf _ _ _) (calm_stopIf _ _ _))

theorem calm_strWakes (which : Fin 8 × Fin 2048 → Bool) (s : State) : Calm s (strWakes which s) := by
  refine calm_foldl _ (fun u i => ?_) _ s
  dsimp only
  split
  · split
    · exact calm_watched _ (calm_trans (calm_strWork _ u) (calm_trans (calm_strNext _ 4 _) (calm_tileSettle _ _)))
    · exact calm_refl u
  · exact calm_refl u

theorem calm_sengFresh (k : Fin 8) (s : State) : Calm s (sengFresh k s) := by
  refine calm_trans ?_ (calm_setRun _ (.seng k) _)
  refine calm_trans ?_ (calm_dropRegs _ fun r hr => ?_)
  · exact calm_trans (t := { s with ctxs := tdrop (fun i => i / 2048 == k.val) s.ctxs }) (calm_of_eq ⟨rfl, rfl, rfl⟩ rfl rfl rfl rfl)
      (calm_updStack _ k _)
  · obtain ⟨hlo, hhi, -⟩ := of_decide_eq_true hr
    exact quiet_of_page (b := .seng k) rfl hlo hhi

theorem calm_sengReset (k : Fin 8) (s : State) : Calm s (sengReset k s) := calm_trans (calm_sengFresh k s) (calm_strWakes _ _)

theorem calm_sectionFresh (k : Fin 8) (s : State) : Calm s (sectionFresh k s) := by
  refine calm_trans ?_ (calm_foldl _ (fun u c => ?_) _ _)
  · refine calm_trans (calm_trans (calm_orphan _ s) (calm_sengReset k _)) (calm_foldl _ (fun u e => calm_engReset k _ u) _ _)
  · refine calm_trans ?_ (calm_setRun _ (.check k (fin 8 c)) _)
    exact calm_trans (calm_updCheck u _ _) (calm_dropBlk _ (b := .check k (fin 8 c)) rfl)

/-! ### Regions -/

theorem calm_leaveLap (r : Fin 16) (s : State) : Calm s (leaveLap r s) := by
  unfold leaveLap
  split
  · exact calm_of_eq ⟨rfl, rfl, rfl⟩ rfl rfl rfl rfl
  · exact calm_refl s

theorem calm_winAbort (r : Fin 16) (s : State) : Calm s (winAbort r s) := by
  refine calm_trans (calm_updRegion s r _) (calm_foldl _ (fun u w => ?_) _ _)
  split
  · exact calm_refl u
  · exact calm_trans (calm_respErr u _ _) (calm_sendResp _ _ _ _ _ _ _)

theorem calm_dropBoundary (r : Fin 16) (s : State) : Calm s (dropBoundary r s) :=
  calm_foldl _ (fun u t => calm_updTile u t _) _ s

theorem calm_dropInits (r : Fin 16) (s : State) : Calm s (dropInits r s) := calm_trans (calm_orphan _ s) (calm_updRegion _ r _)

theorem calm_assertReset (r : Fin 16) (s : State) : Calm s (assertReset r s) := calm_trans (calm_draw s) (calm_updRegion _ r _)

theorem routes_lt {s : State} {e : Nat × Nat × Nat × Nat} (h : e ∈ routes s) : e.2.1 < 64 := by
  simp only [routes, List.mem_flatMap, List.mem_filterMap, List.mem_range] at h
  obtain ⟨_, -, j, hj, he⟩ := h
  split at he
  · rw [← Option.some.inj he]; exact hj
  · cases he

theorem calm_endRoutes (r : Fin 16) (s : State) : Calm s (endRoutes r s) := by
  refine List.foldlRecOn _ _ (calm_refl s) fun u hu e he => ?_
  split
  · refine calm_trans hu (calm_setRegBit u 31 false ?_)
    rw [Nat.add_assoc]
    have := routes_lt he
    exact quiet_key (.region _) rfl (by simp only [Rg.region.PRBSEL]; omega)
  · exact hu

theorem calm_dropCounters (r : Fin 16) (s : State) : Calm s (dropCounters r s) := by
  refine calm_trans (calm_endRoutes r s) (calm_dropRegs _ fun x hx => ?_)
  have hin : Blk.key (.region r) ≤ x ∧ x < Blk.key (.region r) + 0x1000 := by
    rcases Bool.or_eq_true_iff.mp hx with h | h
    · obtain ⟨hlo, hhi⟩ := of_decide_eq_true h
      simp only [frKey] at hlo hhi
      omega
    · obtain ⟨hlo, hhi⟩ := of_decide_eq_true h
      simp only [frKey] at hlo hhi
      omega
  exact quiet_of_page (b := .region r) rfl hin.1 hin.2

theorem calm_beginStart (r : Fin 16) (s : State) : Calm s (beginStart r s) := calm_updRegion s r _

theorem calm_regionReset (r : Fin 16) (s : State) : Calm s (regionReset r s) := by
  unfold regionReset
  split
  · exact calm_bump s 1 (quiet_key (.region r) rfl (by decide))
  · have hdrop := calm_trans (calm_leaveLap r s) (calm_trans (calm_winAbort r _) (calm_trans (calm_dropBoundary r _) (calm_dropInits r _)))
    extract_lets dropped held cleared counted idle
    have hcleared : Calm s cleared := calm_trans hdrop (calm_trans (calm_assertReset r dropped) (calm_updRegion held r _))
    have hidle : Calm s idle :=
      calm_trans hcleared (calm_trans (calm_dropCounters r cleared) (calm_trans (calm_setRun _ _ _) (calm_setUsed _ _ _)))
    split
    · exact calm_trans hidle (calm_beginStart r idle)
    · exact hidle

theorem calm_ldrLog (s : State) (code n : Nat) (a : W32) (r : BitVec 8) : Calm s (ldrLog s code n a r) :=
  calm_logKey s .loader _ _ _ _ rfl

theorem calm_dropLoad (s : State) : Calm s (dropLoad s) := calm_foldl _ (fun u r => calm_updRegion u r _) _ s

theorem calm_loadLost (r : Fin 16) (s : State) : Calm s (loadLost r s) := by
  unfold loadLost
  split
  · refine calm_trans (calm_trans (calm_ldrLog s 0x0E r.val 0 0) (calm_dropLoad _)) ?_
    exact calm_of_eq ⟨rfl, rfl, rfl⟩ rfl rfl rfl rfl
  · exact calm_refl s

theorem calm_regionFresh (r : Fin 16) (s : State) : Calm s (regionFresh r s) := by
  have hlost := calm_trans (calm_leaveLap r s) (calm_trans (calm_endRoutes r _) (calm_trans (calm_loadLost r _) (calm_winAbort r _)))
  have hreg : Quiet (ldrKey + Rg.ccfg.RGSTAT + 0x20 * r.val) := by
    rw [Nat.add_assoc]
    exact quiet_key .loader rfl (by simp only [Rg.ccfg.RGSTAT]; omega)
  unfold regionFresh
  dsimp only
  refine calm_trans ?_ (calm_trans (calm_setRun _ (.region r) _) (calm_setUsed _ (.region r) _))
  refine calm_trans ?_ (calm_dropBlk _ (b := .region r) rfl)
  refine calm_trans ?_ (calm_updRegion _ r _)
  refine calm_trans ?_ (calm_dropInits r _)
  refine calm_trans ?_ (calm_setRegBit _ 0 false hreg)
  exact calm_trans hlost (calm_dropBoundary r _)

/-! ### Domains -/

theorem calm_domainFresh (d : Nat) (s : State) : Calm s (domainFresh d s) := by
  unfold domainFresh
  split
  · exact calm_tileFresh false _ s
  · split
    · exact calm_sectionFresh _ s
    · split
      · exact calm_regionFresh _ s
      · split
        · exact calm_foldl _ (fun u i => calm_portFresh _ u) _ s
        · exact calm_foldl _ (fun u i => calm_groupFresh _ _ u) _ s

end Sys2Proof.Machine
end

section
/-! SUPPORT. Domains woken, fenced and given up (R44, R419, R421, R509, R510). -/

open Sys2Proof.Says

namespace Sys2Proof.Machine

/-! ### Sets of domains -/

theorem getLsbD_domBit (d i : Nat) (hd : d < 95) : (BitVec.ofNat 95 (2 ^ d)).getLsbD i = decide (i = d) := by
  rw [BitVec.getLsbD_ofNat, Nat.testBit_two_pow]
  by_cases h : i = d
  · simp [h, hd]
  · simp [h, Ne.symm h]

theorem getLsbD_putBit_same (v : BitVec 95) {d : Nat} (hd : d < 95) : (putBit v d).getLsbD d = true := by
  rw [putBit, BitVec.getLsbD_or, getLsbD_domBit d d hd]
  simp

theorem getLsbD_clrBit_same (v : BitVec 95) {d : Nat} (hd : d < 95) : (clrBit v d).getLsbD d = false := by
  rw [clrBit, BitVec.getLsbD_and, BitVec.getLsbD_not, getLsbD_domBit d d hd]
  simp

/-! ### Commands of the power manager -/

/-- A change that leaves the queue of commands, the fuses and the time alone is the command's whole effect. -/
theorem act_of_kept {f : State → State} {s : State}
    (hk : (f s).pending = s.pending ∧ (f s).fuses = s.fuses ∧ (f s).clock = s.clock) : act f s = .next (f s) := by
  obtain ⟨hp, hf, hc⟩ := hk
  rw [act_next]
  unfold actTo
  rw [← hp, ← hf, ← hc]

theorem kept_watched (ps : List (Blk × Nat)) {f : State → State} {s : State}
    (hk : (f s).pending = s.pending ∧ (f s).fuses = s.fuses ∧ (f s).clock = s.clock) :
    (watched ps f s).pending = s.pending ∧ (watched ps f s).fuses = s.fuses ∧ (watched ps f s).clock = s.clock := by
  obtain ⟨hp, hf, hc⟩ := hk
  obtain ⟨kp, kf, kc⟩ := (calm_settled ps f s).kept
  exact ⟨kp.trans hp, kf.trans hf, kc.trans hc⟩

theorem exec_ptmDo {c : Instr} {f : State → State} {s : State} (hc : exec c s = act (ptmDo f) s)
    (hk : (f s).pending = s.pending ∧ (f s).fuses = s.fuses ∧ (f s).clock = s.clock) : exec c s = .next (ptmDo f s) :=
  hc.trans (act_of_kept (kept_watched [(.ptm, 0)] hk))

theorem keepsBut_ptmDo (f : State → State) (s : State) : KeepsBut [.regs] (f s) (ptmDo f s) := keepsBut_watched _ f s

theorem power_ptmDo (f : State → State) (s : State) : (ptmDo f s).power = (f s).power := (keepsBut_ptmDo f s).2 .power (by decide)
theorem net_ptmDo (f : State → State) (s : State) : (ptmDo f s).net = (f s).net := (keepsBut_ptmDo f s).2 .net (by decide)

/-- A power request has ended with a result (R510). -/
def PdEnds (r : Nat) (t : State) : Prop :=
  reg t (ptmKey + Rg.ptm.PDREQSTAT) = w32 (2 * r) ∧ regBit t (ptmKey + Rg.hdr.EVPEND) 0 = true ∧ t.power.pd = none

theorem ptmKey_mod : ptmKey % 0x1000 = 0 := key_mod .ptm

theorem pdEnds_pdDone (r : Nat) (s : State) : PdEnds r (pdDone r s) := by
  have hne : ptmKey + Rg.ptm.PDREQSTAT ≠ ptmKey + Rg.hdr.EVPEND := by simp only [Rg.ptm.PDREQSTAT, Rg.hdr.EVPEND]; omega
  refine ⟨?_, ?_, rfl⟩
  · rw [pdDone, reg_pulse, if_neg hne, reg_setReg_same]
  · rw [pdDone, regBit, reg_pulse, if_pos rfl]
    simp [setBit, w32]

/-- Latching events leaves a request ended. -/
theorem pdEnds_watched {r : Nat} (ps : List (Blk × Nat)) {f : State → State} {s : State} (h : PdEnds r (f s)) :
    PdEnds r (watched ps f s) := by
  obtain ⟨hr, hb, hp⟩ := h
  refine ⟨?_, regBit_settle _ _ hb, (congrArg Power.pd ((keepsBut_watched ps f s).2 .power (by decide))).trans hp⟩
  rw [← hr]
  exact reg_watched_off _ _ _ (by rw [Nat.add_mod, ptmKey_mod]; decide)

/-! ### A domain comes on -/

/-- The manager's state as a domain comes on. -/
def onPower (d : Nat) (w : Power) : Power :=
  { w with on := putBit w.on d, sleep := clrBit w.sleep d, fenced := clrBit w.fenced d, waking := clrBit w.waking d }

theorem calm_domainOn (d : Nat) (s : State) : Calm { s with power := onPower d s.power } (domainOn d s) := by
  unfold domainOn
  refine calm_trans ?_ (calm_settled _ _ _)
  dsimp only
  refine calm_trans ?_ (calm_foldl _ (fun u x => calm_epochFresh x u) _ _)
  split
  · exact calm_tileFresh true _ _
  · exact calm_domainFresh d _

theorem held_domainOn (d : Nat) (s : State) : (domainOn d s).net.held = s.net.held := (calm_domainOn d s).held

/-- A switch-on has ended: the domain is on, no fence or wake of it is left, and its packets go on. -/
def DomainCameOn (d : Nat) (s t : State) : Prop :=
  domOn t d = true ∧ domFenced t d = false ∧ t.power.waking.getLsbD d = false ∧
    ∀ p ∈ s.net.held.flatMap (fun e => e.2.filter (inDomain d)), p ∈ t.net.pkts

theorem kept_deliverHeld (d : Nat) (s : State) : (deliverHeld d (domainOn d s)).pending = s.pending ∧
    (deliverHeld d (domainOn d s)).fuses = s.fuses ∧ (deliverHeld d (domainOn d s)).clock = s.clock := (calm_domainOn d s).kept

theorem power_deliverHeld (d : Nat) (s : State) :
    (deliverHeld d (domainOn d s)).power = { onPower d s.power with grantQ := (domainOn d s).power.grantQ } := (calm_domainOn d s).power

theorem domainCameOn_deliverHeld {d : Nat} (hd : d < 95) (s : State) : DomainCameOn d s (deliverHeld d (domainOn d s)) := by
  have hp := power_deliverHeld d s
  refine ⟨?_, ?_, ?_, fun p hm => ?_⟩
  · rw [domOn, hp]; exact getLsbD_putBit_same _ hd
  · rw [domFenced, hp]; exact getLsbD_clrBit_same _ hd
  · rw [hp]; exact getLsbD_clrBit_same _ hd
  · rw [← held_domainOn d s] at hm
    exact List.mem_append_left _ hm

theorem domainCameOn_congr {d : Nat} {s t u : State} (h : DomainCameOn d s t) (hon : u.power.on = t.power.on)
    (hf : u.power.fenced = t.power.fenced) (hw : u.power.waking = t.power.waking) (hn : u.net = t.net) : DomainCameOn d s u := by
  unfold DomainCameOn domOn domFenced at *
  rw [hon, hf, hw, hn]
  exact h

theorem wakeEnds_of_none {d : Nat} {s : State} (h : s.power.pd = none) : wakeEnds d s = deliverHeld d (domainOn d s) := by
  have hp : (deliverHeld d (domainOn d s)).power.pd = none := by rw [power_deliverHeld]; exact h
  unfold wakeEnds
  dsimp only
  rw [hp]

theorem wakeEnds_of_on {d : Nat} {s : State} (h : s.power.pd = some (d, 0)) :
    wakeEnds d s = pdDone 0 (deliverHeld d (domainOn d s)) := by
  have hp : (deliverHeld d (domainOn d s)).power.pd = some (d, 0) := by rw [power_deliverHeld]; exact h
  unfold wakeEnds
  dsimp only
  rw [hp]
  simp

/-- A wake that no request waits for ends (R419). -/
theorem domainWakeDone_wakes (d : Fin 95) {s : State} (hw : s.power.waking.getLsbD d.val = true) (hp : s.power.pd = none) :
    ∃ t, exec (.domainWakeDone d) s = .next t ∧ DomainCameOn d.val s t := by
  have hf : wakeDone d.val s = deliverHeld d.val (domainOn d.val s) := by
    rw [wakeDone, if_pos (by rw [hw, hp]; rfl), wakeEnds_of_none hp]
  refine ⟨_, exec_ptmDo rfl (by rw [hf]; exact kept_deliverHeld d.val s), ?_⟩
  refine domainCameOn_congr (t := wakeDone d.val s) ?_ ?_ ?_ ?_ (net_ptmDo _ s)
  · rw [hf]; exact domainCameOn_deliverHeld d.isLt s
  all_goals rw [power_ptmDo]

theorem domainWakeDone_idle (d : Fin 95) {s : State} (hw : s.power.waking.getLsbD d.val = false) :
    exec (.domainWakeDone d) s = .next s :=
  act_of_eq (watched_of_eq _ (by rw [wakeDone, hw]; rfl))

/-! ### A fence ends -/

/-- The manager's state as a domain goes off. -/
def offPower (asleep : Bool) (d : Nat) (w : Power) : Power :=
  { w with on := clrBit w.on d, fenced := clrBit w.fenced d, sleep := if asleep then putBit w.sleep d else clrBit w.sleep d }

/-- A domain's blocks have lost their state, and no epoch change waits for them. -/
def domainLost (d : Nat) (s : State) : State := (domUnits d).foldl (fun s u => epochReport u s) (domainFresh d s)

theorem calm_domainLost (d : Nat) (s : State) : Calm s (domainLost d s) :=
  calm_trans (calm_domainFresh d s) (calm_foldl _ (fun u x => calm_epochReport x u) _ _)

theorem domainOff_eq (asleep : Bool) (d : Nat) (s : State) : domainOff asleep d s =
    watched (domPages d) (fun s => { domainLost d s with power := offPower asleep d (domainLost d s).power }) s := rfl

theorem power_domainOff (asleep : Bool) (d : Nat) (s : State) :
    (domainOff asleep d s).power = offPower asleep d (domainLost d s).power := by
  rw [domainOff_eq]
  exact (keepsBut_watched _ _ _).2 .power (by decide)

theorem kept_domainOff (asleep : Bool) (d : Nat) (s : State) : (domainOff asleep d s).pending = s.pending ∧
    (domainOff asleep d s).fuses = s.fuses ∧ (domainOff asleep d s).clock = s.clock := by
  rw [domainOff_eq]
  obtain ⟨a, b, c⟩ := (calm_domainLost d s).kept
  obtain ⟨x, y, z⟩ := (calm_settled (domPages d)
    (fun s => { domainLost d s with power := offPower asleep d (domainLost d s).power }) s).kept
  exact ⟨x.trans a, y.trans b, z.trans c⟩

/-- A domain is off, its sleep as its request asked. -/
def DomainIsOff (asleep : Bool) (d : Nat) (t : State) : Prop :=
  domOn t d = false ∧ domFenced t d = false ∧ t.power.sleep.getLsbD d = asleep

theorem domainIsOff_congr {asleep : Bool} {d : Nat} {t u : State} (h : DomainIsOff asleep d t) (hon : u.power.on = t.power.on)
    (hf : u.power.fenced = t.power.fenced) (hs : u.power.sleep = t.power.sleep) : DomainIsOff asleep d u := by
  unfold DomainIsOff domOn domFenced at *
  rw [hon, hf, hs]
  exact h

theorem domainIsOff_domainOff (asleep : Bool) {d : Nat} (hd : d < 95) (s : State) : DomainIsOff asleep d (domainOff asleep d s) := by
  unfold DomainIsOff domOn domFenced
  rw [power_domainOff]
  refine ⟨getLsbD_clrBit_same _ hd, getLsbD_clrBit_same _ hd, ?_⟩
  cases asleep
  · exact getLsbD_clrBit_same _ hd
  · exact getLsbD_putBit_same _ hd

/-- A drained fence: the domain is off, and the request has ended well. -/
theorem fenceShake_drained {d a : Nat} {s : State} (hd : d < 95) (hf : fencing s d = some a) (hdr : domDrained s d = true) :
    PdEnds 0 (fenceShake d s) ∧ DomainIsOff (a == 1) d (fenceShake d s) ∧
      (fenceShake d s).pending = s.pending ∧ (fenceShake d s).fuses = s.fuses ∧ (fenceShake d s).clock = s.clock := by
  have hends := pdEnds_pdDone 0 (domainOff (a == 1) d s)
  have hoff := domainIsOff_congr (u := pdDone 0 (domainOff (a == 1) d s)) (domainIsOff_domainOff (a == 1) hd s) rfl rfl rfl
  have hkept := kept_domainOff (a == 1) d s
  unfold fenceShake
  rw [hf]
  simp only [hdr, Bool.not_true, Bool.false_eq_true, if_false]
  split
  · exact ⟨hends, domainIsOff_congr hoff rfl rfl rfl, hkept⟩
  · exact ⟨hends, hoff, hkept⟩

theorem fenceHandshake_drained (d : Fin 95) {a : Nat} {s : State} (hf : fencing s d.val = some a) (hdr : domDrained s d.val = true) :
    ∃ t, exec (.fenceHandshake d) s = .next t ∧ PdEnds 0 t ∧ DomainIsOff (a == 1) d.val t := by
  obtain ⟨hends, hoff, hkept⟩ := fenceShake_drained d.isLt hf hdr
  refine ⟨_, exec_ptmDo rfl hkept, pdEnds_watched _ hends, domainIsOff_congr hoff ?_ ?_ ?_⟩ <;> rw [power_ptmDo]

theorem fenceHandshake_waits (d : Fin 95) {a : Nat} {s : State} (hf : fencing s d.val = some a) (hdr : domDrained s d.val = false) :
    exec (.fenceHandshake d) s = .next s :=
  act_of_eq (watched_of_eq _ (by unfold fenceShake; rw [hf, hdr]; rfl))

/-- The time a fence waits for its domain: the longest lull limit of a partition with a block there (R421). -/
def fenceLimit (s : State) (d : Nat) : Nat := ((domBlks d).map (fun b => lullLimit s b.die (ownerOf s b))).foldl max 0

theorem fenceTimeout_late {d a : Nat} {s : State} (hf : fencing s d = some a) (hdr : domDrained s d = false)
    (hl : (tget 0 s.power.drainFrom d).toNat + fenceLimit s d ≤ now s) : fenceTimeout d s = pdDone 2 (ptmLog s 0x02 d 0) := by
  unfold fenceTimeout
  rw [hf]
  exact if_neg (by rw [hdr, Bool.false_or, decide_eq_true_eq]; exact Nat.not_lt.mpr hl)

theorem keepsBut_pdDone (r : Nat) (s : State) : KeepsBut [.regs, .power] s (pdDone r s) := by
  have hp : KeepsBut [.power] s { s with power := { s.power with pd := none } } :=
    ⟨rfl, fun p hp => by cases p <;> simp_all [Part.Same]⟩
  exact keepsBut_trans (keepsBut_mono hp (by simp))
    (keepsBut_trans (keepsBut_mono (keepsBut_setReg _ _ _) (by simp)) (keepsBut_mono (keepsBut_pulse _ _ _) (by simp)))

theorem regsBut_pdDone (r : Nat) (s : State) : RegsBut [ptmKey + Rg.ptm.PDREQSTAT, ptmKey + Rg.hdr.EVPEND] s (pdDone r s) := by
  intro k hk
  simp only [List.mem_cons, List.not_mem_nil, or_false, not_or] at hk
  rw [pdDone, reg_pulse, if_neg hk.2, reg_setReg_ne _ _ hk.1]
  rfl

theorem logOf_pdDone (r : Nat) (s : State) (k : Nat) : logOf (pdDone r s) k = logOf s k := rfl

theorem keepsBut_ptmLog (s : State) (c d w : Nat) : KeepsBut [.regs, .logs] s (ptmLog s c d w) := keepsBut_logE _ _ _ _ _ _

/-- A request that ends, with an entry in the manager's log. -/
theorem keepsLog_pdDone_ptmLog (r c d w : Nat) (s : State) (evs : List (Blk × Nat)) (he : (Blk.ptm, 0) ∈ evs) :
    KeepsLog [.power] [ptmKey + Rg.ptm.PDREQSTAT] evs ptmKey s (pdDone r (ptmLog s c d w)) ∧
      (logOf (pdDone r (ptmLog s c d w)) ptmKey).head? = some ⟨w32 (c + d % 128 * 2 ^ 8), w32 w, 0, 0⟩ := by
  have hev : ptmKey + Rg.hdr.EVPEND ∈ evKeys evs := List.mem_map.mpr ⟨_, he, rfl⟩
  refine ⟨⟨keepsBut_trans (keepsBut_mono (keepsBut_ptmLog s c d w) (by simp)) (keepsBut_mono (keepsBut_pdDone r _) (by simp)), ?_, ?_⟩, ?_⟩
  · intro k hk
    simp only [List.cons_append, List.nil_append, List.mem_cons, not_or] at hk
    obtain ⟨herr, hstat, hevs⟩ := hk
    rw [regsBut_pdDone r _ k (by simp [hstat]; rintro rfl; exact hevs hev), ptmLog, reg_logE, if_neg herr]
  · intro k hk
    rw [logOf_pdDone, ptmLog, logOf_logE, if_neg (by simpa using hk)]
  · rw [logOf_pdDone, ptmLog, logOf_logE, if_pos rfl]
    rfl

theorem logOf_watched (ps : List (Blk × Nat)) (f : State → State) (s : State) (k : Nat) : logOf (watched ps f s) k = logOf (f s) k := by
  rw [logOf, (keepsBut_watched ps f s).2 .logs (by decide)]
  rfl

/-- Latching the events of listed pages changes nothing else. -/
theorem keepsLog_watched {ps : List Part} {ks : List Nat} {pages evs : List (Blk × Nat)} {pg : Nat} {f : State → State} {s : State}
    (h : KeepsLog ps ks evs pg s (f s)) (he : ∀ x ∈ pages, x ∈ evs) : KeepsLog ps ks evs pg s (watched pages f s) := by
  obtain ⟨hk, hr, hl⟩ := h
  refine ⟨keepsBut_trans hk (keepsBut_mono (keepsBut_watched pages f s) (by simp)), fun k hk => ?_,
    fun k hk => (logOf_watched pages f s k).trans (hl k hk)⟩
  refine (reg_watched _ _ _ _ fun hm => hk ?_).trans (hr k hk)
  obtain ⟨x, hx, rfl⟩ := List.mem_map.mp hm
  exact List.mem_append_right _ (List.mem_map.mpr ⟨x, he x hx, rfl⟩)

theorem fenceDrainTimeout_givesUp (d : Fin 95) {a : Nat} {s : State} (hf : fencing s d.val = some a)
    (hdr : domDrained s d.val = false) (hl : (tget 0 s.power.drainFrom d.val).toNat + fenceLimit s d.val ≤ now s) :
    ∃ t, exec (.fenceDrainTimeout d) s = .next t ∧ PdEnds 2 t ∧
      (logOf t ptmKey).head? = some ⟨w32 (2 + d.val * 2 ^ 8), 0, 0, 0⟩ ∧
      KeepsLog [.power] [ptmKey + Rg.ptm.PDREQSTAT] [(.ptm, 0)] ptmKey s t := by
  have hto := fenceTimeout_late hf hdr hl
  obtain ⟨hk, hlog⟩ := keepsLog_pdDone_ptmLog 2 0x02 d.val 0 s [(.ptm, 0)] (by simp)
  rw [← hto] at hk hlog
  refine ⟨_, exec_ptmDo rfl ⟨hk.1.1, hk.1.2 .fuses (by decide), hk.1.2 .clock (by decide)⟩, ?_, ?_, keepsLog_watched hk (fun _ h => h)⟩
  · refine pdEnds_watched _ ?_
    rw [hto]
    exact pdEnds_pdDone _ _
  · rw [ptmDo, logOf_watched, hlog, Nat.mod_eq_of_lt (by omega)]
    rfl

theorem domainsWakeFenceAndTimeOut : DomainsWakeFenceAndTimeOut := by
  intro d s
  refine ⟨fun hw hp => ?_, domainWakeDone_idle d, fun a hf => ⟨fun hdr => ?_, fenceHandshake_waits d hf, fun hdr hl => ?_⟩⟩
  · obtain ⟨t, he, hon, hfe, hwk, hheld⟩ := domainWakeDone_wakes d hw hp
    exact ⟨t, he, hon, hfe, hwk, fun p hp => ⟨p, hheld p hp, rfl⟩⟩
  · exact fenceHandshake_drained d hf hdr
  · exact fenceDrainTimeout_givesUp d hf hdr hl

end Sys2Proof.Machine
end

section
open Sys2Proof.Says

namespace Sys2Proof.Machine

/-- Settles O59: a woken domain comes on with what the power manager holds for it left alone by its blocks' resets; a drained
    fence takes it off whatever those resets do; tables, messages and lull reports by the equations of their commands. -/
theorem domainsTablesAndMessages : Obligations.DomainsTablesAndMessages := by
  unfold Obligations.DomainsTablesAndMessages
  exact ⟨domainsWakeFenceAndTimeOut, tablesMessagesAndLullReports⟩

end Sys2Proof.Machine
end

section
/-! SUPPORT. Accesses to DRAM that a reset of a channel lets go on leave the power manager's state, the held packets, the manager's
    log and the faults of partitions (R292, R311, R424). -/

open Sys2Proof.Says

namespace Sys2Proof.Machine

section
variable (s : State) (k : Fin 8) (c : Fin 32)

/-! ### A channel's accesses -/

theorem quiet_chan {o : Nat} (ho : o < 0x1000) : Quiet (Blk.key (.chan k c) + o) := quiet_key (.chan k c) rfl ho
theorem quiet_pvm {o : Nat} (ho : o < 0x1000) : Quiet (Blk.key (.pvm k) + o) := quiet_key (.pvm k) rfl ho

theorem calm_pulseChan (n : Nat) : Calm s (pulse s (Blk.key (.chan k c)) n) := calm_pulse s n (key_mod (.chan k c))

theorem calm_dram (d : Tab Byte) : Calm s { s with dram := d } := calm_of_eq ⟨rfl, rfl, rfl⟩ rfl rfl rfl rfl
theorem calm_pv (p : Tab Bool) : Calm s { s with pv := p } := calm_of_eq ⟨rfl, rfl, rfl⟩ rfl rfl rfl rfl

theorem calm_putSyms (l : Nat) (d : List Byte) : Calm s (putSyms s k l d) := by
  induction d generalizing s l with
  | nil => exact calm_refl s
  | cons b t ih => exact calm_trans (calm_dram s _) (ih _ _)

theorem calm_putChecks (b n : Nat) : Calm s (putChecks k b n s) := by
  induction n generalizing s b with
  | zero => exact calm_refl s
  | succ n ih => exact calm_trans (calm_dram s _) (ih _ _)

theorem calm_putDram (l : Nat) (d : List Byte) : Calm s (putDram s k l d) :=
  calm_trans (calm_putSyms s k l d) (calm_putChecks _ k _ _)

theorem calm_upsetBlk (l : Nat) (errs : List SymErr) : Calm s (upsetBlk s k l errs) := calm_foldl _ (fun u _ => calm_dram u _) errs s

theorem calm_openRowOf (l n : Nat) : Calm s (openRowOf s k c l n) := calm_trans (calm_updChan s k c _) (calm_updChan _ k c _)

theorem calm_chanLog (code core beat l s0 s1 : Nat) (w : Option Init) : Calm s (chanLog s k c code core beat l s0 s1 w) :=
  calm_logKey s (.chan k c) _ _ _ _ rfl

/-- A beat decoded with a corrected symbol names one of the ten cores. -/
theorem decBeat_core_lt {erase : Option Nat} {e : List Nat} {b : BeatR} (hb : decBeat erase e = b) (h : b.st = 1) : b.core < 10 := by
  unfold decBeat at hb
  dsimp only at hb
  split at hb
  · split at hb <;> (subst hb; cases h)
  · split at hb
    · subst hb; cases h
    · split at hb
      · rename_i j hj
        subst hb
        exact List.mem_range.mp (List.mem_of_find?_eq_some hj)
      · subst hb; cases h

theorem decAt_core_lt {l : Nat} : ∀ b ∈ decAt s k l, b.st = 1 → b.core < 10 := by
  intro b hb hst
  obtain ⟨i, -, rfl⟩ := List.mem_map.mp hb
  exact decBeat_core_lt rfl hst

theorem calm_corrCores {bs : List BeatR} (hbs : ∀ b ∈ bs, b.st = 1 → b.core < 10) :
    Calm s (bs.foldl (fun s b => if b.st = 1 then bump s (Blk.key (.chan k c) + Rg.chan.CORRCORE + 4 * b.core) else s) s) := by
  refine List.foldlRecOn bs _ (calm_refl s) fun x hx b hb => ?_
  split
  · rename_i hst
    have := hbs b hb hst
    refine calm_trans hx (calm_bump x 1 ?_)
    rw [Nat.add_assoc]
    exact quiet_chan k c (by simp only [Rg.chan.CORRCORE]; omega)
  · exact hx

theorem calm_chanCorr {cnt : Nat} (l : Nat) {bs : List BeatR} (w : Option Init) (hcnt : cnt < 0x1000)
    (hbs : ∀ b ∈ bs, b.st = 1 → b.core < 10) : Calm s (chanCorr s k c cnt l bs w) := by
  have h := calm_trans (calm_corrCores s k c hbs) (calm_trans (calm_bump _ 1 (quiet_chan k c hcnt)) (calm_pulseChan _ k c 1))
  unfold chanCorr
  dsimp only
  split
  · exact calm_refl s
  · split
    · exact calm_trans h (calm_chanLog _ k c _ _ _ _ _ _ _)
    · exact h

theorem calm_uncorrectable (code x y l : Nat) (w : Option Init) :
    Calm s (pulse (bump (chanLog s k c code 0xF 0 l x y w) (Blk.key (.chan k c) + Rg.chan.UNCCNT)) (Blk.key (.chan k c)) 0) :=
  calm_trans (calm_chanLog s k c _ _ _ _ _ _ _)
    (calm_trans (calm_bump _ 1 (quiet_chan k c (o := Rg.chan.UNCCNT) (by decide))) (calm_pulseChan _ k c 0))

theorem calm_dramPerform (r : Req) (l : Nat) (fill : Bool) (errs : List SymErr) : Calm s (dramPerform s k r l fill errs).2.2 := by
  unfold dramPerform
  extract_lets d key rmw u blk bs u1 u2 u3 u4
  have hu : Calm s u := calm_trans (calm_openRowOf s k d l _) (calm_upsetBlk _ k l errs)
  have hbs : ∀ b ∈ bs, b.st = 1 → b.core < 10 := decAt_core_lt u k
  split
  · have h1 : Calm s u1 := calm_trans hu (calm_bump u 1 (quiet_chan k d (o := Rg.chan.RDCNT) (by decide)))
    split
    · exact calm_trans h1 (calm_uncorrectable _ k d _ _ _ _ _)
    · have h2 : Calm s u2 := calm_trans h1 (calm_chanCorr u1 k d l _ (by decide) hbs)
      show Calm s u3
      unfold u3
      split
      · exact calm_trans h2 (calm_updChan _ k d _)
      · exact h2
  · split
    · have h4 : Calm s u4 := calm_trans hu (calm_bump u 1 (quiet_chan k d (o := Rg.chan.RMWCNT) (by decide)))
      split
      · exact calm_trans h4 (calm_uncorrectable _ k d _ _ _ _ _)
      · exact calm_trans (calm_trans h4 (calm_chanCorr u4 k d l _ (by decide) hbs))
          (calm_trans (calm_putDram _ k _ _) (calm_putDram _ k _ _))
    · refine calm_trans hu (calm_trans ?_ (calm_putDram _ k _ _))
      split
      · exact calm_refl u
      · exact calm_bump u 1 (quiet_chan k d (o := Rg.chan.WRCNT) (by decide))

theorem calm_noteOrder (l : Nat) (read : Bool) : Calm s (noteOrder s k l read) := by
  unfold noteOrder
  dsimp only
  split
  · split
    · exact calm_trans (calm_updChan s k _ _) (calm_bump _ 1 (quiet_chan k _ (o := Rg.chan.INORDCNT) (by decide)))
    · exact calm_updChan s k _ _
  · exact calm_refl s

theorem calm_performQ (q : QAcc) (errs : List SymErr) : Calm s (performQ s k c q errs) := by
  have h := calm_trans (calm_updChan s k c _) (calm_trans (calm_dramPerform (takeAcc s k c q) k q.req q.loc q.fill errs)
    (calm_respErr _ (8 + 11 * k.val) (dramPerform (takeAcc s k c q) k q.req q.loc q.fill errs).1))
  unfold performQ
  dsimp only
  split
  · exact h
  · exact calm_trans h (calm_sendResp _ _ _ _ _ _ _)

theorem calm_flushBank (l : Nat) : Calm s (flushBank s k l) := calm_foldl _ (fun u q => calm_performQ u k _ q []) _ s

theorem calm_dropDramWb (l : Nat) : Calm s (dropDramWb s k l) := calm_updChan s k _ _

theorem calm_enqueue (q : QAcc) : Calm s (enqueue s k q) := by
  unfold enqueue
  extract_lets u v
  have hu : Calm s u := calm_noteOrder s k _ _
  have hv : Calm s v := by
    unfold v
    split
    · exact hu
    · exact calm_trans hu (calm_dropDramWb u k _)
  exact calm_trans hv (calm_updChan v k _ _)

/-! ### The page-valid manager -/

theorem calm_markFilled (page b : Nat) : Calm s (markFilled s k page b) := by
  have h : ∀ f, Calm s (watched [(Blk.pvm k, 0)] (fun s => updStack s k f) s) := fun f => calm_watched _ (calm_updStack s k f)
  unfold markFilled
  dsimp only
  split
  · exact calm_trans (h _) (calm_bump _ 1 (quiet_pvm k (o := Rg.pvm.FILLCNT) (by decide)))
  · exact h _

theorem calm_fillAlloc (p : BitVec 4) (page : Nat) : Calm s (fillAlloc s k p page) := by
  unfold fillAlloc
  exact calm_trans (calm_pv s (tset false s.pv (pvKey k page) true)) (calm_watched _ (calm_updStack _ k _))

theorem calm_fillAll (e : FillEnt) : Calm s (fillAll s k e) := by
  refine calm_foldl _ (fun u b => ?_) _ s
  dsimp only
  split
  · split
    · exact calm_refl u
    · exact calm_trans (calm_flushBank u k _) (calm_trans (calm_dramPerform _ k _ _ _ _) (calm_markFilled _ k _ _))
  · exact calm_refl u

theorem calm_pvPass {r : Req} {l : Nat} {x : Option (Req × Nat)} {t : State} (h : pvPass s k r l = (x, t)) : Calm s t := by
  have ht : t = (pvPass s k r l).2 := by rw [h]
  rw [ht]
  unfold pvPass
  extract_lets page b u
  have hu : Calm s u := by
    unfold u
    split
    · exact calm_refl s
    · exact calm_fillAlloc s k _ _
  split
  · exact calm_refl s
  · split
    · exact hu
    · split
      · exact hu
      · exact calm_trans hu (calm_markFilled u k _ _)

/-! ### Accesses at their base die -/

theorem calm_dramRefuse (r : Req) (rsn : BitVec 8) : Calm s (dramRefuse s r rsn) := by
  obtain ⟨f, hf⟩ := exists_eq (a' := dramRefuse)
  obtain ⟨map, hm⟩ := exists_eq (a' := dramMap)
  rw [← hf]
  delta dramRefuse at hf
  rw [← hm] at hf
  subst hf
  beta_reduce
  split
  refine calm_trans ?_ (calm_respErr _ _ _)
  split
  · exact calm_chanLog s _ _ _ _ _ _ _ _ _
  · exact calm_refl s

theorem calm_stackNow (r : Req) (l : Nat) : Calm s (stackNow s k r l).2.2 := by
  unfold stackNow
  extract_lets u
  have hu : Calm s u := by
    unfold u
    split
    · exact calm_trans (calm_draw s) (calm_trans (calm_fillAll _ k _) (calm_bump _ _ (quiet_pvm k (o := Rg.pvm.FILLWAIT) (by decide))))
    · exact calm_refl s
  split
  · rename_i h; exact calm_trans hu (calm_pvPass u k h)
  · rename_i r' l' v h
    have hv := calm_trans hu (calm_pvPass u k h)
    extract_lets w x
    have hw : Calm s w := calm_trans hv (calm_flushBank v k _)
    have hx : Calm s x := by
      unfold x
      split
      · exact hw
      · exact calm_trans hw (calm_dropDramWb w k _)
    exact calm_trans hx (calm_trans (calm_dramPerform x k _ _ _ _) (calm_respErr _ _ _))

theorem calm_lineAcc (who : Init) (line : Nat) (kind : Kind) (d : List Byte) : Calm s (lineAcc s who line kind d).2.2 := by
  have href := calm_dramRefuse s
  have hnow := calm_stackNow s
  obtain ⟨f, hf⟩ := exists_eq (a' := lineAcc)
  obtain ⟨map, hm⟩ := exists_eq (a' := dramMap)
  obtain ⟨ref, hr⟩ := exists_eq (a' := dramRefuse)
  obtain ⟨now, hn⟩ := exists_eq (a' := stackNow)
  rw [← hf]
  delta lineAcc at hf
  rw [← hm, ← hr, ← hn] at hf
  rw [← hr] at href
  rw [← hn] at hnow
  subst hf
  dsimp only
  split
  · exact href _ _
  · exact hnow _ _ _

theorem calm_putLine (line : Nat) (d : List Byte) : Calm s (putLine s line d).2 := by
  have hacc := calm_lineAcc s
  obtain ⟨f, hf⟩ := exists_eq (a' := putLine)
  obtain ⟨map, hm⟩ := exists_eq (a' := dramMap)
  obtain ⟨acc, ha⟩ := exists_eq (a' := lineAcc)
  rw [← hf]
  delta putLine at hf
  rw [← hm, ← ha] at hf
  rw [← ha] at hacc
  subst hf
  exact hacc _ _ _ _

theorem calm_wbCopy (line i : Nat) : Calm s (wbCopy s line i) := by
  unfold wbCopy
  split
  · extract_lets d
    split
    rename_i hl
    have h := calm_putLine s line d
    rw [hl] at h
    split
    · exact calm_trans h (calm_net _ _ rfl)
    · exact h
  · exact calm_refl s

theorem calm_landReplies (line : Nat) : Calm s (landReplies s line) := by
  refine calm_foldl _ (fun u q => ?_) _ s
  split
  · split
    · exact calm_putLine u line _
    · exact calm_refl u
  · exact calm_refl u

theorem calm_dropCopy (line i : Nat) : Calm s (dropCopy s line i) := calm_net s _ rfl

theorem calm_cohSync (a : Nat) (write : Bool) : Calm s (cohSync s a write) := by
  unfold cohSync
  split
  · exact calm_refl s
  · refine calm_trans (calm_landReplies s _) (calm_foldl _ (fun u i => ?_) _ _)
    dsimp only
    split
    · exact calm_trans (calm_wbCopy u _ _) (calm_dropCopy _ _ _)
    · exact calm_wbCopy u _ _

/-- A window's control word holds no partition fault. -/
theorem quiet_winCtl (j w : Nat) : Quiet (winKey j w + 0xC) := quiet_of_mod (by unfold winKey pageKey; omega)

theorem calm_clearWiped (j a len : Nat) : Calm s (clearWiped s j a len) := by
  refine calm_foldl _ (fun u w => ?_) _ s
  dsimp only
  split
  · exact calm_setRegBit u 8 false (quiet_winCtl j w)
  · exact calm_refl u

theorem calm_wipeNote (a len : Nat) : Calm s (wipeNote s k a len) := by
  unfold wipeNote
  dsimp only
  split
  · exact calm_refl s
  · refine calm_trans (calm_clearWiped s k.val a len) (calm_foldl _ (fun u j => ?_) _ _)
    split
    · exact calm_refl u
    · exact calm_net u _ rfl

theorem calm_dramTake (src : Src) (r : Req) : Calm s (dramTake s src r) := by
  obtain ⟨f, hf⟩ := exists_eq (a' := dramTake)
  obtain ⟨map, hm⟩ := exists_eq (a' := dramMap)
  rw [← hf]
  delta dramTake at hf
  rw [← hm] at hf
  subst hf
  beta_reduce
  split
  extract_lets die write u v
  have hu : Calm s u := calm_cohSync s _ _
  have hv : Calm s v := by
    unfold v
    split
    · exact calm_trans hu (calm_wipeNote u _ _ _)
    · exact hu
  split
  split
  · rename_i h; exact calm_trans hv (calm_trans (calm_pvPass v _ h) (calm_sendResp _ _ _ _ _ _ _))
  · rename_i h
    refine calm_trans hv (calm_trans (calm_pvPass v _ h) ?_)
    extract_lets ack w
    split
    · exact calm_trans (calm_enqueue _ _ _) (calm_sendResp _ _ _ _ _ _ _)
    · exact calm_enqueue _ _ _

theorem calm_dramAccept (src : Src) (r : Req) : Calm s (dramAccept s src r) := by
  obtain ⟨f, hf⟩ := exists_eq (a' := dramAccept)
  obtain ⟨map, hm⟩ := exists_eq (a' := dramMap)
  rw [← hf]
  delta dramAccept at hf
  rw [← hm] at hf
  subst hf
  beta_reduce
  split
  extract_lets rsn
  split
  · exact calm_trans (calm_dramRefuse s _ _) (calm_sendResp _ _ _ _ _ _ _)
  · split
    · exact calm_updStack s _ _
    · exact calm_dramTake s _ _

theorem calm_waitPump (n : Nat) : Calm s (waitPump k n s) := by
  induction n generalizing s with
  | zero => exact calm_refl s
  | succ n ih =>
    rw [waitPump]
    split
    · exact calm_refl s
    · rename_i w _
      have h : Calm s (updStack s k (fun x => { x with waits := x.waits.erase w })) := calm_updStack s k _
      refine calm_trans ?_ (ih _)
      refine calm_trans ?_ (calm_dramAccept _ _ _)
      split
      · exact calm_trans h (calm_bump _ _ (quiet_pvm k (o := Rg.pvm.FILLWAIT) (by decide)))
      · exact h

theorem calm_discardHeld : Calm s (discardHeld s k c) := by
  refine calm_trans (calm_updChan s k c _) (calm_foldl _ (fun u q => ?_) _ _)
  split
  · exact calm_refl u
  · exact calm_trans (calm_respErr u _ _) (calm_sendResp _ _ _ _ _ _ _)

theorem calm_chanReset : Calm s (chanReset k c s) := by
  refine calm_trans ?_ (calm_setRun _ (.chan k c) _)
  refine calm_trans ?_ (calm_dropRegs _ fun i hi => quiet_eq (quiet_key (.chan k c) rfl (o := Rg.chan.CHCTL) (by decide)) hi)
  refine calm_trans ?_ (calm_clearLogs _ (b := .chan k c) rfl)
  refine calm_trans ?_ (calm_dropCounts _ (b := .chan k c) rfl)
  exact calm_trans (calm_discardHeld s k c) (calm_updChan _ k c _)

end

/-! ### A die's blocks -/

/-- The kinds of blocks that a die reset reaches. -/
def dieUnit : Blk → Bool
  | .row _ | .seq _ | .vec _ | .acnt _ | .bank _ _ | .seng _ | .chan _ _ | .nve _ _ | .pvm _ | .check _ _ | .region _ | .port _
  | .lanes _ => true
  | _ => false

theorem calm_dieBlkReset {b : Blk} (hb : dieUnit b = true) (s : State) : Calm s (dieBlkReset b s) := by
  unfold dieBlkReset
  split
  · exact calm_refl s
  · cases b with
    | row t => exact calm_tileFresh true t s
    | seq t => exact calm_refl s
    | vec t => exact calm_refl s
    | acnt t => exact calm_refl s
    | lanes p => exact calm_refl s
    | port p => exact calm_portFresh p s
    | seng k => exact calm_trans (calm_orphan _ s) (calm_sengReset k _)
    | bank t g => exact calm_groupReset t g s
    | chan k c => exact calm_trans (calm_chanReset s k c) (calm_waitPump _ k _)
    | nve k e => exact calm_engReset k e s
    | pvm k => exact calm_pvmReset k s
    | check k c => exact calm_ckReset (.ord k c) s
    | region r => exact calm_regionReset r s
    | _ => cases hb

theorem dieUnit_dieBlks (d : Nat) : ∀ b ∈ dieBlks d, dieUnit b = true := by
  intro b hb
  unfold dieBlks at hb
  dsimp only at hb
  split at hb
  · simp only [tileBlks, List.mem_flatMap, List.mem_append, List.mem_cons, List.mem_map, List.not_mem_nil, or_false] at hb
    obtain ⟨l, -, (rfl | rfl | rfl | rfl) | ⟨g, -, rfl⟩⟩ := hb <;> rfl
  · simp only [List.mem_flatMap, List.mem_map] at hb
    obtain ⟨l, -, g, -, rfl⟩ := hb
    rfl
  · simp only [List.mem_append, List.mem_cons, List.mem_map, List.not_mem_nil, or_false] at hb
    obtain (((rfl | rfl) | ⟨c, -, rfl⟩) | ⟨e, -, rfl⟩) | ⟨c, -, rfl⟩ := hb <;> rfl
  · obtain ⟨q, -, rfl⟩ := List.mem_map.mp hb
    rfl
  · simp only [List.mem_flatMap, List.mem_cons, List.not_mem_nil, or_false] at hb
    obtain ⟨i, -, rfl | rfl⟩ := hb <;> rfl
  · cases hb

/-- The registers, the manager's log and its state as a die's blocks reset. -/
theorem calm_dieAssert (d : Nat) (s : State) : Calm (endReset s d) (dieAssert d s) :=
  List.foldlRecOn _ _ (calm_orphan _ _) fun _ hu b hb => calm_trans hu (calm_dieBlkReset (dieUnit_dieBlks d b hb) _)

end Sys2Proof.Machine
end

section
/-! SUPPORT. What PDREQ and a domain's switch-on do (R43-R45, R509, R510). -/

open Sys2Proof.Says

namespace Sys2Proof.Machine

section
variable {who : Init} {s : State}

/-! ### Writes of the power manager's registers -/

/-- A write of a register of the manager's that takes effect. -/
theorem blkCmd_ptm {off : Nat} (v : W32) {r : RegRow} {i : Nat} (h80 : 0x80 ≤ off) (ho : off < 0x1000) (ha : off % 4 = 0)
    (hat : regAt .ptm 0 off = some (r, i)) (hr : Reaches who .ptm 0 off s) :
    blkCmd who .ptm 0 off v s = watched (putPages .ptm 0) (ptmPut off r i v) s :=
  (regCmd_passes v rfl (by decide) ho ha hr.1).trans (regWrite_blk v hr.2 hat h80)

theorem regAt_RSTREQ : regAt .ptm 0 Rg.ptm.RSTREQ = some (⟨Rg.ptm.RSTREQ, 1, 0, .wo, 0x17F, 0⟩, 0) := rfl
theorem regAt_PDREQ : regAt .ptm 0 Rg.ptm.PDREQ = some (⟨Rg.ptm.PDREQ, 1, 0, .wo, 0x37F, 0⟩, 0) := rfl

theorem ptmPut_RSTREQ (off i : Nat) (v : W32) : ptmPut off ⟨Rg.ptm.RSTREQ, 1, 0, .wo, 0x17F, 0⟩ i v = dieReset v := by
  funext s
  simp [ptmPut, Rg.ptm.RSTREQ, Rg.ptm.MODCMD]

theorem ptmPut_PDREQ (off i : Nat) (v : W32) : ptmPut off ⟨Rg.ptm.PDREQ, 1, 0, .wo, 0x37F, 0⟩ i v = pdreq v := by
  funext s
  simp [ptmPut, Rg.ptm.RSTREQ, Rg.ptm.MODCMD, Rg.ptm.PDREQ]

theorem blkCmd_RSTREQ (v : W32) (hr : Reaches who .ptm 0 Rg.ptm.RSTREQ s) :
    blkCmd who .ptm 0 Rg.ptm.RSTREQ v s = watched (putPages .ptm 0) (dieReset v) s := by
  rw [blkCmd_ptm v (by decide) (by decide) (by decide) regAt_RSTREQ hr, ptmPut_RSTREQ]

theorem blkCmd_PDREQ (v : W32) (hr : Reaches who .ptm 0 Rg.ptm.PDREQ s) :
    blkCmd who .ptm 0 Rg.ptm.PDREQ v s = watched (putPages .ptm 0) (pdreq v) s := by
  rw [blkCmd_ptm v (by decide) (by decide) (by decide) regAt_PDREQ hr, ptmPut_PDREQ]

theorem ptm_mem_putPages : (Blk.ptm, 0) ∈ putPages .ptm 0 := by simp [putPages, ctlPages, blkPages]

/-! ### What PDREQ asks -/

/-- The word of a power request: a domain and an action, 0 on, 1 sleep, 2 shut. -/
abbrev pdWord (n a : Nat) : W32 := w32 (n + a * 2 ^ 8)

theorem bits_pdWord (d : BitVec 7) {a : Nat} (ha : a < 3) :
    bits (pdWord d.toNat a) 6 0 = d.toNat ∧ bits (pdWord d.toNat a) 9 8 = a := by
  have h : ∀ (n : Fin 128) (a : Fin 3), bits (pdWord n a) 6 0 = n.val ∧ bits (pdWord n a) 9 8 = a.val := by decide
  exact h d.toFin ⟨a, ha⟩

/-- The requests of a domain, each with its action. -/
inductive PdCmd (who : Init) (d : BitVec 7) : Instr → Nat → Prop
  | on : PdCmd who d (.pdreqOn who d) 0
  | sleep : PdCmd who d (.pdreqSleep who d) 1
  | shut : PdCmd who d (.pdreqShut who d) 2

theorem PdCmd.lt {d : BitVec 7} {c : Instr} {a : Nat} (h : PdCmd who d c a) : a < 3 := by cases h <;> decide

theorem PdCmd.exec_eq {d : BitVec 7} {c : Instr} {a : Nat} (h : PdCmd who d c a) :
    exec c s = act (blkCmd who .ptm 0 Rg.ptm.PDREQ (pdWord d.toNat a)) s := by cases h <;> rfl

/-- A request whose write takes effect, and leaves the queue of commands, the fuses and the time alone. -/
theorem PdCmd.exec_pdreq {d : BitVec 7} {c : Instr} {a : Nat} (h : PdCmd who d c a) (hr : Reaches who .ptm 0 Rg.ptm.PDREQ s)
    {ps : List Part} (hk : KeepsBut ps s (pdreq (pdWord d.toNat a) s)) (hf : Part.fuses ∉ ps) (hc : Part.clock ∉ ps) :
    exec c s = .next (watched (putPages .ptm 0) (pdreq (pdWord d.toNat a)) s) := by
  have hb := blkCmd_PDREQ (pdWord d.toNat a) hr
  rw [h.exec_eq, ← hb]
  exact act_of_kept (by rw [hb]; exact kept_watched _ ⟨hk.1, hk.2 .fuses hf, hk.2 .clock hc⟩)

/-- The manager's state with a request begun. -/
def pdBegun (n a : Nat) (s : State) : State :=
  setReg { s with power := { s.power with pd := some (n, a) } } (ptmKey + Rg.ptm.PDREQSTAT) 1

section
variable {n a : Nat} {v : W32} (hn : bits v 6 0 = n) (ha : bits v 9 8 = a)
include hn ha

theorem pdreq_busy (h : pdBusy s = true ∨ 94 < n) : pdreq v s = pulse (ptmLog s 0x03 n Rg.ptm.PDREQ) ptmKey 0 := by
  unfold pdreq
  dsimp only
  rw [hn, ha]
  exact if_pos (by rcases h with h | h <;> simp [h])

variable (hb : ¬ (pdBusy s = true ∨ 94 < n)) (h3 : a < 3)
include hb h3

theorem pdreq_forbidden (h : pdForbids s n (a == 0) = true) : pdreq v s = pdDone 1 (ptmLog s 0x01 n (n + a * 2 ^ 8)) := by
  have hgo : ¬ (pdBusy s || decide (94 < n) || a == 3) = true := by
    simp only [not_or] at hb
    simp [hb.1, hb.2, show a ≠ 3 by omega]
  unfold pdreq
  dsimp only
  rw [hn, ha, if_neg hgo, if_pos h]

theorem pdreq_begins (h : pdForbids s n (a == 0) = false) : pdreq v s =
    (let t := pdBegun n a s
     if a = 0 then (if domOn t n then pdDone 0 t else { t with power := { t.power with waking := putBit t.power.waking n } })
     else if domOn t n then fenceUp n t
     else if t.power.waking.getLsbD n then t
     else pdDone 0 { t with power := { t.power with sleep := if a = 1 then putBit t.power.sleep n else clrBit t.power.sleep n } }) := by
  have hgo : ¬ (pdBusy s || decide (94 < n) || a == 3) = true := by
    simp only [not_or] at hb
    simp [hb.1, hb.2, show a ≠ 3 by omega]
  unfold pdreq
  dsimp only
  rw [hn, ha, if_neg hgo, if_neg (by rw [h]; decide)]
  rfl

end

/-! ### What each answer leaves -/

theorem keepsBut_power (s : State) (w : Power) : KeepsBut [.power] s { s with power := w } :=
  ⟨rfl, fun p hp => by cases p <;> simp_all [Part.Same]⟩

/-- The answers to a request change the manager's state and its status register, and raise its event. -/
structure PdAnswers (s t : State) : Prop where
  kept : KeepsBut [.regs, .power] s t
  regs : RegsBut [ptmKey + Rg.ptm.PDREQSTAT, ptmKey + Rg.hdr.EVPEND] s t

theorem pdAnswers_trans {s t u : State} (h1 : PdAnswers s t) (h2 : PdAnswers t u) : PdAnswers s u :=
  ⟨keepsBut_trans h1.kept h2.kept, regsBut_trans h1.regs h2.regs⟩

theorem pdAnswers_power (s : State) (w : Power) : PdAnswers s { s with power := w } :=
  ⟨keepsBut_mono (keepsBut_power s w) (by simp), fun _ _ => rfl⟩

theorem pdAnswers_pdDone (r : Nat) (s : State) : PdAnswers s (pdDone r s) := ⟨keepsBut_pdDone r s, regsBut_pdDone r s⟩

theorem pdAnswers_pdBegun (n a : Nat) (s : State) : PdAnswers s (pdBegun n a s) :=
  pdAnswers_trans (pdAnswers_power s { s.power with pd := some (n, a) })
    ⟨keepsBut_mono (keepsBut_setReg _ _ _) (by simp), regsBut_mono (regsBut_setReg _ _ _) (by simp)⟩

theorem pdAnswers_fenceUp (n : Nat) (s : State) : PdAnswers s (fenceUp n s) := pdAnswers_power s _

/-- The answer, seen on the manager's page. -/
theorem keeps_of_pdAnswers {f : State → State} (h : PdAnswers s (f s)) :
    Keeps [.power] [ptmKey + Rg.ptm.PDREQSTAT] (putPages .ptm 0) s (watched (putPages .ptm 0) f s) := by
  have hev : ptmKey + Rg.hdr.EVPEND ∈ evKeys (putPages .ptm 0) := List.mem_map.mpr ⟨_, ptm_mem_putPages, rfl⟩
  refine ⟨keepsBut_watched_of _ h.kept (by simp), fun k hk => ?_⟩
  simp only [List.cons_append, List.nil_append, List.mem_cons, not_or] at hk
  obtain ⟨hstat, hevs⟩ := hk
  refine (regsBut_watched _ f s k hevs).trans (h.regs k ?_)
  simp only [List.mem_cons, List.not_mem_nil, or_false, not_or]
  exact ⟨hstat, fun he => hevs (he ▸ hev)⟩

theorem reg_pdBegun (n a : Nat) (s : State) : reg (pdBegun n a s) (ptmKey + Rg.ptm.PDREQSTAT) = 1 := reg_setReg_same _ _ _

theorem power_watched (ps : List (Blk × Nat)) (f : State → State) (s : State) : (watched ps f s).power = (f s).power :=
  (keepsBut_watched ps f s).2 .power (by decide)

/-- A request refused with an entry in the manager's log. -/
theorem keepsLog_pulse_ptmLog (c n w : Nat) (s : State) (evs : List (Blk × Nat)) (he : (Blk.ptm, 0) ∈ evs) :
    KeepsLog [] [] evs ptmKey s (pulse (ptmLog s c n w) ptmKey 0) ∧
      (logOf (pulse (ptmLog s c n w) ptmKey 0) ptmKey).head? = some ⟨w32 (c + n % 128 * 2 ^ 8), w32 w, 0, 0⟩ := by
  have hev : ptmKey + Rg.hdr.EVPEND ∈ evKeys evs := List.mem_map.mpr ⟨_, he, rfl⟩
  refine ⟨⟨keepsBut_trans (keepsBut_ptmLog s c n w) (keepsBut_mono (keepsBut_pulse _ _ _) (by simp)), ?_, ?_⟩, ?_⟩
  · intro k hk
    simp only [List.cons_append, List.nil_append, List.mem_cons, not_or] at hk
    obtain ⟨herr, hevs⟩ := hk
    rw [reg_pulse, if_neg (fun h : k = ptmKey + Rg.hdr.EVPEND => hevs (h ▸ hev)), ptmLog, reg_logE, if_neg herr]
  · intro k hk
    refine (logOf_logE s ptmKey _ _ _ _ k).trans (if_neg (by simpa using hk))
  · exact congrArg List.head? ((logOf_logE s ptmKey _ _ _ _ ptmKey).trans (if_pos rfl))

theorem reg_watched_PDREQSTAT (ps : List (Blk × Nat)) (f : State → State) (s : State) :
    reg (watched ps f s) (ptmKey + Rg.ptm.PDREQSTAT) = reg (f s) (ptmKey + Rg.ptm.PDREQSTAT) :=
  reg_watched_off _ _ _ (by rw [Nat.add_mod, ptmKey_mod]; decide)

section
variable {d : BitVec 7} {c : Instr} {a : Nat} (h : PdCmd who d c a) (hr : Reaches who .ptm 0 Rg.ptm.PDREQ s)
include h hr

/-- A request while another is under way, or of no domain, is logged (R510). -/
theorem PdCmd.busy (hb : pdBusy s = true ∨ 94 < d.toNat) : ∃ t, exec c s = .next t ∧
    KeepsLog [] [] (putPages .ptm 0) ptmKey s t ∧
    (logOf t ptmKey).head? = some ⟨w32 (3 + d.toNat * 2 ^ 8), w32 Rg.ptm.PDREQ, 0, 0⟩ := by
  obtain ⟨hn, ha⟩ := bits_pdWord d h.lt
  have ht := pdreq_busy hn ha hb
  obtain ⟨hk, hlog⟩ := keepsLog_pulse_ptmLog 0x03 d.toNat Rg.ptm.PDREQ s (putPages .ptm 0) ptm_mem_putPages
  rw [← ht] at hk hlog
  refine ⟨_, h.exec_pdreq hr hk.1 (by decide) (by decide), keepsLog_watched hk (fun _ h => h), ?_⟩
  rw [logOf_watched, hlog, Nat.mod_eq_of_lt d.isLt]

/-- What a request leaves that ends without an entry in the log, given what it makes of the state. -/
theorem PdCmd.answers {u : State} (hu : pdreq (pdWord d.toNat a) s = u) (hans : PdAnswers s u) :
    ∃ t, exec c s = .next t ∧ t.power = u.power ∧
      reg t (ptmKey + Rg.ptm.PDREQSTAT) = reg u (ptmKey + Rg.ptm.PDREQSTAT) ∧ (∀ r, PdEnds r u → PdEnds r t) ∧
      Keeps [.power] [ptmKey + Rg.ptm.PDREQSTAT] (putPages .ptm 0) s t := by
  subst hu
  exact ⟨_, h.exec_pdreq hr hans.kept (by decide) (by decide), power_watched _ _ _, reg_watched_PDREQSTAT _ _ _,
    fun _ he => pdEnds_watched _ he, keeps_of_pdAnswers hans⟩

variable (hb : ¬ (pdBusy s = true ∨ 94 < d.toNat))
include hb

/-- A request that R43 or R45 forbids ends with result 1. -/
theorem PdCmd.forbidden (hf : pdForbids s d.toNat (a == 0) = true) : ∃ t, exec c s = .next t ∧ PdEnds 1 t ∧
    KeepsLog [.power] [ptmKey + Rg.ptm.PDREQSTAT] (putPages .ptm 0) ptmKey s t ∧ domOn t d.toNat = domOn s d.toNat ∧
    (logOf t ptmKey).head? = some ⟨w32 (1 + d.toNat * 2 ^ 8), w32 (d.toNat + a * 2 ^ 8), 0, 0⟩ := by
  obtain ⟨hn, ha⟩ := bits_pdWord d h.lt
  have ht := pdreq_forbidden hn ha hb h.lt hf
  obtain ⟨hk, hlog⟩ := keepsLog_pdDone_ptmLog 1 0x01 d.toNat (d.toNat + a * 2 ^ 8) s (putPages .ptm 0) ptm_mem_putPages
  rw [← ht] at hk hlog
  refine ⟨_, h.exec_pdreq hr hk.1 (by decide) (by decide), pdEnds_watched _ ?_, keepsLog_watched hk (fun _ h => h), ?_, ?_⟩
  · rw [ht]; exact pdEnds_pdDone _ _
  · rw [domOn, power_watched, ht]; rfl
  · rw [logOf_watched, hlog, Nat.mod_eq_of_lt d.isLt]

/-- ON of a domain that is on ends at once. -/
theorem PdCmd.on_on (ha : a = 0) (hf : pdForbids s d.toNat true = false) (ho : domOn s d.toNat = true) :
    ∃ t, exec c s = .next t ∧ PdEnds 0 t ∧ t.power.on = s.power.on ∧
      Keeps [.power] [ptmKey + Rg.ptm.PDREQSTAT] (putPages .ptm 0) s t := by
  obtain ⟨hn, hbits⟩ := bits_pdWord d h.lt
  have ht : pdreq (pdWord d.toNat a) s = pdDone 0 (pdBegun d.toNat a s) := by
    rw [pdreq_begins hn hbits hb h.lt (by rw [ha]; exact hf)]
    exact (if_pos ha).trans (if_pos ho)
  obtain ⟨t, he, hp, -, hends, hk⟩ := h.answers hr ht (pdAnswers_trans (pdAnswers_pdBegun _ _ _) (pdAnswers_pdDone _ _))
  exact ⟨t, he, hends 0 (pdEnds_pdDone _ _), by rw [hp]; rfl, hk⟩

/-- ON of a domain that is off wakes it. -/
theorem PdCmd.on_off (hd : d.toNat < 95) (ha : a = 0) (hf : pdForbids s d.toNat true = false) (ho : domOn s d.toNat = false) :
    ∃ t, exec c s = .next t ∧ t.power.pd = some (d.toNat, 0) ∧ reg t (ptmKey + Rg.ptm.PDREQSTAT) = 1 ∧
      t.power.waking.getLsbD d.toNat = true ∧ Keeps [.power] [ptmKey + Rg.ptm.PDREQSTAT] (putPages .ptm 0) s t := by
  obtain ⟨hn, hbits⟩ := bits_pdWord d h.lt
  have ht : pdreq (pdWord d.toNat a) s =
      { pdBegun d.toNat a s with power := { (pdBegun d.toNat a s).power with waking := putBit s.power.waking d.toNat } } := by
    rw [pdreq_begins hn hbits hb h.lt (by rw [ha]; exact hf)]
    exact (if_pos ha).trans (if_neg (by rw [show domOn (pdBegun d.toNat a s) d.toNat = domOn s d.toNat from rfl, ho]; decide))
  obtain ⟨t, he, hp, hreg, -, hk⟩ := h.answers hr ht (pdAnswers_trans (pdAnswers_pdBegun _ _ _) (pdAnswers_power _ _))
  refine ⟨t, he, by rw [hp, ← ha]; rfl, hreg.trans (reg_pdBegun _ _ _), ?_, hk⟩
  rw [hp]
  exact getLsbD_putBit_same _ hd

/-- SLEEP or SHUT of a domain that is on raises its fence (R421). -/
theorem PdCmd.off_on (hd : d.toNat < 95) (ha : a ≠ 0) (hf : pdForbids s d.toNat false = false) (ho : domOn s d.toNat = true) :
    ∃ t, exec c s = .next t ∧ t.power.pd = some (d.toNat, a) ∧ reg t (ptmKey + Rg.ptm.PDREQSTAT) = 1 ∧
      domFenced t d.toNat = true ∧ domOn t d.toNat = true ∧
      Keeps [.power] [ptmKey + Rg.ptm.PDREQSTAT] (putPages .ptm 0) s t := by
  obtain ⟨hn, hbits⟩ := bits_pdWord d h.lt
  have ht : pdreq (pdWord d.toNat a) s = fenceUp d.toNat (pdBegun d.toNat a s) := by
    rw [pdreq_begins hn hbits hb h.lt (by rw [beq_false_of_ne ha]; exact hf)]
    exact (if_neg ha).trans (if_pos ho)
  obtain ⟨t, he, hp, hreg, -, hk⟩ := h.answers hr ht (pdAnswers_trans (pdAnswers_pdBegun _ _ _) (pdAnswers_fenceUp _ _))
  refine ⟨t, he, by rw [hp]; rfl, hreg.trans (reg_pdBegun _ _ _), ?_, ?_, hk⟩
  · rw [domFenced, hp]; exact getLsbD_putBit_same _ hd
  · rw [domOn, hp]; exact ho

/-- SLEEP or SHUT of a domain that is off sets only whether it sleeps. -/
theorem PdCmd.off_off (hd : d.toNat < 95) (ha : a ≠ 0) (hf : pdForbids s d.toNat false = false) (ho : domOn s d.toNat = false)
    (hw : s.power.waking.getLsbD d.toNat = false) :
    ∃ t, exec c s = .next t ∧ PdEnds 0 t ∧ t.power.sleep.getLsbD d.toNat = (a == 1) ∧ t.power.on = s.power.on ∧
      Keeps [.power] [ptmKey + Rg.ptm.PDREQSTAT] (putPages .ptm 0) s t := by
  obtain ⟨hn, hbits⟩ := bits_pdWord d h.lt
  have ht : pdreq (pdWord d.toNat a) s = pdDone 0 { pdBegun d.toNat a s with power := { (pdBegun d.toNat a s).power with
      sleep := if a = 1 then putBit s.power.sleep d.toNat else clrBit s.power.sleep d.toNat } } := by
    rw [pdreq_begins hn hbits hb h.lt (by rw [beq_false_of_ne ha]; exact hf)]
    refine (if_neg ha).trans ((if_neg ?_).trans (if_neg ?_))
    · rw [show domOn (pdBegun d.toNat a s) d.toNat = domOn s d.toNat from rfl, ho]; decide
    · rw [show (pdBegun d.toNat a s).power.waking = s.power.waking from rfl, hw]; decide
  obtain ⟨t, he, hp, -, hends, hk⟩ := h.answers hr ht
    (pdAnswers_trans (pdAnswers_pdBegun _ _ _) (pdAnswers_trans (pdAnswers_power _ _) (pdAnswers_pdDone _ _)))
  refine ⟨t, he, hends 0 (pdEnds_pdDone _ _), ?_, by rw [hp]; rfl, hk⟩
  rw [hp]
  show (if a = 1 then putBit s.power.sleep d.toNat else clrBit s.power.sleep d.toNat).getLsbD d.toNat = (a == 1)
  by_cases h1 : a = 1
  · rw [if_pos h1, getLsbD_putBit_same _ hd, h1]; rfl
  · rw [if_neg h1, getLsbD_clrBit_same _ hd, beq_false_of_ne h1]

end

end

end Sys2Proof.Machine
end

section
/-! SUPPORT. What RSTREQ, the drain's time limit and a domain's switch-on do (R44, R506-R509). -/

open Sys2Proof.Says

namespace Sys2Proof.Machine

/-! ### A switch-on that a request asked for -/

theorem domainSwitchedOn_idle (d : Fin 95) {s : State} (h : ¬ (s.power.waking.getLsbD d.val = true ∧ s.power.pd = some (d.val, 0))) :
    exec (.domainSwitchedOn d) s = .next s := by
  refine act_of_eq (watched_of_eq _ ?_)
  rw [switchedOn, if_neg]
  rw [Bool.and_eq_true, beq_iff_eq]
  exact h

theorem domainSwitchedOn_ends (d : Fin 95) {s : State} (hw : s.power.waking.getLsbD d.val = true) (hp : s.power.pd = some (d.val, 0)) :
    ∃ t, exec (.domainSwitchedOn d) s = .next t ∧ DomainCameOn d.val s t ∧ PdEnds 0 t := by
  have hf : switchedOn d.val s = pdDone 0 (deliverHeld d.val (domainOn d.val s)) := by
    rw [switchedOn, if_pos (by rw [hw, hp]; simp), wakeEnds_of_on hp]
  refine ⟨_, exec_ptmDo rfl (by rw [hf]; exact kept_deliverHeld d.val s), ?_, pdEnds_watched _ (by rw [hf]; exact pdEnds_pdDone _ _)⟩
  have hon : DomainCameOn d.val s (switchedOn d.val s) := by
    rw [hf]
    exact domainCameOn_congr (domainCameOn_deliverHeld d.isLt s) rfl rfl rfl rfl
  refine domainCameOn_congr hon ?_ ?_ ?_ (net_ptmDo _ s) <;> rw [power_ptmDo]

/-! ### The tile that a reset reaches -/

section
variable (zero : Bool) (u : Fin 64) (s : State)

/-- The parts of the state that a tile's reset changes beside the tile. -/
abbrev tileParts : List Part := [.net, .chans, .stks, .power, .ocast, .regs, .blks]

theorem keepsBut_tileLost : KeepsBut tileParts s (recvLost (dropGrant (orphan (isCpu (.tile u)) s) u) u) :=
  keepsBut_trans (keepsBut_mono (keepsBut_orphan _ s) (by decide))
    (keepsBut_trans (keepsBut_mono (keepsBut_dropGrant _ u) (by decide)) (keepsBut_mono (keepsBut_recvLost _ u) (by decide)))

theorem keepsBut_tileBlksFresh : KeepsBut tileParts s (dropCounts ((tileBlks u).foldl
    (fun s b => setUsed (setRun (dropBlk s b) b .going) b false) s) (.row u)) :=
  keepsBut_trans (keepsBut_foldl _ (fun w b => keepsBut_trans (keepsBut_mono (keepsBut_dropBlk w b) (by decide))
      (keepsBut_trans (keepsBut_mono (keepsBut_setRun _ b _) (by decide)) (keepsBut_mono (keepsBut_setUsed _ b _) (by decide)))) _ s)
    (keepsBut_mono (keepsBut_dropCounts _ _) (by decide))

theorem keepsBut_tileFresh : KeepsBut (.tiles :: tileParts) s (tileFresh zero u s) :=
  keepsBut_trans (keepsBut_mono (keepsBut_tileLost u s) (by decide))
    (keepsBut_trans (keepsBut_mono (keepsBut_updTile _ u _) (by decide)) (keepsBut_mono (keepsBut_tileBlksFresh u _) (by decide)))

theorem tile_tileFresh_ne {v : Fin 64} (h : v ≠ u) : tile (tileFresh zero u s) v = tile s v := by
  unfold tileFresh
  rw [tile_congr ((keepsBut_tileBlksFresh u _).2 .tiles (by decide)), tile_updTile, if_neg h,
    tile_congr ((keepsBut_tileLost u s).2 .tiles (by decide))]

theorem freshTile_freshTile (x : Tile) : freshTile (freshTile x) = freshTile x := rfl

end

theorem keepsBut_updBank (s : State) (t : Fin 64) (g : Fin 4) (f : Bank → Bank) : KeepsBut [.banks] s (updBank s t g f) :=
  ⟨rfl, fun p hp => by cases p <;> simp_all [Part.Same, updBank]⟩

theorem keepsBut_zeroRows (s : State) (t : Fin 64) (g : Fin 4) (n : Nat) : KeepsBut [.scr, .scrChk] s (zeroRows s t g n) := by
  have h : ∀ a b, KeepsBut [.scr, .scrChk] s { s with scr := a, scrChk := b } := fun a b =>
    ⟨rfl, fun p hp => by cases p <;> simp_all [Part.Same]⟩
  exact h _ _

theorem keepsBut_sweepLook (t : Fin 64) (g : Fin 4) (s : State) : KeepsBut [.regs, .frees] s (sweepLook t g s) := by
  unfold sweepLook
  split
  · have h : ∀ (u : State) n, KeepsBut [.frees] u { u with frees := n } := fun u n =>
      ⟨rfl, fun p hp => by cases p <;> simp_all [Part.Same]⟩
    refine keepsBut_trans ?_ (keepsBut_mono (h _ _) (by decide))
    exact keepsBut_mono (keepsBut_setReg s _ _) (by decide)
  · exact keepsBut_refl _ _

theorem keepsBut_sweepCut (t : Fin 64) (g : Fin 4) (s : State) : KeepsBut [.regs, .frees, .scr, .scrChk, .banks] s (sweepCut t g s) := by
  unfold sweepCut
  split
  · exact keepsBut_refl _ _
  · exact keepsBut_trans (keepsBut_mono (keepsBut_sweepLook t g s) (by decide))
      (keepsBut_trans (keepsBut_mono (keepsBut_zeroRows _ t g _) (by decide)) (keepsBut_mono (keepsBut_updBank _ t g _) (by decide)))

theorem keepsBut_groupReset (t : Fin 64) (g : Fin 4) (s : State) :
    KeepsBut [.regs, .frees, .scr, .scrChk, .banks, .logs, .blks] s (groupReset t g s) := by
  refine keepsBut_trans ?_ (keepsBut_mono (keepsBut_setRun _ (.bank t g) _) (by decide))
  refine keepsBut_trans ?_ (keepsBut_mono (keepsBut_dropRegs _ _) (by decide))
  refine keepsBut_trans ?_ (keepsBut_mono (keepsBut_clearLogs _ (.bank t g)) (by decide))
  refine keepsBut_trans ?_ (keepsBut_mono (keepsBut_dropCounts _ (.bank t g)) (by decide))
  exact keepsBut_trans (keepsBut_mono (keepsBut_sweepCut t g s) (by decide)) (keepsBut_mono (keepsBut_updBank _ t g _) (by decide))

/-! ### The blocks of a compute die -/

/-- A reset keeps what makes a block live, and makes of tile `u` what `f` says. -/
structure TileStep (u : Fin 64) (f : Tile → Tile) (s t : State) : Prop where
  fuses : t.fuses = s.fuses
  acc : t.acc = s.acc
  on : t.power.on = s.power.on
  tile : tile t u = f (tile s u)

theorem TileStep.live {u : Fin 64} {f : Tile → Tile} {s t : State} (h : TileStep u f s t) (b : Blk) : live t b = live s b := by
  have hon : blkOn t b = blkOn s b := by unfold blkOn domOn; rw [h.on]
  unfold Machine.live
  rw [absent_congr h.fuses h.acc, hon]

theorem tileStep_of_keeps {u : Fin 64} {ps : List Part} {s t : State} (h : KeepsBut ps s t)
    (hp : ∀ p ∈ [Part.fuses, .acc, .power, .tiles], p ∉ ps) : TileStep u id s t :=
  ⟨h.2 .fuses (hp _ (by decide)), h.2 .acc (hp _ (by decide)), by rw [h.2 .power (hp _ (by decide))],
    tile_congr (h.2 .tiles (hp _ (by decide))) u⟩

theorem tileStep_tileFresh (u t : Fin 64) (s : State) : TileStep u (if t = u then freshTile else id) s (tileFresh true t s) := by
  have hk := keepsBut_tileFresh true t s
  refine ⟨hk.2 .fuses (by decide), hk.2 .acc (by decide), by rw [(calm_tileFresh true t s).power], ?_⟩
  split
  · rename_i h; subst h; exact tile_tileFresh t s
  · rename_i h; exact tile_tileFresh_ne true t s (Ne.symm h)

/-- A block of a tile, or a bank group of its die. -/
def anvilUnit : Blk → Bool
  | .row _ | .seq _ | .vec _ | .acnt _ | .bank _ _ => true
  | _ => false

/-- A die reset makes of a tile a fresh one where it reaches its row. -/
theorem tileStep_dieBlkReset {u : Fin 64} {b : Blk} (hb : anvilUnit b = true) {s : State} (hl : live s (.row u) = true) :
    TileStep u (if b = .row u then freshTile else id) s (dieBlkReset b s) := by
  have hrefl : TileStep u id s s := tileStep_of_keeps (keepsBut_refl [] s) (by decide)
  cases b with
  | row t =>
    unfold dieBlkReset
    by_cases htu : t = u
    · subst htu
      have h := tileStep_tileFresh t t s
      simpa [hl] using h
    · have h := tileStep_tileFresh u t s
      simp only [htu, if_false, Blk.row.injEq] at h ⊢
      split
      · exact hrefl
      · exact h
  | bank t g =>
    have h : TileStep u id s (groupReset t g s) := tileStep_of_keeps (keepsBut_groupReset t g s) (by decide)
    unfold dieBlkReset
    simp only [reduceCtorEq, if_false]
    split
    · exact hrefl
    · exact h
  | seq t => simpa [dieBlkReset] using hrefl
  | vec t => simpa [dieBlkReset] using hrefl
  | acnt t => simpa [dieBlkReset] using hrefl
  | _ => cases hb

/-- A die's blocks reset: a tile whose row is among them is fresh. -/
theorem tileStep_foldl {u : Fin 64} {l : List Blk} (hl : ∀ b ∈ l, anvilUnit b = true) {s : State} (hlive : live s (.row u) = true) :
    TileStep u (if Blk.row u ∈ l then freshTile else id) s (l.foldl (fun s b => dieBlkReset b s) s) := by
  induction l generalizing s with
  | nil => exact tileStep_of_keeps (keepsBut_refl [] s) (by decide)
  | cons b l ih =>
    have h1 := tileStep_dieBlkReset (hl b (by simp)) hlive
    have h2 := ih (fun c hc => hl c (by simp [hc])) ((h1.live _).trans hlive)
    refine ⟨h2.fuses.trans h1.fuses, h2.acc.trans h1.acc, h2.on.trans h1.on, (h2.tile.trans (congrArg _ h1.tile)).trans ?_⟩
    by_cases hb : b = .row u
    · by_cases hm : Blk.row u ∈ l <;> simp [hb, hm, freshTile_freshTile]
    · by_cases hm : Blk.row u ∈ l <;> simp [hb, Ne.symm hb, hm]

theorem anvilUnit_dieBlks (u : Fin 64) : ∀ b ∈ dieBlks (u.val / 16), anvilUnit b = true := by
  intro b hb
  have hk : ∀ u : Fin 64, dieKind (u.val / 16) = .anvil := by decide
  unfold dieBlks at hb
  simp only [hk u, tileBlks, List.mem_flatMap, List.mem_append, List.mem_cons, List.mem_map, List.not_mem_nil, or_false] at hb
  obtain ⟨l, -, (rfl | rfl | rfl | rfl) | ⟨g, -, rfl⟩⟩ := hb <;> rfl

theorem row_mem_dieBlks (u : Fin 64) : Blk.row u ∈ dieBlks (u.val / 16) := by
  have hk : ∀ u : Fin 64, dieKind (u.val / 16) = .anvil := by decide
  have hu : fin 64 (16 * (u.val / 16) + u.val % 16) = u := by rw [Nat.div_add_mod, fin_val]
  unfold dieBlks
  simp only [hk u, List.mem_flatMap, List.mem_append, List.mem_range]
  exact ⟨u.val % 16, by omega, .inl (by rw [hu]; exact List.mem_cons_self)⟩

/-- A die's reset makes its live tiles fresh. -/
theorem tile_dieAssert {u : Fin 64} {s : State} (hl : live s (.row u) = true) :
    tile (dieAssert (u.val / 16) s) u = freshTile (tile s u) := by
  have h0 : TileStep u id s (orphan (srcOnDie (u.val / 16)) (endReset s (u.val / 16))) := by
    have h : KeepsBut [.power, .net, .chans, .stks] s (orphan (srcOnDie (u.val / 16)) (endReset s (u.val / 16))) :=
      keepsBut_trans (keepsBut_mono (keepsBut_endReset s _) (by decide)) (keepsBut_mono (keepsBut_orphan _ _) (by decide))
    exact ⟨h.2 .fuses (by decide), h.2 .acc (by decide), rfl, tile_congr (h.2 .tiles (by decide)) u⟩
  have h1 := tileStep_foldl (anvilUnit_dieBlks u) ((h0.live _).trans hl)
  rw [if_pos (row_mem_dieBlks u)] at h1
  exact h1.tile.trans (congrArg _ h0.tile)

/-! ### The end of a drain -/

/-- No reset of a key is under way. -/
theorem inReset_endReset (s : State) (k : Nat) : (endReset s k).power.inReset.any (fun e => e.1 == k) = false := by
  rw [List.any_eq_false]
  intro e he
  have hne : (!(e.1 == k)) = true := (List.mem_filter.mp he).2
  simpa using hne

theorem inReset_of_calm {s t : State} (h : Calm s t) : t.power.inReset = s.power.inReset := by rw [h.power]

theorem inReset_dieAssert (d : Nat) (s : State) : (dieAssert d s).power.inReset.any (fun e => e.1 == d) = false := by
  rw [inReset_of_calm (calm_dieAssert d s)]
  exact inReset_endReset s d

/-! ### RSTREQ -/

/-- A die that RSTREQ may name has a table that counts its faults. -/
theorem wf_tableDie_of_kind {d : Nat} (hd : d < 128) (h : ¬ (dieKind d = .none ∨ dieKind d = .zenith ∨ dieKind d = .core)) :
    (Blk.ptab (tableDie d)).wf = true := by
  have hall : ∀ d : Fin 128, ¬ (dieKind d = .none ∨ dieKind d = .zenith ∨ dieKind d = .core) → (Blk.ptab (tableDie d)).wf = true := by
    decide
  exact hall ⟨d, hd⟩ h

theorem regBit_setBit {w : W32} {i n : Nat} (h : w.getLsbD i = true) : (setBit w n true).getLsbD i = true := by
  simp only [setBit, if_true, BitVec.getLsbD_or, h, Bool.true_or]

/-- The registers of a die as a partition has a fault. -/
def faultRegs (s : State) (d : Nat) (p : BitVec 4) : State :=
  pulse (setRegBit s (faultKey d) p.toNat true) (Blk.key (.ptab d)) 0

theorem partFault_regs (s : State) (die : Nat) (p : BitVec 4) : partFault s die p =
    { faultRegs s (tableDie die) p with net := { (faultRegs s (tableDie die) p).net with
        events := (faultRegs s (tableDie die) p).net.events ++ [p.toNat] } } := by
  unfold partFault faultRegs faultKey
  rfl

theorem keepsBut_faultRegs (s : State) (d : Nat) (p : BitVec 4) : KeepsBut [.regs] s (faultRegs s d p) :=
  keepsBut_trans (keepsBut_setRegBit _ _ _ _) (keepsBut_pulse _ _ _)

theorem net_faultRegs (s : State) (d : Nat) (p : BitVec 4) : (faultRegs s d p).net = s.net :=
  (keepsBut_faultRegs s d p).2 .net (by decide)

theorem regsBut_faultRegs (s : State) (d : Nat) (p : BitVec 4) :
    RegsBut [faultKey d, Blk.key (.ptab d) + Rg.hdr.EVPEND] s (faultRegs s d p) := by
  unfold faultRegs
  generalize faultKey d = k
  generalize Blk.key (.ptab d) = j
  exact regsBut_trans (regsBut_mono (regsBut_setReg s k _) (by simp)) (regsBut_mono (regsBut_pulse _ j 0) (by simp))

theorem reg_faultRegs (s : State) (d : Nat) (p : BitVec 4) {k : Nat} (h : k % 0x1000 = 0x84) :
    reg (faultRegs s d p) k = if k = faultKey d then setBit (reg s (faultKey d)) p.toNat true else reg s k := by
  have hne : k ≠ Blk.key (.ptab d) + Rg.hdr.EVPEND := fun he => by
    have := key_mod (.ptab d)
    simp only [Rg.hdr.EVPEND] at he
    omega
  rw [faultRegs, reg_pulse, if_neg hne, reg_setRegBit]

theorem calm_faultRegs (s : State) (d : Nat) (p : BitVec 4) : Calm s (faultRegs s d p) := by
  have hk := keepsBut_faultRegs s d p
  refine ⟨⟨hk.1, hk.2 .fuses (by decide), hk.2 .clock (by decide)⟩, by rw [hk.2 .power (by decide)],
    congrArg Net.held (hk.2 .net (by decide)), fun e i _ h => ?_, by rw [logOf, hk.2 .logs (by decide)]; rfl⟩
  rw [regBit, reg_faultRegs s d p (faultKey_mod e)]
  split
  · rename_i he; rw [he] at h; exact regBit_setBit h
  · exact h

theorem calm_partFault (s : State) (die : Nat) (p : BitVec 4) : Calm s (partFault s die p) := by
  rw [partFault_regs]
  exact calm_trans (calm_faultRegs s _ p) (calm_net _ _ rfl)

theorem regBit_partFault (s : State) (die : Nat) (p : BitVec 4) : regBit (partFault s die p) (faultKey (tableDie die)) p.toNat = true := by
  rw [partFault_regs, regBit, reg_net, reg_faultRegs s _ p (faultKey_mod _), if_pos rfl]
  exact getLsbD_setBit_true _ _

/-- Every partition of a list has its fault. -/
theorem regBit_foldl_partFault {d : Nat} (hwf : (Blk.ptab (tableDie d)).wf = true) {p : BitVec 4} (l : List (BitVec 4)) (s : State)
    (hp : p ∈ l) : regBit (l.foldl (fun s p => partFault s d p) s) (faultKey (tableDie d)) p.toNat = true := by
  induction l generalizing s with
  | nil => cases hp
  | cons q l ih =>
    rw [List.foldl_cons]
    rcases List.mem_cons.mp hp with he | hp
    · rw [← he]
      exact (calm_foldl _ (fun u q => calm_partFault u d q) l (partFault s d p)).fault _ _ hwf (regBit_partFault s d p)
    · exact ih (partFault s d q) hp

theorem keepsBut_partFault (s : State) (d : Nat) (p : BitVec 4) : KeepsBut [.regs, .net] s (partFault s d p) := by
  rw [partFault_regs]
  exact keepsBut_trans (keepsBut_mono (keepsBut_faultRegs s _ p) (by decide)) (keepsBut_mono (keepsBut_net _ _) (by decide))

theorem regsBut_partFault (s : State) (d : Nat) (p : BitVec 4) :
    RegsBut [faultKey (tableDie d), Blk.key (.ptab (tableDie d)) + Rg.hdr.EVPEND] s (partFault s d p) := by
  intro k hk
  rw [partFault_regs, reg_net]
  exact regsBut_faultRegs s _ p k hk

theorem outst_partFault (s : State) (d : Nat) (p : BitVec 4) : (partFault s d p).net.outst = s.net.outst := by
  simp only [partFault_regs, net_faultRegs]

/-- The faults of a die's owners, as its reset is asked for. -/
def dieFaults (d : Nat) (s : State) : State := (dieOwners s d).foldl (fun s p => partFault s d p) (beginReset s d)

theorem keepsBut_dieFaults (d : Nat) (s : State) : KeepsBut [.regs, .net, .power] s (dieFaults d s) :=
  keepsBut_trans (keepsBut_mono (keepsBut_power s _) (by decide))
    (keepsBut_foldl _ (fun u p => keepsBut_mono (keepsBut_partFault u d p) (by decide)) _ (beginReset s d))

theorem regsBut_dieFaults (d : Nat) (s : State) :
    RegsBut [faultKey (tableDie d), Blk.key (.ptab (tableDie d)) + Rg.hdr.EVPEND] s (dieFaults d s) :=
  List.foldlRecOn (motive := fun u => RegsBut _ s u) _ _ (fun _ _ => rfl) fun _ hu p _ => regsBut_trans hu (regsBut_partFault _ d p)

theorem regBit_dieFaults {d : Nat} (hwf : (Blk.ptab (tableDie d)).wf = true) {s : State} {p : BitVec 4} (hp : p ∈ dieOwners s d) :
    regBit (dieFaults d s) (faultKey (tableDie d)) p.toNat = true := regBit_foldl_partFault hwf _ _ hp

/-- What a reset waits for is not what a fault changes. -/
theorem outst_dieFaults (d : Nat) (s : State) : (dieFaults d s).net.outst = s.net.outst :=
  List.foldlRecOn (motive := fun u : State => u.net.outst = s.net.outst) (dieOwners s d) _ rfl
    fun u hu p _ => (outst_partFault u d p).trans hu

theorem dieDrained_dieFaults (d : Nat) (s : State) : dieDrained (dieFaults d s) d = dieDrained s d := by
  unfold dieDrained
  rw [outst_dieFaults, (keepsBut_dieFaults d s).2 .ctxs (by decide)]

section
variable {who : Init} {v : W32} {s : State}

theorem dieReset_idle (h : v.getLsbD 8 = false) : dieReset v s = s := by
  unfold dieReset
  dsimp only
  exact if_pos (by rw [h]; rfl)

theorem dieReset_refused (h : v.getLsbD 8 = true)
    (hk : dieKind (bits v 6 0) = .none ∨ dieKind (bits v 6 0) = .zenith ∨ dieKind (bits v 6 0) = .core) :
    dieReset v s = logE s ptmKey (w32 (0x03 + bits v 6 0 * 2 ^ 8)) (w32 Rg.ptm.RSTREQ) := by
  unfold dieReset
  dsimp only
  rw [if_neg (by rw [h]; decide), if_pos hk]
  rfl

theorem dieReset_begins (h : v.getLsbD 8 = true)
    (hk : ¬ (dieKind (bits v 6 0) = .none ∨ dieKind (bits v 6 0) = .zenith ∨ dieKind (bits v 6 0) = .core))
    (hr : resetting s ((dieBlks (bits v 6 0)).headD .ptm) = false) :
    dieReset v s = if dieDrained s (bits v 6 0)
      then watched (diePages (bits v 6 0)) (dieAssert (bits v 6 0)) (dieFaults (bits v 6 0) s) else dieFaults (bits v 6 0) s := by
  rw [← dieDrained_dieFaults]
  unfold dieReset
  dsimp only
  rw [if_neg (by rw [h]; decide), if_neg hk, hr]
  rfl

/-! ### What RSTREQ leaves -/

theorem kept_of_keeps {ps : List Part} {s t : State} (h : KeepsBut ps s t) (hf : Part.fuses ∉ ps) (hc : Part.clock ∉ ps) :
    t.pending = s.pending ∧ t.fuses = s.fuses ∧ t.clock = s.clock := ⟨h.1, h.2 .fuses hf, h.2 .clock hc⟩

/-- A write of RSTREQ that takes effect. -/
theorem exec_dieReset (hr : Reaches who .ptm 0 Rg.ptm.RSTREQ s) {t : State} (ht : dieReset v s = t)
    (hk : t.pending = s.pending ∧ t.fuses = s.fuses ∧ t.clock = s.clock) :
    exec (.dieReset who v) s = .next (watched (putPages .ptm 0) (dieReset v) s) := by
  subst ht
  have hb := blkCmd_RSTREQ v hr
  rw [← hb]
  exact act_of_kept (by rw [hb]; exact kept_watched _ hk)

theorem dieReset_still (hr : Reaches who .ptm 0 Rg.ptm.RSTREQ s) (h : v.getLsbD 8 = false) : Still (.dieReset who v) s :=
  act_of_eq ((blkCmd_RSTREQ v hr).trans (watched_of_eq _ (dieReset_idle h)))

theorem dieReset_logs (hr : Reaches who .ptm 0 Rg.ptm.RSTREQ s) (h : v.getLsbD 8 = true)
    (hk : dieKind (bits v 6 0) = .none ∨ dieKind (bits v 6 0) = .zenith ∨ dieKind (bits v 6 0) = .core) :
    ∃ t, exec (.dieReset who v) s = .next t ∧ KeepsLog [] [] (putPages .ptm 0) ptmKey s t ∧
      (logOf t ptmKey).head? = some ⟨w32 (3 + bits v 6 0 * 2 ^ 8), w32 Rg.ptm.RSTREQ, 0, 0⟩ := by
  have ht := dieReset_refused (s := s) h hk
  obtain ⟨hkeeps, hlog⟩ := keepsLog_logE (putPages .ptm 0) ht
  exact ⟨_, exec_dieReset hr ht (kept_of_keeps (keepsBut_logE _ _ _ _ _ _) (by decide) (by decide)), hkeeps, hlog⟩

theorem mem_tput {α : Type} (k : Nat) (x : α) (t : Tab α) : (k, x) ∈ tput k x t := by
  induction t with
  | nil => simp [tput]
  | cons e t ih =>
    obtain ⟨j, y⟩ := e
    unfold tput
    split
    · simp
    · split
      · simp
      · exact List.mem_cons_of_mem _ ih

theorem power_dieFaults (d : Nat) (s : State) : (dieFaults d s).power = (beginReset s d).power :=
  (keepsBut_foldl _ (fun u p => keepsBut_partFault u d p) _ (beginReset s d)).2 .power (by decide)

/-- A die whose blocks await responses drains first. -/
theorem dieReset_drains {d : Nat} (hr : Reaches who .ptm 0 Rg.ptm.RSTREQ s) (hwf : (Blk.ptab (tableDie d)).wf = true)
    (ht : dieReset v s = dieFaults d s) :
    ∃ t, exec (.dieReset who v) s = .next t ∧ (d, s.clock.now) ∈ t.power.inReset ∧
      (∀ p ∈ dieOwners s d, regBit t (faultKey (tableDie d)) p.toNat = true) ∧
      Keeps [.power, .net] [faultKey (tableDie d)] ((.ptab (tableDie d), 0) :: putPages .ptm 0) s t := by
  have hk := keepsBut_dieFaults d s
  refine ⟨_, exec_dieReset hr ht (kept_of_keeps hk (by decide) (by decide)), ?_, fun p hp => ?_, ?_, fun k hk => ?_⟩
  · rw [power_watched, ht, power_dieFaults]
    exact mem_tput d s.clock.now s.power.inReset
  · exact regBit_settle _ _ (by rw [ht]; exact regBit_dieFaults hwf hp)
  · exact keepsBut_watched_of _ (by rw [ht]; exact keepsBut_mono hk (by decide)) (by decide)
  · simp only [List.cons_append, List.nil_append, evKeys, List.map_cons, List.mem_cons, not_or] at hk
    obtain ⟨hfault, hev, hevs⟩ := hk
    rw [reg_watched _ _ _ _ hevs, ht]
    refine regsBut_dieFaults d s k ?_
    simp only [List.mem_cons, List.not_mem_nil, or_false, not_or]
    exact ⟨hfault, hev⟩

theorem tileStep_dieFaults (u : Fin 64) (d : Nat) (s : State) : TileStep u id s (dieFaults d s) := by
  have hk := keepsBut_dieFaults d s
  exact ⟨hk.2 .fuses (by decide), hk.2 .acc (by decide), by rw [power_dieFaults]; rfl, tile_congr (hk.2 .tiles (by decide)) u⟩

theorem tile_watched (ps : List (Blk × Nat)) (f : State → State) (s : State) (u : Fin 64) : tile (watched ps f s) u = tile (f s) u :=
  tile_congr ((keepsBut_watched ps f s).2 .tiles (by decide)) u

theorem kept_dieAssert (d : Nat) (s : State) : (dieAssert d s).pending = s.pending ∧ (dieAssert d s).fuses = s.fuses ∧
    (dieAssert d s).clock = s.clock := (calm_dieAssert d s).kept

theorem kept_trans {s t u : State} (h1 : t.pending = s.pending ∧ t.fuses = s.fuses ∧ t.clock = s.clock)
    (h2 : u.pending = t.pending ∧ u.fuses = t.fuses ∧ u.clock = t.clock) :
    u.pending = s.pending ∧ u.fuses = s.fuses ∧ u.clock = s.clock := by
  obtain ⟨a, b, c⟩ := h1
  obtain ⟨x, y, z⟩ := h2
  exact ⟨x.trans a, y.trans b, z.trans c⟩

/-- A fault of a partition stays as a die resets. -/
theorem regBit_dieAssert {d e i : Nat} {s : State} (he : (Blk.ptab e).wf = true) (h : regBit s (faultKey e) i = true) :
    regBit (dieAssert d s) (faultKey e) i = true := (calm_dieAssert d s).fault e i he h

/-- A drained die is reset at once. -/
theorem dieReset_resets {d : Nat} (hr : Reaches who .ptm 0 Rg.ptm.RSTREQ s) (hwf : (Blk.ptab (tableDie d)).wf = true)
    (ht : dieReset v s = watched (diePages d) (dieAssert d) (dieFaults d s)) :
    ∃ t, exec (.dieReset who v) s = .next t ∧
      (∀ p ∈ dieOwners s d, regBit t (faultKey (tableDie d)) p.toNat = true) ∧
      (t.power.inReset.any (fun e => e.1 == d)) = false ∧
      ∀ u : Fin 64, d = u.val / 16 → live s (.row u) = true → TileIsFresh u s t := by
  have hkept := kept_watched (diePages d) (kept_dieAssert d (dieFaults d s))
  refine ⟨_, exec_dieReset hr ht (kept_trans (kept_of_keeps (keepsBut_dieFaults d s) (by decide) (by decide)) hkept),
    fun p hp => ?_, ?_, fun u hu hl => ?_⟩
  · refine regBit_settle _ _ ?_
    rw [ht]
    exact regBit_settle _ _ (regBit_dieAssert hwf (regBit_dieFaults hwf hp))
  · rw [power_watched, ht, power_watched]
    exact inReset_dieAssert d _
  · have hstep := tileStep_dieFaults u d s
    subst hu
    rw [TileIsFresh, tile_watched, ht, tile_watched, tile_dieAssert ((hstep.live _).trans hl), hstep.tile]
    rfl

end

/-! ### The drain's time limit -/

/-- The key of a reset in progress. -/
def drainKey (die : BitVec 7) : Option (Fin 64) → Nat
  | some u => 128 + u.val
  | none => die.toNat

/-- The die of a reset in progress. -/
def drainDie (die : BitVec 7) : Option (Fin 64) → Nat
  | some u => u.val / 16
  | none => die.toNat

/-- The entry of a drain that has taken too long. -/
def drainLogged (d : Nat) (s : State) : State := logE s ptmKey (w32 (0x02 + d * 2 ^ 8))

/-- Reset asserts on a tile or on a die. -/
def drainAssert (die : BitVec 7) (u : Option (Fin 64)) (s : State) : State :=
  match u with
  | some t => watched (tilePages t) (tileReset t) s
  | none => watched (diePages die.toNat) (dieAssert die.toNat) s

theorem calm_drainAssert (die : BitVec 7) (u : Option (Fin 64)) (s : State) :
    Calm (endReset s (drainKey die u)) (drainAssert die u s) := by
  cases u with
  | some t => exact calm_trans (t := tileReset t s) (calm_tileFresh true t _) (calm_settled (tilePages t) (tileReset t) s)
  | none => exact calm_trans (calm_dieAssert _ s) (calm_settled (diePages die.toNat) (dieAssert die.toNat) s)

theorem tile_drainAssert (die : BitVec 7) (t : Fin 64) (s : State) : tile (drainAssert die (some t) s) t = freshTile (tile s t) := by
  show tile (watched (tilePages t) (tileReset t) s) t = _
  rw [tile_watched, tileReset, tile_tileFresh, tile_congr ((keepsBut_endReset s _).2 .tiles (by decide))]

section
variable {die : BitVec 7} {u : Option (Fin 64)} {a : BitVec 64} {s : State}
    (h : s.power.inReset.find? (fun e => e.1 == drainKey die u) = some (drainKey die u, a))
include h

theorem drainTimeout_eq : drainTimeout die u s =
    if now s < a.toNat + 1000000 then s else drainAssert die u (drainLogged (drainDie die u) s) := by
  cases u with
  | some t =>
    have h' : s.power.inReset.find? (fun e => e.1 == 128 + t.val) = some (128 + t.val, a) := h
    unfold drainTimeout
    simp only [h']
    rfl
  | none =>
    have h' : s.power.inReset.find? (fun e => e.1 == die.toNat) = some (die.toNat, a) := h
    unfold drainTimeout
    simp only [h']
    rfl

theorem resetDrainTimeout_early (ht : now s < a.toNat + 1000000) : Still (.resetDrainTimeout die u) s :=
  act_of_eq ((drainTimeout_eq h).trans (if_pos ht))

/-- A drain of a millisecond ends, and what it waited for is reset (R507). -/
theorem resetDrainTimeout_late (ht : a.toNat + 1000000 ≤ now s) : ∃ t, exec (.resetDrainTimeout die u) s = .next t ∧
    (t.power.inReset.any (fun e => e.1 == drainKey die u)) = false ∧
    (logOf t ptmKey).head? = some ⟨w32 (2 + drainDie die u * 2 ^ 8), 0, 0, 0⟩ ∧ ∀ v, u = some v → TileIsFresh v s t := by
  have hf : drainTimeout die u s = drainAssert die u (drainLogged (drainDie die u) s) :=
    (drainTimeout_eq h).trans (if_neg (Nat.not_lt.mpr ht))
  have hc := calm_drainAssert die u (drainLogged (drainDie die u) s)
  have hk : KeepsBut [.regs, .logs] s (drainLogged (drainDie die u) s) := keepsBut_logE _ _ _ _ _ _
  have hexec : exec (.resetDrainTimeout die u) s = .next (drainTimeout die u s) :=
    act_of_kept (by rw [hf]; exact kept_trans (kept_of_keeps hk (by decide) (by decide)) hc.kept)
  rw [hf] at hexec
  refine ⟨_, hexec, ?_, ?_, fun v hv => ?_⟩
  · rw [inReset_of_calm hc]
    exact inReset_endReset _ _
  · rw [hc.log]
    exact congrArg List.head? ((logOf_logE s ptmKey _ _ _ _ ptmKey).trans (if_pos rfl))
  · subst hv
    rw [TileIsFresh, tile_drainAssert, tile_congr (hk.2 .tiles (by decide))]
    rfl

end

end Sys2Proof.Machine
end

section
/-! SUPPORT. The answers to PDREQ, as the requests are listed (R43-R45, R510). -/

open Sys2Proof.Says

namespace Sys2Proof.Machine

theorem PdEnds.parts {r : Nat} {t : State} (h : PdEnds r t) : t.power.pd = none ∧
    reg t (ptmKey + Rg.ptm.PDREQSTAT) = w32 (2 * r) ∧ regBit t (ptmKey + Rg.hdr.EVPEND) 0 = true := by
  obtain ⟨hreg, hev, hpd⟩ := h
  exact ⟨hpd, hreg, hev⟩

section
variable {who : Init} {d : BitVec 7} {s : State} (hr : Reaches who .ptm 0 Rg.ptm.PDREQ s)
include hr

theorem pdreq_busyAnswers (hb : pdBusy s = true ∨ 94 < d.toNat) : ∀ i ∈ [Instr.pdreqOn who d, .pdreqSleep who d, .pdreqShut who d],
    ∃ t, exec i s = .next t ∧ KeepsLog [] [] (putPages .ptm 0) ptmKey s t ∧
      (logOf t ptmKey).head? = some ⟨w32 (3 + d.toNat * 2 ^ 8), w32 Rg.ptm.PDREQ, 0, 0⟩ := by
  intro i hi
  simp only [List.mem_cons, List.not_mem_nil, or_false] at hi
  rcases hi with rfl | rfl | rfl
  · exact PdCmd.on.busy hr hb
  · exact PdCmd.sleep.busy hr hb
  · exact PdCmd.shut.busy hr hb

variable (hb : ¬ (pdBusy s = true ∨ 94 < d.toNat))
include hb

theorem pdreq_forbiddenAnswers : ∀ p ∈ [(Instr.pdreqOn who d, 0), (.pdreqSleep who d, 1), (.pdreqShut who d, 2)],
    pdForbids s d.toNat (p.2 == 0) = true → ∃ t, exec p.1 s = .next t ∧
      (t.power.pd = none ∧ reg t (ptmKey + Rg.ptm.PDREQSTAT) = 2 ∧ regBit t (ptmKey + Rg.hdr.EVPEND) 0 = true) ∧
      KeepsLog [.power] [ptmKey + Rg.ptm.PDREQSTAT] (putPages .ptm 0) ptmKey s t ∧ domOn t d.toNat = domOn s d.toNat ∧
      (logOf t ptmKey).head? = some ⟨w32 (1 + d.toNat * 2 ^ 8), w32 (d.toNat + p.2 * 2 ^ 8), 0, 0⟩ := by
  intro p hp hf
  have hc : PdCmd who d p.1 p.2 := by
    simp only [List.mem_cons, List.not_mem_nil, or_false] at hp
    rcases hp with rfl | rfl | rfl
    · exact .on
    · exact .sleep
    · exact .shut
  obtain ⟨t, he, hends, h⟩ := hc.forbidden hr hb hf
  exact ⟨t, he, hends.parts, h⟩

theorem pdreqOn_answers (hf : pdForbids s d.toNat true = false) :
    (domOn s d.toNat = true → ∃ t, exec (.pdreqOn who d) s = .next t ∧
      (t.power.pd = none ∧ reg t (ptmKey + Rg.ptm.PDREQSTAT) = 0 ∧ regBit t (ptmKey + Rg.hdr.EVPEND) 0 = true) ∧
      t.power.on = s.power.on ∧ Keeps [.power] [ptmKey + Rg.ptm.PDREQSTAT] (putPages .ptm 0) s t) ∧
    (domOn s d.toNat = false → ∃ t, exec (.pdreqOn who d) s = .next t ∧ t.power.pd = some (d.toNat, 0) ∧
      reg t (ptmKey + Rg.ptm.PDREQSTAT) = 1 ∧ t.power.waking.getLsbD d.toNat = true ∧
      Keeps [.power] [ptmKey + Rg.ptm.PDREQSTAT] (putPages .ptm 0) s t) := by
  refine ⟨fun ho => ?_, fun ho => PdCmd.on.on_off hr hb (by omega) rfl hf ho⟩
  obtain ⟨t, he, hends, h⟩ := PdCmd.on.on_on hr hb rfl hf ho
  exact ⟨t, he, hends.parts, h⟩

theorem pdreqOff_answers (hf : pdForbids s d.toNat false = false) :
    ∀ p ∈ [(Instr.pdreqSleep who d, 1), (.pdreqShut who d, 2)],
      (domOn s d.toNat = true → ∃ t, exec p.1 s = .next t ∧ t.power.pd = some (d.toNat, p.2) ∧
        reg t (ptmKey + Rg.ptm.PDREQSTAT) = 1 ∧ domFenced t d.toNat = true ∧ domOn t d.toNat = true ∧
        Keeps [.power] [ptmKey + Rg.ptm.PDREQSTAT] (putPages .ptm 0) s t) ∧
      (domOn s d.toNat = false → s.power.waking.getLsbD d.toNat = false → ∃ t, exec p.1 s = .next t ∧
        (t.power.pd = none ∧ reg t (ptmKey + Rg.ptm.PDREQSTAT) = 0 ∧ regBit t (ptmKey + Rg.hdr.EVPEND) 0 = true) ∧
        t.power.sleep.getLsbD d.toNat = (p.2 == 1) ∧ t.power.on = s.power.on ∧
        Keeps [.power] [ptmKey + Rg.ptm.PDREQSTAT] (putPages .ptm 0) s t) := by
  intro p hp
  have hc : PdCmd who d p.1 p.2 ∧ p.2 ≠ 0 := by
    simp only [List.mem_cons, List.not_mem_nil, or_false] at hp
    rcases hp with rfl | rfl
    · exact ⟨.sleep, Nat.succ_ne_zero _⟩
    · exact ⟨.shut, Nat.succ_ne_zero _⟩
  obtain ⟨hc, ha⟩ := hc
  refine ⟨fun ho => hc.off_on hr hb (by omega) ha hf ho, fun ho hw => ?_⟩
  obtain ⟨t, he, hends, h⟩ := hc.off_off hr hb (by omega) ha hf ho hw
  exact ⟨t, he, hends.parts, h⟩

end

end Sys2Proof.Machine
end

section
open Sys2Proof.Says

namespace Sys2Proof.Machine

/-- Settles O31: RSTREQ and PDREQ by the equations of their writes, branch by branch; the faults, the manager's log and its state
    outlive a die's reset because every block's reset leaves them, and a tile's row is reached once by its die's. -/
theorem diesAndDomainsAreResetAndSwitched : Obligations.DiesAndDomainsAreResetAndSwitched := by
  unfold Obligations.DiesAndDomainsAreResetAndSwitched
  intro s
  refine ⟨fun who v hr => ⟨dieReset_still hr, dieReset_logs hr, fun h hk hres => ?_⟩, fun die u a => ?_, fun who d hr => ?_, fun d => ?_⟩
  · have hwf := wf_tableDie_of_kind (by unfold bits; omega) hk
    have ht := dieReset_begins h hk hres
    refine ⟨fun hd => dieReset_drains hr hwf ?_, fun hd => dieReset_resets hr hwf ?_⟩
    · rw [ht, hd]; rfl
    · rw [ht, hd]; rfl
  · intro key e h
    cases u with
    | some u => exact ⟨resetDrainTimeout_early (u := some u) h, resetDrainTimeout_late (u := some u) h⟩
    | none => exact ⟨resetDrainTimeout_early (u := none) h, resetDrainTimeout_late (u := none) h⟩
  · exact ⟨fun hb => pdreq_busyAnswers hr hb, fun hb => ⟨pdreq_forbiddenAnswers hr hb, pdreqOn_answers hr hb, pdreqOff_answers hr hb⟩⟩
  · exact ⟨domainSwitchedOn_idle d, fun ⟨hw, hp⟩ => by
      obtain ⟨t, he, ⟨hon, hf, hwk, -⟩, hreg, -, hpd⟩ := domainSwitchedOn_ends d hw hp
      exact ⟨t, he, hon, hf, hwk, hpd, hreg⟩⟩

end Sys2Proof.Machine
end

section
/-! SUPPORT. What a change within a tile's row comes to as a command: the frame of such changes, and what latching the tile's
    events and settling its stops leaves of a change (R103-R121). -/

open Sys2Proof.Says

namespace Sys2Proof.Machine

/-! ### The frame of the row (R55) -/

/-- A register that a change within a tile's row may write: one of the row, a count of skips, its die's faults, an event. -/
def RowKey (u : Fin 64) (k : Nat) : Prop :=
  inBlk (.row u) k = true ∨ k ∈ [Blk.key (.seq u) + Rg.seq.CMDSKIPL, Blk.key (.seq u) + Rg.seq.SKIPDROP,
    Blk.key (.ptab (u.val / 16)) + Rg.ptab.PTFAULT] ++ evKeys (tilePages u)

theorem rowKey_row (u : Fin 64) {o : Nat} (ho : o < 0x8000) : RowKey u (Blk.key (.row u) + o) :=
  .inl (decide_eq_true ⟨Nat.le_add_right _ _, Nat.add_lt_add_left ho _⟩)

theorem rowKey_event {u : Fin 64} {k : Nat} (h : k ∈ evKeys (tilePages u)) : RowKey u k := .inr (List.mem_append_right _ h)

theorem rowKey_CMDSKIPL (u : Fin 64) : RowKey u (Blk.key (.seq u) + Rg.seq.CMDSKIPL) := .inr (by simp)

theorem rowFrame_refl (u : Fin 64) (s : State) : RowFrame u s s :=
  ⟨fun _ _ _ => rfl, fun _ _ => rfl, fun _ _ _ => rfl, keepsBut_refl _ _, fun _ _ => rfl, rfl⟩

theorem rowFrame_trans {u : Fin 64} {s t w : State} (h1 : RowFrame u s t) (h2 : RowFrame u t w) : RowFrame u s w := by
  obtain ⟨r1, l1, b1, k1, o1, e1⟩ := h1
  obtain ⟨r2, l2, b2, k2, o2, e2⟩ := h2
  exact ⟨fun k hb hk => (r2 k hb hk).trans (r1 k hb hk), fun k hk => (l2 k hk).trans (l1 k hk),
    fun b hb hn => (b2 b hb hn).trans (b1 b hb hn), keepsBut_trans k1 k2, fun v hv => (o2 v hv).trans (o1 v hv),
    e2.trans (by rw [e1])⟩

theorem rowFrame_of_regs {u : Fin 64} {s t : State} {ks : List Nat} (hk : KeepsBut [.regs] s t) (hr : RegsBut ks s t)
    (h : ∀ k ∈ ks, RowKey u k) : RowFrame u s t := by
  have ht := hk.2 .tiles (by decide)
  refine ⟨fun k hb hn => hr k fun hm => ?_, fun k _ => by rw [logOf, hk.2 .logs (by decide)]; rfl,
    fun b _ _ => blkSt_of_keeps hk (by decide) b, keepsBut_mono hk (by decide), fun v _ => tile_congr ht v, by rw [tile_congr ht u]⟩
  rcases h k hm with h | h
  · exact absurd h (by simp [hb])
  · exact hn h

theorem rowFrame_setReg {u : Fin 64} (s : State) {k : Nat} (v : W32) (h : RowKey u k) : RowFrame u s (setReg s k v) :=
  rowFrame_of_regs (keepsBut_setReg s k v) (regsBut_setReg s k v) (by simpa using h)

theorem rowFrame_bump {u : Fin 64} (s : State) {k : Nat} (n : Nat) (h : RowKey u k) : RowFrame u s (bump s k n) :=
  rowFrame_setReg s _ h

theorem rowFrame_pulse {u : Fin 64} (s : State) {p : Blk × Nat} (n : Nat) (h : p ∈ tilePages u) :
    RowFrame u s (pulse s (p.1.keyP p.2) n) :=
  rowFrame_setReg s _ (rowKey_event (List.mem_map_of_mem h))

theorem rowFrame_updTile {u : Fin 64} (s : State) {f : Tile → Tile}
    (h : f (tile s u) = { tile s u with row := (f (tile s u)).row, seq := (f (tile s u)).seq }) :
    RowFrame u s (updTile s u f) := by
  have hk := keepsBut_updTile s u f
  refine ⟨fun k _ _ => reg_congr rfl rfl k, fun _ _ => rfl, fun b _ _ => blkSt_of_keeps hk (by decide) b,
    keepsBut_mono hk (by decide), fun v hv => by rw [tile_updTile, if_neg hv], ?_⟩
  rw [tile_updTile_same]
  exact h

theorem rowFrame_updRow (u : Fin 64) (s : State) (f : Row → Row) : RowFrame u s (updRow s u f) := rowFrame_updTile s rfl

theorem rowFrame_updCpu (u : Fin 64) (s : State) (f : Proc → Proc) : RowFrame u s (updCpu s (.tile u) f) := rowFrame_updTile s rfl

/-- What a request for a start grant changes. -/
theorem rowFrame_power (u : Fin 64) (s : State) (w : Power) : RowFrame u s { s with power := w } :=
  ⟨fun _ _ _ => rfl, fun _ _ => rfl, fun _ _ _ => rfl, keepsBut_mono (keepsBut_power s w) (by decide), fun _ _ => rfl, rfl⟩

/-! ### Reading a row and its processor -/

@[simp] theorem rowOf_updRow (s : State) (u : Fin 64) (f : Row → Row) : rowOf (updRow s u f) u = f (rowOf s u) := by
  rw [rowOf, tile_updRow_same]; rfl

@[simp] theorem cpu_updRow (s : State) (u : Fin 64) (f : Row → Row) : cpu (updRow s u f) (.tile u) = cpu s (.tile u) := by
  rw [cpu, tile_updRow_same]; rfl

@[simp] theorem rowOf_updCpu (s : State) (u : Fin 64) (f : Proc → Proc) : rowOf (updCpu s (.tile u) f) u = rowOf s u := by
  simp only [rowOf, updCpu, tile_setCpu]

theorem rowOf_congr {s t : State} (h : t.tiles = s.tiles) (u : Fin 64) : rowOf t u = rowOf s u :=
  congrArg Tile.row (tile_congr h u)

/-- A row in FAULT exists, is on, and has FAULT as its state. -/
theorem inFault_row (s : State) (u : Fin 64) :
    inFault s (.row u) = (!absent s (.row u) && blkOn s (.row u) && (blkSt s (.row u)).run == .fault) := by
  cases ha : absent s (.row u)
  · cases ho : blkOn s (.row u)
    · simp [inFault, blkState, ha, ho]
    · cases hr : (blkSt s (.row u)).run <;> simp [inFault, blkState, ha, ho, zeroingBlk, faultOf, hr]
      all_goals split <;> decide
  · simp [inFault, blkState, ha]

theorem inFault_row_congr {ps : List Part} {s t : State} (h : KeepsBut ps s t) (hp : ∀ p ∈ ps, p ∉ [Part.fuses, .acc, .power, .blks])
    (u : Fin 64) : inFault t (.row u) = inFault s (.row u) := by
  have hn : ∀ p ∈ [Part.fuses, .acc, .power, .blks], p ∉ ps := fun p hm h' => hp p h' hm
  rw [inFault_row, inFault_row, absent_congr (h.2 .fuses (hn _ (by decide))) (h.2 .acc (hn _ (by decide))),
    blkOn_congr (h.2 .power (hn _ (by decide))), blkSt_of_keeps h (hn .blks (by decide))]

/-- Two changes that make the same row of a tile's are one. -/
theorem updRow_congr {s : State} {u : Fin 64} {f g : Row → Row} (h : f (rowOf s u) = g (rowOf s u)) : updRow s u f = updRow s u g := by
  show setTile s u { tile s u with row := f (rowOf s u) } = setTile s u { tile s u with row := g (rowOf s u) }
  rw [h]

/-! ### A change within a tile as a command -/

theorem blkSt_tileSettle_of_not_mem {u : Fin 64} {b : Blk} (hb : b.wf = true) (h : b ∉ tileBlks u) (s : State) :
    blkSt (tileSettle u s) b = blkSt s b := by
  simp only [tileBlks, List.mem_cons, not_or] at h
  obtain ⟨hrow, hseq, hvec, -⟩ := h
  have hr : blkSt (rowSettle u s) b = blkSt s b := by
    unfold rowSettle; dsimp only; split
    · exact blkSt_setRun_ne s .stopped hb rfl hrow
    · rfl
  have hv : ∀ s, blkSt (vecSettle u s) b = blkSt s b := fun s => by
    unfold vecSettle; split
    · exact blkSt_setRun_ne s .stopped hb rfl hvec
    · rfl
  have hs : ∀ s, blkSt (seqSettle u s) b = blkSt s b := fun s => by
    unfold seqSettle; dsimp only; split
    · exact blkSt_setRun_ne s .stopped hb rfl hseq
    · rfl
  exact (hs _).trans ((hv _).trans hr)

/-- A later state in which the events of a tile's pages have been latched and its stops have taken hold, and nothing else. -/
structure Latched (u : Fin 64) (s t : State) : Prop where
  keeps : KeepsBut [.regs, .blks] s t
  regs : RegsBut (evKeys (tilePages u)) s t
  events : ∀ k i, regBit s k i = true → regBit t k i = true
  stops : ∀ b : Blk, b.wf = true → StopHeld s t b
  others : ∀ b : Blk, b.wf = true → b ∉ tileBlks u → blkSt t b = blkSt s b

theorem latched_tileTo {u : Fin 64} {f : State → State} {s : State} (hi : issues s (.seq u) = true)
    (hk : (f s).pending = s.pending ∧ (f s).fuses = s.fuses ∧ (f s).clock = s.clock) : Latched u (f s) (tileTo u f s) := by
  obtain ⟨hp, hf, hc⟩ := hk
  obtain ⟨keeps, stops, regs⟩ := cpuTo_keeps (.tile u) f s (fun v hv => by cases hv; exact hi) hp hf hc
  have ht : tileTo u f s = settle s (tilePages u) (tileSettle u (f s)) := by
    have h : (watched (tilePages u) (fun s => if issues s (.seq u) then tileSettle u (f s) else s)) s =
        settle s (tilePages u) (tileSettle u (f s)) := by simp only [watched, hi, if_true]
    have := act_of_kept (f := watched (tilePages u) (fun s => if issues s (.seq u) then tileSettle u (f s) else s)) (s := s)
      (by rw [h]; simp [hp, hf, hc])
    rw [act_next] at this
    exact (Host.Outcome.next.inj this).trans h
  refine ⟨keeps, regs, fun k i h => ?_, stops, fun b hb hn => ?_⟩
  · rw [ht]
    exact regBit_settle _ _ (by rw [regBit, reg_congr (tileSettle_regs u _) (tileSettle_fuses u _)]; exact h)
  · rw [ht, blkSt_congr (settle_blks _ _ _), blkSt_tileSettle_of_not_mem hb hn]

/-- A command of a tile whose sequencer issues is its change, with events latched and stops settled. -/
theorem tileAct_latched {u : Fin 64} {f : State → State} {s w : State} (hi : issues s (.seq u) = true) (h : f s = w)
    (hk : w.pending = s.pending ∧ w.fuses = s.fuses ∧ w.clock = s.clock) : ∃ t, tileAct u f s = .next t ∧ Latched u w t := by
  subst h
  exact ⟨_, tileAct_next u f s, latched_tileTo hi hk⟩

section
variable {u : Fin 64} {s t : State}

theorem Latched.tiles (h : Latched u s t) : t.tiles = s.tiles := h.keeps.2 .tiles (by decide)
theorem Latched.row (h : Latched u s t) : rowOf t u = rowOf s u := rowOf_congr h.tiles u
theorem Latched.cpu (h : Latched u s t) : cpu t (.tile u) = Machine.cpu s (.tile u) := congrArg Tile.seq (tile_congr h.tiles u)
theorem Latched.reg (h : Latched u s t) {k : Nat} (hk : k % 0x1000 ≠ 0x20) : reg t k = Machine.reg s k :=
  h.regs k (not_mem_evKeys _ hk)

theorem Latched.rowFrame (h : Latched u s t) : RowFrame u s t :=
  ⟨fun k _ hn => h.regs k fun hm => hn (List.mem_append_right _ hm), fun k _ => by rw [logOf, h.keeps.2 .logs (by decide)]; rfl,
    h.others, keepsBut_mono h.keeps (by decide), fun v _ => tile_congr h.tiles v, by rw [tile_congr h.tiles u]⟩

/-- A block in FAULT stays in it. -/
theorem Latched.fault (h : Latched u s t) {b : Blk} (hb : b.wf = true) (hf : (blkSt s b).run = .fault) : (blkSt t b).run = .fault := by
  rcases h.stops b hb with he | ⟨hs, -⟩
  · rw [he, hf]
  · rw [hf] at hs; cases hs

end

theorem rowFrame_kept {u : Fin 64} {s t : State} (h : RowFrame u s t) : t.pending = s.pending ∧ t.fuses = s.fuses ∧ t.clock = s.clock :=
  have hk := h.2.2.2.1
  ⟨hk.1, hk.2 .fuses (by decide), hk.2 .clock (by decide)⟩

/-- A command that changes within the row's frame answers a state in that frame. -/
theorem tileAct_rowFrame {u : Fin 64} {f : State → State} {s w : State} (hi : issues s (.seq u) = true) (h : f s = w)
    (hf : RowFrame u s w) : ∃ t, tileAct u f s = .next t ∧ Latched u w t ∧ RowFrame u s t := by
  obtain ⟨t, he, hl⟩ := tileAct_latched hi h (rowFrame_kept hf)
  exact ⟨t, he, hl, rowFrame_trans hf hl.rowFrame⟩

end Sys2Proof.Machine
end

section
/-! SUPPORT. Row commands that end: what a completion writes, and when the row's queue moves on (R79, R81, R82, R93, R102). -/

open Sys2Proof.Says

namespace Sys2Proof.Machine

/-! ### Sequencer events and completions (R182, R195) -/

section
variable (u : Fin 64) (s : State)

theorem rowFrame_sev (n : Nat) : RowFrame u s (sev s u n) := rowFrame_updCpu u s _

theorem rowOf_sev (n : Nat) : rowOf (sev s u n) u = rowOf s u := rowOf_updCpu s u _

theorem rowOf_pulse (k n : Nat) : rowOf (pulse s k n) u = rowOf s u := rfl

theorem latch_sev {n : Nat} (hn : n < 32) : (cpu (sev s u n) (.tile u)).sevlatch.getLsbD n = true := by
  have h : (w32 (2 ^ n)).getLsbD n = true := by
    simp only [w32, BitVec.getLsbD_ofNat, Nat.testBit_two_pow_self, Bool.and_true, decide_eq_true hn]
  rw [sev, cpu_updCpu_same, BitVec.getLsbD_or, h, Bool.or_true]

variable (c : Cmd) (n : Nat)

theorem rowFrame_retireSeq : RowFrame u s (retireSeq s u n) := rowFrame_updCpu u s _

theorem rowOf_retireSeq : rowOf (retireSeq s u n) u = rowOf s u := rowOf_updCpu s u _

theorem outst_retireSeq : (cpu (retireSeq s u n) (.tile u)).outst = (cpu s (.tile u)).outst.filter (fun x => x != n) := by
  rw [retireSeq, cpu_updCpu_same]

theorem rowFrame_doneCmd : RowFrame u s (doneCmd s u c n) := by
  unfold doneCmd
  split
  · exact rowFrame_trans (rowFrame_retireSeq u s n) (rowFrame_sev u _ _)
  · exact rowFrame_retireSeq u s n

theorem rowOf_doneCmd : rowOf (doneCmd s u c n) u = rowOf s u := by
  unfold doneCmd
  split
  · exact (rowOf_sev u _ _).trans (rowOf_retireSeq u s n)
  · exact rowOf_retireSeq u s n

theorem outst_doneCmd : (cpu (doneCmd s u c n) (.tile u)).outst = (cpu s (.tile u)).outst.filter (fun x => x != n) := by
  unfold doneCmd
  split
  · rw [sev, cpu_updCpu_same]; exact outst_retireSeq u s n
  · exact outst_retireSeq u s n

theorem hUnit_lt : hUnit c < 8 := Nat.mod_lt _ (by decide)

theorem latch_doneCmd (h : hEvc c = true) : (cpu (doneCmd s u c n) (.tile u)).sevlatch.getLsbD (hUnit c) = true := by
  simp only [doneCmd, h, if_true]
  exact latch_sev u _ (Nat.lt_of_lt_of_le (hUnit_lt c) (by decide))

end

theorem regBit_pulse (s : State) (k : Nat) {n : Nat} (hn : n < 32) : regBit (pulse s k n) (k + Rg.hdr.EVPEND) n = true := by
  have h : (w32 (2 ^ n)).getLsbD n = true := by
    simp only [w32, BitVec.getLsbD_ofNat, Nat.testBit_two_pow_self, Bool.and_true, decide_eq_true hn]
  rw [regBit, reg_pulse, if_pos rfl]
  simp only [setBit, if_true, BitVec.getLsbD_or, h, Bool.or_true]

/-! ### A row command of the sequencer completes (R82) -/

section
variable {u : Fin 64} {s : State} {c : RowCmd}

theorem rowDone_seq (h : c.fabric = none) :
    rowDone s u c = doneCmd (pulseIf (hEvc c.cmd) s (Blk.key (.row u)) 0) u c.cmd c.seqno := by
  unfold rowDone
  rw [h]

theorem rowFrame_pulseRow (b : Bool) : RowFrame u s (pulseIf b s (Blk.key (.row u)) 0) := by
  unfold pulseIf
  split
  · exact rowFrame_pulse s (p := (.row u, 0)) 0 (by simp [tilePages])
  · exact rowFrame_refl u s

theorem cpu_pulseIf (b : Bool) (k n : Nat) (q : Cpu) : cpu (pulseIf b s k n) q = cpu s q := by
  unfold pulseIf
  split <;> rfl

theorem rowOf_pulseIf (b : Bool) (k n : Nat) : rowOf (pulseIf b s k n) u = rowOf s u := by
  unfold pulseIf
  split <;> rfl

theorem rowFrame_rowDone (h : c.fabric = none) : RowFrame u s (rowDone s u c) := by
  rw [rowDone_seq h]
  exact rowFrame_trans (rowFrame_pulseRow _) (rowFrame_doneCmd u _ _ _)

theorem rowOf_rowDone (h : c.fabric = none) : rowOf (rowDone s u c) u = rowOf s u := by
  rw [rowDone_seq h, rowOf_doneCmd, rowOf_pulseIf]

theorem outst_rowDone (h : c.fabric = none) :
    (cpu (rowDone s u c) (.tile u)).outst = (cpu s (.tile u)).outst.filter (fun x => x != c.seqno) := by
  rw [rowDone_seq h, outst_doneCmd, cpu_pulseIf]

theorem latch_rowDone (h : c.fabric = none) (he : hEvc c.cmd = true) :
    (cpu (rowDone s u c) (.tile u)).sevlatch.getLsbD (hUnit c.cmd) = true := by
  rw [rowDone_seq h]
  exact latch_doneCmd u _ _ _ he

theorem regs_doneCmd (s : State) (u : Fin 64) (c : Cmd) (n k : Nat) : reg (doneCmd s u c n) k = reg s k := by
  unfold doneCmd
  split <;> rfl

theorem event_rowDone (h : c.fabric = none) (he : hEvc c.cmd = true) :
    regBit (rowDone s u c) (Blk.key (.row u) + Rg.hdr.EVPEND) 0 = true := by
  rw [rowDone_seq h, regBit, regs_doneCmd, pulseIf, if_pos he]
  exact regBit_pulse s _ (by decide)

/-- What a command of the sequencer that has completed leaves: it is no longer outstanding, and under EVC its event is set
    (R82, R182). -/
def CompletedOf (u : Fin 64) (c : RowCmd) (s t : State) : Prop :=
  (cpu t (.tile u)).outst = (cpu s (.tile u)).outst.filter (fun n => n != c.seqno) ∧
  (c.cmd.hdr.getLsbD 22 = true → regBit t (Blk.key (.row u) + Rg.hdr.EVPEND) 0 = true ∧
    (cpu t (.tile u)).sevlatch.getLsbD (bits c.cmd.hdr 8 6) = true)

theorem completedOf_rowDone {s' : State} (h : c.fabric = none) (hp : cpu s' (.tile u) = cpu s (.tile u)) :
    CompletedOf u c s (rowDone s' u c) :=
  ⟨by rw [outst_rowDone h, hp], fun he => ⟨event_rowDone h he, latch_rowDone h he⟩⟩

theorem CompletedOf.latched {w t : State} (h : CompletedOf u c s w) (hl : Latched u w t) : CompletedOf u c s t := by
  obtain ⟨hout, hev⟩ := h
  refine ⟨by rw [hl.cpu]; exact hout, fun he => ?_⟩
  obtain ⟨hbit, hlatch⟩ := hev he
  exact ⟨hl.events _ _ hbit, by rw [hl.cpu]; exact hlatch⟩

end

/-! ### The queue moves on (R79, R81, R102) -/

section
variable {u : Fin 64} {s : State}

theorem fabAll_of_none (h : (rowOf s u).fabHeld = []) : fabAll u s = s := by
  rw [fabAll, h]; rfl

/-- Nothing starts where no queued command may. -/
theorem rowStart_of_none (h : startable (rowOf s u) [] (rowOf s u).queue = none) (n : Nat) : rowStart u n s = s := by
  cases n with
  | zero => rfl
  | succ n =>
    unfold rowStart
    dsimp only
    split
    · rfl
    · rw [h]

theorem rowPump_of_none (hf : (rowOf s u).fabHeld = []) (h : startable (rowOf s u) [] (rowOf s u).queue = none) : rowPump u s = s := by
  unfold rowPump
  rw [fabAll_of_none hf]
  exact rowStart_of_none h _

theorem rowPump_of_empty (hf : (rowOf s u).fabHeld = []) (hq : (rowOf s u).queue = []) : rowPump u s = s :=
  rowPump_of_none hf (by rw [hq]; rfl)

end

end Sys2Proof.Machine
end

section
/-! A row command that has finished leaves the row, and a held shape is set (O10). -/

open Sys2Proof.Says

namespace Sys2Proof.Machine

section
variable {u : Fin 64} {s : State}

/-- The row without a command of a segment that has finished. -/
def withoutCmd (s : State) (u : Fin 64) (seg : Nat) (c : RowCmd) : State :=
  updRow s u (fun r => { updSeg r seg (fun g => { g with act := accAfter g.act c }) with exec := r.exec.filter (fun x => x.id != c.id) })

theorem rowComplete_finished {seg : Nat} {c : RowCmd} (hc : (rowOf s u).exec.find? (fun c => c.seg == seg) = some c)
    (hfin : finished (rowOf s u) c = true) (hon : tileOn s u = true) (hq : (rowOf s u).queue = []) (hf : (rowOf s u).fabHeld = [])
    (hn : c.fabric = none) : rowComplete u seg s = rowDone (withoutCmd s u seg c) u c := by
  have hrow : rowOf (rowDone (withoutCmd s u seg c) u c) u = rowOf (withoutCmd s u seg c) u := rowOf_rowDone hn
  unfold rowComplete
  simp only [hc, hfin, hon, Bool.and_self, if_true]
  refine rowPump_of_empty ?_ ?_
  · exact (congrArg Row.fabHeld hrow).trans (by rw [withoutCmd, rowOf_updRow]; exact hf)
  · exact (congrArg Row.queue hrow).trans (by rw [withoutCmd, rowOf_updRow]; exact hq)

/-- The row with the shape of a SHAPE that was held, its accumulators 0 and no weights loaded (R93). -/
def shaped (s : State) (u : Fin 64) (c : RowCmd) : State :=
  updRow s u (fun r => { r with
    shape := BitVec.ofNat 2 (bits c.cmd.w1 1 0), queue := [], accv := [], accSeed := none, wts := [],
    segs := (List.range 8).foldl (fun x i => tupd seg0 x i (fun g => { seg0 with acc := g.acc })) r.segs })

theorem shapeApply_held {c : RowCmd} (hq : (rowOf s u).queue = [c]) (hx : (rowOf s u).exec = []) (hop : c.op = .shape)
    (hg : (blkSt s (.row u)).run = .going) (hon : tileOn s u = true) (hf : (rowOf s u).fabHeld = []) (hn : c.fabric = none) :
    shapeApply u s = rowDone (shaped s u c) u c := by
  have hrow : rowOf (rowDone (shaped s u c) u c) u = rowOf (shaped s u c) u := rowOf_rowDone hn
  have hgo : isGoing s (.row u) = true := by rw [isGoing, hg]; rfl
  unfold shapeApply
  simp only [hq, hop, hx, hgo, hon, and_self, if_true]
  refine rowPump_of_empty ?_ ?_
  · exact (congrArg Row.fabHeld hrow).trans (by rw [shaped, rowOf_updRow]; exact hf)
  · exact (congrArg Row.queue hrow).trans (by rw [shaped, rowOf_updRow])

end

/-- Settles O10: a completion is the command's removal and its record as completed; nothing is queued behind that could start. -/
theorem rowCommandsCompleteAndShapesApply : Obligations.RowCommandsCompleteAndShapesApply := by
  unfold Obligations.RowCommandsCompleteAndShapesApply
  intro u s hw hg hf r p out
  obtain ⟨hi, hon, -⟩ := hw
  -- what both commands share: a change of the row, then the completion of the command
  have done : ∀ {g : State → State} {w : Row → Row} {c : RowCmd}, g s = rowDone (updRow s u w) u c → c.fabric = none →
      ∃ t, tileAct u g s = .next t ∧ out c t ∧ rowOf t u = w r := by
    intro g w c h hn
    obtain ⟨t, he, hl, hfr⟩ := tileAct_rowFrame hi h (rowFrame_trans (rowFrame_updRow u s w) (rowFrame_rowDone hn))
    obtain ⟨hout, hev⟩ := (completedOf_rowDone hn (cpu_updRow s u w)).latched hl
    exact ⟨t, he, ⟨hout, hev, hfr⟩, by rw [hl.row, rowOf_rowDone hn, rowOf_updRow]⟩
  refine ⟨fun seg c hq hc hn hadm hit hrows haw => ?_, fun c hq hx hop hn => ?_⟩
  · have hseg : c.seg = seg.val := by simpa using List.find?_some hc
    have hfin : finished r c = true := by simp only [finished, hseg, hadm, hit, hrows, haw, beq_self_eq_true, Bool.and_self]
    obtain ⟨t, he, hout, hrow⟩ := done (rowComplete_finished hc hfin hon hq hf hn) hn
    exact ⟨t, he, hout, by rw [hrow]⟩
  · obtain ⟨t, he, hout, hrow⟩ := done (shapeApply_held hq hx hop hg hon hf hn) hn
    exact ⟨t, he, hout, by rw [hrow], by rw [hrow], fun k => by rw [hrow]; rfl, by rw [hrow]⟩

end Sys2Proof.Machine
end

section
/-! SUPPORT. Items on their way down the lanes, and the weight front (R56, R61, R62, R65, R70, R72). -/

open Sys2Proof.Says

namespace Sys2Proof.Machine

section
variable {u : Fin 64} {s : State}

@[simp] theorem segOf_updSeg_same (r : Row) (i : Nat) (f : Seg → Seg) : segOf (updSeg r i f) i = f (segOf r i) :=
  tget_tupd_same seg0 r.segs i f

/-! ### Accumulators (R61, R68) -/

theorem accAt_accPut (r : Row) (k : Nat) (v : W32) (i : Nat) : accAt (accPut r k v) i = if i = k then v else accAt r i := by
  cases hs : r.accSeed with
  | none =>
    have hb : accBase r = fun _ => 0 := by funext k; rw [accBase, hs]
    have hb' : accBase (accPut r k v) = fun _ => 0 := by funext k; simp only [accBase, accPut, hs]
    rw [accAt, accAt, hb, hb', accPut, hs]
    exact tgetD_tsetD _ _ _ _ _
  | some b =>
    have hb' : accBase (accPut r k v) = accBase r := rfl
    rw [accAt, accAt, hb', accPut, hs]
    exact tgetD_tins _ _ _ _ _

/-! ### An item moves (R56) -/

/-- The items of a segment once the item at a lane has become `it`, or left at the last lane. -/
def itemsAfter (g : Seg) (l lane : Nat) (it : Item) : List Item :=
  if lane + 1 < l then g.items.map (fun x => if x.lane = lane then it else x) else g.items.filter (fun x => x.lane != lane)

theorem items_moveItem (seg l lane : Nat) (it : Item) :
    (segOf (rowOf (moveItem s u seg l lane it) u) seg).items = itemsAfter (segOf (rowOf s u) seg) l lane it := by
  rw [moveItem, rowOf_updRow, segOf_updSeg_same]
  rfl

theorem accAt_moveItem (seg l lane : Nat) (it : Item) (k : Nat) :
    accAt (rowOf (moveItem s u seg l lane it) u) k = accAt (rowOf s u) k := by
  rw [moveItem, rowOf_updRow]; rfl

/-- Nothing keeps an item from its next lane: the row works, and that lane is free. -/
theorem laneFree {seg lane : Nat} (hon : tileOn s u = true) (hfl : inFault s (.row u) = false)
    (hl : lane < shapeL (rowOf s u).shape) (hfree : (segOf (rowOf s u) seg).items.all (fun x => x.lane != lane + 1) = true) :
    (!tileOn s u || inFault s (.row u) || decide (shapeL (rowOf s u).shape ≤ lane) ||
      (segOf (rowOf s u) seg).items.any (fun x => x.lane == lane + 1)) = false := by
  have hany : (segOf (rowOf s u) seg).items.any (fun x => x.lane == lane + 1) = false := by
    rw [List.any_eq_not_all_not]
    simpa using hfree
  simp [hon, hfl, hany, hl]

section
variable {seg lane : Nat} {it : Item}
  (hit : (segOf (rowOf s u) seg).items.find? (fun x => x.lane == lane) = some it)
  (hfree : (!tileOn s u || inFault s (.row u) || decide (shapeL (rowOf s u).shape ≤ lane) ||
    (segOf (rowOf s u) seg).items.any (fun x => x.lane == lane + 1)) = false)
include hit hfree

theorem laneProcess_null (hk : it.kind = .null) :
    laneProcess u seg lane s = moveItem s u seg (shapeL (rowOf s u).shape) lane { it with lane := lane + 1 } := by
  unfold laneProcess
  simp only [hit, hfree, hk, if_true]
  rfl

/-- A token whose pass keeps the weights and emits nothing is moved on and met by the lane. -/
theorem laneProcess_token {c : RowCmd} {j : Nat} (hk : it.kind = .token j) (hc : execCmd (rowOf s u) it.cmd = some c)
    (hkeep : pKeepw c.cmd = true) (hem : c.emits = []) :
    laneProcess u seg lane s =
      laneToken (moveItem s u seg (shapeL (rowOf s u).shape) lane { it with lane := lane + 1 }) u c
        (shapeL (rowOf s u).shape) lane j it := by
  have hb : bringsWeights c it.kind = false := by
    rw [hk]
    cases j with
    | zero => simp only [bringsWeights, hkeep, Bool.not_true]
    | succ j => rfl
  have hv : viaHeld (rowOf s u) c it.kind = false := by simp [viaHeld, hk, emitRec, hem]
  have ho : argOffer s u c lane it = it := by simp only [argOffer, hk]
  have hn : it.kind ≠ .null := by rw [hk]; exact ItemK.noConfusion
  unfold laneProcess
  simp only [hit, hfree, hn, hc, hb, hv, Bool.false_eq_true, if_false, ho]
  simp only [hk]

end

/-- What a token leaves in its entry at a lane: its group sum, alone or added (R61, R62, R65). -/
def tokenAcc (r : Row) (c : RowCmd) (l lane j : Nat) (it : Item) : W32 :=
  let sum := groupOf r.compat (hSat c.cmd) c.fmt (tget [] r.wts (c.seg * l + lane)) it.tok it.dec
  if pOpen c.cmd then sum
  else accAdd (rowInt c.fmt) (hSat c.cmd) (accAt r ((c.seg * l + lane) * 256 + (pA c.cmd + j))) sum

theorem tokenAcc_moveItem (seg n : Nat) (jt : Item) (c : RowCmd) (l lane j : Nat) (it : Item) :
    tokenAcc (rowOf (moveItem s u seg n lane jt) u) c l lane j it = tokenAcc (rowOf s u) c l lane j it := by
  rw [moveItem, rowOf_updRow]; rfl

theorem laneToken_silent {c : RowCmd} (l lane j : Nat) (it : Item) (hem : c.emits = []) (hfl : inFault s (.row u) = false) :
    laneToken s u c l lane j it =
      updRow s u (fun r => accPut r ((c.seg * l + lane) * 256 + (pA c.cmd + j)) (tokenAcc (rowOf s u) c l lane j it)) := by
  unfold laneToken
  simp only [hem, List.find?_nil, hfl]
  rfl

end

/-! ### Weights (R70, R72) -/

theorem weightArrive_delivers {u : Fin 64} {s : State} {seg lane : Nat} {c : RowCmd} (hon : tileOn s u = true)
    (hfl : inFault s (.row u) = false) (hl : lane < shapeL (rowOf s u).shape) (hc : wantsWeights (rowOf s u) seg lane = some c)
    (hm : (memRead s (tileInit s u) (wgtAt c.cmd lane) 136).rsn = 0) :
    weightArrive u seg lane s = updRow (memRead s (tileInit s u) (wgtAt c.cmd lane) 136).st u (fun r => updSeg r seg (fun g =>
      { g with inw := tset [] g.inw (c.id * 512 + lane) (memRead s (tileInit s u) (wgtAt c.cmd lane) 136).data })) := by
  have hg : (!tileOn s u || inFault s (.row u) || decide (shapeL (rowOf s u).shape ≤ lane)) = false := by simp [hon, hfl, hl]
  unfold weightArrive
  simp only [hg, hc, hm, Bool.false_eq_true, if_false, ne_eq, not_true_eq_false]

theorem tiles_tileTo {u : Fin 64} {f : State → State} {s : State} (hi : issues s (.seq u) = true) :
    (tileTo u f s).tiles = (f s).tiles := by
  show (watched (tilePages u) _ s).tiles = _
  rw [watched_tiles, if_pos hi, tileSettle_tiles]

end Sys2Proof.Machine
end

section
/-! Items pass the lanes, and weight records are delivered (O9). -/

open Sys2Proof.Says

namespace Sys2Proof.Machine

/-- Settles O9: an item that nothing holds is moved, a token is then met by its lane, and a record is read whole and listed. -/
theorem lanesProcessItemsAndTakeWeights : Obligations.LanesProcessItemsAndTakeWeights := by
  unfold Obligations.LanesProcessItemsAndTakeWeights
  intro u s seg lane hw r l g hl
  obtain ⟨hi, hon, hfl⟩ := hw
  refine ⟨fun it hit hall => ?_, fun c hc hm => ?_⟩
  · have hfree := laneFree hon hfl hl hall
    intro moved
    have hmoved : ∀ t, rowOf t u = rowOf (moveItem s u seg l lane { it with lane := lane + 1 }) u → moved t := fun t h =>
      (congrArg (fun r => (segOf r seg).items) h).trans (items_moveItem _ _ _ _)
    refine ⟨fun hk => ?_, fun c j hk hc hseg hop hkeep hem => ?_⟩
    · obtain ⟨t, he, hlt, hf⟩ := tileAct_rowFrame hi (laneProcess_null hit hfree hk) (rowFrame_updRow u s _)
      exact ⟨t, he, hmoved t hlt.row, hf⟩
    · have hproc := laneProcess_token hit hfree hk hc hkeep hem
      have hfl' : inFault (moveItem s u seg l lane { it with lane := lane + 1 }) (.row u) = false :=
        (inFault_row_congr (keepsBut_updTile s u _) (by decide) u).trans hfl
      rw [laneToken_silent _ _ _ _ hem hfl', tokenAcc_moveItem] at hproc
      obtain ⟨t, he, hlt, hf⟩ := tileAct_rowFrame hi hproc (rowFrame_trans (rowFrame_updRow u s _) (rowFrame_updRow u _ _))
      have hrow := hlt.row.trans (rowOf_updRow _ _ _)
      refine ⟨t, he, (congrArg (fun r => (segOf r seg).items) hrow).trans (hmoved _ rfl), hf, fun k => ?_⟩
      rw [hrow, accAt_accPut, accAt_moveItem, tokenAcc, hseg]
      rfl
  · refine ⟨_, tileAct_next u _ s, ?_⟩
    rw [rowOf_congr (tiles_tileTo hi), weightArrive_delivers hon hfl hl hc hm, rowOf_updRow, segOf_updSeg_same]
    exact tget_tset_same _ _ _ _

end Sys2Proof.Machine
end

section
/-! A read of DBGDATA that selects TBLO changes the processor of its tile (O16). -/

open Sys2Proof.Says

namespace Sys2Proof.Machine

/-- The module in READY at time 2^32 of the timebase, every domain on, tile 0 idle with its DBGADDR at control register TBLO. -/
def debugsTimebase : State :=
  setReg { State.reset with
    power := { power0 with mst := .ready, on := BitVec.allOnes 95 }, pins := { pins0 with mrstLow := false },
    clock := { State.reset.clock with now := 2 ^ 32 } } (Blk.key (.seq 0) + Rg.seq.DBGADDR) (w32 0x30000010)

/-- The debug read is permitted in that state. -/
theorem debugsTimebase_reads : regCheck debugsTimebase coreInit (.seq 0) 2 0x84 false = some 0 ∧
    absent debugsTimebase (.seq 0) = false ∧ dbgOpen debugsTimebase 0 = true := by decide +kernel

/-- It latches TBHI of the tile's processor with the high word of the time (R176). -/
theorem debugsTimebase_latches : ∀ t, exec (.dbgdataRead coreInit 0) debugsTimebase = .next t →
    (cpu t (.tile 0)).tbhi ≠ (cpu debugsTimebase (.tile 0)).tbhi := by
  have h : (match exec (.dbgdataRead coreInit 0) debugsTimebase with
    | .next t => (cpu t (.tile 0)).tbhi != (cpu debugsTimebase (.tile 0)).tbhi
    | _ => false) = true := by decide +kernel
  intro t ht
  rw [ht] at h
  simpa using h

/-- Refutes O16: a read of DBGDATA at SEL 3 and INDEX 0x10 latches TBHI (R176, R206), so it does not leave all but registers
    unchanged. -/
theorem not_tileRegistersAct : ¬ Obligations.TileRegistersAct := by
  unfold Obligations.TileRegistersAct
  intro h
  obtain ⟨-, -, -, -, hread, -⟩ := h 0 coreInit 0 debugsTimebase
  obtain ⟨hcheck, habsent, hopen⟩ := debugsTimebase_reads
  obtain ⟨t, he, -, hkeeps, -⟩ := hread hcheck habsent hopen
  exact debugsTimebase_latches t he (congrArg (fun x => x.seq.tbhi) (tile_congr (hkeeps.2 .tiles (by decide)) 0))

end Sys2Proof.Machine
end

section
/-! SUPPORT. The ramp's slots, its grants, and the rates shown (R103-R107, R517). -/

open Sys2Proof.Says

namespace Sys2Proof.Machine

theorem key_add_mod (b : Blk) (o : Nat) : (b.key + o) % 0x1000 = o % 0x1000 := by
  have := key_mod b
  omega

/-! ### Slots of the ramp (R103, R104) -/

section
variable {u : Fin 64} {s : State}

/-- Nothing keeps a slot from the row: it is on and not in FAULT. -/
theorem rowSlotOpen (hon : tileOn s u = true) (hfl : inFault s (.row u) = false) : (!tileOn s u || inFault s (.row u)) = false := by
  simp [hon, hfl]

/-- The row after a slot in which it asked for a start and slipped. -/
def asksGrant (s : State) (u : Fin 64) : State :=
  let s := bump s (Blk.key (.row u) + Rg.row.SLIPRAMP)
  updRow { s with power := { s.power with grantQ := s.power.grantQ ++ [u] } } u (fun r => { r with grantWait := true })

theorem rampSlot_asks {late : List (Fin 8 × Late)} (hon : tileOn s u = true) (hfl : inFault s (.row u) = false)
    (hl : (rowOf s u).level = 0) (hg : (rowOf s u).granted = false) (hw : hasWork (rowOf s u) = true)
    (hn : (rowOf s u).grantWait = false) : rampSlot u late s = asksGrant s u := by
  unfold rampSlot
  simp only [rowSlotOpen hon hfl, hl, hw, hg, hn, Bool.false_eq_true, if_false, ne_eq, not_true_eq_false, Bool.not_true]
  rfl

theorem rowFrame_asksGrant : RowFrame u s (asksGrant s u) :=
  rowFrame_trans (rowFrame_bump s 1 (rowKey_row u (by decide)))
    (rowFrame_trans (rowFrame_power u _ _) (rowFrame_updRow u _ _))

theorem rowOf_power (w : Power) : rowOf { s with power := w } u = rowOf s u := rfl

theorem rowOf_asksGrant : rowOf (asksGrant s u) u = { rowOf s u with grantWait := true } := by
  rw [asksGrant, rowOf_updRow, rowOf_power, rowOf_congr (bump_tiles ..) u]

theorem power_asksGrant : (asksGrant s u).power.grantQ = s.power.grantQ ++ [u] := by
  simp only [asksGrant, updRow_power, bump_power]

theorem reg_asksGrant : reg (asksGrant s u) (Blk.key (.row u) + Rg.row.SLIPRAMP) = satAdd (reg s (Blk.key (.row u) + Rg.row.SLIPRAMP)) 1 :=
  calc reg (asksGrant s u) _ = reg (bump s (Blk.key (.row u) + Rg.row.SLIPRAMP)) _ :=
      reg_congr (by simp [asksGrant]) (by simp [asksGrant]) _
    _ = _ := by rw [reg_bump, if_pos rfl]

theorem rampSlot_rests {late : List (Fin 8 × Late)} (hl : (rowOf s u).level = 0) (hw : hasWork (rowOf s u) = false) :
    rampSlot u late s = s := by
  unfold rampSlot
  simp only [hl, hw, ne_eq, not_true_eq_false, if_false, Bool.not_false, if_true, ite_self]

/-- The row after a slot above level 0 that filled no credit and ended no step. -/
def credited (s : State) (u : Fin 64) : State :=
  updRow s u (fun r => { r with credit := r.credit + r.level, steps := r.steps + 1 })

theorem rampSlot_credits {late : List (Fin 8 × Late)} (hon : tileOn s u = true) (hfl : inFault s (.row u) = false)
    (hl : (rowOf s u).level ≠ 0) (hc : (rowOf s u).credit + (rowOf s u).level < 8) (hs : (rowOf s u).steps + 1 ≠ rampN s u / 8)
    (hq : (rowOf s u).queue = []) (hh : (rowOf s u).fabHeld = []) :
    ∃ s', rampSlot u late s = s' ∧ rowOf s' u = rowOf (credited s u) u ∧ RowFrame u s s' := by
  let f : Row → Row := fun r => { r with credit := r.credit + r.level }
  have hfull : ¬ 8 ≤ (rowOf s u).credit + (rowOf s u).level := by omega
  have hin : inFault (updRow s u f) (.row u) = false := (inFault_row_congr (keepsBut_updTile s u _) (by decide) u).trans hfl
  have hp : rowPump u (updRow s u f) = updRow s u f := rowPump_of_empty (by rw [rowOf_updRow]; exact hh) (by rw [rowOf_updRow]; exact hq)
  have hstep : ((rowOf s u).steps + 1 == rampN (updRow s u f) u / 8) = false := beq_eq_false_iff_ne.mpr hs
  refine ⟨updRow (updRow s u f) u (fun r => { r with steps := r.steps + 1 }), ?_, ?_, ?_⟩
  · unfold rampSlot rampStep
    simp only [rowSlotOpen hon hfl, hl, hfull, Bool.false_eq_true, if_false, ne_eq, not_false_eq_true, if_true]
    simp only [show (fun r : Row => { r with credit := r.credit + r.level }) = f from rfl, hin, hp, hstep, Bool.false_eq_true, if_false]
  · simp only [credited, rowOf_updRow]; rfl
  · exact rowFrame_trans (rowFrame_updRow u s _) (rowFrame_updRow u _ _)

end

/-! ### Grants and rates (R106, R517) -/

theorem startGrant_first {u : Fin 64} {rest : List (Fin 64)} {s : State} (hq : s.power.grantQ = u :: rest)
    (hg : ∀ x, s.power.lastGrant = some x → x.toNat + regN s (Blk.key .ptm + Rg.ptm.GRANTGAP) ≤ s.clock.now.toNat) :
    startGrant s = updRow { s with power := { s.power with grantQ := rest, lastGrant := some s.clock.now } } u
      (fun r => { r with granted := true }) := by
  unfold startGrant
  simp only [hq]
  cases hl : s.power.lastGrant with
  | none => rfl
  | some x => exact if_pos (decide_eq_true (hg x hl))

theorem rateEnd_on {u : Fin 64} {rate : BitVec 16} {s : State} (hon : domOn s u.val = true) :
    rateEnd u rate s = updReg (setReg s (Blk.key (.row u) + Rg.row.RATECUR) (rate.setWidth 32)) (Blk.key (.row u) + Rg.row.RATEMIN)
      (fun v => w32 (min v.toNat rate.toNat)) := by
  simp only [rateEnd, hon, Bool.not_true, Bool.false_eq_true, if_false]

theorem rampGrantsAndRates : RampGrantsAndRates := by
  refine ⟨fun u s late hw => ?_, fun u rest s hq hg => ?_, fun u rate s hon => ?_⟩
  · obtain ⟨hi, hon, hfl⟩ := hw
    refine ⟨fun hl hg hwork hn => ?_, fun hl hwork => ?_, fun hl hc hs hq hh => ?_⟩
    · obtain ⟨t, he, hlt, hf⟩ := tileAct_rowFrame hi (rampSlot_asks (late := late) hon hfl hl hg hwork hn) rowFrame_asksGrant
      refine ⟨t, he, ?_, ?_, ?_, hf⟩
      · rw [hlt.row, rowOf_asksGrant]
      · rw [hlt.keeps.2 .power (by decide), power_asksGrant]
      · rw [hlt.reg (by rw [key_add_mod]; decide), reg_asksGrant]
    · obtain ⟨t, he, hlt, hf⟩ := tileAct_rowFrame hi (rampSlot_rests (late := late) hl hwork) (rowFrame_refl u s)
      exact ⟨t, he, hlt.row, hf⟩
    · obtain ⟨w, hslot, hrow, hwf⟩ := rampSlot_credits (late := late) hon hfl hl hc hs hq hh
      obtain ⟨t, he, hlt, hf⟩ := tileAct_rowFrame hi hslot hwf
      exact ⟨t, he, by rw [hlt.row, hrow, credited, rowOf_updRow], hf⟩
  · have hk : KeepsBut [.power, .tiles] s (startGrant s) := by
      rw [startGrant_first hq hg]
      exact keepsBut_trans (keepsBut_mono (keepsBut_power s _) (by decide)) (keepsBut_mono (keepsBut_updTile _ u _) (by decide))
    refine ⟨_, act_of_keeps hk (by decide) (by decide), ?_, ?_, hk⟩ <;> rw [startGrant_first hq hg]
    · rfl
    · rw [rowOf_updRow]; rfl
  · intro k
    have hne : k + Rg.row.RATECUR ≠ k + Rg.row.RATEMIN := by simp only [Rg.row.RATECUR, Rg.row.RATEMIN]; omega
    have hk : KeepsBut [.regs, .blks] s (rateEnd u rate s) := by
      rw [rateEnd_on hon]
      exact keepsBut_mono (keepsBut_trans (keepsBut_setReg s _ _) (keepsBut_setReg _ _ _)) (by decide)
    have hr : RegsBut [k + Rg.row.RATECUR, k + Rg.row.RATEMIN] s (rateEnd u rate s) := by
      rw [rateEnd_on hon]
      exact regsBut_trans (regsBut_mono (regsBut_setReg s _ _) (by simp [k])) (regsBut_mono (regsBut_setReg _ _ _) (by simp [k]))
    refine ⟨_, act_watched (tilePages u) hk (by decide) (by decide) (by decide), ?_, ?_, keepsBut_watched_of _ hk (by decide),
      regsBut_watched_of _ hr⟩ <;> rw [reg_watched_off _ _ _ (by rw [key_add_mod]; decide), rateEnd_on hon, reg_updReg]
    · rw [if_neg hne, reg_setReg_same]
    · rw [if_pos rfl, reg_setReg_ne _ _ hne.symm, w32, BitVec.toNat_ofNat, Nat.mod_eq_of_lt]
      · rfl
      · exact Nat.lt_of_le_of_lt (Nat.min_le_left _ _) (BitVec.isLt _)

end Sys2Proof.Machine
end

section
/-! SUPPORT. The row enters FAULT, and beats pass its extension ports (R96-R102, R110). -/

open Sys2Proof.Says

namespace Sys2Proof.Machine

/-! ### The row enters FAULT (R110) -/

theorem tget_foldl_tupd {α : Type} [DecidableEq α] {d : α} {f : α → α} {p : α → Prop} (hf : ∀ x, p (f x)) {i : Nat}
    (l : List Nat) (t : Tab α) (h : i ∈ l ∨ p (tget d t i)) : p (tget d (l.foldl (fun t j => tupd d t j f) t) i) := by
  induction l generalizing t with
  | nil => exact h.resolve_left List.not_mem_nil
  | cons j l ih =>
    refine ih _ ?_
    rw [tget_tupd]
    split
    · exact .inr (hf _)
    · next hne => exact h.imp_left fun hm => (List.mem_cons.mp hm).resolve_left hne

/-- What becomes of each segment of a row whose commands are abandoned. -/
def abandonSeg (g : Seg) : Seg := { seg0 with acc := g.act, act := g.act }

theorem segs_abandonSegs (r : Row) :
    ∃ x, (abandonSegs r).segs = (List.range 8).foldl (fun t i => tupd seg0 t i abandonSeg) x := by
  simp only [abandonSegs]
  exact ⟨_, rfl⟩

theorem segs_dropItems (kept : List Beat) (r : Row) : (dropItems kept r).segs = r.segs := rfl

theorem items_dropped (r : Row) {i : Nat} (hi : i < 8) : (segOf (dropItems [] (abandonSegs r)) i).items = [] := by
  obtain ⟨x, hx⟩ := segs_abandonSegs r
  rw [segOf, segs_dropItems, hx]
  exact tget_foldl_tupd (d := seg0) (f := abandonSeg) (p := fun g : Seg => g.items = []) (fun _ => rfl) (List.range 8) x
    (.inl (List.mem_range.mpr hi))

/-- The row that a fault leaves: every accumulator undefined, no command, no item, no request for a start. -/
def cleared (s : State) (u : Fin 64) : State := dropGrant (updRow (undefAccs s u) u (fun r => dropItems [] (abandonSegs r))) u

/-- The log entry of a row's fault. -/
def faultEnt (code seg : Nat) (src : W32) (a lane : Nat) : LogEnt :=
  ⟨w32 (code + seg * 2 ^ 8), src, w32 a, w32 (a / 2 ^ 32 % 2 ^ 16 + lane * 2 ^ 16)⟩

def logEnt (s : State) (page : Nat) (e : LogEnt) : State := logE s page e.w0 e.w1 e.w2 e.w3

theorem rowFault_eq (s : State) (u : Fin 64) (code seg : Nat) (src : W32) (a lane : Nat) :
    rowFault s u code seg src a lane =
      faultBlk (cleared (logEnt s (Blk.key (.row u)) (faultEnt code seg src a lane)) u) (.row u) := rfl

section
variable (s : State) (u : Fin 64)

theorem keepsBut_undefAccs : KeepsBut [.frees, .tiles] s (undefAccs s u) :=
  keepsBut_trans (t := { s with frees := s.frees + 512 * 256 }) ⟨rfl, fun p hp => by cases p <;> simp_all [Part.Same]⟩
    (keepsBut_mono (keepsBut_updTile _ u _) (by decide))

theorem keepsBut_cleared : KeepsBut [.frees, .tiles, .power] s (cleared s u) :=
  keepsBut_trans (keepsBut_mono (keepsBut_undefAccs s u) (by decide))
    (keepsBut_trans (keepsBut_mono (keepsBut_updTile _ u _) (by decide)) (keepsBut_mono (keepsBut_dropGrant _ u) (by decide)))

theorem tiles_cleared : (cleared s u).tiles = (updRow (undefAccs s u) u (fun r => dropItems [] (abandonSegs r))).tiles := rfl

theorem tile_cleared {v : Fin 64} (hv : v ≠ u) : tile (cleared s u) v = tile s v := by
  rw [tile_congr (tiles_cleared s u), tile_updRow, if_neg hv, undefAccs, tile_updRow, if_neg hv]
  rfl

theorem rowOf_cleared : rowOf (cleared s u) u = dropItems [] (abandonSegs (rowOf (undefAccs s u) u)) := by
  rw [rowOf_congr (tiles_cleared s u), rowOf_updRow]

theorem keepsBut_faultBlk (b : Blk) : KeepsBut [.regs, .net, .blks] s (faultBlk s b) :=
  keepsBut_trans (keepsBut_mono (keepsBut_setRun s b .fault) (by decide)) (keepsBut_mono (keepsBut_partFault _ _ _) (by decide))

theorem run_faultBlk {b : Blk} (hb : b.wf = true) : (blkSt (faultBlk s b) b).run = .fault := by
  rw [faultBlk, blkSt_of_keeps (keepsBut_partFault _ _ _) (by decide), blkSt_setRun s hb hb, if_pos rfl]

theorem reg_faultBlk (b : Blk) {k : Nat} (he : k % 0x1000 ≠ 0x20) (hp : k % 0x1000 ≠ 0x84) : reg (faultBlk s b) k = reg s k := by
  have hk : k ∉ [faultKey (tableDie b.die), Blk.key (.ptab (tableDie b.die)) + Rg.hdr.EVPEND] := by
    simp only [List.mem_cons, List.not_mem_nil, or_false, not_or]
    exact ⟨fun h => hp (by rw [h, faultKey_mod]), fun h => he (by rw [h, key_add_mod]; rfl)⟩
  rw [faultBlk, regsBut_partFault _ _ _ k hk]
  exact reg_congr (setRun_regs ..) (setRun_fuses ..) k

variable (e : LogEnt)

theorem logOf_logEnt (page : Nat) : (logOf (logEnt s page e) page).head? = some e := by
  rw [logEnt, logOf_logE, if_pos rfl]
  rfl

theorem tiles_logEnt (page : Nat) : (logEnt s page e).tiles = s.tiles := by rw [logEnt, logE_tiles]

theorem reg_logEnt (page : Nat) {k : Nat} (h : k ≠ page + Rg.hdr.ERRCNT) : reg (logEnt s page e) k = reg s k := by
  rw [logEnt, logE, reg_bump, if_neg h]
  exact reg_congr rfl rfl k

end

section
variable (s : State) (u : Fin 64) (code seg : Nat) (src : W32) (a lane : Nat)

theorem keepsBut_rowFault :
    KeepsBut [.regs, .logs, .frees, .tiles, .power, .net, .blks] s (rowFault s u code seg src a lane) := by
  rw [rowFault_eq]
  exact keepsBut_trans (keepsBut_mono (keepsBut_logE ..) (by decide)) (keepsBut_trans
    (keepsBut_mono (keepsBut_cleared _ u) (by decide)) (keepsBut_mono (keepsBut_faultBlk _ _) (by decide)))

/-- What a fault leaves of a register that counts no error and holds no fault or event. -/
theorem reg_rowFault {k : Nat} (he : k % 0x1000 ≠ 0x20) (hc : k % 0x1000 ≠ 0x30) (hp : k % 0x1000 ≠ 0x84) :
    reg (rowFault s u code seg src a lane) k = reg s k := by
  have hkeep := keepsBut_cleared (logEnt s (Blk.key (.row u)) (faultEnt code seg src a lane)) u
  rw [rowFault_eq, reg_faultBlk _ _ he hp, reg_congr (hkeep.2 .regs (by decide)) (hkeep.2 .fuses (by decide)),
    reg_logEnt _ _ _ fun h => hc (by rw [h, key_add_mod]; rfl)]

theorem rowFaulted_rowFault : RowFaulted u (faultEnt code seg src a lane) s (rowFault s u code seg src a lane) := by
  rw [rowFault_eq]
  generalize faultEnt code seg src a lane = e
  have hkeep := keepsBut_cleared (logEnt s (Blk.key (.row u)) e) u
  have ht := faultBlk_tiles (cleared (logEnt s (Blk.key (.row u)) e) u) (.row u)
  have hr := (rowOf_congr ht u).trans (rowOf_cleared _ u)
  generalize rowOf (undefAccs (logEnt s (Blk.key (.row u)) e) u) u = r at hr
  refine ⟨run_faultBlk _ rfl, ?_, by rw [hr]; rfl, by rw [hr]; rfl, by rw [hr]; rfl, fun i hi => ?_, fun v hv => ?_⟩
  · rw [logOf, faultBlk_logs, hkeep.2 .logs (by decide)]
    exact logOf_logEnt ..
  · rw [hr]; exact items_dropped r hi
  · rw [tile_congr ht, tile_cleared _ _ hv, tile_congr (tiles_logEnt ..)]

end

theorem rowFaulted_latched {u : Fin 64} {e : LogEnt} {s w t : State} (h : RowFaulted u e s w) (hl : Latched u w t) :
    RowFaulted u e s t := by
  obtain ⟨hrun, hlog, hq, hx, hlv, hit, hoth⟩ := h
  refine ⟨hl.fault rfl hrun, ?_, ?_, ?_, ?_, fun i hi => ?_, fun v hv => (tile_congr hl.tiles v).trans (hoth v hv)⟩
  · rw [logOf, hl.keeps.2 .logs (by decide)]; exact hlog
  · rw [hl.row]; exact hq
  · rw [hl.row]; exact hx
  · rw [hl.row]; exact hlv
  · rw [hl.row]; exact hit i hi

/-- A command that is a row's fault. -/
theorem tileAct_rowFault {u : Fin 64} {f : State → State} {s s' : State} {code seg : Nat} {src : W32} {a lane : Nat}
    (hi : issues s (.seq u) = true) (h : f s = rowFault s' u code seg src a lane)
    (hk : s'.pending = s.pending ∧ s'.fuses = s.fuses ∧ s'.clock = s.clock) :
    ∃ t, tileAct u f s = .next t ∧ Latched u (rowFault s' u code seg src a lane) t := by
  obtain ⟨hp, hf, hc⟩ := hk
  have hkept := keepsBut_rowFault s' u code seg src a lane
  exact tileAct_latched hi h ⟨hkept.1.trans hp, (hkept.2 .fuses (by decide)).trans hf, (hkept.2 .clock (by decide)).trans hc⟩

end Sys2Proof.Machine
end

section
/-! SUPPORT. Beats at the extension ports of a row (R96-R102). -/

open Sys2Proof.Says

namespace Sys2Proof.Machine

section
variable {u : Fin 64} {s : State}

/-! ### Faults of the feeds and of the ports (R101, R110) -/

theorem feedError_faults {code seg lane a : Nat} {c : RowCmd} (hon : tileOn s u = true) (hfl : inFault s (.row u) = false)
    (hc : (rowOf s u).exec.find? (fun c => c.seg == seg) = some c) :
    feedError u code seg lane a s = rowFault s u (code + 1) seg (rowSrc c) a lane := by
  unfold feedError
  simp only [hc, hon, hfl, Bool.not_false, Bool.and_self, if_true]

theorem portLost_faults {res : Bool} {c : RowCmd} (hon : tileOn s u = true) (hfl : inFault s (.row u) = false)
    (hp : portConn s u = false) (hu : usesPort (rowOf s u) res = true) (hc : portUser (rowOf s u) res = some c) :
    portLost u res s = rowFault s u 7 c.seg (rowSrc c) 0 0 := by
  unfold portLost
  simp only [hon, hfl, hp, hu, hc, Bool.not_true, Bool.or_self, Bool.false_eq_true, if_false, Option.map_some, Option.getD_some]

/-! ### Beats for the fabric (R96, R97) -/

theorem portConn_of_moves (h : portMoves s u = true) : portConn s u = true := (Bool.and_eq_true_iff.mp h).1

theorem beatOut_unconnected {res : Bool} (h : portConn s u = false) : beatOut u res s =
    updRow s u (fun r => if res then { r with resOut := [], resWait := [] } else { r with opOut := [], opWait := [] }) := by
  unfold beatOut
  rw [h]
  rfl

theorem beatOut_still {res : Bool} (hc : portConn s u = true) (h : portMoves s u = false) : beatOut u res s = s := by
  unfold beatOut
  rw [hc, h]
  rfl

theorem beatOut_moves {res : Bool} (h : portMoves s u = true) : beatOut u res s = updRow s u (fun r =>
    if res then { r with resOut := (bqFill (r.resOut.drop 1) r.resWait).1, resWait := (bqFill (r.resOut.drop 1) r.resWait).2 }
    else { r with opOut := (bqFill (r.opOut.drop 1) r.opWait).1, opWait := (bqFill (r.opOut.drop 1) r.opWait).2 }) := by
  unfold beatOut
  rw [portConn_of_moves h, h]
  rfl

theorem keepsBut_beatOut (u : Fin 64) (res : Bool) (s : State) : KeepsBut [.tiles] s (beatOut u res s) := by
  unfold beatOut
  split
  · exact keepsBut_updTile s u _
  · split
    · exact keepsBut_refl _ s
    · exact keepsBut_updTile s u _

/-! ### Protocol errors (R100, R120) -/

/-- PORTERR of the row with what an error shows. -/
def withPortErr (s : State) (u : Fin 64) (res : Bool) (cause seg n : Nat) : State :=
  setReg s (Blk.key (.row u) + Rg.row.PORTERR) (w32 (cause + b2n res * 16 + seg * 32 + n % 2 ^ 16 * 2 ^ 16))

theorem portError_faults (s : State) (u : Fin 64) (res : Bool) (cause seg n : Nat) : ∃ code src,
    portError s u res cause seg n = rowFault (withPortErr s u res cause seg n) u code seg src 0 0 := ⟨_, _, rfl⟩

/-- A command that is a protocol error at a port leaves the row in FAULT, and PORTERR. -/
theorem tileAct_portError {f : State → State} {res : Bool} {cause seg n k : Nat} (hi : issues s (.seq u) = true)
    (h : f s = portError (bump s k) u res cause seg n) : ∃ t, tileAct u f s = .next t ∧ (blkSt t (.row u)).run = .fault ∧
      reg t (Blk.key (.row u) + Rg.row.PORTERR) = w32 (cause + b2n res * 16 + seg * 32 + n % 2 ^ 16 * 2 ^ 16) := by
  obtain ⟨code, src, he⟩ := portError_faults (bump s k) u res cause seg n
  have hk : KeepsBut [.regs] s (withPortErr (bump s k) u res cause seg n) := keepsBut_trans (keepsBut_bump s k 1) (keepsBut_setReg _ _ _)
  obtain ⟨t, ht, hl⟩ := tileAct_rowFault hi (h.trans he) ⟨hk.1, hk.2 .fuses (by decide), hk.2 .clock (by decide)⟩
  obtain ⟨hrun, -⟩ := rowFaulted_rowFault (withPortErr (bump s k) u res cause seg n) u code seg src 0 0
  refine ⟨t, ht, hl.fault rfl hrun, ?_⟩
  rw [hl.reg (by rw [key_add_mod]; decide), reg_rowFault _ _ _ _ _ _ _ (by rw [key_add_mod]; decide) (by rw [key_add_mod]; decide)
    (by rw [key_add_mod]; decide), withPortErr, reg_setReg_same]

/-! ### Beats from the fabric (R97-R100) -/

theorem operandBeat_still {b : Beat} (h : portMoves s u = false) : operandBeat u b s = s := by
  unfold operandBeat
  simp only [h, Bool.not_false, Bool.or_true, Bool.true_or, if_true]

theorem resultBeat_still {b : Beat} (h : portMoves s u = false) : resultBeat u b s = s := by
  unfold resultBeat
  simp only [h, Bool.not_false, Bool.or_true, if_true]

theorem inFault_bump (k : Nat) : inFault (bump s k) (.row u) = inFault s (.row u) :=
  inFault_row_congr (keepsBut_bump s k 1) (by decide) u

theorem rowOf_bump (k : Nat) : rowOf (bump s k) u = rowOf s u := rowOf_congr (bump_tiles ..) u

section
variable {b : Beat} (hon : tileOn s u = true) (hfl : inFault s (.row u) = false) (hm : portMoves s u = true)
include hon hfl hm

theorem resultBeat_reserved (hr : bits b.sb 7 5 ≠ 0) : resultBeat u b s =
    portError (bump s (Blk.key (.row u) + Rg.row.RESBEATS)) u true 6 (bits b.sb 4 2)
      (((itemBeats s u true (bits b.sb 4 2)).map (· + 1)).getD 0) := by
  unfold resultBeat
  simp only [hon, hm, hr, inFault_bump, hfl, Bool.not_true, Bool.or_self, Bool.false_eq_true, if_false, ne_eq, not_false_eq_true, if_true]

theorem resultBeat_joins (hr : bits b.sb 7 5 = 0) (hseg : bits b.sb 4 2 < shapeSegs (rowOf s u).shape) (hcmd : b.sb.getLsbD 1 = false)
    (hlast : b.sb.getLsbD 0 = false) {p : PortOut} (hp : (rowOf s u).awaiting.find? (fun p => p.seg == bits b.sb 4 2) = some p)
    (hn : p.got.length / 16 + 1 ≠ p.beats) : resultBeat u b s =
      updRow (bump s (Blk.key (.row u) + Rg.row.RESBEATS)) u (fun r => { r with
        awaiting := r.awaiting.map (fun x => if x = p then { p with got := p.got ++ beatWords b } else x) }) := by
  unfold resultBeat
  simp only [hon, hm, hr, inFault_bump, hfl, Nat.not_le.mpr hseg, hcmd, hlast, hp, hn, beq_eq_false_iff_ne.mpr hn, Bool.not_true,
    Bool.or_self, Bool.and_false, Bool.false_and, Bool.false_eq_true, if_false, ne_eq, not_true_eq_false]

variable (hroom : opQueued s u < 32)
include hroom

theorem operandBeat_reserved (hr : bits b.sb 7 5 ≠ 0) : operandBeat u b s =
    portError (bump s (Blk.key (.row u) + Rg.row.OPBEATS)) u false 6 (bits b.sb 4 2)
      (((itemBeats s u false (bits b.sb 4 2)).map (· + 1)).getD 0) := by
  unfold operandBeat
  simp only [hon, hm, hr, inFault_bump, hfl, Nat.not_le.mpr hroom, decide_false, Bool.not_true, Bool.or_self, Bool.false_eq_true,
    if_false, ne_eq, not_false_eq_true, if_true]

theorem operandBeat_command (hr : bits b.sb 7 5 = 0) (hcmd : b.sb.getLsbD 1 = true) (hf : fabMaster s u = true) :
    operandBeat u b s = fabCommand (bump s (Blk.key (.row u) + Rg.row.OPBEATS)) u b := by
  have hf' : fabMaster (bump s (Blk.key (.row u) + Rg.row.OPBEATS)) u = true := by
    rw [fabMaster, regBit, reg_bump, if_neg (by simp only [Rg.row.TMODE, Rg.row.OPBEATS]; omega)]
    exact hf
  unfold operandBeat
  simp only [hon, hm, hr, inFault_bump, hfl, Nat.not_le.mpr hroom, hcmd, hf', decide_false, Bool.not_true, Bool.or_self,
    Bool.false_eq_true, if_false, ne_eq, not_true_eq_false, if_true]

/-- The beat of a token that comes where it is due waits with the others of its token. -/
theorem operandBeat_waits (hr : bits b.sb 7 5 = 0) (hseg : bits b.sb 4 2 < shapeSegs (rowOf s u).shape)
    (hcmd : b.sb.getLsbD 1 = false) {c : RowCmd} (hc : admitting (rowOf s u) (bits b.sb 4 2) = some c) (hop : c.op = .pass)
    (hpath : pPath c.cmd = 1) (hdec : opdec s u = false)
    (hfew : (segBeats (rowOf s u) (bits b.sb 4 2)).length < (c.total - c.admitted) * tokBeats false c.fmt)
    (hlast : b.sb.getLsbD 0 = true ↔
      (segBeats (rowOf s u) (bits b.sb 4 2)).length % tokBeats false c.fmt + 1 = tokBeats false c.fmt) :
    operandBeat u b s = updRow (bump s (Blk.key (.row u) + Rg.row.OPBEATS)) u (fun r => { r with opIn := r.opIn ++ [b] }) := by
  have hdec' : takesDec (bump s (Blk.key (.row u) + Rg.row.OPBEATS)) u c = false := by
    rw [takesDec, opdec, regBit, reg_bump, if_neg (by simp only [Rg.row.TMODE, Rg.row.OPBEATS]; omega)]
    exact (congrArg _ hdec).trans (Bool.and_false _)
  have hpos : tokBeats false c.fmt ≠ 0 := fun h => by rw [h] at hfew; omega
  have hend : b.sb.getLsbD 0 = (partBeats (rowOf s u) (bits b.sb 4 2) (tokBeats false c.fmt) + 1 == tokBeats false c.fmt) := by
    rw [partBeats, if_neg hpos]
    exact Bool.eq_iff_iff.mpr (hlast.trans beq_iff_eq.symm)
  unfold operandBeat
  simp only [hon, hm, hr, inFault_bump, hfl, Nat.not_le.mpr hroom, hcmd, Nat.not_le.mpr hseg, hc, hop, hpath, hdec',
    Nat.not_le.mpr hfew, decide_false, Bool.not_true, Bool.or_self, Bool.false_eq_true, if_false, ne_eq, not_true_eq_false,
    beq_self_eq_true, Bool.true_or, Bool.false_and, hend, bne, Bool.and_not_self, Bool.not_and_self]

end

/-! ### Fabric commands (R102) -/

/-- The command of a CMD beat, by its number. -/
def beatCmd (b : Beat) (n : BitVec 16) : Cmd := Cmd.ofWords ((beatWords b).take 8) (w32 (2 ^ 31 + n.toNat))

theorem words_ofWords {l : List W32} (h : l.length = 8) (src : W32) : (Cmd.ofWords l src).words.take 8 = l := by
  match l, h with
  | [_, _, _, _, _, _, _, _], _ => rfl

theorem length_beatWords (b : Beat) : (beatWords b).length = 16 := rfl

theorem words_beatCmd (b : Beat) (n : BitVec 16) : (beatCmd b n).words.take 8 = (beatWords b).take 8 :=
  words_ofWords (by rw [List.length_take, length_beatWords]; rfl) _

/-- Held fabric commands wait while the queue is full. -/
theorem fabAll_full (hq : 16 ≤ (rowOf s u).queue.length) : fabAll u s = s := by
  unfold fabAll
  cases hh : (rowOf s u).fabHeld with
  | nil => rfl
  | cons x l =>
    simp only [List.length_cons, fabPump, hh, decide_eq_true hq, Bool.or_true, Bool.true_or, if_true]

/-- The row with a fabric command numbered and held. -/
def holdsFab (s : State) (u : Fin 64) (b : Beat) : State :=
  updRow s u (fun r => { r with
    fabHeld := [(beatCmd b r.fabNext, r.fabNext)], fabNext := r.fabNext + 1, fabSeq := r.fabNext })

theorem startable_congr {r r' : Row} (h : r'.exec = r.exec) (before l : List RowCmd) : startable r' before l = startable r before l := by
  induction l generalizing before with
  | nil => rfl
  | cons c l ih =>
    have hm : mayStart r' before c = mayStart r before c := by rw [mayStart, mayStart, h]
    rw [startable, startable, hm, ih]

theorem fabCommand_holds {b : Beat} (hq : 16 ≤ (rowOf s u).queue.length) (hh : (rowOf s u).fabHeld = [])
    (hs : startable (rowOf s u) [] (rowOf s u).queue = none) : fabCommand s u b = holdsFab s u b := by
  have hqueue : (rowOf (holdsFab s u b) u).queue = (rowOf s u).queue := by rw [holdsFab, rowOf_updRow]
  have hexec : (rowOf (holdsFab s u b) u).exec = (rowOf s u).exec := by rw [holdsFab, rowOf_updRow]
  have hpump : rowPump u (holdsFab s u b) = holdsFab s u b := by
    unfold rowPump
    rw [fabAll_full (by rw [hqueue]; exact hq)]
    exact rowStart_of_none (by rw [hqueue, startable_congr (r := rowOf s u) hexec]; exact hs) _
  refine Eq.trans (congrArg (rowPump u) (updRow_congr ?_)) hpump
  simp only [hh]
  rfl

end

end Sys2Proof.Machine
end

section
/-! The ramp of the row rate, the ports of the row and its faults (O46). -/

open Sys2Proof.Says

namespace Sys2Proof.Machine

/-- A command that takes a beat: the beat counted, the row changed. -/
theorem tileAct_beat {u : Fin 64} {f : State → State} {s : State} {g : Row → Row} {o : Nat} (hi : issues s (.seq u) = true)
    (ho : o < 0x8000) (he : o % 0x1000 ≠ 0x20) (h : f s = updRow (bump s (Blk.key (.row u) + o)) u g) :
    ∃ t, tileAct u f s = .next t ∧ reg t (Blk.key (.row u) + o) = satAdd (reg s (Blk.key (.row u) + o)) 1 ∧ RowFrame u s t ∧
      rowOf t u = g (rowOf s u) := by
  obtain ⟨t, ht, hl, hf⟩ := tileAct_rowFrame hi h
    (rowFrame_trans (rowFrame_bump s 1 (rowKey_row u ho)) (rowFrame_updRow u _ g))
  refine ⟨t, ht, ?_, hf, by rw [hl.row, rowOf_updRow, rowOf_bump]⟩
  calc reg t (Blk.key (.row u) + o) = reg (updRow (bump s (Blk.key (.row u) + o)) u g) _ := hl.reg (by rw [key_add_mod]; exact he)
    _ = reg (bump s (Blk.key (.row u) + o)) (Blk.key (.row u) + o) := reg_congr (updRow_regs ..) (updRow_fuses ..) _
    _ = _ := by rw [reg_bump, if_pos rfl]

/-- The sideband of a beat with its CMD bit set: its other bits stay. -/
theorem sideband_cmd (v : BitVec 8) :
    bits (v ||| 2) 7 5 = bits v 7 5 ∧ bits (v ||| 2) 4 2 = bits v 4 2 ∧ (v ||| 2).getLsbD 1 = true := by
  revert v; decide

theorem portsFeedsAndRowFaults : PortsFeedsAndRowFaults := by
  intro u s b hw r k seg one
  obtain ⟨hi, hon, hfl⟩ := hw
  refine ⟨fun code sg lane a c hc => ?_, fun res c hp hu hc => ?_, fun res => ?_, fun hm => ⟨?_, ?_⟩, fun hm hroom => ?_⟩
  · obtain ⟨t, he, hl⟩ := tileAct_rowFault hi
      (feedError_faults (a := a.toNat) (lane := lane) (code := code) hon hfl hc) ⟨rfl, rfl, rfl⟩
    exact ⟨t, he, rowFaulted_latched (rowFaulted_rowFault ..) hl⟩
  · obtain ⟨t, he, hl⟩ := tileAct_rowFault hi (portLost_faults hon hfl hp hu hc) ⟨rfl, rfl, rfl⟩
    exact ⟨t, he, rowFaulted_latched (rowFaulted_rowFault ..) hl⟩
  · have hk := keepsBut_beatOut u res s
    refine ⟨_, act_of_keeps hk (by decide) (by decide), hk, fun hc => ?_, fun hc hm => ?_, fun hm => ?_⟩
    · rw [beatOut_unconnected hc, rowOf_updRow]
    · rw [beatOut_still hc hm]
    · rw [beatOut_moves hm, rowOf_updRow]
  · obtain ⟨t, he, hl⟩ := tileAct_latched hi (operandBeat_still (b := b) hm) ⟨rfl, rfl, rfl⟩
    exact ⟨t, he, hl.row⟩
  · obtain ⟨t, he, hl⟩ := tileAct_latched hi (resultBeat_still (b := b) hm) ⟨rfl, rfl, rfl⟩
    exact ⟨t, he, hl.row⟩
  · refine ⟨fun hr => ⟨?_, ?_⟩, fun hr hseg hcmd => ⟨fun c hc hop hpath hdec hfew hlast => ?_, fun p hp hn hlast => ?_⟩,
      fun hr hf hq hh hs => ?_⟩
    · exact tileAct_portError hi (operandBeat_reserved hon hfl hm hroom hr)
    · exact tileAct_portError hi (resultBeat_reserved hon hfl hm hr)
    · obtain ⟨t, he, hone, hframe, hrow⟩ := tileAct_beat hi (by decide) (by decide)
        (operandBeat_waits hon hfl hm hroom hr hseg hcmd hc hop hpath hdec hfew hlast)
      exact ⟨t, he, hrow, hone, hframe⟩
    · obtain ⟨t, he, hone, hframe, hrow⟩ := tileAct_beat hi (by decide) (by decide)
        (resultBeat_joins hon hfl hm hr hseg hcmd hlast hp hn)
      exact ⟨t, he, hone, hframe, hrow⟩
    · obtain ⟨hrsv, -, hbit⟩ := sideband_cmd b.sb
      have hbeat := operandBeat_command (b := { b with sb := b.sb ||| 0x02 }) hon hfl hm hroom (hrsv.trans hr) hbit hf
      rw [fabCommand_holds (by rw [rowOf_bump]; exact hq) (by rw [rowOf_bump]; exact hh) (by rw [rowOf_bump]; exact hs)] at hbeat
      obtain ⟨t, he, hone, hframe, hrow⟩ := tileAct_beat hi (by decide) (by decide) hbeat
      exact ⟨t, _, he, hone, hframe, words_beatCmd b _, rfl, hrow⟩

/-- Settles O46: each of these commands is a change of the row, or its fault, with the tile's events latched after it. -/
theorem rampPortsAndFeeds : Obligations.RampPortsAndFeeds := by
  unfold Obligations.RampPortsAndFeeds
  exact ⟨rampGrantsAndRates, portsFeedsAndRowFaults⟩

end Sys2Proof.Machine
end

section
/-! SUPPORT. Reads of memory leave the tiles as they are (R213, R300). -/

open Sys2Proof.Says

namespace Sys2Proof.Machine

/-- Its functions stand as variables in the proof: the kernel would else compute with the address map. -/
theorem dramServed_dramNow (s : State) (r : Req) : DramServed s (dramNow s r).2.2 := by
  have href := dramServed_dramRefuse s
  have hnow := fun s k => dramServed_stackNow s k r
  obtain ⟨f, hf⟩ := exists_eq (a' := dramNow)
  obtain ⟨map, hm⟩ := exists_eq (a' := dramMap)
  obtain ⟨ref, hr⟩ := exists_eq (a' := dramRefuse)
  obtain ⟨now, hn⟩ := exists_eq (a' := stackNow)
  obtain ⟨check, hc⟩ := exists_eq (a' := dramCheck)
  obtain ⟨sync, hs⟩ := exists_eq (a' := cohSync)
  obtain ⟨wipe, hw⟩ := exists_eq (a' := wipeNote)
  have hsync := dramServed_cohSync s r.addr.toNat (r.kind != .read)
  have hwipe := fun s k => dramServed_wipeNote s k r.addr.toNat r.len
  rw [← hf]
  delta dramNow at hf
  rw [← hm, ← hr, ← hn, ← hc, ← hs, ← hw] at hf
  rw [← hs] at hsync
  rw [← hw] at hwipe
  rw [← hr] at href
  rw [← hn] at hnow
  subst hf
  dsimp only
  split
  · exact href _ _
  · refine dramServed_trans ?_ (hnow _ _ _)
    split
    · exact dramServed_trans hsync (hwipe _ _)
    · exact hsync

/-- The parts of the state that reads of memory may change. -/
def readParts : List Part := .banks :: dramParts

theorem keepsBut_dramNow (s : State) (r : Req) : KeepsBut readParts s (dramNow s r).2.2 :=
  keepsBut_mono (dramServed_dramNow s r).keeps (by decide)

theorem keepsBut_bankLog (s : State) (code w pos : Nat) (who : Option Init) : KeepsBut readParts s (bankLog s code w pos who) :=
  keepsBut_mono (keepsBut_logE ..) (by decide)

theorem keepsBut_corrected1 (read : Bool) (who : Init) (s : State) (w : Nat) : KeepsBut readParts s (corrected1 read who s w) := by
  unfold corrected1
  split
  · extract_lets o k s1 s2
    have h1 : KeepsBut readParts s s1 :=
      keepsBut_mono (keepsBut_trans (keepsBut_bump s _ 1) (keepsBut_pulse _ _ _)) (by decide)
    have h2 : KeepsBut readParts s s2 := by
      unfold s2
      split
      · exact keepsBut_trans h1 (keepsBut_bankLog _ _ _ _ _)
      · exact h1
    split
    · exact keepsBut_trans h2 (keepsBut_mono (keepsBut_updBank _ _ _ _) (by decide))
    · exact h2
  · exact keepsBut_refl _ s

theorem keepsBut_scrPerform_read {s : State} {r : Req} (hr : r.kind = .read) (o : Nat) : KeepsBut readParts s (scrPerform s r o).2.2 := by
  unfold scrPerform
  extract_lets k ws
  split
  · exact keepsBut_trans (keepsBut_bankLog ..) (keepsBut_mono (keepsBut_trans (keepsBut_bump _ _ _) (keepsBut_pulse _ _ _)) (by decide))
  · simp only [hr]
    exact keepsBut_trans (keepsBut_mono (keepsBut_bump s _ 1) (by decide))
      (keepsBut_foldl _ (fun u w => keepsBut_corrected1 _ _ u w) ws _)

theorem keepsBut_scrRequest_read {s : State} {r : Req} (hr : r.kind = .read) (hc : r.cnt = none) (o : Nat) :
    KeepsBut readParts s (scrRequest s r o).2.2 := by
  have hacc : KeepsBut readParts s (scrAccess s r o).2.2 := by
    unfold scrAccess
    dsimp only
    split
    · exact keepsBut_bankLog ..
    · split
      · exact keepsBut_refl _ s
      · simp only [hc]
        exact keepsBut_scrPerform_read hr o
  exact keepsBut_trans hacc (keepsBut_mono (keepsBut_respErr _ _ _) (by decide))

theorem keepsBut_memNow_read (s : State) (who : Init) (a n : Nat) (d : List Byte) :
    KeepsBut readParts s (memNow s (mkReq who .read a n d)).2.2 := by
  unfold memNow
  split
  · exact keepsBut_scrRequest_read rfl rfl _
  · split
    · exact keepsBut_dramNow s _
    · exact keepsBut_mono (keepsBut_respErr s _ _) (by decide)

theorem keepsBut_readPieces (who : Init) (ps : List (Nat × Nat)) (d : List Byte) (s : State) :
    KeepsBut readParts s (readPieces who ps d s).st := by
  induction ps generalizing d s with
  | nil => exact keepsBut_refl _ s
  | cons p ps ih =>
    unfold readPieces
    dsimp only
    split
    · exact keepsBut_memNow_read s who p.1 p.2 []
    · exact keepsBut_trans (keepsBut_memNow_read s who p.1 p.2 []) (ih _ _)

/-- A read of memory leaves the tiles as they are. -/
theorem tiles_memRead (s : State) (who : Init) (a n : Nat) : (memRead s who a n).st.tiles = s.tiles :=
  (keepsBut_readPieces who (blocksOf a n) [] s).2 .tiles (by decide)

end Sys2Proof.Machine
end

section
/-! SUPPORT. Row commands at acceptance: their fields, the accumulator state they leave, skips, and the start of an accepted
    command (R78-R95). -/

open Sys2Proof.Says

namespace Sys2Proof.Machine

/-! ### Fields of a command whose opcode is set (R177) -/

theorem bits_congr {n : Nat} {v w : BitVec n} {hi lo : Nat} (h : ∀ j, lo ≤ j → j ≤ hi → v.getLsbD j = w.getLsbD j) :
    bits v hi lo = bits w hi lo := by
  refine Nat.eq_of_testBit_eq fun i => ?_
  simp only [bits, Nat.testBit_mod_two_pow, Nat.testBit_shiftRight]
  rcases Nat.lt_or_ge i (hi + 1 - lo) with hi' | hi'
  · exact congrArg (decide (i < hi + 1 - lo) && ·) (h (lo + i) (by omega) (by omega))
  · simp [Nat.not_lt.mpr hi']

section
variable (c : Cmd) {code : Nat} (h : code < 6)
include h

theorem getLsbD_withOp {j : Nat} (hj : j < 32) : (withOp c 0 code).hdr.getLsbD j =
    if j < 9 then (w32 code).getLsbD j else c.hdr.getLsbD j := by
  have hmask : (~~~0x1FF#32).getLsbD j = !decide (j < 9) :=
    (by decide : ∀ k : Fin 32, (~~~0x1FF#32).getLsbD k = !decide (k.val < 9)) ⟨j, hj⟩
  have hcode : 9 ≤ j → (w32 code).getLsbD j = false :=
    (by decide : ∀ n : Fin 6, ∀ k : Fin 32, 9 ≤ k.val → (w32 n).getLsbD k = false) ⟨code, h⟩ ⟨j, hj⟩
  show ((c.hdr &&& ~~~0x1FF#32) ||| w32 (code + 0)).getLsbD j = _
  rw [BitVec.getLsbD_or, BitVec.getLsbD_and, hmask]
  split
  · next h9 => simp [h9]
  · next h9 => simp [h9, hcode (Nat.le_of_not_lt h9)]

theorem hOpc_withOp : hOpc (withOp c 0 code) = code := by
  have hb : hOpc (withOp c 0 code) = bits (w32 code) 5 0 :=
    bits_congr fun j _ hj => (getLsbD_withOp c h (by omega)).trans (if_pos (by omega))
  rw [hb]
  exact (by decide : ∀ n : Fin 6, bits (w32 n) 5 0 = n.val) ⟨code, h⟩

theorem hFdi_withOp : hFdi (withOp c 0 code) = bits c.hdr 21 18 :=
  bits_congr fun j hl hj => (getLsbD_withOp c h (by omega)).trans (if_neg (by omega))

end

/-! ### Entries (R63, R80) -/

theorem entOf_setEnts (a : SegAcc) (e n : Nat) (v : Ent) (i : Nat) :
    entOf (setEnts a e n v) i = if e ≤ i ∧ i < e + n then v else entOf a i := by
  induction n with
  | zero => rw [if_neg (by omega)]; rfl
  | succ n ih =>
    have hs : entOf (setEnts a e (n + 1) v) i = if i = e + n then v else entOf (setEnts a e n v) i := by
      simp only [entOf, setEnts, List.range_succ, List.foldl_append, List.foldl_cons, List.foldl_nil, tget_tset]
    rw [hs, ih, ← ite_or]
    exact if_congr (by omega) rfl rfl

theorem entOf_sweepRecs (a : SegAcc) (i : Nat) : entOf (sweepRecs a) i = entOf a i := rfl

/-- The entries of a closing pass wait for their results, those of another collect sums (R80). -/
theorem entOf_accAfter_pass (a : SegAcc) {c : RowCmd} (h : c.op = .pass) {e : Nat} (hl : pA c.cmd ≤ e) (hu : e < pA c.cmd + pB c.cmd) :
    (entOf (accAfter a c) e).k = if pClose c.cmd then .pending else .opened := by
  have hin : pA c.cmd ≤ e ∧ e < pA c.cmd + pB c.cmd := ⟨hl, hu⟩
  unfold accAfter
  simp only [h]
  have hload : ∀ a : SegAcc, ∀ l, entOf (if pKeepw c.cmd then a else { a with loaded := l }) e = entOf a e := fun a l => by
    split <;> rfl
  rw [hload]
  split
  · exact congrArg Ent.k ((entOf_setEnts _ _ _ _ _).trans (if_pos hin))
  · exact congrArg Ent.k ((entOf_setEnts _ _ _ _ _).trans (if_pos hin))

/-- A FLUSH or an ARGX leaves the entries of its range idle (R87, R88). -/
theorem entOf_accAfter_flush (a : SegAcc) {c : RowCmd} (h : c.op = .flush ∨ c.op = .argx) {e : Nat} (hl : pA c.cmd ≤ e)
    (hu : e < pA c.cmd + pB c.cmd) : (entOf (accAfter a c) e).k = .idle := by
  have ha : accAfter a c = sweepRecs (setEnts a (pA c.cmd) (pB c.cmd) idleEnt) := by
    unfold accAfter
    rcases h with h | h <;> rw [h]
  rw [ha, entOf_sweepRecs, entOf_setEnts, if_pos ⟨hl, hu⟩]
  rfl

theorem length_pendings (s : State) (u : Fin 64) (seg e n : Nat) :
    (pendings (segOf (rowOf s u) seg).acc e n).length = pendingIn s u seg e n := by
  rw [pendings, List.filterMap_map, pendingIn, ← List.countP_eq_length_filter, List.length_filterMap_eq_countP]
  refine List.countP_congr fun i _ => ?_
  simp only [Function.comp_apply, Nat.add_comm i e]
  split <;> simp_all

/-! ### Skips (R192) -/

section
variable (u : Fin 64) (s : State)

theorem cpu_pulse (k n : Nat) (q : Cpu) : cpu (pulse s k n) q = cpu s q := rfl

theorem skips_sev (n : Nat) : (cpu (sev s u n) (.tile u)).skips = (cpu s (.tile u)).skips := by rw [sev, cpu_updCpu_same]

variable (addr hdr : W32) (f : Fail) (hroom : (cpu s (.tile u)).skips.length < 32)
include hroom

/-- The log of skips with one more, as the sequencer's own processor holds it. -/
theorem skipLog_logs : skipLog s u addr hdr f =
    pulse (sev (updCpu (bump s (Blk.key (.seq u) + Rg.seq.CMDSKIPL)) (.tile u) (fun _ =>
      { cpu s (.tile u) with skips := (cpu s (.tile u)).skips ++ [⟨addr, hdr, w32 (f.1 + f.2 * 2 ^ 8)⟩] })) u 8)
      (Blk.keyP (.seq u) 1) 0 := by
  unfold skipLog
  simp only [hroom, if_true]
  rfl

theorem rowFrame_skipLog : RowFrame u s (skipLog s u addr hdr f) := by
  rw [skipLog_logs u s addr hdr f hroom]
  exact rowFrame_trans (rowFrame_bump s 1 (rowKey_CMDSKIPL u)) (rowFrame_trans (rowFrame_updCpu u _ _)
    (rowFrame_trans (rowFrame_sev u _ 8) (rowFrame_pulse _ (p := (.seq u, 1)) 0 (by simp [tilePages]))))

theorem rowOf_skipLog : rowOf (skipLog s u addr hdr f) u = rowOf s u := by
  rw [skipLog_logs u s addr hdr f hroom, rowOf_pulse, rowOf_sev, rowOf_updCpu, rowOf_bump]

theorem skips_skipLog : (cpu (skipLog s u addr hdr f) (.tile u)).skips =
    (cpu s (.tile u)).skips ++ [⟨addr, hdr, w32 (f.1 + f.2 * 2 ^ 8)⟩] := by
  rw [skipLog_logs u s addr hdr f hroom, cpu_pulse, skips_sev, cpu_updCpu_same]

end

/-! ### A row command given to a row with nothing queued or held (R79, R81) -/

/-- The tile with one more command dispatched: the next sequence number outstanding. -/
def dispatched (s : State) (u : Fin 64) : State :=
  updCpu s (.tile u) (fun p => { p with nextSeq := (cpu s (.tile u)).nextSeq + 1, outst := p.outst ++ [(cpu s (.tile u)).nextSeq] })

/-- The command of an opcode as an accepting row holds it. -/
def acceptedCmd (s : State) (u : Fin 64) (op : RowOp) (c : Cmd) : RowCmd :=
  mkRowCmd (dispatched s u) u op c none (cpu s (.tile u)).nextSeq

/-- The row with an accepted command's entries, records and shape, and its id used. -/
def acceptedRow (s : State) (u : Fin 64) (x : RowCmd) : State :=
  updRow (dispatched s u) u (fun r => { accSegs r x with nextId := r.nextId + 1 })

/-- And with the command in the queue. -/
def queuedRow (s : State) (u : Fin 64) (x : RowCmd) : State := updRow (acceptedRow s u x) u (fun r => { r with queue := r.queue ++ [x] })

/-- The row with a queued command started. -/
def startedRow (s : State) (u : Fin 64) (x : RowCmd) : State :=
  updRow s u (fun r => { r with queue := r.queue.filter (fun y => y.id != x.id), exec := r.exec ++ [{ x with started := true }] })

section
variable {u : Fin 64} {s : State}

theorem rowFails_updCpu (f : Proc → Proc) (c : Cmd) (fab : Bool) : rowFails (updCpu s (.tile u) f) u c fab = rowFails s u c fab := by
  unfold rowFails passFails flushFails argxFails tapFails shapeFails feedFails
  simp only [rowOf_updCpu]
  rfl

theorem rowFails_dispatched (c : Cmd) (fab : Bool) : rowFails (dispatched s u) u c fab = rowFails s u c fab := rowFails_updCpu _ c fab

theorem rowGive_of_room (hr : rowRoom s u = true) (code : Nat) (c : Cmd) : rowGive u code c s =
    rowPump u (rowAccept (dispatched s u) u (withOp c 0 code) none (cpu s (.tile u)).nextSeq) := by
  unfold rowGive
  simp only [hr, Bool.not_true, Bool.false_eq_true, if_false]
  rfl

theorem rowAccept_fails {c : Cmd} {n : Nat} {f : Fail} (h : worst (rowFails s u c false) = some f) :
    rowAccept s u c none n = skipCmd s u c n f := by
  unfold rowAccept
  simp only [Option.isSome_none, h]
  rfl

section
variable {op : RowOp} {c : Cmd} (h : rowFails s u c false = []) (hop : rowOpOf (hOpc c) = some op)
include h hop

theorem rowAccept_queues (hx : ¬((op = .flush ∨ op = .argx) ∧ (acceptedCmd s u op c).total = 0)) :
    rowAccept (dispatched s u) u c none (cpu s (.tile u)).nextSeq = queuedRow s u (acceptedCmd s u op c) := by
  have hf : rowFails (dispatched s u) u c false = [] := (rowFails_dispatched c false).trans h
  unfold rowAccept
  simp only [Option.isSome_none, hf, worst, hop]
  exact if_neg hx

theorem rowAccept_completes (hx : (op = .flush ∨ op = .argx) ∧ (acceptedCmd s u op c).total = 0) :
    rowAccept (dispatched s u) u c none (cpu s (.tile u)).nextSeq =
      rowDone (acceptedRow s u (acceptedCmd s u op c)) u (acceptedCmd s u op c) := by
  have hf : rowFails (dispatched s u) u c false = [] := (rowFails_dispatched c false).trans h
  unfold rowAccept
  simp only [Option.isSome_none, hf, worst, hop]
  exact if_pos hx

end

/-- The only queued command starts, unless it is a SHAPE. -/
theorem rowPump_starts {x : RowCmd} (hg : isGoing s (.row u) = true) (hf : (rowOf s u).fabHeld = []) (hq : (rowOf s u).queue = [x])
    (hx : (rowOf s u).exec = []) (hop : x.op ≠ .shape) : rowPump u s =
      if x.op = .pass ∧ pPath x.cmd = 2 then sendToken (startedRow s u x) u x 0 else startedRow s u x := by
  have hs : startable (rowOf s u) [] [x] = some x := by
    rw [startable, mayStart, hx]
    simp [hop]
  unfold rowPump
  simp only [fabAll_of_none hf, hq, List.length_singleton, rowStart, hg, Bool.not_true, Bool.false_eq_true, if_false, hs]
  rfl

/-- A SHAPE waits in the queue. -/
theorem rowPump_holds {x : RowCmd} (hf : (rowOf s u).fabHeld = []) (hq : (rowOf s u).queue = [x]) (hop : x.op = .shape) :
    rowPump u s = s := by
  refine rowPump_of_none hf ?_
  rw [hq, startable, mayStart, hop]
  rfl

end

end Sys2Proof.Machine
end

section
/-! SUPPORT. What the row holds of an accepted command (R79-R81, R87, R88, R93). -/

open Sys2Proof.Says

namespace Sys2Proof.Machine

section
variable (r : Row) (x : RowCmd)

theorem accSegs_queue : (accSegs r x).queue = r.queue := by unfold accSegs; split <;> rfl
theorem accSegs_exec : (accSegs r x).exec = r.exec := by unfold accSegs; split <;> rfl
theorem accSegs_fabHeld : (accSegs r x).fabHeld = r.fabHeld := by unfold accSegs; split <;> rfl
theorem accSegs_shape : (accSegs r x).shape = r.shape := by unfold accSegs; split <;> rfl

theorem accSegs_accShape (h : x.op = .shape) : (accSegs r x).accShape = BitVec.ofNat 2 (bits x.cmd.w1 1 0) := by
  unfold accSegs; rw [if_pos h]

theorem acc_accSegs (h : x.op ≠ .shape) : (segOf (accSegs r x) x.seg).acc = accAfter (segOf r x.seg).acc x := by
  unfold accSegs; rw [if_neg h, segOf_updSeg_same]

end

section
variable {u : Fin 64} {s : State}

theorem rowOf_dispatched : rowOf (dispatched s u) u = rowOf s u := rowOf_updCpu s u _

variable {x : RowCmd}

theorem rowOf_acceptedRow : rowOf (acceptedRow s u x) u = { accSegs (rowOf s u) x with nextId := (accSegs (rowOf s u) x).nextId + 1 } := by
  rw [acceptedRow, rowOf_updRow, rowOf_dispatched]
  unfold accSegs; split <;> rfl

theorem cpu_acceptedRow : cpu (acceptedRow s u x) (.tile u) = cpu (dispatched s u) (.tile u) := cpu_updRow _ u _
theorem cpu_queuedRow : cpu (queuedRow s u x) (.tile u) = cpu (dispatched s u) (.tile u) := (cpu_updRow _ u _).trans cpu_acceptedRow
theorem cpu_startedRow : cpu (startedRow s u x) (.tile u) = cpu s (.tile u) := cpu_updRow s u _

theorem cpu_dispatched : cpu (dispatched s u) (.tile u) = { cpu s (.tile u) with
    nextSeq := (cpu s (.tile u)).nextSeq + 1, outst := (cpu s (.tile u)).outst ++ [(cpu s (.tile u)).nextSeq] } := cpu_updCpu_same ..

theorem rowFrame_acceptedRow : RowFrame u s (acceptedRow s u x) := rowFrame_trans (rowFrame_updCpu u s _) (rowFrame_updRow u _ _)
theorem rowFrame_queuedRow : RowFrame u s (queuedRow s u x) := rowFrame_trans rowFrame_acceptedRow (rowFrame_updRow u _ _)
theorem rowFrame_startedRow : RowFrame u s (startedRow s u x) := rowFrame_updRow u s _

theorem keepsBut_updRow (s : State) (u : Fin 64) (f : Row → Row) : KeepsBut [.tiles] s (updRow s u f) := keepsBut_updTile s u _

theorem keepsBut_queuedRow : KeepsBut [.tiles] s (queuedRow s u x) :=
  keepsBut_trans (t := dispatched s u) (keepsBut_updTile s u _) (keepsBut_trans (keepsBut_updRow _ u _) (keepsBut_updRow _ u _))

theorem isGoing_of_keeps {t : State} (h : KeepsBut [.tiles] s t) (b : Blk) : isGoing t b = isGoing s b := by
  rw [isGoing, isGoing, blkSt_of_keeps h (by decide)]

theorem queue_queuedRow (hq : (rowOf s u).queue = []) : (rowOf (queuedRow s u x) u).queue = [x] := by
  rw [queuedRow, rowOf_updRow, rowOf_acceptedRow]
  show (accSegs (rowOf s u) x).queue ++ [x] = [x]
  rw [accSegs_queue, hq]; rfl

theorem exec_queuedRow : (rowOf (queuedRow s u x) u).exec = (rowOf s u).exec := by
  rw [queuedRow, rowOf_updRow, rowOf_acceptedRow]
  exact accSegs_exec _ x

theorem fabHeld_queuedRow : (rowOf (queuedRow s u x) u).fabHeld = (rowOf s u).fabHeld := by
  rw [queuedRow, rowOf_updRow, rowOf_acceptedRow]
  exact accSegs_fabHeld _ x

theorem segOf_queuedRow (i : Nat) : segOf (rowOf (queuedRow s u x) u) i = segOf (accSegs (rowOf s u) x) i := by
  rw [queuedRow, rowOf_updRow, rowOf_acceptedRow]; rfl

theorem queue_startedRow (hq : (rowOf s u).queue = [x]) : (rowOf (startedRow s u x) u).queue = [] := by
  rw [startedRow, rowOf_updRow, hq]
  exact List.filter_eq_nil_iff.mpr (by simp)

theorem exec_startedRow (hx : (rowOf s u).exec = []) : (rowOf (startedRow s u x) u).exec = [{ x with started := true }] := by
  rw [startedRow, rowOf_updRow, hx]; rfl

theorem segOf_startedRow (i : Nat) : segOf (rowOf (startedRow s u x) u) i = segOf (rowOf s u) i := by
  rw [startedRow, rowOf_updRow]; rfl

/-! ### The accepted command -/

variable {op : RowOp} {code : Nat} {c : Cmd}

theorem segNo_withOp : segNo op (withOp c 0 code) = segNo op c := by cases op <;> rfl

/-- An accepted command, started or not, as a command that passes every check is described (R79, R81). -/
theorem taken_acceptedCmd (hcode : code < 6) {t : State} (hf : RowFrame u s t) (hk : KeepsBut [.tiles, .regs, .blks] s t)
    (hp : cpu t (.tile u) = cpu (dispatched s u) (.tile u)) (b : Bool) :
    Taken u op code c (acceptedCmd s u op (withOp c 0 code)).total s t { acceptedCmd s u op (withOp c 0 code) with started := b } := by
  refine ⟨rfl, rfl, rfl, rfl, rfl, ?_, rfl, hp.trans cpu_dispatched, hf, hk⟩
  show fmtdesc (dispatched s u) u (hFdi (withOp c 0 code)) = _
  rw [hFdi_withOp c hcode]
  rfl

/-- A FLUSH or an ARGX emits the results pending in its range (R87, R88). -/
theorem total_flush (hop : op = .flush ∨ op = .argx) : (acceptedCmd s u op (withOp c 0 code)).total =
    pendingIn s u (segNo op c) (bits c.w1 15 8) (bits c.w1 24 16) := by
  have ht : (acceptedCmd s u op (withOp c 0 code)).total =
      (pendings (segOf (rowOf (dispatched s u) u) (segNo op (withOp c 0 code))).acc (bits c.w1 15 8) (bits c.w1 24 16)).length := by
    rcases hop with rfl | rfl <;> rfl
  rw [ht, rowOf_dispatched, segNo_withOp, length_pendings]

/-! ### Such a command as one of the table -/

section
variable (hi : issues s (.seq u) = true) (hroom : rowRoom s u = true) (hq : (rowOf s u).queue = [])
  (hf : (rowOf s u).fabHeld = [])
include hi hroom hq hf

theorem give_skips {f : Fail} (hw : worst (rowFails s u (withOp c 0 code) false) = some f)
    (hlen : (cpu s (.tile u)).skips.length < 32) : ∃ t, tileAct u (rowGive u code c) s = .next t ∧ rowOf t u = rowOf s u ∧
      (cpu t (.tile u)).skips = (cpu s (.tile u)).skips ++ [⟨c.src, (withOp c 0 code).hdr, w32 (f.1 + f.2 * 2 ^ 8)⟩] ∧
      RowFrame u s t := by
  let c' := withOp c 0 code
  let n := (cpu s (.tile u)).nextSeq
  have hskips : (cpu (dispatched s u) (.tile u)).skips = (cpu s (.tile u)).skips := by rw [cpu_dispatched]
  have hlen' : (cpu (dispatched s u) (.tile u)).skips.length < 32 := by rw [hskips]; exact hlen
  have hrow : rowOf (skipCmd (dispatched s u) u c' n f) u = rowOf s u :=
    (rowOf_retireSeq u _ n).trans ((rowOf_skipLog u _ _ _ f hlen').trans rowOf_dispatched)
  have hgive : rowGive u code c s = skipCmd (dispatched s u) u c' n f := by
    rw [rowGive_of_room hroom, rowAccept_fails ((congrArg worst (rowFails_dispatched _ _)).trans hw)]
    exact rowPump_of_empty (by rw [hrow]; exact hf) (by rw [hrow]; exact hq)
  have hframe : RowFrame u s (skipCmd (dispatched s u) u c' n f) :=
    rowFrame_trans (rowFrame_updCpu u s _) (rowFrame_trans (rowFrame_skipLog u _ _ _ f hlen') (rowFrame_retireSeq u _ n))
  obtain ⟨t, he, hl, hft⟩ := tileAct_rowFrame hi hgive hframe
  refine ⟨t, he, hl.row.trans hrow, ?_, hft⟩
  rw [hl.cpu, skipCmd, retireSeq, cpu_updCpu_same]
  rw [skips_skipLog u _ _ _ f hlen', hskips]
  rfl

end

section
variable (hroom : rowRoom s u = true) (hcode : code < 6) (hop : rowOpOf code = some op)
  (hfails : rowFails s u (withOp c 0 code) false = [])
include hroom hcode hop hfails

theorem give_queues (hx : ¬((op = .flush ∨ op = .argx) ∧ (acceptedCmd s u op (withOp c 0 code)).total = 0)) :
    rowGive u code c s = rowPump u (queuedRow s u (acceptedCmd s u op (withOp c 0 code))) := by
  rw [rowGive_of_room hroom, rowAccept_queues hfails (by rw [hOpc_withOp c hcode]; exact hop) hx]

theorem give_completes (hx : (op = .flush ∨ op = .argx) ∧ (acceptedCmd s u op (withOp c 0 code)).total = 0) :
    rowGive u code c s = rowPump u (rowDone (acceptedRow s u (acceptedCmd s u op (withOp c 0 code))) u
      (acceptedCmd s u op (withOp c 0 code))) := by
  rw [rowGive_of_room hroom, rowAccept_completes hfails (by rw [hOpc_withOp c hcode]; exact hop) hx]

variable (hq : (rowOf s u).queue = []) (hf : (rowOf s u).fabHeld = [])
include hq hf

theorem give_starts_or_sends (hne : op ≠ .shape) (hx : (rowOf s u).exec = [])
    (htot : ¬((op = .flush ∨ op = .argx) ∧ (acceptedCmd s u op (withOp c 0 code)).total = 0)) : rowGive u code c s =
      let x := acceptedCmd s u op (withOp c 0 code)
      if op = .pass ∧ bits c.w1 7 6 = 2 then sendToken (startedRow (queuedRow s u x) u x) u x 0
      else startedRow (queuedRow s u x) u x := by
  have hg : isGoing s (.row u) = true := by
    simp only [rowRoom, Bool.and_eq_true] at hroom
    exact hroom.1.2
  rw [give_queues hroom hcode hop hfails htot]
  exact rowPump_starts ((isGoing_of_keeps keepsBut_queuedRow _).trans hg) (fabHeld_queuedRow.trans hf) (queue_queuedRow hq)
    (exec_queuedRow.trans hx) hne

/-- A command with items to admit that sends no token to the fabric starts (R81). -/
theorem give_starts (hi : issues s (.seq u) = true) (hx : (rowOf s u).exec = []) (hne : op ≠ .shape)
    (htot : ¬((op = .flush ∨ op = .argx) ∧ (acceptedCmd s u op (withOp c 0 code)).total = 0))
    (hpath : ¬(op = .pass ∧ bits c.w1 7 6 = 2)) : ∃ t x, tileAct u (rowGive u code c) s = .next t ∧
      Taken u op code c (acceptedCmd s u op (withOp c 0 code)).total s t x ∧ (rowOf t u).queue = [] ∧ (rowOf t u).exec = [x] ∧
      (segOf (rowOf t u) (segNo op c)).acc = accAfter (segOf (rowOf s u) (segNo op c)).acc x := by
  let x := acceptedCmd s u op (withOp c 0 code)
  have hgive := (give_starts_or_sends hroom hcode hop hfails hq hf hne hx htot).trans (if_neg hpath)
  obtain ⟨t, he, hl, hft⟩ := tileAct_rowFrame hi hgive (rowFrame_trans rowFrame_queuedRow rowFrame_startedRow)
  have hk : KeepsBut [.tiles, .regs, .blks] s t :=
    keepsBut_trans (keepsBut_mono (keepsBut_trans keepsBut_queuedRow (keepsBut_updRow _ u _)) (by decide))
      (keepsBut_mono hl.keeps (by decide))
  refine ⟨t, { x with started := true }, he,
    taken_acceptedCmd hcode hft hk (hl.cpu.trans (cpu_startedRow.trans cpu_queuedRow)) true, ?_, ?_, ?_⟩
  · rw [hl.row]; exact queue_startedRow (queue_queuedRow hq)
  · rw [hl.row]; exact exec_startedRow (exec_queuedRow.trans hx)
  · have hseg : x.seg = segNo op c := segNo_withOp
    rw [hl.row, segOf_startedRow, segOf_queuedRow, ← hseg]
    exact acc_accSegs _ x hne

/-- A FLUSH or ARGX with results pending starts, its range idle (R87, R88). -/
theorem give_empties (hi : issues s (.seq u) = true) (hx : (rowOf s u).exec = []) (hfl : op = .flush ∨ op = .argx)
    (hpos : 0 < pendingIn s u (segNo op c) (bits c.w1 15 8) (bits c.w1 24 16)) : ∃ t, tileAct u (rowGive u code c) s = .next t ∧
      (∃ x, Taken u op code c (pendingIn s u (segNo op c) (bits c.w1 15 8) (bits c.w1 24 16)) s t x ∧ (rowOf t u).queue = [] ∧
        (rowOf t u).exec = [x]) ∧
      ∀ e, bits c.w1 15 8 ≤ e → e < bits c.w1 15 8 + bits c.w1 24 16 →
        (entOf (segOf (rowOf t u) (segNo op c)).acc e).k = .idle := by
  have htot := total_flush (s := s) (u := u) (code := code) (c := c) hfl
  obtain ⟨t, x, he, htaken, hqueue, hexec, hacc⟩ := give_starts hroom hcode hop hfails hq hf hi hx
    (by rcases hfl with rfl | rfl <;> decide) (by rw [htot]; omega) (by rcases hfl with rfl | rfl <;> simp)
  obtain ⟨hxop, hxcmd, -⟩ := id htaken
  refine ⟨t, he, ⟨x, htot ▸ htaken, hqueue, hexec⟩, fun e hl hu => ?_⟩
  rw [hacc]
  exact entOf_accAfter_flush _ (by rw [hxop]; exact hfl) (by rw [hxcmd]; exact hl) (by rw [hxcmd]; exact hu)

/-- A FLUSH or ARGX with nothing pending completes as it is accepted (R87, R88). -/
theorem give_done (hi : issues s (.seq u) = true) (hx : (rowOf s u).exec = [])
    (hfl : op = .flush ∨ op = .argx) (hzero : pendingIn s u (segNo op c) (bits c.w1 15 8) (bits c.w1 24 16) = 0) :
    ∃ t, tileAct u (rowGive u code c) s = .next t ∧ (rowOf t u).queue = [] ∧ (rowOf t u).exec = [] ∧
      (cpu t (.tile u)).outst = (cpu s (.tile u)).outst.filter (fun m => m != (cpu s (.tile u)).nextSeq) := by
  let x := acceptedCmd s u op (withOp c 0 code)
  have htot : x.total = 0 := (total_flush hfl).trans hzero
  have hn : x.fabric = none := rfl
  have hrow : rowOf (rowDone (acceptedRow s u x) u x) u = rowOf (acceptedRow s u x) u := rowOf_rowDone hn
  have hqueue : (rowOf (acceptedRow s u x) u).queue = [] := by rw [rowOf_acceptedRow]; exact (accSegs_queue _ x).trans hq
  have hexec : (rowOf (acceptedRow s u x) u).exec = [] := by rw [rowOf_acceptedRow]; exact (accSegs_exec _ x).trans hx
  have hheld : (rowOf (acceptedRow s u x) u).fabHeld = [] := by rw [rowOf_acceptedRow]; exact (accSegs_fabHeld _ x).trans hf
  have hgive : rowGive u code c s = rowDone (acceptedRow s u x) u x :=
    (give_completes hroom hcode hop hfails ⟨hfl, htot⟩).trans
      (rowPump_of_empty (by rw [hrow]; exact hheld) (by rw [hrow]; exact hqueue))
  obtain ⟨t, he, hl, -⟩ := tileAct_rowFrame hi hgive (rowFrame_trans rowFrame_acceptedRow (rowFrame_rowDone hn))
  refine ⟨t, he, by rw [hl.row, hrow, hqueue], by rw [hl.row, hrow, hexec], ?_⟩
  rw [hl.cpu, outst_rowDone hn, cpu_acceptedRow, cpu_dispatched]
  have hseq : x.seqno = (cpu s (.tile u)).nextSeq := rfl
  simp [List.filter_append, hseq]

/-- A SHAPE waits in the queue, the shape of acceptance its own (R93). -/
theorem give_shape (hi : issues s (.seq u) = true) (hshape : op = .shape) : ∃ t x, tileAct u (rowGive u code c) s = .next t ∧
    Taken u op code c 0 s t x ∧ (rowOf t u).queue = [x] ∧ (rowOf t u).accShape = BitVec.ofNat 2 (bits c.w1 1 0) ∧
    (rowOf t u).shape = (rowOf s u).shape := by
  let x := acceptedCmd s u op (withOp c 0 code)
  have htot : (acceptedCmd s u op (withOp c 0 code)).total = 0 := by rw [hshape]; rfl
  have hgive : rowGive u code c s = queuedRow s u x :=
    (give_queues hroom hcode hop hfails (by simp [hshape])).trans
      (rowPump_holds (fabHeld_queuedRow.trans hf) (queue_queuedRow hq) hshape)
  obtain ⟨t, he, hl, hft⟩ := tileAct_rowFrame hi hgive rowFrame_queuedRow
  have hk : KeepsBut [.tiles, .regs, .blks] s t :=
    keepsBut_trans (keepsBut_mono keepsBut_queuedRow (by decide)) (keepsBut_mono hl.keeps (by decide))
  refine ⟨t, x, he, htot ▸ taken_acceptedCmd hcode hft hk (hl.cpu.trans cpu_queuedRow) false, ?_, ?_, ?_⟩ <;> rw [hl.row]
  · exact queue_queuedRow hq
  · rw [queuedRow, rowOf_updRow, rowOf_acceptedRow]
    exact accSegs_accShape _ x hshape
  · rw [queuedRow, rowOf_updRow, rowOf_acceptedRow]
    exact accSegs_shape _ x

end
end

end Sys2Proof.Machine
end

section
/-! Row commands are checked as they are accepted, and taken or skipped (O8). -/

open Sys2Proof.Says

namespace Sys2Proof.Machine

/-! ### A pass that sends its tokens to the fabric (R81, R98) -/

theorem exec_opSend (s : State) (u : Fin 64) (bs : List Beat) : (rowOf (opSend s u bs) u).exec = (rowOf s u).exec := by
  unfold opSend
  split
  · rfl
  · rw [rowOf_updRow]

/-- Sending a token either fails, with the row in FAULT, or leaves the executing commands. -/
theorem sendToken_faults_or_keeps (s : State) (u : Fin 64) (c : RowCmd) (j : Nat) :
    (blkSt (sendToken s u c j) (.row u)).run = .fault ∨ (rowOf (sendToken s u c j) u).exec = (rowOf s u).exec := by
  unfold sendToken
  extract_lets m es bs out
  split
  · exact .inl (rowFaulted_rowFault ..).1
  · refine .inr ?_
    rw [exec_opSend, rowOf_congr (tiles_memRead ..)]

theorem blks_tileTo {u : Fin 64} {f : State → State} {s : State} (hi : issues s (.seq u) = true) :
    (tileTo u f s).blks = (tileSettle u (f s)).blks := by
  show (watched (tilePages u) _ s).blks = _
  rw [watched_blks, if_pos hi]

/-- A row that a command leaves in FAULT is in FAULT after it. -/
theorem fault_tileTo {u : Fin 64} {f : State → State} {s : State} (hi : issues s (.seq u) = true)
    (hf : (blkSt (f s) (.row u)).run = .fault) : (blkSt (tileTo u f s) (.row u)).run = .fault := by
  rw [blkSt_congr (blks_tileTo hi)]
  rcases stopHeld_tileSettle u (f s) (b := .row u) rfl with he | ⟨hs, -⟩
  · rw [he, hf]
  · rw [hf] at hs; cases hs

/-- A pass with tokens for the fabric is executing once accepted, unless its first token cannot be read. -/
theorem give_sends {u : Fin 64} {s : State} {c : Cmd} (hi : issues s (.seq u) = true) (hroom : rowRoom s u = true)
    (hfails : rowFails s u (withOp c 0 1) false = []) (hq : (rowOf s u).queue = []) (hx : (rowOf s u).exec = [])
    (hf : (rowOf s u).fabHeld = []) (hpath : bits c.w1 7 6 = 2) : ∃ t, tileAct u (rowGive u 1 c) s = .next t ∧
      ((blkSt t (.row u)).run = .fault ∨ ∃ x, (rowOf t u).exec = [x] ∧ x.op = .pass ∧ x.cmd = withOp c 0 1) := by
  let x := acceptedCmd s u .pass (withOp c 0 1)
  have hgive : rowGive u 1 c s = sendToken (startedRow (queuedRow s u x) u x) u x 0 :=
    (give_starts_or_sends hroom (by decide) rfl hfails hq hf (by decide) hx (by simp)).trans (if_pos ⟨rfl, hpath⟩)
  refine ⟨_, tileAct_next u _ s, ?_⟩
  rcases sendToken_faults_or_keeps (startedRow (queuedRow s u x) u x) u x 0 with hfault | hexec
  · exact .inl (fault_tileTo hi (by rw [hgive]; exact hfault))
  · refine .inr ⟨{ x with started := true }, ?_, rfl, rfl⟩
    rw [rowOf_congr (tiles_tileTo hi), hgive, hexec]
    exact exec_startedRow (exec_queuedRow.trans hx)

/-- Settles O8: a command given to a row with nothing queued or held is skipped, completed, queued or started at once, as its
    checks and its opcode say. -/
theorem rowCommandsAreCheckedAndTaken : Obligations.RowCommandsAreCheckedAndTaken := by
  unfold Obligations.RowCommandsAreCheckedAndTaken
  intro u s c hi hroom hq hx hf a n seg started skipped done
  have hskip : ∀ i code, (∀ s, exec i s = tileAct u (rowGive u code c) s) → skipped i code := fun i code he f hw hlen => by
    rw [he]
    exact give_skips hi hroom hq hf hw hlen
  refine ⟨⟨hskip _ 1 fun _ => rfl, hskip _ 2 fun _ => rfl, hskip _ 3 fun _ => rfl, hskip _ 4 fun _ => rfl, hskip _ 5 fun _ => rfl⟩,
    fun hfails hpath => ?_, fun hfails hpath => ?_, fun hfails => ?_, fun hfails => ⟨fun hpos => ?_, fun hzero => ?_⟩,
    fun hfails => ⟨fun hpos => ?_, fun hzero => ?_⟩, fun hfails => ?_⟩
  · obtain ⟨t, x, he, htaken, hqueue, hexec, hacc⟩ := give_starts (op := .pass) hroom (by decide) rfl hfails hq hf hi hx (by decide)
      (by simp) (fun h => hpath h.2)
    obtain ⟨hop, hcmd, -⟩ := id htaken
    refine ⟨t, he, ⟨x, htaken, hqueue, hexec⟩, fun e hl hu => ?_⟩
    have hk := entOf_accAfter_pass (segOf (rowOf s u) seg).acc hop (e := e) (by rw [hcmd]; exact hl) (by rw [hcmd]; exact hu)
    rw [hcmd] at hk
    exact (congrArg (fun a => (entOf a e).k) hacc).trans hk
  · exact give_sends hi hroom hfails hq hx hf hpath
  · obtain ⟨t, x, he, htaken, hqueue, hexec, -⟩ := give_starts (op := .tap) hroom (by decide) rfl hfails hq hf hi hx (by decide)
      (by simp) (by simp)
    exact ⟨t, he, x, htaken, hqueue, hexec⟩
  · exact give_empties (op := .flush) hroom (by decide) rfl hfails hq hf hi hx (.inl rfl) hpos
  · exact give_done (op := .flush) hroom (by decide) rfl hfails hq hf hi hx (.inl rfl) hzero
  · exact give_empties (op := .argx) hroom (by decide) rfl hfails hq hf hi hx (.inr rfl) hpos
  · exact give_done (op := .argx) hroom (by decide) rfl hfails hq hf hi hx (.inr rfl) hzero
  · obtain ⟨t, x, he, htaken, hqueue, hacc, hshape⟩ := give_shape (op := .shape) hroom (by decide) rfl hfails hq hf hi rfl
    exact ⟨t, he, ⟨x, htaken, hqueue⟩, hacc, hshape⟩

end Sys2Proof.Machine
end
